-- ==== Sys2Proof/Word.lean ====
section
/-!
DEFINITION. The words of the PX9160: bytes, 64-bit registers and cells (00_scope R3 R10), 512-bit descriptor
registers and 44-bit local addresses (02 R30, 00 R12).
-/

namespace Sys2Proof

/-- A byte of memory. -/
abbrev Byte := BitVec 8

/-- A register or an aligned 8-byte cell. -/
abbrev Word := BitVec 64

/-- A descriptor register: eight words, w0 in bits [63:0] (02 R30). -/
abbrev Desc := BitVec 512

/-- A local address (00 R12). -/
abbrev LAddr := BitVec 44

end Sys2Proof
end

