-- ==== Sys2Proof/Syntax/Operands.lean ====
section
/-!
DEFINITION. The operands of the commands: the fields of the Flikoush instructions (02 R40-R61 and the unit
chapters' encodings), and what the surroundings hand to the device with an event (a frame, a packet, a sensor
reading, an error that a read meets).
-/

namespace Sys2Proof

/-! ### Flikoush instructions -/

/-- The functions of an OP instruction, 02 R43. -/
inductive AluOp
  | add | sub | and | or | xor | sll | srl | sra | slt | sltu | min | max | minu | maxu
  | mul | mulh | mulhu | div | divu | rem | remu
  deriving DecidableEq, Repr

/-- The functions of an OPF instruction with two sources, 02 R45. -/
inductive FpOp
  | fadd | fsub | fmul | fmin | fmax | feq | flt | fle
  deriving DecidableEq, Repr

/-- The immediate forms of 02 R46. -/
inductive ImmOp
  | addi | andi | ori | xori | slti
  deriving DecidableEq, Repr

/-- The shift kinds of 02 R47. -/
inductive ShOp
  | slli | srli | srai
  deriving DecidableEq, Repr

/-- The load widths of 02 R49. -/
inductive LoadW
  | lb | lh | lw | ld | lbu | lhu | lwu
  deriving DecidableEq, Repr

/-- The store widths of 02 R50. -/
inductive StoreW
  | sb | sh | sw | st | stRel
  deriving DecidableEq, Repr

/-- The branch conditions of 02 R53. -/
inductive Cond
  | eq | ne | lt | ge | ltu | geu
  deriving DecidableEq, Repr

/-- The five units of a core in the order of 02 R37 and of CORE_STATUS.QBUSY (02 R94). -/
inductive UnitId
  | trowel | brush | stencil | mover | scrim
  deriving DecidableEq, Repr

/-- Fields of a unit instruction with one descriptor and an optional summary slot
(MOV 04 R162, STC 09 R305 and 10 R335, RLR 11 R378, SCR 12 R434). -/
structure UnitF where
  tw : BitVec 6
  ts : BitVec 6
  desc : BitVec 4
  se : Bool
  slot : BitVec 3
  deriving DecidableEq, Repr

/-- Fields of TRW.MMA, 06 R217. -/
structure MmaF where
  tw : BitVec 6
  ts : BitVec 6
  p : BitVec 3
  dt : BitVec 4
  bankB : Bool
  init : Bool
  deriving DecidableEq, Repr

/-- Fields of TRW.CLR, 06 R217. -/
structure ClrF where
  tw : BitVec 6
  ts : BitVec 6
  bankB : Bool
  ty : Bool
  th : Bool
  deriving DecidableEq, Repr

/-- Fields of TRW.DRAIN, 06 R218. -/
structure DrainF where
  tw : BitVec 6
  ts : BitVec 6
  dd : BitVec 4
  bankB : Bool
  se : Bool
  slot : BitVec 3
  clr : Bool
  deriving DecidableEq, Repr

/-- Fields of TRW.LDACC, 06 R218. -/
structure LdaccF where
  tw : BitVec 6
  ts : BitVec 6
  dd : BitVec 4
  bankB : Bool
  deriving DecidableEq, Repr

/-- Fields of BRS.LDP, 08 R277. -/
structure LdpF where
  tw : BitVec 6
  ts : BitVec 6
  desc : BitVec 4
  pslot : BitVec 3
  deriving DecidableEq, Repr

/-- Fields of BRS.RUN, 08 R277. -/
structure RunF where
  tw : BitVec 6
  ts : BitVec 6
  p : BitVec 3
  se : Bool
  slot : BitVec 3
  deriving DecidableEq, Repr

/-- A unit instruction of the Flikoush set. -/
inductive UOp
  | movRow (dn : Bool) (f : UnitF) | movBlk (f : UnitF) | movRcfl (inv : Bool) (f : UnitF) | movPutf (f : UnitF)
  | trwMma (f : MmaF) | trwDrain (f : DrainF) | trwLdacc (f : LdaccF) | trwClr (f : ClrF)
  | brsLdp (f : LdpF) | brsRun (f : RunF)
  | stcFwd (f : UnitF) | stcBwd (f : UnitF) | stcPtedit (f : UnitF) | stcBucket (f : UnitF) | stcDec (f : UnitF)
  | rlrVld (f : UnitF) | rlrMv (f : UnitF) | rlrRd (f : UnitF) | rlrWr (f : UnitF)
  | scrMcast (f : UnitF) | scrRed (f : UnitF) | scrBar (f : UnitF) | scrFlag (f : UnitF)
  deriving DecidableEq, Repr

/-- A Flikoush instruction as its word spells it (02 R40-R61): the core that issues it is no part of it. -/
inductive Flik
  | op (f : AluOp) (rd rs1 rs2 : BitVec 5)
  | opf (f : FpOp) (rd rs1 rs2 : BitVec 5)
  | fcvtSL (rd rs1 : BitVec 5) | fcvtLS (rd rs1 : BitVec 5)
  | opi (f : ImmOp) (rd rs1 : BitVec 5) (imm : BitVec 15)
  | shi (f : ShOp) (rd rs1 : BitVec 5) (sh : BitVec 6)
  | lui (rd : BitVec 5) (imm : BitVec 20)
  | load (w : LoadW) (rd rs1 : BitVec 5) (imm : BitVec 12)
  | store (w : StoreW) (rs2 rs1 : BitVec 5) (imm : BitVec 12)
  | br (c : Cond) (rs1 rs2 : BitVec 5) (off : BitVec 12)
  | jal (rd : BitVec 5) (off : BitVec 20)
  | jalr (rd rs1 : BitVec 5) (imm : BitVec 15)
  | tks (tk : BitVec 6) (imm : BitVec 11) | tkw (tk : BitVec 6) (imm : BitVec 11)
  | tkrd (xd : BitVec 5) (tk : BitVec 6) | tkset (tk : BitVec 6) (xs : BitVec 5)
  | waitf (rd rs1 rs2 : BitVec 5) (cond : BitVec 3) (acq : Bool) (tmo : BitVec 5)
  | sumrd (xd : BitVec 5) (slot field : BitVec 3)
  | dld (dn : BitVec 4) (xs : BitVec 5) (imm : BitVec 16) | dst (dn : BitVec 4) (xs : BitVec 5) (imm : BitVec 16)
  | dset (dn : BitVec 4) (w : BitVec 3) (xs : BitVec 5) | dget (xd : BitVec 5) (dn : BitVec 4) (w : BitVec 3)
  | dcpy (dn dm : BitVec 4) | dzero (dn : BitVec 4)
  | fence | icinv | seed (xs : BitVec 5) | brk (imm : BitVec 15) | halt (xs : BitVec 5)
  | unit (u : UOp)
  deriving DecidableEq, Repr

/-! ### What the surroundings hand to the device -/

/-- What a read of a cell finds (16 R539-R542): a soft correctable error, a hard one, an
uncorrectable one, a hard uncorrectable one; or what strikes a code bit, 0-71, of a word as its row crosses a vertical
channel, at a moment in microseconds (03 R103 R105 R123). -/
inductive ErrKind
  | soft | hard | uncorr | hardUncorr | transit (bit us : Nat)
  deriving DecidableEq, Repr

/-- An error that stands at a memory cell when a command reads it. -/
structure MemErr where
  key : Nat
  kind : ErrKind
  deriving DecidableEq, Repr

/-- An operand, and the errors that the command's reads and rows meet. -/
structure Met (α : Type) where
  val : α
  errs : List MemErr
  deriving DecidableEq, Repr

/-- What a lower-Scrim or Skim flit carries toward an address: some bytes, up to 256 (12 R414). -/
structure Carried where
  addr : Nat
  len : Nat
  deriving DecidableEq, Repr

/-- A line that a core's instruction cache drops, and the errors that its fetch meets (02 R84). -/
structure LineFetch where
  line : Nat
  errs : List MemErr
  deriving DecidableEq, Repr

/-- The entry of a core into its launch, and the errors that the preload of its cache meets (02 R85). -/
structure CoreEntry where
  lc : Nat
  errs : List MemErr
  deriving DecidableEq, Repr

/-- The end of a Roller's pass after a number of steps, whether the gap stays open for queued requests, and the errors that
the steps meet (11 R389 R390). -/
structure PassEnd where
  roller : Nat
  steps : Nat
  gap : Bool
  errs : List MemErr
  deriving DecidableEq, Repr

/-- The words, 0-31, of a row that fail their check, and the microsecond (03 R125). -/
structure FailedRow where
  words : List Nat
  us : Nat
  deriving DecidableEq, Repr

/-- What a unit row does: the control core issues the instruction into its unit's queue, or the unit performs the
work of the instruction it has started (DESIGN CHOICE, log entry 4). -/
inductive UStep (α : Type)
  | issue (f : α)
  | perform (errs : List MemErr)
  deriving DecidableEq, Repr

/-- Who makes an access to a register. -/
inductive Requester
  | host | core (lc : Nat) | firmware | remote (dev : Nat) | bmc
  deriving DecidableEq, Repr

/-- A half of the Skim: west is columns 0-6, east is columns 7-13 (03). -/
inductive Half
  | west | east
  deriving DecidableEq, Repr

/-- A direction of a vertical channel (03 R102): up is Lath to Skim, down is Skim to Lath. -/
inductive VcDir
  | up | down
  deriving DecidableEq, Repr

/-- Why a retune window falls due (03 R119): the milliseconds since the last one, the kelvin by which the site's Skim
temperature has changed since then, or a corrected error. -/
inductive RetuneCause
  | interval (ms : Nat) | temp (kelvin : Nat) | corrected
  deriving DecidableEq, Repr

/-- What a retune window measures of one group (03 R114 R120): eye width and centre, as a setting 0-127. -/
structure GroupTune where
  dir : VcDir
  group : Nat
  eye : Nat
  centre : Nat
  deriving DecidableEq, Repr

/-- A PCI Express configuration request (14 R485): a byte offset, and for a write the bytes with their enables. -/
structure CfgReq where
  write : Bool
  off : Nat
  len : Nat
  bytes : List (Option Byte)
  deriving DecidableEq, Repr

/-- A Kerit frame as the receiver decodes it (13 R449), with the mark of an uncorrectable codeword (R448), how many such
codewords ended since the frame before it (R484), and the pre-FEC margin of the port's worst lane (R483). -/
structure Frame where
  pseq : BitVec 16
  ack : BitVec 16
  credReq : BitVec 8
  credRsp : BitVec 8
  credMgt : BitVec 8
  typ : BitVec 4
  vc : BitVec 2
  sop : Bool
  eop : Bool
  flit : List Byte
  crc : BitVec 64
  marked : Bool
  words : Nat := 0
  margin : BitVec 8 := 0
  deriving DecidableEq, Repr

/-- What a port's training ends with (13 R455 R466): the trained lanes, the peer's identity, the pre-FEC margin. -/
structure Training where
  lanes : BitVec 8
  peerDev : BitVec 12
  peerPort : BitVec 4
  margin : BitVec 8
  deriving DecidableEq, Repr

/-- A fault that a test or a detector finds (15 R516-R518): the TYPE and LOC of its snag-list entry, and its SIG; whether the
first try to write the entry is torn, which leaves its slot of no use (R519). -/
structure FoundFault where
  typ : BitVec 8
  loc : Word
  sig : Word
  inservice : Bool
  torn : Bool := false
  deriving DecidableEq, Repr

/-- What a sweep finds on one physical lane of a lane group at one of the three points (03 R114 R115), GC being group 8:
the settings, 0-127, at which the lane returns errors, and 128 where it errs once the group stands at the centre of its eye.
Lanes that no record names return none. -/
structure VcTrain where
  site : Nat
  dir : VcDir
  group : Nat
  point : Nat
  lane : Nat
  bad : List Nat
  deriving DecidableEq, Repr

/-- What the module meets during a start (15 R509-R516): the speed and width that the PCI Express link trains to (14
R505, 0 where it stays down), the faults that the tests find, the lanes that err in vertical training, the ports that finish
their Kerit training (13 R455), the milliseconds of BRAKE_N asserted in phases 4-6 (20 R643); which slots of the snag list
fail their CRC (R519), which copies of the map fail their check, 0 the newer and 1 the older (R526), and the errors that
reads meet, those of the copies into patch registers among them (16 R550). -/
structure StartIn where
  speed : Nat
  width : Nat
  found : List FoundFault
  trained : List VcTrain
  ports : List (Nat × Training)
  brakeMs : Nat
  rot : List Nat
  lostMaps : List Nat
  errs : List MemErr
  deriving DecidableEq, Repr

/-- The scope of a power state (17 R566). -/
inductive PowerScope
  | coreClock (lc : Nat) | core (lc : Nat) | half (h : Half) | hod | render | module
  deriving DecidableEq, Repr

/-- The two MCTP transports of 18 R604. -/
inductive Transport
  | pcie | i3c
  deriving DecidableEq, Repr

/-- The fields of an SPDM request that its answer depends on (18 R604 R605). -/
structure SpdmReq where
  slot : Nat
  nonce : List Byte
  index : Nat
  sign : Bool
  off : Nat
  len : Nat
  algs : Nat
  deriving DecidableEq, Repr

/-- What the MC of a panel member receives on channel MGT (13 R469, 18 R602): a whole image, or a command with its chunk index
and the bytes of the lead's image buffer; and whether the flash takes it. -/
inductive MgtIn
  | image (bytes : List Byte)
  | command (cmd chunk : Nat) (bytes : List Byte) (flashOk : Bool)
  deriving DecidableEq, Repr

/-- The supplies in millivolts (20 R640): the input at the busbar clip, and 3V3_AUX. -/
structure Supply where
  clip : Nat
  aux : Nat
  deriving DecidableEq, Repr

/-- A write of a command to SEC_FW_CTRL (18 R614), its CMD given by the row. -/
structure FwCtl where
  req : Requester
  panel : Bool
  chunk : BitVec 8
  deriving DecidableEq, Repr

/-- A write of a command to SEC_DBG_CTRL (18 R615), its CMD given by the row. -/
structure DbgCtl where
  req : Requester
  slot : BitVec 4
  scope : BitVec 3
  deriving DecidableEq, Repr

end Sys2Proof
end

