-- ==== Sys2Proof/Syntax.lean ====
section
/-!
DEFINITION. The commands of the PX9160: one constructor per row of spec/opcode_table.json, in the table's order.
A command that belongs to a core carries the core's logical number; the instructions of the Flikoush set carry the
fields of their words (02 R40).
-/

namespace Sys2Proof

/-- A command of the block. -/
inductive Instr
  /-- ADD. -/
  | add (lc : Nat) (rd : BitVec 5) (rs1 : BitVec 5) (rs2 : BitVec 5)
  /-- SUB. -/
  | sub (lc : Nat) (rd : BitVec 5) (rs1 : BitVec 5) (rs2 : BitVec 5)
  /-- AND. -/
  | and (lc : Nat) (rd : BitVec 5) (rs1 : BitVec 5) (rs2 : BitVec 5)
  /-- OR. -/
  | or (lc : Nat) (rd : BitVec 5) (rs1 : BitVec 5) (rs2 : BitVec 5)
  /-- XOR. -/
  | xor (lc : Nat) (rd : BitVec 5) (rs1 : BitVec 5) (rs2 : BitVec 5)
  /-- SLL. -/
  | sll (lc : Nat) (rd : BitVec 5) (rs1 : BitVec 5) (rs2 : BitVec 5)
  /-- SRL. -/
  | srl (lc : Nat) (rd : BitVec 5) (rs1 : BitVec 5) (rs2 : BitVec 5)
  /-- SRA. -/
  | sra (lc : Nat) (rd : BitVec 5) (rs1 : BitVec 5) (rs2 : BitVec 5)
  /-- SLT. -/
  | slt (lc : Nat) (rd : BitVec 5) (rs1 : BitVec 5) (rs2 : BitVec 5)
  /-- SLTU. -/
  | sltu (lc : Nat) (rd : BitVec 5) (rs1 : BitVec 5) (rs2 : BitVec 5)
  /-- MIN. -/
  | min (lc : Nat) (rd : BitVec 5) (rs1 : BitVec 5) (rs2 : BitVec 5)
  /-- MAX. -/
  | max (lc : Nat) (rd : BitVec 5) (rs1 : BitVec 5) (rs2 : BitVec 5)
  /-- MINU. -/
  | minu (lc : Nat) (rd : BitVec 5) (rs1 : BitVec 5) (rs2 : BitVec 5)
  /-- MAXU. -/
  | maxu (lc : Nat) (rd : BitVec 5) (rs1 : BitVec 5) (rs2 : BitVec 5)
  /-- MUL. -/
  | mul (lc : Nat) (rd : BitVec 5) (rs1 : BitVec 5) (rs2 : BitVec 5)
  /-- MULH. -/
  | mulh (lc : Nat) (rd : BitVec 5) (rs1 : BitVec 5) (rs2 : BitVec 5)
  /-- MULHU. -/
  | mulhu (lc : Nat) (rd : BitVec 5) (rs1 : BitVec 5) (rs2 : BitVec 5)
  /-- DIV. -/
  | div (lc : Nat) (rd : BitVec 5) (rs1 : BitVec 5) (rs2 : BitVec 5)
  /-- DIVU. -/
  | divu (lc : Nat) (rd : BitVec 5) (rs1 : BitVec 5) (rs2 : BitVec 5)
  /-- REM. -/
  | rem (lc : Nat) (rd : BitVec 5) (rs1 : BitVec 5) (rs2 : BitVec 5)
  /-- REMU. -/
  | remu (lc : Nat) (rd : BitVec 5) (rs1 : BitVec 5) (rs2 : BitVec 5)
  /-- FADD. -/
  | fadd (lc : Nat) (rd : BitVec 5) (rs1 : BitVec 5) (rs2 : BitVec 5)
  /-- FSUB. -/
  | fsub (lc : Nat) (rd : BitVec 5) (rs1 : BitVec 5) (rs2 : BitVec 5)
  /-- FMUL. -/
  | fmul (lc : Nat) (rd : BitVec 5) (rs1 : BitVec 5) (rs2 : BitVec 5)
  /-- FMIN. -/
  | fmin (lc : Nat) (rd : BitVec 5) (rs1 : BitVec 5) (rs2 : BitVec 5)
  /-- FMAX. -/
  | fmax (lc : Nat) (rd : BitVec 5) (rs1 : BitVec 5) (rs2 : BitVec 5)
  /-- FEQ. -/
  | feq (lc : Nat) (rd : BitVec 5) (rs1 : BitVec 5) (rs2 : BitVec 5)
  /-- FLT. -/
  | flt (lc : Nat) (rd : BitVec 5) (rs1 : BitVec 5) (rs2 : BitVec 5)
  /-- FLE. -/
  | fle (lc : Nat) (rd : BitVec 5) (rs1 : BitVec 5) (rs2 : BitVec 5)
  /-- FCVT_S_L. -/
  | fcvtSL (lc : Nat) (rd : BitVec 5) (rs1 : BitVec 5)
  /-- FCVT_L_S. -/
  | fcvtLS (lc : Nat) (rd : BitVec 5) (rs1 : BitVec 5)
  /-- ADDI. -/
  | addi (lc : Nat) (rd : BitVec 5) (rs1 : BitVec 5) (imm : BitVec 15)
  /-- ANDI. -/
  | andi (lc : Nat) (rd : BitVec 5) (rs1 : BitVec 5) (imm : BitVec 15)
  /-- ORI. -/
  | ori (lc : Nat) (rd : BitVec 5) (rs1 : BitVec 5) (imm : BitVec 15)
  /-- XORI. -/
  | xori (lc : Nat) (rd : BitVec 5) (rs1 : BitVec 5) (imm : BitVec 15)
  /-- SLTI. -/
  | slti (lc : Nat) (rd : BitVec 5) (rs1 : BitVec 5) (imm : BitVec 15)
  /-- SLLI. -/
  | slli (lc : Nat) (rd : BitVec 5) (rs1 : BitVec 5) (sh : BitVec 6)
  /-- SRLI. -/
  | srli (lc : Nat) (rd : BitVec 5) (rs1 : BitVec 5) (sh : BitVec 6)
  /-- SRAI. -/
  | srai (lc : Nat) (rd : BitVec 5) (rs1 : BitVec 5) (sh : BitVec 6)
  /-- LUI. -/
  | lui (lc : Nat) (rd : BitVec 5) (imm : BitVec 20)
  /-- LB. -/
  | lb (lc : Nat) (rd : BitVec 5) (rs1 : BitVec 5) (imm : BitVec 12)
  /-- LH. -/
  | lh (lc : Nat) (rd : BitVec 5) (rs1 : BitVec 5) (imm : BitVec 12)
  /-- LW. -/
  | lw (lc : Nat) (rd : BitVec 5) (rs1 : BitVec 5) (imm : BitVec 12)
  /-- LD. -/
  | ld (lc : Nat) (rd : BitVec 5) (rs1 : BitVec 5) (imm : BitVec 12)
  /-- LBU. -/
  | lbu (lc : Nat) (rd : BitVec 5) (rs1 : BitVec 5) (imm : BitVec 12)
  /-- LHU. -/
  | lhu (lc : Nat) (rd : BitVec 5) (rs1 : BitVec 5) (imm : BitVec 12)
  /-- LWU. -/
  | lwu (lc : Nat) (rd : BitVec 5) (rs1 : BitVec 5) (imm : BitVec 12)
  /-- SB. -/
  | sb (lc : Met Nat) (rs2 : BitVec 5) (rs1 : BitVec 5) (imm : BitVec 12)
  /-- SH. -/
  | sh (lc : Met Nat) (rs2 : BitVec 5) (rs1 : BitVec 5) (imm : BitVec 12)
  /-- SW. -/
  | sw (lc : Met Nat) (rs2 : BitVec 5) (rs1 : BitVec 5) (imm : BitVec 12)
  /-- ST. -/
  | st (lc : Nat) (rs2 : BitVec 5) (rs1 : BitVec 5) (imm : BitVec 12)
  /-- ST_REL. -/
  | stRel (lc : Nat) (rs2 : BitVec 5) (rs1 : BitVec 5) (imm : BitVec 12)
  /-- BR_EQ. -/
  | brEq (lc : Nat) (rs1 : BitVec 5) (rs2 : BitVec 5) (off : BitVec 12)
  /-- BR_NE. -/
  | brNe (lc : Nat) (rs1 : BitVec 5) (rs2 : BitVec 5) (off : BitVec 12)
  /-- BR_LT. -/
  | brLt (lc : Nat) (rs1 : BitVec 5) (rs2 : BitVec 5) (off : BitVec 12)
  /-- BR_GE. -/
  | brGe (lc : Nat) (rs1 : BitVec 5) (rs2 : BitVec 5) (off : BitVec 12)
  /-- BR_LTU. -/
  | brLtu (lc : Nat) (rs1 : BitVec 5) (rs2 : BitVec 5) (off : BitVec 12)
  /-- BR_GEU. -/
  | brGeu (lc : Nat) (rs1 : BitVec 5) (rs2 : BitVec 5) (off : BitVec 12)
  /-- JAL. -/
  | jal (lc : Nat) (rd : BitVec 5) (off : BitVec 20)
  /-- JALR. -/
  | jalr (lc : Nat) (rd : BitVec 5) (rs1 : BitVec 5) (imm : BitVec 15)
  /-- TKS. -/
  | tks (lc : Nat) (tk : BitVec 6) (imm : BitVec 11)
  /-- TKW. -/
  | tkw (lc : Nat) (tk : BitVec 6) (imm : BitVec 11)
  /-- TKRD. -/
  | tkrd (lc : Nat) (xd : BitVec 5) (tk : BitVec 6)
  /-- TKSET. -/
  | tkset (lc : Nat) (tk : BitVec 6) (xs : BitVec 5)
  /-- DLD. -/
  | dld (lc : Nat) (dn : BitVec 4) (xs : BitVec 5) (imm : BitVec 16)
  /-- DST. -/
  | dst (lc : Nat) (dn : BitVec 4) (xs : BitVec 5) (imm : BitVec 16)
  /-- DSET. -/
  | dset (lc : Nat) (dn : BitVec 4) (w : BitVec 3) (xs : BitVec 5)
  /-- DGET. -/
  | dget (lc : Nat) (xd : BitVec 5) (dn : BitVec 4) (w : BitVec 3)
  /-- DCPY. -/
  | dcpy (lc : Nat) (dn : BitVec 4) (dm : BitVec 4)
  /-- DZERO. -/
  | dzero (lc : Nat) (dn : BitVec 4)
  /-- SUMRD. -/
  | sumrd (lc : Nat) (xd : BitVec 5) (slot : BitVec 3) (field : BitVec 3)
  /-- FENCE. -/
  | fence (lc : Nat)
  /-- ICINV. -/
  | icinv (lc : Nat)
  /-- SEED. -/
  | seed (lc : Nat) (xs : BitVec 5)
  /-- BRK. -/
  | brk (lc : Nat) (imm : BitVec 15)
  /-- HALT. -/
  | halt (lc : Nat) (xs : BitVec 5)
  /-- WAITF. -/
  | waitf (lc : Met Nat) (rd : BitVec 5) (rs1 : BitVec 5) (rs2 : BitVec 5) (cond : BitVec 3) (acq : Bool) (tmo : BitVec 5)
  /-- WAITF_WAKE. -/
  | waitfWake (lc : Nat)
  /-- WAITF_TIMEOUT. -/
  | waitfTimeout (lc : Nat)
  /-- TKW_SATISFIED. -/
  | tkwSatisfied (lc : Nat)
  /-- LOAD_DATA_RETURN. -/
  | loadDataReturn (lc : Nat) (errs : List MemErr)
  /-- STORE_PERFORMED. -/
  | storePerformed (lc : Nat) (idx : Met Nat)
  /-- UNIT_INSTRUCTION_START. -/
  | unitInstructionStart (lc : Nat) (u : UnitId)
  /-- UNIT_INSTRUCTION_COMPLETE. -/
  | unitInstructionComplete (lc : Nat) (u : UnitId)
  /-- TICKET_DEADLOCK. -/
  | ticketDeadlock (lc : Nat)
  /-- CORE_DRAIN_COMPLETE. -/
  | coreDrainComplete (lc : Nat)
  /-- ICACHE_MISS_FILL. -/
  | icacheMissFill (lc : Nat) (errs : List MemErr)
  /-- ICACHE_PARITY_ERROR. -/
  | icacheParityError (lc : Nat) (line : LineFetch)
  /-- CONTROL_PATH_PARITY_ERROR. -/
  | controlPathParityError (lc : Nat)
  /-- CORE_LAUNCH_ENTRY. -/
  | coreLaunchEntry (e : CoreEntry)
  /-- CORE_CTRL_STOP. -/
  | coreCtrlStop (lc : Nat)
  /-- MOV_ROW_UP. -/
  | movRowUp (lc : Nat) (step : UStep UnitF)
  /-- MOV_ROW_DN. -/
  | movRowDn (lc : Nat) (step : UStep UnitF)
  /-- MOV_BLK. -/
  | movBlk (lc : Nat) (step : UStep UnitF)
  /-- MOV_RCFL_WB. -/
  | movRcflWb (lc : Nat) (step : UStep UnitF)
  /-- MOV_RCFL_WBINV. -/
  | movRcflWbinv (lc : Nat) (step : UStep UnitF)
  /-- MOV_PUTF. -/
  | movPutf (lc : Nat) (step : UStep UnitF)
  /-- TRW_MMA. -/
  | trwMma (lc : Nat) (step : UStep MmaF)
  /-- TRW_DRAIN. -/
  | trwDrain (lc : Nat) (step : UStep DrainF)
  /-- TRW_LDACC. -/
  | trwLdacc (lc : Nat) (step : UStep LdaccF)
  /-- TRW_CLR. -/
  | trwClr (lc : Nat) (step : UStep ClrF)
  /-- TRW_ACCUMULATOR_PARITY_ERROR. -/
  | trwAccumulatorParityError (lc : Nat) (bankB : Bool) (row : Nat) (col : Nat)
  /-- BRS_LDP. -/
  | brsLdp (lc : Nat) (step : UStep LdpF)
  /-- BRS_RUN. -/
  | brsRun (lc : Nat) (step : UStep RunF)
  /-- STC_FWD. -/
  | stcFwd (lc : Nat) (step : UStep UnitF)
  /-- STC_BWD. -/
  | stcBwd (lc : Nat) (step : UStep UnitF)
  /-- STC_PTEDIT_INIT. -/
  | stcPteditInit (lc : Nat) (step : UStep UnitF)
  /-- STC_PTEDIT_APPEND. -/
  | stcPteditAppend (lc : Nat) (step : UStep UnitF)
  /-- STC_PTEDIT_EXTEND. -/
  | stcPteditExtend (lc : Nat) (step : UStep UnitF)
  /-- STC_PTEDIT_DROP. -/
  | stcPteditDrop (lc : Nat) (step : UStep UnitF)
  /-- STC_PTEDIT_REPLACE. -/
  | stcPteditReplace (lc : Nat) (step : UStep UnitF)
  /-- STC_PTEDIT_TRUNC. -/
  | stcPteditTrunc (lc : Nat) (step : UStep UnitF)
  /-- STC_PTEDIT_FREE. -/
  | stcPteditFree (lc : Nat) (step : UStep UnitF)
  /-- STC_BUCKET. -/
  | stcBucket (lc : Nat) (step : UStep UnitF)
  /-- STC_DEC. -/
  | stcDec (lc : Nat) (step : UStep UnitF)
  /-- HOLD_ACQUIRE. -/
  | holdAcquire (lc : Nat)
  /-- HOLD_RELEASE. -/
  | holdRelease (lc : Nat)
  /-- DEFERRED_EDIT_APPLY. -/
  | deferredEditApply (seq : Met Nat)
  /-- MC_HOLD_RELEASE. -/
  | mcHoldRelease (lc : Nat)
  /-- KV_TABLE_ENABLE. -/
  | kvTableEnable (req : Requester) (data : BitVec 64)
  /-- KV_TABLE_DISABLE. -/
  | kvTableDisable (req : Requester) (data : BitVec 64)
  /-- RLR_VLD. -/
  | rlrVld (lc : Nat) (step : UStep UnitF)
  /-- RLR_MV. -/
  | rlrMv (lc : Nat) (step : UStep UnitF)
  /-- RLR_RD. -/
  | rlrRd (lc : Nat) (step : UStep UnitF)
  /-- RLR_WR. -/
  | rlrWr (lc : Nat) (step : UStep UnitF)
  /-- ROLLER_COMMAND_ARRIVAL. -/
  | rollerCommandArrival (lc : Nat) (stack : Nat) (errs : List MemErr)
  /-- ROLLER_STACK_REPORT. -/
  | rollerStackReport (stack : Nat)
  /-- ROLLER_PASS_END. -/
  | rollerPassEnd (p : PassEnd)
  /-- CHANNEL_REFRESH. -/
  | channelRefresh (chan : Nat)
  /-- ROLLER_DISARM_COMPLETE. -/
  | rollerDisarmComplete (stack : Nat)
  /-- SCR_MCAST. -/
  | scrMcast (lc : Nat) (step : UStep UnitF)
  /-- SCR_RED. -/
  | scrRed (lc : Nat) (step : UStep UnitF)
  /-- SCR_BAR. -/
  | scrBar (lc : Nat) (step : UStep UnitF)
  /-- SCR_FLAG_SET. -/
  | scrFlagSet (lc : Nat) (step : UStep UnitF)
  /-- SCR_FLAG_ADD. -/
  | scrFlagAdd (lc : Nat) (step : UStep UnitF)
  /-- SCR_FLAG_OR. -/
  | scrFlagOr (lc : Nat) (step : UStep UnitF)
  /-- SCR_FLAG_MAXU. -/
  | scrFlagMaxu (lc : Nat) (step : UStep UnitF)
  /-- MCAST_COPY_DELIVERED. -/
  | mcastCopyDelivered (lc : Nat) (target : Met Nat)
  /-- RED_CONTRIBUTION_ARRIVAL. -/
  | redContributionArrival (lc : Nat)
  /-- BARRIER_ARRIVAL. -/
  | barrierArrival (lc : Nat)
  /-- BARRIER_RELEASE_DELIVERED. -/
  | barrierReleaseDelivered (lc : Nat)
  /-- COLL_TIMEOUT. -/
  | collTimeout (lc : Nat)
  /-- HAWK_REMOTE_WRITE. -/
  | hawkRemoteWrite (lc : Nat) (idx : Met Nat)
  /-- HAWK_REMOTE_READ_REQUEST. -/
  | hawkRemoteReadRequest (lc : Nat) (idx : Nat) (errs : List MemErr)
  /-- SEAM_ROUTER_WAKE. -/
  | seamRouterWake (half : Half)
  /-- SEAM_ROUTER_WAKE_COMPLETE. -/
  | seamRouterWakeComplete (half : Half)
  /-- SCRIM_LINK_PARITY_ERROR. -/
  | scrimLinkParityError (site : Nat) (lower : Bool) (again : Bool) (c : Carried)
  /-- VC_ROW_COMMIT. -/
  | vcRowCommit (site : Nat) (dir : VcDir) (struck : List MemErr) (errs : List MemErr)
  /-- VC_ROW_REPLAY. -/
  | vcRowReplay (site : Nat) (dir : VcDir) (group : Nat) (attempt : Nat) (row : FailedRow)
  /-- VC_LANE_FAILED. -/
  | vcLaneFailed (site : Nat) (dir : VcDir) (group : Nat) (lane : Nat)
  /-- VC_LANE_REPAIR. -/
  | vcLaneRepair (site : Nat) (dir : VcDir) (group : Nat) (lane : Nat)
  /-- VC_WIDTH_CHANGE. -/
  | vcWidthChange (site : Nat) (dir : VcDir)
  /-- PROBE_MEASUREMENT. -/
  | probeMeasurement (site : Nat) (dir : VcDir) (group : Nat) (eye : Nat) (centre : Nat)
  /-- RETUNE_WINDOW_DUE. -/
  | retuneWindowDue (site : Nat) (cause : RetuneCause)
  /-- RETUNE_WINDOW_OPEN. -/
  | retuneWindowOpen (site : Nat)
  /-- RETUNE_WINDOW_END. -/
  | retuneWindowEnd (site : Nat) (found : List GroupTune)
  /-- RETUNE_WINDOW_FORCED. -/
  | retuneWindowForced (site : Nat) (msDue : Nat)
  /-- PLL_LOCK_COMPLETE. -/
  | pllLockComplete (half : Half)
  /-- HALF_CLOCK_RESUME. -/
  | halfClockResume (half : Half)
  /-- RAIL_RAMP_COMPLETE. -/
  | railRampComplete
  /-- FULL_LATH_RESET. -/
  | fullLathReset
  /-- KERIT_PORT_RESET. -/
  | keritPortReset (port : Nat)
  /-- KERIT_PORT_RESET_END. -/
  | keritPortResetEnd (port : Nat)
  /-- RENDER_CONTROLLER_RESET. -/
  | renderControllerReset (chan : Nat)
  /-- RENDER_CONTROLLER_RESET_END. -/
  | renderControllerResetEnd (chan : Nat)
  /-- BAR_READ. -/
  | barRead (bar : Nat) (off : Nat) (len : Nat) (errs : List MemErr)
  /-- BAR_WRITE. -/
  | barWrite (bar : Nat) (off : Nat) (bytes : List (Option (BitVec 8))) (ep : Met Bool)
  /-- REGISTER_WRITE. -/
  | registerWrite (req : Requester) (addr : Nat) (bytes : List (BitVec 8))
  /-- LAUNCH_SLOT_WRITE. -/
  | launchSlotWrite (slot : Nat) (off : Nat) (bytes : List (Option (BitVec 8)))
  /-- LAUNCH_START. -/
  | launchStart (slot : Nat)
  /-- LAUNCH_END. -/
  | launchEnd (slot : Nat)
  /-- MSIX_VECTOR_UNMASK. -/
  | msixVectorUnmask (vec : Nat)
  /-- FUNCTION_LEVEL_RESET. -/
  | functionLevelReset
  /-- HOT_RESET. -/
  | hotReset
  /-- PCIE_CONFIG_REQUEST. -/
  | pcieConfigRequest (r : CfgReq)
  /-- HOST_READ_COMPLETION. -/
  | hostReadCompletion (lc : Nat) (addr : Nat) (bytes : List (BitVec 8)) (ep : Bool)
  /-- D3HOT_ENTRY. -/
  | d3hotEntry
  /-- D0_RETURN. -/
  | d0Return
  /-- ASLEEP_WAKE_COMPLETE. -/
  | asleepWakeComplete
  /-- DATA_FRAME. -/
  | dataFrame (port : Nat) (f : Frame)
  /-- NAK_FRAME. -/
  | nakFrame (port : Nat) (f : Frame) (want : Nat)
  /-- IDLE_FRAME. -/
  | idleFrame (port : Nat) (f : Frame) (eq : Option (List (BitVec 8)))
  /-- ACK_TIMEOUT_REPLAY. -/
  | ackTimeoutReplay (port : Nat)
  /-- CODEWORD_LOCK_LOSS. -/
  | codewordLockLoss (port : Nat)
  /-- PORT_TRAINING_COMPLETE. -/
  | portTrainingComplete (port : Nat) (t : Training)
  /-- PORT_RETRAIN_RETRY. -/
  | portRetrainRetry (port : Nat)
  /-- PUT. -/
  | put (port : Met Nat)
  /-- FLAG. -/
  | flag (port : Met Nat)
  /-- READ. -/
  | read (port : Nat) (errs : List MemErr)
  /-- READ_DATA. -/
  | readData (port : Nat)
  /-- PACK. -/
  | pack (port : Nat)
  /-- FLOW_FAILOVER. -/
  | flowFailover (flow : Nat)
  /-- FLOW_RETURN_HOME. -/
  | flowReturnHome (flow : Nat)
  /-- E2E_TIMEOUT. -/
  | e2eTimeout (lc : Nat) (u : UnitId)
  /-- QUIET_ENTRY. -/
  | quietEntry (port : Nat)
  /-- QUIET_EXIT. -/
  | quietExit (port : Nat)
  /-- FULL_WIDTH_RESUME. -/
  | fullWidthResume (port : Nat)
  /-- KERIT_COEFFICIENT_STORE. -/
  | keritCoefficientStore (port : Nat) (coef : List (BitVec 8))
  /-- MGT_IMAGE_RECEIVE. -/
  | mgtImageReceive (srcPos : Nat) (m : MgtIn)
  /-- MEMBER_REPORT. -/
  | memberReport (pos : Nat) (ok : Bool)
  /-- MEMBER_REPORT_TIMEOUT. -/
  | memberReportTimeout (pos : Nat)
  /-- KLK_CTRL_EN. -/
  | klkCtrlEn (req : Requester) (data : BitVec 64)
  /-- KLK_LOCK_SET. -/
  | klkLockSet
  /-- LATH_VC_POLICY_LOCK. -/
  | lathVcPolicyLock (req : Requester) (data : BitVec 64)
  /-- SCR_CFG_LOCK. -/
  | scrCfgLock (req : Requester) (data : BitVec 64)
  /-- START. -/
  | start (inp : StartIn)
  /-- SNAG_APPEND. -/
  | snagAppend (f : FoundFault)
  /-- MC_REMAP_GO. -/
  | mcRemapGo (req : Requester) (data : BitVec 64)
  /-- REMAP_COMPLETE. -/
  | remapComplete
  /-- RUB_DOWN_GO. -/
  | rubDownGo (req : Requester) (data : BitVec 64)
  /-- RUB_DOWN_STOP. -/
  | rubDownStop (req : Requester) (data : BitVec 64) (errs : List MemErr)
  /-- RUB_DOWN_COMPLETE. -/
  | rubDownComplete (errs : List MemErr)
  /-- MC_ERR_STATUS_CLEAR. -/
  | mcErrStatusClear (req : Requester) (data : BitVec 64)
  /-- FINISH_REQUEST. -/
  | finishRequest (req : Requester) (data : BitVec 64)
  /-- FINISH_CHANGE_ACCEPT. -/
  | finishChangeAccept
  /-- POWER_STATE_ENTRY. -/
  | powerStateEntry (scope : PowerScope)
  /-- POWER_STATE_WAKE. -/
  | powerStateWake (scope : PowerScope)
  /-- POWER_SAMPLE. -/
  | powerSample (p : Nat) (v48 : Nat) (vaux : Nat) (uj : Nat) (fillUj : Nat)
  /-- THERMAL_SAMPLE. -/
  | thermalSample (temps : List Int) (tin : Int) (p : Nat)
  /-- THERMAL_ESTIMATE_STORE. -/
  | thermalEstimateStore
  /-- HOT_SPOT_FALL. -/
  | hotSpotFall (site : Nat) (temp : Int)
  /-- HOT_SPOT_RISE. -/
  | hotSpotRise (site : Nat) (temp : Int)
  /-- HOT_SPOT_CAP_STEP. -/
  | hotSpotCapStep (site : Nat) (temp : Int)
  /-- THERMAL_TRIP. -/
  | thermalTrip (temp : Int)
  /-- RAINFLOW_SAMPLE. -/
  | rainflowSample (temp : Int)
  /-- LIFE_RECOMPUTE. -/
  | lifeRecompute
  /-- FLOOR_HOLD_EXPIRY. -/
  | floorHoldExpiry
  /-- BRAKE_N_ASSERT. -/
  | brakeNAssert
  /-- BRAKE_N_DEASSERT. -/
  | brakeNDeassert
  /-- AUX_APPLY. -/
  | auxApply
  /-- AUX_LOSS. -/
  | auxLoss
  /-- STAGE_START. -/
  | stageStart (v : Supply)
  /-- STAGE_STOP. -/
  | stageStop (mv : Nat)
  /-- PERST_ASSERT. -/
  | perstAssert
  /-- PERST_DEASSERT. -/
  | perstDeassert
  /-- MC_WATCHDOG_EXPIRY. -/
  | mcWatchdogExpiry
  /-- I3C_ENTDAA. -/
  | i3cEntdaa (addr : BitVec 7)
  /-- GET_VERSION. -/
  | getVersion (tr : Transport) (q : SpdmReq)
  /-- GET_CAPABILITIES. -/
  | getCapabilities (tr : Transport) (q : SpdmReq)
  /-- NEGOTIATE_ALGORITHMS. -/
  | negotiateAlgorithms (tr : Transport) (q : SpdmReq)
  /-- GET_DIGESTS. -/
  | getDigests (tr : Transport) (q : SpdmReq)
  /-- GET_CERTIFICATE. -/
  | getCertificate (tr : Transport) (q : SpdmReq)
  /-- CHALLENGE. -/
  | challenge (tr : Transport) (q : SpdmReq)
  /-- GET_MEASUREMENTS. -/
  | getMeasurements (tr : Transport) (q : SpdmReq)
  /-- FW_BEGIN. -/
  | fwBegin (ctl : FwCtl)
  /-- FW_WRITE. -/
  | fwWrite (ctl : FwCtl)
  /-- FW_FINISH. -/
  | fwFinish (ctl : FwCtl)
  /-- FW_ACTIVATE. -/
  | fwActivate (ctl : FwCtl)
  /-- FW_COMMIT. -/
  | fwCommit (ctl : FwCtl)
  /-- FW_ABORT. -/
  | fwAbort (ctl : FwCtl)
  /-- FW_COMMAND_COMPLETE. -/
  | fwCommandComplete (flashOk : Bool)
  /-- DBG_REQUEST. -/
  | dbgRequest (ctl : DbgCtl)
  /-- DBG_SUBMIT. -/
  | dbgSubmit (ctl : DbgCtl)
  /-- DBG_RELOCK. -/
  | dbgRelock (ctl : DbgCtl)
  /-- DBG_ENROL. -/
  | dbgEnrol (ctl : DbgCtl)
  /-- DBG_COMMAND_COMPLETE. -/
  | dbgCommandComplete
  /-- NONCE_EXPIRY. -/
  | nonceExpiry
  /-- PMU_MARK_WRITE. -/
  | pmuMarkWrite (lc : Nat) (req : Requester) (data : BitVec 64)
  /-- PMU_SAMPLING_ENABLE. -/
  | pmuSamplingEnable (lc : Nat) (req : Requester) (data : BitVec 64)
  /-- PMU_SAMPLING_DISABLE. -/
  | pmuSamplingDisable (lc : Nat) (req : Requester) (data : BitVec 64)
  /-- SAMPLE_SPILL. -/
  | sampleSpill (lc : Nat)
  /-- PMU_PERM_SAVE. -/
  | pmuPermSave (lc : Nat) (req : Requester) (data : BitVec 64)
  /-- PMU_PERM_LOCK. -/
  | pmuPermLock (lc : Nat) (req : Requester) (data : BitVec 64)
  /-- ILLEGAL_INSTRUCTION. -/
  | illegalInstruction (lc : Nat) (word : BitVec 32)
  /-- DRAM_ROW_CLOSE. -/
  | dramRowClose (chan : Nat) (bank : Nat)
  /-- INLET_TEMPERATURE_CHANGE. -/
  | inletTemperatureChange (tin : Int)
  /-- SNAG_LIST_CLEAR. -/
  | snagListClear (idx : List Nat)
  deriving DecidableEq, Repr

end Sys2Proof
end

