-- ==== Sys2Proof/WellFormed.lean ====
section
/-!
DEFINITION. Which commands are well formed: the numbers they carry name parts that the device has (144 logical cores,
168 sites, 128 render channels, 512 Rollers, 16 Kerit ports, 32 launch slots, 64 vectors), and a WAITF names a
condition that 02 R71 assigns.
-/

namespace Sys2Proof

/-- A Flikoush instruction that has a word: every field value has one but the reserved condition of WAITF (02 R71). -/
def Flik.wf : Flik → Bool
  | .waitf _ _ _ cond _ _ => decide (cond ≠ 7)
  | _ => true

/-- A command is well formed. -/
def Instr.wf : Instr → Bool
  | .add lc _ _ _ => decide (lc < 144)
  | .sub lc _ _ _ => decide (lc < 144)
  | .and lc _ _ _ => decide (lc < 144)
  | .or lc _ _ _ => decide (lc < 144)
  | .xor lc _ _ _ => decide (lc < 144)
  | .sll lc _ _ _ => decide (lc < 144)
  | .srl lc _ _ _ => decide (lc < 144)
  | .sra lc _ _ _ => decide (lc < 144)
  | .slt lc _ _ _ => decide (lc < 144)
  | .sltu lc _ _ _ => decide (lc < 144)
  | .min lc _ _ _ => decide (lc < 144)
  | .max lc _ _ _ => decide (lc < 144)
  | .minu lc _ _ _ => decide (lc < 144)
  | .maxu lc _ _ _ => decide (lc < 144)
  | .mul lc _ _ _ => decide (lc < 144)
  | .mulh lc _ _ _ => decide (lc < 144)
  | .mulhu lc _ _ _ => decide (lc < 144)
  | .div lc _ _ _ => decide (lc < 144)
  | .divu lc _ _ _ => decide (lc < 144)
  | .rem lc _ _ _ => decide (lc < 144)
  | .remu lc _ _ _ => decide (lc < 144)
  | .fadd lc _ _ _ => decide (lc < 144)
  | .fsub lc _ _ _ => decide (lc < 144)
  | .fmul lc _ _ _ => decide (lc < 144)
  | .fmin lc _ _ _ => decide (lc < 144)
  | .fmax lc _ _ _ => decide (lc < 144)
  | .feq lc _ _ _ => decide (lc < 144)
  | .flt lc _ _ _ => decide (lc < 144)
  | .fle lc _ _ _ => decide (lc < 144)
  | .fcvtSL lc _ _ => decide (lc < 144)
  | .fcvtLS lc _ _ => decide (lc < 144)
  | .addi lc _ _ _ => decide (lc < 144)
  | .andi lc _ _ _ => decide (lc < 144)
  | .ori lc _ _ _ => decide (lc < 144)
  | .xori lc _ _ _ => decide (lc < 144)
  | .slti lc _ _ _ => decide (lc < 144)
  | .slli lc _ _ _ => decide (lc < 144)
  | .srli lc _ _ _ => decide (lc < 144)
  | .srai lc _ _ _ => decide (lc < 144)
  | .lui lc _ _ => decide (lc < 144)
  | .lb lc _ _ _ => decide (lc < 144)
  | .lh lc _ _ _ => decide (lc < 144)
  | .lw lc _ _ _ => decide (lc < 144)
  | .ld lc _ _ _ => decide (lc < 144)
  | .lbu lc _ _ _ => decide (lc < 144)
  | .lhu lc _ _ _ => decide (lc < 144)
  | .lwu lc _ _ _ => decide (lc < 144)
  | .sb lc _ _ _ => decide (lc.val < 144)
  | .sh lc _ _ _ => decide (lc.val < 144)
  | .sw lc _ _ _ => decide (lc.val < 144)
  | .st lc _ _ _ => decide (lc < 144)
  | .stRel lc _ _ _ => decide (lc < 144)
  | .brEq lc _ _ _ => decide (lc < 144)
  | .brNe lc _ _ _ => decide (lc < 144)
  | .brLt lc _ _ _ => decide (lc < 144)
  | .brGe lc _ _ _ => decide (lc < 144)
  | .brLtu lc _ _ _ => decide (lc < 144)
  | .brGeu lc _ _ _ => decide (lc < 144)
  | .jal lc _ _ => decide (lc < 144)
  | .jalr lc _ _ _ => decide (lc < 144)
  | .tks lc _ _ => decide (lc < 144)
  | .tkw lc _ _ => decide (lc < 144)
  | .tkrd lc _ _ => decide (lc < 144)
  | .tkset lc _ _ => decide (lc < 144)
  | .dld lc _ _ _ => decide (lc < 144)
  | .dst lc _ _ _ => decide (lc < 144)
  | .dset lc _ _ _ => decide (lc < 144)
  | .dget lc _ _ _ => decide (lc < 144)
  | .dcpy lc _ _ => decide (lc < 144)
  | .dzero lc _ => decide (lc < 144)
  | .sumrd lc _ _ _ => decide (lc < 144)
  | .fence lc => decide (lc < 144)
  | .icinv lc => decide (lc < 144)
  | .seed lc _ => decide (lc < 144)
  | .brk lc _ => decide (lc < 144)
  | .halt lc _ => decide (lc < 144)
  | .waitf lc _ _ _ cond _ _ => decide (lc.val < 144) && decide (cond ≠ 7)
  | .waitfWake lc => decide (lc < 144)
  | .waitfTimeout lc => decide (lc < 144)
  | .tkwSatisfied lc => decide (lc < 144)
  | .loadDataReturn lc _ => decide (lc < 144)
  | .storePerformed lc _ => decide (lc < 144)
  | .unitInstructionStart lc _ => decide (lc < 144)
  | .unitInstructionComplete lc _ => decide (lc < 144)
  | .ticketDeadlock lc => decide (lc < 144)
  | .coreDrainComplete lc => decide (lc < 144)
  | .icacheMissFill lc _ => decide (lc < 144)
  | .icacheParityError lc _ => decide (lc < 144)
  | .controlPathParityError lc => decide (lc < 144)
  | .coreLaunchEntry e => decide (e.lc < 144)
  | .coreCtrlStop lc => decide (lc < 144)
  | .movRowUp lc _ => decide (lc < 144)
  | .movRowDn lc _ => decide (lc < 144)
  | .movBlk lc _ => decide (lc < 144)
  | .movRcflWb lc _ => decide (lc < 144)
  | .movRcflWbinv lc _ => decide (lc < 144)
  | .movPutf lc _ => decide (lc < 144)
  | .trwMma lc _ => decide (lc < 144)
  | .trwDrain lc _ => decide (lc < 144)
  | .trwLdacc lc _ => decide (lc < 144)
  | .trwClr lc _ => decide (lc < 144)
  | .trwAccumulatorParityError lc _ row col => decide (lc < 144) && decide (row < 66) && decide (col < 66)
  | .brsLdp lc _ => decide (lc < 144)
  | .brsRun lc _ => decide (lc < 144)
  | .stcFwd lc _ => decide (lc < 144)
  | .stcBwd lc _ => decide (lc < 144)
  | .stcPteditInit lc _ => decide (lc < 144)
  | .stcPteditAppend lc _ => decide (lc < 144)
  | .stcPteditExtend lc _ => decide (lc < 144)
  | .stcPteditDrop lc _ => decide (lc < 144)
  | .stcPteditReplace lc _ => decide (lc < 144)
  | .stcPteditTrunc lc _ => decide (lc < 144)
  | .stcPteditFree lc _ => decide (lc < 144)
  | .stcBucket lc _ => decide (lc < 144)
  | .stcDec lc _ => decide (lc < 144)
  | .holdAcquire lc => decide (lc < 144)
  | .holdRelease lc => decide (lc < 144)
  | .deferredEditApply seq => decide (seq.val < 65536)
  | .mcHoldRelease lc => decide (lc < 144)
  | .kvTableEnable _ _ => true
  | .kvTableDisable _ _ => true
  | .rlrVld lc _ => decide (lc < 144)
  | .rlrMv lc _ => decide (lc < 144)
  | .rlrRd lc _ => decide (lc < 144)
  | .rlrWr lc _ => decide (lc < 144)
  | .rollerCommandArrival lc stack _ => decide (lc < 144) && decide (stack < 8)
  | .rollerStackReport stack => decide (stack < 8)
  | .rollerPassEnd p => decide (p.roller < 512) && decide (p.steps ≤ 1600)
  | .channelRefresh chan => decide (chan < 128)
  | .rollerDisarmComplete stack => decide (stack < 8)
  | .scrMcast lc _ => decide (lc < 144)
  | .scrRed lc _ => decide (lc < 144)
  | .scrBar lc _ => decide (lc < 144)
  | .scrFlagSet lc _ => decide (lc < 144)
  | .scrFlagAdd lc _ => decide (lc < 144)
  | .scrFlagOr lc _ => decide (lc < 144)
  | .scrFlagMaxu lc _ => decide (lc < 144)
  | .mcastCopyDelivered lc target => decide (lc < 144) && decide (target.val < 144)
  | .redContributionArrival lc => decide (lc < 144)
  | .barrierArrival lc => decide (lc < 144)
  | .barrierReleaseDelivered lc => decide (lc < 144)
  | .collTimeout lc => decide (lc < 144)
  | .hawkRemoteWrite lc _ => decide (lc < 144)
  | .hawkRemoteReadRequest lc _ _ => decide (lc < 144)
  | .seamRouterWake _ => true
  | .seamRouterWakeComplete _ => true
  | .scrimLinkParityError site _ _ c => decide (site < 168) && decide (c.len ≤ 256)
  | .vcRowCommit site _ _ _ => decide (site < 168)
  | .vcRowReplay site _ group attempt row =>
    decide (site < 168) && decide (group < 8) && decide (1 ≤ attempt) && decide (attempt ≤ 3)
      && row.words.all fun w => decide (w < 32)
  | .vcLaneFailed site _ group lane =>
    decide (site < 168) && decide (group < 9) && decide (lane < if group < 8 then 288 else 22)
  | .vcLaneRepair site _ group lane =>
    decide (site < 168) && decide (group < 9) && decide (lane < if group < 8 then 288 else 22)
  | .vcWidthChange site _ => decide (site < 168)
  | .probeMeasurement site _ group eye centre => decide (site < 168) && decide (group < 9) && decide (eye ≤ 128) && decide (centre < 128)
  | .retuneWindowDue site _ => decide (site < 168)
  | .retuneWindowOpen site => decide (site < 168)
  | .retuneWindowEnd site _ => decide (site < 168)
  | .retuneWindowForced site _ => decide (site < 168)
  | .pllLockComplete _ => true
  | .halfClockResume _ => true
  | .railRampComplete => true
  | .fullLathReset => true
  | .keritPortReset port => decide (port < 16)
  | .keritPortResetEnd port => decide (port < 16)
  | .renderControllerReset chan => decide (chan < 128)
  | .renderControllerResetEnd chan => decide (chan < 128)
  | .barRead bar _ _ _ => decide (bar = 0 ∨ bar = 2 ∨ bar = 4)
  | .barWrite bar _ _ _ => decide (bar = 0 ∨ bar = 2 ∨ bar = 4)
  | .registerWrite _ _ _ => true
  | .launchSlotWrite slot off bytes => decide (slot < 32) && decide (off + bytes.length ≤ 256)
  | .launchStart slot => decide (slot < 32)
  | .launchEnd slot => decide (slot < 32)
  | .msixVectorUnmask vec => decide (vec < 64)
  | .functionLevelReset => true
  | .hotReset => true
  | .pcieConfigRequest _ => true
  | .hostReadCompletion lc _ _ _ => decide (lc < 144)
  | .d3hotEntry => true
  | .d0Return => true
  | .asleepWakeComplete => true
  | .dataFrame port _ => decide (port < 16)
  | .nakFrame port _ _ => decide (port < 16)
  | .idleFrame port _ _ => decide (port < 16)
  | .ackTimeoutReplay port => decide (port < 16)
  | .codewordLockLoss port => decide (port < 16)
  | .portTrainingComplete port _ => decide (port < 16)
  | .portRetrainRetry port => decide (port < 16)
  | .put port => decide (port.val < 16)
  | .flag port => decide (port.val < 16)
  | .read port _ => decide (port < 16)
  | .readData port => decide (port < 16)
  | .pack port => decide (port < 16)
  | .flowFailover _ => true
  | .flowReturnHome _ => true
  | .e2eTimeout lc _ => decide (lc < 144)
  | .quietEntry port => decide (port < 16)
  | .quietExit port => decide (port < 16)
  | .fullWidthResume port => decide (port < 16)
  | .keritCoefficientStore port _ => decide (port < 16)
  | .mgtImageReceive srcPos _ => decide (srcPos < 16)
  | .memberReport pos _ => decide (pos < 16)
  | .memberReportTimeout pos => decide (pos < 16)
  | .klkCtrlEn _ _ => true
  | .klkLockSet => true
  | .lathVcPolicyLock _ _ => true
  | .scrCfgLock _ _ => true
  | .start _ => true
  | .snagAppend _ => true
  | .mcRemapGo _ _ => true
  | .remapComplete => true
  | .rubDownGo _ _ => true
  | .rubDownStop _ _ _ => true
  | .rubDownComplete _ => true
  | .mcErrStatusClear _ _ => true
  | .finishRequest _ _ => true
  | .finishChangeAccept => true
  | .powerStateEntry _ => true
  | .powerStateWake _ => true
  | .powerSample _ _ _ _ _ => true
  | .thermalSample temps _ _ => decide (temps.length = 336)
  | .thermalEstimateStore => true
  | .hotSpotFall site _ => decide (site < 168)
  | .hotSpotRise site _ => decide (site < 168)
  | .hotSpotCapStep site _ => decide (site < 168)
  | .thermalTrip _ => true
  | .rainflowSample _ => true
  | .lifeRecompute => true
  | .floorHoldExpiry => true
  | .brakeNAssert => true
  | .brakeNDeassert => true
  | .auxApply => true
  | .auxLoss => true
  | .stageStart _ => true
  | .stageStop _ => true
  | .perstAssert => true
  | .perstDeassert => true
  | .mcWatchdogExpiry => true
  | .i3cEntdaa _ => true
  | .getVersion _ _ => true
  | .getCapabilities _ _ => true
  | .negotiateAlgorithms _ _ => true
  | .getDigests _ _ => true
  | .getCertificate _ _ => true
  | .challenge _ _ => true
  | .getMeasurements _ _ => true
  | .fwBegin _ => true
  | .fwWrite _ => true
  | .fwFinish _ => true
  | .fwActivate _ => true
  | .fwCommit _ => true
  | .fwAbort _ => true
  | .fwCommandComplete _ => true
  | .dbgRequest _ => true
  | .dbgSubmit _ => true
  | .dbgRelock _ => true
  | .dbgEnrol _ => true
  | .dbgCommandComplete => true
  | .nonceExpiry => true
  | .pmuMarkWrite lc _ _ => decide (lc < 144)
  | .pmuSamplingEnable lc _ _ => decide (lc < 144)
  | .pmuSamplingDisable lc _ _ => decide (lc < 144)
  | .sampleSpill lc => decide (lc < 144)
  | .pmuPermSave lc _ _ => decide (lc < 144)
  | .pmuPermLock lc _ _ => decide (lc < 144)
  | .illegalInstruction lc _ => decide (lc < 144)
  | .dramRowClose chan bank => decide (chan < 128) && decide (bank < 64)
  | .inletTemperatureChange _ => true
  | .snagListClear _ => true

/-- The logical core that a command names, for the commands that name one: by the table's operand `lc`. -/
def Instr.coreOf : Instr → Option Nat
  | .add lc _ _ _ => some lc
  | .sub lc _ _ _ => some lc
  | .and lc _ _ _ => some lc
  | .or lc _ _ _ => some lc
  | .xor lc _ _ _ => some lc
  | .sll lc _ _ _ => some lc
  | .srl lc _ _ _ => some lc
  | .sra lc _ _ _ => some lc
  | .slt lc _ _ _ => some lc
  | .sltu lc _ _ _ => some lc
  | .min lc _ _ _ => some lc
  | .max lc _ _ _ => some lc
  | .minu lc _ _ _ => some lc
  | .maxu lc _ _ _ => some lc
  | .mul lc _ _ _ => some lc
  | .mulh lc _ _ _ => some lc
  | .mulhu lc _ _ _ => some lc
  | .div lc _ _ _ => some lc
  | .divu lc _ _ _ => some lc
  | .rem lc _ _ _ => some lc
  | .remu lc _ _ _ => some lc
  | .fadd lc _ _ _ => some lc
  | .fsub lc _ _ _ => some lc
  | .fmul lc _ _ _ => some lc
  | .fmin lc _ _ _ => some lc
  | .fmax lc _ _ _ => some lc
  | .feq lc _ _ _ => some lc
  | .flt lc _ _ _ => some lc
  | .fle lc _ _ _ => some lc
  | .fcvtSL lc _ _ => some lc
  | .fcvtLS lc _ _ => some lc
  | .addi lc _ _ _ => some lc
  | .andi lc _ _ _ => some lc
  | .ori lc _ _ _ => some lc
  | .xori lc _ _ _ => some lc
  | .slti lc _ _ _ => some lc
  | .slli lc _ _ _ => some lc
  | .srli lc _ _ _ => some lc
  | .srai lc _ _ _ => some lc
  | .lui lc _ _ => some lc
  | .lb lc _ _ _ => some lc
  | .lh lc _ _ _ => some lc
  | .lw lc _ _ _ => some lc
  | .ld lc _ _ _ => some lc
  | .lbu lc _ _ _ => some lc
  | .lhu lc _ _ _ => some lc
  | .lwu lc _ _ _ => some lc
  | .sb lc _ _ _ => some lc.val
  | .sh lc _ _ _ => some lc.val
  | .sw lc _ _ _ => some lc.val
  | .st lc _ _ _ => some lc
  | .stRel lc _ _ _ => some lc
  | .brEq lc _ _ _ => some lc
  | .brNe lc _ _ _ => some lc
  | .brLt lc _ _ _ => some lc
  | .brGe lc _ _ _ => some lc
  | .brLtu lc _ _ _ => some lc
  | .brGeu lc _ _ _ => some lc
  | .jal lc _ _ => some lc
  | .jalr lc _ _ _ => some lc
  | .tks lc _ _ => some lc
  | .tkw lc _ _ => some lc
  | .tkrd lc _ _ => some lc
  | .tkset lc _ _ => some lc
  | .dld lc _ _ _ => some lc
  | .dst lc _ _ _ => some lc
  | .dset lc _ _ _ => some lc
  | .dget lc _ _ _ => some lc
  | .dcpy lc _ _ => some lc
  | .dzero lc _ => some lc
  | .sumrd lc _ _ _ => some lc
  | .fence lc => some lc
  | .icinv lc => some lc
  | .seed lc _ => some lc
  | .brk lc _ => some lc
  | .halt lc _ => some lc
  | .waitf lc _ _ _ _ _ _ => some lc.val
  | .waitfWake lc => some lc
  | .waitfTimeout lc => some lc
  | .tkwSatisfied lc => some lc
  | .loadDataReturn lc _ => some lc
  | .storePerformed lc _ => some lc
  | .unitInstructionStart lc _ => some lc
  | .unitInstructionComplete lc _ => some lc
  | .ticketDeadlock lc => some lc
  | .coreDrainComplete lc => some lc
  | .icacheMissFill lc _ => some lc
  | .icacheParityError lc _ => some lc
  | .controlPathParityError lc => some lc
  | .coreLaunchEntry e => some e.lc
  | .coreCtrlStop lc => some lc
  | .movRowUp lc _ => some lc
  | .movRowDn lc _ => some lc
  | .movBlk lc _ => some lc
  | .movRcflWb lc _ => some lc
  | .movRcflWbinv lc _ => some lc
  | .movPutf lc _ => some lc
  | .trwMma lc _ => some lc
  | .trwDrain lc _ => some lc
  | .trwLdacc lc _ => some lc
  | .trwClr lc _ => some lc
  | .trwAccumulatorParityError lc _ _ _ => some lc
  | .brsLdp lc _ => some lc
  | .brsRun lc _ => some lc
  | .stcFwd lc _ => some lc
  | .stcBwd lc _ => some lc
  | .stcPteditInit lc _ => some lc
  | .stcPteditAppend lc _ => some lc
  | .stcPteditExtend lc _ => some lc
  | .stcPteditDrop lc _ => some lc
  | .stcPteditReplace lc _ => some lc
  | .stcPteditTrunc lc _ => some lc
  | .stcPteditFree lc _ => some lc
  | .stcBucket lc _ => some lc
  | .stcDec lc _ => some lc
  | .holdAcquire lc => some lc
  | .holdRelease lc => some lc
  | .deferredEditApply _ => none
  | .mcHoldRelease lc => some lc
  | .kvTableEnable _ _ => none
  | .kvTableDisable _ _ => none
  | .rlrVld lc _ => some lc
  | .rlrMv lc _ => some lc
  | .rlrRd lc _ => some lc
  | .rlrWr lc _ => some lc
  | .rollerCommandArrival lc _ _ => some lc
  | .rollerStackReport _ => none
  | .rollerPassEnd _ => none
  | .channelRefresh _ => none
  | .rollerDisarmComplete _ => none
  | .scrMcast lc _ => some lc
  | .scrRed lc _ => some lc
  | .scrBar lc _ => some lc
  | .scrFlagSet lc _ => some lc
  | .scrFlagAdd lc _ => some lc
  | .scrFlagOr lc _ => some lc
  | .scrFlagMaxu lc _ => some lc
  | .mcastCopyDelivered lc _ => some lc
  | .redContributionArrival lc => some lc
  | .barrierArrival lc => some lc
  | .barrierReleaseDelivered lc => some lc
  | .collTimeout lc => some lc
  | .hawkRemoteWrite lc _ => some lc
  | .hawkRemoteReadRequest lc _ _ => some lc
  | .seamRouterWake _ => none
  | .seamRouterWakeComplete _ => none
  | .scrimLinkParityError _ _ _ _ => none
  | .vcRowCommit _ _ _ _ => none
  | .vcRowReplay _ _ _ _ _ => none
  | .vcLaneFailed _ _ _ _ => none
  | .vcLaneRepair _ _ _ _ => none
  | .vcWidthChange _ _ => none
  | .probeMeasurement _ _ _ _ _ => none
  | .retuneWindowDue _ _ => none
  | .retuneWindowOpen _ => none
  | .retuneWindowEnd _ _ => none
  | .retuneWindowForced _ _ => none
  | .pllLockComplete _ => none
  | .halfClockResume _ => none
  | .railRampComplete => none
  | .fullLathReset => none
  | .keritPortReset _ => none
  | .keritPortResetEnd _ => none
  | .renderControllerReset _ => none
  | .renderControllerResetEnd _ => none
  | .barRead _ _ _ _ => none
  | .barWrite _ _ _ _ => none
  | .registerWrite _ _ _ => none
  | .launchSlotWrite _ _ _ => none
  | .launchStart _ => none
  | .launchEnd _ => none
  | .msixVectorUnmask _ => none
  | .functionLevelReset => none
  | .hotReset => none
  | .pcieConfigRequest _ => none
  | .hostReadCompletion lc _ _ _ => some lc
  | .d3hotEntry => none
  | .d0Return => none
  | .asleepWakeComplete => none
  | .dataFrame _ _ => none
  | .nakFrame _ _ _ => none
  | .idleFrame _ _ _ => none
  | .ackTimeoutReplay _ => none
  | .codewordLockLoss _ => none
  | .portTrainingComplete _ _ => none
  | .portRetrainRetry _ => none
  | .put _ => none
  | .flag _ => none
  | .read _ _ => none
  | .readData _ => none
  | .pack _ => none
  | .flowFailover _ => none
  | .flowReturnHome _ => none
  | .e2eTimeout lc _ => some lc
  | .quietEntry _ => none
  | .quietExit _ => none
  | .fullWidthResume _ => none
  | .keritCoefficientStore _ _ => none
  | .mgtImageReceive _ _ => none
  | .memberReport _ _ => none
  | .memberReportTimeout _ => none
  | .klkCtrlEn _ _ => none
  | .klkLockSet => none
  | .lathVcPolicyLock _ _ => none
  | .scrCfgLock _ _ => none
  | .start _ => none
  | .snagAppend _ => none
  | .mcRemapGo _ _ => none
  | .remapComplete => none
  | .rubDownGo _ _ => none
  | .rubDownStop _ _ _ => none
  | .rubDownComplete _ => none
  | .mcErrStatusClear _ _ => none
  | .finishRequest _ _ => none
  | .finishChangeAccept => none
  | .powerStateEntry _ => none
  | .powerStateWake _ => none
  | .powerSample _ _ _ _ _ => none
  | .thermalSample _ _ _ => none
  | .thermalEstimateStore => none
  | .hotSpotFall _ _ => none
  | .hotSpotRise _ _ => none
  | .hotSpotCapStep _ _ => none
  | .thermalTrip _ => none
  | .rainflowSample _ => none
  | .lifeRecompute => none
  | .floorHoldExpiry => none
  | .brakeNAssert => none
  | .brakeNDeassert => none
  | .auxApply => none
  | .auxLoss => none
  | .stageStart _ => none
  | .stageStop _ => none
  | .perstAssert => none
  | .perstDeassert => none
  | .mcWatchdogExpiry => none
  | .i3cEntdaa _ => none
  | .getVersion _ _ => none
  | .getCapabilities _ _ => none
  | .negotiateAlgorithms _ _ => none
  | .getDigests _ _ => none
  | .getCertificate _ _ => none
  | .challenge _ _ => none
  | .getMeasurements _ _ => none
  | .fwBegin _ => none
  | .fwWrite _ => none
  | .fwFinish _ => none
  | .fwActivate _ => none
  | .fwCommit _ => none
  | .fwAbort _ => none
  | .fwCommandComplete _ => none
  | .dbgRequest _ => none
  | .dbgSubmit _ => none
  | .dbgRelock _ => none
  | .dbgEnrol _ => none
  | .dbgCommandComplete => none
  | .nonceExpiry => none
  | .pmuMarkWrite lc _ _ => some lc
  | .pmuSamplingEnable lc _ _ => some lc
  | .pmuSamplingDisable lc _ _ => some lc
  | .sampleSpill lc => some lc
  | .pmuPermSave lc _ _ => some lc
  | .pmuPermLock lc _ _ => some lc
  | .illegalInstruction lc _ => some lc
  | .dramRowClose _ _ => none
  | .inletTemperatureChange _ => none
  | .snagListClear _ => none

end Sys2Proof
end

