-- ==== Sys2Proof/Decode.lean ====
section
/-!
DEFINITION. The words of the Flikoush instructions (02 R40-R61, R71; the unit chapters' encodings: 04 R162, 06 R217
R218, 08 R277, 09 R305, 10 R335, 11 R378, 12 R434), their decoder, and the command word of the table. The rows of
spec/opcode_table.json give no bits, so no word of the table's numbering spells a command.
-/

namespace Sys2Proof

/-! ### The code tables -/

/-- func10 of OP, 02 R43. -/
def AluOp.code : AluOp → Nat
  | .add => 0x000 | .sub => 0x001 | .and => 0x002 | .or => 0x003 | .xor => 0x004 | .sll => 0x005 | .srl => 0x006
  | .sra => 0x007 | .slt => 0x008 | .sltu => 0x009 | .min => 0x00A | .max => 0x00B | .minu => 0x00C | .maxu => 0x00D
  | .mul => 0x010 | .mulh => 0x011 | .mulhu => 0x012 | .div => 0x014 | .divu => 0x015 | .rem => 0x016 | .remu => 0x017

/-- The OP instruction of a func10. -/
def AluOp.ofCode (n : Nat) : Option AluOp :=
  [AluOp.add, .sub, .and, .or, .xor, .sll, .srl, .sra, .slt, .sltu, .min, .max, .minu, .maxu, .mul, .mulh, .mulhu,
    .div, .divu, .rem, .remu].find? fun f => f.code == n

/-- func10 of OPF, 02 R45. -/
def FpOp.code : FpOp → Nat
  | .fadd => 0x000 | .fsub => 0x001 | .fmul => 0x002 | .fmin => 0x003 | .fmax => 0x004 | .feq => 0x008 | .flt => 0x009
  | .fle => 0x00A

/-- The OPF instruction of a func10. -/
def FpOp.ofCode (n : Nat) : Option FpOp :=
  [FpOp.fadd, .fsub, .fmul, .fmin, .fmax, .feq, .flt, .fle].find? fun f => f.code == n

/-- The major of an immediate form, 02 R42. -/
def ImmOp.major : ImmOp → Nat
  | .addi => 3 | .andi => 4 | .ori => 5 | .xori => 6 | .slti => 7

/-- The kind of a shift, 02 R47. -/
def ShOp.code : ShOp → Nat
  | .slli => 0 | .srli => 1 | .srai => 2

/-- The shift of a kind. -/
def ShOp.ofCode (n : Nat) : Option ShOp := [ShOp.slli, .srli, .srai].find? fun f => f.code == n

/-- The width of a load, 02 R49. -/
def LoadW.code : LoadW → Nat
  | .lb => 0 | .lh => 1 | .lw => 2 | .ld => 3 | .lbu => 4 | .lhu => 5 | .lwu => 6

/-- The load of a width. -/
def LoadW.ofCode (n : Nat) : Option LoadW := [LoadW.lb, .lh, .lw, .ld, .lbu, .lhu, .lwu].find? fun f => f.code == n

/-- The width of a store, 02 R50. -/
def StoreW.code : StoreW → Nat
  | .sb => 0 | .sh => 1 | .sw => 2 | .st => 3 | .stRel => 7

/-- The store of a width. -/
def StoreW.ofCode (n : Nat) : Option StoreW := [StoreW.sb, .sh, .sw, .st, .stRel].find? fun f => f.code == n

/-- The condition of a branch, 02 R53. -/
def Cond.code : Cond → Nat
  | .eq => 0 | .ne => 1 | .lt => 2 | .ge => 3 | .ltu => 4 | .geu => 5

/-- The branch of a condition. -/
def Cond.ofCode (n : Nat) : Option Cond := [Cond.eq, .ne, .lt, .ge, .ltu, .geu].find? fun f => f.code == n

/-- A Boolean field. -/
def bitNat (b : Bool) : Nat := if b then 1 else 0

/-! ### Encoding -/

/-- The number of a unit word: major, tickets, and the unit field in bits [12:0] (02 R40 R41). -/
def unitNat (major : Nat) (tw ts : BitVec 6) (field : Nat) : Nat :=
  major * 2 ^ 25 + tw.toNat * 2 ^ 19 + ts.toNat * 2 ^ 13 + field

/-- The unit field of a Mover instruction: DESC, DIR or OP, SE, SLOT (04 R162). -/
def movField (f : UnitF) (d : Bool) : Nat :=
  f.desc.toNat * 2 ^ 9 + bitNat d * 2 ^ 8 + bitNat f.se * 2 ^ 7 + f.slot.toNat * 2 ^ 4

/-- The unit field of an STC, RLR or SCR instruction: DESC, SE, SLOT (09 R305, 11 R378, 12 R434). -/
def stcField (f : UnitF) : Nat := f.desc.toNat * 2 ^ 9 + bitNat f.se * 2 ^ 8 + f.slot.toNat * 2 ^ 5

/-- The number of a unit instruction's word. -/
def UOp.nat : UOp → Nat
  | .movRow d f => unitNat 0b1011000 f.tw f.ts (movField f d)
  | .movBlk f => unitNat 0b1011001 f.tw f.ts (movField f false)
  | .movRcfl d f => unitNat 0b1011010 f.tw f.ts (movField f d)
  | .movPutf f => unitNat 0b1011011 f.tw f.ts (movField f false)
  | .trwMma f => unitNat 0b1000000 f.tw f.ts
      (f.p.toNat * 2 ^ 10 + f.dt.toNat * 2 ^ 6 + bitNat f.bankB * 2 ^ 5 + bitNat f.init * 2 ^ 4)
  | .trwDrain f => unitNat 0b1000001 f.tw f.ts
      (f.dd.toNat * 2 ^ 9 + bitNat f.bankB * 2 ^ 8 + bitNat f.se * 2 ^ 7 + f.slot.toNat * 2 ^ 4 + bitNat f.clr * 2 ^ 3)
  | .trwLdacc f => unitNat 0b1000010 f.tw f.ts (f.dd.toNat * 2 ^ 9 + bitNat f.bankB * 2 ^ 8)
  | .trwClr f => unitNat 0b1000011 f.tw f.ts (bitNat f.bankB * 2 ^ 5 + bitNat f.ty * 2 ^ 4 + bitNat f.th * 2 ^ 3)
  | .brsLdp f => unitNat 0b1001000 f.tw f.ts (f.desc.toNat * 2 ^ 9 + f.pslot.toNat * 2 ^ 6)
  | .brsRun f => unitNat 0b1001001 f.tw f.ts (f.p.toNat * 2 ^ 10 + bitNat f.se * 2 ^ 9 + f.slot.toNat * 2 ^ 6)
  | .stcFwd f => unitNat 0b1010000 f.tw f.ts (stcField f)
  | .stcBwd f => unitNat 0b1010001 f.tw f.ts (stcField f)
  | .stcPtedit f => unitNat 0b1010010 f.tw f.ts (stcField f)
  | .stcBucket f => unitNat 0b1010011 f.tw f.ts (stcField f)
  | .stcDec f => unitNat 0b1010100 f.tw f.ts (stcField f)
  | .scrMcast f => unitNat 0b1100000 f.tw f.ts (stcField f)
  | .scrRed f => unitNat 0b1100001 f.tw f.ts (stcField f)
  | .scrBar f => unitNat 0b1100010 f.tw f.ts (stcField f)
  | .scrFlag f => unitNat 0b1100011 f.tw f.ts (stcField f)
  | .rlrVld f => unitNat 0b1101000 f.tw f.ts (stcField f)
  | .rlrMv f => unitNat 0b1101001 f.tw f.ts (stcField f)
  | .rlrRd f => unitNat 0b1101010 f.tw f.ts (stcField f)
  | .rlrWr f => unitNat 0b1101011 f.tw f.ts (stcField f)

/-- The number of format S3 (02 R40). -/
def s3Nat (major : Nat) (rd rs1 rs2 : BitVec 5) (func : Nat) : Nat :=
  major * 2 ^ 25 + rd.toNat * 2 ^ 20 + rs1.toNat * 2 ^ 15 + rs2.toNat * 2 ^ 10 + func

/-- The number of formats SI, SL, SS and SB, whose low fifteen bits differ in their split (02 R40). -/
def siNat (major : Nat) (a b : BitVec 5) (low : Nat) : Nat := major * 2 ^ 25 + a.toNat * 2 ^ 20 + b.toNat * 2 ^ 15 + low

/-- The number of an instruction's word. -/
def Flik.nat : Flik → Nat
  | .op f rd rs1 rs2 => s3Nat 1 rd rs1 rs2 f.code
  | .opf f rd rs1 rs2 => s3Nat 2 rd rs1 rs2 f.code
  | .fcvtSL rd rs1 => s3Nat 2 rd rs1 0 0x010
  | .fcvtLS rd rs1 => s3Nat 2 rd rs1 0 0x011
  | .opi f rd rs1 imm => siNat f.major rd rs1 imm.toNat
  | .shi f rd rs1 sh => siNat 8 rd rs1 (f.code * 2 ^ 13 + sh.toNat)
  | .lui rd imm => 9 * 2 ^ 25 + rd.toNat * 2 ^ 20 + imm.toNat
  | .load w rd rs1 imm => siNat 10 rd rs1 (w.code * 2 ^ 12 + imm.toNat)
  | .store w rs2 rs1 imm => siNat 11 rs2 rs1 (w.code * 2 ^ 12 + imm.toNat)
  | .br c rs1 rs2 off => siNat 12 rs1 rs2 (c.code * 2 ^ 12 + off.toNat)
  | .jal rd off => 13 * 2 ^ 25 + rd.toNat * 2 ^ 20 + off.toNat
  | .jalr rd rs1 imm => siNat 14 rd rs1 imm.toNat
  | .tks tk imm => 15 * 2 ^ 25 + tk.toNat * 2 ^ 16 + imm.toNat
  | .tkw tk imm => 15 * 2 ^ 25 + 1 * 2 ^ 22 + tk.toNat * 2 ^ 16 + imm.toNat
  | .tkrd xd tk => 15 * 2 ^ 25 + 2 * 2 ^ 22 + tk.toNat * 2 ^ 16 + xd.toNat * 2 ^ 11
  | .tkset tk xs => 15 * 2 ^ 25 + 3 * 2 ^ 22 + tk.toNat * 2 ^ 16 + xs.toNat * 2 ^ 11
  | .waitf rd rs1 rs2 cond acq tmo =>
    16 * 2 ^ 25 + rd.toNat * 2 ^ 20 + rs1.toNat * 2 ^ 15 + rs2.toNat * 2 ^ 10 + cond.toNat * 2 ^ 7
      + bitNat acq * 2 ^ 6 + tmo.toNat * 2
  | .sumrd xd slot field => 17 * 2 ^ 25 + xd.toNat * 2 ^ 20 + slot.toNat * 2 ^ 17 + field.toNat * 2 ^ 14
  | .dld dn xs imm => 18 * 2 ^ 25 + dn.toNat * 2 ^ 21 + xs.toNat * 2 ^ 16 + imm.toNat
  | .dst dn xs imm => 19 * 2 ^ 25 + dn.toNat * 2 ^ 21 + xs.toNat * 2 ^ 16 + imm.toNat
  | .dset dn w xs => 20 * 2 ^ 25 + dn.toNat * 2 ^ 18 + w.toNat * 2 ^ 11 + xs.toNat * 2 ^ 6
  | .dget xd dn w => 20 * 2 ^ 25 + 1 * 2 ^ 22 + dn.toNat * 2 ^ 18 + w.toNat * 2 ^ 11 + xd.toNat * 2 ^ 6
  | .dcpy dn dm => 20 * 2 ^ 25 + 2 * 2 ^ 22 + dn.toNat * 2 ^ 18 + dm.toNat * 2 ^ 14
  | .dzero dn => 20 * 2 ^ 25 + 3 * 2 ^ 22 + dn.toNat * 2 ^ 18
  | .fence => 21 * 2 ^ 25
  | .icinv => 21 * 2 ^ 25 + 1 * 2 ^ 20
  | .seed xs => 21 * 2 ^ 25 + 2 * 2 ^ 20 + xs.toNat * 2 ^ 15
  | .brk imm => 21 * 2 ^ 25 + 3 * 2 ^ 20 + imm.toNat
  | .halt xs => 21 * 2 ^ 25 + 4 * 2 ^ 20 + xs.toNat * 2 ^ 15
  | .unit u => u.nat

/-- The word of an instruction. -/
def Flik.encode (i : Flik) : BitVec 32 := BitVec.ofNat 32 i.nat

/-! ### Decoding -/

/-- Bits [lo + n - 1 : lo] of a word's number as a field of n bits. -/
def cut (w lo n : Nat) : BitVec n := BitVec.ofNat n (w / 2 ^ lo)

/-- One bit of a word's number. -/
def bitOf (w lo : Nat) : Bool := w / 2 ^ lo % 2 == 1

/-- The fields of a Mover word. -/
def movF (w : Nat) : UnitF := ⟨cut w 19 6, cut w 13 6, cut w 9 4, bitOf w 7, cut w 4 3⟩

/-- The fields of an STC, RLR or SCR word. -/
def stcF (w : Nat) : UnitF := ⟨cut w 19 6, cut w 13 6, cut w 9 4, bitOf w 8, cut w 5 3⟩

/-- The unit instruction that a word's major selects, with the fields its layout gives: it still has to spell the
constants of its encoding. -/
def unitShape (w : Nat) : Option UOp :=
  match w / 2 ^ 25 with
  | 0b1000000 => some (.trwMma ⟨cut w 19 6, cut w 13 6, cut w 10 3, cut w 6 4, bitOf w 5, bitOf w 4⟩)
  | 0b1000001 =>
    some (.trwDrain ⟨cut w 19 6, cut w 13 6, cut w 9 4, bitOf w 8, bitOf w 7, cut w 4 3, bitOf w 3⟩)
  | 0b1000010 => some (.trwLdacc ⟨cut w 19 6, cut w 13 6, cut w 9 4, bitOf w 8⟩)
  | 0b1000011 => some (.trwClr ⟨cut w 19 6, cut w 13 6, bitOf w 5, bitOf w 4, bitOf w 3⟩)
  | 0b1001000 => some (.brsLdp ⟨cut w 19 6, cut w 13 6, cut w 9 4, cut w 6 3⟩)
  | 0b1001001 => some (.brsRun ⟨cut w 19 6, cut w 13 6, cut w 10 3, bitOf w 9, cut w 6 3⟩)
  | 0b1010000 => some (.stcFwd (stcF w))
  | 0b1010001 => some (.stcBwd (stcF w))
  | 0b1010010 => some (.stcPtedit (stcF w))
  | 0b1010011 => some (.stcBucket (stcF w))
  | 0b1010100 => some (.stcDec (stcF w))
  | 0b1011000 => some (.movRow (bitOf w 8) (movF w))
  | 0b1011001 => some (.movBlk (movF w))
  | 0b1011010 => some (.movRcfl (bitOf w 8) (movF w))
  | 0b1011011 => some (.movPutf (movF w))
  | 0b1100000 => some (.scrMcast (stcF w))
  | 0b1100001 => some (.scrRed (stcF w))
  | 0b1100010 => some (.scrBar (stcF w))
  | 0b1100011 => some (.scrFlag (stcF w))
  | 0b1101000 => some (.rlrVld (stcF w))
  | 0b1101001 => some (.rlrMv (stcF w))
  | 0b1101010 => some (.rlrRd (stcF w))
  | 0b1101011 => some (.rlrWr (stcF w))
  | _ => none

/-- The instruction that a word's major and function fields select, with the fields its format gives. -/
def shape (w : Nat) : Option Flik :=
  let rd := cut w 20 5
  let rs1 := cut w 15 5
  match w / 2 ^ 25 with
  | 1 => (AluOp.ofCode (w % 2 ^ 10)).map fun f => .op f rd rs1 (cut w 10 5)
  | 2 =>
    if w % 2 ^ 10 = 0x010 then some (.fcvtSL rd rs1)
    else if w % 2 ^ 10 = 0x011 then some (.fcvtLS rd rs1)
    else (FpOp.ofCode (w % 2 ^ 10)).map fun f => .opf f rd rs1 (cut w 10 5)
  | 3 => some (.opi .addi rd rs1 (cut w 0 15))
  | 4 => some (.opi .andi rd rs1 (cut w 0 15))
  | 5 => some (.opi .ori rd rs1 (cut w 0 15))
  | 6 => some (.opi .xori rd rs1 (cut w 0 15))
  | 7 => some (.opi .slti rd rs1 (cut w 0 15))
  | 8 => (ShOp.ofCode (w / 2 ^ 13 % 4)).map fun f => .shi f rd rs1 (cut w 0 6)
  | 9 => some (.lui rd (cut w 0 20))
  | 10 => (LoadW.ofCode (w / 2 ^ 12 % 8)).map fun f => .load f rd rs1 (cut w 0 12)
  | 11 => (StoreW.ofCode (w / 2 ^ 12 % 8)).map fun f => .store f rd rs1 (cut w 0 12)
  | 12 => (Cond.ofCode (w / 2 ^ 12 % 8)).map fun f => .br f rd rs1 (cut w 0 12)
  | 13 => some (.jal rd (cut w 0 20))
  | 14 => some (.jalr rd rs1 (cut w 0 15))
  | 15 => match w / 2 ^ 22 % 8 with
    | 0 => some (.tks (cut w 16 6) (cut w 0 11))
    | 1 => some (.tkw (cut w 16 6) (cut w 0 11))
    | 2 => some (.tkrd (cut w 11 5) (cut w 16 6))
    | 3 => some (.tkset (cut w 16 6) (cut w 11 5))
    | _ => none
  | 16 => some (.waitf rd rs1 (cut w 10 5) (cut w 7 3) (bitOf w 6) (cut w 1 5))
  | 17 => some (.sumrd rd (cut w 17 3) (cut w 14 3))
  | 18 => some (.dld (cut w 21 4) (cut w 16 5) (cut w 0 16))
  | 19 => some (.dst (cut w 21 4) (cut w 16 5) (cut w 0 16))
  | 20 => match w / 2 ^ 22 % 8 with
    | 0 => some (.dset (cut w 18 4) (cut w 11 3) (cut w 6 5))
    | 1 => some (.dget (cut w 6 5) (cut w 18 4) (cut w 11 3))
    | 2 => some (.dcpy (cut w 18 4) (cut w 14 4))
    | 3 => some (.dzero (cut w 18 4))
    | _ => none
  | 21 => match w / 2 ^ 20 % 32 with
    | 0 => some .fence
    | 1 => some .icinv
    | 2 => some (.seed rs1)
    | 3 => some (.brk (cut w 0 15))
    | 4 => some (.halt rs1)
    | _ => none
  | _ => (unitShape w).map .unit

/-- The fields of a DREG word that its instruction does not use: 02 R57 asks zeros of bits [5:0] alone, so that any value
may stand there (DEDUCED, log entry 88). -/
def Flik.unused : Flik → BitVec 32
  | .dset _ _ _ | .dget _ _ _ => 0x3C000
  | .dcpy _ _ => 0x3FC0
  | .dzero _ => 0x3FFC0
  | _ => 0

/-- The instruction a word spells: well formed, and every constant and reserved bit as its encoding gives (02 R11
R42). Every other word raises ILLEGAL. -/
def decode (w : BitVec 32) : Option Flik :=
  (shape w.toNat).filter fun i => i.wf && (i.encode ||| i.unused) == (w ||| i.unused)

/-- The command that a word of the table spells: its rows give no bits. -/
def decodeTableWord (_nbits _w : Nat) : Option Instr := none

end Sys2Proof
end

