-- ==== Sys2Proof/Config.lean ====
section
/-!
DEFINITION. What the spec leaves open, as constants with no body: nothing can be proved of their values. The free
values take the counter State.free, which every use advances, so that each draw is a fresh one (log entry 5).
-/

namespace Sys2Proof.Config

/-- The core cycles that pass beside the one a step counts (19 R620; the model has no clock). -/
opaque elapsed : Nat → Nat

/-- The errors that the granules meet which a rub-down has read when a reset, a retirement or a register write cuts it short (16
R553, log entry 130). -/
opaque cutErrs : Nat → List MemErr

/-- Where a power loss cuts a firmware command (18 R600 R601). -/
opaque cutAt : Nat → Nat

/-- A word whose value the spec does not state. -/
opaque freeWord : Nat → Word

/-- What an instruction leaves in a place whose contents the spec does not state, being the same run after run (01 R28, 09
R312): the numbers that it depends on (descriptors, inputs, what the place held), the place. -/
opaque left : List Nat → Nat → Word

/-- The beat number that a started attention instruction has reached (09 R322). -/
opaque beat : Nat → Nat

/-- The multicast hold-buffer entries in use at a router (12 R444). -/
opaque held : Nat → Nat

/-- The device ratio that the governor chooses within 17 R578 R583 R585. -/
opaque ratio : Nat → Nat

/-- A draw of the TRNG (18 R607): 32 bytes. -/
opaque trng : Nat → List Byte

/-- Padding and layout of the SPDM messages that DMTF SPDM 1.3 owns (18 R604). -/
opaque spdmBody : String → List Byte → List Byte

/-- SHA-384 (18 R595). -/
opaque sha384 : List Byte → List Byte

/-- A byte of Colelo's public keys (18 R595 names them without their values). -/
opaque vendorKey : Nat → Byte

/-- The Ed25519 signature of RFC 8032 by the holder of a public key (18): key, message, byte number. -/
opaque edSign : List Byte → List Byte → Nat → Byte

/-- The ML-DSA-65 signature of FIPS 204 by the holder of a public key. -/
opaque mlSign : List Byte → List Byte → Nat → Byte

/-- The fields of an enrolment command (18 R611 gives no layout): the slot, the action, and the digests, keys and
signatures numbered 0-5. -/
opaque enrolSlot : List Byte → Nat

/-- Whether an enrolment command revokes. -/
opaque enrolRevokes : List Byte → Bool

/-- A part of an enrolment command. -/
opaque enrolPart : List Byte → Nat → List Byte

/-- Whether Ed25519 verification accepts a signature other than the holder's own one: public key, message, signature. -/
opaque edVerify : List Byte → List Byte → List Byte → Bool

/-- Likewise ML-DSA-65 verification with an empty context string (18 R596). -/
opaque mlVerify : List Byte → List Byte → List Byte → Bool

/-- The signing engine (18 R603): certificate slot, identity seeds, message. -/
opaque sign : Nat → List Byte → List Byte → List Byte

/-- The identity public keys that the seeds give (18 R603): certificate slot, identity seeds. -/
opaque idKey : Nat → List Byte → List Byte

/-- The certificate chains of module flash (18 R603). -/
opaque certChain : Nat → List Byte

/-- The digest of the boot ROM (18 R605). -/
opaque romDigest : List Byte

/-- A byte of the PCI Express configuration space that the spec does not lay out (14 R485). -/
opaque cfgByte : Nat → Byte

/-- The offset of the Power Management capability in the configuration space. -/
opaque pmOff : Nat

/-- The offset of the MSI-X capability in the configuration space (14 R485 gives no layout). -/
opaque msixOff : Nat

/-- The offset of the PCI Express capability in the configuration space. -/
opaque pcieOff : Nat

/-- The offset of the Advanced Error Reporting capability in the configuration space. -/
opaque aerOff : Nat

/-- Whether the link runs at reduced width under L0p at a moment (14 R485 R505 do not say when it does). -/
opaque l0p : Nat → Bool

/-- The offset of the Resizable BAR capability in the configuration space. -/
opaque rebarOff : Nat

/-- Colelo's PCI vendor ID (14 R485 names it without its value). -/
opaque vendorId : BitVec 16

/-- A byte of the 256 that an IDLE or NAK frame holds beside its header: the spec gives them no content, and no layout to
the equaliser requests that an IDLE frame carries (13 R452 R456). -/
opaque idleByte : Nat → Nat → Byte

/-- Whether a panel member's port toward a far end is UP, as the members report it to each other (13 R472 gives no message
for it): the moment, the far end, the member. -/
opaque memberUp : Nat → Nat → Nat → Bool

/-- A byte of what names a firmware command on channel MGT (13 R469 gives no layout for it): the command, its chunk, the
place. -/
opaque mgtByte : Nat → Nat → Nat → Byte

/-- A byte of a member's report on channel MGT (13 R469 gives no layout for it): success, the place. -/
opaque mgtReport : Bool → Nat → Byte

/-- ADDR of the packets of channel MGT above its stripe bits (13 R469 gives no target address for them). -/
opaque mgtAddr : Nat

/-- The wake tolerance that firmware loads into PCI_WAKE at a start, in microseconds (14 R506 gives no value). -/
opaque fwWake : BitVec 32

/-- The upper half of the SUM word of integer data, whose lower half is the INT32 sum (02 R58 gives no form for it). -/
opaque intSumTop : BitVec 32 → BitVec 32

/-- SIG of a snag-list entry that the MC itself appends: detector and failing pattern, to which the spec gives no values (15
R517): start count, TYPE, LOC. -/
opaque snagSig : Nat → Nat → Nat → Word

/-- Whether a quotient that the spec does not round (17 R575 R582) is taken up: numerator, denominator. -/
opaque roundUp : Nat → Nat → Bool

end Sys2Proof.Config
end

