-- ==== Sys2Proof/Machine/Bits.lean ====
section
/-!
DEFINITION. Bit fields of registers and descriptors, and the byte order of the device: little-endian, bit 0 least
significant (00 R3).
-/

namespace Sys2Proof.Machine

/-- The field of `len` bits from bit `lo` of a word, as a number. -/
def fld {n : Nat} (w : BitVec n) (lo len : Nat) : Nat := (w.toNat / 2 ^ lo) % 2 ^ len

/-- One bit. -/
def bitAt {n : Nat} (w : BitVec n) (i : Nat) : Bool := w.getLsbD i

/-- A number of `len` bits read as two's complement. -/
def signed (len v : Nat) : Int := if v < 2 ^ (len - 1) then (v : Int) else (v : Int) - (2 ^ len : Nat)

/-- A signed field of a word. -/
def sfld {n : Nat} (w : BitVec n) (lo len : Nat) : Int := signed len (fld w lo len)

/-- The bits of a field. -/
def fldMask (n lo len : Nat) : BitVec n := BitVec.ofNat n ((2 ^ len - 1) * 2 ^ lo)

/-- A word with a field replaced; the value is cut to the field. -/
def setFld {n : Nat} (w : BitVec n) (lo len v : Nat) : BitVec n :=
  (w &&& ~~~(fldMask n lo len)) ||| BitVec.ofNat n ((v % 2 ^ len) * 2 ^ lo)

/-- A field raised by `k`, held at its maximum (the counts of 03 R130 and of other chapters saturate). -/
def satFld {n : Nat} (w : BitVec n) (lo len k : Nat) : BitVec n :=
  setFld w lo len (min (fld w lo len + k) (2 ^ len - 1))

/-- Every bit outside the fields named is 0. -/
def onlyBits {n : Nat} (w : BitVec n) (fs : List (Nat × Nat)) : Bool :=
  w &&& ~~~(fs.foldl (fun m f => m ||| fldMask n f.1 f.2) 0) == 0

/-- Word `i` of a descriptor register. -/
def dword (d : Desc) (i : Nat) : Word := BitVec.ofNat 64 (d.toNat / 2 ^ (64 * i))

/-- A descriptor register with word `i` replaced. -/
def setDword (d : Desc) (i : Nat) (w : Word) : Desc := setFld d (64 * i) 64 w.toNat

/-- Words of a descriptor from one on are 0. -/
def restZero (d : Desc) (k : Nat) : Bool := (List.range 8).all fun i => decide (i < k) || dword d i == 0

/-- The lowest `n` bytes of a number, least significant first. -/
def leBytes : Nat → Nat → List Byte
  | 0, _ => []
  | n + 1, v => BitVec.ofNat 8 v :: leBytes n (v / 256)

/-- The number that bytes spell, least significant first. -/
def leNat : List Byte → Nat
  | [] => 0
  | b :: bs => b.toNat + 256 * leNat bs

/-- A Boolean as a bit. -/
def b2n (b : Bool) : Nat := if b then 1 else 0

end Sys2Proof.Machine
end

