-- ==== Sys2Proof/Machine/Maps.lean ====
section
/-!
DEFINITION. Finite maps and sets as plain data: lists of (key, value) pairs with strictly rising keys, and lists of
strictly rising keys. Memory is such a map whose unlisted addresses read 0 (03 R139, 15 R515) and which lists no 0.
-/

namespace Sys2Proof.Machine

/-- A finite map: keys strictly rising. -/
abbrev FMap (α : Type) := List (Nat × α)

/-- A finite set of numbers: strictly rising. -/
abbrev NSet := List Nat

/-- The value a map lists at a key. -/
def mapGet? {α : Type} : FMap α → Nat → Option α
  | [], _ => none
  | (k, v) :: m, n => if k = n then some v else mapGet? m n

/-- The value at a key, or a default where none is listed. -/
def mapGet {α : Type} (m : FMap α) (n : Nat) (d : α) : α := (mapGet? m n).getD d

/-- The map with a value at a key. -/
def mapSet {α : Type} : FMap α → Nat → α → FMap α
  | [], n, x => [(n, x)]
  | (k, v) :: m, n, x =>
    if n < k then (n, x) :: (k, v) :: m else if n = k then (n, x) :: m else (k, v) :: mapSet m n x

/-- The map without a key. -/
def mapErase {α : Type} : FMap α → Nat → FMap α
  | [], _ => []
  | (k, v) :: m, n => if k = n then mapErase m n else (k, v) :: mapErase m n

/-- Keys strictly rising above a bound. -/
def mapSortedFrom {α : Type} : Option Nat → FMap α → Bool
  | _, [] => true
  | b, (k, _) :: m => (match b with | none => true | some x => decide (x < k)) && mapSortedFrom (some k) m

/-- The form of a map: keys strictly rising. -/
def mapSorted {α : Type} (m : FMap α) : Bool := mapSortedFrom none m

/-- Whether a set holds a number. -/
def setHas : NSet → Nat → Bool
  | [], _ => false
  | k :: s, n => k == n || setHas s n

/-- The set with a number. -/
def setAdd : NSet → Nat → NSet
  | [], n => [n]
  | k :: s, n => if n < k then n :: k :: s else if n = k then k :: s else k :: setAdd s n

/-- The set without a number. -/
def setDel : NSet → Nat → NSet
  | [], _ => []
  | k :: s, n => if k = n then setDel s n else k :: setDel s n

/-- The memory of the device: byte cells in canonical form. -/
abbrev Memory := List (Nat × Byte)

/-- One byte: an address that is not listed reads 0. -/
def memGet (m : Memory) (a : Nat) : Byte := mapGet m a 0

/-- A write of one byte: writing 0 removes the entry, so that equal memories are equal lists. -/
def memPut (m : Memory) (a : Nat) (b : Byte) : Memory := if b = 0 then mapErase m a else mapSet m a b

/-- A write of consecutive bytes, lowest address first. -/
def memPuts : Memory → Nat → List Byte → Memory
  | m, _, [] => m
  | m, a, b :: bs => memPuts (memPut m a b) (a + 1) bs

/-- A read of consecutive bytes, lowest address first. -/
def memGets (m : Memory) (a : Nat) : Nat → List Byte
  | 0 => []
  | n + 1 => memGet m a :: memGets m (a + 1) n

/-- No entry lists the value of an unlisted address. -/
def memNoZero : Memory → Bool
  | [] => true
  | (_, b) :: m => decide (b ≠ 0) && memNoZero m

/-- The canonical form of memory: addresses strictly rising, no listed 0. -/
def Memory.wf (m : Memory) : Bool := mapSorted m && memNoZero m

end Sys2Proof.Machine
end

