-- ==== Sys2Proof/Machine/State.lean ====
section
/-!
DEFINITION. The state of the device: everything the spec gives it, as plain data, with the queue of waiting commands.
Registers of the register maps stand in `regs`, under their local addresses (Machine/Regs.lean names every one); the
fields that a map only reports are computed from the structures below when they are read.
-/

namespace Sys2Proof.Machine

/-- Why a step stops with a fault. No command of this model ends in one: every exception of a core, every unit
status and every bus answer is a next state. -/
inductive Fault where
  /-- Raised by no meaning: the spec stops the device nowhere. Safe. -/
  | stopped
  deriving DecidableEq, Repr

/-- Why a command is refused. -/
inductive Refusal where
  /-- A command with no meaning yet, named by its mnemonic. Raised by the arms of Dispatch.lean only. Safe. -/
  | notModelled (mnemonic : String)
  deriving DecidableEq, Repr

/-! ### Control cores (02) -/

/-- CORE_STATUS.STATE, 02 R94. -/
inductive CState
  | idle | running | sleeping | draining | done | faulted
  deriving DecidableEq, Repr

/-- What holds issue beyond the instruction at the PC: a TKW that waits (02 R55), a FENCE (R60) and an ST.REL (R67)
that wait for posted stores. -/
inductive Stall
  | none | tkw (tk : BitVec 6) (imm : BitVec 11) | fence | stRel (addr data : Word)
  deriving DecidableEq, Repr

/-- A sleeping WAITF (02 R71-R77): the flag's offset in the own hawk, and whether an evaluation has met it. -/
structure Waitf where
  rd : BitVec 5
  off : Nat
  cmp : Word
  cond : BitVec 3
  acq : Bool
  tmo : BitVec 5
  met : Bool
  deriving DecidableEq, Repr

/-- A summary slot, 02 R58. -/
structure Summary where
  max : Word
  min : Word
  sum : Word
  nnz : Word
  argmax : Word
  flags : Word
  status : Word
  seq : Word
  deriving DecidableEq, Repr

/-- Where a load's data go: a scalar register with its width and sign, or a descriptor register. -/
inductive LoadDst
  | x (rd : BitVec 5) (w : LoadW) | d (dn : BitVec 4)
  deriving DecidableEq, Repr

/-- An outstanding load (02 R63): its place among the core's stores, the cycle of its issue when it is sampled (19
R625), its bytes and poison once the read has been performed at its cell. It is stale once a later instruction has
written its destination: its data then write nothing (02 R62 R65). -/
structure Load where
  dst : LoadDst
  stale : Bool
  pc : LAddr
  word : BitVec 32
  addr : Nat
  mark : Nat
  samp : Option Word
  missed : Bool
  data : Option (List Byte × Bool)
  deriving DecidableEq, Repr

/-- A posted store (02 R64 R67), with its place in the core's order of stores. -/
structure PStore where
  id : Nat
  addr : Nat
  bytes : List Byte
  pc : LAddr
  word : BitVec 32
  samp : Option Word
  missed : Bool
  deriving DecidableEq, Repr

/-- A multiply, divide or floating-point instruction whose result is not known to be ready (02 R62): the register that it
writes, and the cycle of its issue when it is sampled (19 R625). -/
structure Late where
  rd : BitVec 5
  pc : LAddr
  word : BitVec 32
  samp : Option Word
  missed : Bool
  deriving DecidableEq, Repr

/-- An instruction-cache line (02 R80): its address div 256, its 256 bytes, and which of its
granules came poisoned (R81). -/
structure ICLine where
  tag : Nat
  data : BitVec 2048
  poison : BitVec 4
  deriving DecidableEq, Repr

/-- The fields of a summary slot that a unit instruction defines (02 R58 R59). -/
structure SumV where
  max : Word := 0
  min : Word := 0
  sum : Word := 0
  nnz : Word := 0
  argmax : Word := 0
  flags : Word := 0
  deriving DecidableEq, Repr

/-- What a unit instruction ends with: its status (02 R92) and its summary. -/
structure Fin where
  status : BitVec 8
  sum : SumV
  deriving DecidableEq, Repr

/-- A unit instruction in its queue: what it captured at dispatch (02 R38 R61, 05 R196, 12 R441), and its progress.
`barred` names the ports that were reset under a copy which had still to store through them (03 R134): channel n as n,
the PCI Express function as 128, Kerit port p as 129 + p. `lost` says that a write which a ticket's cover brings to it ended
with PORT_RESET (02 R68, 12 R441). -/
structure UEntry where
  op : UOp
  word : BitVec 32
  pc : LAddr
  ds : List Desc
  seed : Word
  ord : Nat
  storeMark : Nat
  issued : Word
  head : Word
  wait : Word
  sampled : Bool
  missed : Bool
  full : Bool
  started : Bool
  begun : Bool
  prog : Nat
  nnz : Nat
  poi : Bool
  worst : Option (BitVec 8)
  await : List Nat
  barred : NSet
  lost : Bool
  buf : List (Nat × Byte)
  fin : Option Fin
  deriving DecidableEq, Repr

/-- A Trowel bank (06 R208-R210): 64 x 64 cells of 32 bits at 64r + c (0 where none is listed), its type, its THIN
tag, its poison mark, and the cells with a saturation mark. -/
structure Bank where
  cells : FMap (BitVec 32)
  int : Bool
  thin : Bool
  poison : Bool
  sat : NSet
  deriving DecidableEq, Repr

/-- A sequence entry that the page walker of STC.DEC holds (10 R332 R349 R365). -/
structure Held where
  seq : Nat
  entry : Nat
  step : Nat
  len : Nat
  deriving DecidableEq, Repr

/-- A control core and its units. `icMiss` and `qFull` say that the instruction at the PC missed the instruction cache
and stalled at a full queue (19 R626). `lost` names what covers a write that ended with PORT_RESET (12 R441): the queue of a
unit by its number, the control core as 5, ticket t as 64 + t. -/
structure Core where
  x : Vector Word 32
  pc : LAddr
  d : Vector Desc 16
  tk : Vector (BitVec 16) 64
  sum : Vector Summary 8
  seed : Word
  ord : Nat
  st : CState
  stall : Stall
  waitSamp : Option Word
  waitf : Option Waitf
  excCause : Word
  excPc : LAddr
  excAddr : Word
  excInsn : BitVec 32
  faultMask : BitVec 5
  exit : Option Word
  trwQ : List UEntry
  brsQ : List UEntry
  stcQ : List UEntry
  movQ : List UEntry
  scrQ : List UEntry
  loads : List Load
  late : List Late
  stores : List PStore
  storeSeq : Nat
  ic : List ICLine
  icMiss : Bool
  qFull : Bool
  bankA : Bank
  bankB : Bank
  prog : FMap (List (BitVec 32))
  stcOwns : Bool
  held : List Held
  lost : NSet
  slot : BitVec 5
  deriving DecidableEq, Repr

/-! ### Memory-side structures (04, 16) -/

/-- A render-cache line (04 R158 R160): granule number, 256 bytes, dirty mark, poison mark of each 64-byte granule. -/
structure RcLine where
  tag : Nat
  data : List Byte
  dirty : Bool
  poison : BitVec 4
  deriving DecidableEq, Repr

/-- A patch entry (16 R547 R548 R656): the hod row or render granule it replaces, and whether it is out of use. -/
structure Patch where
  loc : Nat
  out : Bool
  deriving DecidableEq, Repr

/-- A record of the error log (16 R555). -/
structure ErrRec where
  cls : BitVec 8
  src : BitVec 8
  start : BitVec 32
  loc : Word
  addr : Word
  order : BitVec 32
  deriving DecidableEq, Repr

/-- A rub-down's progress and counts (16 R552-R554): the next granule's position, the granules in all, the
space it runs in, what has been
counted, and the list. -/
structure Rub where
  pos : Nat
  total : Nat
  space : Nat
  scanned : Nat
  corrected : Nat
  uncorr : Nat
  poisoned : Nat
  patched : Nat
  unpatched : Nat
  unlisted : Nat
  list : List Word
  run : Nat
  deriving DecidableEq, Repr

/-! ### The vertical channels (03) -/

/-- What a direction of a vertical channel holds beside its registers: the settings of its groups at the three
trained points (key 9 * point + group, GC being group 8), the moments in microseconds of the last eight corrected errors of
a lane (key 512 * group + lane), the rows of its replay buffer, the lanes declared failed and not yet repaired, the replays
of the row in flight, a width change that is due, and the failed lanes of GC: how many, and those that spares replaced. -/
structure Vc where
  set : FMap Word
  errs : FMap (List Nat)
  replay : List Nat
  failed : List Nat
  attempt : Nat
  widthDue : Bool
  gcFails : Nat
  gcLanes : List Nat
  deriving DecidableEq, Repr

/-- A retune window of a site (03 R119-R122). -/
inductive Window
  | none | due (c : RetuneCause) | open | forced
  deriving DecidableEq, Repr

/-- What a site holds beside its registers: its retune window, whether a lane of a group without a probe has shown a
corrected error since the last one (03 R119), its hot-spot ratio in sixteenths (17 R580), whether
it was stuck hot, PARITY faults in this start (16 R546), hard hawk words in this start (16 R551). -/
structure Site where
  win : Window
  corr : Bool
  ratio : Nat
  stuck : Bool
  parity : Nat
  hardHawk : Nat
  deriving DecidableEq, Repr

/-- A Skim half (03 R111 R112, 12 R412, 17 R566): the point its idle PLL is set to in a change, whether it has locked,
the half's stop within the change, whether its routers' clock runs, whether traffic waits at the seam, and the trained
point at which it runs or last ran (R132 shows 3 while it is stopped). -/
structure HalfS where
  pll : Option Nat
  locked : Bool
  stopped : Bool
  routers : Bool
  waiting : Bool
  point : Nat
  deriving DecidableEq, Repr

/-! ### Rollers and DRAM (11) -/

/-- The walk of a Roller through an RLR.MV (11 R375 R390): the steps made, the accumulators updated, the selected banks,
and in the gap between two passes, while it stays open for queued requests, how many it has served. -/
structure Walk where
  pos : Nat
  seen : NSet
  banks : Nat
  gap : Option Nat
  deriving DecidableEq, Repr

/-- A Roller (11 R372): its vector buffer bytes (0 where none is listed) and poisoned granules, its accumulators (+0
where none is listed) and poisoned accumulators, whether a pass of it holds its selected banks, and the walk that it is in. -/
structure Roller where
  vec : FMap Byte
  vecPoison : NSet
  acc : FMap (BitVec 32)
  accPoison : NSet
  pass : Bool
  walk : Option Walk
  deriving DecidableEq, Repr

/-- A command at a stack sequencer (11 R385 R386): the issuing core, its captured descriptor and the bytes that it carries
or brings; whether its turn has come; the Rollers whose part a reset has ended, and whether it ends with PORT_RESET; and
what it reports: a count, corrected granules, FLAGS bits, poison. -/
structure RlrCmd where
  lc : Nat
  op : UOp
  desc : Desc
  ran : Bool
  gone : NSet
  reset : Bool
  nnz : Nat
  fixed : Nat
  flags : Nat
  poi : Bool
  payload : FMap Byte
  deriving DecidableEq, Repr

/-! ### The Scrim (12) -/

/-- A combine context for one (DEST, RID) in flight (12 R425-R430): its kind, what its participants must agree on,
the arrivals and the contributions, whether it ended as a mismatch or a timeout, and how many participants' flits it
counted. -/
structure Coll where
  dest : Nat
  rid : Nat
  barrier : Bool
  set : List Nat
  fmt : Nat
  len : Nat
  arrived : List Nat
  terms : List (Nat × List (BitVec 32 × Bool))
  mismatch : Bool
  dead : Bool
  came : Nat
  released : Bool
  deriving DecidableEq, Repr

/-- A deferred page-table edit (10 R338): the issuing core and its captured descriptor. -/
structure Deferred where
  lc : Nat
  seq : Nat
  desc : Desc
  deriving DecidableEq, Repr

/-! ### Kerit (13) -/

/-- A Kerit packet (13 R450). -/
structure Packet where
  srcDev : BitVec 12
  dstDev : BitVec 12
  op : BitVec 8
  stripe : BitVec 4
  epoch : BitVec 16
  fseq : BitVec 32
  len : Nat
  addr : Word
  aux : Word
  data : List Byte
  deriving DecidableEq, Repr

/-- A Kerit port's link layer (13 R449-R456): sequence numbers, frames that wait for a
credit or the replay buffer, replay buffer, credits, the packet being assembled,
complete packets not yet accepted, the identity recorded at start, coefficients. -/
structure Port where
  nextSeq : BitVec 16
  expect : BitVec 16
  nakSent : Bool
  sendQ : List Frame
  replay : List Frame
  replays : Nat
  credReq : Nat
  credRsp : Nat
  credMgt : Nat
  freeReq : Nat
  freeRsp : Nat
  freeMgt : Nat
  asm : FMap (List Byte)
  arrived : List Packet
  peer : Option (BitVec 12 × BitVec 4)
  coef : List Byte
  coefPeer : Option (BitVec 12 × BitVec 4)
  quiet : Bool
  waking : Bool
  deriving DecidableEq, Repr

/-- A packet in the flow store with what it belongs to: the issuing core's unit instruction, or none for an
acknowledgement (13 R464), and the destination of read data. -/
structure Unacked where
  pkt : Packet
  lc : Nat
  unit : Option UnitId
  dst : Nat
  deriving DecidableEq, Repr

/-- A transmit flow (13 R460 R472): current port, next FSEQ, unacknowledged packets oldest first,
the packets that the flow store has no room for (R464), failed ports. -/
structure TxFlow where
  dst : BitVec 12
  vc : Nat
  stripe : Nat
  port : Nat
  relay : Option Nat
  next : Nat
  unacked : List Unacked
  held : List Unacked
  failed : NSet
  deriving DecidableEq, Repr

/-- A receive flow entry (13 R461). -/
structure RxFlow where
  epoch : BitVec 16
  expect : Nat
  deriving DecidableEq, Repr

/-! ### The host function (14) -/

/-- How a core ended a launch (14 R500): FAULTED, its exit code, bits [31:0] of its CORE_EXC_CAUSE. -/
structure CoreEnd where
  faulted : Bool
  exit : Word
  cause : Nat
  deriving DecidableEq, Repr

/-- A launch slot (14 R495 R496): the last value of each byte, the bytes written since the last fire, the copied
descriptor of a QUEUED or RUNNING launch, its cores that have reached launch entry, how those of them ended that a later
launch has taken since, its place in the order of firing. -/
structure Slot where
  bytes : FMap Byte
  written : NSet
  entered : NSet
  ended : FMap CoreEnd
  launch : Option (List Byte)
  order : Nat
  deriving DecidableEq, Repr

/-- An MSI-X vector (14 R501): address, data, mask and pending bit. -/
structure Msix where
  addr : Word
  data : BitVec 32
  masked : Bool
  pend : Bool
  deriving DecidableEq, Repr

/-! ### Counting (19) -/

/-- A sample record (19 R626). -/
structure Sample where
  cycle : Word
  info : Word
  insn : BitVec 32
  tkwait : BitVec 32
  lat : Word
  deriving DecidableEq, Repr

/-- The sampling state of a site (19 R624-R629): instructions counted, the buffer, records dropped and not yet
reported, the next ring row, and scalar instructions sampled whose completion is due. -/
structure Pmu where
  count : Nat
  buf : List Sample
  lost : Nat
  ring : Nat
  deriving DecidableEq, Repr

/-! ### Module flash, fuses, security (15, 18) -/

/-- A snag-list entry (15 R517). -/
structure Snag where
  typ : BitVec 8
  flags : BitVec 8
  first : BitVec 32
  loc : Word
  sig : Word
  ordinal : BitVec 32
  crc : BitVec 32
  deriving DecidableEq, Repr

/-- Module flash (15 R515 and the rules that store there): `gen` and `map` are the newer of the two copies of R526, `gen2` and
`map2` the older one, a GEN of 0 being no copy. -/
structure Flash where
  starts : Nat
  snag : List Snag
  badCrc : Nat
  snag2 : List Snag
  second : Bool
  vcSet : FMap Word
  vcStored : Bool
  nextMib : BitVec 3
  ident : Word
  gen : Nat
  map : List Nat
  gen2 : Nat
  map2 : List Nat
  user : Bool
  est : Word
  valid : Nat
  tcyc : FMap Nat
  coef : FMap (List Byte)
  coefPeer : FMap Nat
  losses : Nat
  log : List ErrRec
  unlock : List (List Byte)
  chain : List Byte
  serial : BitVec 34
  rf : BitVec 16
  nfail : FMap Nat
  deriving DecidableEq, Repr

/-- An operator slot of the fuses (18 R595). -/
structure OpSlot where
  ed : List Byte
  ml : List Byte
  valid : Bool
  revoked : Bool
  deriving DecidableEq, Repr

/-- The fuses (18 R595). -/
structure Otp where
  vendorEd : List Byte
  vendorMl : List Byte
  rollback : Nat
  closed : Bool
  ops : List OpSlot
  seeds : List Byte
  deriving DecidableEq, Repr

/-- A firmware bank (18 R598-R600): the image bytes programmed since it was erased, its valid mark. -/
structure FwBank where
  image : List Byte
  valid : Bool
  deriving DecidableEq, Repr

/-- A Wyrok command that is running, and what it will answer (18 R599 R607 R612). -/
structure SecCmd where
  cmd : Nat
  panel : Bool
  chunk : Nat
  slot : Nat
  scope : Nat
  deriving DecidableEq, Repr

/-- A grant in force (18 R607 R610): its scopes, the slot whose keys granted them, its nonce. -/
structure Grant where
  scopes : Nat
  slot : Nat
  nonce : List Byte
  deriving DecidableEq, Repr

/-- Wyrok's working state (18): the banks, the command order, the running commands, the nonce and its request, the refusals,
the granted scopes and the grants that they come from, the image and response buffers, per transport the SPDM messages
answered and the algorithms negotiated, the panel members that have still to report, the SVN and the digest M of the running
image. -/
structure Sec where
  bankA : FwBank
  bankB : FwBank
  activeB : Bool
  runningB : Bool
  recovery : Bool
  fwStep : Nat
  fwCmd : Option SecCmd
  dbgCmd : Option SecCmd
  nonce : Option (List Byte)
  nonceScope : Nat
  nonceSlot : Nat
  refused : Nat
  scopes : Nat
  grants : List Grant
  img : FMap Byte
  rsp : FMap Byte
  spdmPcie : Nat
  spdmI3c : Nat
  algsPcie : Nat
  algsI3c : Nat
  mgtPend : NSet
  runSvn : Nat
  runM : List Byte
  deriving DecidableEq, Repr

/-! ### Power (17) -/

/-- The steps of a finish change (17 R562). -/
inductive FinStep
  | none | ramp | lock | west | east | rampDown
  deriving DecidableEq, Repr

/-- Power management (17): the change in progress and a request that waits, the Skim rail in millivolts, the device
ratio in 64ths, the reduction of the thermal cap by hot spots, last means, the 336 sensor readings behind them (03
R101), energy remainders, rainflow turning points, the last inlet, floor hold, the cores that are power-gated, and the
slices (by site) and stacks (168 and on) that an access has taken out of retention or self-refresh while the rest stays
there (04 R146, 17 R568). -/
structure Power where
  step : FinStep
  target : Nat
  reqWaits : Bool
  rail : Nat
  ratio : Nat
  cut : Nat
  lastP : Nat
  temps : List Int
  uj : Nat
  fillUj : Nat
  turns : List Int
  lastTin : Int
  floorDone : Bool
  pgated : NSet
  awake : NSet
  d3 : Bool
  waking : Bool
  deriving DecidableEq, Repr

/-- The module's pins (20 R631-R643). -/
structure Pins where
  aux : Bool
  stage : Bool
  perst : Bool
  brake : Bool
  alert : Bool
  i3c : Option (BitVec 7)
  deriving DecidableEq, Repr

/-! ### What the device sends -/

/-- What leaves the device: answers on the PCI Express link, writes and reads of host memory, MSI-X messages, Kerit frames
and packets, SPDM answers, the provisional ID of an I3C address assignment. The list in State is the record of what has been
sent, newest first. -/
inductive Out
  | readData (bar off : Nat) (bytes : List Byte) (ep : Bool)
  | abort (bar off : Nat)
  | cfg (off : Nat) (bytes : List Byte)
  | hostWrite (addr : Nat) (bytes : List Byte) (ep : Bool)
  | hostRead (lc addr len : Nat)
  | msix (vec : Nat) (addr : Word) (data : BitVec 32)
  | nak (port : Nat) (want : BitVec 16) (f : Frame)
  | frames (port : Nat) (f : List Frame)
  | packet (port : Nat) (p : Packet)
  | relay (member : Nat) (p : Packet)
  | mgt (pos : Nat) (cmd chunk : Nat) (image : List Byte)
  | report (pos : Nat) (ok : Bool)
  | spdm (t : Transport) (name : String) (body : List Byte)
  | entdaa (serial : BitVec 34) (addr : BitVec 7)
  deriving DecidableEq, Repr

/-! ### The whole device -/

/-- The state of the device. -/
structure State where
  pending : List Instr
  regs : FMap Word
  free : Nat
  out : List Out
  mem : Memory
  poison : NSet
  bad : NSet
  cores : FMap Core
  slices : List Nat
  rcMib : Nat
  rc : FMap (List RcLine)
  rcWait : List RcLine
  seen : NSet
  hodPatch : FMap (List Patch)
  rndPatch : FMap (List Patch)
  errlog : FMap ErrRec
  rub : Rub
  vcs : FMap Vc
  sites : FMap Site
  west : HalfS
  east : HalfS
  rollers : FMap Roller
  seqs : FMap (List RlrCmd)
  disarming : NSet
  rows : FMap Nat
  refreshDue : NSet
  colls : List Coll
  deferred : List Deferred
  ports : FMap Port
  tx : FMap TxFlow
  rx : FMap RxFlow
  slots : FMap Slot
  fires : Nat
  orphans : List (Nat × Slot)
  msix : FMap Msix
  cfg : FMap Byte
  aer : Bool
  pmus : FMap Pmu
  flash : Flash
  snagHeld : List Snag
  retired : NSet
  /-- The Trowel repair maps of the start that are not empty, by site, as TRW_REPAIR words (06 R204 R207). -/
  repairs : FMap Word
  remaps : List Nat
  otp : Otp
  sec : Sec
  power : Power
  pins : Pins
  trip : Bool
  deriving DecidableEq, Repr

/-! ### Reset values -/

/-- A summary slot at launch entry, 02 R85. -/
def Summary.zero : Summary := ⟨0, 0, 0, 0, 0, 0, 0, 0⟩

/-- A bank at launch entry and after a reset, 06 R209: every cell +0, type FP, no mark. -/
def Bank.zero : Bank := ⟨[], false, false, false, []⟩

/-- A core at reset: STATE IDLE and the CORE_ registers 0 (02 R94-R97); the values of 02 R85 for the rest. -/
def Core.zero : Core where
  x := Vector.replicate 32 0
  pc := 0
  d := Vector.replicate 16 0
  tk := Vector.replicate 64 0
  sum := Vector.replicate 8 Summary.zero
  seed := 0
  ord := 0
  st := .idle
  stall := .none
  waitSamp := none
  waitf := none
  excCause := 0
  excPc := 0
  excAddr := 0
  excInsn := 0
  faultMask := 0
  exit := none
  trwQ := []
  brsQ := []
  stcQ := []
  movQ := []
  scrQ := []
  loads := []
  late := []
  stores := []
  storeSeq := 0
  ic := []
  icMiss := false
  qFull := false
  bankA := Bank.zero
  bankB := Bank.zero
  prog := []
  stcOwns := false
  held := []
  lost := []
  slot := 0

/-- A rub-down engine that has not run. -/
def Rub.zero : Rub := ⟨0, 0, 0, 0, 0, 0, 0, 0, 0, 0, [], 0⟩

/-- A direction of a channel with nothing found. -/
def Vc.zero : Vc := ⟨[], [], [], [], 0, false, 0, []⟩

/-- A site at start: ratio 16/16 (17 R580). -/
def Site.zero : Site := ⟨.none, false, 16, false, 0, 0⟩

/-- A half whose clock and routers run. -/
def HalfS.zero : HalfS := ⟨none, false, false, true, false, 0⟩

/-- A Roller after a reset, 11 R398. -/
def Roller.zero : Roller := ⟨[], [], [], [], false, none⟩

/-- A port at reset: credits 512, 512 and 64 (13 R453). -/
def Port.zero : Port :=
  ⟨0, 0, false, [], [], 0, 512, 512, 64, 0, 0, 0, [], [], none, [], none, false, false⟩

/-- An empty launch slot. -/
def Slot.zero : Slot := ⟨[], [], [], [], none, 0⟩

/-- An MSI-X vector at reset: masked, as PCI Express gives. -/
def Msix.zero : Msix := ⟨0, 0, true, false⟩

/-- The sampling state at a start, 19 R617. -/
def Pmu.zero : Pmu := ⟨0, [], 0, 0⟩

/-- Module flash as shipped: no start yet (15 R509), USER 1 (19 R630), R600 chain of 48 zero bytes (18 R610). -/
def Flash.zero : Flash where
  starts := 0
  snag := []
  badCrc := 0
  snag2 := []
  second := false
  vcSet := []
  vcStored := false
  nextMib := 0
  ident := 0
  gen := 0
  map := []
  gen2 := 0
  map2 := []
  user := true
  est := 0
  valid := 0
  tcyc := []
  coef := []
  coefPeer := []
  losses := 0
  log := []
  unlock := []
  chain := List.replicate 48 0
  serial := 0
  rf := 24000
  nfail := []

/-- Colelo's Ed25519 public key. -/
def vendorEdKey : List Byte := (List.range 32).map Config.vendorKey

/-- Colelo's ML-DSA-65 public key. -/
def vendorMlKey : List Byte := (List.range 1952).map fun i => Config.vendorKey (32 + i)

/-- The Ed25519 signature that the holder of a key makes. -/
def edSig (key msg : List Byte) : List Byte := (List.range 64).map (Config.edSign key msg)

/-- The ML-DSA-65 signature that the holder of a key makes. -/
def mlSig (key msg : List Byte) : List Byte := (List.range 3309).map (Config.mlSign key msg)

/-- The image that the device ships with, in the layout of 18 R596: SVN 0, an empty body, signed by Colelo (log entry
40: the spec gives no firmware). -/
def factoryImage : List Byte :=
  let h := [0x57, 0x59, 0x52, 0x4B] ++ List.replicate 12 0 ++ vendorEdKey ++ vendorMlKey ++ List.replicate 48 0
  h ++ edSig vendorEdKey (Config.sha384 h) ++ mlSig vendorMlKey (Config.sha384 h)

/-- The fuses as shipped: the digests of Colelo's keys, CLOSED blown (18 R595); no operator enrolled. -/
def Otp.zero : Otp where
  vendorEd := Config.sha384 vendorEdKey
  vendorMl := Config.sha384 vendorMlKey
  rollback := 0
  closed := true
  ops := List.replicate 4 ⟨List.replicate 48 0, List.replicate 48 0, false, false⟩
  seeds := List.replicate 64 0

/-- Wyrok before any command. -/
def Sec.zero : Sec where
  bankA := ⟨factoryImage, true⟩
  bankB := ⟨[], false⟩
  activeB := false
  runningB := false
  recovery := false
  fwStep := 0
  fwCmd := none
  dbgCmd := none
  nonce := none
  nonceScope := 0
  nonceSlot := 0
  refused := 0
  scopes := 0
  grants := []
  img := []
  rsp := []
  spdmPcie := 0
  spdmI3c := 0
  algsPcie := 0
  algsI3c := 0
  mgtPend := []
  runSvn := 0
  runM := []

/-- Power management at reset: the Satin rail (17 R561 R588), full ratio. -/
def Power.zero : Power where
  step := .none
  target := 1
  reqWaits := false
  rail := 780
  ratio := 64
  cut := 0
  lastP := 0
  temps := []
  uj := 0
  fillUj := 0
  turns := []
  lastTin := 0
  floorDone := false
  pgated := []
  awake := []
  d3 := false
  waking := false

/-- The pins of a powered module: 3V3_AUX present, the stage in regulation, PERST# deasserted (20 R633 R642). -/
def Pins.zero : Pins := ⟨true, true, false, false, false, none⟩

/-- The device right after a reset, before a start (03 R133 R139): every register at its Reset column (those marked
FW at 0 until a START loads them), every memory reading 0, no command waiting. -/
def State.reset : State where
  pending := []
  regs := []
  free := 0
  out := []
  mem := []
  poison := []
  bad := []
  cores := []
  slices := []
  rcMib := 0
  rc := []
  rcWait := []
  seen := []
  hodPatch := []
  rndPatch := []
  errlog := []
  rub := Rub.zero
  vcs := []
  sites := []
  west := HalfS.zero
  east := HalfS.zero
  rollers := []
  seqs := []
  disarming := []
  rows := []
  refreshDue := []
  colls := []
  deferred := []
  ports := []
  tx := []
  rx := []
  slots := []
  fires := 0
  orphans := []
  msix := []
  cfg := []
  aer := false
  pmus := []
  flash := Flash.zero
  snagHeld := []
  retired := []
  repairs := []
  remaps := []
  otp := Otp.zero
  sec := Sec.zero
  power := Power.zero
  pins := Pins.zero
  trip := false

end Sys2Proof.Machine
end

