-- ==== Sys2Proof/Machine/Regs.lean ====
section
/-!
DEFINITION. The registers of the register maps: each under its name, with its local address and its writable fields
(every other field is RO or reserved: a write leaves it, 00 R4 R6). A register's stored word stands in State.regs
under its address; one that is not listed there holds its Reset column (00 R9).
-/

namespace Sys2Proof.Machine

/-- The access codes of 00 R6 that take a write. -/
inductive Access
  | rw | wo | w1c | w1s | rwl
  deriving DecidableEq, Repr

/-- The registers, with the index or site of each. -/
inductive Reg
  | coreStatus (n : Nat) | excCause (n : Nat) | excPc (n : Nat) | excAddr (n : Nat) | excInsn (n : Nat)
  | faultMask (n : Nat) | coreCtrl (n : Nat)
  | trwRepair (n : Nat) | trwStatus (n : Nat) | brsStatus (n : Nat) | brsPlen (n : Nat) | stcStatus (n : Nat)
  | stcWalk (n : Nat) | scrStatus (n : Nat)
  | pmuCycle (n : Nat) | pmuCtrl (n : Nat) | pmuOvf (n : Nat) | pmuPerm (n : Nat) | pmuEvsel (n i : Nat)
  | pmuCnt (n i : Nat) | pmuSctrl (n : Nat) | pmuSpill (n : Nat) | pmuSstat (n : Nat) | pmuMark (n : Nat)
  | vcPolicy | clkWest | clkEast | hodCapacity | rcConfig | kvConfig | kvStatus | kvRegion (r : Nat)
  | rlrState | rlrStack (i : Nat) | rlrRetired (i : Nat) | scrCfg | scrSeam
  | klkIdent | klkCtrl | klkCfg | klkStatus (p : Nat) | klkCounts (p : Nat)
  | pciLink | pciBar2 | pciWake | pciSlot (i : Nat) | pciHwin (k : Nat)
  | mcStart | mcMap | mcHealth | mcSpares | mcSnag | mcRemap
  | rubCtrl | rubBase | rubLen | rubDest | errStatus | errMask | errLog
  | finish | pwrPolicy | pwrState | therm | power | energy | filler | tcyc (k : Nat) | life
  | secState | fwCtrl | fwStatus | dbgCtrl | nonce (j : Nat) | module | supply
  | mcLc (n : Nat) | mcRetired (i : Nat) | rndCh (n : Nat) | retiredMap (i : Nat)
  | snagWord (i w : Nat) | errWord (i w : Nat)
  | lperm | lathCycle (i : Nat) | lathCtrl (i : Nat) | lathOvf (i : Nat) | lathEvsel (i j : Nat) | lathCnt (i j : Nat)
  | vcStatus (site : Nat) (d : VcDir) | vcGroup (site : Nat) (d : VcDir) (g : Nat) | vcCounts (site : Nat) (d : VcDir)
  | sliceStatus (site : Nat)
  deriving DecidableEq, Repr

/-- The first address of the core control registers, 01 R19. -/
def coreBase : Nat := 0x1F000000000

/-- The first address of the Lath and MC registers, 01 R19. -/
def lathBase : Nat := 0x1FF00000000

/-- The local address of a register. -/
def Reg.addr : Reg → Nat
  | .coreStatus n => coreBase + n * 0x100000
  | .excCause n => coreBase + n * 0x100000 + 0x8
  | .excPc n => coreBase + n * 0x100000 + 0x10
  | .excAddr n => coreBase + n * 0x100000 + 0x18
  | .excInsn n => coreBase + n * 0x100000 + 0x20
  | .faultMask n => coreBase + n * 0x100000 + 0x28
  | .coreCtrl n => coreBase + n * 0x100000 + 0x30
  | .trwRepair n => coreBase + n * 0x100000 + 0x1000
  | .trwStatus n => coreBase + n * 0x100000 + 0x1008
  | .brsStatus n => coreBase + n * 0x100000 + 0x1010
  | .brsPlen n => coreBase + n * 0x100000 + 0x1018
  | .stcStatus n => coreBase + n * 0x100000 + 0x1020
  | .stcWalk n => coreBase + n * 0x100000 + 0x1028
  | .scrStatus n => coreBase + n * 0x100000 + 0x1030
  | .pmuCycle n => coreBase + n * 0x100000 + 0x1100
  | .pmuCtrl n => coreBase + n * 0x100000 + 0x1108
  | .pmuOvf n => coreBase + n * 0x100000 + 0x1110
  | .pmuPerm n => coreBase + n * 0x100000 + 0x1118
  | .pmuEvsel n i => coreBase + n * 0x100000 + 0x1120 + 8 * i
  | .pmuCnt n i => coreBase + n * 0x100000 + 0x1160 + 8 * i
  | .pmuSctrl n => coreBase + n * 0x100000 + 0x11A0
  | .pmuSpill n => coreBase + n * 0x100000 + 0x11A8
  | .pmuSstat n => coreBase + n * 0x100000 + 0x11B0
  | .pmuMark n => coreBase + n * 0x100000 + 0x11B8
  | .vcPolicy => lathBase + 0x200
  | .clkWest => lathBase + 0x210
  | .clkEast => lathBase + 0x218
  | .hodCapacity => lathBase + 0x300
  | .rcConfig => lathBase + 0x308
  | .kvConfig => lathBase + 0x400
  | .kvStatus => lathBase + 0x408
  | .kvRegion r => lathBase + 0x480 + 8 * r
  | .rlrState => lathBase + 0x600
  | .rlrStack i => lathBase + 0x640 + 8 * i
  | .rlrRetired i => lathBase + 0x680 + 8 * i
  | .scrCfg => lathBase + 0x700
  | .scrSeam => lathBase + 0x708
  | .klkIdent => lathBase + 0x800
  | .klkCtrl => lathBase + 0x808
  | .klkCfg => lathBase + 0x810
  | .klkStatus p => lathBase + 0x900 + 16 * p
  | .klkCounts p => lathBase + 0x908 + 16 * p
  | .pciLink => lathBase + 0xA00
  | .pciBar2 => lathBase + 0xA08
  | .pciWake => lathBase + 0xA10
  | .pciSlot i => lathBase + 0xA40 + 8 * i
  | .pciHwin k => lathBase + 0xB40 + 8 * k
  | .mcStart => lathBase + 0xC00
  | .mcMap => lathBase + 0xC08
  | .mcHealth => lathBase + 0xC10
  | .mcSpares => lathBase + 0xC18
  | .mcSnag => lathBase + 0xC20
  | .mcRemap => lathBase + 0xC28
  | .rubCtrl => lathBase + 0xD00
  | .rubBase => lathBase + 0xD08
  | .rubLen => lathBase + 0xD10
  | .rubDest => lathBase + 0xD18
  | .errStatus => lathBase + 0xD40
  | .errMask => lathBase + 0xD48
  | .errLog => lathBase + 0xD50
  | .finish => lathBase + 0xE00
  | .pwrPolicy => lathBase + 0xE08
  | .pwrState => lathBase + 0xE10
  | .therm => lathBase + 0xE18
  | .power => lathBase + 0xE20
  | .energy => lathBase + 0xE28
  | .filler => lathBase + 0xE30
  | .tcyc k => lathBase + 0xE40 + 8 * k
  | .life => lathBase + 0xE80
  | .secState => lathBase + 0xF00
  | .fwCtrl => lathBase + 0xF08
  | .fwStatus => lathBase + 0xF10
  | .dbgCtrl => lathBase + 0xF18
  | .nonce j => lathBase + 0xF20 + 8 * j
  | .module => lathBase + 0xF80
  | .supply => lathBase + 0xF88
  | .mcLc n => lathBase + 0x1000 + 8 * n
  | .mcRetired i => lathBase + 0x1800 + 8 * i
  | .rndCh n => lathBase + 0x2000 + 8 * n
  | .retiredMap i => lathBase + 0x10000 + 8 * i
  | .snagWord i w => lathBase + 0x20000 + 32 * i + 8 * w
  | .errWord i w => lathBase + 0x40000 + 32 * i + 8 * w
  | .lperm => lathBase + 0x4F000
  | .lathCycle i => lathBase + 0x50000 + 0x100 * i
  | .lathCtrl i => lathBase + 0x50008 + 0x100 * i
  | .lathOvf i => lathBase + 0x50010 + 0x100 * i
  | .lathEvsel i j => lathBase + 0x50020 + 0x100 * i + 8 * j
  | .lathCnt i j => lathBase + 0x50060 + 0x100 * i + 8 * j
  | .vcStatus s d => lathBase + 0x1000000 + s * 0x1000 + (if d = .up then 0 else 0x80)
  | .vcGroup s d g => lathBase + 0x1000008 + s * 0x1000 + 8 * g + (if d = .up then 0 else 0x80)
  | .vcCounts s d => lathBase + 0x1000048 + s * 0x1000 + (if d = .up then 0 else 0x80)
  | .sliceStatus s => lathBase + 0x1000100 + s * 0x1000

/-- The register of a core's control-register block at an offset (02 R94-R98, 06 R231 R232, 08 R287 R288, 09 R322,
10 R365, 12 R444, 19 R630). -/
def coreReg (n o : Nat) : Option Reg :=
  if o = 0 then some (.coreStatus n) else if o = 0x8 then some (.excCause n)
  else if o = 0x10 then some (.excPc n) else if o = 0x18 then some (.excAddr n)
  else if o = 0x20 then some (.excInsn n) else if o = 0x28 then some (.faultMask n)
  else if o = 0x30 then some (.coreCtrl n) else if o = 0x1000 then some (.trwRepair n)
  else if o = 0x1008 then some (.trwStatus n) else if o = 0x1010 then some (.brsStatus n)
  else if o = 0x1018 then some (.brsPlen n) else if o = 0x1020 then some (.stcStatus n)
  else if o = 0x1028 then some (.stcWalk n) else if o = 0x1030 then some (.scrStatus n)
  else if o = 0x1100 then some (.pmuCycle n) else if o = 0x1108 then some (.pmuCtrl n)
  else if o = 0x1110 then some (.pmuOvf n) else if o = 0x1118 then some (.pmuPerm n)
  else if 0x1120 ≤ o ∧ o < 0x1160 then some (.pmuEvsel n ((o - 0x1120) / 8))
  else if 0x1160 ≤ o ∧ o < 0x11A0 then some (.pmuCnt n ((o - 0x1160) / 8))
  else if o = 0x11A0 then some (.pmuSctrl n) else if o = 0x11A8 then some (.pmuSpill n)
  else if o = 0x11B0 then some (.pmuSstat n) else if o = 0x11B8 then some (.pmuMark n) else none

/-- The registers of the first 4 KiB of the Lath and MC range. -/
def lathLow (o : Nat) : Option Reg :=
  if o = 0x200 then some .vcPolicy else if o = 0x210 then some .clkWest else if o = 0x218 then some .clkEast
  else if o = 0x300 then some .hodCapacity else if o = 0x308 then some .rcConfig
  else if o = 0x400 then some .kvConfig else if o = 0x408 then some .kvStatus
  else if 0x480 ≤ o ∧ o < 0x500 then some (.kvRegion ((o - 0x480) / 8))
  else if o = 0x600 then some .rlrState
  else if 0x640 ≤ o ∧ o < 0x680 then some (.rlrStack ((o - 0x640) / 8))
  else if 0x680 ≤ o ∧ o < 0x6C0 then some (.rlrRetired ((o - 0x680) / 8))
  else if o = 0x700 then some .scrCfg else if o = 0x708 then some .scrSeam
  else if o = 0x800 then some .klkIdent else if o = 0x808 then some .klkCtrl else if o = 0x810 then some .klkCfg
  else if 0x900 ≤ o ∧ o < 0xA00 then
    some (if (o / 8) % 2 = 0 then .klkStatus ((o - 0x900) / 16) else .klkCounts ((o - 0x900) / 16))
  else if o = 0xA00 then some .pciLink else if o = 0xA08 then some .pciBar2 else if o = 0xA10 then some .pciWake
  else if 0xA40 ≤ o ∧ o < 0xB40 then some (.pciSlot ((o - 0xA40) / 8))
  else if 0xB40 ≤ o ∧ o < 0xB80 then some (.pciHwin ((o - 0xB40) / 8))
  else if o = 0xC00 then some .mcStart else if o = 0xC08 then some .mcMap else if o = 0xC10 then some .mcHealth
  else if o = 0xC18 then some .mcSpares else if o = 0xC20 then some .mcSnag else if o = 0xC28 then some .mcRemap
  else if o = 0xD00 then some .rubCtrl else if o = 0xD08 then some .rubBase else if o = 0xD10 then some .rubLen
  else if o = 0xD18 then some .rubDest else if o = 0xD40 then some .errStatus else if o = 0xD48 then some .errMask
  else if o = 0xD50 then some .errLog else if o = 0xE00 then some .finish else if o = 0xE08 then some .pwrPolicy
  else if o = 0xE10 then some .pwrState else if o = 0xE18 then some .therm else if o = 0xE20 then some .power
  else if o = 0xE28 then some .energy else if o = 0xE30 then some .filler
  else if 0xE40 ≤ o ∧ o < 0xE80 then some (.tcyc ((o - 0xE40) / 8)) else if o = 0xE80 then some .life
  else if o = 0xF00 then some .secState else if o = 0xF08 then some .fwCtrl else if o = 0xF10 then some .fwStatus
  else if o = 0xF18 then some .dbgCtrl else if 0xF20 ≤ o ∧ o < 0xF40 then some (.nonce ((o - 0xF20) / 8))
  else if o = 0xF80 then some .module else if o = 0xF88 then some .supply else none

/-- The counters of Lath block instance i at offset o (19 R623). -/
def lathPmuReg (i o : Nat) : Option Reg :=
  if o = 0 then some (.lathCycle i) else if o = 0x8 then some (.lathCtrl i) else if o = 0x10 then some (.lathOvf i)
  else if 0x20 ≤ o ∧ o < 0x60 then some (.lathEvsel i ((o - 0x20) / 8))
  else if 0x60 ≤ o ∧ o < 0xA0 then some (.lathCnt i ((o - 0x60) / 8)) else none

/-- The registers of the block of physical site s (03 R128-R130, 04 R174). -/
def siteReg (s o : Nat) : Option Reg :=
  if o = 0x100 then some (.sliceStatus s)
  else if o = 0 then some (.vcStatus s .up) else if o = 0x80 then some (.vcStatus s .down)
  else if 0x8 ≤ o ∧ o < 0x48 then some (.vcGroup s .up ((o - 0x8) / 8))
  else if 0x88 ≤ o ∧ o < 0xC8 then some (.vcGroup s .down ((o - 0x88) / 8))
  else if o = 0x48 then some (.vcCounts s .up) else if o = 0xC8 then some (.vcCounts s .down) else none

/-- The register that stands at a local address, a multiple of 8; none where the address is reserved (00 R651). -/
def regAt (a : Nat) : Option Reg :=
  if a % 8 ≠ 0 then none
  else if coreBase ≤ a ∧ a < coreBase + 144 * 0x100000 then
    coreReg ((a - coreBase) / 0x100000) ((a - coreBase) % 0x100000)
  else if lathBase ≤ a then
    let o := a - lathBase
    if o < 0x1000 then lathLow o
    else if o < 0x1480 then some (.mcLc ((o - 0x1000) / 8))
    else if 0x1800 ≤ o ∧ o < 0x1A00 then some (.mcRetired ((o - 0x1800) / 8))
    else if 0x2000 ≤ o ∧ o < 0x2400 then some (.rndCh ((o - 0x2000) / 8))
    else if 0x10000 ≤ o ∧ o < 0x12000 then some (.retiredMap ((o - 0x10000) / 8))
    else if 0x20000 ≤ o ∧ o < 0x40000 then some (.snagWord ((o - 0x20000) / 32) ((o / 8) % 4))
    else if 0x40000 ≤ o ∧ o < 0x48000 then some (.errWord ((o - 0x40000) / 32) ((o / 8) % 4))
    else if o = 0x4F000 then some .lperm
    else if 0x50000 ≤ o ∧ o < 0x50000 + 0x100 * 313 then lathPmuReg ((o - 0x50000) / 0x100) (o % 0x100)
    else if 0x1000000 ≤ o ∧ o < 0x1000000 + 0x1000 * 168 then siteReg ((o - 0x1000000) / 0x1000) (o % 0x1000)
    else none
  else none

/-- A writable field: its lowest bit, its length, its access code, and the encodings its description lists (00 R5). -/
structure WFld where
  lo : Nat
  len : Nat
  acc : Access
  ok : Nat → Bool := fun _ => true

/-- A field's value lies in a range. -/
def between (a b v : Nat) : Bool := decide (a ≤ v) && decide (v ≤ b)

/-- The event codes of a core's counters, 19 R622. -/
def coreEvents : List Nat :=
  [0x01, 0x02, 0x03, 0x04, 0x05, 0x06, 0x07, 0x08, 0x09, 0x10, 0x11, 0x12, 0x18, 0x19, 0x20, 0x21, 0x28, 0x29,
   0x30, 0x31, 0x38, 0x39, 0x40, 0x41]

/-- The number of event codes of Lath block instance i, 19 R623. -/
def lathEvents (i : Nat) : Nat := if i < 168 then 6 else if i < 312 then 5 else 3

/-- A hod or hawk-window address (16 R554, 01 R19 R21): of the hod global view, or of the 2 MiB of a hawk window. -/
def rubPlace (v : Nat) : Bool :=
  between 0x10000000000 0x1007DFFFFFF v
    || (between 0x10100000000 0x10123FFFFFF v && decide (v % 0x400000 < 0x200000))

/-- The writable fields of a register. D of STC_KV_REGIONr takes every value: its description lists none, and a region with a D
that 10 R326 does not give reads VALID 0 (DESIGN CHOICE, log entry 117). -/
def Reg.wflds : Reg → List WFld
  | .faultMask _ => [⟨0, 5, .rw, fun _ => true⟩]
  | .coreCtrl _ => [⟨0, 1, .wo, fun _ => true⟩]
  | .pmuCtrl _ | .lathCtrl _ => [⟨0, 8, .rw, fun _ => true⟩]
  | .pmuOvf _ | .lathOvf _ => [⟨0, 8, .w1c, fun _ => true⟩]
  | .pmuPerm _ | .lperm =>
    [⟨2, 1, .wo, fun _ => true⟩, ⟨1, 1, .w1s, fun _ => true⟩, ⟨0, 1, .rwl, fun _ => true⟩]
  | .pmuEvsel _ _ => [⟨0, 8, .rw, fun v => coreEvents.contains v⟩]
  | .lathEvsel i _ => [⟨0, 8, .rw, between 1 (lathEvents i)⟩]
  | .pmuCnt _ _ | .lathCnt _ _ => [⟨0, 48, .rw, fun _ => true⟩]
  | .pmuSctrl _ => [⟨32, 16, .rw, between 1 65535⟩, ⟨8, 7, .rw, fun _ => true⟩, ⟨0, 1, .rw, fun _ => true⟩]
  | .pmuSpill _ => [⟨32, 16, .rw, fun _ => true⟩, ⟨0, 16, .rw, fun _ => true⟩]
  | .pmuSstat _ => [⟨15, 1, .w1c, fun _ => true⟩]
  | .pmuMark _ => [⟨0, 64, .wo, fun _ => true⟩]
  | .vcPolicy =>
    [⟨63, 1, .w1s, fun _ => true⟩, ⟨32, 8, .rwl, between 1 200⟩, ⟨16, 8, .rwl, between 2 20⟩,
     ⟨0, 16, .rwl, between 10 1000⟩]
  | .rcConfig => [⟨0, 3, .rw, between 0 6⟩]
  | .kvConfig => [⟨20, 24, .rw, fun _ => true⟩, ⟨0, 1, .rw, fun _ => true⟩]
  | .kvRegion _ =>
    [⟨21, 2, .rw, fun _ => true⟩, ⟨17, 4, .rw, fun _ => true⟩, ⟨8, 9, .rw, fun _ => true⟩, ⟨0, 5, .rw, between 14 20⟩]
  | .scrCfg => [⟨16, 16, .rwl, between 1 60000⟩, ⟨0, 1, .w1s, fun _ => true⟩]
  | .klkIdent =>
    [⟨45, 1, .rwl, fun _ => true⟩, ⟨32, 13, .rwl, between 2 4096⟩, ⟨24, 5, .rwl, between 2 16⟩,
     ⟨0, 12, .rwl, fun _ => true⟩]
  | .klkCtrl => [⟨0, 1, .w1s, fun _ => true⟩]
  | .klkCfg => [⟨32, 16, .rwl, fun _ => true⟩, ⟨24, 8, .rwl, between 4 64⟩, ⟨0, 16, .rwl, between 1 60000⟩]
  | .pciBar2 => [⟨30, 9, .rw, fun _ => true⟩]
  | .pciWake => [⟨0, 32, .rw, fun _ => true⟩]
  | .pciSlot _ => [⟨0, 32, .rw, fun v => decide (v ≠ 0)⟩]
  | .pciHwin _ => [⟨28, 36, .rw, fun _ => true⟩, ⟨0, 1, .rw, fun _ => true⟩]
  | .mcRemap => [⟨8, 8, .rw, fun _ => true⟩, ⟨4, 1, .w1s, fun _ => true⟩]
  | .rubCtrl =>
    [⟨16, 3, .rw, fun _ => true⟩, ⟨8, 3, .rw, between 0 4⟩, ⟨1, 1, .wo, fun _ => true⟩, ⟨0, 1, .w1s, fun _ => true⟩]
  | .rubBase => [⟨0, 44, .rw, fun v => decide (v % 64 = 0)⟩]
  | .rubLen => [⟨0, 44, .rw, fun v => decide (v % 64 = 0) && decide (64 ≤ v)⟩]
  | .rubDest => [⟨48, 16, .rw, fun _ => true⟩, ⟨0, 44, .rw, fun v => decide (v % 64 = 0) && rubPlace v⟩]
  | .errStatus => [⟨1, 8, .w1c, fun _ => true⟩]
  | .errMask => [⟨1, 8, .rw, fun _ => true⟩]
  | .finish => [⟨0, 2, .rw, between 0 2⟩]
  | .pwrPolicy =>
    [⟨44, 4, .rw, between 0 10⟩, ⟨32, 8, .rw, between 1 50⟩,
     ⟨16, 16, .rw, fun v => decide (v = 0) || between 300 2600 v⟩,
     ⟨0, 16, .rw, fun v => decide (v = 0) || between 20 2000 v⟩]
  | .fwCtrl => [⟨16, 1, .rw, fun _ => true⟩, ⟨8, 8, .rw, fun _ => true⟩, ⟨0, 4, .wo, between 1 6⟩]
  | .dbgCtrl =>
    [⟨12, 4, .rw, fun v => decide (v ≤ 3) || decide (v = 15)⟩, ⟨4, 3, .rw, fun _ => true⟩, ⟨0, 4, .wo, between 1 4⟩]
  | _ => []

/-- Registers that hold a writable field whose Reset column is FW (00 R9). -/
def Reg.fw : Reg → Bool
  | .vcPolicy | .rcConfig | .scrCfg | .klkIdent | .klkCfg | .pciWake | .errMask | .finish | .pwrPolicy | .pmuPerm _
  | .lperm => true
  | _ => false

/-- The Reset column where it is not 0 (00 R9): EXPECT 1 (14 R507) and PERIOD 1 (19 R630). -/
def Reg.resetWord : Reg → Word
  | .pciSlot _ => 1
  | .pmuSctrl _ => 0x100000000
  | _ => 0

/-- The word a register stores. -/
def State.reg (s : State) (r : Reg) : Word := mapGet s.regs r.addr r.resetWord

/-- The state with a register's word. -/
def State.setReg (s : State) (r : Reg) (w : Word) : State := { s with regs := mapSet s.regs r.addr w }

/-- A field of a register. -/
def State.rf (s : State) (r : Reg) (lo len : Nat) : Nat := fld (s.reg r) lo len

/-- The state with a field of a register. -/
def State.setRf (s : State) (r : Reg) (lo len v : Nat) : State := s.setReg r (setFld (s.reg r) lo len v)

/-- A saturating count in a field of a register, raised by k. -/
def State.incRf (s : State) (r : Reg) (lo len k : Nat) : State := s.setReg r (satFld (s.reg r) lo len k)

/-! ### The new word of a register write (00 R5 R6 R650) -/

/-- The new value of one field: its bits under the write's mask take the written value as the access code says; a
value that is not listed leaves the field (00 R5); an RWL field takes nothing while `locked`. -/
def wfldNew (old data : Word) (mask : Nat) (locked : Bool) (f : WFld) : Nat :=
  let o := fld old f.lo f.len
  let m := (mask / 2 ^ f.lo) % 2 ^ f.len
  let d := fld data f.lo f.len &&& m
  match f.acc with
  | .rw => let v := (o &&& (2 ^ f.len - 1 - m)) ||| d; if f.ok v then v else o
  | .rwl => let v := (o &&& (2 ^ f.len - 1 - m)) ||| d; if locked then o else if f.ok v then v else o
  | .w1c => o &&& (2 ^ f.len - 1 - d)
  | .w1s => o ||| d
  | .wo => o

/-- The word a register holds after a write: every field judged on the word before it (00 R650). -/
def regNew (r : Reg) (old data : Word) (mask : Nat) (locked : Bool) : Word :=
  r.wflds.foldl (fun w f => setFld w f.lo f.len (wfldNew old data mask locked f)) old

end Sys2Proof.Machine
end

