-- ==== Sys2Proof/Machine/Ops.lean ====
section
/-!
DEFINITION. The named operations over cores, tickets, exceptions, addresses and cells.
-/

namespace Sys2Proof.Machine

/-! ### Cores and the logical map -/

/-- The core of a logical number. -/
def State.core (s : State) (lc : Nat) : Core := mapGet s.cores lc Core.zero

/-- The state with the core of a logical number. -/
def State.setCore (s : State) (lc : Nat) (c : Core) : State := { s with cores := mapSet s.cores lc c }

/-- The count of logical cores in force (01 R15, MC_MAP.CORES of 15 R532). -/
def State.inForce (s : State) : Nat := s.rf .mcMap 0 8

/-- A logical number is in force: below the count, and MC_LCn.VALID is 1 (15 R535). -/
def State.valid (s : State) (lc : Nat) : Bool := decide (lc < s.inForce) && decide (s.rf (.mcLc lc) 0 1 = 1)

/-- A logical core has failed in service (15 R535). -/
def State.failed (s : State) (lc : Nat) : Bool := decide (s.rf (.mcLc lc) 16 1 = 1)

/-- The physical site of a logical core, 14 * row + column (15 R535). -/
def State.siteOf (s : State) (lc : Nat) : Nat := s.rf (.mcLc lc) 12 4 * 14 + s.rf (.mcLc lc) 8 4

/-- The logical core that sits at a site, if one does. -/
def State.lcAt (s : State) (site : Nat) : Option Nat :=
  (List.range 144).find? fun n => s.valid n && decide (s.siteOf n = site)

/-- The half of a site: columns 0-6 are the west half (03). -/
def halfOf (site : Nat) : Half := if site % 14 < 7 then .west else .east

/-- A half of the Skim. -/
def State.half (s : State) : Half → HalfS
  | .west => s.west
  | .east => s.east

/-- The state with a half of the Skim. -/
def State.setHalf (s : State) (h : Half) (x : HalfS) : State :=
  match h with
  | .west => { s with west := x }
  | .east => { s with east := x }

/-- What a site holds. -/
def State.site (s : State) (i : Nat) : Site := mapGet s.sites i Site.zero

/-- The state with what a site holds. -/
def State.setSite (s : State) (i : Nat) (x : Site) : State := { s with sites := mapSet s.sites i x }

/-- The state with one more message sent. -/
def State.send (s : State) (o : Out) : State := { s with out := o :: s.out }

/-! ### Scalar and descriptor registers (02 R30) -/

/-- A scalar register: x0 reads zero. -/
def Core.rx (c : Core) (r : BitVec 5) : Word := if r = 0 then 0 else c.x[r.toNat]

/-- A write of a scalar register: a write to x0 is discarded. -/
def Core.wx (c : Core) (r : BitVec 5) (w : Word) : Core :=
  if r = 0 then c else { c with x := c.x.set r.toNat w }

/-- A descriptor register. -/
def Core.rd (c : Core) (n : BitVec 4) : Desc := c.d[n.toNat]

/-- A write of a descriptor register. -/
def Core.wd (c : Core) (n : BitVec 4) (d : Desc) : Core := { c with d := c.d.set n.toNat d }

/-- A ticket: tk0 reads 0 (02 R35). -/
def Core.tick (c : Core) (n : BitVec 6) : Nat := if n = 0 then 0 else (c.tk[n.toNat]).toNat

/-- A ticket set to a value: tk0 ignores it (02 R35). -/
def Core.setTick (c : Core) (n : BitVec 6) (v : Nat) : Core :=
  if n = 0 then c else { c with tk := c.tk.set n.toNat (BitVec.ofNat 16 v) }

/-- A ticket raised by k, held at 65,535 (02 R36). -/
def Core.addTick (c : Core) (n : BitVec 6) (k : Nat) : Core := c.setTick n (min (c.tick n + k) 65535)

/-- Whether raising a ticket by k would take it past 65,535 (02 R36). -/
def Core.overflows (c : Core) (n : BitVec 6) (k : Nat) : Bool := decide (n ≠ 0) && decide (65535 < c.tick n + k)

/-- The queue of a unit (02 R31). -/
def Core.q (c : Core) : UnitId → List UEntry
  | .trowel => c.trwQ
  | .brush => c.brsQ
  | .stencil => c.stcQ
  | .mover => c.movQ
  | .scrim => c.scrQ

/-- The core with a unit's queue. -/
def Core.setQ (c : Core) (u : UnitId) (q : List UEntry) : Core :=
  match u with
  | .trowel => { c with trwQ := q }
  | .brush => { c with brsQ := q }
  | .stencil => { c with stcQ := q }
  | .mover => { c with movQ := q }
  | .scrim => { c with scrQ := q }

/-- The number of a unit, as QBUSY, the summary STATUS and CORE_FAULT_MASK order them (02 R58 R94 R97). -/
def unitNum : UnitId → Nat
  | .trowel => 0
  | .brush => 1
  | .stencil => 2
  | .mover => 3
  | .scrim => 4

/-- Every unit. -/
def allUnits : List UnitId := [.trowel, .brush, .stencil, .mover, .scrim]

/-- Every queue is empty: no instruction waits and none is in progress. -/
def Core.drained (c : Core) : Bool := allUnits.all fun u => (c.q u).isEmpty

/-! ### Exceptions (02 R87-R96) -/

/-- The word of CORE_EXC_CAUSE (02 R95): cause, subcause, unit and the status that raised UNIT_FAULT. -/
def excWord (cause sub unit ustatus : Nat) : Word :=
  BitVec.ofNat 64 (cause % 256 + sub % 256 * 2 ^ 8 + unit % 8 * 2 ^ 16 + ustatus % 256 * 2 ^ 24)

/-- Taking an exception: issue stops, each queued unit instruction that has not started is discarded, the core
drains (R88); only the first exception of a launch is recorded (R89), with the address and the word of the
instruction and the address value (R96). A core that is not in a launch takes none. -/
def Core.takeExc (c : Core) (cause : Word) (addr : Word) (insn : BitVec 32) : Core :=
  match c.st with
  | .running | .sleeping | .draining =>
    let c := if fld c.excCause 0 8 = 0 then
        { c with excCause := cause, excPc := c.pc, excAddr := addr, excInsn := insn } else c
    { c with
      st := .draining, stall := .none, waitf := none, exit := none
      trwQ := c.trwQ.filter (·.started), brsQ := c.brsQ.filter (·.started), stcQ := c.stcQ.filter (·.started)
      movQ := c.movQ.filter (·.started), scrQ := c.scrQ.filter (·.started) }
  | _ => c

/-- The instruction-cache word at an address, if its line is held and its granule is not poisoned (02 R80 R81). -/
def Core.icWord (c : Core) (a : LAddr) : Option (BitVec 32) :=
  match c.ic.find? fun l => l.tag == a.toNat / 256 with
  | some l => if l.poison.getLsbD (a.toNat % 256 / 64) then none else some (l.data.extractLsb' (a.toNat % 256 * 8) 32)
  | none => none

/-- The word at the PC, or a given word where the cache does not hold it. -/
def Core.pcWordOr (c : Core) (w : BitVec 32) : BitVec 32 := (c.icWord c.pc).getD w

/-! ### Counters (19 R620-R623) -/

/-- One counter raised by n: held at 2^48 - 1 with its OVF bit set when it would pass it (R622). -/
def bump (s : State) (cnt ovf : Reg) (i n : Nat) : State :=
  let v := s.rf cnt 0 48 + n
  if v < 2 ^ 48 then s.setRf cnt 0 48 v
  else (s.setRf cnt 0 48 (2 ^ 48 - 1)).setRf ovf i 1 1

/-- The events that the router of a core site still produces once its core has failed (R617): upper-Scrim flits. -/
def routerEvent (code : Nat) : Bool := code == 0x38 || code == 0x39

/-- n events of a code at a core: every enabled counter that selects the code counts them (R621); of a failed core, those of
its router alone (R617). -/
def State.event (s : State) (lc code n : Nat) : State :=
  if s.failed lc && !routerEvent code then s
  else (List.range 8).foldl (fun s i =>
    if s.rf (.pmuCtrl lc) i 1 = 1 ∧ s.rf (.pmuEvsel lc i) 0 8 = code then bump s (.pmuCnt lc i) (.pmuOvf lc) i n
    else s) s

/-- n events of a code at Lath block instance b (R623). -/
def State.lathEvent (s : State) (b code n : Nat) : State :=
  (List.range 8).foldl (fun s i =>
    if s.rf (.lathCtrl b) i 1 = 1 ∧ s.rf (.lathEvsel b i) 0 8 = code then bump s (.lathCnt b i) (.lathOvf b) i n
    else s) s

/-- The core's cycle counter moves on by at least one cycle: how far is a free value (R620). -/
def State.tickCycle (s : State) (lc : Nat) : State :=
  { s.setReg (.pmuCycle lc) (s.reg (.pmuCycle lc) + 1 + BitVec.ofNat 64 (Config.elapsed s.free)) with
    free := s.free + 1 }

/-- Cycles that a core spent stalled are counted under their event (19 R621): how many is a free value. -/
def State.stalled (s : State) (lc code : Nat) : State :=
  let t := s.tickCycle lc
  t.event lc code (t.reg (.pmuCycle lc) - s.reg (.pmuCycle lc)).toNat

/-- Events whose number timing decides, such as refusals and stall cycles, are counted by a free number. -/
def State.freeEvent (s : State) (lc code : Nat) : State :=
  { s with free := s.free + 1 }.event lc code (Config.elapsed s.free)

/-! ### Addresses (01 R19-R27, 04 R149-R151, 11 R369-R371) -/

/-- The number of slices in the list, S of 04 R149. -/
def State.sliceCount (s : State) : Nat := s.slices.length

/-- The rows of each slice that the views use, N of 04 R149. -/
def State.rowsUsed (s : State) : Nat := 49152 - 4096 * s.rcMib

/-- The 7-bit hash of an interleaved address, 11 R369. -/
def ilvHash (a : Nat) : Nat := (a / 2 ^ 15 % 128) ^^^ (a / 2 ^ 22 % 128) ^^^ (a / 2 ^ 29 % 2)

/-- The plumb offset of an interleaved address, 11 R369 R370: stack, channel, bank and byte within the bank. -/
def ilvToPlumb (a : Nat) : Nat :=
  let sel := (a / 2 ^ 8 % 128) ^^^ ilvHash a
  sel / 16 * 2 ^ 36 + sel % 16 * 2 ^ 32 + a / 2 ^ 15 % 64 * 2 ^ 26 + a / 2 ^ 21 * 2 ^ 8 + a % 256

/-- The interleaved address of a plumb offset, 11 R371. -/
def plumbToIlv (p : Nat) : Nat :=
  let y := p % 2 ^ 26
  let b := p / 2 ^ 26 % 64
  let a := y % 256 + y / 256 * 2 ^ 21 + b * 2 ^ 15
  a + (((p / 2 ^ 36 % 8) * 16 + p / 2 ^ 32 % 16) ^^^ ilvHash a) * 2 ^ 8

/-- The channel number 16S + c of a plumb offset. -/
def chanOf (p : Nat) : Nat := p / 2 ^ 32

/-- The cell key of a hawk byte: hawks stand by physical site (04 R140). -/
def hawkKey (site off : Nat) : Nat := 2 ^ 45 + site * 2 ^ 21 + off

/-- The cell key of a hod byte (04 R145). -/
def hodKey (site row byte : Nat) : Nat := 2 ^ 46 + site * 2 ^ 24 + row * 256 + byte

/-- What a local address names. -/
inductive Loc
  | render (plumb : Nat) (ilv : Option Nat)
  | hawk (lc : Nat) (key : Nat)
  | hod (key : Nat)
  | reg (a : Nat)
  | host (a : Nat)
  | dead
  | unmapped
  deriving DecidableEq, Repr

/-- The hod global view, 04 R150. -/
def State.hodView (s : State) (o : Nat) : Loc :=
  let g := o / 256
  if 0 < s.sliceCount ∧ g < s.sliceCount * s.rowsUsed then
    .hod (hodKey (s.slices.getD (g % s.sliceCount) 0) (g / s.sliceCount) (o % 256))
  else .unmapped

/-- The own-slice window, 04 R151: of the core that looks, none for anyone else. -/
def State.ownView (s : State) (own : Option Nat) (o : Nat) : Loc :=
  match own with
  | none => .unmapped
  | some lc =>
    if s.slices.contains (s.siteOf lc) ∧ o < s.rowsUsed * 256 then .hod (hodKey (s.siteOf lc) (o / 256) (o % 256))
    else .unmapped

/-- What a local address names for an agent of core `own`, or for one of no core (01 R19-R23, 14 R491). -/
def State.resolve (s : State) (own : Option Nat) (a : Nat) : Loc :=
  if a < 2 ^ 39 then .render (ilvToPlumb a) (some a)
  else if a < 2 ^ 40 then .render (a - 2 ^ 39) none
  else if a < 0x10080000000 then s.hodView (a - 0x10000000000)
  else if a < 0x10080C00000 then s.ownView own (a - 0x10080000000)
  else if 0x10100000000 ≤ a ∧ a < 0x10124000000 then
    let n := (a - 0x10100000000) / 0x400000
    let o := (a - 0x10100000000) % 0x400000
    if s.inForce ≤ n ∨ 0x200000 ≤ o then .unmapped
    else if s.failed n then .dead else .hawk n (hawkKey (s.siteOf n) o)
  else if coreBase ≤ a ∧ a < coreBase + 144 * 0x100000 then
    let n := (a - coreBase) / 0x100000
    if s.inForce ≤ n then .unmapped else if s.failed n then .dead else .reg a
  else if lathBase ≤ a ∧ a < 0x1FF80000000 then .reg a
  else if 0x1FF80000000 ≤ a ∧ a < 0x20000000000 then
    let k := (a - 0x1FF80000000) / 0x10000000
    if s.rf (.pciHwin k) 0 1 = 1 then .host (s.rf (.pciHwin k) 28 36 * 2 ^ 28 + (a - 0x1FF80000000) % 0x10000000)
    else .unmapped
  else .unmapped

/-! ### Power states and paths of the upper Scrim (03 R112, 12 R412 R413 R416, 17 R566-R568) -/

/-- The half of a site is off (17 R566). -/
def State.halfOff (s : State) (h : Half) : Bool :=
  match h with
  | .west => decide (s.rf .pwrState 8 1 = 1)
  | .east => decide (s.rf .pwrState 9 1 = 1)

/-- The half of a site forwards traffic: its routers' clock runs (12 R408 R412). -/
def State.forwards (s : State) (site : Nat) : Bool :=
  let h := s.half (halfOf site)
  h.routers && !h.stopped

/-- Traffic passes between two sites: routes touch only their halves (12 R406). -/
def State.scrimOpen (s : State) (a b : Nat) : Bool := s.forwards a && s.forwards b

/-- The clock of a core's half runs (03 R112). -/
def State.clocked (s : State) (lc : Nat) : Bool := !(s.half (halfOf (s.siteOf lc))).stopped

/-- The hawk and the control registers of a core take accesses: its half runs and it is not power-gated (12 R413, 17 R568). -/
def State.accepts (s : State) (lc : Nat) : Bool :=
  s.clocked lc && !s.halfOff (halfOf (s.siteOf lc)) && !setHas s.power.pgated lc

/-- The core whose hawk window or control registers a place lies in. -/
def Loc.coreOf : Loc → Option Nat
  | .hawk n _ => some n
  | .reg a => if coreBase ≤ a ∧ a < lathBase then some ((a - coreBase) / 0x100000) else none
  | _ => none

/-! ### Cells and poison (16 R541-R544) -/

/-- The poison mark of a cell key: one of each 8-byte word of a hawk or the hod, one of each 64-byte granule of
render memory. -/
def markOf (key : Nat) : Nat := if key < 2 ^ 45 then key / 64 * 8 else key / 8

/-- A cell key reads as poisoned. -/
def State.poisoned (s : State) (key : Nat) : Bool := setHas s.poison (markOf key)

/-- Some cell of a run is poisoned. -/
def State.runPoisoned (s : State) (key : Nat) : Nat → Bool
  | 0 => false
  | n + 1 => s.poisoned key || s.runPoisoned (key + 1) n

/-- The marks that a write of `len` bytes from `key` clears: the words, or the render granules, it covers whole
(16 R544). -/
def clearedMarks (key len : Nat) : List Nat :=
  if key < 2 ^ 45 then
    let g := (key + 63) / 64
    (List.range ((key + len) / 64 - g)).map fun i => (g + i) * 8
  else
    let w := (key + 7) / 8
    (List.range ((key + len) / 8 - w)).map fun i => w + i

/-- The marks of the 64-byte granule of a key (16 R543). -/
def granMarks (key : Nat) : List Nat :=
  if key < 2 ^ 45 then [key / 64 * 8] else (List.range 8).map fun i => key / 64 * 8 + i

/-- The granule of a key is poisoned (16 R543): its bytes stay. -/
def State.poisonGran (s : State) (key : Nat) : State := { s with poison := (granMarks key).foldl setAdd s.poison }

/-- Whether a WAITF condition holds (02 R71). -/
def waitfCond (cond : BitVec 3) (flag cmp : Word) : Bool :=
  match cond.toNat with
  | 0 => flag == cmp
  | 1 => flag != cmp
  | 2 => decide (cmp.toNat ≤ flag.toNat)
  | 3 => decide (flag.toNat < cmp.toNat)
  | 4 => decide (cmp.toInt ≤ flag.toInt)
  | 5 => decide (flag.toInt < cmp.toInt)
  | 6 => (flag &&& cmp) != 0
  | _ => false

/-- The 64-bit word at a cell key. -/
def State.word (s : State) (key : Nat) : Word := BitVec.ofNat 64 (leNat (memGets s.mem key 8))

/-- The WAITF monitor of a core evaluates its flag after a write that touched it (02 R73): the stored bytes, poisoned or not
(DESIGN CHOICE, log entry 95). -/
def State.evalWaitf (s : State) (lc key len : Nat) : State :=
  let c := s.core lc
  match c.waitf with
  | none => s
  | some w =>
    let k := hawkKey (s.siteOf lc) w.off
    if c.st = .sleeping ∧ key < k + 8 ∧ k < key + len ∧ waitfCond w.cond (s.word k) w.cmp then
      s.setCore lc { c with waitf := some { w with met := true } }
    else s

/-- A write of consecutive cells of one memory: bytes, poison cleared where whole words or granules are written,
monitors evaluated where the cells are hawk cells. A failed render granule that no patch covers stays poisoned (15 R525). -/
def State.writeRun (s : State) (key : Nat) (bs : List Byte) : State :=
  let s := { s with
    mem := memPuts s.mem key bs
    poison := (clearedMarks key bs.length).foldl (fun (p : NSet) (m : Nat) => if setHas s.bad m then p else setDel p m)
      s.poison }
  if 2 ^ 45 ≤ key ∧ key < 2 ^ 46 then
    match s.lcAt ((key - 2 ^ 45) / 2 ^ 21) with
    | some lc => s.evalWaitf lc key bs.length
    | none => s
  else s

/-! ### The render cache (04 R157-R161) -/

/-- The set of a granule in the home slice's share: home list position and set within it. -/
def State.rcSet (s : State) (g : Nat) : Nat :=
  g % s.sliceCount * 2048 + g / s.sliceCount % (256 * s.rcMib)

/-- The Roller whose bank set holds a plumb offset (11 R367 R370). -/
def rollerAt (p : Nat) : Nat := 64 * (p / 2 ^ 36) + 4 * (p / 2 ^ 32 % 16) + p / 2 ^ 30 % 4

/-- A pass of a Roller holds the bank of a plumb offset (11 R389). -/
def State.bankHeld (s : State) (p : Nat) : Bool :=
  let r := mapGet s.rollers (rollerAt p) Roller.zero
  r.pass && (match r.walk with
    | some w => w.banks / 2 ^ (p / 2 ^ 26 % 16) % 2 == 1
    | none => false)

/-- The render cache holds the line of an interleaved address (04 R157). -/
def State.cached (s : State) (a : Nat) : Bool :=
  s.rcMib != 0 && (mapGet s.rc (s.rcSet (a / 256)) []).any fun ln => ln.tag == a / 256

/-- A place in render memory, reached past the cache, whose controller is in reset (03 R137, 04 R161). -/
def State.chanReset (s : State) (l : Loc) : Bool :=
  let down (p : Nat) : Bool := decide (s.rf (.rndCh (chanOf p)) 0 1 = 1)
  match l with
  | .render p (some a) => down p && !s.cached a
  | .render p none => down p
  | _ => false

/-- A request for a place would wait for a Roller's pass (11 R389): render cells in a held bank that no line of the render
cache stands for. -/
def State.locHeld (s : State) (l : Loc) : Bool :=
  match l with
  | .render p none => s.bankHeld p
  | .render p (some a) => s.bankHeld p && !s.cached a
  | _ => false

/-- An access of a core reaches a place now: its own half runs; no pass of a Roller holds the place's bank (11 R389);
another core's hawk or control registers lie across the upper Scrim, whose routers must forward, and must take accesses (12
R412 R413 R416). -/
def State.reaches (s : State) (lc : Nat) (l : Loc) : Bool :=
  s.clocked lc && !s.locHeld l && (match l.coreOf with
    | some n => n == lc || (s.scrimOpen (s.siteOf lc) (s.siteOf n) && s.accepts n)
    | none => true)

/-- A line as the render cells hold it. -/
def State.rcFetch (s : State) (g : Nat) : RcLine :=
  let p := ilvToPlumb (g * 256)
  { tag := g, data := memGets s.mem p 256, dirty := false
    poison := BitVec.ofNat 4 ((List.range 4).foldl (fun m i => m + b2n (s.poisoned (p + 64 * i)) * 2 ^ i) 0) }

/-- An access opens the DRAM row of its bank (11 R368). -/
def State.openRow (s : State) (p : Nat) : State := { s with rows := mapSet s.rows (p / 2 ^ 26) (p % 2 ^ 26 / 1024) }

/-- An access to a slice in retention (MC_PWR_STATE bit 10), or to a stack in self-refresh (bit 11, numbers 168 and on),
waits until that part alone has left its state, and is then performed (17 R568; the wait is time, log entry 58). -/
def State.rouse (s : State) (bit part : Nat) : State :=
  if s.rf .pwrState bit 1 = 1 then { s with power := { s.power with awake := setAdd s.power.awake part } } else s

/-- A request is served at a bank of a Roller's gap: after 64 the Roller's next pass begins, unless a refresh is due or BRAKE_N
is asserted (11 R390, 17 R586; one access counts as one request, log entry 104). -/
def State.gapServe (s : State) (p : Nat) : State :=
  let r := mapGet s.rollers (rollerAt p) Roller.zero
  match r.walk with
  | none => s
  | some w => match w.gap with
    | none => s
    | some k =>
      if r.pass || w.banks / 2 ^ (p / 2 ^ 26 % 16) % 2 == 0 then s
      else if k < 63 then
        { s with rollers := mapSet s.rollers (rollerAt p) { r with walk := some { w with gap := some (k + 1) } } }
      else
        { s with rollers := mapSet s.rollers (rollerAt p) { r with
            pass := !(s.pins.brake || setHas s.refreshDue (rollerAt p / 4)), walk := some { w with gap := none } } }

/-- An access of a render controller: granules read (code 1) or written (code 2), a row miss (3), and its row open (19
R623); a Roller's gap counts it (11 R390). -/
def State.rndAccess (s : State) (p len code : Nat) : State :=
  let s := s.rouse 11 (168 + p / 2 ^ 36)
  let s := s.lathEvent (168 + chanOf p) code ((p % 64 + len + 63) / 64)
  let s := if mapGet? s.rows (p / 2 ^ 26) = some (p % 2 ^ 26 / 1024) then s else s.lathEvent (168 + chanOf p) 3 1
  (s.openRow p).gapServe p

/-- An access of a hod slice: a row read (code 1) or written (code 2); a slice in retention leaves it (04 R146). -/
def State.hodAccess (s : State) (k code : Nat) : State :=
  (s.rouse 10 ((k - 2 ^ 46) / 2 ^ 24)).lathEvent ((k - 2 ^ 46) / 2 ^ 24) code 1

/-- A dirty line written to its render cells, its poisoned granules poisoned (04 R160): a write-back of its slice (19 R623). -/
def State.rcBack (s : State) (l : RcLine) : State :=
  let p := ilvToPlumb (l.tag * 256)
  let s := s.lathEvent (s.slices.getD (l.tag % s.sliceCount) 0) 5 1
  let s := (s.rndAccess p 256 2).writeRun p l.data
  (List.range 4).foldl (fun s i => if l.poison.getLsbD i then s.poisonGran (p + 64 * i) else s) s

/-- The write-back of a line waits: its controller is in reset (04 R161), or a pass of a Roller holds its bank (11 R389). -/
def State.backWaits (s : State) (l : RcLine) : Bool :=
  let p := ilvToPlumb (l.tag * 256)
  decide (s.rf (.rndCh (chanOf p)) 0 1 = 1) || s.bankHeld p

/-- A line that leaves the cache: a dirty one is written back, or waits to be. -/
def State.rcEvict (s : State) (l : RcLine) : State :=
  if !l.dirty then s else if s.backWaits l then { s with rcWait := s.rcWait ++ [l] } else s.rcBack l

/-- The write-backs that waited, and need not wait any more, proceed. -/
def State.rcDrain (s : State) : State :=
  s.rcWait.foldl (fun (s : State) (l : RcLine) => if s.backWaits l then { s with rcWait := s.rcWait ++ [l] } else s.rcBack l)
    { s with rcWait := [] }

/-- The line of a granule, held at the head of its set: looked up or brought in, the least recently used of sixteen
leaving (04 R158). -/
def State.rcLine (s : State) (g : Nat) : State × RcLine :=
  let i := s.rcSet g
  let ls := mapGet s.rc i []
  match ls.find? (·.tag == g) with
  | some l =>
    ({ s with rc := mapSet s.rc i (l :: ls.filter (·.tag != g)) }.lathEvent (s.slices.getD (g % s.sliceCount) 0) 3 1, l)
  | none =>
    let l := s.rcFetch g
    let s := (s.rndAccess (ilvToPlumb (g * 256)) 256 1).lathEvent (s.slices.getD (g % s.sliceCount) 0) 4 1
    let s := if 16 ≤ ls.length then
        match ls.getLast? with
        | some v => s.rcEvict v
        | none => s
      else s
    ({ s with rc := mapSet s.rc i (l :: ls.take 15) }, l)

/-- The line at the head of a set, changed. -/
def State.rcPut (s : State) (l : RcLine) : State :=
  let i := s.rcSet l.tag
  { s with rc := mapSet s.rc i (l :: (mapGet s.rc i []).filter (·.tag != l.tag)) }

/-- Bytes of a list replaced from a position. -/
def splice (l : List Byte) (o : Nat) (bs : List Byte) : List Byte := l.take o ++ bs ++ l.drop (o + bs.length)

/-- Poison marks of a line after a write of `len` bytes from byte `o`: a granule written whole loses its mark. -/
def linePoison (p : BitVec 4) (o len : Nat) : BitVec 4 :=
  BitVec.ofNat 4 ((List.range 4).foldl (fun m i =>
    m + b2n (p.getLsbD i && !(decide (o ≤ 64 * i) && decide (64 * i + 64 ≤ o + len))) * 2 ^ i) 0)

/-! ### The word at an address, and exceptions of a core (02 R96) -/

/-- The instruction word that memory holds at a local address, with no access made: of render memory, a hawk or the hod;
none at an address that names no memory. -/
def State.peekWord (s : State) (lc : Nat) (a : LAddr) : Option (BitVec 32) :=
  let at4 (l : List Byte) : Option (BitVec 32) := some (BitVec.ofNat 32 (leNat l))
  match s.resolve (some lc) a.toNat with
  | .render p (some i) =>
    match (mapGet s.rc (s.rcSet (i / 256)) []).find? fun l => s.rcMib != 0 && l.tag == i / 256 with
    | some l => at4 ((l.data.drop (i % 256)).take 4)
    | none => at4 (memGets s.mem p 4)
  | .render p none => at4 (memGets s.mem p 4)
  | .hawk _ k | .hod k => at4 (memGets s.mem k 4)
  | _ => none

/-- The instruction word at a core's PC: in its instruction cache, else in memory. -/
def State.pcWord (s : State) (lc : Nat) : Option (BitVec 32) :=
  match (s.core lc).icWord (s.core lc).pc with
  | some w => some w
  | none => s.peekWord lc (s.core lc).pc

/-- A core takes an exception with the word at its PC as CORE_EXC_INSN (02 R96): where no memory stands at the PC, what the
register records is a free value (log entry 6). -/
def State.takeAt (s : State) (lc : Nat) (cause : Word) (addr : Word) : State :=
  let c := s.core lc
  let w := s.pcWord lc
  let s := { s with power := { s.power with pgated := setDel s.power.pgated lc } }
  match w with
  | some w => s.setCore lc (c.takeExc cause addr w)
  | none =>
    { s.setCore lc (c.takeExc cause addr ((Config.freeWord s.free).setWidth 32)) with free := s.free + 1 }

/-- An exception of a core with its cause, subcause and address value: 0 for one that no address raised, the PC for
FETCH_FAULT (log entry 94). -/
def State.raise (s : State) (lc cause sub : Nat) (addr : Word) : State := s.takeAt lc (excWord cause sub 0 0) addr

/-- UNIT_FAULT (02 R92): the unit and its status; an asynchronous exception names no address (log entry 94). -/
def State.raiseUnit (s : State) (lc : Nat) (u : UnitId) (status : BitVec 8) : State :=
  s.takeAt lc (excWord 0x10 0 (unitNum u) status.toNat) 0

/-! ### Reads and writes within one 256-byte block -/

/-- A read that lies within one aligned 256-byte block of mapped memory: bytes, and whether poison was read. -/
def State.readBlock (s : State) (l : Loc) (len : Nat) : State × List Byte × Bool :=
  match l with
  | .render p ilv =>
    match ilv with
    | some a =>
      if s.rcMib = 0 then (s.rndAccess p len 1, memGets s.mem p len, s.runPoisoned p len)
      else
        let (s, ln) := s.rcLine (a / 256)
        let o := a % 256
        (s, (ln.data.drop o).take len,
          (List.range 4).any fun i => ln.poison.getLsbD i && decide (o < 64 * i + 64) && decide (64 * i < o + len))
    | none => (s.rndAccess p len 1, memGets s.mem p len, s.runPoisoned p len)
  | .hawk _ k => (s, memGets s.mem k len, s.runPoisoned k len)
  | .hod k => (s.hodAccess k 1, memGets s.mem k len, s.runPoisoned k len)
  | _ => (s, List.replicate len 0, false)

/-- The granules of a line of the interleaved view that failed and that no patch covers: they stay poisoned, whatever is
written (15 R525). -/
def State.badLine (s : State) (g : Nat) : BitVec 4 :=
  let p := ilvToPlumb (g * 256)
  BitVec.ofNat 4 ((List.range 4).foldl (fun m i => m + b2n (setHas s.bad (markOf (p + 64 * i))) * 2 ^ i) 0)

/-- A write that lies within one aligned 256-byte block of mapped memory. -/
def State.writeBlock (s : State) (l : Loc) (bs : List Byte) : State :=
  match l with
  | .render p ilv =>
    match ilv with
    | some a =>
      if s.rcMib = 0 then (s.rndAccess p bs.length 2).writeRun p bs
      else
        let (s, ln) := s.rcLine (a / 256)
        s.rcPut { ln with
          data := splice ln.data (a % 256) bs, dirty := true
          poison := linePoison ln.poison (a % 256) bs.length ||| s.badLine (a / 256) }
    | none => (s.rndAccess p bs.length 2).writeRun p bs
  | .hawk _ k => s.writeRun k bs
  | .hod k => (s.hodAccess k 2).writeRun k bs
  | _ => s

/-- The 64-byte granule at a place is poisoned (16 R543). -/
def State.poisonLoc (s : State) (l : Loc) : State :=
  match l with
  | .render p ilv =>
    match ilv with
    | some a =>
      if s.rcMib = 0 then s.poisonGran p
      else
        let (s, ln) := s.rcLine (a / 256)
        s.rcPut { ln with dirty := true, poison := ln.poison ||| BitVec.ofNat 4 (2 ^ (a % 256 / 64)) }
    | none => s.poisonGran p
  | .hawk _ k => s.poisonGran k
  | .hod k => s.poisonGran k
  | _ => s

/-- The parts of a run that lie within aligned blocks of `blk` bytes: first address and length of each. -/
def blocks (blk : Nat) : Nat → Nat → Nat → List (Nat × Nat)
  | 0, _, _ => []
  | fuel + 1, a, len =>
    if len = 0 then []
    else
      let n := min len (blk - a % blk)
      (a, n) :: blocks blk fuel (a + n) (len - n)

/-- A read of mapped memory at local addresses. -/
def State.readMem (s : State) (own : Option Nat) (a len : Nat) : State × List Byte × Bool :=
  (blocks 256 (len + 1) a len).foldl (fun r b =>
    let (s, bs, p) := r.1.readBlock (r.1.resolve own b.1) b.2
    (s, r.2.1 ++ bs, r.2.2 || p)) (s, [], false)

/-- A write of mapped memory at local addresses. -/
def State.writeMem (s : State) (own : Option Nat) (a : Nat) (bs : List Byte) : State :=
  (blocks 256 (bs.length + 1) a bs.length).foldl (fun s b =>
    s.writeBlock (s.resolve own b.1) ((bs.drop (b.1 - a)).take b.2)) s

/-- The granules of a run of local addresses are poisoned. -/
def State.poisonMem (s : State) (own : Option Nat) (a len : Nat) : State :=
  (blocks 64 (len + 1) a len).foldl (fun s b => s.poisonLoc (s.resolve own b.1)) s

/-- A hawk word of a core. -/
def State.hawkWord (s : State) (lc off : Nat) : Word := s.word (hawkKey (s.siteOf lc) off)

/-- Bytes of a core's own hawk, and whether poison was read. -/
def State.hawkRead (s : State) (lc off len : Nat) : List Byte × Bool :=
  (memGets s.mem (hawkKey (s.siteOf lc) off) len, s.runPoisoned (hawkKey (s.siteOf lc) off) len)

/-- A write of a core's own hawk. -/
def State.hawkWrite (s : State) (lc off : Nat) (bs : List Byte) : State :=
  s.writeRun (hawkKey (s.siteOf lc) off) bs

/-- The granules of a run of a core's own hawk are poisoned. -/
def State.hawkPoison (s : State) (lc off len : Nat) : State :=
  (blocks 64 (len + 1) off len).foldl (fun s b => s.poisonGran (hawkKey (s.siteOf lc) b.1)) s

end Sys2Proof.Machine
end

