-- ==== Sys2Proof/Machine/Links.lean ====
section
/-!
DEFINITION. The ports of Kerit (13 R449 R451-R453 R469): frames, credits, the replay buffer, channel MGT; and the packets
that nothing awaits any more (13 R465).
-/

namespace Sys2Proof.Machine

/-- Own device number. -/
def State.devnum (s : State) : Nat := s.rf .klkIdent 0 12

/-! ### Frames (13 R449) -/

/-- One byte of CRC-64/ECMA-182. -/
def crc64Byte (c : BitVec 64) (b : Byte) : BitVec 64 :=
  (List.range 8).foldl (fun c _ => if c.getLsbD 63 then (c <<< 1) ^^^ 0x42F0E1EBA9EA3693#64 else c <<< 1)
    (c ^^^ (b.setWidth 64 <<< 56))

/-- CRC-64/ECMA-182. -/
def crc64 (bs : List Byte) : BitVec 64 := bs.foldl crc64Byte 0

/-- The link header of a frame (R449). -/
def Frame.header (f : Frame) : Word :=
  BitVec.ofNat 64 (f.pseq.toNat * 2 ^ 48 + f.ack.toNat * 2 ^ 32 + f.credReq.toNat * 2 ^ 24 + f.credRsp.toNat * 2 ^ 16
    + f.credMgt.toNat * 2 ^ 8 + f.typ.toNat * 2 ^ 4 + f.vc.toNat * 2 ^ 2 + b2n f.sop * 2 + b2n f.eop)

/-- The CRC that a frame should carry. -/
def Frame.crcOf (f : Frame) : BitVec 64 := crc64 (leBytes 8 (Frame.header f).toNat ++ f.flit)

/-- A frame whose CRC is good; a marked codeword fails it (R448). -/
def Frame.good (f : Frame) : Bool := !f.marked && f.crc == Frame.crcOf f

/-- Bytes in flits of 256, the last padded with zeros. -/
def flits : Nat → List Byte → List (List Byte)
  | 0, _ => []
  | n + 1, bs =>
    if bs.isEmpty then []
    else (bs.take 256 ++ List.replicate (256 - (bs.take 256).length) 0) :: flits n (bs.drop 256)

/-! ### Ports (13 R451-R453) -/

/-- A port. -/
def State.port (s : State) (p : Nat) : Port := mapGet s.ports p Port.zero

/-- The state with a port. -/
def State.setPort (s : State) (p : Nat) (x : Port) : State := { s with ports := mapSet s.ports p x }

/-- KLK_PORTp_STATUS.STATE (R483). -/
def State.portState (s : State) (p : Nat) : Nat := s.rf (.klkStatus p) 0 4

/-- Credits held for a virtual channel. -/
def Port.credit (x : Port) (vc : Nat) : Nat := if vc = 0 then x.credReq else if vc = 1 then x.credRsp else x.credMgt

/-- A port stops carrying traffic: what waits on it and what it was assembling goes. -/
def Port.clear (x : Port) : Port := { x with sendQ := [], replay := [], replays := 0, asm := [], nakSent := false }

/-- One credit spent. -/
def Port.spend (x : Port) (vc : Nat) : Port :=
  if vc = 0 then { x with credReq := x.credReq - 1 }
  else if vc = 1 then { x with credRsp := x.credRsp - 1 } else { x with credMgt := x.credMgt - 1 }

/-- A frame as the link layer sends it: the next PSEQ, the ACK, the credits freed since the last report, the CRC. -/
def Port.stamp (x : Port) (f : Frame) : Port × Frame :=
  let g := { f with
    pseq := x.nextSeq, ack := x.expect - 1, credReq := BitVec.ofNat 8 (min x.freeReq 255)
    credRsp := BitVec.ofNat 8 (min x.freeRsp 255), credMgt := BitVec.ofNat 8 (min x.freeMgt 255) }
  ({ x with freeReq := x.freeReq - 255, freeRsp := x.freeRsp - 255, freeMgt := x.freeMgt - 255 }, { g with crc := Frame.crcOf g })

/-- Frames that may go are sent, each channel in order; a channel without credits blocks only itself, a full replay
buffer blocks every one (R452 R453). -/
def Port.pump : List Frame → Port → Port × List Frame
  | [], x => (x, [])
  | f :: fs, x =>
    if x.credit f.vc.toNat = 0 ∨ 2048 ≤ x.replay.length then
      let r := Port.pump fs x
      ({ r.1 with sendQ := f :: r.1.sendQ }, r.2)
    else
      let (x, g) := x.stamp f
      let r := Port.pump fs { x.spend f.vc.toNat with nextSeq := x.nextSeq + 1, replay := x.replay ++ [g] }
      (r.1, g :: r.2)

/-- A frame without payload: IDLE (0) or NAK (2). It takes no PSEQ of its own, as the replay buffer does not hold it: it
carries that of the next DATA frame (DEDUCED from R452, log entry 105). -/
def bareFrame (typ : BitVec 4) (n : Nat) : Frame where
  pseq := 0
  ack := 0
  credReq := 0
  credRsp := 0
  credMgt := 0
  typ := typ
  vc := 0
  sop := false
  eop := false
  flit := (List.range 256).map (Config.idleByte n)
  crc := 0
  marked := false

/-- A port sends an IDLE frame, which reports ACK and the freed credits (R449 R451 R453), and is counted (19 R623). -/
def State.idleOut (s : State) (p : Nat) : State :=
  let (x, g) := (s.port p).stamp (bareFrame 0 s.free)
  { ((s.setPort p x).send (.frames p [g])).lathEvent (296 + p) 5 1 with free := s.free + 1 }

/-- A port that is UP sends what may go, once KLK_CTRL.LOCK is 1 (R481); with a full replay buffer, or a report to make and
no DATA frame to carry it, it sends an IDLE frame (R452 R453). -/
def State.pumpPort (s : State) (p : Nat) (report : Bool := false) : State :=
  if s.portState p ≠ 2 ∨ s.rf .klkCtrl 16 1 = 0 then s
  else
    let x := s.port p
    let (y, sent) := Port.pump x.sendQ { x with sendQ := [] }
    let s := s.setPort p y
    if !sent.isEmpty then (s.send (.frames p sent)).lathEvent (296 + p) 1 sent.length
    else if report || (!y.sendQ.isEmpty && decide (2048 ≤ y.replay.length)) then s.idleOut p
    else s

/-! ### Panels (13 R466) -/

/-- The port of group g toward a member, in a panel (R466). -/
def panelPort (size pos j g : Nat) : Nat := g * (size - 1) + ((j + size - pos) % size - 1)

/-- The number of groups of ports toward each member (R466). -/
def panelGroups (size : Nat) : Nat := 15 / (size - 1)

/-! ### Packets (13 R450) -/

/-- The bytes of a packet: the 32-byte header, then the data (R450). -/
def Packet.bytes (p : Packet) : List Byte :=
  leBytes 2 p.srcDev.toNat ++ leBytes 2 p.dstDev.toNat ++ [p.op] ++ leBytes 1 p.stripe.toNat ++ leBytes 2 p.epoch.toNat
    ++ leBytes 4 p.fseq.toNat ++ leBytes 4 p.len ++ leBytes 8 p.addr.toNat ++ leBytes 8 p.aux.toNat ++ p.data

/-- The device performs a packet of this form (R450): a listed OP, at most 8,192 data bytes, all of them there, and a
range that crosses no 8 KiB boundary. -/
def Packet.okForm (p : Packet) : Bool :=
  let op := p.op.toNat
  let a := fld p.addr 0 44
  decide (op ≤ 4) && decide (p.len ≤ 8192)
    && (if op = 0 ∨ op = 3 then decide (p.data.length = p.len) else true)
    && (if op = 0 ∨ op = 2 then decide (1 ≤ p.len) && decide (a % 8192 + p.len ≤ 8192) else true)
    && (if op = 1 then decide (a % 8 = 0) else true)

/-- The packet that bytes spell. -/
def packetOf (b : List Byte) : Packet :=
  let n (o l : Nat) : Nat := leNat ((b.drop o).take l)
  { srcDev := BitVec.ofNat 12 (n 0 2), dstDev := BitVec.ofNat 12 (n 2 2), op := BitVec.ofNat 8 (n 4 1)
    stripe := BitVec.ofNat 4 (n 5 1), epoch := BitVec.ofNat 16 (n 6 2), fseq := BitVec.ofNat 32 (n 8 4), len := n 12 4
    addr := BitVec.ofNat 64 (n 16 8), aux := BitVec.ofNat 64 (n 24 8)
    data := if n 4 1 = 2 ∨ n 4 1 = 4 ∨ n 4 1 = 1 then [] else (b.drop 32).take (n 12 4) }

/-- The DATA frames of a packet on a virtual channel, before the link layer numbers them. -/
def packetFrames (p : Packet) (vc : Nat) : List Frame :=
  let fs := flits 34 p.bytes
  (List.range fs.length).map fun i =>
    { pseq := 0, ack := 0, credReq := 0, credRsp := 0, credMgt := 0, typ := 1, vc := BitVec.ofNat 2 vc
      sop := decide (i = 0), eop := decide (i + 1 = fs.length), flit := fs.getD i [], crc := 0, marked := false }

/-! ### Flows (13 R460 R464 R466 R467 R470) -/

/-- The key of a transmit flow. -/
def flowKey (dst vc stripe : Nat) : Nat := (dst * 3 + vc) * 16 + stripe

/-- The key under which an instruction awaits a packet's acknowledgement. -/
def awaitKey (key fseq : Nat) : Nat := 2 ^ 48 + key * 2 ^ 32 + fseq

/-- The home port of a flow (R466 R467 R470). -/
def State.homePort (s : State) (dst stripe : Nat) : Nat :=
  if s.rf .klkIdent 45 1 = 1 then stripe
  else if dst / 16 ≠ s.devnum / 16 then 15
  else
    let size := s.rf .klkIdent 24 5
    panelPort size (s.devnum % 16) (dst % 16) (stripe % panelGroups size)

/-- A transmit flow. -/
def State.flow (s : State) (dst vc stripe : Nat) : TxFlow :=
  mapGet s.tx (flowKey dst vc stripe)
    ⟨BitVec.ofNat 12 dst, vc, stripe, s.homePort dst stripe, none, 0, [], [], []⟩

/-- Bytes of unacknowledged packets in the flow store. -/
def State.storeUsed (s : State) : Nat :=
  s.tx.foldl (fun n e => e.2.unacked.foldl (fun n u => n + 32 + u.pkt.data.length) n) 0

/-- A packet's frames are queued on a port, and the port sends what may go. -/
def State.transmit (s : State) (port vc : Nat) (p : Packet) : State :=
  let x := s.port port
  (s.setPort port { x with sendQ := x.sendQ ++ packetFrames p vc }).pumpPort port

/-- A packet enters its flow: numbered, held in the flow store or waiting for room in it, sent on the flow's current
port. Its key is answered. -/
def State.sendPacket (s : State) (dst vc : Nat) (op : BitVec 8) (stripe len : Nat) (addr aux : Word)
    (data : List Byte) (lc : Nat) (unit : Option UnitId) (back : Nat) : State × Nat :=
  let f := s.flow dst vc stripe
  let key := flowKey dst vc stripe
  let p : Packet :=
    { srcDev := BitVec.ofNat 12 s.devnum, dstDev := BitVec.ofNat 12 dst, op := op, stripe := BitVec.ofNat 4 stripe
      epoch := BitVec.ofNat 16 (s.rf .klkIdent 48 16), fseq := BitVec.ofNat 32 f.next, len := len, addr := addr, aux := aux
      data := data }
  let u : Unacked := ⟨p, lc, unit, back⟩
  let n := awaitKey key f.next
  let s := match unit with
    | some _ => s.event lc 0x29 1
    | none => s
  if f.held.isEmpty ∧ s.storeUsed + 32 + data.length ≤ 8388608 then
    (({ s with tx := mapSet s.tx key { f with next := f.next + 1, unacked := f.unacked ++ [u] } }).transmit f.port vc p, n)
  else ({ s with tx := mapSet s.tx key { f with next := f.next + 1, held := f.held ++ [u] } }, n)

/-- Packets that waited for the flow store enter it while there is room (R464), flow by flow. -/
def State.fillStore (s : State) : State :=
  s.tx.foldl (fun s e =>
    let f := mapGet s.tx e.1 e.2
    f.held.foldl (fun s u =>
      let f := mapGet s.tx e.1 f
      if f.held.head? = some u ∧ s.storeUsed + 32 + u.pkt.data.length ≤ 8388608 then
        ({ s with tx := mapSet s.tx e.1 { f with held := f.held.tail, unacked := f.unacked ++ [u] } }).transmit
          f.port f.vc u.pkt
      else s) s) s

/-! ### Channel MGT (13 R460 R469, 18 R602) -/

/-- The parts of a message that the packets of channel MGT carry, at most 8,192 data bytes each (R450). -/
def mgtParts : Nat → List Byte → List (List Byte)
  | 0, _ => []
  | n + 1, bs => if bs.isEmpty then [] else bs.take 8192 :: mgtParts n (bs.drop 8192)

/-- A message for a panel member's MC: packets of its flow on channel MGT, whose stripe 0 gives the g = 0 port (R466 R469). OP
and ADDR of such a packet the spec does not give: OP 0, whose data it carries, and a free ADDR of stripe 0 (DESIGN CHOICE,
log entry 106). -/
def State.sendMgt (s : State) (member : Nat) (bs : List Byte) : State :=
  let dst := s.devnum / 16 * 16 + member
  (mgtParts (bs.length / 8192 + 1) bs).foldl (fun (s : State) (part : List Byte) =>
    (s.sendPacket dst 2 0 0 part.length (BitVec.ofNat 64 (Config.mgtAddr % 2 ^ 27 * 2 ^ 17)) 0 part 0 none 0).1) s

/-- What a member's MC is sent for a firmware command (R469): 256 bytes that name the command and its chunk, whose layout the
spec does not give (log entry 106), then the bytes of the image. -/
def mgtMessage (cmd chunk : Nat) (image : List Byte) : List Byte := (List.range 256).map (Config.mgtByte cmd chunk) ++ image

/-- A member reports to the lead (R469 R602): the result, and a message of a layout that the spec does not give. -/
def State.reportMgt (s : State) (ok : Bool) : State :=
  (s.send (.report (s.devnum % 16) ok)).sendMgt 0 ((List.range 256).map (Config.mgtReport ok))

/-! ### Packets that nothing awaits (13 R465) -/

/-- An unacknowledged write or flag packet of a core that no instruction awaits any more, since its instruction completed
with DEV_UNREACHABLE: a release that may cover it holds its releasing write until the acknowledgement (13 R465). -/
def State.orphaned (s : State) (lc : Nat) : Bool :=
  s.tx.any fun t => (t.2.unacked ++ t.2.held).any fun x =>
    x.lc == lc && x.unit.isSome && x.pkt.op != 2
      && !(allUnits.any fun u => ((s.core lc).q u).any fun e => e.await.contains (awaitKey t.1 x.pkt.fseq.toNat))

end Sys2Proof.Machine
end

