-- ==== Sys2Proof/Machine/Images.lean ====
section
/-!
DEFINITION. Firmware images (18 R596-R598): their layout, the checks of R597, and when a bank is valid.
-/

namespace Sys2Proof.Machine

/-- Bytes of an image. -/
def imgPart (l : List Byte) (off n : Nat) : List Byte := (l.drop off).take n

/-- BODYLEN. -/
def bodyLen (l : List Byte) : Nat := leNat (imgPart l 12 4)

/-- SVN. -/
def imgSvn (l : List Byte) : Nat := leNat (imgPart l 4 4)

/-- The digest M: SHA-384 of bytes 0 to 2,047 + BODYLEN. -/
def imgM (l : List Byte) : List Byte := Config.sha384 (l.take (2048 + bodyLen l))

/-- An Ed25519 signature verifies: the holder's own one does. -/
def edOk (key msg sig : List Byte) : Bool := sig == edSig key msg || Config.edVerify key msg sig

/-- An ML-DSA-65 signature verifies: the holder's own one does. -/
def mlOk (key msg sig : List Byte) : Bool := sig == mlSig key msg || Config.mlVerify key msg sig

/-- The checks of R597 in its order, with the layout of R596: 1 (OK), or the result code of R616. -/
def imageCheck (o : Otp) (l : List Byte) : Nat :=
  let n := bodyLen l
  let edKey := imgPart l 16 32
  let mlKey := imgPart l 48 1952
  if ¬ (imgPart l 0 4 = [0x57, 0x59, 0x52, 0x4B] ∧ imgPart l 2000 48 = List.replicate 48 0 ∧ n % 4 = 0
      ∧ 5421 + n ≤ 2 ^ 24 ∧ 5421 + n ≤ l.length) then 3
  else if ¬ (Config.sha384 edKey = o.vendorEd ∧ Config.sha384 mlKey = o.vendorMl) then 4
  else if !(edOk edKey (imgM l) (imgPart l (2048 + n) 64) && mlOk mlKey (imgM l) (imgPart l (2112 + n) 3309)) then 5
  else if imgSvn l < o.rollback ∨ 64 < imgSvn l then 6
  else 1

/-- A bank is valid: its mark is set, and its image passes R597 against the fuses as they are (R601). -/
def FwBank.ok (b : FwBank) (o : Otp) : Bool := b.valid && decide (imageCheck o b.image = 1)

/-- A bank that may run (R598). -/
def State.bankRuns (s : State) (b : FwBank) : Bool := b.ok s.otp

/-- Bank B or bank A. -/
def Sec.bank (x : Sec) (b : Bool) : FwBank := if b then x.bankB else x.bankA

/-- A bank replaced. -/
def Sec.setBank (x : Sec) (b : Bool) (k : FwBank) : Sec := if b then { x with bankB := k } else { x with bankA := k }

end Sys2Proof.Machine
end

