-- ==== Sys2Proof/Machine/Mc.lean ====
section
/-!
DEFINITION. The management controller's records: MSI-X messages (14 R501), the error log (16 R555 R556), the snag
list (15 R517-R520), the health class (15 R530), units that fail in service (15 R527), and what a read that meets an
error does (16 R539-R551, R656).
-/

namespace Sys2Proof.Machine

/-- The message of a vector goes to the host, a TLP (14 R501, 19 R623). -/
def State.sendMsi (s : State) (v : Nat) (m : Msix) : State := (s.send (.msix v m.addr m.data)).lathEvent 312 2 1

/-- Vector v is raised: a masked vector sets its pending bit (14 R501). -/
def State.msi (s : State) (v : Nat) : State :=
  let m := mapGet s.msix v Msix.zero
  if m.masked then { s with msix := mapSet s.msix v { m with pend := true } }
  else s.sendMsi v m

/-- ALERT_N is asserted while any bit of classes 4-8 in MC_ERR_STATUS is 1 (16 R556); no signal is driven without 3V3_AUX
(20 R633). -/
def State.alertNow (s : State) : State :=
  { s with pins := { s.pins with alert := s.pins.aux && decide (s.rf .errStatus 4 5 ≠ 0) } }

/-- A record of the error log (16 R555 R556). -/
def State.log (s : State) (cls src : Nat) (loc addr : Word) : State :=
  let h := s.rf .errLog 0 10
  let o := s.rf .errLog 32 32
  let r : ErrRec :=
    ⟨BitVec.ofNat 8 cls, BitVec.ofNat 8 src, BitVec.ofNat 32 s.flash.starts, loc, addr, BitVec.ofNat 32 o⟩
  let s := { s with
    errlog := mapSet s.errlog h r
    flash := if 4 ≤ cls then { s.flash with log := s.flash.log ++ [r] } else s.flash }
  let s := (s.setRf .errLog 0 10 (h + 1)).setRf .errLog 32 32 (o + 1)
  let s := (s.setRf .errStatus cls 1 1).alertNow
  if s.rf .errMask cls 1 = 1 then s.msi 63 else s

/-! ### Locations (15 R518) -/

/-- SITE_LOGIC: site and block. -/
def locSite (site blk : Nat) : Word := BitVec.ofNat 64 (site * 256 + blk)

/-- VC_LANE, or VC_GROUP with lane 0. -/
def locLane (site : Nat) (d : VcDir) (g lane : Nat) : Word :=
  BitVec.ofNat 64 (site * 256 + (if d = .up then 0 else 2 ^ 16) + g * 2 ^ 17 + lane * 2 ^ 24)

/-- HOD_ROW: site and row. -/
def locRow (site row : Nat) : Word := BitVec.ofNat 64 (site * 256 + row * 2 ^ 16)

/-- RND_GRANULE of a plumb offset: stack, channel, bank, granule within the bank. -/
def locGran (p : Nat) : Word :=
  BitVec.ofNat 64 (p / 2 ^ 36 % 8 + p / 2 ^ 32 % 16 * 2 ^ 4 + p / 2 ^ 26 % 64 * 2 ^ 8 + p % 2 ^ 26 / 64 * 2 ^ 14)

/-- ROLLER of index x. -/
def locRoller (x : Nat) : Word := BitVec.ofNat 64 (x / 64 + x / 4 % 16 * 2 ^ 4 + x % 4 * 2 ^ 16)

/-- KLK_LANE: port, lane, whole port. -/
def locPort (p lane : Nat) (whole : Bool) : Word := BitVec.ofNat 64 (p + lane * 2 ^ 8 + b2n whole * 2 ^ 11)

/-- ROUTER: site, and 1 for the lower stop. -/
def locRouter (site : Nat) (lower : Bool) : Word := BitVec.ofNat 64 (site * 256 + b2n lower * 2 ^ 16)

/-! ### CRC-32 (15 R517) -/

/-- One bit of the reflected CRC-32 of IEEE 802.3. -/
def crc32Bit (c : BitVec 32) : BitVec 32 := if c.getLsbD 0 then (c >>> 1) ^^^ 0xEDB88320#32 else c >>> 1

/-- One byte. -/
def crc32Byte (c : BitVec 32) (b : Byte) : BitVec 32 :=
  (List.range 8).foldl (fun c _ => crc32Bit c) (c ^^^ b.setWidth 32)

/-- CRC-32 of bytes. -/
def crc32 (bs : List Byte) : BitVec 32 := ~~~(bs.foldl crc32Byte 0xFFFFFFFF#32)

/-! ### The snag list (15 R517-R520) -/

/-- Bytes 0-27 of an entry. -/
def Snag.head (e : Snag) : List Byte :=
  [e.typ, e.flags, 0, 0] ++ leBytes 4 e.first.toNat ++ leBytes 8 e.loc.toNat ++ leBytes 8 e.sig.toNat
    ++ leBytes 4 e.ordinal.toNat

/-- The 32 bytes of an entry. -/
def Snag.bytes (e : Snag) : List Byte := e.head ++ leBytes 4 e.crc.toNat

/-- The entry of a fault, at a place in the order of appending. -/
def mkSnag (f : FoundFault) (start ordinal : Nat) : Snag :=
  let e : Snag := ⟨f.typ, if f.inservice then 1 else 0, BitVec.ofNat 32 start, f.loc, f.sig, BitVec.ofNat 32 ordinal, 0⟩
  { e with crc := crc32 e.head }

/-- The entries in force: those in flash, then those held because the list is full (15 R520 R537). -/
def State.snags (s : State) : List Snag := s.flash.snag ++ s.snagHeld

/-- An entry of a type and a location exists. -/
def State.hasSnag (s : State) (typ : BitVec 8) (loc : Word) : Bool := s.snags.any fun e => e.typ == typ && e.loc == loc

/-- The lane entries of a port that the map of this start takes (15 R518 R524): KLK_LANE entries but those found in service
since it began. -/
def State.portSnags (s : State) (p : Nat) : List Snag :=
  s.snags.filter fun e => e.typ == 9 && decide (fld e.loc 0 4 = p)
    && !(e.flags.getLsbD 0 && e.first == BitVec.ofNat 32 s.flash.starts)

/-- A port that the snag list had failed as a whole when the start was made does not train in it (15 R524): an entry with bit
11 of LOC set. -/
def State.portGone (s : State) (p : Nat) : Bool := (s.portSnags p).any fun e => bitAt e.loc 11

/-- The lanes of a port that the snag list has not failed. -/
def State.portGood (s : State) (p : Nat) : BitVec 8 :=
  BitVec.ofNat 8 ((List.range 8).foldl (fun (m : Nat) (i : Nat) =>
    m + b2n (!(s.portSnags p).any fun e => !bitAt e.loc 11 && decide (fld e.loc 8 3 = i)) * 2 ^ i) 0)

/-- The lanes that a port comes up on (13 R447): all eight, lanes 0-3, lanes 4-7, or none. -/
def portLanes (l : BitVec 8) : BitVec 8 :=
  if l = 0xFF then 0xFF else if l &&& 0x0F = 0x0F then 0x0F else if l &&& 0xF0 = 0xF0 then 0xF0 else 0

/-- A port is able to reach UP: enabled, not failed, and with the lanes that the map leaves it (15 R530). -/
def State.portAble (s : State) (p : Nat) : Bool :=
  decide (s.rf .klkCfg (32 + p) 1 = 1) && decide (s.rf (.klkStatus p) 0 4 ≠ 3) && !s.portGone p
    && decide (portLanes (s.portGood p) ≠ 0)

/-- The DEGRADED conditions of 15 R530 in table order, and whether a REPLACE condition holds. -/
def State.healthNow (s : State) : Nat × Bool :=
  let able := ((List.range 16).filter s.portAble).length
  let cores := s.inForce
  let carry := (List.range 144).filter s.valid
  let wide := carry.any fun n =>
    decide (s.rf (.vcStatus (s.siteOf n) .up) 16 2 ≠ 0) || decide (s.rf (.vcStatus (s.siteOf n) .down) 16 2 ≠ 0)
  let roll := (List.range 8).any fun i => s.reg (.rlrRetired i) != 0
  let reasons := b2n (decide (cores < 144)) + b2n (decide (s.rf .mcMap 8 8 ≠ 0)) * 2
    + b2n (decide (s.slices.length < 168)) * 4 + b2n (decide (s.retired ≠ [])) * 8 + b2n wide * 16
    + b2n (decide (able < 16)) * 32 + b2n roll * 64
  (reasons,
   decide (cores < 96) || decide (s.slices.length < 128) || decide (64 < s.retired.length) || decide (able < 8)
     || s.snags.any (·.typ == 0x0A) || decide (s.rf .mcSnag 13 1 = 1))

/-- The health class is set; a change of class is logged as class 8 (15 R530, 16 R555). -/
def State.health (s : State) : State :=
  let (r, repl) := s.healthNow
  let cls := if repl then 2 else if r ≠ 0 then 1 else 0
  let old := s.rf .mcHealth 0 2
  let s := (s.setRf .mcHealth 8 8 (r + b2n repl * 128)).setRf .mcHealth 0 2 cls
  if old = cls then s else s.log 8 0 0 0

/-- A fault that the MC finds itself, in service or in training; its SIG is a free value (log entry 113). -/
def State.foundBy (s : State) (typ : Nat) (loc : Word) (inservice : Bool) : FoundFault :=
  ⟨BitVec.ofNat 8 typ, loc, Config.snagSig s.flash.starts typ loc.toNat, inservice, false⟩

/-- The ORDINAL of the next entry (R517): one more than that of the last one read. -/
def State.nextOrdinal (s : State) : Nat :=
  match s.snags.getLast? with
  | some e => e.ordinal.toNat + 1
  | none => 0

/-- A fault is appended to the snag list, unless an entry of its type and location exists (15 R519); a full list
holds it in SRAM and sets OVERFLOW (R520). A torn append leaves its slot to be skipped, and is written again in the next
one. The append is logged as class 7 with the entry's TYPE and LOC. -/
def State.snag (s : State) (f : FoundFault) : State :=
  if s.hasSnag f.typ f.loc then s
  else
    let e := mkSnag f s.flash.starts s.nextOrdinal
    let s := if f.torn ∧ s.flash.snag.length + s.flash.badCrc < 4096 then
        { s with flash := { s.flash with badCrc := s.flash.badCrc + 1 } }
      else s
    let s :=
      if s.flash.snag.length + s.flash.badCrc < 4096 then
        { s with flash := { s.flash with
            snag := s.flash.snag ++ [e]
            snag2 := if s.flash.second then s.flash.snag2 ++ [mkSnag f s.flash.starts s.flash.snag2.length]
              else s.flash.snag2 } }
      else { s with snagHeld := s.snagHeld ++ [e] }.setRf .mcSnag 13 1 1
    (s.incRf .mcSnag 32 16 1).log 7 f.typ.toNat f.loc 0

/-- A fault found in service: appended, and the health class set again (15 R530). -/
def State.snagIn (s : State) (typ : Nat) (loc : Word) : State := (s.snag (s.foundBy typ loc true)).health

/-- The HOD_ROW entries of a slice, in order: rows, and spare rows from 49,152 on. -/
def State.badRows (s : State) (site : Nat) : List Nat :=
  (s.snags.filter fun e => e.typ == 5 && decide (fld e.loc 8 8 = site)).map fun e => fld e.loc 16 16

/-- The snag list takes a slice out of the slice list at a start: a fault in its array, or a failed row that no patch entry
covers (04 R152). -/
def State.sliceLeaves (s : State) (site : Nat) : Bool :=
  (s.snags.any fun e => e.typ == 6 && decide (fld e.loc 8 8 = site)) || decide (8 < (s.badRows site).length)

/-! ### Units that fail in service (15 R527) -/

/-- A write of 1 to CORE_CTRL.STOP: STOP in a RUNNING or SLEEPING core, ignored otherwise (02 R98). -/
def State.stopCore (s : State) (lc : Nat) : State :=
  match (s.core lc).st with
  | .running | .sleeping => s.raise lc 0x14 0 0
  | _ => s

/-- The logical core is marked failed in service and stopped; the health class follows (15 R527 R530). -/
def State.failCore (s : State) (lc : Nat) : State :=
  if s.failed lc then s
  else ((s.setRf (.mcLc lc) 16 1 1).incRf .mcMap 8 8 1).stopCore lc |>.health

/-- A fault in a block of a core site in service: a SITE_LOGIC entry, and the core is marked failed. -/
def State.failBlock (s : State) (site blk : Nat) : State :=
  let s := s.snagIn 1 (locSite site blk)
  match s.lcAt site with
  | some lc => s.failCore lc
  | none => s

/-! ### What a read that meets an error does (16 R539-R551, R656) -/

/-- Where the cached copy of a granule of the interleaved view stands, as a place that errors can name. -/
def cacheKey (a : Nat) : Nat := 2 ^ 47 + a

/-- The first correction at a location in this start is logged as class 1 (16 R540 R555). -/
def State.logFirst (s : State) (place src : Nat) (loc addr : Word) : State :=
  if setHas s.seen place then s else { s with seen := setAdd s.seen place }.log 1 src loc addr

/-- The spare row that each patch entry stands on (R547 R656): an entry for a failed spare row on that row, any other on the
lowest that no entry before it has (DESIGN CHOICE, log entry 114: the spec gives no order). -/
def sparesOf (ps : List Patch) : List (Patch × Nat) :=
  ps.foldl (fun (r : List (Patch × Nat)) (p : Patch) =>
    r ++ [(p, if 49152 ≤ p.loc then p.loc
      else 49152 + ((List.range 8).find? fun k => !r.any fun q => q.2 == 49152 + k).getD 0)]) []

/-- The row of its slice that a hod row's accesses reach: the spare row of the entry that replaces it, else itself. -/
def State.rowPlace (s : State) (site row : Nat) : Nat :=
  match (sparesOf (mapGet s.hodPatch site [])).find? fun q => q.1.loc == row && !q.1.out with
  | some q => q.2
  | none => row

/-- The row whose data a spare row holds now; any other row itself. -/
def State.rowServed (s : State) (site row : Nat) : Nat :=
  match (sparesOf (mapGet s.hodPatch site [])).find? fun q => q.2 == row && !q.1.out && decide (49152 ≤ row) with
  | some q => q.1.loc
  | none => row

/-- The patch entry of a render granule, by its place in the channel's table. -/
def State.granPatch (s : State) (p : Nat) : Option Nat :=
  (mapGet s.rndPatch (chanOf p) []).findIdx? fun q => q.loc == p / 64 && !q.out

/-- A row that fails while no patch entry is left returns poisoned data until the next start, whatever is written (04
R152). -/
def State.loseRow (s : State) (site row : Nat) : State :=
  let ms := (List.range 32).map fun w => markOf (hodKey site row (8 * w))
  { s with poison := ms.foldl setAdd s.poison, bad := ms.foldl setAdd s.bad }

/-- A hard location of a hod row: patched from a free entry, an entry that failed itself staying out of use, its spare row
named in the snag list (16 R548 R656); a spare row that replaces nothing takes an entry that is out of use (log entry 114).
With the table full a location that can be corrected is left in place (R549), and a row that cannot is lost (04 R152; log
entry 114). -/
def State.patchRow (s : State) (site row : Nat) (fails : Bool) : State :=
  let ps := mapGet s.hodPatch site []
  let ps' := ps.map fun p => if p.loc == row then { p with out := true } else p
  let loc := locRow site (s.rowPlace site row)
  let s := s.snagIn 5 loc
  if ps.length < 8 then
    { s with hodPatch := mapSet s.hodPatch site (ps' ++ [Patch.mk row (decide (49152 ≤ row))]) }.log 2 5 loc 0
  else (if fails then s.loseRow site row else s).log 3 5 loc 0

/-- A hard render granule, likewise (16 R548 R549 R656); a failed patch register is not recorded in the snag list. -/
def State.patchGran (s : State) (p : Nat) : State :=
  let ch := chanOf p
  let g := p / 64
  let ps := mapGet s.rndPatch ch []
  let again := ps.any fun q => q.loc == g && !q.out
  let ps' := ps.map fun q => if q.loc == g then { q with out := true } else q
  let s := if again then s else s.snagIn 7 (locGran p)
  if ps.length < 16 then
    { s with rndPatch := mapSet s.rndPatch ch (ps' ++ [Patch.mk g false]) }.log 2 7 (locGran p) 0
  else s.log 3 7 (locGran p) 0

/-- An error at a hawk word (16 R539-R542 R551): corrected and counted, or poisoned; a second hard word in the hawk,
or a hard uncorrectable one, is a hawk fault. -/
def State.meetHawk (s : State) (k : ErrKind) (key : Nat) : State :=
  let site := (key - 2 ^ 45) / 2 ^ 21
  let count (s : State) : State := match s.lcAt site with | some lc => s.event lc 0x31 1 | none => s
  let poison (s : State) : State := { s with poison := setAdd s.poison (markOf key) }.log 4 1 (locSite site 1) 0
  let hard (s : State) : State :=
    let x := s.site site
    let s := (s.setSite site { x with hardHawk := x.hardHawk + 1 }).log 3 1 (locSite site 1) 0
    if 1 ≤ x.hardHawk ∧ ¬ setHas s.seen (2 ^ 48 + markOf key) then s.failBlock site 1
    else { s with seen := setAdd s.seen (2 ^ 48 + markOf key) }
  match k with
  | .soft => (count s).logFirst (markOf key) 1 (locSite site 1) 0
  | .hard => hard ((count s).logFirst (markOf key) 1 (locSite site 1) 0)
  | .uncorr => poison s
  | .hardUncorr => ((poison s).log 3 1 (locSite site 1) 0).failBlock site 1
  | .transit _ _ => s

/-- An error at a hod word, counted and logged at the row that the access reaches: a replacement is a location in its own
right (R540 R656). -/
def State.meetHod (s : State) (k : ErrKind) (key : Nat) : State :=
  let site := (key - 2 ^ 46) / 2 ^ 24
  let row := (key - 2 ^ 46) % 2 ^ 24 / 256
  let place := s.rowPlace site row
  let count (s : State) : State :=
    ((s.incRf (.sliceStatus site) 32 32 1).lathEvent site 6 1).logFirst (markOf (hodKey site place (key % 256))) 5
      (locRow site place) 0
  let poison (s : State) : State := { s with poison := setAdd s.poison (markOf key) }.log 4 5 (locRow site place) 0
  match k with
  | .soft => count s
  | .hard => (count s).patchRow site row false
  | .uncorr => poison s
  | .hardUncorr => (poison s).patchRow site row true
  | .transit _ _ => s

/-- An error at a render granule, or at the patch register that replaces it, a location of its own (R540 R656). -/
def State.meetRender (s : State) (k : ErrKind) (key : Nat) : State :=
  let ch := chanOf key
  let addr : Word := BitVec.ofNat 64 (2 ^ 39 + key / 64 * 64)
  let place := match s.granPatch key with
    | some i => 2 ^ 52 + 16 * ch + i
    | none => markOf key
  let count (s : State) : State := (s.incRf (.rndCh ch) 32 32 1).logFirst place 7 (locGran key) addr
  let poison (s : State) : State :=
    ({ s with poison := setAdd s.poison (markOf key) }.incRf (.rndCh ch) 16 16 1).log 4 7 (locGran key) addr
  match k with
  | .soft => count s
  | .hard => (count s).patchGran key
  | .uncorr => poison s
  | .hardUncorr => (poison s).patchGran key
  | .transit _ _ => s

/-- The slice and the hod row that hold a cached line (04 R149 R158): rows from N on, sixteen of each set; which of them is
the line's the spec does not say, and its place in the order of use is taken (DESIGN CHOICE, log entry 97). -/
def State.rcRow (s : State) (g : Nat) : Nat × Nat :=
  (s.slices.getD (g % s.sliceCount) 0,
   s.rowsUsed + 16 * (g / s.sliceCount % (256 * s.rcMib)) + (mapGet s.rc (s.rcSet g) []).findIdx fun l => l.tag == g)

/-- An uncorrectable error of a cached granule: a clean line is dropped, to be fetched again, and the granule of a dirty one
poisoned (04 R160), which is logged as a hod event of the line's row (16 R555). -/
def State.cacheLost (s : State) (a : Nat) : State :=
  let (site, row) := s.rcRow (a / 256)
  let i := s.rcSet (a / 256)
  let ls := mapGet s.rc i []
  let s := { s with rc := mapSet s.rc i (ls.filterMap fun l =>
    if l.tag != a / 256 then some l
    else if l.dirty then some { l with poison := l.poison ||| BitVec.ofNat 4 (2 ^ (a % 256 / 64)) } else none) }
  if ls.any fun l => l.tag == a / 256 && l.dirty then s.log 4 5 (locRow site (s.rowPlace site row)) 0 else s

/-- The cached copy of a granule reads as poisoned, or stands nowhere: an error there finds nothing more. -/
def State.cacheDead (s : State) (a : Nat) : Bool :=
  match (mapGet s.rc (s.rcSet (a / 256)) []).find? fun l => s.rcMib != 0 && l.tag == a / 256 with
  | some l => l.poison.getLsbD (a % 256 / 64)
  | none => true

/-- An error at the cached copy of a granule: a correctable one is one of the slice that holds the line (04 R174); a hard one
is patched as any hod row is (16 R548). -/
def State.meetCache (s : State) (k : ErrKind) (a : Nat) : State :=
  let (site, row) := s.rcRow (a / 256)
  let place := s.rowPlace site row
  let count (s : State) : State :=
    ((s.incRf (.sliceStatus site) 32 32 1).lathEvent site 6 1).logFirst (markOf (hodKey site place (a % 256))) 5
      (locRow site place) 0
  match k with
  | .transit _ _ => s
  | .soft => count s
  | .hard => (count s).patchRow site row false
  | .uncorr => s.cacheLost a
  | .hardUncorr => (s.cacheLost a).patchRow site row true

/-- A key of a Roller buffer, as a place that errors can name: vector granule i of Roller x at i, accumulator i at 2^19 + i. -/
def rollerBufKey (x i : Nat) : Nat := 2 ^ 50 + x * 2 ^ 20 + i

/-- A parity fault of a Roller buffer sets the poison bit of its vector granule or accumulator, and is logged (16 R546, 11
R372). -/
def State.meetBuffer (s : State) (k : Nat) : State :=
  let x := k / 2 ^ 20
  let r := mapGet s.rollers x Roller.zero
  let i := k % 2 ^ 20
  let r := if i < 2 ^ 19 then { r with vecPoison := setAdd r.vecPoison i }
    else { r with accPoison := setAdd r.accPoison (i - 2 ^ 19) }
  { s with rollers := mapSet s.rollers x r }.log 6 8 (locRoller x) 0

/-- The line that a row of the render cache holds (04 R149 R158; which of its set's lines: log entry 97). -/
def State.lineAt (s : State) (site row : Nat) : Option RcLine :=
  if s.rowsUsed ≤ row ∧ row < 49152 then
    (s.slices.idxOf? site).bind fun j =>
      (mapGet s.rc (j * 2048 + (row - s.rowsUsed) / 16) [])[(row - s.rowsUsed) % 16]?
  else none

/-- The place that a read of a hod row reaches: a spare row in use stands for the row that it replaces (R656), and a row of the
render cache for the line that it holds (04 R160). -/
def State.rowRead (s : State) (site row byte : Nat) : Nat :=
  let r := s.rowServed site row
  match s.lineAt site r with
  | some l => cacheKey (l.tag * 256 + byte)
  | none => hodKey site r byte

/-- The place at which a read meets an error; an address of the interleaved view names its cached copy. -/
def State.errPlace (s : State) (key : Nat) : Nat :=
  if 2 ^ 46 ≤ key ∧ key < 2 ^ 47 then s.rowRead ((key - 2 ^ 46) / 2 ^ 24) ((key - 2 ^ 46) % 2 ^ 24 / 256) (key % 256) else key

/-- The line that holds a place's cached copy is clean: an uncorrectable error drops it, and poisons nothing (04 R160). -/
def State.cleanCopy (s : State) (key : Nat) : Bool :=
  decide (2 ^ 47 ≤ key) && !(mapGet s.rc (s.rcSet ((key - 2 ^ 47) / 256)) []).any fun l =>
    l.tag == (key - 2 ^ 47) / 256 && l.dirty

/-- An error at a place whose granule or word reads as poisoned finds nothing more. -/
def State.errDead (s : State) (key : Nat) : Bool :=
  if 2 ^ 50 ≤ key then false else if 2 ^ 47 ≤ key then s.cacheDead (key - 2 ^ 47) else s.poisoned key

/-- One error that a read meets. -/
def State.meetErr (s : State) (e : MemErr) : State :=
  let k := s.errPlace e.key
  if s.errDead k then s
  else if 2 ^ 50 ≤ k then s.meetBuffer (k - 2 ^ 50)
  else if 2 ^ 47 ≤ k then s.meetCache e.kind (k - 2 ^ 47)
  else if k < 2 ^ 45 then s.meetRender e.kind k
  else if k < 2 ^ 46 then s.meetHawk e.kind k
  else s.meetHod e.kind k

/-- The errors that a command's reads meet. -/
def State.meet (s : State) (errs : List MemErr) : State := errs.foldl State.meetErr s

/-- The log record of poison that a core met: scalar loads and fetches block 0, a unit its block (16 R555). -/
def unitBlock : UnitId → Nat
  | .trowel => 6
  | .brush => 2
  | .stencil => 3
  | .mover => 4
  | .scrim => 5

/-! ### The map's rules that live on after the start (15 R522, 06 R205) -/

/-- The cover of failed Trowel cells (06 R205): skipped rows and columns, at most two of each; fewest rows, then
fewest columns, then the lower list of rows. -/
def trowelCover (cells : List (Nat × Nat)) : Option (List Nat × List Nat) :=
  let rows := (cells.foldl (fun m c => setAdd m c.1) [])
  let cols (rs : List Nat) : NSet := (cells.filter fun c => !rs.contains c.1).foldl (fun m c => setAdd m c.2) []
  let ones := rows.map fun r => [r]
  let twos := rows.flatMap fun r => (rows.filter fun q => decide (r < q)).map fun q => [r, q]
  let best (cands : List (List Nat)) : Option (List Nat × List Nat) :=
    (cands.map fun rs => (rs, cols rs)).foldl (fun b x =>
      if 2 < x.2.length then b
      else match b with
        | none => some x
        | some y => if x.2.length < y.2.length then some x else some y) none
  match best [[]] with
  | some x => some x
  | none => match best ones with
    | some x => some x
    | none => best twos

/-- The failed Trowel cells of a site in the snag list (15 R518). -/
def State.badCells (s : State) (site : Nat) : List (Nat × Nat) :=
  (s.snags.filter fun e => e.typ == 2 && decide (fld e.loc 8 8 = site)).map fun e => (fld e.loc 16 7, fld e.loc 24 7)

/-- A core site is usable (15 R522). -/
def State.usable (s : State) (site : Nat) : Bool :=
  !(s.snags.any fun e => (e.typ == 1 || e.typ == 0x0A) && decide (fld e.loc 8 8 = site))
    && (trowelCover (s.badCells site)).isSome
    && decide (s.rf (.vcStatus site .up) 8 4 ≠ 0) && decide (s.rf (.vcStatus site .down) 8 4 ≠ 0)
    && decide (s.rf (.vcStatus site .up) 18 1 = 0) && decide (s.rf (.vcStatus site .down) 18 1 = 0)

/-- The free spares: usable sites that carry no logical core (15 R523). -/
def State.freeSites (s : State) : List Nat :=
  (List.range 168).filter fun i => s.usable i && (s.lcAt i).isNone

end Sys2Proof.Machine
end

