-- ==== Sys2Proof/Machine/RegRead.lean ====
section
/-!
DEFINITION. What a register reads: its stored word with the fields that report other state filled in. No read acts as
a command (00 R8).
-/

namespace Sys2Proof.Machine

/-- CORE_STATUS (02 R94). -/
def coreStatusWord (c : Core) : Word :=
  let pc := match c.st with
    | .running | .sleeping | .idle => c.pc
    | _ => if fld c.excCause 0 8 = 0 then c.pc else c.excPc
  let q := allUnits.foldl (fun m u => m + b2n (!(c.q u).isEmpty) * 2 ^ unitNum u) 0
  let st := match c.st with
    | .idle => 0
    | .running => 1
    | .sleeping => 2
    | .draining => 3
    | .done => 4
    | .faulted => 5
  BitVec.ofNat 64 (pc.toNat * 2 ^ 20 + q * 2 ^ 8 + st)

/-- A unit has a started instruction of some kind that has not finished. -/
def Core.runs (c : Core) (u : UnitId) (p : UOp → Bool) : Bool := (c.q u).any fun e => e.started && p e.op

/-- A Trowel instruction of the feed engine: MMA and CLR (06 R221). -/
def UOp.feeds : UOp → Bool
  | .trwMma _ | .trwClr _ => true
  | _ => false

/-- A Trowel instruction of the drain engine: DRAIN and LDACC (06 R221). -/
def UOp.drains : UOp → Bool
  | .trwDrain _ | .trwLdacc _ => true
  | _ => false

/-- The fields of TRW_STATUS that a bank gives (06 R232). -/
def bankBits (b : Bank) : Nat := b2n b.int + b2n b.poison * 2 + b2n (!b.sat.isEmpty) * 4 + b2n b.thin * 8

/-- TRW_STATUS (06 R232) beside its PARITY count. -/
def trwBits (c : Core) : Nat :=
  bankBits c.bankA + bankBits c.bankB * 2 ^ 6 + b2n (c.runs .trowel UOp.feeds) * 2 ^ 10
    + b2n (c.runs .trowel UOp.drains) * 2 ^ 11 + b2n c.stcOwns * 2 ^ 12

/-- Whether an entry is a RUN. -/
def UEntry.isRun (e : UEntry) : Bool :=
  match e.op with
  | .brsRun _ => true
  | _ => false

/-- A started RUN in pair mode (08 R287): w0[35] of its header. -/
def Core.pairRuns (c : Core) : Bool := c.brsQ.any fun e => e.started && e.isRun && bitAt (e.ds.headD 0) 35

/-- BRS_STATUS (08 R287). -/
def brsWord (c : Core) : Word :=
  BitVec.ofNat 64 (b2n (c.runs .brush fun _ => true) + b2n c.stcOwns * 2 + b2n c.pairRuns * 4)

/-- BRS_PLEN (08 R288). -/
def plenWord (c : Core) : Word :=
  BitVec.ofNat 64 ((List.range 8).foldl (fun m i => m + (mapGet c.prog i []).length * 2 ^ (6 * i)) 0)

/-- STC.FWD or STC.BWD. -/
def UOp.attends : UOp → Bool
  | .stcFwd _ | .stcBwd _ => true
  | _ => false

/-- The low bits of STC_STATUS (09 R322). -/
def stcBits (c : Core) : Nat :=
  b2n (c.runs .stencil UOp.attends) + b2n c.stcOwns * 2
    + b2n (c.runs .stencil fun o => match o with | .stcBwd _ => true | _ => false) * 4

/-- The beats of an attention instruction: chunks and two for STC.FWD (09 R310), blocks and one for STC.BWD (R318). -/
def UEntry.beats (e : UEntry) : Nat :=
  let w := dword (e.ds.headD 0) 0
  let per (n : Nat) : Nat := (fld w 0 21 + n - 1) / n
  match e.op with
  | .stcBwd _ => per 64 + 1
  | _ => per (128 * 2 ^ fld w 21 2) + 2

/-- STC_STATUS.BEAT (09 R322): 0 when no attention instruction is started; while one is, up to its signal, which of its beats
it has reached is timing, and a free value; after the last beat no beat is numbered, and the value is free too (log entry 7). -/
def State.beat (s : State) (lc : Nat) : Nat :=
  match (s.core lc).stcQ.find? fun e => e.started && UOp.attends e.op with
  | some e => Config.beat s.free % e.beats
  | none => 0

/-- STC_WALK (10 R365). -/
def walkWord (c : Core) : Word :=
  let wait := c.stcQ.any fun e => match e.op with
    | .stcPtedit _ => e.started && e.begun && e.fin.isNone
    | _ => false
  BitVec.ofNat 64 (b2n (!c.held.isEmpty) + b2n wait * 2 + c.held.length % 4 * 2 ^ 8
    + (match c.held.head? with | some h => h.entry % 65536 | none => 0) * 2 ^ 16)

/-- HOD_CAPACITY (04 R175 R150). -/
def State.capacityWord (s : State) : Word :=
  let top := if s.sliceCount = 0 then 0 else 0x10000000000 + s.sliceCount * s.rowsUsed * 256 - 1
  BitVec.ofNat 64 (top + s.sliceCount % 256 * 2 ^ 44 + s.rcMib % 8 * 2 ^ 52)

/-- The top address of the hod global view (04 R150). -/
def State.hodTop (s : State) : Nat := fld s.capacityWord 0 44

/-- Some line of the render cache is dirty (04 R176). -/
def State.rcDirty (s : State) : Bool := !s.rcWait.isEmpty || s.rc.any fun e => e.2.any (·.dirty)

/-- HOD_SLICE_STATUS (04 R174) beside CORRECTED; a slice of the list is LEAVING when the next start will drop it. -/
def State.sliceWord (s : State) (site : Nat) : Word :=
  let w := s.reg (.sliceStatus site)
  let w := setFld w 20 4 (mapGet s.hodPatch site []).length
  match s.slices.idxOf? site with
  | some k => setFld (setFld (setFld w 8 8 k) 0 1 1) 16 1 (b2n (s.sliceLeaves site))
  | none => setFld (setFld w 8 8 0xFF) 0 1 0

/-- The shape of a KV region (10 R326): EBITS, and tokens per page, 0 when the region is not valid. -/
def regionEbits (w : Word) : Nat := [4, 6, 8, 16].getD (fld w 21 2) 4

/-- TPP of a region, 0 when it is not valid (10 R326 R364). -/
def regionTpp (w : Word) : Nat :=
  let ps := 2 ^ fld w 0 5
  let d := fld w 8 9
  let den := 2 * (fld w 17 4 + 1) * d * regionEbits w
  if 14 ≤ fld w 0 5 ∧ fld w 0 5 ≤ 20 ∧ 32 ≤ d ∧ d ≤ 256 ∧ d % 32 = 0 ∧ ps * 8 % den = 0 ∧ 0 < ps * 8 / den
      ∧ ps * 8 / den % 64 = 0 then ps * 8 / den else 0

/-- STC_KV_REGIONr (10 R364). -/
def regionWord (w : Word) : Word :=
  setFld (setFld w 24 16 (regionTpp w)) 63 1 (b2n (decide (regionTpp w ≠ 0)))

/-- Holds in force on the device (10 R363). -/
def State.holdsNow (s : State) : Nat := s.cores.foldl (fun n e => n + e.2.held.length) 0

/-- A stack's sequencer holds a command (11 R402). -/
def State.seqLen (s : State) (st : Nat) : Nat := (mapGet s.seqs st []).length

/-! ### Core sets (12 R417) -/

/-- The cores that four set words name; none when the set breaks R417. -/
def coreSet (w0 w1 w2 w3 : Word) (inForce : Nat) : Option (List Nat) :=
  let mask := w1.toNat + w2.toNat * 2 ^ 64 + fld w3 0 16 * 2 ^ 128
  let r0 := fld w0 8 4
  let r1 := fld w0 12 4
  let c0 := fld w0 16 4
  let c1 := fld w0 20 4
  if ¬ (onlyBits w0 [(0, 1), (8, 16)] ∧ onlyBits w3 [(0, 16)]) then none
  else
    let l :=
      if bitAt w0 0 then
        if fld w0 8 16 = 0 then some ((List.range 144).filter fun n => mask / 2 ^ n % 2 == 1) else none
      else if mask = 0 ∧ r0 ≤ r1 ∧ r1 ≤ 11 ∧ c0 ≤ c1 ∧ c1 ≤ 11 then
        some ((List.range 144).filter fun n =>
          decide (r0 ≤ n / 12) && decide (n / 12 ≤ r1) && decide (c0 ≤ n % 12) && decide (n % 12 ≤ c1))
      else none
    match l with
    | some ns => if ns.isEmpty || ns.any fun n => decide (inForce ≤ n) then none else some ns
    | none => none

/-- The cores that a descriptor's set words name. -/
def State.descSet (s : State) (d : Desc) : Option (List Nat) :=
  coreSet (dword d 0) (dword d 1) (dword d 2) (dword d 3) s.inForce

/-! ### Combine contexts and the router of a site (12 R406 R419 R423 R426 R427 R444) -/

/-- DEST and RID of a started reduction, or root and RID of a barrier, with whether it is a barrier. -/
def State.collKey (s : State) (e : UEntry) : Option (Nat × Nat × Bool) :=
  let d := e.ds.headD 0
  match e.op with
  | .scrRed _ => some (fld (dword d 4) 0 8, fld (dword d 4) 8 6, false)
  | .scrBar _ => match s.descSet d with
    | some ns => some (ns.headD 0, fld (dword d 4) 8 6, true)
    | none => none
  | _ => none

/-- An entry belongs to a DEST and RID. -/
def State.ofColl (s : State) (dest rid : Nat) (e : UEntry) : Bool :=
  match s.collKey e with
  | some (a, b, _) => a == dest && b == rid
  | none => false

/-- Some core has a started instruction of a DEST and RID, besides the one that a test leaves out. -/
def State.collBusy (s : State) (dest rid : Nat) (but : Nat → Nat → Bool) : Bool :=
  s.cores.any fun c => c.2.scrQ.zipIdx.any fun e => e.1.started && s.ofColl dest rid e.1 && !but c.1 e.2

/-- The contexts that the routers hold: a mismatch ends with the last started instruction of its DEST and RID (12 R427). -/
def State.liveColls (s : State) : List Coll :=
  s.colls.filter fun k => !k.mismatch || s.collBusy k.dest k.rid fun _ _ => false

/-- A site lies on the XY route between two sites (12 R406): along the row first, then along the column. -/
def onRoute (a b x : Nat) : Bool :=
  let lo (p q : Nat) := min p q
  let hi (p q : Nat) := max p q
  (decide (x / 14 = a / 14) && decide (lo (a % 14) (b % 14) ≤ x % 14) && decide (x % 14 ≤ hi (a % 14) (b % 14)))
    || (decide (x % 14 = b % 14) && decide (lo (a / 14) (b / 14) ≤ x / 14) && decide (x / 14 ≤ hi (a / 14) (b / 14)))

/-- The whole numbers from a to b, both ends included, upward or downward. -/
def spanTo (a b : Nat) : List Nat :=
  if a ≤ b then (List.range (b - a + 1)).map fun i => a + i else (List.range (a - b + 1)).map fun i => a - i

/-- The logical positions that a partial sum passes from LCn to its destination over the tree of 12 R423: along its logical
row, then along the destination's logical column. -/
def treePath (n dest : Nat) : List Nat :=
  ((spanTo (n % 12) (dest % 12)).map fun c => n / 12 * 12 + c)
    ++ ((spanTo (n / 12) (dest / 12)).drop 1).map fun r => r * 12 + dest % 12

/-- A context's tree passes the router of a site, or combines there (12 R423 R426): it lies on the XY route between two
logical cores that follow each other on a participant's path (log entry 8). -/
def State.collAt (s : State) (site : Nat) (k : Coll) : Bool :=
  k.set.any fun n =>
    let p := (treePath n k.dest).filter fun x => decide (x < s.inForce)
    p.any (fun x => s.siteOf x == site) || (p.zip (p.drop 1)).any fun x => onRoute (s.siteOf x.1) (s.siteOf x.2) site

/-- Combine contexts that the router of a site holds: a contribution that would open one more waits (12 R426). -/
def State.ctxHeld (s : State) (site : Nat) : Nat := (s.liveColls.filter (s.collAt site)).length

/-- The reductions and barriers in flight: from the start of the first instruction of a DEST and RID until its last one
signals (12 R426). -/
def State.collsInFlight (s : State) : List Coll :=
  (s.cores.flatMap fun c => c.2.scrQ.filter (·.started)).foldl (fun l e => match s.collKey e with
    | some (dest, rid, bar) =>
      if l.any fun k => k.dest == dest && k.rid == rid then l
      else l ++ [⟨dest, rid, bar, (s.descSet (e.ds.headD 0)).getD [], 0, 0, [], [], false, false, 0, false⟩]
    | none => l) s.liveColls

/-- SCR_STATUS.CTX_USED of the router of a site (12 R444): reductions and barriers in flight whose trees pass it. -/
def State.ctxUsed (s : State) (site : Nat) : Nat := (s.collsInFlight.filter (s.collAt site)).length

/-- A multicast. -/
def UOp.isMcast : UOp → Bool
  | .scrMcast _ => true
  | _ => false

/-- The branch by which the XY route to site b leaves site x, on that route: along the row, then along the column, then to
the core (12 R406). -/
def hop (b x : Nat) : Nat :=
  if x % 14 < b % 14 then 0 else if b % 14 < x % 14 then 1 else if x / 14 < b / 14 then 2 else if b / 14 < x / 14 then 3 else 4

/-- A multicast has copies under way through the router of a site where the routes to its targets divide: only there can one
branch be blocked and another not (12 R419). -/
def State.mcastAt (s : State) (site : Nat) : Bool :=
  s.cores.any fun k => k.2.scrQ.any fun e => UOp.isMcast e.op && e.begun && e.fin.isNone
    && (e.await.any fun n => decide (n < 144) && onRoute (s.siteOf k.1) (s.siteOf n) site)
    && decide (1 < ((((s.descSet (e.ds.headD 0)).getD []).filter fun n =>
      onRoute (s.siteOf k.1) (s.siteOf n) site).map fun n => hop (s.siteOf n) site).eraseDups.length)

/-- SCR_STATUS.HOLD_USED (12 R444), 0-8: 0 at a router where the routes of no multicast under way divide; at another one, how
many hold entries its copies occupy is timing and the field is a free value (log entry 7). -/
def State.holdUsed (s : State) (site : Nat) : Nat :=
  if s.mcastAt site then Config.held (168 * s.free + site) % 9 else 0

/-- SCR_STATUS (12 R444): a multicast is in flight until it signals (R421). -/
def State.scrWord (s : State) (lc : Nat) : Word :=
  let c := s.core lc
  let mc := (c.scrQ.filter fun e => e.started && UOp.isMcast e.op).length
  BitVec.ofNat 64 (b2n (c.runs .scrim fun _ => true) + mc % 8 * 2 ^ 8
    + min 32 (s.ctxUsed (s.siteOf lc)) * 2 ^ 54 + s.holdUsed (s.siteOf lc) * 2 ^ 60)

/-! ### Launches (14 R494-R499) -/

/-- Word w of a launch descriptor (14 R494). -/
def launchWord (d : List Byte) (w : Nat) : Word := BitVec.ofNat 64 (leNat ((d.drop (8 * w)).take 8))

/-- The cores of a launch descriptor's set. -/
def State.launchSet (s : State) (d : List Byte) : Option (List Nat) :=
  coreSet (launchWord d 2) (launchWord d 3) (launchWord d 4) (launchWord d 5) s.inForce

/-- A launch slot. -/
def State.slotOf (s : State) (i : Nat) : Slot := mapGet s.slots i Slot.zero

/-- The descriptors of the launches that are QUEUED (1) or RUNNING (2). -/
def State.launchesIn (s : State) (st : Nat) : List (List Byte) :=
  (List.range 32).filterMap fun i => if s.rf (.pciSlot i) 32 2 = st then (s.slotOf i).launch else none

/-- The set of the launch that a slot holds. -/
def State.slotSet (s : State) (x : Slot) : List Nat := (x.launch.bind s.launchSet).getD []

/-- A core of a started launch failed before it was reached. -/
def State.coreLost (s : State) (x : Slot) (n : Nat) : Bool := !setHas x.entered n && s.failed n

/-- A core of a started launch is past it: DONE or FAULTED, taken by a later launch since, or lost. -/
def State.corePast (s : State) (x : Slot) (n : Nat) : Bool :=
  s.coreLost x n || (mapGet? x.ended n).isSome
    || (setHas x.entered n && ((s.core n).st == .done || (s.core n).st == .faulted))

/-- A started launch has not ended (14 R499). -/
def State.slotRuns (s : State) (x : Slot) : Bool := !(s.slotSet x).all (s.corePast x)

/-- The RUNNING launches with their slot numbers: those of the slots, and those whose slot a function reset took
(14 R486). -/
def State.started (s : State) : List (Nat × Slot) :=
  ((List.range 32).filterMap fun i => if s.rf (.pciSlot i) 32 2 = 2 then some (i, s.slotOf i) else none)
    ++ s.orphans.filter fun o => s.slotRuns o.2

/-- The started launches whose slot a function reset took, while a core of theirs still runs (14 R486). -/
def State.runningOrphans (s : State) : List (List Byte) :=
  (s.orphans.filter fun o => s.slotRuns o.2).filterMap fun o => o.2.launch

/-- The RUNNING launch that a core has not entered yet: slot, descriptor, set. -/
def State.launchOf (s : State) (lc : Nat) : Option (Nat × List Byte × List Nat) :=
  s.started.findSome? fun o =>
    match o.2.launch with
    | some d => match s.launchSet d with
      | some ns => if ns.contains lc ∧ ¬ setHas o.2.entered lc then some (o.1, d, ns) else none
      | none => none
    | none => none

/-- The descriptors of RUNNING launches. -/
def State.runningLaunches (s : State) : List (List Byte) := s.launchesIn 2 ++ s.runningOrphans

/-- WAKE_US of a launch descriptor (14 R494). -/
def wakeUs (d : List Byte) : Nat := leNat ((d.drop 60).take 4)

/-- A QUEUED or RUNNING launch names a core. -/
def State.launchNames (s : State) (lc : Nat) : Bool :=
  (s.launchesIn 1 ++ s.runningLaunches).any fun d => ((s.launchSet d).getD []).contains lc

/-- The device tolerance T (17 R565): the least of PCI_WAKE and the non-zero WAKE_US of every QUEUED or RUNNING
launch. -/
def State.tolerance (s : State) : Nat :=
  (s.launchesIn 1 ++ s.runningLaunches).foldl (fun t d => if wakeUs d = 0 then t else min t (wakeUs d))
    (s.rf .pciWake 0 32)

/-- A finish's cap in watts (17 R561). -/
def capOf (f : Nat) : Nat := if f = 0 then 1250 else if f = 1 then 1800 else 2600

/-- The finish cap in force (17 R562): an upward change raises it at its acceptance, a downward one lowers it once the
Rollers have disarmed. -/
def State.finishCap (s : State) : Nat :=
  let cur := s.rf .finish 4 2
  if s.power.step = .none then capOf cur
  else if cur < s.power.target then capOf s.power.target
  else if s.disarming ≠ [] then capOf cur else capOf s.power.target

/-- The power limit in force (17 R585). -/
def State.limitNow (s : State) : Nat :=
  let l := min s.finishCap (s.rf .therm 16 16)
  if s.pins.brake then min l 600 else l

/-- SEC_STATE (18 R613): a bank's SVN, or 0xFF when it is not valid. -/
def FwBank.svn (b : FwBank) (o : Otp) : Nat := if b.ok o then imgSvn b.image % 256 else 0xFF

/-- The debug state (18 R606). -/
def State.dbg (s : State) : Nat := if !s.otp.closed then 0 else if s.sec.scopes ≠ 0 then 2 else 1

/-- SEC_STATE (18 R613). -/
def State.secWord (s : State) : Word :=
  let bit (f : OpSlot → Bool) : Nat := (List.range 4).foldl (fun m k =>
    m + b2n (match s.otp.ops[k]? with | some o => f o | none => false) * 2 ^ k) 0
  BitVec.ofNat 64 (s.dbg + s.sec.scopes % 8 * 2 ^ 4 + b2n s.sec.activeB * 2 ^ 9 + b2n s.sec.runningB * 2 ^ 10
    + b2n s.sec.recovery * 2 ^ 11 + b2n (decide (8 ≤ s.sec.refused)) * 2 ^ 12 + bit (·.valid) * 2 ^ 16
    + bit (·.revoked) * 2 ^ 20 + s.otp.rollback % 256 * 2 ^ 24 + s.sec.bankA.svn s.otp * 2 ^ 32 + s.sec.bankB.svn s.otp * 2 ^ 40)

/-- Word w of bytes. -/
def bytesWord (bs : List Byte) (w : Nat) : Word := BitVec.ofNat 64 (leNat ((bs.drop (8 * w)).take 8))

/-- The 32 bytes of an error-log record (16 R555). -/
def ErrRec.bytes (r : ErrRec) : List Byte :=
  [r.cls, r.src, 0, 0] ++ leBytes 4 r.start.toNat ++ leBytes 8 r.loc.toNat ++ leBytes 8 r.addr.toNat
    ++ leBytes 4 r.order.toNat ++ [0, 0, 0, 0]

/-- Patch entries in use over a table of tables. -/
def patchUsed (m : FMap (List Patch)) : Nat := m.foldl (fun n e => n + e.2.length) 0

/-- The word a register reads as. -/
def State.readReg (s : State) (r : Reg) : Word :=
  match r with
  | .coreStatus n => coreStatusWord (s.core n)
  | .excCause n => (s.core n).excCause
  | .excPc n => (s.core n).excPc.setWidth 64
  | .excAddr n => (s.core n).excAddr
  | .excInsn n => (s.core n).excInsn.setWidth 64
  | .faultMask n => (s.core n).faultMask.setWidth 64
  | .trwStatus n => setFld (s.reg r) 0 13 (trwBits (s.core n))
  | .brsStatus n => brsWord (s.core n)
  | .brsPlen n => plenWord (s.core n)
  | .stcStatus n => setFld (setFld (s.reg r) 0 3 (stcBits (s.core n))) 16 16 (s.beat n)
  | .stcWalk n => walkWord (s.core n)
  | .scrStatus n => s.scrWord n
  | .pmuSstat n => setFld (s.reg r) 0 9 (mapGet s.pmus (s.siteOf n) Pmu.zero).buf.length
  | .hodCapacity => s.capacityWord
  | .rcConfig => setFld (s.reg r) 8 1 (b2n s.rcDirty)
  | .sliceStatus i => s.sliceWord i
  | .kvStatus => setFld (setFld (s.reg r) 16 16 s.deferred.length) 0 16 s.holdsNow
  | .kvRegion _ => regionWord (s.reg r)
  | .rlrState =>
    let bits (f : Nat → Bool) : Nat := (List.range 8).foldl (fun m i => m + b2n (f i) * 2 ^ i) 0
    setFld (setFld (s.reg r) 16 8 (bits fun i => bitAt (s.reg r) (16 + i) && !setHas s.power.awake (168 + i))) 8 8
      (bits fun i => decide (s.seqLen i ≠ 0))
  | .rlrStack i => setFld (s.reg r) 0 5 (s.seqLen i)
  | .rndCh n => setFld (s.reg r) 8 5 (mapGet s.rndPatch n []).length
  | .pciLink => setFld (s.reg r) 11 1 (b2n (decide (s.rf .pciLink 0 4 = 6) && decide (s.rf .finish 4 2 ≠ 2) && Config.l0p s.free))
  | .pciSlot i => setFld (s.reg r) 36 9 (mapGet s.slots i Slot.zero).written.length
  | .mcSpares => BitVec.ofNat 64 (s.freeSites.length + (1344 - patchUsed s.hodPatch) * 2 ^ 16
      + (2048 - patchUsed s.rndPatch) * 2 ^ 32 + s.retired.length * 2 ^ 47)
  | .mcSnag => setFld (setFld (s.reg r) 0 13 (min 4096 s.snags.length)) 48 16 (min s.flash.badCrc 65535)
  | .mcRetired i => match s.retired[i]? with
      | some b => if i < 64 then BitVec.ofNat 64 (2 ^ 63 + b * 2 ^ 23) else 0
      | none => 0
  | .retiredMap i =>
    BitVec.ofNat 64 ((s.retired.filter fun b => b / 64 == i).foldl (fun m b => m + 2 ^ (b % 64)) 0)
  | .snagWord i w => match s.snags[i]? with | some e => bytesWord e.bytes w | none => 0
  | .errWord i w => match mapGet? s.errlog i with | some e => bytesWord e.bytes w | none => 0
  | .pwrState => setFld (setFld (s.reg r) 32 32 s.tolerance) 0 8 s.power.pgated.length
  | .therm => setFld (s.reg r) 62 1 (b2n s.pins.brake)
  | .power => setFld (setFld (s.reg r) 16 16 s.limitNow) 40 8 ((List.range 168).filter fun i => decide ((s.site i).ratio < 16)).length
  | .secState => s.secWord
  | .nonce j => match s.sec.nonce with | some n => bytesWord n j | none => 0
  | .module => BitVec.ofNat 64 (0xB0 + s.flash.rf.toNat * 2 ^ 8 + s.flash.serial.toNat * 2 ^ 30)
  | .supply => setFld (setFld (s.reg r) 0 1 (b2n s.pins.stage)) 8 8 (min s.flash.losses 255)
  | _ => s.reg r

/-- Reads of a counting register by a program are allowed: USER is 1, or TELEMETRY is granted (19 R618 R623, 18
R608). -/
def State.pmuOpen (s : State) (req : Requester) (r : Reg) : Bool :=
  match req with
  | .host | .firmware | .bmc => true
  | .core _ | .remote _ =>
    match r with
    | .pmuCycle n | .pmuCtrl n | .pmuOvf n | .pmuPerm n | .pmuEvsel n _ | .pmuCnt n _ | .pmuSctrl n | .pmuSpill n
    | .pmuSstat n | .pmuMark n => decide (s.rf (.pmuPerm n) 0 1 = 1) || decide (s.sec.scopes % 4 ≠ 0)
    | .lathCycle _ | .lathCtrl _ | .lathOvf _ | .lathEvsel _ _ | .lathCnt _ _ =>
      decide (s.rf .lperm 0 1 = 1) || decide (s.sec.scopes % 4 ≠ 0)
    | _ => true

/-- The word that a requester reads at a local address of the register ranges, a multiple of 8: reserved addresses
read zero (00 R651), the buffers of 18 R599 R607 read their bytes, and RECOVERY reaches only those and SEC_ registers
(18 R598). -/
def State.regWordAt (s : State) (req : Requester) (a : Nat) : Word :=
  if s.sec.recovery ∧ ¬ (lathBase + 0xF00 ≤ a ∧ a < lathBase + 0xF40)
      ∧ ¬ (lathBase + 0x100000 ≤ a ∧ a < lathBase + 0x112000) then 0
  else if lathBase + 0x100000 ≤ a ∧ a < lathBase + 0x110000 then
    BitVec.ofNat 64 (leNat ((List.range 8).map fun i => mapGet s.sec.img (a - (lathBase + 0x100000) + i) 0))
  else if lathBase + 0x110000 ≤ a ∧ a < lathBase + 0x112000 then
    BitVec.ofNat 64 (leNat ((List.range 8).map fun i => mapGet s.sec.rsp (a - (lathBase + 0x110000) + i) 0))
  else match regAt a with
    | some r => if s.pmuOpen req r then s.readReg r else 0
    | none => 0

/-- A read of `len` bytes of the register ranges (00 R10). -/
def State.readRegs (s : State) (req : Requester) (a len : Nat) : List Byte :=
  (List.range len).map fun i =>
    BitVec.ofNat 8 ((s.regWordAt req ((a + i) / 8 * 8)).toNat / 2 ^ (8 * ((a + i) % 8)))

end Sys2Proof.Machine
end

