-- ==== Sys2Proof/Machine/Reset.lean ====
section
/-!
DEFINITION. The resets of the device (03 R133-R139): the full Lath reset and the reset of the PCI Express function
(14 R486), with the unlock log's record (18 R610) that the end of a scope leaves.
-/

namespace Sys2Proof.Machine

/-- A record of the unlock log (18 R610): start count, scopes, slot, result, the first 16 bytes of the nonce, and
zero bytes up to 64; UNLOCK_CHAIN takes it in. What follows the named items is the model's (log entry 9). -/
def State.unlockRec (s : State) (scopes slot result : Nat) (nonce : List Byte) : State :=
  let r := leBytes 4 s.flash.starts ++ leBytes 1 scopes ++ leBytes 1 slot ++ leBytes 1 result ++ [0]
    ++ nonce.take 16
  let r := r ++ List.replicate (64 - r.length) 0
  { s with flash := { s.flash with
      unlock := s.flash.unlock ++ [r], chain := Config.sha384 (s.flash.chain ++ r) } }

/-- A record of a REQUEST and of what a SUBMIT comes to: it holds the nonce of the moment. -/
def State.unlockLog (s : State) (scopes slot result : Nat) : State :=
  s.unlockRec scopes slot result (s.sec.nonce.getD [])

/-- Every granted scope ends (18 R606): a record for each grant, with its own slot and nonce (R610). -/
def State.endGrants (s : State) (result : Nat) : State :=
  let t := s.sec.grants.foldl (fun (t : State) (g : Grant) => t.unlockRec g.scopes g.slot result g.nonce) s
  { t with sec := { t.sec with scopes := 0, grants := [] } }

/-- A nonce is void at any reset (18 R607). -/
def State.voidNonce (s : State) : State := { s with sec := { s.sec with nonce := none } }

/-- Every scope ends, and the nonce is void: at a reset, a start, and the entry to module asleep (18 R606 R607). -/
def State.endScopes (s : State) : State := (s.endGrants 0).voidNonce

/-- The register that a full Lath reset leaves: ORDER and HEAD keep with the error log's ring until a start (16 R555). -/
def keptReg (a : Nat) : Bool := a == Reg.errLog.addr

/-- The whole stack is reset, Skim included (03 R133): traffic is discarded with no status, hawks and hod read zero
with no poison (R139), the render cache's lines are discarded (04 R161), Roller buffers clear (11 R398), the function
and its launch slots are reset; render cells stay. No class bit of MC_ERR_STATUS is left, so ALERT_N is released (16 R556). -/
def State.fullReset (s : State) : State :=
  let s := s.endScopes
  { s with
    regs := s.regs.filter fun e => keptReg e.1
    mem := s.mem.filter fun e => decide (e.1 < 2 ^ 45)
    poison := s.poison.filter fun m => decide (m < 2 ^ 42)
    cores := [], slices := [], rcMib := 0, rc := [], rcWait := [], seen := [], rub := Rub.zero, vcs := [], sites := []
    west := HalfS.zero, east := HalfS.zero, rollers := [], seqs := [], disarming := [], rows := [], refreshDue := []
    colls := [], deferred := [], ports := [], tx := [], rx := [], slots := [], fires := 0, orphans := [], msix := [], cfg := []
    aer := false
    pmus := [], remaps := [], retired := [], repairs := []
    power := { Power.zero with turns := s.power.turns }
    pins := { s.pins with alert := false }
    sec := { s.sec with fwStep := 0, fwCmd := none, dbgCmd := none, nonce := none, recovery := false, mgtPend := [] } }

/-- A full Lath reset after which the next start is COLD (15 R509). -/
def State.coldReset (s : State) : State := { s.fullReset with trip := true }

/-- A power loss while a firmware command runs (18 R600 R601): a BEGIN leaves the inactive bank without its valid mark, which
a WRITE and a FINISH in their order find cleared; an ACTIVATE of a valid bank leaves either bank active; a COMMIT leaves some
count up to the running SVN. -/
def State.cutFw (s : State) : State :=
  let i := !s.sec.activeB
  let k := s.sec.bank i
  let o := s.otp.rollback
  let n := Config.cutAt s.free
  match s.sec.fwCmd with
  | none => s
  | some c =>
    if c.cmd = 1 then { s with sec := s.sec.setBank i { k with valid := false } }
    else if c.cmd = 4 then
      { s with free := s.free + 1, sec := { s.sec with activeB := if k.ok s.otp ∧ n % 2 = 1 then i else s.sec.activeB } }
    else if c.cmd = 5 ∧ !s.sec.recovery then
      { s with free := s.free + 1, otp := { s.otp with rollback := o + n % (max o s.sec.runSvn - o + 1) } }
    else s

/-- A loss of 48 V (20 R641): a full Lath reset, render contents lost, the next start COLD. -/
def State.lose48 (s : State) : State :=
  let s := s.cutFw.coldReset
  { s with mem := [], poison := [], flash := { s.flash with losses := min (s.flash.losses + 1) 255 } }

end Sys2Proof.Machine
end

