-- ==== Sys2Proof/Machine/RegWrite.lean ====
section
/-!
DEFINITION. A write of a register: the fields' new values (00 R4-R6 R10 R650) and the actions that the registers'
descriptions start.
-/

namespace Sys2Proof.Machine

/-! ### Sampling (19 R624-R629) -/

/-- The sampling state of a core's site. -/
def State.pmu (s : State) (lc : Nat) : Pmu := mapGet s.pmus (s.siteOf lc) Pmu.zero

/-- The state with the sampling state of a core's site. -/
def State.setPmu (s : State) (lc : Nat) (p : Pmu) : State := { s with pmus := mapSet s.pmus (s.siteOf lc) p }

/-- The LOST record that precedes the first record after a drop (R628). -/
def lostRec (cycle : Word) (n : Nat) : Sample := ⟨cycle, BitVec.ofNat 64 (2 * 2 ^ 52), 0, 0, BitVec.ofNat 64 n⟩

/-- A record enters the buffer, or is dropped and counted when it does not fit (R628). -/
def State.sample (s : State) (lc : Nat) (r : Sample) : State :=
  let p := s.pmu lc
  let need := if p.lost = 0 then 1 else 2
  if p.buf.length + need ≤ 256 then
    s.setPmu lc { p with
      buf := p.buf ++ (if p.lost = 0 then [r] else [lostRec r.cycle p.lost, r]), lost := 0 }
  else ((s.setPmu lc { p with lost := p.lost + 1 }).incRf (.pmuSstat lc) 16 16 1).event lc 0x41 1

/-- The 32 bytes of a sample record (R626). -/
def Sample.bytes (r : Sample) : List Byte :=
  leBytes 8 r.cycle.toNat ++ leBytes 8 r.info.toNat ++ leBytes 4 r.insn.toNat ++ leBytes 4 r.tkwait.toNat
    ++ leBytes 8 r.lat.toNat

/-- A retune window of the core's site is open: a wake waits for its end (03 R121). -/
def State.windowOpen (s : State) (lc : Nat) : Bool :=
  match (s.site (s.siteOf lc)).win with
  | .open | .forced => true
  | _ => false

/-- The oldest n records, at most 128, are copied into the next 16 rows of the spill ring, which wraps (R627): granules that the
Mover performed, and rows that the slice wrote (R622 R623). -/
def State.spill (s : State) (lc n : Nat) : State :=
  let p := s.pmu lc
  let k := min (min n 128) p.buf.length
  let bs := (p.buf.take k).flatMap Sample.bytes
  let row := s.rf (.pmuSpill lc) 0 16 + p.ring
  let rows := s.rf (.pmuSpill lc) 32 16
  let s := ((s.writeRun (hodKey (s.siteOf lc) row 0) bs).event lc 0x28 ((k + 1) / 2)).lathEvent (s.siteOf lc) 2 ((k + 7) / 8)
  let s := s.setPmu lc { p with buf := p.buf.drop k, ring := if p.ring + 16 < rows then p.ring + 16 else 0 }
  s.setRf (.pmuSstat lc) 32 32 (s.rf (.pmuSstat lc) 32 32 + (k + 7) / 8)

/-- Records wait for a spill: 128 of them (R627), or any number once sampling is off (R629). -/
def State.spillWaits (s : State) (lc : Nat) : Bool :=
  let n := (s.pmu lc).buf.length
  decide (128 ≤ n) || (decide (0 < n) && decide (s.rf (.pmuSctrl lc) 0 1 = 0))

/-- They wait, and no retune window delays the spill. -/
def State.spillDue (s : State) (lc : Nat) : Bool := s.spillWaits lc && !s.windowOpen lc

/-- The ring of a core is valid (R629). -/
def State.ringOk (s : State) (lc : Nat) (w : Word) : Bool :=
  let rows := fld w 32 16
  let row := fld w 0 16
  decide (row % 16 = 0) && decide (rows % 16 = 0) && decide (16 ≤ rows) && decide (row + rows ≤ s.rowsUsed)
    && s.slices.contains (s.siteOf lc)

/-- A write of PMU_SCTRL (R624 R629): EN 1 starts sampling when the ring is valid, else sets SPILL_ERR; EN 0 spills
the records held, at once or when the retune window that delays the spill is over (R627). -/
def State.writeSctrl (s : State) (lc : Nat) (w : Word) (en : Bool) : State :=
  if en then
    if bitAt w 0 then
      if s.ringOk lc (s.reg (.pmuSpill lc)) then
        (s.setReg (.pmuSctrl lc) w).setPmu lc { s.pmu lc with count := 0, ring := 0 }
      else (s.setReg (.pmuSctrl lc) (setFld w 0 1 0)).setRf (.pmuSstat lc) 15 1 1
    else
      let s := s.setReg (.pmuSctrl lc) w
      let s := if s.spillDue lc then s.spill lc 128 else s
      if s.spillDue lc then s.spill lc 128 else s
  else s.setReg (.pmuSctrl lc) w

/-- A store to PMU_MARK (R626): a MARK record while sampling is enabled. -/
def State.mark (s : State) (lc : Nat) (v : Word) : State :=
  if s.rf (.pmuSctrl lc) 0 1 = 1 then
    s.sample lc ⟨s.reg (.pmuCycle lc), BitVec.ofNat 64 ((s.core lc).pc.toNat + 7 * 2 ^ 48 + 2 ^ 52), 0, 0, v⟩
  else s

/-! ### The other actions -/

/-- READY (15 R514). -/
def State.ready (s : State) : Bool := decide (s.rf .mcStart 8 1 = 1)

/-- READY is 1 and the module is not asleep, when what 15 R513 holds back may be done (17 R571). -/
def State.up (s : State) : Bool := s.ready && decide (s.rf .pwrState 12 1 = 0)

/-- A write of STC_KV_CONFIG (10 R362): the conditions of EN are judged on what held before the access, BASE among them (00
R650). -/
def State.writeKv (s : State) (w : Word) (en : Bool) : State :=
  let old := s.reg .kvConfig
  if bitAt old 0 then
    if en && !bitAt w 0 && decide (s.holdsNow = 0) && s.deferred.isEmpty then s.setReg .kvConfig (setFld old 0 1 0)
    else s
  else
    let base := fld old 20 24 * 2 ^ 20
    let ok := en && bitAt w 0 && decide (0x10000000000 ≤ base) && decide (base + 0x5FFFFF ≤ s.hodTop)
    s.setReg .kvConfig (setFld w 0 1 (b2n ok))

/-- The device number rule of 13 R458: a device number below SYS_DEVICES, and in a panel a position below
PANEL_SIZE. -/
def devOk (ident : Word) (dev : Nat) : Bool :=
  decide (dev < fld ident 32 13) && (bitAt ident 45 || decide (dev % 16 < fld ident 24 5))

/-- A write of 1 to KLK_CTRL.EN: takes effect when R458 holds and the device is READY and not asleep (13 R480 R481, 15 R513,
17 R571). -/
def State.klkEnable (s : State) : State :=
  if s.up ∧ devOk (s.reg .klkIdent) (s.rf .klkIdent 0 12) then s.setRf .klkCtrl 0 1 1 else s

/-- The range that a space of a rub-down covers, in granules (16 R552): none when BASE and LEN leave it. -/
def State.rubRange (s : State) (space base len : Nat) : Option Nat :=
  let within (lo hi : Nat) : Option Nat := if lo ≤ base ∧ base + len ≤ hi ∧ 64 ≤ len then some (len / 64) else none
  match space with
  | 0 => within 0 (2 ^ 39)
  | 1 => within (2 ^ 39) (2 ^ 40)
  | 2 => within 0x10000000000 (s.hodTop + 1)
  | 3 => some (s.sliceCount * 49160 * 4)
  | 4 => within 0x10100000000 (0x10100000000 + s.inForce * 0x400000)
  | _ => none

/-- The summary of a rub-down at DEST (16 R554): the list and words w0-w6 first, w7 after them. -/
def State.rubSummary (s : State) (status : Nat) : State :=
  let r := s.rub
  let dest := s.rf .rubDest 0 44
  let s := s.writeMem none (dest + 64) (r.list.flatMap fun w => leBytes 8 w.toNat)
  let s := s.writeMem none dest (leBytes 8 r.scanned ++ leBytes 8 r.corrected ++ leBytes 8 r.uncorr
    ++ leBytes 8 r.poisoned ++ leBytes 8 r.patched ++ leBytes 8 r.unpatched ++ leBytes 4 r.list.length
    ++ leBytes 4 r.unlisted)
  s.writeMem none (dest + 56) (leBytes 8 (status + r.run % 2 ^ 32 * 2 ^ 32))

/-- A rub-down ends with a status: its summary is written, GO returns to 0 (16 R553 R554 R557). -/
def State.rubEnd (s : State) (status : Nat) : State :=
  ((s.rubSummary status).setRf .rubCtrl 40 8 status).setRf .rubCtrl 0 1 0

/-- The local address of a cell key in the space of a rub-down: the first address of its 64-byte granule. A hod row that
no address reaches takes the address that the interleave would give it (log entry 33). -/
def State.rubAddr (s : State) (space key : Nat) : Option Nat :=
  let k := key / 64 * 64
  let g : Option Nat :=
    if 2 ^ 47 ≤ k then (if space = 0 then some (k - 2 ^ 47) else none)
    else if 2 ^ 46 ≤ k then
      let site := (k - 2 ^ 46) / 2 ^ 24
      match s.slices.idxOf? site with
      | some j =>
        if space = 2 ∨ space = 3 then
          some (0x10000000000 + ((k - 2 ^ 46) % 2 ^ 24 / 256 * s.sliceCount + j) * 256 + k % 256)
        else none
      | none => none
    else if 2 ^ 45 ≤ k then
      (if space = 4 then (s.lcAt ((k - 2 ^ 45) / 2 ^ 21)).map fun n => 0x10100000000 + n * 0x400000 + (k - 2 ^ 45) % 2 ^ 21
       else none)
    else if space = 0 then some (plumbToIlv k) else if space = 1 then some (2 ^ 39 + k) else none
  g

/-- The first address of the range of the rub-down in progress. -/
def State.rubStart (s : State) : Nat := if s.rub.space = 3 then 0x10000000000 else s.rf .rubBase 0 44

/-- The granules of an address range that a rub-down reads: in hawk windows those of cores that are reached. -/
def State.rubCount (s : State) (lo n : Nat) : Nat :=
  if s.rub.space = 4 then
    ((List.range s.inForce).filter fun c => !s.failed c).foldl (fun (m : Nat) (c : Nat) =>
      let w := 0x10100000000 + c * 0x400000
      m + (min (lo + 64 * n) (w + 0x200000) - max lo w) / 64) 0
  else n

/-- The addresses of a slice's row, by granule. -/
def State.rowAddrs (s : State) (space site row : Nat) : List Nat :=
  (List.range 4).filterMap fun i => s.rubAddr space (hodKey site row (64 * i))

/-- The granules whose reads find something, by address: those that read poisoned, and those of the errors. Cached lines and
spare rows in use stand beside the cells. -/
def State.rubFinds (s : State) (errs : List MemErr) : NSet :=
  let sp := s.rub.space
  let marks := s.poison.filterMap fun m => s.rubAddr sp (8 * m)
  let lines := s.rc.flatMap fun (x : Nat × List RcLine) => x.2.zipIdx.flatMap fun (l : RcLine × Nat) =>
    if sp = 0 then (List.range 4).map fun i => l.1.tag * 256 + 64 * i
    else if sp = 3 then s.rowAddrs 3 (s.slices.getD (x.1 / 2048) 0) (s.rowsUsed + 16 * (x.1 % 2048) + l.2)
    else []
  let spares := if sp = 3 then s.hodPatch.flatMap fun (x : Nat × List Patch) => (sparesOf x.2).flatMap fun (q : Patch × Nat) =>
      s.rowAddrs 3 x.1 q.2
    else []
  (marks ++ lines ++ spares ++ errs.filterMap fun e => s.rubAddr sp e.key).foldl setAdd []

/-- An entry of the list (16 R554), or one more that found no room. -/
def Rub.note (r : Rub) (room a kind : Nat) : Rub :=
  if r.list.length < room then { r with list := r.list ++ [BitVec.ofNat 64 (a + kind * 2 ^ 44)] }
  else { r with unlisted := r.unlisted + 1 }

/-- The table of a hard location has room (16 R548 R551): a hawk has none; a cached copy stands in a hod row. -/
def State.patchRoom (s : State) (place : Nat) : Bool :=
  let row (site : Nat) : Bool := decide ((mapGet s.hodPatch site []).length < 8)
  if 2 ^ 47 ≤ place then row (s.rcRow ((place - 2 ^ 47) / 256)).1
  else if 2 ^ 46 ≤ place then row ((place - 2 ^ 46) / 2 ^ 24)
  else if 2 ^ 45 ≤ place then false
  else decide ((mapGet s.rndPatch (chanOf place) []).length < 16)

/-- A granule at a place reads poisoned (16 R543). -/
def State.gran64 (s : State) (place : Nat) : Bool :=
  if 2 ^ 47 ≤ place then s.cacheDead (place - 2 ^ 47) else s.runPoisoned (place / 64 * 64) 64

/-- A granule that a rub-down reads, by its address, reads poisoned: in SPACE 3 by its row, else through the views, the render
cache looked up for the interleaved one. -/
def State.reads64 (s : State) (a : Nat) : Bool :=
  if s.rub.space = 3 then
    let n := (a - 0x10000000000) / 256
    s.gran64 (s.rowRead (s.slices.getD (n % s.sliceCount) 0) (n / s.sliceCount) (a % 256))
  else match s.resolve none a with
    | .render p (some x) => if s.cached x then s.gran64 (cacheKey x) else s.gran64 p
    | .render p none => s.gran64 p
    | .hawk _ k | .hod k => s.gran64 k
    | _ => false

/-- What the errors of a granule come to: the state, whether a word was corrected and one poisoned, and the entries of the list
for hard locations. -/
structure RubRead where
  s : State
  fixed : Bool
  bad : Bool
  hard : List (Nat × Nat)

/-- One error of the granule at an address is met as any read meets it (16 R552): a clean cached line that is dropped poisons
nothing (04 R160); a row's patch is listed at the row's first granule. -/
def RubRead.meets (y : RubRead) (a : Nat) (e : MemErr) : RubRead :=
  let k := y.s.errPlace e.key
  let unc := e.kind == .uncorr || e.kind == .hardUncorr
  let hard := e.kind == .hard || e.kind == .hardUncorr
  if y.s.errDead k then y
  else
    { s := y.s.meetErr e, fixed := y.fixed || e.kind == .soft || e.kind == .hard, bad := y.bad || (unc && !y.s.cleanCopy k)
      hard := y.hard ++ if !hard then [] else if y.s.patchRoom k then [(if 2 ^ 46 ≤ k then a / 256 * 256 else a, 3)]
        else [(a, 4)] }

/-- One granule that finds something: poison that stood there, and its errors, corrected, poisoned and patched as any read
does (16 R552 R554). -/
def State.rubGranule (s : State) (a : Nat) (errs : List MemErr) : State :=
  let room := s.rf .rubDest 48 16
  let was := s.reads64 a
  let y := (errs.filter fun e => s.rubAddr s.rub.space e.key == some a).foldl (fun (y : RubRead) (e : MemErr) => y.meets a e)
    ⟨s, false, false, []⟩
  let note (b : Bool) (k : Nat) : List (Nat × Nat) := if b then [(a, k)] else []
  let r := (note was 2 ++ note y.bad 1 ++ y.hard).foldl (fun (r : Rub) (n : Nat × Nat) => r.note room n.1 n.2) s.rub
  let count (k : Nat) : Nat := (y.hard.filter fun n => n.2 == k).length
  { y.s with rub := { r with
      corrected := r.corrected + b2n y.fixed, uncorr := r.uncorr + b2n y.bad, poisoned := r.poisoned + b2n was
      patched := r.patched + count 3, unpatched := r.unpatched + count 4 } }

/-- The next n granules of a rub-down are read, in ascending address order. -/
def State.rubScan (s : State) (n : Nat) (errs : List MemErr) : State :=
  let lo := s.rubStart + 64 * s.rub.pos
  let hi := lo + 64 * n
  let s := (s.rubFinds errs).foldl (fun (s : State) (a : Nat) =>
    if lo ≤ a ∧ a < hi then s.rubGranule a errs else s) s
  { s with rub := { s.rub with pos := s.rub.pos + n, scanned := s.rub.scanned + s.rubCount lo n } }

/-- A rub-down ends before its range does, after granules whose number timing decides, a free value (16 R553). -/
def State.rubCut (s : State) (errs : List MemErr) (status : Nat) : State :=
  let n := Config.elapsed s.free % (s.rub.total + 1 - s.rub.pos)
  ({ s with free := s.free + 1 }.rubScan n errs).rubEnd status

/-- A write of 1 to LATH_RUB_CTRL.GO (16 R552). -/
def State.rubGo (s : State) : State :=
  let space := s.rf .rubCtrl 8 3
  let run := s.rub.run + 1
  match s.rubRange space (s.rf .rubBase 0 44) (s.rf .rubLen 0 44) with
  | some n =>
    ({ s with rub := { Rub.zero with total := n, space := space, run := run } }.setRf .rubCtrl 40 8 1).setRf .rubCtrl 0 1 1
  | none => { s with rub := { Rub.zero with space := space, run := run } }.rubEnd 4

/-- A write of LATH_RUB_CTRL (16 R552 R553 R557): GO while not BUSY, STOP while BUSY; the errors that the granules already read
have met are a free value (log entry 130). -/
def State.writeRub (s : State) (w : Word) (go stop : Bool) : State :=
  let busy := decide (s.rf .rubCtrl 40 8 = 1)
  let s := s.setReg .rubCtrl (setFld w 0 1 (s.rf .rubCtrl 0 1))
  if go && !busy then s.rubGo else if stop && busy then s.rubCut (Config.cutErrs s.free) 5 else s

/-- A write of 1 to MC_REMAP.GO queues a request with the LC of the same write (15 R528 R534, 00 R650). -/
def State.writeRemap (s : State) (w : Word) (go : Bool) : State :=
  if !s.up then s
  else if go then
    { s.setReg .mcRemap (setFld (setFld w 4 1 1) 0 4 1) with remaps := s.remaps ++ [fld w 8 8] }
  else s.setReg .mcRemap w

/-- A write of 1 to PMU_PERM.SAVE stores the USER of the same write, unless LOCK was 1 before (19 R630). -/
def State.writePerm (s : State) (r : Reg) (w : Word) (save : Bool) : State :=
  let locked := decide (s.rf r 1 1 = 1)
  let s := s.setReg r w
  if save && !locked then { s with flash := { s.flash with user := bitAt w 0 } } else s

/-- The bytes of the image buffer (18 R599). -/
def Sec.imgBytes (x : Sec) : List Byte := memGets x.img 0 65536

/-- The lead of a panel forwards a firmware command to every member, with CHUNK, and the image buffer's bytes for a WRITE (18
R602 R614, 13 R468 R469). -/
def State.forwardFw (s : State) (cmd chunk : Nat) : State :=
  let id := s.reg .klkIdent
  if bitAt id 45 ∨ fld id 0 4 ≠ 0 then s
  else
    let ms := (List.range (fld id 24 5)).drop 1
    let image := if cmd = 2 then s.sec.imgBytes else []
    let s := ms.foldl (fun (s : State) (j : Nat) => (s.send (.mgt j cmd chunk image)).sendMgt j (mgtMessage cmd chunk image)) s
    { s.setRf .fwStatus 48 16 0 with sec := { s.sec with mgtPend := ms } }

/-- A write of a command to SEC_FW_CTRL (18 R599 R612 R614): BUSY, or the command starts. -/
def State.writeFw (s : State) (w : Word) (cmd : Nat) : State :=
  if ¬ (1 ≤ cmd ∧ cmd ≤ 6) then s.setReg .fwCtrl w
  else if s.sec.fwCmd.isSome then s.setRf .fwStatus 0 8 2
  else
    ((s.setReg .fwCtrl w).setRf .fwStatus 8 1 1).setRf .fwStatus 0 8 0 |> fun s =>
      (fun (s : State) => if bitAt w 16 then s.forwardFw cmd (fld w 8 8) else s) { s with sec := { s.sec with
          fwCmd := some { cmd := cmd, panel := bitAt w 16, chunk := fld w 8 8, slot := 0, scope := 0 } } }

/-- Debug scopes end by RELOCK, logged, a grant of SCAN with a full Lath reset by MC command (18 R606 R612). -/
def State.relock (s : State) : State :=
  if bitAt (BitVec.ofNat 3 s.sec.scopes) 2 then s.fullReset
  else s.endGrants 1

/-- A write of a command to SEC_DBG_CTRL (18 R607 R611 R612 R615). -/
def State.writeDbg (s : State) (w : Word) (cmd : Nat) : State :=
  if cmd = 3 then
    (if s.sec.dbgCmd.isSome then s.setReg .dbgCtrl w else (s.setReg .dbgCtrl w).setRf .dbgCtrl 16 8 1).relock
  else if ¬ (1 ≤ cmd ∧ cmd ≤ 4) then s.setReg .dbgCtrl w
  else if s.sec.dbgCmd.isSome then s.setRf .dbgCtrl 16 8 2
  else
    ((s.setReg .dbgCtrl w).setRf .dbgCtrl 24 1 1).setRf .dbgCtrl 16 8 0 |> fun s =>
      { s with sec := { s.sec with
          dbgCmd := some { cmd := cmd, panel := false, chunk := 0, slot := fld w 12 4, scope := fld w 4 3 } } }

/-! ### Who may write, and the LOCK bits (00 R6 R7) -/

/-- The LOCK bit that governs a register's RWL fields is 1, and no CORE_DEBUG scope is granted (00 R6, 18 R608). -/
def State.locked (s : State) (r : Reg) : Bool :=
  (match r with
    | .vcPolicy => decide (s.rf .vcPolicy 63 1 = 1)
    | .scrCfg => decide (s.rf .scrCfg 0 1 = 1)
    | .klkIdent | .klkCfg => decide (s.rf .klkCtrl 16 1 = 1)
    | .pmuPerm n => decide (s.rf (.pmuPerm n) 1 1 = 1)
    | .lperm => decide (s.rf .lperm 1 1 = 1)
    | _ => false) && decide (s.sec.scopes / 2 % 2 = 0)

/-- A start has loaded the fields that the Reset column marks FW (00 R9): the start count of MC_START is no longer 0. -/
def State.loaded (s : State) : Bool := decide (s.rf .mcStart 32 32 ≠ 0)

/-- A requester may write a register: none but firmware reaches a register with an FW field before a start has loaded it
(00 R9); programs write counting registers while USER allows and PMU_PERM never (19
R618 R623); board management writes MC_FINISH and KLK_IDENT over I3C, once the MC has its supply
and its dynamic address (17 R562, 13 R458, 20 R634); in RECOVERY only SEC_
registers are reached (18 R598). -/
def State.mayWrite (s : State) (req : Requester) (r : Reg) : Bool :=
  (match req with
    | .core _ | .remote _ => (match r with
        | .pmuPerm _ | .lperm => false
        | _ => s.pmuOpen req r)
    | .bmc => s.pins.aux && s.pins.i3c.isSome && (match r with
        | .finish | .klkIdent => true
        | _ => false)
    | .host | .firmware => true)
  && (s.loaded || req == .firmware || !r.fw)
  && (!s.sec.recovery || (match r with
        | .secState | .fwCtrl | .fwStatus | .dbgCtrl | .nonce _ => true
        | _ => false))

/-- The bits of a write that a requester may not set: the LOCK bits that the host alone may set (03 R131, 12 R445, 19
R630). -/
def lockBits (req : Requester) (r : Reg) : Nat :=
  if req = .host then 0
  else match r with
    | .vcPolicy => 2 ^ 63
    | .scrCfg => 1
    | .pmuPerm _ | .lperm => 2
    | _ => 0

/-- A write of KLK_CFG (13 R482): a port whose PORTEN bit is cleared is OFF, and carries nothing; one that was OFF and
whose bit is set trains (R483). -/
def State.writeKlkCfg (s : State) (w : Word) : State :=
  (List.range 16).foldl (fun (s : State) (p : Nat) =>
    if bitAt w (32 + p) then (if s.portState p = 0 ∧ !s.portGone p then s.setRf (.klkStatus p) 0 4 1 else s)
    else if s.portState p = 0 then s
    else (s.setPort p (s.port p).clear).setReg (.klkStatus p) 0) (s.setReg .klkCfg w)

/-- A register write, with the bytes it covers as a mask of bits. -/
def State.applyReg (s : State) (r : Reg) (data : Word) (mask : Nat) : State :=
  let old := s.reg r
  let w := regNew r old data mask (s.locked r)
  let set (i : Nat) : Bool := decide (mask / 2 ^ i % 2 = 1) && bitAt data i
  let hit (i : Nat) : Bool := decide (mask / 2 ^ i % 2 = 1)
  let cmd := (mask % 16) &&& fld data 0 4
  match r with
  | .faultMask n =>
    let c := s.core n
    s.setCore n { c with faultMask := (regNew r (c.faultMask.setWidth 64) data mask false).setWidth 5 }
  | .coreCtrl n => if set 0 then s.stopCore n else s
  | .pmuSctrl n => s.writeSctrl n w (hit 0)
  | .pmuMark n => s.mark n (data &&& BitVec.ofNat 64 mask)
  | .pmuPerm _ | .lperm => s.writePerm r w (set 2)
  | .rcConfig => { s.setReg r w with flash := { s.flash with nextMib := BitVec.ofNat 3 (fld w 0 3) } }
  | .kvConfig => s.writeKv w (hit 0)
  | .kvRegion _ => if s.rf .kvConfig 0 1 = 1 then s else s.setReg r w
  | .klkCtrl => if set 0 then s.klkEnable else s
  | .klkCfg => s.writeKlkCfg w
  | .pciSlot i =>
    if s.rf r 32 2 = 0 ∧ (mapGet s.slots i Slot.zero).written = [] then s.setReg r w else s
  | .mcRemap => s.writeRemap w (set 4)
  | .rubCtrl => s.writeRub w (set 0) (set 1)
  | .rubBase | .rubLen | .rubDest => if s.rf .rubCtrl 40 8 = 1 then s else s.setReg r w
  | .errStatus => (s.setReg r w).alertNow
  | .finish => { s.setReg r w with power := { s.power with reqWaits := s.power.reqWaits || hit 0 } }
  | .fwCtrl => s.writeFw w cmd
  | .dbgCtrl => s.writeDbg w cmd
  | _ => s.setReg r w

/-- A write of bytes to the register ranges (00 R10): 8 bytes or 4 bytes aligned, any other size is ignored; a
reserved address ignores it (R651); the buffers of 18 R599 R607 take any size. -/
def State.writeRegs (s : State) (req : Requester) (a : Nat) (bs : List Byte) : State :=
  let n := bs.length
  if lathBase + 0x100000 ≤ a ∧ a + n ≤ lathBase + 0x110000 then
    { s with sec := { s.sec with img := memPuts s.sec.img (a - (lathBase + 0x100000)) bs } }
  else if lathBase + 0x110000 ≤ a ∧ a + n ≤ lathBase + 0x112000 then
    { s with sec := { s.sec with rsp := memPuts s.sec.rsp (a - (lathBase + 0x110000)) bs } }
  else if ¬ ((n = 8 ∧ a % 8 = 0) ∨ (n = 4 ∧ a % 4 = 0)) then s
  else match regAt (a / 8 * 8) with
    | some r =>
      if s.mayWrite req r then
        let sh := 8 * (a % 8)
        let mask := (2 ^ (8 * n) - 1) * 2 ^ sh
        s.applyReg r (BitVec.ofNat 64 (leNat bs * 2 ^ sh)) (mask - (mask &&& lockBits req r))
      else s
    | none => s

/-- A write of all eight bytes of a register: what the rows named after one register do; none at a failed core (14
R490). -/
def State.writeReg8 (s : State) (req : Requester) (r : Reg) (data : Word) : State :=
  match s.resolve none r.addr with
  | .reg _ => s.writeRegs req r.addr (leBytes 8 data.toNat)
  | _ => s

end Sys2Proof.Machine
end

