-- ==== Sys2Proof/Machine/Channel.lean ====
section
/-!
DEFINITION. The vertical channels (03 R102-R109): groups and lanes, the map from a word's bits to lanes, spares, widths and
ranks; a row that crosses, with the errors that it meets in transit (R105 R123 R130); the delay settings (R113).
-/

namespace Sys2Proof.Machine

/-! ### Groups and lanes (R102 R103 R106 R107 R124) -/

/-- The place of a direction of a site's channel. -/
def vcKey (site : Nat) (d : VcDir) : Nat := 2 * site + (if d = .up then 0 else 1)

/-- What a direction of a channel holds. -/
def State.vc (s : State) (site : Nat) (d : VcDir) : Vc := mapGet s.vcs (vcKey site d) Vc.zero

/-- The state with what a direction of a channel holds. -/
def State.setVc (s : State) (site : Nat) (d : VcDir) (v : Vc) : State := { s with vcs := mapSet s.vcs (vcKey site d) v }

/-- Functional lanes of a group: 288 of a data group, 22 of GC (R102). -/
def lanesOf (g : Nat) : Nat := if g < 8 then 288 else 22

/-- A lane of a group as one number. -/
def laneKey (g lane : Nat) : Nat := 512 * g + lane

/-- The functional lane that carries a code bit, 0-71, of a word of its group slot, 0-3 (R103). -/
def laneOfBit (word bit : Nat) : Nat := 4 * bit + word % 4

/-- The code bit that a functional lane carries, and the word of its group slot (R103). -/
def bitOfLane (lane : Nat) : Nat × Nat := (lane % 4, lane / 4)

/-- The trained point at which a site's half runs, or ran before its clock stopped (R112). -/
def State.pointOf (s : State) (site : Nat) : Nat := (s.half (halfOf site)).point

/-- The site is retired (R127). -/
def State.vcRetired (s : State) (site : Nat) (d : VcDir) : Bool := decide (s.rf (.vcStatus site d) 18 1 = 1)

/-- The site's vertical channels carry no row any more (R127). -/
def State.siteRetired (s : State) (site : Nat) : Bool := s.vcRetired site .up || s.vcRetired site .down

/-- A group is dead (R129); GC dies with the site. -/
def State.groupDead (s : State) (site : Nat) (d : VcDir) (g : Nat) : Bool :=
  if g < 8 then decide (s.rf (.vcGroup site d g) 36 1 = 1) else s.vcRetired site d

/-- Spares of a group in use (R102 R129). -/
def State.sparesUsed (s : State) (site : Nat) (d : VcDir) (g : Nat) : Nat :=
  if g < 8 then s.rf (.vcGroup site d g) 9 1 + s.rf (.vcGroup site d g) 21 1 else min 2 (s.vc site d).gcFails

/-- The functional lanes of a group whose failures its spares have taken up, in order (R124 R129). -/
def State.repaired (s : State) (site : Nat) (d : VcDir) (g : Nat) : List Nat :=
  if g < 8 then
    let r := s.reg (.vcGroup site d g)
    (if bitAt r 9 then [fld r 0 9] else []) ++ (if bitAt r 21 then [fld r 12 9] else [])
  else (s.vc site d).gcLanes

/-- The physical lane of a functional lane over a list of repaired lanes: each repair moves the lanes from the failed one
upward by one toward the spares (R124). -/
def physOf (fails : List Nat) (lane : Nat) : Nat := lane + (fails.filter fun f => decide (f ≤ lane)).length

/-- The physical lane that carries a functional lane of a group. -/
def State.physLane (s : State) (site : Nat) (d : VcDir) (g lane : Nat) : Nat := physOf (s.repaired site d g) lane

/-- The probe lane of a group: its lowest-numbered unused spare (R117). -/
def State.probeLane (s : State) (site : Nat) (d : VcDir) (g : Nat) : Option Nat :=
  if s.sparesUsed site d g < 2 then some (lanesOf g + s.sparesUsed site d g) else none

/-- Lanes of a group that failed and are not yet repaired. -/
def Vc.waiting (v : Vc) (g : Nat) : Nat := (v.failed.filter fun k => k / 512 == g).length

/-- A healthy group without a probe: no unused spare (R117 R119). -/
def State.probeless (s : State) (site : Nat) (d : VcDir) (g : Nat) : Bool :=
  !s.groupDead site d g && (s.probeLane site d g).isNone

/-- The site has a group that needs retune windows. -/
def State.needsWindow (s : State) (site : Nat) : Bool :=
  [VcDir.up, VcDir.down].any fun d => (List.range 9).any (s.probeless site d)

/-- The healthy data groups, lowest first. -/
def State.healthyGroups (s : State) (site : Nat) (d : VcDir) : List Nat :=
  (List.range 8).filter fun g => !s.groupDead site d g

/-- The number of healthy data groups. -/
def State.healthy (s : State) (site : Nat) (d : VcDir) : Nat := (s.healthyGroups site d).length

/-- The width code of R106. -/
def widthCode (healthy : Nat) : Nat := if healthy = 8 then 0 else if 4 ≤ healthy then 1 else if 2 ≤ healthy then 2 else 3

/-- Groups in use at a width code (R106). -/
def groupsAt (code : Nat) : Nat := if code = 0 then 8 else if code = 1 then 4 else if code = 2 then 2 else 1

/-- The groups in use, by rank: the lowest-numbered healthy ones that the width takes (R106 R107). -/
def State.inUse (s : State) (site : Nat) (d : VcDir) : List Nat :=
  (s.healthyGroups site d).take (groupsAt (widthCode (s.healthy site d)))

/-- The group that carries a group slot of a row: the one of rank i mod k, in cycle i div k of the row (R107). -/
def State.carrier (s : State) (site : Nat) (d : VcDir) (slot : Nat) : Nat :=
  (s.inUse site d).getD (slot % (s.inUse site d).length) slot

/-- HOD_VC_STATUS follows the groups: GROUP_DEAD, HEALTHY, NOPROBE, GC_SPARES_USED (R128). -/
def State.vcNote (s : State) (site : Nat) (d : VcDir) : State :=
  let dead := (List.range 8).foldl (fun m g => m + b2n (s.groupDead site d g) * 2 ^ g) 0
  let r := Reg.vcStatus site d
  let s := ((s.setRf r 0 8 dead).setRf r 8 4 (s.healthy site d)).setRf r 19 1
    (b2n ((List.range 9).any (s.probeless site d)))
  s.setRf r 20 1 (b2n (decide (1 ≤ (s.vc site d).gcFails)))

/-! ### Rows that cross (R105 R120 R123 R125 R126 R130) -/

/-- A retune window of a site is open. -/
def State.siteWindow (s : State) (site : Nat) : Bool :=
  match (s.site site).win with
  | .open | .forced => true
  | _ => false

/-- An error in transit at a site: the word of the row that it strikes, the code bit, and the microsecond (log entry 51). -/
structure Flip where
  word : Nat
  bit : Nat
  us : Nat
  deriving DecidableEq, Repr

/-- The errors in transit of a row that crosses a site's channel, among the errors of a command: they name the hawk byte of
the word that they strike. -/
def flipsOf (site : Nat) (errs : List MemErr) : List (Nat × Flip) :=
  errs.filterMap fun e => match e.kind with
    | .transit bit us =>
      if (e.key - 2 ^ 45) / 2 ^ 21 = site ∧ 2 ^ 45 ≤ e.key ∧ bit < 72 then some (e.key / 8, ⟨e.key % 256 / 8, bit, us⟩) else none
    | _ => none

/-- A word of the row fails its check as uncorrectable: two of its bits are struck (the SECDED(72,64) code of R103). -/
def tooMany (fs : List (Nat × Flip)) : Bool := fs.any fun f => fs.any fun g => f.1 == g.1 && f.2.bit != g.2.bit

/-- The lane that carries a bit of a word of a row: its group slot is word div 4 (R103 R107). -/
def State.laneHit (s : State) (site : Nat) (d : VcDir) (f : Flip) : Nat :=
  laneKey (s.carrier site d (f.word / 4)) (laneOfBit f.word f.bit)

/-- A corrected bit: its word is counted (R130), its lane counts it with its moment, the last eight being kept (R123), its
first correction is logged (16 R555), and a group without a probe needs a window (R119). -/
def State.correctFlip (s : State) (site : Nat) (d : VcDir) (f : Flip) : State :=
  let k := s.laneHit site d f
  let v := s.vc site d
  let s := s.setVc site d { v with errs := mapSet v.errs k ((f.us :: mapGet v.errs k []).take 8) }
  let s := (s.incRf (.vcCounts site d) 0 32 1).logFirst (2 ^ 50 + vcKey site d * 8192 + k) 3
    (locLane site d (k / 512) (k % 512)) 0
  if s.probeless site d (k / 512) then s.setSite site { s.site site with corr := true } else s

/-- Rows cross a channel, or wait: none crosses at a retired site (R127), during a window (R120 R122), while the half's
clock is stopped (R112), or before a width change that is due (R126); a word with two struck bits has its row replayed first
(R125). -/
def State.cross (s : State) (site : Nat) (d : VcDir) (errs : List MemErr) : Option State :=
  let fs := flipsOf site errs
  if s.siteRetired site || s.siteWindow site || (s.half (halfOf site)).stopped || (s.vc site d).widthDue || tooMany fs then
    none
  else
    let v := s.vc site d
    let s := if v.attempt = 0 then s else s.setVc site d { v with attempt := 0 }
    some (fs.foldl (fun s f => s.correctFlip site d f.2) s)

/-- Rows cross several channels, or all wait. -/
def State.crossAll (s : State) (cs : List (Nat × VcDir)) (errs : List MemErr) : Option State :=
  cs.foldl (fun r c => r.bind fun s => s.cross c.1 c.2 errs) (some s)

/-- A core reaches the Lath, and what lies beyond it, over its own channel (12 R416): an access to such a place crosses it. -/
def Loc.beyond (l : Loc) : Bool :=
  match l with
  | .render _ _ | .hod _ | .host _ => true
  | .reg _ => l.coreOf.isNone
  | _ => false

/-- An access of a core to a place crosses its channel, or waits; one that stays in the Skim crosses none. -/
def State.crossTo (s : State) (lc : Nat) (l : Loc) (d : VcDir) (errs : List MemErr) : Option State :=
  if l.beyond then s.cross (s.siteOf lc) d errs else some s

/-- Eight corrected errors of a lane lie within 1 ms (R123). -/
def Vc.struck (v : Vc) (k : Nat) : Bool :=
  let l := mapGet v.errs k []
  decide (8 ≤ l.length) && decide (l.headD 0 - l.getD 7 0 ≤ 1000)

/-- A lane has shown a corrected error within the last 1 ms (R125). -/
def Vc.recent (v : Vc) (k us : Nat) : Bool := (mapGet v.errs k []).any fun t => decide (t ≤ us) && decide (us - t ≤ 1000)

/-! ### Settings (R113 R114) -/

/-- The setting at the centre of an eye of all 128 settings: what a group holds where no other is listed. -/
def midSetting : Nat := 63

/-- A setting of a group by key: 9 * point + group the setting last used, 27 and on the setting as loaded. -/
def Vc.at (v : Vc) (key : Nat) : Int := (mapGet v.set key (BitVec.ofNat 64 midSetting)).toInt

/-- The drift that has gathered at a point since it was last used: keys 54 and on. -/
def Vc.drift (v : Vc) (key : Nat) : Int := (mapGet v.set (54 + key) 0).toInt

/-- The setting of a group: 32 times its offset, and its trim. -/
def State.setting (s : State) (site : Nat) (d : VcDir) (g : Nat) : Nat :=
  if g < 8 then s.rf (.vcGroup site d g) 45 2 * 32 + s.rf (.vcGroup site d g) 40 5
  else ((s.vc site d).at (9 * s.pointOf site + g)).toNat

/-- A group takes a setting, which is the one last used at this point. -/
def State.retune (s : State) (site : Nat) (d : VcDir) (g v : Nat) : State :=
  let x := s.vc site d
  let s := s.setVc site d { x with set := mapSet x.set (9 * s.pointOf site + g) (BitVec.ofNat 64 v) }
  if g < 8 then s.setRf (.vcGroup site d g) 40 7 v else s

/-- An eye that was measured: EYE, and MARGINAL below 6 steps (R118 R128). -/
def State.noteEye (s : State) (site : Nat) (d : VcDir) (g eye : Nat) : State :=
  if g < 8 then (s.setRf (.vcGroup site d g) 48 8 eye).setRf (.vcStatus site d) (24 + g) 1 (b2n (decide (eye < 6))) else s

/-! ### Points (R111-R113) -/

/-- A point's clock in MHz. -/
def pointMhz (p : Nat) : Nat := if p = 0 then 1550 else if p = 1 then 1900 else 2200

/-- Steps of a point in a unit of time common to the three: 1/32 cycle at point p is this many units. -/
def stepUnits (p : Nat) : Int := 1550 * 1900 * 2200 / (pointMhz p : Int)

/-- A quotient to the nearest whole number, a half upward. -/
def nearest (a b : Int) : Int := (2 * a + b).fdiv (2 * b)

/-- The setting that a group takes when its half changes from point `old` to `new` (R113): the setting last used at the
new point, shifted by the drift measured since then, converted at constant time. -/
def Vc.change (v : Vc) (old new g : Nat) : Vc × Nat :=
  let gone := (v.at (9 * old + g) - v.at (27 + 9 * old + g)) * stepUnits old
  let m := (List.range 3).foldl (fun m p =>
    if p = old then m else mapSet m (54 + 9 * p + g) (BitVec.ofInt 64 (v.drift (9 * p + g) + gone))) v.set
  let u : Vc := { v with set := m }
  let n := (max 0 (min 127 (u.at (9 * new + g) + nearest (u.drift (9 * new + g)) (stepUnits new)))).toNat
  let w : Word := BitVec.ofNat 64 n
  let m := mapSet (mapSet (mapSet m (9 * new + g) w) (27 + 9 * new + g) w) (54 + 9 * new + g) 0
  let m := mapSet m (27 + 9 * old + g) (BitVec.ofInt 64 (u.at (9 * old + g)))
  ({ v with set := m }, n)

/-- Every channel of a half loads its settings for the new point; none changes at the point at which it ran. -/
def State.loadSettings (s : State) (h : Half) (old new : Nat) : State :=
  if old = new then s
  else ((List.range 168).filter fun i => halfOf i = h).foldl (fun s i =>
    [VcDir.up, VcDir.down].foldl (fun s d =>
      (List.range 9).foldl (fun s g =>
        let (v, n) := (s.vc i d).change old new g
        let s := s.setVc i d v
        if g < 8 then s.setRf (.vcGroup i d g) 40 7 n else s) s) s) s

/-- LATH_CLK of a half. -/
def clkReg : Half → Reg
  | .west => .clkWest
  | .east => .clkEast

/-- A half takes a point: its channels load their settings for it (R112 R113). -/
def State.takePoint (s : State) (h : Half) (p : Nat) : State :=
  let s := s.loadSettings h (s.half h).point p
  s.setHalf h { s.half h with point := p }

/-! ### A half that wakes (17 R566-R569 R573) -/

/-- The bit of a half in MC_PWR_STATE (17 R590). -/
def offBit : Half → Nat
  | .west => 8
  | .east => 9

/-- The point that a half wakes at: its point of a change that has passed it, else that of the finish in force. -/
def State.wakePoint (s : State) (h : Half) : Nat :=
  let passed := match h, s.power.step with
    | .west, .east | .west, .rampDown | .east, .rampDown => true
    | _, _ => false
  if passed then s.power.target else s.rf .finish 4 2

/-- Render leaves self-refresh. -/
def State.wakeRender (s : State) : State := (s.setRf .pwrState 11 1 0).setRf .rlrState 16 8 0

/-- SCR_SEAM's WAIT bit of a half (12 R446). -/
def waitBit : Half → Nat
  | .west => 0
  | .east => 1

/-- The routers of a half forward, and no traffic waits for them any more (12 R412 R446). -/
def State.routersRun (s : State) (h : Half) : State :=
  (s.setHalf h { s.half h with routers := true, waiting := false }).setRf .scrSeam (waitBit h) 1 0

/-- A half that is off wakes, its routers with it, at the point that its clock has then; the hod leaves retention, since the
Skim is no longer off. While its clock is stopped in a change of point, POINT stays 3 until the change ends. -/
def State.wakeHalf (s : State) (h : Half) : State :=
  if s.halfOff h && decide (s.rf .pwrState 12 1 = 0) then
    let s := ((s.setRf .pwrState (offBit h) 1 0).setRf .pwrState 10 1 0).wakeRender
    let s := if (s.half h).stopped then s else (s.takePoint h (s.wakePoint h)).setRf (clkReg h) 0 2 (s.wakePoint h)
    s.routersRun h
  else s

/-- An access of the host, the MC or another device wakes the part that it needs: the half and the hawk of a core, for a
hawk window or control registers (17 R567 R568; the wait is time, log entry 58). -/
def State.wakePlace (s : State) (l : Loc) : State :=
  match l.coreOf with
  | some n =>
    let s := s.wakeHalf (halfOf (s.siteOf n))
    { s with power := { s.power with pgated := setDel s.power.pgated n } }
  | none => s

/-- An access of the host or of another device to places, each awake for it, is performed now (12 R413, 17 R567 R568), or
waits: for a half whose clock is stopped (03 R112), for a Roller's pass (11 R389), for the channel that a hawk's rows cross (03
R105 R120 R122, 13 R477). Its rows and reads meet errors. A wait leaves the command to be given again (log entry 118). -/
def State.letIn (s : State) (ls : List Loc) (d : VcDir) (errs : List MemErr) : Option State :=
  let s := ls.foldl State.wakePlace s
  let sites := (ls.filterMap fun l => match l with
    | .hawk n _ => some (s.siteOf n, d)
    | _ => none).eraseDups
  if ls.all fun l => !s.locHeld l && (match l.coreOf with
    | some n => s.accepts n
    | none => true) then (s.crossAll sites errs).map fun s => s.meet errs
  else none

/-! ### Traffic between cores (12 R407 R411 R416 R446, 19 R622) -/

/-- Traffic from a site to another passes the seam where they lie in different halves: the highest occupancy of a seam buffer
in its direction follows it, by a free number of its 32 flits (12 R411 R446, log entry 7). -/
def State.seamNote (s : State) (a b : Nat) : State :=
  let lo := if halfOf a = .west then 16 else 8
  if halfOf a = halfOf b then s
  else { s.setRf .scrSeam lo 8 (max (s.rf .scrSeam lo 8) (Config.held s.free % 32 + 1)) with free := s.free + 1 }

/-- Flits of a core go to another one: both count them, and the seam between them. -/
def State.flitsTo (s : State) (lc n : Nat) : State :=
  ((s.freeEvent lc 0x38).freeEvent n 0x39).seamNote (s.siteOf lc) (s.siteOf n)

/-- An access of a core to another one: its request, and the data or the acknowledgement that comes back (12 R407). -/
def State.carried (s : State) (lc n : Nat) : State := (s.flitsTo lc n).flitsTo n lc

/-- An access of a core to a place of another one is carried by the upper Scrim. -/
def State.reached (s : State) (lc : Nat) (l : Loc) : State :=
  match l.coreOf with
  | some n => if n = lc then s else s.carried lc n
  | none => s

end Sys2Proof.Machine
end

