-- ==== Sys2Proof/Machine/Issue.lean ====
section
/-!
DEFINITION. Issue of an instruction by the control core (02 R38 R62-R67): when the instruction at the PC may issue,
what every issue counts and samples, dispatch into a unit queue, scalar loads and stores.
-/

namespace Sys2Proof

/-! ### Operands of an instruction -/

/-- The descriptor registers that a unit instruction captures (02 R38), in the order of its chapter. -/
def UOp.descs : UOp → List (BitVec 4)
  | .trwMma f => [f.p.setWidth 4 * 2, f.p.setWidth 4 * 2 + 1, f.dt]
  | .trwDrain f => [f.dd]
  | .trwLdacc f => [f.dd]
  | .trwClr _ => []
  | .brsLdp f => [f.desc]
  | .brsRun f => [f.p.setWidth 4 * 2, f.p.setWidth 4 * 2 + 1]
  | .stcFwd f => [f.desc, f.desc + 1, f.desc + 2, f.desc + 3, f.desc + 4]
  | .stcBwd f => [f.desc, f.desc + 1, f.desc + 2, f.desc + 3, f.desc + 4, f.desc + 5]
  | .stcDec f => [f.desc, f.desc + 1]
  | .movRow _ f | .movBlk f | .movRcfl _ f | .movPutf f | .stcPtedit f | .stcBucket f | .rlrVld f | .rlrMv f
  | .rlrRd f | .rlrWr f | .scrMcast f | .scrRed f | .scrBar f | .scrFlag f => [f.desc]

/-- The wait and signal tickets of a unit instruction (02 R41). -/
def UOp.tickets : UOp → BitVec 6 × BitVec 6
  | .trwMma f => (f.tw, f.ts)
  | .trwDrain f => (f.tw, f.ts)
  | .trwLdacc f => (f.tw, f.ts)
  | .trwClr f => (f.tw, f.ts)
  | .brsLdp f => (f.tw, f.ts)
  | .brsRun f => (f.tw, f.ts)
  | .stcFwd f | .stcBwd f | .stcDec f | .movRow _ f | .movBlk f | .movRcfl _ f | .movPutf f | .stcPtedit f
  | .stcBucket f | .rlrVld f | .rlrMv f | .rlrRd f | .rlrWr f | .scrMcast f | .scrRed f | .scrBar f
  | .scrFlag f => (f.tw, f.ts)

/-- The summary slot that a unit instruction names, if it names one (02 R59). -/
def UOp.slot : UOp → Option (BitVec 3)
  | .trwDrain f => if f.se then some f.slot else none
  | .brsRun f => if f.se then some f.slot else none
  | .trwMma _ | .trwLdacc _ | .trwClr _ | .brsLdp _ => none
  | .stcFwd f | .stcBwd f | .stcDec f | .movRow _ f | .movBlk f | .movRcfl _ f | .movPutf f | .stcPtedit f
  | .stcBucket f | .rlrVld f | .rlrMv f | .rlrRd f | .rlrWr f | .scrMcast f | .scrRed f | .scrBar f
  | .scrFlag f => if f.se then some f.slot else none

/-- The unit whose queue takes an instruction (02 R31): RLR instructions go to the Scrim port. -/
def UOp.unit : UOp → UnitId
  | .trwMma _ | .trwDrain _ | .trwLdacc _ | .trwClr _ => .trowel
  | .brsLdp _ | .brsRun _ => .brush
  | .stcFwd _ | .stcBwd _ | .stcPtedit _ | .stcBucket _ | .stcDec _ => .stencil
  | .movRow _ _ | .movBlk _ | .movRcfl _ _ | .movPutf _ => .mover
  | _ => .scrim

/-- The scalar registers that an instruction reads (02 R62). -/
def Flik.xsrcs : Flik → List (BitVec 5)
  | .op _ _ a b | .opf _ _ a b | .store _ a b _ | .br _ a b _ | .waitf _ a b _ _ _ => [a, b]
  | .fcvtSL _ a | .fcvtLS _ a | .opi _ _ a _ | .shi _ _ a _ | .load _ _ a _ | .jalr _ a _ => [a]
  | .tkset _ x | .dld _ x _ | .dst _ x _ | .dset _ _ x | .seed x | .halt x => [x]
  | _ => []

/-- The descriptor registers that an instruction reads: DSET reads the words that it keeps (02 R57 R62). -/
def Flik.dsrcs : Flik → List (BitVec 4)
  | .dst d _ _ | .dset d _ _ | .dget _ d _ => [d]
  | .dcpy _ e => [e]
  | .unit u => u.descs
  | _ => []

/-- The scalar register that an instruction writes. -/
def Flik.xdest : Flik → Option (BitVec 5)
  | .op _ rd _ _ | .opf _ rd _ _ | .fcvtSL rd _ | .fcvtLS rd _ | .opi _ rd _ _ | .shi _ rd _ _ | .load _ rd _ _
  | .jalr rd _ _ | .lui rd _ | .jal rd _ | .tkrd rd _ | .sumrd rd _ _ | .dget rd _ _ | .waitf rd _ _ _ _ _ => some rd
  | _ => none

/-- The descriptor register that an instruction writes. -/
def Flik.ddest : Flik → Option (BitVec 4)
  | .dld d _ _ | .dset d _ _ | .dcpy d _ | .dzero d => some d
  | _ => none

/-- The result of an instruction comes later than the cycle after it: multiplications, divisions and floating point (02 R62). -/
def Flik.isLate : Flik → Bool
  | .op f _ _ _ => match f with
    | .mul | .mulh | .mulhu | .div | .divu | .rem | .remu => true
    | _ => false
  | .opf _ _ _ _ | .fcvtSL _ _ | .fcvtLS _ _ => true
  | _ => false

/-- The sampling class of an instruction, as a bit of PMU_SCTRL.CLASS (19 R630). -/
def Flik.cls : Flik → Nat
  | .tkw _ _ | .waitf _ _ _ _ _ _ => 1
  | .unit u => match u.unit with
    | .trowel => 2
    | .brush => 3
    | .stencil => 4
    | .mover => 5
    | .scrim => 6
  | _ => 0

end Sys2Proof

namespace Sys2Proof.Machine

/-- An instruction reads what a load writes. -/
def Flik.reads (i : Flik) (dst : LoadDst) : Bool :=
  match dst with
  | .x r _ => r != 0 && i.xsrcs.contains r
  | .d n => i.dsrcs.contains n

/-- An instruction writes what a load writes. -/
def Flik.writes (i : Flik) (dst : LoadDst) : Bool :=
  match dst with
  | .x r _ => i.xdest == some r
  | .d n => i.ddest == some n

/-- The instruction reads no register that awaits the data of an outstanding load (02 R62 R63). -/
def Core.ready (c : Core) (i : Flik) : Bool := c.loads.all fun l => l.stale || !Flik.reads i l.dst

/-- The destination of an instruction is no longer that of an earlier load (02 R62 R65). -/
def Core.retarget (c : Core) (i : Flik) : Core :=
  { c with loads := c.loads.map fun l => if Flik.writes i l.dst then { l with stale := true } else l }

/-- The instruction at the PC is `i` and may issue: the core is in force, has not failed, runs on a clock that is not
stopped (03 R112), and nothing holds its issue. -/
def State.canIssue (s : State) (lc : Nat) (i : Flik) : Bool :=
  let c := s.core lc
  s.valid lc && !s.failed lc && s.clocked lc && decide (c.st = .running)
    && decide (c.stall = .none)
    && decide ((c.icWord c.pc).bind decode = some i) && c.ready i

/-! ### Counting and sampling of issues (19 R621 R624-R626) -/

/-- The issue of an instruction of an enabled class is counted; whether it is sampled (19 R624). -/
def State.countSample (s : State) (lc k : Nat) : State × Bool :=
  if s.rf (.pmuSctrl lc) 0 1 = 1 ∧ s.rf (.pmuSctrl lc) (8 + k) 1 = 1 then
    let n := (s.pmu lc).count + 1
    (s.setPmu lc { s.pmu lc with count := n }, decide (n % s.rf (.pmuSctrl lc) 32 16 = 0))
  else (s, false)

/-- A SAMPLE record at an instruction's completion (19 R625 R626). -/
def State.sampleDone (s : State) (lc : Nat) (issued : Word) (pc : LAddr) (word : BitVec 32) (unit : Nat)
    (flags : Nat) (tkwait : Nat) (status : Nat) : State :=
  let now := s.reg (.pmuCycle lc)
  let lat := (now - issued).toNat
  let sat := decide (2 ^ 32 ≤ lat)
  s.sample lc ⟨issued,
    BitVec.ofNat 64 (pc.toNat + unit * 2 ^ 48 + (flags + b2n sat * 16) * 2 ^ 56), word,
    BitVec.ofNat 32 (min tkwait (2 ^ 32 - 1)),
    BitVec.ofNat 64 (min lat (2 ^ 32 - 1) + status * 2 ^ 32)⟩

/-- The line of the PC becomes the most recently used (02 R80). -/
def Core.touch (c : Core) : Core :=
  match c.ic.find? fun l => l.tag == c.pc.toNat / 256 with
  | some l => { c with ic := l :: c.ic.filter fun m => m.tag != l.tag }
  | none => c

/-- The oldest result that is not known to be ready is ready: its instruction completes, and is recorded when it is sampled. -/
def State.lateDone (s : State) (lc : Nat) (l : Late) : State :=
  let c := s.core lc
  let s := s.setCore lc { c with late := c.late.erase l }
  match l.samp with
  | some t => s.sampleDone lc t l.pc l.word 7 (b2n l.missed * 4) 0 0
  | none => s

/-- Before an instruction issues: it stalls for a free number of cycles on each register that it reads and whose result comes
later (02 R62, 19 R622), which is then ready; any other such result may be ready by now, which is a free value. -/
def State.settle (s : State) (lc : Nat) : State :=
  let c := s.core lc
  let reads (l : Late) : Bool := match (c.icWord c.pc).bind decode with
    | some i => l.rd != 0 && i.xsrcs.contains l.rd
    | none => false
  c.late.foldl (fun (s : State) (l : Late) =>
    if reads l then (s.freeEvent lc 0x04).lateDone lc l
    else if Config.elapsed s.free % 2 = 1 then { s with free := s.free + 1 }.lateDone lc l
    else { s with free := s.free + 1 }) s

/-- What every issue does beside its own effect: a cycle passes, results that come later may be ready, the issue is counted,
the line of the PC is touched. -/
def State.noteIssue (s : State) (lc : Nat) : State :=
  let s := ((s.tickCycle lc).settle lc).event lc 0x01 1
  s.setCore lc (s.core lc).touch

/-- The next address. -/
def Core.next (c : Core) : Core := { c with pc := c.pc + 4, icMiss := false, qFull := false }

/-- The sample FLAGS bit of an instruction-cache miss at issue (19 R626). -/
def Core.missFlag (c : Core) : Nat := if c.icMiss then 4 else 0

/-- A scalar instruction of the core at `c0` is counted, and recorded when it is sampled: after a free number of cycles, or once
its result is ready where that comes later (19 R624-R626). -/
def State.noteScalar (s : State) (lc : Nat) (i : Flik) (c0 : Core) : State :=
  let (s, smp) := s.countSample lc i.cls
  let t := s.reg (.pmuCycle lc)
  if i.isLate then
    let c := s.core lc
    s.setCore lc { c with late := c.late ++
      [⟨i.xdest.getD 0, c0.pc, c0.pcWordOr i.encode, if smp then some t else none, c0.icMiss⟩] }
  else if smp then (s.tickCycle lc).sampleDone lc t c0.pc (c0.pcWordOr i.encode) 7 c0.missFlag 0 0
  else s

/-- A scalar instruction that no earlier one holds up: it issues, acts on the core, and the PC moves on. -/
def State.scalar (s : State) (lc : Nat) (i : Flik) (f : Core → Core) : State :=
  if s.canIssue lc i then
    let c0 := s.core lc
    let s := s.noteIssue lc
    (s.setCore lc (f ((s.core lc).retarget i)).next).noteScalar lc i c0
  else s

/-- A scalar instruction that writes rd with a value of the core it issues on. -/
def State.scalarX (s : State) (lc : Nat) (i : Flik) (rd : BitVec 5) (v : Core → Word) : State :=
  s.scalar lc i fun c => c.wx rd (v c)

/-- A precise exception of the instruction at the PC (02 R87): it has issued, and is counted, but it does not complete, so that
no record is made of it (19 R624 R625). -/
def State.excAt (s : State) (lc : Nat) (i : Flik) (cause sub : Nat) (addr : Word) : State :=
  let s := ((s.noteIssue lc).countSample lc i.cls).1
  let c := s.core lc
  s.setCore lc (c.takeExc (excWord cause sub 0 0) addr (c.pcWordOr i.encode))

/-! ### Dispatch of unit instructions (02 R38 R39 R61) -/

/-- The entry that a unit instruction captures at dispatch. -/
def Core.capture (c : Core) (u : UOp) (cycle : Word) (sampled : Bool) : UEntry where
  op := u
  word := (Flik.unit u).encode
  pc := c.pc
  ds := u.descs.map c.rd
  seed := c.seed
  ord := c.ord
  storeMark := c.storeSeq
  issued := cycle
  head := cycle
  wait := 0
  sampled := sampled
  missed := c.icMiss
  full := c.qFull
  started := false
  begun := false
  prog := 0
  nnz := 0
  poi := false
  worst := none
  await := []
  barred := []
  lost := setHas c.lost 5
  buf := []
  fin := none

/-- A unit instruction issues into its unit's queue; with 16 entries in it the core stalls at it (R39). An instruction that
has started keeps its entry until it completes: the spec does not say when an entry frees (DESIGN CHOICE, log entry 89). -/
def State.dispatch (s : State) (lc : Nat) (u : UOp) (srUse : Bool) : State :=
  if s.canIssue lc (.unit u) then
    if 16 ≤ ((s.core lc).q u.unit).length then
      let s := s.stalled lc 0x05
      s.setCore lc { s.core lc with qFull := true }
    else
      let s := s.noteIssue lc
      let (s, smp) := s.countSample lc (Flik.unit u).cls
      let c := s.core lc
      let e := c.capture u (s.reg (.pmuCycle lc)) smp
      s.setCore lc { (c.setQ u.unit (c.q u.unit ++ [e])).next with ord := c.ord + (if srUse then 1 else 0) }
  else s

/-! ### Scalar loads and stores (02 R49-R52 R63-R67) -/

/-- What an address check finds (02 R51): the first broken rule, as cause and subcause. -/
def State.addrCheck (s : State) (lc : Nat) (a : Word) (size : Nat) : Option (Nat × Nat) :=
  if a.toNat % size ≠ 0 then some (3, 0)
  else if 2 ^ 44 ≤ a.toNat then some (2, 3)
  else match s.resolve (some lc) a.toNat with
    | .unmapped | .host _ => some (2, 1)
    | .dead => some (2, 2)
    | _ => none

/-- The cells that a place covers, as a first byte in one numbering of every memory and register. -/
def Loc.cell : Loc → Nat
  | .render p _ => p
  | .hawk _ k => k
  | .hod k => k
  | .reg a => 2 ^ 50 + a
  | .host a => 2 ^ 60 + a
  | .dead | .unmapped => 2 ^ 130

/-- Two runs share a cell (02 R65, 12 R438): the views of one cell are one cell. -/
def State.overlap (s : State) (lc a la b lb : Nat) : Bool :=
  let x := (s.resolve (some lc) a).cell
  let y := (s.resolve (some lc) b).cell
  decide (x / 8 < (y + lb + 7) / 8) && decide (y / 8 < (x + la + 7) / 8)

/-- Bytes of a load's width. -/
def LoadDst.size : LoadDst → Nat
  | .x _ w => match w with
    | .lb | .lbu => 1
    | .lh | .lhu => 2
    | .lw | .lwu => 4
    | .ld => 8
  | .d _ => 64

/-- An earlier posted store, or one of the loads before it that has not been performed, shares a cell with the load at
place k (02 R65, 12 R439). -/
def State.loadBlocked (s : State) (lc k : Nat) (l : Load) : Bool :=
  ((s.core lc).stores.any fun p => decide (p.id < l.mark) && s.overlap lc p.addr p.bytes.length l.addr l.dst.size)
    || (((s.core lc).loads.take k).any fun m => m.data.isNone && s.overlap lc m.addr m.dst.size l.addr l.dst.size)

/-- An earlier store, or an earlier load that has not been performed, shares a cell with a store. -/
def State.storeBlocked (s : State) (lc : Nat) (id a len : Nat) : Bool :=
  ((s.core lc).stores.any fun p => decide (p.id < id) && s.overlap lc p.addr p.bytes.length a len)
    || ((s.core lc).loads.any fun l =>
      l.data.isNone && decide (l.mark ≤ id) && s.overlap lc l.addr l.dst.size a len)

/-- A read at a local address by a core's scalar load: bytes and poison (00 R10 for registers). A load whose target has
ceased to be reachable since its address check reads poison (DESIGN CHOICE, log entry 90). -/
def State.readLocal (s : State) (lc : Nat) (req : Requester) (a len : Nat) : State × List Byte × Bool :=
  match s.resolve (some lc) a with
  | .reg _ => (s, s.readRegs req a len, false)
  | .unmapped | .dead | .host _ => (s, List.replicate len 0, true)
  | _ => s.readMem (some lc) a len

/-- A write at a local address by a core's scalar store; one whose target has ceased to be reachable since its address
check is dropped (DESIGN CHOICE, log entry 90). -/
def State.writeLocal (s : State) (lc : Nat) (req : Requester) (a : Nat) (bs : List Byte) : State :=
  match s.resolve (some lc) a with
  | .reg _ => s.writeRegs req a bs
  | .unmapped | .dead | .host _ => s
  | _ => s.writeMem (some lc) a bs

/-- A load or DLD issues: its checks, then an outstanding load; a fifth load stalls (R63). -/
def State.issueLoad (s : State) (lc : Nat) (i : Flik) (dst : LoadDst) (a : Core → Word) : State :=
  if s.canIssue lc i then
    let c := s.core lc
    let addr := a c
    match s.addrCheck lc addr dst.size with
    | some (cause, sub) => s.excAt lc i cause sub addr
    | none =>
      if 4 ≤ c.loads.length then s
      else
        let s := (s.noteIssue lc).event lc 0x02 1
        let (s, smp) := s.countSample lc 0
        let c := (s.core lc).retarget i
        s.setCore lc { c.next with
          loads := c.loads ++ [{
            dst := dst, stale := false, pc := c.pc, word := i.encode, addr := addr.toNat, mark := c.storeSeq
            samp := if smp then some (s.reg (.pmuCycle lc)) else none, missed := c.icMiss, data := none }] }
  else s

/-- A store that is performed before any later instruction issues: to the own hawk (R66) and to the own PMU_MARK, either half
of it (19 R626). -/
def State.atOnce (s : State) (lc a : Nat) : Bool :=
  match s.resolve (some lc) a with
  | .hawk n _ => n == lc
  | .reg r => r / 8 * 8 == (Reg.pmuMark lc).addr
  | _ => false

/-- A store or DST issues: its checks, then its write at once or posted; a seventeenth store stalls (R64). A write of part of a
hawk word reads the word first, and meets errors (04 R142). -/
def State.issueStore (s : State) (lc : Nat) (i : Flik) (size : Nat) (a : Core → Word) (bs : Core → List Byte)
    (errs : List MemErr := []) : State :=
  if s.canIssue lc i then
    let c := s.core lc
    let addr := a c
    match s.addrCheck lc addr size with
    | some (cause, sub) => s.excAt lc i cause sub addr
    | none =>
      if s.atOnce lc addr.toNat then
        if s.storeBlocked lc c.storeSeq addr.toNat size then s
        else
          let s := (s.noteIssue lc).event lc 0x03 1
          let (s, smp) := s.countSample lc 0
          let s := (s.meet errs).writeLocal lc (.core lc) addr.toNat (bs c)
          let s := s.setCore lc (s.core lc).next
          let t := s.reg (.pmuCycle lc)
          if smp then (s.tickCycle lc).sampleDone lc t c.pc i.encode 7 c.missFlag 0 0 else s
      else if 16 ≤ c.stores.length then s
      else
        let s := (s.noteIssue lc).event lc 0x03 1
        let (s, smp) := s.countSample lc 0
        let c := s.core lc
        s.setCore lc { c.next with
          stores := c.stores ++ [{
            id := c.storeSeq, addr := addr.toNat, bytes := bs c, pc := c.pc, word := i.encode
            samp := if smp then some (s.reg (.pmuCycle lc)) else none, missed := c.icMiss }]
          storeSeq := c.storeSeq + 1 }
  else s

end Sys2Proof.Machine
end

