-- ==== Sys2Proof/Machine/Operands.lean ====
section
/-!
DEFINITION. Operand forms of the scalar instructions: immediates and addresses (02 R46-R56), integer arithmetic (02
R43 R44 R46 R47), branch conditions (R53), and what a load writes (R49).
-/

namespace Sys2Proof.Machine

/-- A signed immediate, extended to 64 bits. -/
def sext {n : Nat} (v : BitVec n) : Word := v.signExtend 64

/-- The address of a load or store: rs1 + imm12 (02 R49 R50). -/
def memAddr (rs1 : BitVec 5) (imm : BitVec 12) (c : Core) : Word := c.rx rs1 + sext imm

/-- The address of DLD and DST: xs + imm16 * 64 (02 R56). -/
def descAddr (xs : BitVec 5) (imm : BitVec 16) (c : Core) : Word := c.rx xs + sext imm * 64

/-- A branch or jump target: the instruction's own address plus an offset in instructions (02 R53 R54). -/
def target {n : Nat} (pc : LAddr) (off : BitVec n) : LAddr := pc + (off.signExtend 44) * 4

/-- A Boolean result. -/
def flag (b : Bool) : Word := if b then 1 else 0

/-- The result of an OP instruction (02 R43 R44). -/
def alu : AluOp → Word → Word → Word
  | .add, a, b => a + b
  | .sub, a, b => a - b
  | .and, a, b => a &&& b
  | .or, a, b => a ||| b
  | .xor, a, b => a ^^^ b
  | .sll, a, b => a <<< (b.toNat % 64)
  | .srl, a, b => a >>> (b.toNat % 64)
  | .sra, a, b => a.sshiftRight (b.toNat % 64)
  | .slt, a, b => flag (a.slt b)
  | .sltu, a, b => flag (a.ult b)
  | .min, a, b => if a.sle b then a else b
  | .max, a, b => if a.sle b then b else a
  | .minu, a, b => if a.ule b then a else b
  | .maxu, a, b => if a.ule b then b else a
  | .mul, a, b => a * b
  | .mulh, a, b => (a.signExtend 128 * b.signExtend 128).extractLsb' 64 64
  | .mulhu, a, b => (a.setWidth 128 * b.setWidth 128).extractLsb' 64 64
  | .div, a, b => if b = 0 then BitVec.allOnes 64 else a.sdiv b
  | .divu, a, b => if b = 0 then BitVec.allOnes 64 else a.udiv b
  | .rem, a, b => if b = 0 then a else a.srem b
  | .remu, a, b => if b = 0 then a else a.umod b

/-- The result of an immediate form (02 R46). -/
def aluImm : ImmOp → Word → BitVec 15 → Word
  | .addi, a, i => alu .add a (sext i)
  | .andi, a, i => alu .and a (sext i)
  | .ori, a, i => alu .or a (sext i)
  | .xori, a, i => alu .xor a (sext i)
  | .slti, a, i => alu .slt a (sext i)

/-- The result of a shift by an immediate amount (02 R47). -/
def shiftImm : ShOp → Word → BitVec 6 → Word
  | .slli, a, n => a <<< n.toNat
  | .srli, a, n => a >>> n.toNat
  | .srai, a, n => a.sshiftRight n.toNat

/-- Whether a branch's condition holds (02 R53). -/
def condHolds : Cond → Word → Word → Bool
  | .eq, a, b => a == b
  | .ne, a, b => a != b
  | .lt, a, b => a.slt b
  | .ge, a, b => !a.slt b
  | .ltu, a, b => a.ult b
  | .geu, a, b => !a.ult b

/-- What a load of a width writes into rd (02 R49). -/
def loadValue (w : LoadW) (bs : List Byte) : Word :=
  let v := leNat bs
  match w with
  | .lb => (BitVec.ofNat 8 v).signExtend 64
  | .lh => (BitVec.ofNat 16 v).signExtend 64
  | .lw => (BitVec.ofNat 32 v).signExtend 64
  | .ld => BitVec.ofNat 64 v
  | .lbu => BitVec.ofNat 64 (v % 2 ^ 8)
  | .lhu => BitVec.ofNat 64 (v % 2 ^ 16)
  | .lwu => BitVec.ofNat 64 (v % 2 ^ 32)

/-- Bytes of a store's width (02 R50). -/
def StoreW.size : StoreW → Nat
  | .sb => 1
  | .sh => 2
  | .sw => 4
  | .st | .stRel => 8

end Sys2Proof.Machine
end

