-- ==== Sys2Proof/Machine/Arith.lean ====
section
/-!
DEFINITION. Number formats and their arithmetic (05 R177-R199): exact values, encodings, rounding, conversion, block
scales and the draws of stochastic rounding.
-/

namespace Sys2Proof.Machine

/-- The element formats, 05 R177. -/
inductive Fmt
  | fp32 | bf16 | fp16 | e4m3 | e5m2 | e2m3 | e3m2 | e2m1 | int8 | int32
  deriving DecidableEq, Repr

/-- A format code; 0xA-0xF are reserved (R177). -/
def fmtOf : Nat → Option Fmt
  | 0 => some .fp32
  | 1 => some .bf16
  | 2 => some .fp16
  | 3 => some .e4m3
  | 4 => some .e5m2
  | 5 => some .e2m3
  | 6 => some .e3m2
  | 7 => some .e2m1
  | 8 => some .int8
  | 9 => some .int32
  | _ => none

/-- Bits of an element (R177). -/
def Fmt.bits : Fmt → Nat
  | .fp32 | .int32 => 32
  | .bf16 | .fp16 => 16
  | .e4m3 | .e5m2 | .int8 => 8
  | .e2m3 | .e3m2 => 6
  | .e2m1 => 4

/-- Fraction bits (R178). -/
def Fmt.frac : Fmt → Nat
  | .fp32 => 23
  | .bf16 => 7
  | .fp16 => 10
  | .e4m3 => 3
  | .e5m2 => 2
  | .e2m3 => 3
  | .e3m2 => 2
  | .e2m1 => 1
  | .int8 | .int32 => 0

/-- Exponent bias (R178). -/
def Fmt.bias : Fmt → Int
  | .fp32 | .bf16 => 127
  | .fp16 | .e5m2 => 15
  | .e4m3 => 7
  | .e2m3 | .e2m1 => 1
  | .e3m2 => 3
  | .int8 | .int32 => 0

/-- The magnitude code of the largest finite value (R178). -/
def Fmt.top : Fmt → Nat
  | .fp32 => 0x7F7FFFFF
  | .bf16 => 0x7F7F
  | .fp16 => 0x7BFF
  | .e4m3 => 0x7E
  | .e5m2 => 0x7B
  | .e2m3 => 0x1F
  | .e3m2 => 0x1F
  | .e2m1 => 0x7
  | .int8 => 127
  | .int32 => 2147483647

/-- The magnitude code of infinity, in the formats that have one (R178). -/
def Fmt.infCode : Fmt → Option Nat
  | .fp32 => some 0x7F800000
  | .bf16 => some 0x7F80
  | .fp16 => some 0x7C00
  | .e5m2 => some 0x7C
  | _ => none

/-- The canonical NaN, in the formats that have one (R180). -/
def Fmt.nanCode : Fmt → Option Nat
  | .fp32 => some 0x7FC00000
  | .bf16 => some 0x7FC0
  | .fp16 => some 0x7E00
  | .e5m2 => some 0x7E
  | .e4m3 => some 0x7F
  | _ => none

/-- A two's-complement format. -/
def Fmt.isInt : Fmt → Bool
  | .int8 | .int32 => true
  | _ => false

/-- A format that may carry block scales (R177 R189). -/
def Fmt.scalable : Fmt → Bool
  | .e4m3 | .e5m2 | .e2m3 | .e3m2 | .e2m1 => true
  | _ => false

/-- emax of R185. -/
def Fmt.emax : Fmt → Int
  | .e2m1 | .e2m3 => 2
  | .e3m2 => 4
  | .e4m3 => 8
  | .e5m2 => 15
  | _ => 0

/-! ### Exact values -/

/-- A value: NaN, an infinity, or (-1)^neg * m * 2^e; a zero keeps its sign. -/
inductive Num
  | nan
  | inf (neg : Bool)
  | fin (neg : Bool) (m : Nat) (e : Int)
  deriving DecidableEq, Repr

/-- A zero. -/
def Num.zero (neg : Bool) : Num := .fin neg 0 0

/-- An integer. -/
def Num.ofInt (i : Int) : Num := .fin (decide (i < 0)) i.natAbs 0

/-- The value that a code of a format encodes (R178 R179). -/
def Fmt.num (f : Fmt) (code : Nat) : Num :=
  if f.isInt then Num.ofInt (signed f.bits (code % 2 ^ f.bits))
  else
    let neg := decide (code / 2 ^ (f.bits - 1) % 2 = 1)
    let mag := code % 2 ^ (f.bits - 1)
    if mag ≤ f.top then
      let e := mag / 2 ^ f.frac
      let t := mag % 2 ^ f.frac
      if e = 0 then .fin neg t (1 - f.bias - f.frac) else .fin neg (2 ^ f.frac + t) (e - f.bias - f.frac)
    else if f.infCode = some mag then .inf neg else .nan

/-- The exact mantissa of a finite value at a lower exponent. -/
def scaleTo (neg : Bool) (m : Nat) (e q : Int) : Int :=
  let v : Int := (m * 2 ^ (e - q).toNat : Nat)
  if neg then -v else v

/-- The exact sum of two values (R191): a zero sum is -0 only when every term is -0. -/
def Num.add : Num → Num → Num
  | .nan, _ => .nan
  | _, .nan => .nan
  | .inf a, .inf b => if a = b then .inf a else .nan
  | .inf a, _ => .inf a
  | _, .inf b => .inf b
  | .fin a m e, .fin b n f =>
    let q := min e f
    let v := scaleTo a m e q + scaleTo b n f q
    if v = 0 then .fin (a && b && m == 0 && n == 0) 0 q else .fin (decide (v < 0)) v.natAbs q

/-- The exact product. -/
def Num.mul : Num → Num → Num
  | .nan, _ => .nan
  | _, .nan => .nan
  | .inf a, .inf b => .inf (a != b)
  | .inf a, .fin b n _ => if n = 0 then .nan else .inf (a != b)
  | .fin a m _, .inf b => if m = 0 then .nan else .inf (a != b)
  | .fin a m e, .fin b n f => .fin (a != b) (m * n) (e + f)

/-- The negation. -/
def Num.neg : Num → Num
  | .nan => .nan
  | .inf a => .inf (!a)
  | .fin a m e => .fin (!a) m e

/-- The magnitude. -/
def Num.abs : Num → Num
  | .nan => .nan
  | .inf _ => .inf false
  | .fin _ m e => .fin false m e

/-- A value times a power of two. -/
def Num.shift (k : Int) : Num → Num
  | .fin a m e => .fin a m (e + k)
  | v => v

/-- The exact sum of a group of terms (R190 R191); no term gives +0. -/
def Num.sum : List Num → Num
  | [] => .fin false 0 0
  | t :: ts => ts.foldl Num.add t

/-- A value is zero. -/
def Num.isZero : Num → Bool
  | .fin _ m _ => m == 0
  | _ => false

/-- A value is NaN. -/
def Num.isNan : Num → Bool
  | .nan => true
  | _ => false

/-- a < b for two values of which none is NaN; zeros compare equal. -/
def Num.lt : Num → Num → Bool
  | .nan, _ => false
  | _, .nan => false
  | .inf a, .inf b => a && !b
  | .inf a, _ => a
  | _, .inf b => !b
  | .fin a m e, .fin b n f => decide (scaleTo a m e (min e f) < scaleTo b n f (min e f))

/-- The order of values with -0 below +0 (08 R263 R276), none being NaN. -/
def Num.below (a b : Num) : Bool :=
  a.lt b || (match a, b with
    | .fin true 0 _, .fin false 0 _ => true
    | _, _ => false)

/-! ### Rounding (R194-R196) -/

/-- A rounding mode with the draw of the element. -/
inductive Round
  | rne
  | sr (r : Nat)
  deriving DecidableEq, Repr

/-- A magnitude m * 2^e as a count of quanta 2^q: to the nearest with ties to even, or stochastically (R195). -/
def roundTo (rm : Round) (m : Nat) (e q : Int) : Nat :=
  if q ≤ e then m * 2 ^ (e - q).toNat
  else
    let d := 2 ^ (q - e).toNat
    let n := m / d
    let t := m % d
    match rm with
    | .rne => if d < 2 * t ∨ (2 * t = d ∧ n % 2 = 1) then n + 1 else n
    | .sr r => if r < t * 65536 / d then n + 1 else n

/-- The magnitude code of a rounded magnitude in a floating format, the exponent field running on above the format's
largest finite value. -/
def Fmt.magCode (f : Fmt) (rm : Round) (m : Nat) (e : Int) : Nat :=
  if m = 0 then 0
  else
    let emin := 1 - f.bias
    let q := max ((Nat.log2 m : Int) + e) emin - f.frac
    (q + f.frac - emin).toNat * 2 ^ f.frac + roundTo rm m e q

/-- A code with a sign. -/
def Fmt.signed (f : Fmt) (neg : Bool) (mag : Nat) : Nat := b2n neg * 2 ^ (f.bits - 1) + mag

/-- The draw of one element (R196). -/
def srDraw (seed : Word) (lc n e : Nat) : Nat :=
  let z := seed + BitVec.ofNat 64 lc * 0x9E3779B97F4A7C15#64 + BitVec.ofNat 64 n * 0xD1B54A32D192ED03#64
  let z := z + BitVec.ofNat 64 e * 0x8CB92BA72F3D8DD7#64
  let z := (z ^^^ (z >>> 30)) * 0xBF58476D1CE4E5B9#64
  let z := (z ^^^ (z >>> 27)) * 0x94D049BB133111EB#64
  let z := z ^^^ (z >>> 31)
  (z >>> 48).toNat

/-! ### Conversion (R197 R198): the code and the FLAGS bits that it sets -/

/-- FLAGS bit of an infinity's sign. -/
def infFlag (neg : Bool) : Nat := if neg then 4 else 2

/-- A value converted to a floating format. -/
def Fmt.convFp (f : Fmt) (rm : Round) (nosat : Bool) (v : Num) : Nat × Nat :=
  let small := match f with
    | .e2m3 | .e3m2 | .e2m1 => true
    | _ => false
  let past (neg : Bool) (src : Nat) : Nat × Nat :=
    match f with
    | .e4m3 => if nosat then (f.nanCode.getD 0, src ||| 1) else (f.signed neg f.top, src ||| 16)
    | .e5m2 => if nosat then (f.signed neg (f.infCode.getD 0), src ||| infFlag neg) else (f.signed neg f.top, src ||| 16)
    | .fp32 | .bf16 | .fp16 => (f.signed neg (f.infCode.getD 0), src ||| infFlag neg)
    | _ => (f.signed neg f.top, src ||| 16)
  match v with
  | .nan => (if small then 0 else f.nanCode.getD 0, 1)
  | .inf neg => past neg (infFlag neg)
  | .fin neg m e =>
    let c := f.magCode rm m e
    if f.top < c then past neg 0 else (f.signed neg c, 0)

/-- A value converted to an integer format. -/
def Fmt.convInt (f : Fmt) (rm : Round) (v : Num) : Nat × Nat :=
  let lim := 2 ^ (f.bits - 1)
  match v with
  | .nan => (0, 1)
  | .inf neg => (if neg then lim else lim - 1, infFlag neg ||| 16)
  | .fin neg m e =>
    let n := roundTo rm m e 0
    if neg then (if lim < n then (lim, 16) else ((2 ^ f.bits - n) % 2 ^ f.bits, 0))
    else if lim ≤ n then (lim - 1, 16) else (n, 0)

/-- A value converted to a format: its code and the FLAGS bits of the table of R197. -/
def Fmt.conv (f : Fmt) (rm : Round) (nosat : Bool) (v : Num) : Nat × Nat :=
  if f.isInt then f.convInt rm v else f.convFp rm nosat v

/-- A value rounded to FP32 to nearest even. -/
def toFp32 (v : Num) : BitVec 32 := BitVec.ofNat 32 (Fmt.fp32.conv .rne false v).1

/-- The value of an FP32 code. -/
def fp32 (w : BitVec 32) : Num := Fmt.fp32.num w.toNat

/-- FP32 addition, one rounding to nearest even. -/
def fadd32 (a b : BitVec 32) : BitVec 32 := toFp32 ((fp32 a).add (fp32 b))

/-- FP32 subtraction. -/
def fsub32 (a b : BitVec 32) : BitVec 32 := toFp32 ((fp32 a).add (fp32 b).neg)

/-- FP32 multiplication. -/
def fmul32 (a b : BitVec 32) : BitVec 32 := toFp32 ((fp32 a).mul (fp32 b))

/-- An integer held in the range of INT32 (R192), and whether it saturated. -/
def satInt32 (i : Int) : BitVec 32 × Bool :=
  if 2147483647 < i then (0x7FFFFFFF#32, true)
  else if i < -2147483648 then (0x80000000#32, true)
  else (BitVec.ofInt 32 i, false)

/-- One combine of a reduction (R193): FP32 addition or saturating INT32 addition. -/
def combine32 (int : Bool) (a b : BitVec 32) : BitVec 32 :=
  if int then (satInt32 (a.toInt + b.toInt)).1 else fadd32 a b

/-- The order of FP32 values with -0 below +0, for codes of which none is NaN. -/
def fpKey (w : BitVec 32) : Int :=
  if w.getLsbD 31 then -((w.toNat % 2 ^ 31 : Nat) : Int) - 1 else (w.toNat : Int)

/-- The smaller of two FP32 values (02 R45): canonical NaN when either is NaN. -/
def fmin32 (a b : BitVec 32) : BitVec 32 :=
  if (fp32 a).isNan || (fp32 b).isNan then 0x7FC00000#32 else if fpKey a ≤ fpKey b then a else b

/-- The larger of two FP32 values (02 R45). -/
def fmax32 (a b : BitVec 32) : BitVec 32 :=
  if (fp32 a).isNan || (fp32 b).isNan then 0x7FC00000#32 else if fpKey a ≤ fpKey b then b else a

/-! ### Block scales (R182-R186) -/

/-- The value of an E8M0 scale byte: 2^(c - 127), or NaN at 0xFF (R182 R184). -/
def scaleNum (c : Nat) : Num := if c = 255 then .nan else .fin false 1 ((c : Int) - 127)

/-- floor(log2) of a finite non-zero magnitude. -/
def Num.log2 : Num → Int
  | .fin _ m e => (Nat.log2 m : Int) + e
  | _ => 0

/-- The scale byte of a block and the FLAGS bits of its values (R185 R186). -/
def blockScale (f : Fmt) (vs : List Num) : Nat × Nat :=
  let bad := vs.foldl (fun m v => m ||| (match v with | .nan => 1 | .inf n => infFlag n | _ => 0)) 0
  if bad ≠ 0 then (255, bad)
  else
    let nz := (vs.filter fun v => !v.isZero).map Num.log2
    match nz with
    | [] => (0, 0)
    | x :: xs => (((min (max (xs.foldl max x - f.emax) (-127)) 127) + 127).toNat, 0)

/-- An element of a block under its scale (R185 R186): code 0 under scale 0xFF, clamped with no flag. -/
def scaledCode (f : Fmt) (scale : Nat) (rm : Round) (v : Num) : Nat :=
  if scale = 255 then 0
  else match v.shift (127 - (scale : Int)) with
    | .fin neg m e => f.signed neg (min (f.magCode rm m e) f.top)
    | _ => 0

/-- Values quantised in blocks of 32 (R183 R185): the scale bytes, the element codes, the FLAGS bits. -/
def quantise (f : Fmt) (rm : Nat → Round) : Nat → Nat → List Num → List Nat × List Nat × Nat
  | 0, _, _ => ([], [], 0)
  | fuel + 1, i, vs =>
    match vs with
    | [] => ([], [], 0)
    | _ =>
      let b := vs.take 32
      let (sc, fl) := blockScale f b
      let cs := (List.range b.length).map fun j => scaledCode f sc (rm (i + j)) (b.getD j (.zero false))
      let r := quantise f rm fuel (i + 32) (vs.drop 32)
      (sc :: r.1, cs ++ r.2.1, fl ||| r.2.2)

/-! ### Packing (R181) -/

/-- Element i of a run of bytes: every format lies at bit i * size of the run's little-endian number. -/
def elemAt (f : Fmt) (bs : List Byte) (i : Nat) : Nat :=
  let bit := i * f.bits
  leNat ((bs.drop (bit / 8)).take 5) / 2 ^ (bit % 8) % 2 ^ f.bits

/-- Bytes of a run of n elements; FP6 runs end with a whole group's bytes that hold them. -/
def runBytes (f : Fmt) (n : Nat) : Nat := (n * f.bits + 7) / 8

/-- The number that elements spell, the first at the lowest bits. -/
def packNat (f : Fmt) : List Nat → Nat
  | [] => 0
  | c :: cs => c % 2 ^ f.bits + 2 ^ f.bits * packNat f cs

/-- Elements packed into bytes; unused high bits of the last byte are 0. -/
def packElems (f : Fmt) (cs : List Nat) : List Byte := leBytes (runBytes f cs.length) (packNat f cs)

end Sys2Proof.Machine
end

