-- ==== Sys2Proof/Machine/Flags.lean ====
section
/-!
DEFINITION. The FLAGS bits of a summary slot (02 R58, 05 R198): bit 0 a NaN, bit 1 +Inf, bit 2 -Inf, bit 3 poison, bit
4 a conversion that saturated.
-/

namespace Sys2Proof.Machine

/-- The bits that one value met or produced sets. -/
def Num.flags : Num → Nat
  | .nan => 1
  | .inf neg => infFlag neg
  | .fin _ _ _ => 0

/-- The bits that values set. -/
def flagsOf (vs : List Num) : Nat := vs.foldl (fun m v => m ||| v.flags) 0

/-- The poison bit. -/
def poisonFlag (p : Bool) : Nat := if p then 8 else 0

/-- The saturation bit. -/
def satFlag (p : Bool) : Nat := if p then 16 else 0

/-- The bits of all sources together, in the FLAGS field. -/
def flagWord (l : List Nat) : BitVec 64 := BitVec.ofNat 64 (l.foldl (· ||| ·) 0)

end Sys2Proof.Machine
end

