-- ==== Sys2Proof/Machine/Transc.lean ====
section
/-!
DEFINITION. Quotients, square roots and the transcendental functions of the Brush (08 R263 R264): each is the exact
value rounded once to FP32. Quotients and roots carry a sticky bit below 170 exact bits; the transcendental functions
are computed in fixed point with 320 fraction bits, far more than decides any rounding (log entry 12).
-/

namespace Sys2Proof.Machine

/-! ### Exact quotients and roots -/

/-- The integer square root of n, bits b - 1 to 0 of it being sought. -/
def isqrtGo (n : Nat) : Nat → Nat → Nat
  | 0, r => r
  | b + 1, r => isqrtGo n b (if (r + 2 ^ b) * (r + 2 ^ b) ≤ n then r + 2 ^ b else r)

/-- The integer square root. -/
def isqrt (n : Nat) : Nat := isqrtGo n (Nat.log2 n / 2 + 1) 0

/-- A quotient of finite magnitudes, as far as one rounding can tell. -/
def quot (neg : Bool) (m : Nat) (e : Int) (n : Nat) (f : Int) : Num :=
  let x := m * 2 ^ 200
  .fin neg (2 * (x / n) + (if x % n = 0 then 0 else 1)) (e - f - 201)

/-- a / b with IEEE's special cases. -/
def Num.div : Num → Num → Num
  | .nan, _ => .nan
  | _, .nan => .nan
  | .inf _, .inf _ => .nan
  | .inf a, .fin b _ _ => .inf (a != b)
  | .fin a _ _, .inf b => .fin (a != b) 0 0
  | .fin a m e, .fin b n f =>
    if n = 0 then (if m = 0 then .nan else .inf (a != b))
    else if m = 0 then .fin (a != b) 0 0 else quot (a != b) m e n f

/-- A mantissa at an even exponent. -/
def evenExp (m : Nat) (e : Int) : Nat × Int := if e % 2 = 0 then (m, e) else (2 * m, e - 1)

/-- sqrt of a value. -/
def Num.sqrt : Num → Num
  | .nan => .nan
  | .inf neg => if neg then .nan else .inf false
  | .fin neg m e =>
    if m = 0 then .fin neg 0 0
    else if neg then .nan
    else
      let (m, e) := evenExp m e
      let x := m * 2 ^ 200
      let q := isqrt x
      .fin false (2 * q + (if q * q = x then 0 else 1)) (e / 2 - 101)

/-- 1 / sqrt of a value. -/
def Num.rsqrt : Num → Num
  | .nan => .nan
  | .inf neg => if neg then .nan else .fin false 0 0
  | .fin neg m e =>
    if m = 0 then .inf neg
    else if neg then .nan
    else
      let (m, e) := evenExp m e
      let q := isqrt (2 ^ 400 / m)
      .fin false (2 * q + (if q * q * m = 2 ^ 400 then 0 else 1)) (-(e / 2) - 201)

/-! ### Fixed point: numbers times 2^320 -/

/-- 2^320. -/
def fxOne : Nat := 2 ^ 320

/-- A magnitude of an FP32 value in fixed point, exactly. -/
def fx (m : Nat) (e : Int) : Nat := m * 2 ^ (e + 320).toNat

/-- A product. -/
def fxMul (a b : Nat) : Nat := a * b / fxOne

/-- Sum of z^(2k+1)/(2k+1) from k on: atanh z when every sign is plus. -/
def atanhGo (z2 : Nat) : Nat → Nat → Nat → Nat
  | 0, _, _ => 0
  | n + 1, k, p => p / (2 * k + 1) + atanhGo z2 n (k + 1) (fxMul p z2)

/-- atanh of a number below 1/2. -/
def fxAtanh (z : Nat) : Nat := atanhGo (fxMul z z) 170 0 z

/-- ln 2 = 2 atanh(1/3). -/
def fxLn2 : Nat := 2 * fxAtanh (fxOne / 3)

/-- Sum of r^k/k! from a term on. -/
def expGo (r : Nat) : Nat → Nat → Nat → Nat
  | 0, _, _ => 0
  | n + 1, k, p => p + expGo r n (k + 1) (p * r / (fxOne * (k + 1)))

/-- e^r for 0 <= r < ln 2. -/
def fxExp (r : Nat) : Nat := expGo r 90 0 fxOne

/-- e^x or e^-x: a mantissa of 320 fraction bits and a power of two. -/
def expParts (neg : Bool) (x : Nat) : Nat × Int :=
  if neg then
    let n := (x + fxLn2 - 1) / fxLn2
    (fxExp (n * fxLn2 - x), -(n : Int))
  else (fxExp (x % fxLn2), ((x / fxLn2 : Nat) : Int))

/-- e^x of a finite value. -/
def expFin (neg : Bool) (m : Nat) (e : Int) : Num :=
  if fx 110 0 < fx m e then (if neg then .fin false 0 0 else .inf false)
  else
    let (f, n) := expParts neg (fx m e)
    .fin false f (n - 320)

/-- 2^x of a finite value: exact at an integer. -/
def exp2Fin (neg : Bool) (m : Nat) (e : Int) : Num :=
  let x := fx m e
  if fx 160 0 < x then (if neg then .fin false 0 0 else .inf false)
  else
    let n := if neg then (x + fxOne - 1) / fxOne else x / fxOne
    let r := if neg then n * fxOne - x else x - n * fxOne
    .fin false (fxExp (fxMul r fxLn2)) ((if neg then -(n : Int) else (n : Int)) - 320)

/-- ln of a positive magnitude, in fixed point. -/
def lnFix (m : Nat) (e : Int) : Int :=
  let l := Nat.log2 m
  let y := m * fxOne / 2 ^ l
  let z := (y - fxOne) * fxOne / (y + fxOne)
  (2 * fxAtanh z : Nat) + (e + (l : Int)) * (fxLn2 : Int)

/-- A fixed-point number. -/
def fxNum (v : Int) : Num := .fin (decide (v < 0)) v.natAbs (-320)

/-- ln of a value (R264). -/
def Num.ln : Num → Num
  | .nan => .nan
  | .inf neg => if neg then .nan else .inf false
  | .fin neg m e => if m = 0 then .inf true else if neg then .nan else fxNum (lnFix m e)

/-- log2 of a value: exact at a power of two. -/
def Num.lg : Num → Num
  | .nan => .nan
  | .inf neg => if neg then .nan else .inf false
  | .fin neg m e =>
    if m = 0 then .inf true
    else if neg then .nan
    else if m = 2 ^ Nat.log2 m then Num.ofInt (e + (Nat.log2 m : Int))
    else
      let v := lnFix m e
      .fin (decide (v < 0)) (v.natAbs * fxOne / fxLn2) (-320)

/-- e^-x in fixed point, for x up to 110. -/
def expNegFix (x : Nat) : Nat :=
  let (f, n) := expParts true x
  f / 2 ^ n.natAbs

/-- tanh of a value: (1 - e^-2x) / (1 + e^-2x). -/
def Num.tanh : Num → Num
  | .nan => .nan
  | .inf neg => .fin neg 1 0
  | .fin neg m e =>
    if m = 0 then .fin neg 0 0
    else if fx 20 0 < fx m e then .fin neg 1 0
    else
      let t := expNegFix (2 * fx m e)
      .fin neg ((fxOne - t) * fxOne / (fxOne + t)) (-320)

/-- Sum of (-1)^n x^(2n+1)/(n! (2n+1)) from a term on. -/
def erfGo (x2 : Nat) : Nat → Nat → Int → Int
  | 0, _, _ => 0
  | f + 1, n, p => p / ((2 * n + 1 : Nat) : Int) + erfGo x2 f (n + 1) (-(p * x2 / ((fxOne * (n + 1) : Nat) : Int)))

/-- arctan of 1/q, by its series. -/
def atanGo (q : Nat) : Nat → Nat → Int → Int
  | 0, _, _ => 0
  | f + 1, k, p => p / ((2 * k + 1 : Nat) : Int) + atanGo q f (k + 1) (-(p / ((q * q : Nat) : Int)))

/-- Pi by Machin's formula. -/
def fxPi : Nat :=
  (16 * atanGo 5 80 0 ((fxOne / 5 : Nat) : Int) - 4 * atanGo 239 30 0 ((fxOne / 239 : Nat) : Int)).toNat

/-- erf of a value. -/
def Num.erf : Num → Num
  | .nan => .nan
  | .inf neg => .fin neg 1 0
  | .fin neg m e =>
    if m = 0 then .fin neg 0 0
    else if fx 6 0 ≤ fx m e then .fin neg 1 0
    else
      let x := fx m e
      let s := (erfGo (fxMul x x) 420 0 x).toNat
      .fin neg (2 * s * fxOne / isqrt (fxPi * fxOne)) (-320)

/-- 1 / (1 + e^-x) of a value. -/
def Num.sigm : Num → Num
  | .nan => .nan
  | .inf neg => if neg then .fin false 0 0 else .fin false 1 0
  | .fin neg m e =>
    if fx 110 0 < fx m e then (if neg then .fin false 0 0 else .fin false 1 0)
    else
      let t := expNegFix (fx m e)
      if neg then quot false t 0 (fxOne + t) 0 else quot false fxOne 0 (fxOne + t) 0

/-- e^x of a value. -/
def Num.exp : Num → Num
  | .nan => .nan
  | .inf neg => if neg then .fin false 0 0 else .inf false
  | .fin neg m e => expFin neg m e

/-- 2^x of a value. -/
def Num.exp2 : Num → Num
  | .nan => .nan
  | .inf neg => if neg then .fin false 0 0 else .inf false
  | .fin neg m e => exp2Fin neg m e

end Sys2Proof.Machine
end

