-- ==== Sys2Proof/Machine/Element.lean ====
section
/-!
DEFINITION. Element programs of the Brush (08 R259-R267) and its reductions (R270-R273).
-/

namespace Sys2Proof.Machine

/-! ### Words of a program (R259-R262) -/

/-- OP. -/
def ewOp (w : BitVec 32) : Nat := fld w 26 6

/-- DST. -/
def ewDst (w : BitVec 32) : Nat := fld w 22 4

/-- A, B and C. -/
def ewSrc (w : BitVec 32) : List Nat := [fld w 17 5, fld w 12 5, fld w 7 5]

/-- How many sources an operation uses; none where OP is reserved (R262). -/
def opSrcs (op : Nat) : Option Nat :=
  if op = 0x01 ∨ op = 0x08 ∨ op = 0x09 ∨ (0x0B ≤ op ∧ op ≤ 0x14) ∨ op = 0x30 ∨ op = 0x31 then some 1
  else if (0x02 ≤ op ∧ op ≤ 0x04) ∨ op = 0x06 ∨ op = 0x07 ∨ op = 0x0A ∨ (0x18 ≤ op ∧ op ≤ 0x1A)
      ∨ (0x20 ≤ op ∧ op ≤ 0x2B) then some 2
  else if op = 0x05 ∨ op = 0x1B then some 3
  else none

/-- A source code that R260 lists. -/
def srcOk (c : Nat) : Bool :=
  c == 0 || (decide (0x08 ≤ c) && decide (c ≤ 0x14)) || c == 0x16 || c == 0x17 || decide (0x18 ≤ c)

/-- A word keeps R259-R262. -/
def ewOk (w : BitVec 32) : Bool :=
  match opSrcs (ewOp w) with
  | none => false
  | some n => fld w 0 7 == 0 && decide (ewDst w ≤ 0xB) && (((ewSrc w).take n).all srcOk)
      && ((ewSrc w).drop n).all fun c => c == 0

/-- The sources that a word reads. -/
def ewUsed (w : BitVec 32) : List Nat := (ewSrc w).take ((opSrcs (ewOp w)).getD 0)

/-- The input views that a program reads. -/
def progReads (p : List (BitVec 32)) : List Nat :=
  (List.range 5).filter fun i => p.any fun w => (ewUsed w).contains (0x10 + i)

/-- A program writes a destination. -/
def progWrites (p : List (BitVec 32)) (d : Nat) : Bool := p.any fun w => ewDst w == d

/-- What pair mode refuses (R267): an I operation, I2F, F2I, RIDX or CIDX. -/
def progInt (p : List (BitVec 32)) : Bool :=
  p.any fun w => (decide (0x20 ≤ ewOp w) && decide (ewOp w ≤ 0x31)) || (ewUsed w).any fun c => c == 0x16 || c == 0x17

/-! ### Operations (R262-R265) -/

/-- A NaN as the canonical one (05 R180). -/
def canon32 (w r : BitVec 32) : BitVec 32 := if (fp32 w).isNan then 0x7FC00000#32 else r

/-- INT32 1 or 0. -/
def flag32 (b : Bool) : BitVec 32 := if b then 1 else 0

/-- A compare of R263: any NaN gives 0, zeros are equal. -/
def cmp32 (op : Nat) (a b : BitVec 32) : Bool :=
  let x := fp32 a
  let y := fp32 b
  if x.isNan || y.isNan then false
  else if op = 0x18 then x.lt y else if op = 0x19 then !y.lt x else !x.lt y && !y.lt x

/-- An I operation, and whether it saturated (R265). -/
def iop32 (op : Nat) (a b : BitVec 32) : BitVec 32 × Bool :=
  match op with
  | 0x20 => satInt32 (a.toInt + b.toInt)
  | 0x21 => satInt32 (a.toInt - b.toInt)
  | 0x22 => satInt32 (a.toInt * b.toInt)
  | 0x23 => (if a.sle b then a else b, false)
  | 0x24 => (if a.sle b then b else a, false)
  | 0x25 => (a &&& b, false)
  | 0x26 => (a ||| b, false)
  | 0x27 => (a ^^^ b, false)
  | 0x28 => (a <<< (b.toNat % 32), false)
  | 0x29 => (a.sshiftRight (b.toNat % 32), false)
  | 0x2A => (flag32 (a.slt b), false)
  | _ => (flag32 (a == b), false)

/-- An F operation with an FP32 result. -/
def fop32 (op : Nat) (a b c : BitVec 32) : BitVec 32 :=
  let x := fp32 a
  match op with
  | 0x02 => fadd32 a b
  | 0x03 => fsub32 a b
  | 0x04 => fmul32 a b
  | 0x05 => toFp32 ((fp32 c).add (x.mul (fp32 b)))
  | 0x06 => fmin32 a b
  | 0x07 => fmax32 a b
  | 0x08 => canon32 a (a &&& 0x7FFFFFFF#32)
  | 0x09 => canon32 a (a ^^^ 0x80000000#32)
  | 0x0A => toFp32 (x.div (fp32 b))
  | 0x0B => toFp32 ((Num.fin false 1 0).div x)
  | 0x0C => toFp32 x.sqrt
  | 0x0D => toFp32 x.rsqrt
  | 0x0E => toFp32 x.exp
  | 0x0F => toFp32 x.exp2
  | 0x10 => toFp32 x.ln
  | 0x11 => toFp32 x.lg
  | 0x12 => toFp32 x.tanh
  | 0x13 => toFp32 x.erf
  | _ => toFp32 x.sigm

/-- One operation in FP32 mode, and whether it saturated. -/
def eop (op : Nat) (a b c : BitVec 32) : BitVec 32 × Bool :=
  if op = 0x01 then (a, false)
  else if op = 0x1B then (if a ≠ 0 then b else c, false)
  else if 0x18 ≤ op ∧ op ≤ 0x1A then (flag32 (cmp32 op a b), false)
  else if 0x20 ≤ op ∧ op ≤ 0x2B then iop32 op a b
  else if op = 0x30 then (toFp32 (Num.ofInt a.toInt), false)
  else if op = 0x31 then
    let r := Fmt.int32.conv .rne false (fp32 a)
    (BitVec.ofNat 32 r.1, decide (16 ≤ r.2))
  else (fop32 op a b c, false)

/-- An FP32 code rounded to BF16, in the low 16 bits (R267). -/
def toBf16 (w : BitVec 32) : BitVec 32 := BitVec.ofNat 32 (Fmt.bf16.conv .rne false (fp32 w)).1

/-- One operation in pair mode: 16-bit values in the low bits (R267). -/
def eopPair (op : Nat) (a b c : BitVec 32) : BitVec 32 :=
  if op = 0x01 then a
  else if op = 0x1B then (if a ≠ 0 then b else c)
  else
    let r := (eop op (a <<< 16) (b <<< 16) (c <<< 16)).1
    if 0x18 ≤ op ∧ op ≤ 0x1A then r else toBf16 r

/-! ### One element (R260 R261) -/

/-- What an element reads beside its temporaries. -/
structure EIn where
  inp : List (BitVec 32)
  ridx : BitVec 32
  cidx : BitVec 32
  k : List (BitVec 32)

/-- e0-e7, OUT, RA, RB and M, by their DST codes, before the first instruction. -/
def eInit : List (BitVec 32) := List.replicate 11 0 ++ [1]

/-- The value of a source. -/
def eSrc (pair : Bool) (x : EIn) (d : List (BitVec 32)) (c : Nat) : BitVec 32 :=
  if c = 0 then 0
  else if c < 0x10 then d.getD (c - 8) 0
  else if c < 0x15 then x.inp.getD (c - 0x10) 0
  else if c = 0x16 then x.ridx
  else if c = 0x17 then x.cidx
  else if pair then (x.k.getD (c - 0x18) 0) &&& 0xFFFF#32 else x.k.getD (c - 0x18) 0

/-- A program run on one element: its destinations, and whether an operation saturated. -/
def eRun (pair : Bool) (x : EIn) (p : List (BitVec 32)) : List (BitVec 32) × Bool :=
  p.foldl (fun r w =>
    let v (i : Nat) : BitVec 32 := eSrc pair x r.1 ((ewSrc w).getD i 0)
    let y := if pair then (eopPair (ewOp w) (v 0) (v 1) (v 2), false) else eop (ewOp w) (v 0) (v 1) (v 2)
    (r.1.set (ewDst w) y.1, r.2 || y.2)) (eInit, false)

/-! ### Reductions (R270-R273) -/

/-- The empty result of an op. -/
def redEmpty (op : Nat) : BitVec 32 :=
  match op with
  | 2 => 0xFF800000#32
  | 3 => 0x7F800000#32
  | 4 => 0xFFFFFFFF#32
  | 7 => 0x80000000#32
  | 8 => 0x7FFFFFFF#32
  | _ => 0

/-- A value with the saturations met on the way to it. -/
abbrev RVal := BitVec 32 × Bool

/-- One combine: FP32 for FSUM, FMAX and FMIN, else INT32; counts add (R273). -/
def redComb (op : Nat) (a b : RVal) : RVal :=
  let r : RVal := match op with
    | 1 => (fadd32 a.1 b.1, false)
    | 2 => (fmax32 a.1 b.1, false)
    | 3 => (fmin32 a.1 b.1, false)
    | 7 => (if a.1.sle b.1 then b.1 else a.1, false)
    | 8 => (if a.1.sle b.1 then a.1 else b.1, false)
    | _ => satInt32 (a.1.toInt + b.1.toInt)
  (r.1, a.2 || b.2 || r.2)

/-- One level of the pairwise tree: a node with one present child passes it. -/
def redPairs (op : Nat) : List (Option RVal) → List (Option RVal)
  | some a :: some b :: l => some (redComb op a b) :: redPairs op l
  | some a :: none :: l => some a :: redPairs op l
  | none :: x :: l => x :: redPairs op l
  | l => l

/-- The root of a chunk: 128 positions make seven levels. -/
def redChunk (op : Nat) (l : List (Option RVal)) : Option RVal :=
  ((List.range 7).foldl (fun l _ => redPairs op l) l).headD none

/-- Two results in order, an absent one being skipped. -/
def redJoin (op : Nat) : Option RVal → Option RVal → Option RVal
  | some a, some b => some (redComb op a b)
  | some a, none => some a
  | none, b => b

/-- The row-axis reduction: chunks of 128, each a tree, then in order (R271). -/
def redRow (op : Nat) : Nat → List (Option RVal) → Option RVal → Option RVal
  | 0, _, acc => acc
  | n + 1, l, acc => if l.isEmpty then acc else redRow op n (l.drop 128) (redJoin op acc (redChunk op (l.take 128)))

/-- The value that an element gives a reduction: counts take 1 or 0 (R270). -/
def redIn (op : Nat) (v : BitVec 32) : BitVec 32 :=
  match op with
  | 5 => flag32 (!(fp32 v).isZero)
  | 9 => flag32 (v != 0)
  | _ => v

/-- The index of the first maximum; NaN ignored (R270 R272). Zeros of both signs are ordered, -0 below +0, as R264 and R276
order them elsewhere: R272 does not say (DESIGN CHOICE, log entry 101). -/
def redArg : Nat → List (Option (BitVec 32)) → Option (Nat × Num) → Option (Nat × Num)
  | _, [], b => b
  | n, none :: vs, b => redArg (n + 1) vs b
  | n, some v :: vs, b =>
    let x := fp32 v
    redArg (n + 1) vs (if x.isNan then b else match b with
      | none => some (n, x)
      | some (m, y) => if y.below x then some (n, x) else some (m, y))

/-- A reduction over the values of one row or column, absent ones being masked. -/
def reduce (op : Nat) (row : Bool) (vs : List (Option (BitVec 32))) : RVal :=
  if op = 4 then
    (match redArg 0 vs none with
      | some (n, _) => BitVec.ofNat 32 n
      | none => redEmpty 4, false)
  else
    let l := vs.map fun v => v.map fun x => ((redIn op x, false) : RVal)
    let r := if row then redRow op (l.length + 1) l none else l.foldl (redJoin op) none
    r.getD (redEmpty op, false)

end Sys2Proof.Machine
end

