-- ==== Sys2Proof/Machine/Units.lean ====
section
/-!
DEFINITION. Unit instructions in their queues (02 R31-R34 R59 R92 R93): finding the instruction that a row works on,
finishing it with a status, completing it. Core sets (12 R417).
-/

namespace Sys2Proof.Machine

/-! ### Statuses (02 R92) -/

def stOk : BitVec 8 := 0x00
def stDeferred : BitVec 8 := 0x01
def stUnmapped : BitVec 8 := 0x40
def stDead : BitVec 8 := 0x41
def stReset : BitVec 8 := 0x42
def stPoisoned : BitVec 8 := 0x43
def stInvalid : BitVec 8 := 0x44
def stMisaligned : BitVec 8 := 0x45

/-- The fault class (02 R92). -/
def faultClass (st : BitVec 8) : Bool := decide (0x40 ≤ st.toNat) && decide (st.toNat < 0x80)

/-- The order in which one instruction reports statuses that arise together (13 R479): PORT_RESET, DEV_UNREACHABLE,
ADDR_UNMAPPED, CORE_DEAD, POISONED. -/
def statusRank (st : BitVec 8) : Nat :=
  if st = stReset then 0
  else if st = 0x52 ∨ st = 0x55 then 1
  else if st = stUnmapped then 2
  else if st = stDead then 3
  else if st = stPoisoned then 4
  else 5

/-- The status reported of two that arose. -/
def worse (a b : Option (BitVec 8)) : Option (BitVec 8) :=
  match a, b with
  | none, b => b
  | a, none => a
  | some x, some y => some (if statusRank x ≤ statusRank y then x else y)

/-! ### Entries -/

/-- The first entry of a queue that a test accepts, with its place. -/
def findEntry (p : UEntry → Bool) : List UEntry → Option (Nat × UEntry)
  | [] => none
  | e :: q => if p e then some (0, e) else (findEntry p q).map fun r => (r.1 + 1, r.2)

/-- The state with an entry replaced. -/
def State.setEntry (s : State) (lc : Nat) (u : UnitId) (i : Nat) (e : UEntry) : State :=
  s.setCore lc ((s.core lc).setQ u (((s.core lc).q u).set i e))

/-- An entry has ended with a status and a summary; it waits for its turn to signal (02 R34). -/
def State.finish (s : State) (lc : Nat) (u : UnitId) (i : Nat) (st : BitVec 8) (v : SumV) : State :=
  match ((s.core lc).q u)[i]? with
  | some e => s.setEntry lc u i { e with fin := some ⟨st, v⟩, begun := true, poi := e.poi || st == stPoisoned }
  | none => s

/-- The work of the first started and unfinished instruction of a group, when it is one of the row's and may work: while the
clock of the core's half runs (03 R112). -/
def State.work (s : State) (lc : Nat) (u : UnitId) (group mine : UOp → Bool)
    (f : State → Nat → UEntry → State) : State :=
  if !s.clocked lc then s
  else match findEntry (fun e => e.started && e.fin.isNone && group e.op) ((s.core lc).q u) with
  | some (i, e) => if mine e.op then f s i e else s
  | none => s

/-- Every earlier entry of the queue has ended. -/
def Core.aheadDone (c : Core) (u : UnitId) (i : Nat) : Bool := ((c.q u).take i).all fun e => e.fin.isSome

/-- A write that a release of entry i covers ended with PORT_RESET (12 R441): of an earlier instruction of the queue, still
there or completed, or one that a ticket's cover brings to the entry. -/
def Core.aheadReset (c : Core) (u : UnitId) (i : Nat) : Bool :=
  setHas c.lost (unitNum u) || ((c.q u)[i]?.map fun e => e.lost).getD false
    || ((c.q u).take i).any fun e => match e.fin with
      | some r => r.status == stReset
      | none => false

/-- Every write that a release of entry i covers has been performed (12 R441): earlier instructions of the queue, and
the scalar stores issued before the dispatch. -/
def Core.covered (c : Core) (u : UnitId) (i : Nat) (e : UEntry) : Bool :=
  c.aheadDone u i && c.stores.all fun p => decide (e.storeMark ≤ p.id)

/-! ### Completion (02 R33 R36 R59 R92 R93) -/

/-- A summary slot written: every field, the status with its unit, SEQ counting up modulo 2^32. -/
def Core.writeSummary (c : Core) (n : BitVec 3) (u : UnitId) (r : Fin) : Core :=
  { c with sum := c.sum.set n.toNat {
      max := r.sum.max, min := r.sum.min, sum := r.sum.sum, nnz := r.sum.nnz, argmax := r.sum.argmax
      flags := r.sum.flags, status := BitVec.ofNat 64 (r.status.toNat + 256 * unitNum u)
      seq := BitVec.ofNat 64 ((c.sum[n.toNat].seq.toNat + 1) % 2 ^ 32) } }

/-- A Stencil instruction that owns the array and the Brush. -/
def UOp.owns : UOp → Bool
  | .stcFwd _ | .stcBwd _ | .stcDec _ => true
  | _ => false

/-- The Stencil's release of the array and the Brush in the cycle of its signal (06 R216, 09 R290). -/
def Core.release (c : Core) (op : UOp) : Core :=
  if UOp.owns op && c.stcOwns then { c with stcOwns := false, bankA := Bank.zero, bankB := Bank.zero } else c

/-- The sample record of a unit instruction that was sampled (19 R625 R626). -/
def State.unitSample (s : State) (lc : Nat) (u : UnitId) (e : UEntry) (st : BitVec 8) : State :=
  if e.sampled then
    s.sampleDone lc e.issued e.pc e.word (unitNum u)
      (b2n (faultClass st) + b2n e.poi * 2 + b2n e.missed * 4 + b2n e.full * 8) e.wait.toNat st.toNat
  else s

/-- A unit instruction has ended with PORT_RESET: its queue's later releases cover it, and so do takes of its ticket. -/
def Core.noteLost (c : Core) (u : UnitId) (ts : BitVec 6) (st : BitVec 8) : Core :=
  if st = stReset then { c with lost := setAdd (setAdd c.lost (unitNum u)) (64 + ts.toNat) } else c

/-- A unit instruction completes: summary, signal, counts, log, sample, exceptions. -/
def State.complete (s : State) (lc : Nat) (u : UnitId) (e : UEntry) (rest : List UEntry) (r : Fin) : State :=
  let s := s.tickCycle lc
  let c := ((s.core lc).setQ u rest).release e.op
  let c := match e.op.slot with
    | some n => c.writeSummary n u r
    | none => c
  let ts := e.op.tickets.2
  let past := c.overflows ts 1
  let s := s.setCore lc ((c.addTick ts 1).noteLost u ts r.status)
  let s := if faultClass r.status then s.event lc 0x40 1 else s
  let s := if r.status = stPoisoned then s.log 5 1 (locSite (s.siteOf lc) (unitBlock u)) 0 else s
  let s := s.unitSample lc u e r.status
  let s := if faultClass r.status && !(s.core lc).faultMask.getLsbD (unitNum u) then s.raiseUnit lc u r.status else s
  if past then s.raise lc 0x11 0 0 else s

/-- UNIT_INSTRUCTION_COMPLETE: the oldest instruction of a unit's queue, which has ended, completes (02 R33 R34); a
Stencil instruction signals once its holds are released (10 R332). No signal leaves a stopped clock (03 R112). -/
def execUnitInstructionComplete (lc : Nat) (u : UnitId) (s : State) : Host.Outcome State Fault Refusal :=
  match (s.core lc).q u with
  | e :: rest => match e.started, e.fin with
    | true, some r =>
      if (u = .stencil ∧ (s.core lc).held ≠ []) ∨ !s.clocked lc then .next s else .next (s.complete lc u e rest r)
    | _, _ => .next s
  | [] => .next s

end Sys2Proof.Machine
end

