-- ==== Sys2Proof/Machine/Feed.lean ====
section
/-!
DEFINITION. Feed descriptors (07 R233-R251): a tensor of up to six dimensions with windows, groups and block scales,
its checks, and the element that a lane and a K index name.
-/

namespace Sys2Proof.Machine

/-- A dimension word (R234). -/
structure FDim where
  ext : Nat
  stride : Int
  sstride : Int
  lane : Bool
  raw : Word
  deriving DecidableEq, Repr

/-- A window field (R235). -/
structure FWin where
  ld : Nat
  kd : Nat
  cs : Nat
  dil : Nat
  org : Int
  bound : Nat
  raw : BitVec 32
  deriving DecidableEq, Repr

/-- A feed descriptor with the format that its tile descriptor gives its operand (R233). -/
structure Feed where
  fmt : Fmt
  scaled : Bool
  base : Int
  sbase : Int
  gkd : Nat
  gld : Nat
  cg : Nat
  ng : Nat
  dims : List FDim
  wins : List FWin
  deriving DecidableEq, Repr

/-- A dimension word read. -/
def fdim (w : Word) : FDim := ⟨fld w 0 16, sfld w 16 24, sfld w 40 20, bitAt w 60, w⟩

/-- A window field read. -/
def fwin (w : BitVec 32) : FWin :=
  ⟨fld w 0 3, fld w 3 3, fld w 6 3 + 1, fld w 9 3 + 1, sfld w 12 12, fld w 24 8, w⟩

/-- A feed descriptor read. -/
def feedOf (fmt : Fmt) (scaled : Bool) (d : Desc) : Feed :=
  let w := dword d 0
  { fmt := fmt, scaled := scaled, base := (fld w 0 21 : Nat), sbase := (fld w 21 21 : Nat), gkd := fld w 42 3, gld := fld w 45 3
    cg := fld w 48 8, ng := fld w 56 8
    dims := (List.range 6).map fun i => fdim (dword d (i + 1))
    wins := [fwin ((dword d 7).setWidth 32), fwin ((dword d 7 >>> 32).setWidth 32)] }

/-- A bit that the tables of R233 do not name is set. -/
def Feed.badBits (f : Feed) : Bool := f.dims.any fun x => decide (fld x.raw 61 3 ≠ 0)

/-- A dimension. -/
def Feed.dim (f : Feed) (i : Nat) : FDim := f.dims.getD i ⟨0, 0, 0, false, 0⟩

/-- The used lane dimensions, in increasing number (R236). -/
def Feed.lanes (f : Feed) : List Nat := (List.range 6).filter fun i => (f.dim i).ext != 0 && (f.dim i).lane

/-- The used K dimensions, in increasing number. -/
def Feed.ks (f : Feed) : List Nat := (List.range 6).filter fun i => (f.dim i).ext != 0 && !(f.dim i).lane

/-- The used windows. -/
def Feed.used (f : Feed) : List FWin := f.wins.filter fun w => w.bound != 0

/-- The dimensions that windows name. -/
def Feed.named (f : Feed) : List Nat := f.used.flatMap fun w => [w.ld, w.kd]

/-- The used dimensions that no window names. -/
def Feed.free (f : Feed) : List Nat := (f.lanes ++ f.ks).filter fun i => !f.named.contains i

/-- The product of the extents of dimensions. -/
def Feed.prod (f : Feed) (l : List Nat) : Nat := l.foldl (fun n i => n * (f.dim i).ext) 1

/-- The scale dimension: the lowest-numbered K dimension (R246). -/
def Feed.sdim (f : Feed) : Option Nat := f.ks.head?

/-- Elements to a packing unit (R239): 2 for FP4, 4 for FP6. -/
def Fmt.unit (f : Fmt) : Nat := if f.bits = 4 then 2 else if f.bits = 6 then 4 else 1

/-- The used dimensions whose STRIDE breaks the packing unit: the packing dimension, where there is one (R239). -/
def Feed.odd (f : Feed) : List Nat :=
  (f.lanes ++ f.ks).filter fun i => (f.dim i).stride % (f.fmt.unit : Int) != 0

/-! ### Checks (R250) -/

/-- A window keeps R235 and R242. -/
def Feed.winOk (f : Feed) (w : FWin) : Bool :=
  if w.bound = 0 then w.raw == 0
  else decide (w.ld ≤ 5) && decide (w.kd ≤ 5) && f.lanes.contains w.ld && f.ks.contains w.kd
    && (f.dim w.kd).stride == 0 && (f.dim w.kd).sstride == 0
    && !(f.odd.length == 1 && f.odd.contains w.kd) && !(f.scaled && f.sdim == some w.kd)

/-- The groups keep R244. GKD and GLD name nothing while CG is 0, so a 6 or 7 there is ignored then and breaks R244 otherwise;
R233's range 0-5 does not say whether it binds by itself (DESIGN CHOICE, log entry 100). -/
def Feed.groupOk (f : Feed) : Bool :=
  f.cg == 0 || (f.ng != 0 && f.ks.contains f.gkd && f.lanes.contains f.gld && !f.named.contains f.gkd
    && !f.named.contains f.gld)

/-- WALK_SHAPE does not arise: R234-R237, R242, R244, R246. -/
def Feed.shapeOk (f : Feed) (klen : Nat) (mask : Nat) (limit : Nat) : Bool :=
  (f.dims.all fun x => x.ext != 0 || x.raw == 0) && f.wins.all f.winOk
    && (f.used.length < 2 || (f.named.eraseDups).length == 4)
    && f.prod f.ks == klen && decide (f.prod f.lanes ≤ limit) && decide (mask < 2 ^ f.prod f.lanes) && f.groupOk
    && !(f.scaled && decide (1 < f.ks.length) && (f.dim (f.sdim.getD 0)).ext % 32 != 0)

/-- WALK_ALIGN does not arise (R239). -/
def Feed.alignOk (f : Feed) : Bool :=
  !(f.fmt.bits == 16 && f.base % 2 != 0)
    && (match f.odd with
      | [] => true
      | [i] => (f.dim i).stride == 1 && (f.dim i).ext % f.fmt.unit == 0 && !f.named.contains i
      | _ => false)

/-- The first byte that holds an element offset, and the bytes that hold it (R238 R181). -/
def Feed.span (f : Feed) (e : Int) : Int × Nat :=
  if f.fmt.bits = 4 then (f.base + e / 2, 1)
  else if f.fmt.bits = 6 then
    let j := 6 * (e % 4).toNat
    (f.base + 3 * (e / 4) + (j / 8 : Nat), (j + 5) / 8 - j / 8 + 1)
  else (f.base + e * (f.fmt.bits / 8 : Nat), f.fmt.bits / 8)

/-- The least and greatest offset of a walk by the strides that `str` picks, and the extents that `ext` gives (R251):
none when a window's clipped range is empty. -/
def Feed.extent (f : Feed) (str : FDim → Int) (ext : Nat → Nat) : Option (Int × Int) :=
  let free := f.free.foldl (fun r i =>
    let a : Int := ((ext i - 1 : Nat) : Int) * str (f.dim i)
    (r.1 + min 0 a, r.2 + max 0 a)) ((0 : Int), (0 : Int))
  f.used.foldl (fun r w => match r with
    | none => none
    | some (lo, hi) =>
      let top : Int := w.org + ((((f.dim w.ld).ext - 1) * w.cs + ((f.dim w.kd).ext - 1) * w.dil : Nat) : Int)
      let l : Int := max 0 w.org
      let h : Int := min top ((w.bound : Int) - 1)
      if h < l then none
      else
        let x := l * str (f.dim w.ld)
        let y := h * str (f.dim w.ld)
        some (lo + min x y, hi + max x y)) (some free)

/-- WALK_RANGE does not arise (R251). -/
def Feed.rangeOk (f : Feed) : Bool :=
  match f.extent FDim.stride (fun i => (f.dim i).ext) with
  | none => true
  | some (lo, hi) =>
    let inHawk (x : Int) (n : Nat) : Bool := decide (0 ≤ x) && decide (x + n ≤ 0x200000)
    inHawk (f.span lo).1 (f.span lo).2 && inHawk (f.span hi).1 (f.span hi).2
      && (!f.scaled ||
        match f.extent FDim.sstride fun i =>
            if f.sdim = some i then ((f.dim i).ext - 1) / 32 + 1 else (f.dim i).ext with
        | none => true
        | some (lo, hi) => inHawk (f.sbase + lo) 1 && inHawk (f.sbase + hi) 1)

/-- The walk checks in their order (R250). -/
def Feed.check (f : Feed) (klen mask limit : Nat) : Option (BitVec 8) :=
  if !f.shapeOk klen mask limit then some 0x52
  else if !f.alignOk then some 0x53
  else if !f.rangeOk then some 0x54
  else none

/-! ### The walk (R236 R238 R241 R243 R245) -/

/-- The coordinates that an index spells over dimensions, the first fastest. -/
def Feed.coords (f : Feed) : List Nat → Nat → List (Nat × Nat)
  | [], _ => []
  | i :: is, x => (i, x % (f.dim i).ext) :: f.coords is (x / (f.dim i).ext)

/-- What a lane and a K index name. -/
inductive FElem
  | excluded
  | padding
  | at (e s : Int)
  deriving DecidableEq, Repr

/-- The element of a lane at a K index. -/
def Feed.elem (f : Feed) (lane k : Nat) : FElem :=
  let cs := f.coords f.lanes lane ++ f.coords f.ks k
  let co (i : Nat) : Nat := (cs.lookup i).getD 0
  if f.cg ≠ 0 ∧ co f.gkd / f.cg ≠ co f.gld / f.ng then .excluded
  else
    let h (w : FWin) : Int := ((co w.ld * w.cs + co w.kd * w.dil : Nat) : Int) + w.org
    if f.used.any fun w => decide (h w < 0) || decide ((w.bound : Int) ≤ h w) then .padding
    else
      let e := f.free.foldl (fun e i => e + (co i : Int) * (f.dim i).stride) 0
      let s := f.free.foldl (fun s i =>
        s + ((if f.sdim = some i then co i / 32 else co i : Nat) : Int) * (f.dim i).sstride) 0
      .at (f.used.foldl (fun e w => e + h w * (f.dim w.ld).stride) e)
        (f.used.foldl (fun s w => s + h w * (f.dim w.ld).sstride) s)

/-- Bytes of a core's hawk, and whether a granule that holds one of them is poisoned (R211 R249). -/
def State.hawkGran (s : State) (lc off len : Nat) : List Byte × Bool :=
  let k := hawkKey (s.siteOf lc) off
  (memGets s.mem k len, s.runPoisoned (k / 64 * 64) ((k + len + 63) / 64 * 64 - k / 64 * 64))

/-- The value that a feeder broadcasts for a lane and a K index: none for an excluded element; and whether poison was
fed. -/
def State.fed (s : State) (lc : Nat) (f : Feed) (lane k : Nat) : Option Num × Bool :=
  match f.elem lane k with
  | .excluded => (none, false)
  | .padding => (some (.zero false), false)
  | .at e o =>
    let (b, n) := f.span e
    let (bs, p) := s.hawkGran lc b.toNat n
    let v := leNat bs
    let code :=
      if f.fmt.bits = 4 then v / 2 ^ (4 * (e % 2).toNat) % 16
      else if f.fmt.bits = 6 then v / 2 ^ (6 * (e % 4).toNat % 8) % 64
      else v
    if f.scaled then
      let (sb, q) := s.hawkGran lc (f.sbase + o).toNat 1
      (some ((f.fmt.num code).mul (scaleNum (leNat sb))), p || q)
    else (some (f.fmt.num code), p)

end Sys2Proof.Machine
end

