-- ==== Sys2Proof/Machine/Trowel.lean ====
section
/-!
DEFINITION. The Trowel (06 R201-R232): TRW.MMA over two feed walks, TRW.DRAIN, TRW.LDACC, TRW.CLR, and a parity error
of an accumulator. Instructions that name one bank act on it in queue order (R210).
-/

namespace Sys2Proof.Machine

/-! ### Banks (R209) -/

/-- A bank of a core. -/
def Core.bank (c : Core) (b : Bool) : Bank := if b then c.bankB else c.bankA

/-- The core with a bank. -/
def Core.setBank (c : Core) (b : Bool) (x : Bank) : Core := if b then { c with bankB := x } else { c with bankA := x }

/-- A cell. -/
def Bank.cell (b : Bank) (i j : Nat) : BitVec 32 := mapGet b.cells (64 * i + j) 0

/-- A cell's saturation mark. -/
def Bank.marked (b : Bank) (i j : Nat) : Bool := setHas b.sat (64 * i + j)

/-- A bank whose cells and marks are given by position. -/
def Bank.build (int thin poison : Bool) (f : Nat → Nat → BitVec 32 × Bool) : Bank :=
  let l := (List.range 4096).map fun n => (n, f (n / 64) (n % 64))
  { cells := (l.filter fun x => x.2.1 != 0).map fun x => (x.1, x.2.1)
    int := int, thin := thin, poison := poison
    sat := (l.filter fun x => x.2.2).map fun x => x.1 }

/-! ### Operand pairs (05 R187) -/

/-- The Trowel operand rank of a format: 5 stands for INT8's. -/
def Fmt.rank : Fmt → Option Nat
  | .bf16 | .fp16 => some 4
  | .e4m3 | .e5m2 => some 3
  | .e2m3 | .e3m2 => some 2
  | .e2m1 => some 1
  | .int8 => some 5
  | .fp32 | .int32 => none

/-- The depth of a pair of ranks, and whether its accumulator is INT32. -/
def pairDepth (a b : Nat) : Nat × Bool :=
  if a = 5 ∧ b = 5 then (4, true)
  else if a = 5 ∨ b = 5 ∨ a = 4 ∨ b = 4 then (2, false)
  else if a = 1 ∧ b = 1 then (8, false)
  else (4, false)

/-! ### TRW.MMA (R219 R220) -/

/-- What the checks of an MMA leave. -/
structure Mma where
  a : Feed
  b : Feed
  rows : Nat
  cols : Nat
  klen : Nat
  depth : Nat
  int : Bool
  thin : Bool
  mz : Bool

/-- The columns of a tile: 64, or 16 output columns in thin mode. -/
def Mma.ncol (m : Mma) : Nat := if m.thin then 16 else 64

/-- Every cell of the bank is fed. -/
def Mma.full (m : Mma) : Bool := m.rows == 2 ^ 64 - 1 && m.cols == 2 ^ m.ncol - 1

/-- Some cell of the bank is kept (R213). -/
def Mma.keeps (m : Mma) : Bool := !m.mz && !m.full

/-- The checks of TRW.MMA in the order of R229 and R250. -/
def mmaCheck (bank : Bank) (init : Bool) (da db dt : Desc) : Except (BitVec 8) Mma :=
  let w := dword dt 2
  let klen := fld w 0 21
  let sa := bitAt w 32
  let sb := bitAt w 33
  let thin := bitAt w 35
  match (fmtOf (fld w 24 4)).bind fun f => f.rank.map fun r => (f, r),
      (fmtOf (fld w 28 4)).bind fun f => f.rank.map fun r => (f, r) with
  | some (fa, ra), some (fb, rb) =>
    let a := feedOf fa sa da
    let b := feedOf fb sb db
    let (d, int) := pairDepth ra rb
    let m : Mma := ⟨a, b, (dword dt 0).toNat, (dword dt 1).toNat, klen, d, int, thin, bitAt w 34⟩
    if ¬ ((List.range 5).all (fun i => dword dt (i + 3) == 0) ∧ onlyBits w [(0, 21), (24, 12)]
        ∧ 1 ≤ klen ∧ klen ≤ 1048576) ∨ (thin ∧ 2 ^ 16 ≤ m.cols) ∨ a.badBits ∨ b.badBits then
      .error stInvalid
    else if (sa ∧ ¬ fa.scalable) ∨ (sb ∧ ¬ fb.scalable) then .error 0x51
    else if (bank.int ≠ int ∨ bank.thin ≠ thin) ∧ (¬ init ∨ m.keeps) then .error 0x50
    else match a.check klen m.rows 64 with
      | some st => .error st
      | none => match b.check klen m.cols m.ncol with
        | some st => .error st
        | none => .ok m
  | _, _ => .error stInvalid

/-- The K indices of group g (R190): d consecutive ones, the last group short. -/
def Mma.group (m : Mma) (g : Nat) : List Nat :=
  (List.range (min m.depth (m.klen - g * m.depth))).map fun i => g * m.depth + i

/-- The number of groups: in thin mode whole feed cycles of four. -/
def Mma.groups (m : Mma) : Nat :=
  let g := (m.klen + m.depth - 1) / m.depth
  if m.thin then (g + 3) / 4 * 4 else g

/-- The integer part of a value: an INT8 operand, or a count held in FP32. -/
def Num.toInt : Num → Int
  | .fin neg m e => if e < 0 then (if neg then -(m / 2 ^ (-e).toNat : Nat) else (m / 2 ^ (-e).toNat : Nat)) else scaleTo neg m e 0
  | _ => 0

/-- One update of a cell (05 R190-R192): the accumulator and the products that remain, rounded once; a cell with no
term keeps its value. -/
def cellUpdate (int : Bool) (acc : BitVec 32) (ts : List Num) : BitVec 32 × Bool :=
  if ts.isEmpty then (acc, false)
  else if int then satInt32 (ts.foldl (fun n t => n + t.toInt) acc.toInt)
  else (toFp32 (Num.sum (fp32 acc :: ts)), false)

/-- The products of a group: a term for each K index at which neither element is excluded. -/
def products : List (Option Num) → List (Option Num) → List Num
  | some a :: as, some b :: bs => a.mul b :: products as bs
  | _ :: as, _ :: bs => products as bs
  | _, _ => []

/-- A cell over its groups in order. -/
def cellRun (int : Bool) (acc : BitVec 32) (sat : Bool) (gs : List (List Num)) : BitVec 32 × Bool :=
  gs.foldl (fun r g => let u := cellUpdate int r.1 g; (u.1, r.2 || u.2)) (acc, sat)

/-- An operand's enabled lanes, each with its groups of values. -/
abbrev Stream := List (Nat × List (List (Option Num)))

/-- The values that a feeder broadcasts, and whether it fed poison. -/
def State.stream (s : State) (lc : Nat) (m : Mma) (f : Feed) (mask : Nat) : Stream × Bool :=
  let gs := (List.range m.groups).map m.group
  ((List.range 64).filter fun i => mask / 2 ^ i % 2 = 1).foldl (fun r i =>
    let vs := gs.map fun ks => ks.map fun k => s.fed lc f i k
    (r.1 ++ [(i, vs.map fun g => g.map fun v => v.1)], r.2 || vs.any fun g => g.any fun v => v.2)) ([], false)

/-- Every fourth group from group b: what a column band of thin mode takes (R214). -/
def bandOf (thin : Bool) (b : Nat) (gs : List (List Num)) : List (List Num) :=
  if thin then ((List.range (gs.length / 4)).map fun t => gs.getD (4 * t + b) []) else gs

/-- The bank after an MMA (R211 R213 R214 R219). -/
def mmaBank (m : Mma) (init : Bool) (old : Bank) (sa sb : Stream) (poison : Bool) : Bank :=
  let cell (i j : Nat) : BitVec 32 × Bool :=
    let c := if m.thin then j % 16 else j
    match sa.lookup i, sb.lookup c with
    | some as, some bs =>
      let gs := bandOf m.thin (j / 16) ((as.zip bs).map fun x => products x.1 x.2)
      if init then cellRun m.int 0 false gs else cellRun m.int (old.cell i j) (old.marked i j) gs
    | _, _ => if m.mz then (0, false) else (old.cell i j, old.marked i j)
  Bank.build (if init then m.int else old.int) (if init then m.thin else old.thin)
    ((old.poison && !(init && !m.keeps)) || poison) cell

/-- An earlier instruction of the queue that names the same bank is unfinished (R210). -/
def UOp.bank : UOp → Option Bool
  | .trwMma f => some f.bankB
  | .trwDrain f => some f.bankB
  | .trwLdacc f => some f.bankB
  | .trwClr f => some f.bankB
  | _ => none

/-- The bank is free for entry i (R210). -/
def Core.bankFree (c : Core) (i : Nat) (b : Bool) : Bool :=
  (c.trwQ.take i).all fun e => e.fin.isSome || UOp.bank e.op != some b

/-- The work of an engine's oldest unfinished instruction, when it is one of the row's and its bank is free. -/
def State.trowel (s : State) (lc : Nat) (engine mine : UOp → Bool) (errs : List MemErr)
    (f : State → Nat → UEntry → State) : State :=
  s.work lc .trowel engine mine fun s i e =>
    if (s.core lc).bankFree i ((UOp.bank e.op).getD false) then f (s.meet errs) i e else s

/-- An MMA performed. -/
def State.doMma (s : State) (lc i : Nat) (e : UEntry) (bankB init : Bool) : State :=
  let old := (s.core lc).bank bankB
  match mmaCheck old init (e.ds.getD 0 0) (e.ds.getD 1 0) (e.ds.getD 2 0) with
  | .error st => s.finish lc .trowel i st {}
  | .ok m =>
    if m.rows = 0 ∨ m.cols = 0 then
      (s.setCore lc ((s.core lc).setBank bankB (mmaBank m init old [] [] false))).finish lc .trowel i 0x10 {}
    else
      let (sa, pa) := s.stream lc m m.a m.rows
      let (sb, pb) := s.stream lc m m.b m.cols
      let s := (s.event lc 0x10 (if m.thin then m.groups / 4 else m.groups)).freeEvent lc 0x11
      let s := s.setCore lc ((s.core lc).setBank bankB (mmaBank m init old sa sb (pa || pb)))
      s.finish lc .trowel i (if pa || pb then stPoisoned else stOk) {}

/-- TRW.MMA (R219). -/
def execTrwMma (lc : Nat) (step : UStep MmaF) (s : State) : Host.Outcome State Fault Refusal :=
  match step with
  | .issue f => .next (s.dispatch lc (.trwMma f) false)
  | .perform errs =>
    .next (s.trowel lc UOp.feeds (fun o => match o with | .trwMma _ => true | _ => false) errs fun s i e =>
      match e.op with
      | .trwMma f => s.doMma lc i e f.bankB f.init
      | _ => s)

/-! ### TRW.DRAIN and TRW.LDACC (R224-R227) -/

/-- A drain descriptor (R225). -/
structure DrainD where
  dst : Nat
  dstride : Nat
  sdst : Nat
  sstride : Nat
  fmt : Fmt
  oscale : Bool
  rmode : Nat
  nosat : Bool
  rows : Nat
  cols : Nat

/-- The bytes of a row. -/
def DrainD.rowBytes (d : DrainD) : Nat := d.cols * d.fmt.bits / 8

/-- A drain descriptor read and checked in the order of R229; `ld` for TRW.LDACC. -/
def drainCheck (d : Desc) (thin ld : Bool) : Except (BitVec 8) DrainD :=
  let w0 := dword d 0
  let w1 := dword d 1
  let w2 := dword d 2
  match fmtOf (fld w2 0 4) with
  | none => .error stInvalid
  | some f =>
    let r : DrainD :=
      ⟨fld w0 0 21, fld w0 32 16, fld w1 0 21, fld w1 32 16, f, bitAt w2 4, fld w2 8 2, bitAt w2 10, fld w2 16 7,
       fld w2 24 7⟩
    let ldOk : Bool := match f with
      | .fp32 | .bf16 | .fp16 | .int32 | .int8 => !r.oscale && r.rmode == 0 && !r.nosat
      | _ => false
    if ¬ (restZero d 3 ∧ onlyBits w0 [(0, 21), (32, 16)] ∧ onlyBits w1 [(0, 21), (32, 16)]
        ∧ onlyBits w2 [(0, 5), (8, 3), (16, 7), (24, 7)] ∧ r.rmode ≤ 1
        ∧ 1 ≤ r.rows ∧ r.rows ≤ 64 ∧ 1 ≤ r.cols ∧ r.cols ≤ (if thin ∧ ¬ ld then 16 else 64)
        ∧ r.cols % f.unit = 0 ∧ (r.oscale → f.scalable) ∧ (ld → ldOk)
        ∧ r.dst + (r.rows - 1) * r.dstride + r.rowBytes ≤ 0x200000
        ∧ (r.oscale → r.sdst + (r.rows - 1) * r.sstride + (r.cols + 31) / 32 ≤ 0x200000)) then
      .error stInvalid
    else if r.dst % 8 ≠ 0 ∨ r.dstride % 8 ≠ 0 then .error stMisaligned
    else .ok r

/-- The value of a cell, and whether reading it met a saturation: a thin bank combines its four bands (R215). -/
def Bank.value (b : Bank) (r c : Nat) : BitVec 32 × Bool :=
  if b.thin then
    let p (q : Nat) : BitVec 32 := b.cell r (16 * q + c)
    let m := (List.range 4).any fun q => b.marked r (16 * q + c)
    if b.int then
      let x := satInt32 ((p 0).toInt + (p 1).toInt)
      let y := satInt32 ((p 2).toInt + (p 3).toInt)
      let z := satInt32 (x.1.toInt + y.1.toInt)
      (z.1, m || x.2 || y.2 || z.2)
    else (fadd32 (fadd32 (p 0) (p 1)) (fadd32 (p 2) (p 3)), m)
  else (b.cell r c, b.marked r c)

/-- The number that a bank's word holds. -/
def Bank.num (b : Bank) (w : BitVec 32) : Num := if b.int then Num.ofInt w.toInt else fp32 w

/-- A drained row: its bytes, its scale bytes, the values written, the FLAGS bits. -/
structure DrainRow where
  bytes : List Byte
  scales : List Byte
  vals : List Num
  flags : Nat

/-- The rounding of an element: RMODE 1 draws (05 R194-R196). -/
def rounding (rmode : Nat) (lc : Nat) (e : UEntry) (idx : Nat) : Round :=
  if rmode = 1 then .sr (srDraw e.seed lc e.ord idx) else .rne

/-- The bank values that an output element is made of: one cell, or those of the four bands (R215 R230). -/
def Bank.parts (b : Bank) (r c : Nat) : List Num :=
  if b.thin then (List.range 4).map fun q => b.num (b.cell r (16 * q + c)) else [b.num (b.cell r c)]

/-- A row converted (R224); the flags are those of the bank values read and of the values written (R198 R230). -/
def drainRow (b : Bank) (d : DrainD) (rm : Nat → Round) (r : Nat) : DrainRow :=
  let src := (List.range d.cols).map fun c => b.value r c
  let vs := src.map fun x => b.num x.1
  let fl := flagsOf ((List.range d.cols).flatMap (b.parts r)) ||| satFlag (src.any fun x => x.2)
  if d.oscale then
    let (scs, cs, f2) := quantise d.fmt (fun c => rm (r * 64 + c)) (d.cols + 1) 0 vs
    let out := (List.range cs.length).map fun c => (d.fmt.num (cs.getD c 0)).mul (scaleNum (scs.getD (c / 32) 0))
    ⟨packElems d.fmt cs, scs.map (BitVec.ofNat 8), out, fl ||| f2 ||| flagsOf out⟩
  else
    let cv := (List.range vs.length).map fun c => d.fmt.conv (rm (r * 64 + c)) d.nosat (vs.getD c .nan)
    let out := cv.map fun x => d.fmt.num x.1
    ⟨packElems d.fmt (cv.map fun x => x.1), [], out, cv.foldl (fun m x => m ||| x.2) fl ||| flagsOf out⟩

/-- A value as a summary field holds it (02 R58): FP32, or a sign-extended integer. -/
def sumWord (int : Bool) (v : Num) : Word :=
  if int then BitVec.ofInt 64 v.toInt else (toFp32 v).setWidth 64

/-- SUM of integer data: the INT32 sum, below an upper half that the spec leaves open (02 R58, log entry 81). -/
def intSum (v : BitVec 32) : Word := Config.intSumTop v ++ v

/-- The first maximum of values with its position: NaN values are left out. -/
def bestOf (lt : Num → Num → Bool) : Nat → List Num → Option (Nat × Num) → Option (Nat × Num)
  | _, [], b => b
  | n, v :: vs, b =>
    if v.isNan then bestOf lt (n + 1) vs b
    else match b with
      | none => bestOf lt (n + 1) vs (some (n, v))
      | some (m, w) => bestOf lt (n + 1) vs (some (if lt w v then (n, v) else (m, w)))

/-- MAX, MIN, NNZ and ARGMAX of values in order, `idx` giving the index of a position (R230, 08 R283). -/
def statsOf (int : Bool) (idx : Nat → Nat) (vs : List Num) : SumV :=
  let hi := bestOf Num.below 0 vs none
  let lo := bestOf (fun a b => Num.below b a) 0 vs none
  let w (x : Option (Nat × Num)) : Word := match x with
    | some (_, v) => sumWord int v
    | none => 0x7FC00000
  { max := w hi, min := w lo, nnz := BitVec.ofNat 64 (vs.filter fun v => !v.isZero).length
    argmax := match hi with | some (n, _) => BitVec.ofNat 64 (idx n) | none => 0 }

/-- A DRAIN performed (R224 R226 R230). One that fails a check writes no value, and its MAX and MIN read 0 (02 R59; DEDUCED, log
entry 102). -/
def State.doDrain (s : State) (lc i : Nat) (e : UEntry) (f : DrainF) : State :=
  let b := (s.core lc).bank f.bankB
  match drainCheck (e.ds.headD 0) b.thin false with
  | .error st => s.finish lc .trowel i st {}
  | .ok d =>
    let rows := (List.range d.rows).map fun r => drainRow b d (rounding d.rmode lc e) r
    let s := s.event lc 0x12 d.rows
    let s := (List.range d.rows).foldl (fun s r =>
      let x := rows.getD r ⟨[], [], [], 0⟩
      let o := d.dst + r * d.dstride
      let q := d.sdst + r * d.sstride
      let s := s.hawkWrite lc o x.bytes
      let s := if b.poison then s.hawkPoison lc o x.bytes.length else s
      if x.scales.isEmpty then s
      else
        let s := s.hawkWrite lc q x.scales
        if b.poison then s.hawkPoison lc q x.scales.length else s) s
    let v := statsOf (match d.fmt with | .int8 | .int32 => true | _ => false) (fun n => n / d.cols * 64 + n % d.cols)
      (rows.flatMap fun x => x.vals)
    let v := { v with flags := flagWord (poisonFlag b.poison :: rows.map fun x => x.flags) }
    let s := if f.clr then
        s.setCore lc ((s.core lc).setBank f.bankB (Bank.build b.int b.thin false fun r c =>
          if r < d.rows then (0, false) else (b.cell r c, b.marked r c)))
      else s
    s.finish lc .trowel i (if b.poison then stPoisoned else stOk) v

/-- TRW.DRAIN (R224). -/
def execTrwDrain (lc : Nat) (step : UStep DrainF) (s : State) : Host.Outcome State Fault Refusal :=
  match step with
  | .issue f =>
    .next (s.dispatch lc (.trwDrain f) (decide (fld (dword ((s.core lc).rd f.dd) 2) 8 2 = 1)))
  | .perform errs =>
    .next (s.trowel lc UOp.drains (fun o => match o with | .trwDrain _ => true | _ => false) errs fun s i e =>
      match e.op with
      | .trwDrain f => s.doDrain lc i e f
      | _ => s)

/-- A source element as a cell holds it exactly (R227): every NaN as the canonical one (05 R180). -/
def ldCell (f : Fmt) (code : Nat) : BitVec 32 :=
  match f with
  | .int8 | .int32 => BitVec.ofInt 32 (f.num code).toInt
  | _ => toFp32 (f.num code)

/-- A LDACC performed (R227). -/
def State.doLdacc (s : State) (lc i : Nat) (e : UEntry) (bankB : Bool) : State :=
  match drainCheck (e.ds.headD 0) ((s.core lc).bank bankB).thin true with
  | .error st => s.finish lc .trowel i st {}
  | .ok d =>
    let rows := (List.range d.rows).map fun r => s.hawkGran lc (d.dst + r * d.dstride) d.rowBytes
    let poison := rows.any fun x => x.2
    let int := match d.fmt with | .int8 | .int32 => true | _ => false
    let b := Bank.build int false poison fun r c =>
      if c < d.cols then (match rows[r]? with | some x => ldCell d.fmt (elemAt d.fmt x.1 c) | none => 0, false)
      else (0, false)
    (s.setCore lc ((s.core lc).setBank bankB b)).finish lc .trowel i (if poison then stPoisoned else stOk) {}

/-- TRW.LDACC (R227). It rounds nothing, so one whose descriptor holds RMODE 1, which its perform refuses, counts as no
unit instruction with RMODE 1, where a TRW.DRAIN or BRS.RUN that is refused counts: 05 R196 does not say (DESIGN CHOICE, log
entry 99). -/
def execTrwLdacc (lc : Nat) (step : UStep LdaccF) (s : State) : Host.Outcome State Fault Refusal :=
  match step with
  | .issue f => .next (s.dispatch lc (.trwLdacc f) false)
  | .perform errs =>
    .next (s.trowel lc UOp.drains (fun o => match o with | .trwLdacc _ => true | _ => false) errs fun s i e =>
      match e.op with
      | .trwLdacc f => s.doLdacc lc i e f.bankB
      | _ => s)

/-- TRW.CLR: +0 in every cell, type TY, THIN TH, no mark (R228). -/
def execTrwClr (lc : Nat) (step : UStep ClrF) (s : State) : Host.Outcome State Fault Refusal :=
  match step with
  | .issue f => .next (s.dispatch lc (.trwClr f) false)
  | .perform errs =>
    .next (s.trowel lc UOp.feeds (fun o => match o with | .trwClr _ => true | _ => false) errs fun s i e =>
      match e.op with
      | .trwClr f =>
        (s.setCore lc ((s.core lc).setBank f.bankB { Bank.zero with int := f.ty, thin := f.th })).finish
          lc .trowel i stOk {}
      | _ => s)

/-- The physical rows or columns that the logical ones use, in order, given the two skip fields of TRW_REPAIR: those not
skipped, the first 64 (R204). -/
def usedLines (w : Word) (lo : Nat) : List Nat :=
  let skip (k n : Nat) : Bool := bitAt w (k + 7) && decide (fld w k 7 = n)
  ((List.range 66).filter fun n => !skip lo n && !skip (lo + 8) n).take 64

/-- TRW_ACCUMULATOR_PARITY_ERROR: parity of an accumulator word or of a deskew entry of a physical cell that is in use. The
mark of the bank that it holds or feeds is set, the cell is recorded in the snag list with INSERVICE, and the fault is
counted and logged; the core runs on (R204 R208 R232, 16 R546 R555). -/
def execTrwAccumulatorParityError (lc : Nat) (bankB : Bool) (row col : Nat) (s : State) :
    Host.Outcome State Fault Refusal :=
  let w := s.reg (.trwRepair lc)
  if s.valid lc ∧ (usedLines w 0).contains row ∧ (usedLines w 16).contains col then
    let c := s.core lc
    let loc : Word := BitVec.ofNat 64 (s.siteOf lc * 256 + row * 2 ^ 16 + col * 2 ^ 24)
    let s := s.setCore lc (c.setBank bankB { c.bank bankB with poison := true })
    let s := s.incRf (.trwStatus lc) 48 16 1
    .next ((s.log 6 2 loc 0).snagIn 2 loc)
  else .next s

end Sys2Proof.Machine
end

