-- ==== Sys2Proof/Machine/Brush.lean ====
section
/-!
DEFINITION. The Brush (08 R252-R288): tile views, BRS.LDP and BRS.RUN with masks, reductions, conversion, quantisation
and the summary.
-/

namespace Sys2Proof.Machine

/-! ### Views (R254 R255) -/

/-- A view word read; a reserved format stands as FP32 and is refused by the checks. -/
structure BView where
  raw : Word
  base : Nat
  code : Nat
  scale : Bool
  en : Bool
  rs : Int
  cs : Int
  deriving DecidableEq, Repr

/-- A view word read. -/
def viewOf (w : Word) : BView := ⟨w, fld w 0 21, fld w 21 4, bitAt w 25, bitAt w 26, sfld w 27 21, sfld w 48 12⟩

/-- A view's format. -/
def BView.fmt (v : BView) : Fmt := (fmtOf v.code).getD .fp32

/-- The bytes that hold position (r, c), and the bit at which its element begins in them. -/
def BView.span (v : BView) (r c : Nat) : Int × Nat × Nat :=
  let row : Int := (v.base : Int) + r * v.rs
  let i : Int := c * v.cs
  if v.fmt.bits = 4 then (row + i / 2, 1, 4 * (i % 2).toNat)
  else if v.fmt.bits = 6 then
    let j := 6 * (i % 4).toNat
    (row + 3 * (i / 4) + (j / 8 : Nat), (j % 8 + 13) / 8, j % 8)
  else (row + i * (v.fmt.bits / 8 : Nat), v.fmt.bits / 8, 0)

/-- A RUN's header and views (R279). -/
structure BRun where
  hd : Desc
  rows : Nat
  cols : Nat
  pslot : Nat
  pair : Bool
  mz : Bool
  rmode : Nat
  nosat : Bool
  red : List (Nat × Bool × Bool)
  sumsrc : Nat
  rbase : BitVec 32
  cbase : BitVec 32
  isb : Nat
  isrs : Int
  sin : Nat
  osb : Nat
  osrs : Int
  oscale : Bool
  k : List (BitVec 32)
  views : List BView

/-- A RUN's descriptors read. -/
def brunOf (h v : Desc) : BRun :=
  let w := dword h 0
  { hd := h, rows := fld w 0 16, cols := fld w 16 16, pslot := fld w 32 3, pair := bitAt w 35, mz := bitAt w 36
    rmode := fld w 37 2, nosat := bitAt w 39
    red := [(fld w 40 4, bitAt w 44, bitAt w 45), (fld w 46 4, bitAt w 50, bitAt w 51)]
    sumsrc := fld w 52 2
    rbase := (dword h 1).setWidth 32, cbase := (dword h 1 >>> 32).setWidth 32
    isb := fld (dword h 2) 0 21, isrs := sfld (dword h 2) 21 21, sin := fld (dword h 2) 42 3
    osb := fld (dword h 3) 0 21, osrs := sfld (dword h 3) 21 21, oscale := bitAt (dword h 3) 42
    k := (List.range 8).map fun i => (dword h (4 + i / 2) >>> (32 * (i % 2))).setWidth 32
    views := (List.range 8).map fun i => viewOf (dword v i) }

/-- A view by its number: I0-I4, OUT 5, RA 6, RB 7. -/
def BRun.view (b : BRun) (i : Nat) : BView := b.views.getD i (viewOf 0)

/-- A reduction: op, column axis, accumulating. -/
def BRun.redn (b : BRun) (j : Nat) : Nat × Bool × Bool := b.red.getD j (0, false, false)

/-- The rows and columns of positions of a view. -/
def BRun.dim (b : BRun) (i : Nat) : Nat × Nat :=
  if i < 6 then (b.rows, b.cols) else if (b.redn (i - 6)).2.1 then (1, b.cols) else (b.rows, 1)

/-- Where the scale bytes of a view begin, and their row stride (R257 R275). -/
def BRun.scales (b : BRun) (i : Nat) : Option (Nat × Int) :=
  if i < 5 ∧ (b.view i).scale then some (b.isb, b.isrs)
  else if i = 5 ∧ b.oscale then some (b.osb, b.osrs) else none

/-- The byte hull of a view: first byte, and the byte after the last (R655). -/
def BRun.hull (b : BRun) (i : Nat) : Int × Int :=
  let v := b.view i
  let (nr, nc) := b.dim i
  let ps := [(0, 0), (0, nc - 1), (nr - 1, 0), (nr - 1, nc - 1)]
  let sp := ps.map fun p => let x := v.span p.1 p.2; (x.1, x.1 + (x.2.1 : Int))
  let sc := match b.scales i with
    | some (sb, rs) => ps.map fun p =>
        let x : Int := (sb : Int) + p.1 * rs + (p.2 / 32 : Nat)
        (x, x + 1)
    | none => []
  match sp ++ sc with
  | [] => (0, 0)
  | x :: l => l.foldl (fun h y => (min h.1 y.1, max h.2 y.2)) x

/-- The byte set of a view (R655). -/
def BRun.bytes (b : BRun) (i : Nat) : List Int :=
  let v := b.view i
  let (nr, nc) := b.dim i
  (List.range nr).flatMap fun r => (List.range nc).flatMap fun c =>
    let (s, n, _) := v.span r c
    ((List.range n).map fun (j : Nat) => s + (j : Int))
      ++ (match b.scales i with
        | some (sb, rs) => [(sb : Int) + r * rs + (c / 32 : Nat)]
        | none => [])

/-- Two hulls meet. -/
def hullsMeet (a b : Int × Int) : Bool := decide (a.1 < b.2) && decide (b.1 < a.2)

/-- The enabled views. -/
def BRun.enabled (b : BRun) : List Nat := (List.range 8).filter fun i => (b.view i).en

/-- A RUN's writes meet another's reads or writes, or the reverse (R282). -/
def runsConflict (a b : BRun) : Bool :=
  let outs (x : BRun) : List Nat := x.enabled.filter fun i => decide (5 ≤ i)
  ((outs a).any fun i => b.enabled.any fun j => hullsMeet (a.hull i) (b.hull j))
    || ((outs b).any fun i => a.enabled.any fun j => hullsMeet (b.hull i) (a.hull j))

/-! ### Checks (R285) -/

/-- The view format that an op allows (R270). -/
def redFmtOk (op : Nat) (f : Fmt) : Bool :=
  match op with
  | 1 | 2 | 3 => !f.isInt
  | 6 | 7 | 8 => f.isInt
  | _ => f == .int32

/-- DESC_INVALID. -/
def BRun.invalid (b : BRun) : Bool :=
  let bad (v : BView) : Bool :=
    fld v.raw 60 4 != 0 || (!v.en && v.raw != 0)
      || (v.en && ((fmtOf v.code).isNone || (decide (v.fmt.bits ≤ 6) && v.cs != 0 && v.cs != 1)))
  let badPair (i : Nat) : Bool := let v := b.view i; v.en && v.fmt != .bf16
  let badRed (j : Nat) : Bool :=
    let (op, _, acc) := b.redn j
    let v := b.view (6 + j)
    decide (9 < op) || ((op != 0) != v.en)
      || (op != 0 && (!redFmtOk op v.fmt || (op == 4 && acc) || (b.pair && v.fmt.isInt)))
  fld (dword b.hd 0) 54 10 != 0 || fld (dword b.hd 2) 45 19 != 0 || fld (dword b.hd 3) 43 21 != 0
    || b.rows == 0 || b.cols == 0 || decide (1 < b.rmode) || b.sumsrc == 3 || decide (4 < b.sin)
    || b.views.any bad || (b.pair && (List.range 6).any badPair) || badRed 0 || badRed 1

/-- MISALIGNED. -/
def BRun.misaligned (b : BRun) : Bool :=
  b.enabled.any fun i =>
    let v := b.view i
    let m := if v.fmt.bits = 16 then 2 else if v.fmt.bits = 32 then 4 else 1
    v.base % m != 0 || v.rs % (m : Int) != 0

/-- SCALE_INVALID. -/
def BRun.scaleBad (b : BRun) (p : List (BitVec 32)) : Bool :=
  let sc := (List.range 5).filter fun i => (b.view i).en && (b.view i).scale
  let o := b.view 5
  decide (1 < sc.length) || (sc.any fun i => (b.view i).cs != 1 || !(b.view i).fmt.scalable)
    || (match sc with | i :: _ => b.sin != i | [] => false)
    || (([5, 6, 7] : List Nat).any fun i => (b.view i).scale)
    || (b.oscale && (!o.en || o.cs != 1 || !o.fmt.scalable || (progWrites p 0xB && !b.mz)))

/-- VIEW_OVERLAP (R283). -/
def BRun.overlap (b : BRun) : Bool :=
  (([5, 6, 7] : List Nat).filter fun i => (b.view i).en).any fun i =>
    b.enabled.any fun j =>
      decide (i ≠ j) && !(i == 5 && decide (j < 5) && (b.view i).raw == (b.view j).raw)
        && hullsMeet (b.hull i) (b.hull j)
        && (let y := b.bytes j; (b.bytes i).any fun x => y.contains x)

/-- The checks of BRS.RUN in their order, over the program of its slot. SCALE 1 in an input view of pair mode breaks a rule
of R267 that is none of a format, PROG_INVALID; in OUT it is R254's SCALE_INVALID (DEDUCED, log entry 15). -/
def BRun.check (b : BRun) (p : List (BitVec 32)) : Option (BitVec 8) :=
  if b.invalid then some stInvalid
  else if b.misaligned then some stMisaligned
  else if p.isEmpty then some 0x50
  else if (progReads p).any (fun i => !(b.view i).en) || (progWrites p 8 && !(b.view 5).en) ||
      (b.pair && (progInt p || (List.range 5).any fun i => (b.view i).en && (b.view i).scale)) then
    some 0x51
  else if b.scaleBad p then some 0x52
  else if b.enabled.any fun i => decide ((b.hull i).1 < 0) || decide (0x200000 < (b.hull i).2) then some 0x53
  else if b.overlap then some 0x54
  else none

/-! ### Elements -/

/-- An element of a view as its code, and whether it lies in a poisoned granule (R269). -/
def State.viewCode (s : State) (lc : Nat) (v : BView) (r c : Nat) : Nat × Bool :=
  let (o, n, sh) := v.span r c
  let (bs, p) := s.hawkGran lc o.toNat n
  (leNat bs / 2 ^ sh % 2 ^ v.fmt.bits, p)

/-- An input element as a lane holds it (R256 R257), its poison, the FLAGS bits of its value. -/
def State.viewIn (s : State) (lc : Nat) (b : BRun) (v : BView) (pair : Bool) (r c : Nat) : BitVec 32 × Bool × Nat :=
  let (code, p) := s.viewCode lc v r c
  let f := v.fmt
  if pair then (BitVec.ofNat 32 code, p, (f.num code).flags)
  else if f.isInt then (BitVec.ofInt 32 (f.num code).toInt, p, 0)
  else if f = .fp32 then (BitVec.ofNat 32 code, p, (f.num code).flags)
  else if v.scale then
    let (sb, q) := s.hawkGran lc ((b.isb : Int) + r * b.isrs + (c / 32 : Nat)).toNat 1
    let w := toFp32 ((f.num code).mul (scaleNum (leNat sb)))
    (w, p || q, (fp32 w).flags)
  else (toFp32 (f.num code), p, (f.num code).flags)

/-- What a program leaves for one position. -/
structure BElem where
  live : Bool
  out : BitVec 32
  ra : BitVec 32
  rb : BitVec 32
  poi : Bool
  flags : Nat

/-- The program run at one position: a poisoned element counts as unmasked (R268 R269). An enabled view that the program never
names is not read, so that nothing in it poisons the element or sets FLAGS (DEDUCED, log entry 122). -/
def State.element (s : State) (lc : Nat) (b : BRun) (p : List (BitVec 32)) (reads : List Nat) (r c : Nat) : BElem :=
  let ins := (List.range 5).map fun i =>
    if reads.contains i then s.viewIn lc b (b.view i) b.pair r c else ((0 : BitVec 32), false, 0)
  let poi := ins.any fun x => x.2.1
  let x : EIn := ⟨ins.map fun x => x.1, b.rbase + BitVec.ofNat 32 r, b.cbase + BitVec.ofNat 32 c, b.k⟩
  let (d, sat) := eRun b.pair x p
  let live := d.getD 0xB 0 != 0 || poi
  ⟨live, d.getD 8 0, d.getD 9 0, d.getD 10 0, poi,
   if live then ins.foldl (fun m y => m ||| y.2.2) (satFlag sat ||| poisonFlag poi) else 0⟩

/-- A position's OUT value, as its view's format reads the lane (R274). -/
def BRun.outNum (b : BRun) (w : BitVec 32) : Num :=
  if b.pair then Fmt.bf16.num w.toNat
  else if (b.view 5).fmt.isInt then Num.ofInt w.toInt else fp32 w

/-- What a row writes to OUT: by column the code where one is written, its poison; the scale bytes with their poison;
the value written by an unmasked element; the FLAGS bits. -/
structure BOut where
  codes : List (Option (Nat × Bool))
  scales : List (Nat × Bool)
  vals : List (Option Num)
  flags : Nat

/-- A row of OUT (R268 R274 R275). The scale byte of a block with a poisoned element is poisoned (DEDUCED, log entry 124). A
block whose scale is 0xFF because of an infinity sets the infinity flag (05 R186), and its values, which read as NaN, the NaN
flag (DEDUCED, log entry 125). -/
def BRun.outRow (b : BRun) (rm : Nat → Round) (r : Nat) (es : List BElem) : BOut :=
  let f := (b.view 5).fmt
  if b.oscale then
    let (scs, cs, fl) := quantise f (fun c => rm (r * b.cols + c)) (es.length + 1) 0
      (es.map fun e => if e.live then b.outNum e.out else .zero false)
    let vals := (List.range es.length).map fun c =>
      match es[c]? with
      | some e => if e.live then some ((f.num (cs.getD c 0)).mul (scaleNum (scs.getD (c / 32) 0))) else none
      | none => none
    let codes := (List.range es.length).map fun c =>
      match es[c]? with
      | some e => if e.live then some (cs.getD c 0, e.poi) else if b.mz then some (cs.getD c 0, false) else none
      | none => none
    let scales := (List.range scs.length).map fun i =>
      (scs.getD i 0, ((es.drop (32 * i)).take 32).any fun e => e.live && e.poi)
    ⟨codes, scales, vals, fl ||| flagsOf (vals.filterMap id)⟩
  else
    let cv := (List.range es.length).map fun c =>
      match es[c]? with
      | some e => if e.live then some (f.conv (rm (r * b.cols + c)) b.nosat (b.outNum e.out), e.poi) else none
      | none => none
    let vals := cv.map fun x => x.map fun y => f.num y.1.1
    ⟨cv.map fun x => (match x with
        | some y => some (y.1.1, y.2)
        | none => if b.mz then some (0, false) else none),
     [], vals, cv.foldl (fun m x => m ||| (match x with | some y => y.1.2 | none => 0)) (flagsOf (vals.filterMap id))⟩

/-! ### Writes -/

/-- An element's code put over the bytes that a RUN writes: the other bits of a shared byte are kept (R268). -/
def State.putCode (s : State) (lc : Nat) (v : BView) (r c code : Nat) (m : FMap Byte) : FMap Byte :=
  let (o, n, sh) := v.span r c
  let o := o.toNat
  let old := leNat ((List.range n).map fun j =>
    (mapGet? m (o + j)).getD (memGet s.mem (hawkKey (s.siteOf lc) (o + j))))
  let new := old - old / 2 ^ sh % 2 ^ v.fmt.bits * 2 ^ sh + code % 2 ^ v.fmt.bits * 2 ^ sh
  (List.range n).foldl (fun m j => mapSet m (o + j) (BitVec.ofNat 8 (new / 2 ^ (8 * j)))) m

/-- The runs of consecutive bytes of a map. -/
def runsOf : FMap Byte → List (Nat × List Byte)
  | [] => []
  | (a, b) :: m =>
    match runsOf m with
    | (c, bs) :: rs => if c = a + 1 then (a, b :: bs) :: rs else (a, [b]) :: (c, bs) :: rs
    | [] => [(a, [b])]

/-- Bytes of a view are written, then granules are poisoned (R269, 16 R543 R544). -/
def State.writeView (s : State) (lc : Nat) (m : FMap Byte) (poison : List Nat) : State :=
  let s := (runsOf m).foldl (fun s x => s.hawkWrite lc x.1 x.2) s
  poison.foldl (fun s o => s.hawkPoison lc o 1) s

/-- Lists of n. -/
def chunksOf {α : Type} (n : Nat) : Nat → List α → List (List α)
  | 0, _ => []
  | k + 1, l => if l.isEmpty then [] else l.take n :: chunksOf n k (l.drop n)

/-- The waves of a RUN (R253): whole rows, or cuts of a row. -/
def BRun.waves (b : BRun) : List (List (Nat × Nat)) :=
  let w := if b.pair then 256 else 128
  let row (r : Nat) : List (Nat × Nat) := (List.range b.cols).map fun c => (r, c)
  if b.cols ≤ w then chunksOf (w / b.cols * b.cols) (b.rows * b.cols + 1) ((List.range b.rows).flatMap row)
  else (List.range b.rows).flatMap fun r => chunksOf w (b.cols + 1) (row r)

/-- The OUT writes of a RUN: no result depends on its waves (R253). -/
def State.writeOut (s : State) (lc : Nat) (b : BRun) (outs : List BOut) : State :=
  let v := b.view 5
  let row (x : FMap Byte × List Nat) (r : Nat) : FMap Byte × List Nat :=
    let o := outs.getD r ⟨[], [], [], 0⟩
    (List.range b.cols).foldl (fun (x : FMap Byte × List Nat) c =>
      let x := match o.codes.getD c none with
        | some (code, p) =>
          let (a, n, _) := v.span r c
          (s.putCode lc v r c code x.1, if p then x.2 ++ (List.range n).map (fun j => a.toNat + j) else x.2)
        | none => x
      if b.oscale && c % 32 == 0 then
        match o.scales[c / 32]? with
        | some (sc, p) =>
          let a := ((b.osb : Int) + r * b.osrs + (c / 32 : Nat)).toNat
          (mapSet x.1 a (BitVec.ofNat 8 sc), if p then x.2 ++ [a] else x.2)
        | none => x
      else x) x
  let (m, ps) := (List.range b.rows).foldl row ([], [])
  s.writeView lc m ps

/-- A reduction's output: its position, code, value, poison, FLAGS bits. -/
structure BRed where
  pos : Nat × Nat
  code : Nat
  val : Num
  poi : Bool
  flags : Nat

/-- The outputs of reduction j (R270-R274). A poisoned old value poisons the result (R273), and counts as poison met
(DEDUCED, log entry 123). -/
def State.reds (s : State) (lc : Nat) (b : BRun) (rm : Nat → Round) (j : Nat) (es : List (List BElem)) : List BRed :=
  let (op, colAxis, acc) := b.redn j
  let v := b.view (6 + j)
  if op = 0 then []
  else
    let inp (e : BElem) : BitVec 32 :=
      let x := if j = 0 then e.ra else e.rb
      if b.pair then x <<< 16 else x
    let lines : List (List BElem) :=
      if colAxis then (List.range b.cols).map fun c => es.filterMap fun row => row[c]? else es
    (List.range lines.length).map fun i =>
      let l := lines.getD i []
      let pos := if colAxis then (0, i) else (i, 0)
      let (x, sat) := reduce op (!colAxis) (l.map fun e => if e.live then some (inp e) else none)
      let poi := l.any fun e => e.live && e.poi
      let (x, sat, poi) :=
        if acc then
          let (o, q, _) := s.viewIn lc b v false pos.1 pos.2
          let y := redComb op (o, false) (x, false)
          (y.1, sat || y.2, poi || q)
        else (x, sat, poi)
      let num := if op = 1 ∨ op = 2 ∨ op = 3 then fp32 x else Num.ofInt x.toInt
      let (code, fl) := v.fmt.conv (rm (2 ^ (40 + j) + i)) b.nosat num
      ⟨pos, code, v.fmt.num code, poi, fl ||| (v.fmt.num code).flags ||| satFlag sat ||| poisonFlag poi⟩

/-- The writes of a reduction. -/
def State.writeReds (s : State) (lc : Nat) (v : BView) (rs : List BRed) : State :=
  let (m, ps) := rs.foldl (fun (x : FMap Byte × List Nat) r =>
    let (a, n, _) := v.span r.pos.1 r.pos.2
    (s.putCode lc v r.pos.1 r.pos.2 r.code x.1,
     if r.poi then x.2 ++ (List.range n).map (fun j => a.toNat + j) else x.2)) ([], [])
  s.writeView lc m ps

/-! ### The summary (R276) -/

/-- SUM over rows of scanned values. -/
def sumOf (int : Bool) (rows : List (List (Option Num))) : Word :=
  let op := if int then 6 else 1
  let val (v : Num) : RVal := (if int then BitVec.ofInt 32 v.toInt else toFp32 v, false)
  let r := rows.foldl (fun acc row => redJoin op acc (redRow op (row.length + 1) (row.map fun v => v.map val) none)) none
  match r with
  | some x => if int then intSum x.1 else x.1.setWidth 64
  | none => if int then intSum 0 else 0

/-- The scanned values in order with their positions; NaN values are left out of MAX, MIN and ARGMAX. -/
def scanStats (int : Bool) (rows : List (List (Option Num))) : SumV :=
  let flat := rows.flatMap id
  let vs := flat.filterMap id
  let ps := (List.range flat.length).filter fun i => (flat.getD i none).isSome
  { statsOf int (fun i => ps.getD i 0) vs with sum := sumOf int rows }

/-! ### BRS.RUN -/

/-- A RUN performed. One that fails a check has scanned nothing and written nothing: its summary holds MAX and MIN 0, as every
field that no instruction defines (02 R59), where R276 gives a scan without values the canonical NaN (DEDUCED, log entry
102). -/
def State.doRun (s : State) (lc i : Nat) (e : UEntry) : State :=
  let b := brunOf (e.ds.getD 0 0) (e.ds.getD 1 0)
  let p := mapGet (s.core lc).prog b.pslot []
  match b.check p with
  | some st => s.finish lc .brush i st {}
  | none =>
    let rm := rounding b.rmode lc e
    let reads := progReads p
    let es := (List.range b.rows).map fun r => (List.range b.cols).map fun c => s.element lc b p reads r c
    let outs := if (b.view 5).en then (List.range b.rows).map fun r => b.outRow rm r (es.getD r []) else []
    let ra := s.reds lc b rm 0 es
    let rb := s.reds lc b rm 1 es
    let s := (s.event lc 0x18 b.waves.length).event lc 0x19
      ((outs.map fun o => (o.codes.filter Option.isSome).length).foldl (· + ·) 0)
    let s := if (b.view 5).en then s.writeOut lc b outs else s
    let s := (s.writeReds lc (b.view 6) ra).writeReds lc (b.view 7) rb
    let fl := flagWord ((es.flatMap fun l => l.map fun x => x.flags) ++ (outs.map fun o => o.flags)
      ++ (ra ++ rb).map fun r => r.flags)
    let rows : List (List (Option Num)) :=
      if b.sumsrc = 0 then outs.map fun o => o.vals
      else [(if b.sumsrc = 1 then ra else rb).map fun r => some r.val]
    let v := scanStats ((b.view (5 + b.sumsrc)).fmt.isInt) rows
    let poi := (es.any fun l => l.any fun x => x.live && x.poi) || (ra ++ rb).any fun r => r.poi
    let live := es.any fun l => l.any fun x => x.live
    s.finish lc .brush i (if poi then stPoisoned else if live then stOk else 0x10) { v with flags := fl }

/-- BRS.RUN (R279). -/
def execBrsRun (lc : Nat) (step : UStep RunF) (s : State) : Host.Outcome State Fault Refusal :=
  match step with
  | .issue f =>
    .next (s.dispatch lc (.brsRun f) (decide (fld (dword ((s.core lc).rd (f.p.setWidth 4 * 2)) 0) 37 2 = 1)))
  | .perform errs =>
    .next (s.work lc .brush (fun _ => true) (fun o => match o with | .brsRun _ => true | _ => false)
      fun s i e => (s.meet errs).doRun lc i e)

/-! ### BRS.LDP (R278) -/

/-- An LDP performed. With a poisoned word and a failing word both, R278 gives two ends: the poisoned one is taken, since the
bytes of a poisoned word are not to be judged (DESIGN CHOICE, log entry 103). -/
def State.doLdp (s : State) (lc i : Nat) (e : UEntry) (slot : Nat) : State :=
  let d := e.ds.headD 0
  let src := fld (dword d 0) 0 21
  let len := fld (dword d 0) 24 6
  if ¬ (onlyBits (dword d 0) [(0, 21), (24, 6)] ∧ restZero d 1 ∧ 1 ≤ len ∧ len ≤ 32) then
    s.finish lc .brush i stInvalid {}
  else if src % 4 ≠ 0 then s.finish lc .brush i stMisaligned {}
  else if 0x200000 < src + 4 * len then s.finish lc .brush i 0x53 {}
  else
    let (bs, p) := s.hawkRead lc src (4 * len)
    let ws : List (BitVec 32) := (List.range len).map fun j => BitVec.ofNat 32 (leNat ((bs.drop (4 * j)).take 4))
    let c := s.core lc
    if p then (s.setCore lc { c with prog := mapErase c.prog slot }).finish lc .brush i stPoisoned {}
    else if ws.all ewOk then (s.setCore lc { c with prog := mapSet c.prog slot ws }).finish lc .brush i stOk {}
    else s.finish lc .brush i 0x51 {}

/-- BRS.LDP (R278). -/
def execBrsLdp (lc : Nat) (step : UStep LdpF) (s : State) : Host.Outcome State Fault Refusal :=
  match step with
  | .issue f => .next (s.dispatch lc (.brsLdp f) false)
  | .perform errs =>
    .next (s.work lc .brush (fun _ => true) (fun o => match o with | .brsLdp _ => true | _ => false) fun s i e =>
      match e.op with
      | .brsLdp f => (s.meet errs).doLdp lc i e f.pslot.toNat
      | _ => s)

end Sys2Proof.Machine
end

