-- ==== Sys2Proof/Machine/Start.lean ====
section
/-!
DEFINITION. The start of a unit instruction (02 R32): its wait ticket, and what its unit asks beside it (06 R216 R221, 08
R282 R284, 09 R289 R290, 12 R421).
-/

namespace Sys2Proof.Machine

/-- A wait ticket is met when `ahead` units earlier in the order of 02 R37 ask for it in the same cycle (02 R32 R35). -/
def Core.ticketMet (c : Core) (tk : BitVec 6) (ahead : Nat) : Bool := decide (tk = 0) || decide (ahead + 1 ≤ c.tick tk)

/-- The oldest entry of a queue that has not started, with its place. -/
def Core.headOf (c : Core) (u : UnitId) : Option (Nat × UEntry) := findEntry (fun e => !e.started) (c.q u)

/-- Started entries of a queue: those of the queue are unfinished until they signal (08 R282). -/
def Core.started (c : Core) (u : UnitId) : List UEntry := (c.q u).filter (·.started)

/-- The engine of a Trowel instruction holds fewer than two started instructions (06 R221), and the Trowel owns the
array. -/
def Core.trowelGate (c : Core) (op : UOp) : Bool :=
  !c.stcOwns && decide (((c.started .trowel).filter fun e =>
    (UOp.feeds e.op && UOp.feeds op) || (UOp.drains e.op && UOp.drains op)).length < 2)

/-- A RUN's header and views as the entry captured them. -/
def UEntry.brun (e : UEntry) : BRun := brunOf (e.ds.headD 0) (e.ds.getD 1 0)

/-- The conditions of 08 R282: no Brush instruction is unfinished, or the previous one is a RUN whose last wave has been
read and that of the unfinished RUNs none conflicts. -/
def Core.brushGate (c : Core) (e : UEntry) : Bool :=
  let l := c.started .brush
  !c.stcOwns && (l.isEmpty || (e.isRun && l.all UEntry.isRun && (match l.getLast? with
    | some p => p.fin.isSome
    | none => true) && l.all fun p => !runsConflict e.brun p.brun))

/-- The head of a queue waits on a ticket, and its unit would take it. -/
def Core.asks (c : Core) (u : UnitId) (gate : UEntry → Bool) (tk : BitVec 6) : Bool :=
  match c.headOf u with
  | some (_, e) => e.op.tickets.1 == tk && gate e
  | none => false

/-- The head of a queue may start beside a Stencil instruction that asks for the same unit (06 R216, 08 R284). -/
def Core.headStarts (c : Core) (u : UnitId) (gate : UEntry → Bool) (ahead : BitVec 6 → Nat) : Bool :=
  match c.headOf u with
  | some (_, e) => c.ticketMet e.op.tickets.1 (ahead e.op.tickets.1) && gate e
  | none => false

/-- The conditions of 09 R289: both units are free, and neither queue's head can start in their place; page-table edits and
bucket sorts ask for the Stencil alone, which runs one instruction at a time. -/
def Core.stencilGate (c : Core) (op : UOp) : Bool :=
  (c.started .stencil).isEmpty
    && (!UOp.owns op || ((c.started .trowel).isEmpty && (c.started .brush).isEmpty
      && !c.headStarts .trowel (fun e => c.trowelGate e.op) (fun _ => 0)
      && !c.headStarts .brush c.brushGate fun tk => b2n (c.asks .trowel (fun e => c.trowelGate e.op) tk)))

/-- Every started entry has issued what it sends. -/
def Core.allSent (c : Core) (u : UnitId) : Bool := (c.started u).all fun e => e.begun || e.fin.isSome

/-- The Scrim port: at most four multicasts are in flight (12 R421). -/
def Core.scrimGate (c : Core) (op : UOp) : Bool :=
  c.allSent .scrim && (match op with
    | .scrMcast _ => decide (((c.started .scrim).filter fun e => match e.op with
        | .scrMcast _ => true
        | _ => false).length < 4)
    | _ => true)

/-- What a unit asks of the instruction that it is to start. -/
def Core.unitGate (c : Core) (u : UnitId) (e : UEntry) : Bool :=
  match u with
  | .trowel => c.trowelGate e.op
  | .brush => c.brushGate e
  | .stencil => c.stencilGate e.op
  | .mover => c.allSent .mover
  | .scrim => c.scrimGate e.op

/-- How many units that the order of 02 R37 puts before a unit ask for a ticket. -/
def Core.ahead (c : Core) (u : UnitId) (tk : BitVec 6) : Nat :=
  (allUnits.filter fun v => decide (unitNum v < unitNum u) && c.asks v (c.unitGate v) tk).length

/-- How many units ask for a ticket: a TKW comes after them all (02 R37). -/
def Core.asking (c : Core) (tk : BitVec 6) : Nat := (allUnits.filter fun v => c.asks v (c.unitGate v) tk).length

/-- A take of at least one count from a ticket covers a write that ended with PORT_RESET (02 R68, 12 R441). -/
def Core.takesLost (c : Core) (tk : BitVec 6) (n : Nat) : Bool := tk != 0 && n != 0 && setHas c.lost (64 + tk.toNat)

/-- A TKW takes its counts, with what they cover. -/
def Core.take (c : Core) (tk : BitVec 6) (n : Nat) : Core :=
  let c := if c.takesLost tk n then { c with lost := setAdd c.lost 5 } else c
  c.setTick tk (c.tick tk - n)

/-- The core after entry i of a queue has started at a cycle: its ticket is taken, the next entry reaches the head, and a
Stencil instruction that uses the array and the Brush owns them. -/
def Core.startAt (c : Core) (u : UnitId) (i : Nat) (e : UEntry) (now : Word) : Core :=
  let q := (c.q u).set i { e with
    started := true, wait := now - e.head, lost := e.lost || c.takesLost e.op.tickets.1 1 }
  let q := match q[i + 1]? with
    | some n => q.set (i + 1) { n with head := now }
    | none => q
  let tk := e.op.tickets.1
  let c := (c.setQ u q).setTick tk (c.tick tk - 1)
  if UOp.owns e.op then { c with stcOwns := true } else c

/-- A mismatch that has ended, no instruction of its DEST and RID being started, is over before one starts (12 R427). -/
def State.endMismatches (s : State) (u : UnitId) : State := if u = .scrim then { s with colls := s.liveColls } else s

/-- UNIT_INSTRUCTION_START: the oldest instruction of a unit's queue that has not started starts when its wait ticket holds
a count that no unit before it in the order of R37 asks for and its unit takes it, and takes the count (02 R32 R34 R37). Sample
records that wait for a spill go before a Mover instruction (19 R627). -/
def execUnitInstructionStart (lc : Nat) (u : UnitId) (s : State) : Host.Outcome State Fault Refusal :=
  let c := s.core lc
  match c.headOf u with
  | some (i, e) =>
    if c.ticketMet e.op.tickets.1 (c.ahead u e.op.tickets.1) && c.unitGate u e && s.clocked lc
        && !(u == .mover && s.spillWaits lc) then
      let s := (s.endMismatches u).tickCycle lc
      .next (s.setCore lc (c.startAt u i e (s.reg (.pmuCycle lc))))
    else .next s
  | none => .next s

end Sys2Proof.Machine
end

