-- ==== Sys2Proof/Machine/Tickets.lean ====
section
/-!
DEFINITION. The ticket instructions of the control core (02 R35-R37 R55).
-/

namespace Sys2Proof.Machine

/-- TKS: adds imm to a ticket; past 65,535 it holds 65,535 and raises TICKET_OVERFLOW (02 R36 R55). -/
def execTks (lc : Nat) (tk : BitVec 6) (imm : BitVec 11) (s : State) : Host.Outcome State Fault Refusal :=
  let i : Flik := .tks tk imm
  if s.canIssue lc i ∧ (s.core lc).overflows tk imm.toNat then
    let c := s.core lc
    let s := s.noteIssue lc
    let s := (s.setCore lc ((s.core lc).addTick tk imm.toNat)).noteScalar lc i c
    .next (s.raise lc 0x11 0 0)
  else .next (s.scalar lc i fun c => c.addTick tk imm.toNat)

/-- A TKW can be met: a wait on tk0 and an imm of 0 always, any other when the ticket holds imm beside the counts that
units ask for, which come before it (02 R35 R37 R55). -/
def Core.tkwMet (c : Core) (tk : BitVec 6) (imm : BitVec 11) : Bool :=
  tk == 0 || imm == 0 || decide (imm.toNat + c.asking tk ≤ c.tick tk)

/-- TKW: stalls until the ticket holds imm, then subtracts it (02 R55). -/
def execTkw (lc : Nat) (tk : BitVec 6) (imm : BitVec 11) (s : State) : Host.Outcome State Fault Refusal :=
  let i : Flik := .tkw tk imm
  if s.canIssue lc i ∧ ¬ (s.core lc).tkwMet tk imm then
    let s := s.noteIssue lc
    let (s, smp) := s.countSample lc 1
    .next (s.setCore lc { s.core lc with
      stall := .tkw tk imm, waitSamp := if smp then some (s.reg (.pmuCycle lc)) else none })
  else .next (s.scalar lc i fun c => c.take tk imm.toNat)

/-- TKRD: the value of a ticket, zero-extended (02 R55). -/
def execTkrd (lc : Nat) (xd : BitVec 5) (tk : BitVec 6) (s : State) : Host.Outcome State Fault Refusal :=
  .next (s.scalarX lc (.tkrd xd tk) xd fun c => BitVec.ofNat 64 (c.tick tk))

/-- TKSET: sets a ticket to xs, a value above 65,535 to 65,535 (02 R55). -/
def execTkset (lc : Nat) (tk : BitVec 6) (xs : BitVec 5) (s : State) : Host.Outcome State Fault Refusal :=
  .next (s.scalar lc (.tkset tk xs) fun c => c.setTick tk (min (c.rx xs).toNat 65535))

end Sys2Proof.Machine
end

