-- ==== Sys2Proof/Machine/CoreEvents.lean ====
section
/-!
DEFINITION. Events of a control core (02 R52 R63-R69 R80-R91 R98, 16 R546): load data return, posted stores, ticket
deadlock, drain, instruction-cache fills, parity errors, launch entry, CORE_CTRL.STOP.
-/

namespace Sys2Proof.Machine

/-! ### Loads and stores -/

/-- The read of the outstanding load at place k is performed at its cell, unless an earlier store or load of the core to
that cell is pending (02 R65, 12 R439), the cell is not reached yet (12 R412 R413), or the core's channel carries no row (03
R112 R120 R122). A render controller in reset answers at once, with no data: the load reads poison (03 R137; DESIGN CHOICE,
log entry 90). -/
def State.sampleLoad (s : State) (lc k : Nat) (l : Load) (errs : List MemErr) : State × Load :=
  match l.data with
  | some _ => (s, l)
  | none =>
    let at' := s.resolve (some lc) l.addr
    if s.loadBlocked lc k l || !s.reaches lc at' then (s, l)
    else if s.chanReset at' then (s, { l with data := some (List.replicate l.dst.size 0, true) })
    else match s.crossTo lc at' .up errs with
      | none => (s, l)
      | some s =>
        let s := (s.reached lc at').meet errs
        let (s, bs, p) := s.readLocal lc (.core lc) l.addr l.dst.size
        (s, { l with data := some (bs, p) })

/-- What a load writes when its data return. -/
def Core.deliver (c : Core) (dst : LoadDst) (bs : List Byte) : Core :=
  match dst with
  | .x rd w => c.wx rd (loadValue w bs)
  | .d n => c.wd n (BitVec.ofNat 512 (leNat bs))

/-- LOAD_POISON is taken at the address of the load (02 R52 R87), and the meeting with poison is logged (16 R555). -/
def State.loadPoison (s : State) (lc : Nat) (l : Load) : State :=
  let s := s.log 5 1 (locSite (s.siteOf lc) 0) (BitVec.ofNat 64 l.addr)
  let c := s.core lc
  s.setCore lc { ({ c with pc := l.pc }.takeExc (excWord 5 0 0 0) (BitVec.ofNat 64 l.addr) l.word) with pc := c.pc }

/-- The instruction at the PC of a running core has an operand that awaits these data (02 R62). -/
def State.awaits (s : State) (lc : Nat) (dst : LoadDst) : Bool :=
  let c := s.core lc
  decide (c.st = .running) && (match (c.icWord c.pc).bind decode with
    | some i => Flik.reads i dst
    | none => false)

/-- A posted store ended with PORT_RESET (03 R137): the releases that cover it, of the core and of the entries that its units
were given after it, are kept back (12 R441). -/
def Core.noteStoreLost (c : Core) (id : Nat) : Core :=
  let mark (e : UEntry) : UEntry := if id < e.storeMark then { e with lost := true } else e
  { c with
    lost := setAdd c.lost 5, trwQ := c.trwQ.map mark, brsQ := c.brsQ.map mark, stcQ := c.stcQ.map mark
    movQ := c.movQ.map mark, scrQ := c.scrQ.map mark }

/-- What waits for the core's stores goes on once none is posted: FENCE (02 R60), ST.REL (R67); a release store to the own
hawk also waits for an earlier load of its cell (R65). -/
def State.storesDone (s : State) (lc : Nat) : State :=
  let c := s.core lc
  if c.stores ≠ [] then s
  else match c.stall with
    | .fence =>
      let c := s.core lc
      let s := s.noteIssue lc
      (s.setCore lc { (s.core lc).next with stall := .none }).noteScalar lc .fence c
    | .stRel a d =>
      if s.orphaned lc then s
      else if setHas c.lost 5 then
        let s := s.noteIssue lc
        (s.setCore lc { (s.core lc).next with stall := .none }).noteScalar lc (.store .stRel 0 0 0) c
      else if s.atOnce lc a.toNat && s.storeBlocked lc c.storeSeq a.toNat 8 then s
      else
      let s := (s.noteIssue lc).event lc 0x03 1
      let bs := leBytes 8 d.toNat
      if s.atOnce lc a.toNat then
        let s := s.writeLocal lc (.core lc) a.toNat bs
        (s.setCore lc { (s.core lc).next with stall := .none }).noteScalar lc (.store .stRel 0 0 0) c
      else
        let (s, smp) := s.countSample lc 0
        let c := s.core lc
        s.setCore lc { c.next with
          stall := .none
          stores := [{ id := c.storeSeq, addr := a.toNat, bytes := bs, pc := c.pc, word := c.pcWordOr 0
                       samp := if smp then some (s.reg (.pmuCycle lc)) else none, missed := c.icMiss }]
          storeSeq := c.storeSeq + 1 }
    | _ => s

/-- LOAD_DATA_RETURN: the oldest outstanding load returns its data (02 R63), while the clock of the core's half runs (03 R112).
-/
def execLoadDataReturn (lc : Nat) (errs : List MemErr) (s : State) : Host.Outcome State Fault Refusal :=
  match (s.core lc).loads with
  | [] => .next s
  | l :: rest =>
    let (s', l) := s.sampleLoad lc 0 l errs
    match l.data with
    | none => .next s
    | some (bs, p) =>
      if !s.clocked lc then .next s
      else
      let s' := if s'.awaits lc l.dst then s'.stalled lc 0x04 else s'
      let c := s'.core lc
      let s := s'.setCore lc { (if p || l.stale then c else c.deliver l.dst bs) with loads := rest }
      let s := if p then s.loadPoison lc l else s
      .next ((match l.samp with
        | some t => s.sampleDone lc t l.pc l.word 7 (b2n p * 2 + b2n l.missed * 4) 0 0
        | none => s).storesDone lc)

/-- A posted store of a core is performed at its target, once it reaches it (02 R67, 12 R412 R413) over the core's channel (03
R112 R120 R122); the read of a word that it writes in part meets errors (04 R142). At a render controller in reset it ends
with PORT_RESET, and writes nothing (03 R137). -/
def State.performStore (s : State) (lc : Nat) (m : Met Nat) : State :=
  match (s.core lc).stores[m.val]? with
  | none => s
  | some p =>
    let at' := s.resolve (some lc) p.addr
    if s.storeBlocked lc p.id p.addr p.bytes.length || !s.reaches lc at' then s
    else match s.crossTo lc at' .down m.errs with
    | none => s
    | some s =>
      let c := { s.core lc with stores := (s.core lc).stores.eraseIdx m.val }
      let s := if s.chanReset at' then s.setCore lc (c.noteStoreLost p.id)
        else (((s.setCore lc c).reached lc at').meet m.errs).writeLocal lc (.core lc) p.addr p.bytes
      let s := match p.samp with
        | some t => s.sampleDone lc t p.pc p.word 7 (b2n p.missed * 4) 0 0
        | none => s
      s.storesDone lc

/-- STORE_PERFORMED: a posted scalar store is performed, releasing FENCE or ST.REL waits (02 R67). -/
def execStorePerformed (lc : Nat) (m : Met Nat) (s : State) : Host.Outcome State Fault Refusal :=
  .next (s.performStore lc m)

/-! ### Ending (02 R86-R91) -/

/-- The control core waits where only its tickets could free it (R91): in TKW, at a full queue, or for the queues
after HALT. -/
def Core.waitsTickets (c : Core) : Bool :=
  match c.stall with
  | .tkw tk imm => decide (c.st = .running) && !c.tkwMet tk imm
  | .none =>
    match c.st with
    | .draining => c.exit.isSome && !c.drained
    | .running =>
      c.qFull && (match (c.icWord c.pc).bind decode with
        | some (.unit u) => decide (16 ≤ (c.q u.unit).length)
        | _ => false)
    | _ => false
  | _ => false

/-- Every non-empty queue's head waits on a ticket that is 0, and no unit has a started instruction (R91). -/
def Core.headsStuck (c : Core) : Bool :=
  allUnits.all fun u => match c.q u with
    | [] => true
    | e :: _ => !e.started && e.op.tickets.1 != 0 && c.tick e.op.tickets.1 == 0

/-- TICKET_DEADLOCK, 02 R91. -/
def execTicketDeadlock (lc : Nat) (s : State) : Host.Outcome State Fault Refusal :=
  let c := s.core lc
  if c.waitsTickets ∧ c.headsStuck then .next (s.raise lc 0x12 0 0) else .next s

/-- CORE_DRAIN_COMPLETE: no instruction is in progress, posted stores and loads included (log entry 11), and every result is
ready: DONE with the exit code after HALT, FAULTED after an exception (02 R86 R88 R95 R96). -/
def execCoreDrainComplete (lc : Nat) (s : State) : Host.Outcome State Fault Refusal :=
  let c := s.core lc
  if c.st = .draining ∧ c.drained ∧ c.loads = [] ∧ c.stores = [] then
    let s := c.late.foldl (fun (s : State) (l : Late) => s.lateDone lc l) (s.tickCycle lc)
    let c := s.core lc
    match c.exit with
    | some x =>
      .next (s.setCore lc { c with
        st := .done, excCause := setFld c.excCause 32 8 x.toNat, excAddr := x, excPc := c.pc
        excInsn := (s.pcWord lc).getD c.excInsn })
    | none => .next (s.setCore lc { c with st := .faulted })
  else .next s

/-- CORE_CTRL_STOP: STOP in a RUNNING or SLEEPING core, ignored in any other state (02 R98); the write wakes the core (17
R567). -/
def execCoreCtrlStop (lc : Nat) (s : State) : Host.Outcome State Fault Refusal :=
  if s.valid lc then .next ((s.wakePlace (.reg (Reg.coreCtrl lc).addr)).stopCore lc) else .next s

/-! ### The instruction cache (02 R80-R84) -/

/-- A 256-byte line of memory from which programs may be fetched, with the poison marks of its granules; none where
R81 raises FETCH_FAULT. From a render controller in reset it comes without data, its granules poisoned (03 R137; DESIGN CHOICE,
log entry 90). -/
def State.readLine (s : State) (lc tag : Nat) : State × Option ICLine :=
  let l := s.resolve (some lc) (tag * 256)
  let line (s : State) (bs : List Byte) (p : Nat → Bool) : State × Option ICLine :=
    (s, some ⟨tag, BitVec.ofNat 2048 (leNat bs),
      BitVec.ofNat 4 ((List.range 4).foldl (fun m i => m + b2n (p i) * 2 ^ i) 0)⟩)
  if s.chanReset l then line s (List.replicate 256 0) fun _ => true
  else match l with
  | .render p (some a) =>
    if s.rcMib = 0 then line (s.rndAccess p 256 1) (memGets s.mem p 256) fun i => s.poisoned (p + 64 * i)
    else
      let (s, ln) := s.rcLine (a / 256)
      line s ln.data fun i => ln.poison.getLsbD i
  | .render p none => line (s.rndAccess p 256 1) (memGets s.mem p 256) fun i => s.poisoned (p + 64 * i)
  | .hod k => line (s.hodAccess k 1) (memGets s.mem k 256) fun i => s.runPoisoned (k + 64 * i) 64
  | _ => (s, none)

/-- A line enters its set of four ways, the least recently used leaving (R80). Which lines share a set the spec does not
say: the line number modulo 64 selects it (DESIGN CHOICE, log entry 91). -/
def Core.putLine (c : Core) (l : ICLine) : Core :=
  let same (m : ICLine) : Bool := m.tag % 64 == l.tag % 64
  let others := c.ic.filter fun m => !same m
  let ways := (c.ic.filter fun m => same m && m.tag != l.tag).take 3
  { c with ic := l :: ways ++ others }

/-- FETCH_FAULT at the PC (R81); a poisoned granule is logged (16 R555). -/
def State.fetchFault (s : State) (lc : Nat) (poison : Bool) : State :=
  let a : Word := (s.core lc).pc.setWidth 64
  let s := if poison then s.log 5 1 (locSite (s.siteOf lc) 0) a else s
  s.raise lc 4 0 a

/-- ICACHE_MISS_FILL: the line of the PC, which the cache does not hold, arrives; a line that may not be fetched, or
whose granule at the PC is poisoned, raises FETCH_FAULT (R81 R82). Its row crosses the channel, or waits (03 R105 R120). -/
def execIcacheMissFill (lc : Nat) (errs : List MemErr) (s : State) : Host.Outcome State Fault Refusal :=
  let c := s.core lc
  let tag := c.pc.toNat / 256
  if s.valid lc ∧ ¬ s.failed lc ∧ c.st = .running ∧ c.stall = .none ∧ c.icWord c.pc = none
      ∧ s.clocked lc then
    if c.ic.any fun l => l.tag == tag then .next (s.fetchFault lc true)
    else match s.cross (s.siteOf lc) .up errs with
    | none => .next s
    | some s =>
      let s := (s.event lc 0x08 1).stalled lc 0x09
      match (s.meet errs).readLine lc tag with
      | (s, none) => .next (s.fetchFault lc false)
      | (s, some l) =>
        let s := s.setCore lc { (s.core lc).putLine l with icMiss := true }
        if l.poison.getLsbD (c.pc.toNat % 256 / 64) then .next (s.fetchFault lc true) else .next s
  else .next s

/-- ICACHE_PARITY_ERROR: the line is invalidated and fetched again; no exception (R84). It counts as a correctable error: as
a parity fault it is logged under class 6 (16 R546), and no counter counts it (DESIGN CHOICE, log entry 119: the spec gives
none). Its row does not cross in a retune window or a clock stop (03 R112 R120): the fetch is then left to the next miss
(log entry 92). -/
def execIcacheParityError (lc : Nat) (f : LineFetch) (s : State) : Host.Outcome State Fault Refusal :=
  let c := s.core lc
  let line := f.line
  if c.ic.any fun l => l.tag == line then
    let s := s.log 6 1 (locSite (s.siteOf lc) 0) 0
    let s := s.setCore lc { c with ic := c.ic.filter fun l => l.tag != line }
    match (if s.clocked lc then s.cross (s.siteOf lc) .up f.errs else none) with
    | none => .next s
    | some s => match (s.meet f.errs).readLine lc line with
      | (s, some l) => .next (s.setCore lc ((s.core lc).putLine l))
      | (s, none) => .next s
  else .next s

/-- CONTROL_PATH_PARITY_ERROR: PARITY in the core (02 R90); a second one at a site in a start is a fault of the
control core (16 R546, 15 R527). -/
def execControlPathParityError (lc : Nat) (s : State) : Host.Outcome State Fault Refusal :=
  if s.valid lc ∧ ¬ s.failed lc then
    let site := s.siteOf lc
    let x := s.site site
    let s := (s.setSite site { x with parity := x.parity + 1 }).log 6 1 (locSite site 0) 0
    let s := s.raise lc 0x13 0 0
    if 1 ≤ x.parity then .next (s.failBlock site 0) else .next s
  else .next s

/-! ### Launch entry (02 R85) -/

/-- The registers of a core at launch entry (02 R85). -/
def Core.entry (c : Core) (pc : LAddr) (xs : List (Nat × Word)) (slot : Nat) : Core :=
  { Core.zero with
    pc := pc, st := .running, faultMask := c.faultMask, storeSeq := c.storeSeq, slot := BitVec.ofNat 5 slot
    x := xs.foldl (fun v p => v.setIfInBounds p.1 p.2) (Vector.replicate 32 0) }

/-- The instruction cache preloaded with the lines of up to 64 KiB from the entry address upward (02 R85). -/
def State.preload (s : State) (lc : Nat) (pc : LAddr) : State :=
  (List.range 256).foldl (fun s k =>
    match s.readLine lc (pc.toNat / 256 + k) with
    | (s, some l) => s.setCore lc ((s.core lc).putLine l)
    | (s, none) => s) s

/-- A core of a RUNNING launch of a slot has entered it. -/
def State.noteEntry (s : State) (lc i : Nat) (d : List Byte) : State :=
  let x := s.slotOf i
  if s.rf (.pciSlot i) 32 2 = 2 ∧ x.launch = some d ∧ ¬ setHas x.entered lc then
    { s with slots := mapSet s.slots i { x with entered := setAdd x.entered lc } }
  else { s with orphans := s.orphans.map fun (o : Nat × Slot) =>
      if o.1 = i ∧ o.2.launch = some d then (i, { o.2 with entered := setAdd o.2.entered lc }) else o }

/-- A core that a launch may take (14 R498). -/
def Core.free (c : Core) : Bool := c.st == .idle || c.st == .done || c.st == .faulted

/-- CORE_LAUNCH_ENTRY: a free core of a RUNNING launch reaches the state of 02 R85; its Trowel banks and its Brush program
slots are cleared (06 R209, 08 R258); a core of a half that is off wakes first (17 R567). The PC takes ENTRY with bits [1:0]
cut (02 R30, 14 R494; log entry 93). The rows of the preload cross the core's channel, or the entry waits for them (03 R112
R120); its reads meet errors. -/
def execCoreLaunchEntry (e : CoreEntry) (s : State) : Host.Outcome State Fault Refusal :=
  let lc := e.lc
  match s.launchOf lc with
  | none => .next s
  | some (i, d, ns) =>
    if s.halfOff (halfOf (s.siteOf lc)) ∨ !(s.core lc).free ∨ s.failed lc ∨ !s.clocked lc then .next s
    else match s.cross (s.siteOf lc) .up e.errs with
    | none => .next s
    | some s =>
    let s := { s.tickCycle lc with power := { s.power with pgated := setDel s.power.pgated lc } }
    let pc : LAddr := (launchWord d 0).setWidth 44 &&& ~~~3
    let xs : List (Nat × Word) :=
      [(1, BitVec.ofNat 64 lc), (2, BitVec.ofNat 64 ((ns.idxOf? lc).getD 0)), (3, BitVec.ofNat 64 ns.length),
       (4, launchWord d 1), (5, BitVec.ofNat 64 (s.rf .klkIdent 0 12)), (6, BitVec.ofNat 64 (s.rf .mcMap 32 32)),
       (7, BitVec.ofNat 64 i), (8, BitVec.ofNat 64 s.inForce)]
    let s := s.noteEntry lc i d
    let s := s.setCore lc ((s.core lc).entry pc xs i)
    .next ((s.meet e.errs).preload lc pc)

end Sys2Proof.Machine
end

