-- ==== Sys2Proof/Machine/Flows.lean ====
section
/-!
DEFINITION. The sending side of Kerit (13 R449-R453 R458 R460 R464 R466 R470): global addresses, home ports, packets,
frames, credits, the flow store; and what an instruction awaits.
-/

namespace Sys2Proof.Machine

/-! ### Global addresses (01 R27, 13 R458) -/

/-- Where a 56-bit address with its GLOBAL bit lies. -/
inductive Place
  | here (a : Nat)
  | remote (dev a : Nat)
  | absent
  deriving DecidableEq, Repr

/-- The place of an address: while KLK_CTRL.EN is 0 every other device number is invalid. -/
def State.place (s : State) (g : Bool) (a : Nat) : Place :=
  if !g then .here a
  else
    let dev := a / 2 ^ 44 % 4096
    if dev = s.devnum then .here (a % 2 ^ 44)
    else if s.rf .klkCtrl 0 1 = 1 && devOk (s.reg .klkIdent) dev then .remote dev (a % 2 ^ 44)
    else .absent

/-! ### Parts of a transfer (13 R450 R460) -/

/-- The parts of a run that cross no boundary of 8 KiB (R450): first address and length of each. -/
def stripes (a len : Nat) : List (Nat × Nat) := blocks 8192 (len / 8192 + 2) a len

/-- The stripe of a target address (R460). -/
def stripeOf (a : Nat) : Nat := a / 2 ^ 13 % 16

/-- A transfer toward a device finds its flow's port in reset or training (03 R137, 13 R457). -/
def State.portDown (s : State) (dst vc a : Nat) : Bool :=
  let p := (s.flow dst vc (stripeOf a)).port
  decide (s.portState p = 4) || decide (s.portState p = 1)

/-! ### What an instruction awaits -/

/-- Every write that a release of entry i covers has been performed (12 R441, 13 R465). -/
def State.coveredBy (s : State) (lc : Nat) (u : UnitId) (i : Nat) (e : UEntry) : Bool :=
  (s.core lc).covered u i e && !s.orphaned lc

/-- An awaited item of an instruction has ended, with the status it met: it leaves the list, the status is kept, and
bytes performed are counted. -/
def State.awaited (s : State) (lc : Nat) (u : UnitId) (key : Nat) (st : Option (BitVec 8)) (n : Nat) : State :=
  match findEntry (fun e => e.await.contains key) ((s.core lc).q u) with
  | some (i, e) => s.setEntry lc u i { e with
      await := e.await.filter (· != key), worst := worse e.worst st, nnz := e.nnz + n
      poi := e.poi || st == some stPoisoned }
  | none => s

end Sys2Proof.Machine
end

