-- ==== Sys2Proof/Machine/Mover.lean ====
section
/-!
DEFINITION. The Mover (04 R162-R173, 12 R433): row moves, block copies, the render-cache flush, puts with a flag.
The words a row instruction moves cross the vertical channel row by row (VC_ROW_COMMIT in Stack.lean).
-/

namespace Sys2Proof.Machine

/-- The summary of a Mover instruction (04 R173). -/
def movSum (n : Nat) (poi : Bool) : SumV := { nnz := BitVec.ofNat 64 n, flags := if poi then 8 else 0 }

/-- Any Mover instruction: the Mover works on its started instructions in queue order. -/
def anyOp (_ : UOp) : Bool := true

/-! ### MOV.ROW (04 R163-R165) -/

/-- The fields of a MOV.ROW descriptor (R163). -/
structure RowMove where
  hawk : Nat
  slice : Nat
  count : Nat
  rstride : Int
  hstride : Int

/-- A MOV.ROW descriptor read. -/
def rowMove (d : Desc) : RowMove :=
  let w0 := dword d 0
  let w1 := dword d 1
  ⟨fld w0 0 13, fld w0 16 16, fld w1 0 14, sfld w1 16 16, sfld w1 32 16⟩

/-- The slice row of step i. -/
def RowMove.row (m : RowMove) (i : Nat) : Int := (m.slice : Int) + i * m.rstride

/-- The hawk position of step i, in 256-byte units. -/
def RowMove.pos (m : RowMove) (i : Nat) : Int := (m.hawk : Int) + i * m.hstride

/-- The checks of MOV.ROW (R164). -/
def State.rowCheck (s : State) (lc : Nat) (d : Desc) : Option (BitVec 8) :=
  let m := rowMove d
  let last := m.count - 1
  let inside (x : Int) (hi : Int) : Bool := decide (0 ≤ x) && decide (x < hi)
  if ¬ (restZero d 2 ∧ onlyBits (dword d 0) [(0, 13), (16, 16)] ∧ onlyBits (dword d 1) [(0, 14), (16, 32)]
      ∧ m.slice ≤ 49151 ∧ 1 ≤ m.count ∧ m.count ≤ 8192
      ∧ inside (m.row 0) 49152 ∧ inside (m.row last) 49152 ∧ inside (m.pos 0) 8192 ∧ inside (m.pos last) 8192) then
    some stInvalid
  else if ¬ (s.slices.contains (s.siteOf lc) ∧ inside (m.row 0) s.rowsUsed ∧ inside (m.row last) s.rowsUsed) then
    some stUnmapped
  else none

/-- A MOV.ROW begins: its checks, or CORE_DEAD at a retired site (03 R127); its rows follow one by one. -/
def State.beginRow (s : State) (lc i : Nat) (e : UEntry) : State :=
  if e.begun ∨ ¬ (s.core lc).aheadDone .mover i then s
  else match s.rowCheck lc (e.ds.headD 0) with
    | some st => s.finish lc .mover i st (movSum 0 false)
    | none =>
      if s.siteRetired (s.siteOf lc) then s.finish lc .mover i stDead (movSum 0 false)
      else s.setEntry lc .mover i { e with begun := true }

/-- A whole row between two places, each poisoned granule with its poison (R172, 16 R543 R545). -/
def State.copyRow (s : State) (src dst : Nat) : State × Bool :=
  let p := (List.range 4).map fun g => s.runPoisoned (src + 64 * g) 64
  let s := s.writeRun dst (memGets s.mem src 256)
  ((List.range 4).foldl (fun s g => if p.getD g false then s.poisonGran (dst + 64 * g) else s) s, p.any id)

/-- The next row of a MOV.ROW is committed; after the last the instruction ends. -/
def State.commitRow (s : State) (lc i : Nat) (e : UEntry) (dn : Bool) : State :=
  let m := rowMove (e.ds.headD 0)
  let site := s.siteOf lc
  let r := hodKey site (m.row e.prog).toNat 0
  let h := hawkKey site ((m.pos e.prog).toNat * 256)
  let s := s.lathEvent site (if dn then 2 else 1) 1
  let (s, p) := if dn then s.copyRow h r else s.copyRow r h
  let s := s.event lc 0x28 4
  let e := { e with prog := e.prog + 1, poi := e.poi || p }
  let s := s.setEntry lc .mover i e
  if m.count ≤ e.prog then s.finish lc .mover i (if e.poi then stPoisoned else stOk) (movSum (256 * m.count) e.poi) else s

/-! ### MOV.BLK and MOV.PUTF (04 R166-R169, 12 R433) -/

/-- The fields of a MOV.BLK descriptor (R166). -/
structure BlkMove where
  sg : Bool
  src : Nat
  dg : Bool
  dst : Nat
  len : Nat
  c1 : Nat
  c2 : Nat
  ss1 : Int
  ds1 : Int
  ss2 : Int
  ds2 : Int
  fg : Bool
  flag : Nat

/-- A MOV.BLK or MOV.PUTF descriptor read. -/
def blkMove (d : Desc) : BlkMove where
  sg := bitAt (dword d 0) 63
  src := fld (dword d 0) 0 56
  dg := bitAt (dword d 1) 63
  dst := fld (dword d 1) 0 56
  len := fld (dword d 2) 0 22 * 8
  c1 := fld (dword d 2) 32 16
  c2 := fld (dword d 2) 48 16
  ss1 := (dword d 3).toInt
  ds1 := (dword d 4).toInt
  ss2 := (dword d 5).toInt
  ds2 := (dword d 6).toInt
  fg := bitAt (dword d 7) 63
  flag := fld (dword d 7) 0 56

/-- An address field keeps its form: no bit outside GLOBAL and the address, bits [55:44] 0 in a local one (R166). -/
def addrForm (w : Word) : Bool := onlyBits w [(0, 56), (63, 1)] && (bitAt w 63 || decide (fld w 44 12 = 0))

/-- The displacements of the runs in order, the inner count fastest (R167). -/
def runs (c1 c2 : Nat) (s1 s2 : Int) : List Int :=
  (List.range c2).flatMap fun (j : Nat) => (List.range c1).map fun (i : Nat) => (i : Int) * s1 + (j : Int) * s2

/-- The smallest byte range that contains every byte of the runs (R168). -/
def hull (a : Int) (s1 s2 : Int) (c1 c2 len : Nat) : Int × Int :=
  let e1 := ((c1 - 1 : Nat) : Int) * s1
  let e2 := ((c2 - 1 : Nat) : Int) * s2
  (a + min 0 e1 + min 0 e2, a + max 0 e1 + max 0 e2 + len)

/-- The number by which R168 compares an address: an own-device global address as its local one, a place of another
device apart from every local one. -/
def State.cmpAddr (s : State) (g : Bool) (a : Nat) : Int :=
  if !g then (a : Int) else if a / 2 ^ 44 = s.devnum then ((a % 2 ^ 44 : Nat) : Int) else (a : Int) + 2 ^ 80

/-- DESC_INVALID of MOV.BLK and MOV.PUTF. -/
def State.blkInvalid (s : State) (d : Desc) (putf : Bool) : Bool :=
  let m := blkMove d
  let (l1, h1) := hull (s.cmpAddr m.sg m.src) m.ss1 m.ss2 m.c1 m.c2 m.len
  let (l2, h2) := hull (s.cmpAddr m.dg m.dst) m.ds1 m.ds2 m.c1 m.c2 m.len
  !(addrForm (dword d 0) && addrForm (dword d 1) && onlyBits (dword d 2) [(0, 22), (32, 32)]
    && decide (1 ≤ m.len) && decide (m.len ≤ 2097152 * 8) && decide (1 ≤ m.c1) && decide (1 ≤ m.c2)
    && (if putf then addrForm (dword d 7) else dword d 7 == 0)
    && !(decide (l1 < h2) && decide (l2 < h1)))

/-- MISALIGNED (R168). -/
def blkMisaligned (m : BlkMove) : Bool :=
  !(decide (m.src % 8 = 0) && decide (m.dst % 8 = 0) && decide (m.ss1 % 8 = 0) && decide (m.ds1 % 8 = 0)
    && decide (m.ss2 % 8 = 0) && decide (m.ds2 % 8 = 0))

/-- A flag address is an aligned word in the first 2 MiB of a hawk window (12 R432 R433). -/
def flagTarget (a : Nat) : Bool :=
  decide (a % 8 = 0) && decide (0x10100000000 ≤ a) && decide (a < 0x10124000000)
    && decide ((a - 0x10100000000) % 0x400000 < 0x200000)

/-- The status of a run of own addresses: unmapped bytes first, then a failed core (R172). -/
def State.spanStatus (s : State) (lc : Nat) (a : Int) (len : Nat) : Option (BitVec 8) :=
  if a < 0 ∨ 2 ^ 44 < a + len then some stUnmapped
  else
    (blocks 256 (len + 1) a.toNat len).foldl (fun r b =>
      worse r (match s.resolve (some lc) b.1 with
        | .unmapped => some stUnmapped
        | .dead => some stDead
        | _ => none)) none

/-- The status of every run at a place: own ones are checked here, those of another device at their target. -/
def State.runsStatus (s : State) (lc : Nat) (p : Place) (ds : List Int) (len : Nat) : Option (BitVec 8) :=
  match p with
  | .here a => ds.foldl (fun r d => worse r (s.spanStatus lc (a + d) len)) none
  | .remote _ a =>
    if ds.any fun d => decide ((a : Int) + d < 0) || decide (2 ^ 44 < (a : Int) + d + len) then some stUnmapped else none
  | .absent => some 0x51

/-- The checks of R172 in their order. -/
def State.blkCheck (s : State) (lc : Nat) (d : Desc) (putf : Bool) : Option (BitVec 8) :=
  let m := blkMove d
  let sp := s.place m.sg m.src
  let dp := s.place m.dg m.dst
  let fp := s.place m.fg m.flag
  if s.blkInvalid d putf then some stInvalid
  else if blkMisaligned m then some stMisaligned
  else if sp = .absent ∨ dp = .absent ∨ (putf ∧ fp = .absent) then some 0x51
  else if putf && !flagTarget (m.flag % 2 ^ 44) then some 0x50
  else
    let f := if putf then s.runsStatus lc fp [0] 8 else none
    worse (worse (s.runsStatus lc sp (runs m.c1 m.c2 m.ss1 m.ss2) m.len) f)
      (s.runsStatus lc dp (runs m.c1 m.c2 m.ds1 m.ds2) m.len)

/-- The 64-byte granule of a place reads as poisoned (16 R543). -/
def State.granPoisoned (s : State) (l : Loc) : Bool :=
  match l with
  | .render p (some a) =>
    if s.rcMib = 0 then s.poisoned p
    else match (mapGet s.rc (s.rcSet (a / 256)) []).find? fun ln => ln.tag == a / 256 with
      | some ln => ln.poison.getLsbD (a % 256 / 64)
      | none => s.poisoned p
  | .render p none => s.poisoned p
  | .hawk _ k => s.runPoisoned (k / 64 * 64) 64
  | .hod k => s.runPoisoned (k / 64 * 64) 64
  | _ => false

/-- The host address of a place, if it lies in a host window. -/
def Loc.hostAddr : Loc → Option Nat
  | .host a => some a
  | _ => none

/-- Bus Master Enable (14 R491 R505). -/
def State.bme (s : State) : Bool := decide (s.rf .pciLink 10 1 = 1)

/-- A byte of the copied stream as the entry keeps it: its place in the stream, whether its granule was poisoned,
whether it was not filled (03 R136). -/
def bufKey (pos : Nat) (poi missing : Bool) : Nat := pos * 4 + b2n poi + b2n missing * 2

/-- Bytes of the stream held in an entry's buffer. -/
def putBuf (buf : FMap Byte) (pos : Nat) (poi missing : Bool) (bs : List Byte) : FMap Byte :=
  (List.range bs.length).foldl (fun b j => mapSet b (bufKey (pos + j) poi missing) (bs.getD j 0)) buf

/-- The key under which a copy awaits bytes of host memory: where they lie there, where they stand in the stream, and
how many they are. -/
def hostKey (h pos n : Nat) : Nat := 2 ^ 200 + (h * 2 ^ 64 + pos) * 64 + (n - 1)

/-- What a fetch has gathered. -/
structure Fetch where
  buf : FMap Byte
  await : List Nat
  worst : Option (BitVec 8)

/-- The part of one own run that lies in a 64-byte granule is read, or asked of the host; a port in reset fills
nothing (03 R134-R137). -/
def State.fetchPart (s : State) (lc pos a n : Nat) (f : Fetch) : State × Fetch :=
  let l := s.resolve (some lc) a
  match l with
  | .host h =>
    if s.bme then ((s.send (.hostRead lc h n)).lathEvent 312 2 1, { f with await := f.await ++ [hostKey h pos n] })
    else
      (s, { f with buf := putBuf f.buf pos true true (List.replicate n 0), worst := worse f.worst (some stReset) })
  | .reg _ => (s.reached lc l, { f with buf := putBuf f.buf pos false false (s.readRegs (.core lc) a n) })
  | _ =>
    let s := s.reached lc l
    if s.chanReset l then
      (s, { f with buf := putBuf f.buf pos true true (List.replicate n 0), worst := worse f.worst (some stReset) })
    else
      let (s, bs, _) := s.readBlock l n
      (s, { f with buf := putBuf f.buf pos (s.granPoisoned l) false bs })

/-- A run of another device is asked for by READ packets (13 R464), one for each stripe it touches. -/
def State.fetchRemote (s : State) (lc : Nat) (u : UnitId) (pos dev a len : Nat) (f : Fetch) : State × Fetch :=
  (stripes a len).foldl (fun r b =>
    let (s, f) := r
    let o := pos + (b.1 - a)
    if s.portDown dev 0 b.1 then
      (s, { f with buf := putBuf f.buf o true true (List.replicate b.2 0), worst := worse f.worst (some stReset) })
    else
      let (s, k) := s.sendPacket dev 0 2 (stripeOf b.1) b.2 (BitVec.ofNat 64 b.1) 0 [] lc (some u) o
      (s, { f with await := f.await ++ [k] })) (s, f)

/-- Every run of a source is read or asked for. -/
def State.fetchRuns (s : State) (lc : Nat) (p : Place) (ds : List Int) (len : Nat) : State × Fetch :=
  (List.range ds.length).foldl (fun r i =>
    let (s, f) := r
    match p with
    | .here a =>
      let b := ((a : Int) + ds.getD i 0).toNat
      (blocks 64 (len + 1) b len).foldl (fun r x => State.fetchPart r.1 lc (i * len + (x.1 - b)) x.1 x.2 r.2) (s, f)
    | .remote dev a => s.fetchRemote lc .mover (i * len) dev ((a : Int) + ds.getD i 0).toNat len f
    | .absent => (s, f)) (s, ⟨[], [], none⟩)

/-- One byte of the stream: its value where it was filled, and whether its granule was poisoned. -/
abbrev SByte := Option Byte × Bool

/-- The stream that a buffer holds, in order. -/
def streamOf (buf : FMap Byte) : List SByte :=
  buf.map fun e => (if e.1 / 2 % 2 = 1 then none else some e.2, e.1 % 2 == 1)

/-- What a store has done: granules to poison, packets sent, bytes written, the worst status. -/
structure Store where
  gran : List Nat
  await : List Nat
  n : Nat
  worst : Option (BitVec 8)

/-- Bytes written at an own place within a 64-byte granule: those that were filled. -/
def State.writePart (s : State) (lc a : Nat) (bs : List SByte) : State :=
  if bs.all fun b => b.1.isSome then s.writeBlock (s.resolve (some lc) a) (bs.map fun b => b.1.getD 0)
  else (List.range bs.length).foldl (fun s j =>
    match bs.getD j (none, false) with
    | (some b, _) => s.writeBlock (s.resolve (some lc) (a + j)) [b]
    | _ => s) s

/-- A place lies behind a render controller that was reset under the copy. -/
def barredLoc (bar : NSet) (l : Loc) : Bool :=
  match l with
  | .render p _ => setHas bar (chanOf p)
  | .host _ => setHas bar 128
  | _ => false

/-- The part of a run that lies in a 64-byte granule of its own destination. A core that has failed since the copy began
takes no byte (01 R23). A part that lies in a register range is written as aligned 8-byte registers: the spec gives no
access size for such a transfer (DESIGN CHOICE, log entry 96). -/
def State.storePart (s : State) (lc : Nat) (bar : NSet) (a : Nat) (bs : List SByte) (t : Store) : State × Store :=
  let l := s.resolve (some lc) a
  let poi := bs.any fun b => b.2
  let n := (bs.filter fun b => b.1.isSome).length
  match l with
  | .host h =>
    if s.bme && !barredLoc bar l then
      ((s.send (.hostWrite h (bs.map fun b => b.1.getD 0) poi)).lathEvent 312 2 1, { t with n := t.n + n })
    else (s, { t with worst := worse t.worst (some stReset) })
  | .dead => (s, { t with worst := worse t.worst (some stDead) })
  | .reg _ =>
    ((blocks 8 (bs.length + 1) a bs.length).foldl (fun s b =>
      s.writeRegs (.core lc) b.1 (((bs.drop (b.1 - a)).take b.2).map fun x => x.1.getD 0)) (s.reached lc l),
      { t with n := t.n + n })
  | _ =>
    let s := s.reached lc l
    if s.chanReset l || barredLoc bar l then (s, { t with gran := t.gran ++ [a], worst := worse t.worst (some stReset) })
    else (s.writePart lc a bs, { t with n := t.n + n, gran := if poi then t.gran ++ [a] else t.gran })

/-- A run for another device goes in PUT packets (13 R450 R464), bit 63 of AUX set over poisoned sources (16 R545). -/
def State.storeRemote (s : State) (lc : Nat) (u : UnitId) (bar : NSet) (dev a : Nat) (bs : List SByte) (t : Store) :
    State × Store :=
  (stripes a bs.length).foldl (fun r b =>
    let (s, t) := r
    let part := (bs.drop (b.1 - a)).take b.2
    let aux : Word := if part.any (fun x => x.2) then 0x8000000000000000 else 0
    if s.portDown dev 0 b.1 || setHas bar (129 + (s.flow dev 0 (stripeOf b.1)).port) then
      (s, { t with worst := worse t.worst (some stReset) })
    else
      let (s, k) := s.sendPacket dev 0 0 (stripeOf b.1) b.2 (BitVec.ofNat 64 b.1) aux (part.map fun x => x.1.getD 0)
        lc (some u) 0
      (s, { t with await := t.await ++ [k] })) (s, t)

/-- The stream stored run by run; after each own run its poisoned granules are poisoned. -/
def State.storeRuns (s : State) (lc : Nat) (bar : NSet) (p : Place) (ds : List Int) (len : Nat) (str : List SByte) :
    State × Store :=
  (List.range ds.length).foldl (fun r i =>
    let (s, t) := r
    let bs := (str.drop (i * len)).take len
    match p with
    | .here a =>
      let b := ((a : Int) + ds.getD i 0).toNat
      let (s, t) := (blocks 64 (len + 1) b len).foldl (fun r x =>
        State.storePart r.1 lc bar x.1 ((bs.drop (x.1 - b)).take x.2) r.2) (s, { t with gran := [] })
      (t.gran.foldl (fun s g => s.poisonLoc (s.resolve (some lc) g)) s, t)
    | .remote dev a => s.storeRemote lc .mover bar dev ((a : Int) + ds.getD i 0).toNat bs t
    | .absent => (s, t)) (s, ⟨[], [], 0, none⟩)

/-! ### Atomic flag operations (12 R432) -/

/-- The word that a flag operation writes. -/
def flagOp (op : Nat) (old v : Word) : Word :=
  match op with
  | 0 => v
  | 1 => old + v
  | 2 => old ||| v
  | _ => if old.ule v then v else old

/-- A flag operation at an own hawk word: an atomic read and write, evaluated by the WAITF monitor as a write (02
R73). -/
def State.flagAt (s : State) (a op : Nat) (v : Word) : State :=
  match s.resolve none a with
  | .hawk _ k => s.writeRun k (leBytes 8 (flagOp op (s.word k) v).toNat)
  | _ => s

/-- A flag operation goes to another device as a FLAG packet, which carries no data bytes (13 R450). -/
def State.flagRemote (s : State) (lc : Nat) (u : UnitId) (dev a op : Nat) (rel : Bool) (v : Word) : State × Nat :=
  s.sendPacket dev 0 1 (stripeOf a) 0 (BitVec.ofNat 64 (a + op * 2 ^ 48 + b2n rel * 2 ^ 63)) v [] lc (some u) 0

/-! ### The phases of a block copy: 1 fetching, 2 storing, 3 flag sent -/

/-- Storing is over: MOV.BLK ends; MOV.PUTF goes on to its flag once every covered write has been performed; a covered
PORT_RESET keeps the flag back (12 R433 R441), and so does a copy whose target stayed unreachable (13 R474). -/
def State.afterStore (s : State) (lc i : Nat) (e : UEntry) (putf : Bool) : State :=
  let m := blkMove (e.ds.headD 0)
  let st := if e.poi then worse e.worst (some stPoisoned) else e.worst
  let v := movSum e.nnz e.poi
  if !putf ∨ e.prog = 3 then s.finish lc .mover i (st.getD stOk) v
  else if e.worst = some stReset ∨ (s.core lc).aheadReset .mover i then s.finish lc .mover i stReset v
  else if e.worst = some 0x52 then s.finish lc .mover i 0x52 v
  else if !s.coveredBy lc .mover i e then s
  else match s.place m.fg m.flag with
    | .here a =>
      match s.resolve (some lc) a with
      | .dead => s.finish lc .mover i ((worse st (some stDead)).getD stOk) v
      | l => if s.reaches lc l then ((s.reached lc l).flagAt a 1 1).finish lc .mover i (st.getD stOk) v else s
    | .remote dev a =>
      if s.portDown dev 0 a then s.finish lc .mover i stReset v
      else
        let (s, k) := s.flagRemote lc .mover dev a 1 true 1
        s.setEntry lc .mover i { e with prog := 3, await := [k] }
    | .absent => s.finish lc .mover i ((worse st (some 0x52)).getD stOk) v

/-- MOV.PUTF. -/
def UOp.isPutf : UOp → Bool
  | .movPutf _ => true
  | _ => false

/-- A block copy or a put. -/
def UOp.isBlk : UOp → Bool
  | .movBlk _ | .movPutf _ => true
  | _ => false

/-- The place of one run's first byte; another device lies beyond the Lath, as the host does. -/
def State.endLoc (s : State) (lc : Nat) (p : Place) (d : Int) : Loc :=
  match p with
  | .here a => s.resolve (some lc) ((a : Int) + d).toNat
  | _ => .host 0

/-- Both ends of every run of a copy. -/
def State.copyEnds (s : State) (lc : Nat) (d : Desc) : List (Loc × Loc) :=
  let m := blkMove d
  List.zipWith (fun x y => (s.endLoc lc (s.place m.sg m.src) x, s.endLoc lc (s.place m.dg m.dst) y))
    (runs m.c1 m.c2 m.ss1 m.ss2) (runs m.c1 m.c2 m.ds1 m.ds2)

/-- The vertical channel that rows between two places cross: that of the hawk, when the other place lies in the Lath (04
R153 R154). -/
def State.runChan (s : State) (a b : Loc) : Option (Nat × VcDir) :=
  match a, b with
  | .hawk n _, b => if b.coreOf.isSome then none else some (s.siteOf n, .down)
  | a, .hawk n _ => if a.coreOf.isSome then none else some (s.siteOf n, .up)
  | _, _ => none

/-- The channels that a copy's rows cross. -/
def State.copyChans (s : State) (lc : Nat) (d : Desc) : List (Nat × VcDir) :=
  ((s.copyEnds lc d).filterMap fun p => s.runChan p.1 p.2).eraseDups

/-- The channels of a copy in one direction. -/
def State.chansOf (s : State) (lc : Nat) (d : Desc) (dir : VcDir) : List (Nat × VcDir) :=
  (s.copyChans lc d).filter fun c => c.2 == dir

/-- Every place of a copy is reached (12 R412 R413 R416). -/
def State.copyReaches (s : State) (lc : Nat) (d : Desc) : Bool :=
  (s.copyEnds lc d).all fun p => s.reaches lc p.1 && s.reaches lc p.2

/-- Whether a started Mover instruction of a core uses the channel of a site. -/
def State.onChannel (s : State) (site lc : Nat) (e : UEntry) : Bool :=
  e.started && e.fin.isNone && (match e.op with
    | .movRow _ _ => s.siteOf lc == site
    | .movBlk _ | .movPutf _ => (s.copyChans lc (e.ds.headD 0)).any fun c => c.1 == site
    | _ => false)

/-- Fetching is over: the stream is stored, once its rows cross into the hawks that they are for (03 R105). -/
def State.afterFetch (s : State) (lc i : Nat) (e : UEntry) (putf : Bool) (errs : List MemErr) : State :=
  let d := e.ds.headD 0
  let m := blkMove d
  match s.crossAll (s.chansOf lc d .up) errs with
  | none => s
  | some s =>
    let str := streamOf e.buf
    let (s, t) := s.storeRuns lc e.barred (s.place m.dg m.dst) (runs m.c1 m.c2 m.ds1 m.ds2) m.len str
    let s := s.event lc 0x28 ((m.len + 63) / 64 * m.c1 * m.c2)
    let e := { e with
      prog := 2, await := t.await, buf := [], nnz := t.n, worst := worse e.worst t.worst
      poi := e.poi || str.any fun b => b.2 && b.1.isSome }
    let s := s.setEntry lc .mover i e
    if t.await.isEmpty then s.afterStore lc i e putf else s

/-- The oldest unfinished block copy of a core goes on where nothing that it awaits is left and every place is reached. -/
def State.moverOn (s : State) (lc : Nat) (errs : List MemErr := []) : State :=
  match findEntry (fun e => e.started && e.fin.isNone) ((s.core lc).q .mover) with
  | some (i, e) =>
    if UOp.isBlk e.op ∧ e.begun ∧ e.await.isEmpty ∧ s.copyReaches lc (e.ds.headD 0) then
      if e.prog = 1 then s.afterFetch lc i e (UOp.isPutf e.op) errs else s.afterStore lc i e (UOp.isPutf e.op)
    else s
  | none => s

/-- A block copy begins: its checks, CORE_DEAD at a retired site (03 R127), then its fetch, once every place is reached and
the rows that leave hawks cross (03 R105 R120 R122). An error that a read meets may fail a core: the copy then ends as the
checks say (01 R23). -/
def State.beginBlk (s : State) (lc i : Nat) (e : UEntry) (errs : List MemErr) (putf : Bool) : State :=
  let d := e.ds.headD 0
  let m := blkMove d
  if e.begun then s.moverOn lc errs
  else if ¬ (s.core lc).aheadDone .mover i then s
  else match s.blkCheck lc d putf with
    | some st => s.finish lc .mover i st (movSum 0 false)
    | none =>
      if (s.copyChans lc d).any fun c => s.siteRetired c.1 then s.finish lc .mover i stDead (movSum 0 false)
      else if !s.copyReaches lc d then s
      else match s.crossAll (s.chansOf lc d .down) errs with
        | none => s
        | some s =>
          let s := s.meet errs
          match s.blkCheck lc d putf with
          | some st => s.finish lc .mover i st (movSum 0 false)
          | none =>
            let (s, f) := s.fetchRuns lc (s.place m.sg m.src) (runs m.c1 m.c2 m.ss1 m.ss2) m.len
            let e := { e with
              begun := true, prog := 1, buf := f.buf, await := f.await, worst := worse e.worst f.worst }
            let s := s.setEntry lc .mover i e
            if f.await.isEmpty then s.afterFetch lc i e putf errs else s

/-! ### MOV.RCFL (04 R170 R171) -/

/-- The checks of MOV.RCFL in the order of R172. -/
def State.rcflCheck (s : State) (d : Desc) : Option (BitVec 8) :=
  let base := fld (dword d 0) 0 44
  let len := fld (dword d 1) 0 40
  if ¬ (onlyBits (dword d 0) [(0, 44)] ∧ onlyBits (dword d 1) [(0, 40)] ∧ restZero d 2 ∧ len ≠ 0) then some stInvalid
  else if base % 256 ≠ 0 ∨ len % 256 ≠ 0 then some stMisaligned
  else if 2 ^ 39 < base + len then some stUnmapped
  else if s.rcMib = 0 then some 0x10
  else none

/-- A render-cache flush: every line of the range that is dirty is written back, and with `inv` every line of it
leaves. It waits while a controller that must take a line is in reset (R161), or a Roller's pass holds its bank (11 R389). -/
def State.doRcfl (s : State) (lc i : Nat) (e : UEntry) (inv : Bool) : State :=
  let d := e.ds.headD 0
  let base := fld (dword d 0) 0 44
  let len := fld (dword d 1) 0 40
  let inRange (l : RcLine) : Bool := decide (base / 256 ≤ l.tag) && decide (l.tag < (base + len) / 256)
  let waits (l : RcLine) : Bool := inRange l && l.dirty && s.backWaits l
  if e.begun ∨ ¬ (s.core lc).aheadDone .mover i then s
  else match s.rcflCheck d with
    | some st => s.finish lc .mover i st (movSum 0 false)
    | none =>
      if s.rcWait.any waits || s.rc.any (fun (x : Nat × List RcLine) => x.2.any waits) then s
      else
        let dirty := s.rc.flatMap fun (x : Nat × List RcLine) => x.2.filter fun l => inRange l && l.dirty
        let s := dirty.foldl (fun s l =>
          s.rcBack l) s
        let s := { s with rc := s.rc.map fun (x : Nat × List RcLine) => (x.1,
          if inv then x.2.filter fun l => !inRange l
          else x.2.map fun l => if inRange l then { l with dirty := false } else l) }
        let poi := dirty.any fun l => l.poison != 0
        s.finish lc .mover i (if poi then stPoisoned else stOk) (movSum dirty.length poi)

/-! ### The rows -/

/-- MOV.ROW in one direction: it is issued, or it begins. -/
def State.movRow (s : State) (lc : Nat) (dn : Bool) (step : UStep UnitF) : State :=
  match step with
  | .issue f => s.dispatch lc (.movRow dn f) false
  | .perform errs =>
    s.work lc .mover anyOp (fun o => match o with | .movRow b _ => b == dn | _ => false)
      fun s i e => (s.meet errs).beginRow lc i e

/-- MOV.ROW.UP: rows of the own slice to the hawk (04 R162-R165). -/
def execMovRowUp (lc : Nat) (step : UStep UnitF) (s : State) : Host.Outcome State Fault Refusal :=
  .next (s.movRow lc false step)

/-- MOV.ROW.DN: rows of the hawk to the own slice. -/
def execMovRowDn (lc : Nat) (step : UStep UnitF) (s : State) : Host.Outcome State Fault Refusal :=
  .next (s.movRow lc true step)

/-- MOV.BLK (04 R166-R168). -/
def execMovBlk (lc : Nat) (step : UStep UnitF) (s : State) : Host.Outcome State Fault Refusal :=
  match step with
  | .issue f => .next (s.dispatch lc (.movBlk f) false)
  | .perform errs =>
    .next (s.work lc .mover anyOp (fun o => match o with | .movBlk _ => true | _ => false)
      fun s i e => s.beginBlk lc i e errs false)

/-- MOV.PUTF (12 R433). -/
def execMovPutf (lc : Nat) (step : UStep UnitF) (s : State) : Host.Outcome State Fault Refusal :=
  match step with
  | .issue f => .next (s.dispatch lc (.movPutf f) false)
  | .perform errs =>
    .next (s.work lc .mover anyOp UOp.isPutf fun s i e => s.beginBlk lc i e errs true)

/-- MOV.RCFL (04 R170 R171). -/
def State.movRcfl (s : State) (lc : Nat) (inv : Bool) (step : UStep UnitF) : State :=
  match step with
  | .issue f => s.dispatch lc (.movRcfl inv f) false
  | .perform errs =>
    s.work lc .mover anyOp (fun o => match o with | .movRcfl b _ => b == inv | _ => false)
      fun s i e => (s.meet errs).doRcfl lc i e inv

/-- MOV.RCFL.WB: dirty lines of a range are written back. -/
def execMovRcflWb (lc : Nat) (step : UStep UnitF) (s : State) : Host.Outcome State Fault Refusal :=
  .next (s.movRcfl lc false step)

/-- MOV.RCFL.WBINV: they are written back, and every line of the range leaves. -/
def execMovRcflWbinv (lc : Nat) (step : UStep UnitF) (s : State) : Host.Outcome State Fault Refusal :=
  .next (s.movRcfl lc true step)

end Sys2Proof.Machine
end

