-- ==== Sys2Proof/Machine/Roller.lean ====
section
/-!
DEFINITION. The Rollers (11 R366-R404): selection, RLR.VLD, RLR.MV, RLR.RD and RLR.WR, the stack sequencers, passes,
refreshes and disarming. RLR.VLD, RD and WR have their effect when their turn comes at a stack, RLR.MV pass by pass (log
entry 30).
-/

namespace Sys2Proof.Machine

/-! ### Selection (R367 R379) -/

/-- STACKS, CHANNELS, ROLLERS and BANKS of a selection word. -/
structure RSel where
  w : Word
  stackSet : Nat
  chans : Nat
  rolls : Nat
  banks : Nat

/-- A selection word read. -/
def rselOf (d : Desc) : RSel :=
  let w := dword d 0
  ⟨w, fld w 0 8, fld w 16 16, fld w 32 4, fld w 48 16⟩

/-- The bits of a number below n. -/
def bitsOf (n v : Nat) : List Nat := (List.range n).filter fun i => v / 2 ^ i % 2 == 1

/-- The selected Rollers in order of index: the place of one is its rank. -/
def RSel.rollers (s : RSel) : List Nat :=
  (List.range 512).filter fun x =>
    s.stackSet / 2 ^ (x / 64) % 2 == 1 && s.chans / 2 ^ (x / 4 % 16) % 2 == 1 && s.rolls / 2 ^ (x % 4) % 2 == 1

/-- The selected stacks. -/
def RSel.stackList (s : RSel) : List Nat := bitsOf 8 s.stackSet

/-- The first cell of bank position q of Roller x. -/
def bankCell (x q : Nat) : Nat := x / 64 * 2 ^ 36 + x / 4 % 16 * 2 ^ 32 + (16 * (x % 4) + q) * 2 ^ 26

/-- A Roller's buffers. -/
def State.roller (s : State) (x : Nat) : Roller := mapGet s.rollers x Roller.zero

/-- The state with a Roller's buffers. -/
def State.setRoller (s : State) (x : Nat) (r : Roller) : State := { s with rollers := mapSet s.rollers x r }

/-! ### RLR.MV (R373-R382) -/

/-- A descriptor of RLR.MV (R381). -/
structure RMv where
  axpy : Bool
  init : Bool
  wf : Nat
  vf : Nat
  len : Nat
  rows : Nat
  nblk : Nat
  off : Nat
  rstr : Int
  bstr : Int
  voff : Nat
  vi : Int
  vj : Int
  vbank : Int
  acc : Nat
  ai : Int
  aj : Int
  abank : Int

/-- It read. -/
def rmvOf (d : Desc) : RMv :=
  let w (i : Nat) : Word := dword d i
  ⟨bitAt (w 1) 0, bitAt (w 1) 1, fld (w 1) 4 4, fld (w 1) 8 4, fld (w 1) 16 16, fld (w 1) 32 16, fld (w 1) 48 16,
   fld (w 2) 0 26, sfld (w 2) 32 32, sfld (w 3) 0 32, fld (w 4) 0 16, sfld (w 4) 16 16, sfld (w 4) 32 16,
   sfld (w 4) 48 16, fld (w 5) 0 12, sfld (w 5) 16 16, sfld (w 5) 32 16, sfld (w 5) 48 16⟩

/-- The weight format; FP32 stands for one that is refused. -/
def RMv.wfmt (m : RMv) : Fmt := (fmtOf m.wf).getD .fp32

/-- The vector format. -/
def RMv.vfmt (m : RMv) : Fmt := (fmtOf m.vf).getD .fp32

/-- Bytes of a row. -/
def RMv.rowBytes (m : RMv) : Nat := (m.len * m.wfmt.bits + 7) / 8

/-- Granules of a row. -/
def RMv.grans (m : RMv) : Nat := (m.rowBytes + 63) / 64

/-- The least and greatest of a * t for a in a range of values, added to a range. -/
def widen (r : Int × Int) (lo hi : Nat) (t : Int) : Int × Int :=
  let x := (lo : Int) * t
  let y := (hi : Int) * t
  (r.1 + min x y, r.2 + max x y)

/-- The extremes of the row bytes, the vector elements and the accumulator indices (R382). -/
def RMv.extremes (m : RMv) (qs : List Nat) : (Int × Int) × (Int × Int) × (Int × Int) :=
  let lo := qs.headD 0
  let hi := qs.getLastD 0
  let j := m.nblk - 1
  let i := m.rows - 1
  let k := m.len - 1
  let at' (n : Nat) : Int × Int := ((n : Int), (n : Int))
  let row := widen (widen (at' m.off) 0 j m.bstr) 0 i m.rstr
  let v := widen (widen (at' m.voff) lo hi m.vbank) 0 j m.vj
  let a := widen (widen (at' m.acc) lo hi m.abank) 0 j m.aj
  ((row.1, row.2 + m.rowBytes - 1), if m.axpy then widen v 0 i m.vi else widen v 0 k 1,
   if m.axpy then widen a 0 k 1 else widen a 0 i m.ai)

/-- A term of a step: its accumulator, its product, its poison; and the FLAGS bits of the vector element. -/
structure RTerm where
  acc : Nat
  val : Num
  poi : Bool
  flags : Nat

/-- A vector element, and whether its granule is poisoned. -/
def Roller.elem (r : Roller) (f : Fmt) (v : Int) : Num × Bool :=
  let n := f.bits / 8
  let o := v.toNat * n
  (f.num (leNat ((List.range n).map fun j => mapGet r.vec (o + j) 0)), setHas r.vecPoison (o / 64))

/-- A Roller reads a granule as uncorrectable or poisoned: it is not written (R377 R397). -/
def State.lostAt (s : State) (errs : List MemErr) (p : Nat) : Bool :=
  s.poisoned p || errs.any fun e => e.key / 64 == p / 64 && (e.kind == .uncorr || e.kind == .hardUncorr)

/-- The errors that the memory itself meets in a Roller's reads: not the uncorrectable ones of render granules (R397). -/
def rollerErrs (errs : List MemErr) : List MemErr :=
  errs.filter fun e => !(decide (e.key < 2 ^ 45) && (e.kind == .uncorr || e.kind == .hardUncorr))

/-- The terms of granule g of row (j, i) of bank position q (R373). -/
def State.rterms (s : State) (x : Nat) (r : Roller) (m : RMv) (errs : List MemErr) (q j i g : Nat) : List RTerm :=
  let y : Int := (m.off : Int) + j * m.bstr + i * m.rstr + (64 * g : Nat)
  let p := bankCell x q + y.toNat
  let bs := memGets s.mem p 64
  let bad := s.lostAt errs p
  let per := 512 / m.wfmt.bits
  (List.range (min per (m.len - g * per))).map fun (t : Nat) =>
    let k := g * per + t
    let w := m.wfmt.num (elemAt m.wfmt bs t)
    let vi : Int := (m.voff : Int) + q * m.vbank + j * m.vj + (if m.axpy then (i : Int) * m.vi else (k : Int))
    let ai : Int := (m.acc : Int) + q * m.abank + j * m.aj + (if m.axpy then (k : Int) else (i : Int) * m.ai)
    let (v, vp) := r.elem m.vfmt vi
    ⟨ai.toNat, w.mul v, bad || vp, v.flags⟩

/-- What a run of steps carries: the buffers, the accumulators updated so far, corrected granules, the number of poisoned
granules, FLAGS bits, whether poison was read, the granules read. -/
structure RWalk where
  r : Roller
  seen : NSet
  fixed : Nat
  bad : Nat
  flags : Nat
  poi : Bool
  read : List Nat

/-- One step over the granules of a pair (R376 R377). A corrected granule is written back, so that later steps of the pass read
it clean (R397, 16 R539). -/
def State.rstep (s : State) (x : Nat) (m : RMv) (errs : List MemErr) (qs : List Nat) (j i g : Nat) (w : RWalk) : RWalk :=
  let ts := qs.flatMap fun q => s.rterms x w.r m errs q j i g
  let gr := qs.map fun q => bankCell x q + ((m.off : Int) + j * m.bstr + i * m.rstr + (64 * g : Nat)).toNat
  let hit := gr.filter fun p => !s.lostAt errs p && !w.read.contains p
    && errs.any fun e => e.key / 64 == p / 64 && (e.kind == .soft || e.kind == .hard)
  let w := { w with
    fixed := w.fixed + hit.length, bad := w.bad + (gr.filter (s.lostAt errs)).length, read := w.read ++ gr
    flags := ts.foldl (fun f t => f ||| t.flags) w.flags }
  (ts.map fun t => t.acc).eraseDups.foldl (fun w a =>
    let mine := ts.filter fun t => t.acc == a
    let fresh := m.init && !setHas w.seen a
    let old := if fresh then 0 else mapGet w.r.acc a 0
    let pois := (!fresh && setHas w.r.accPoison a) || mine.any fun t => t.poi
    let new := toFp32 (Num.sum (fp32 old :: mine.map fun t => t.val))
    { w with
      r := { w.r with
        acc := mapSet w.r.acc a new, accPoison := if pois then setAdd w.r.accPoison a else setDel w.r.accPoison a }
      seen := setAdd w.seen a, flags := w.flags ||| (fp32 new).flags, poi := w.poi || pois }) w

/-- Bank positions in pairs (R375). -/
def pairsOf : List Nat → List (List Nat)
  | a :: b :: l => [a, b] :: pairsOf l
  | [a] => [[a]]
  | [] => []

/-- The steps of a walk: for each pair, in order of j, then i, then g (R375). -/
def RMv.steps (m : RMv) (qs : List Nat) : Nat := (pairsOf qs).length * (m.nblk * m.rows * m.grans)

/-- Step t of the walk of one Roller (R375). -/
def State.rstepAt (s : State) (x : Nat) (m : RMv) (errs : List MemErr) (qs : List Nat) (t : Nat) (w : RWalk) : RWalk :=
  let per := m.nblk * m.rows * m.grans
  s.rstep x m errs ((pairsOf qs).getD (t / per) []) (t % per / (m.rows * m.grans)) (t % (m.rows * m.grans) / m.grans)
    (t % m.grans) w

/-- A run of n steps of a walk from where it stands (R389). -/
def State.rrun (s : State) (x : Nat) (m : RMv) (errs : List MemErr) (qs : List Nat) (a : Walk) (n : Nat) : RWalk :=
  (List.range n).foldl (fun w k => s.rstepAt x m errs qs (a.pos + k) w) ⟨s.roller x, a.seen, 0, 0, 0, false, []⟩

/-! ### Checks (R400) -/

/-- The fields of RLR.RD and RLR.WR in w2: ABASE, COUNT, OFMT, CLR. -/
def racc (d : Desc) : Nat × Nat × Nat × Bool :=
  (fld (dword d 2) 0 12, fld (dword d 2) 16 13, fld (dword d 2) 32 4, bitAt (dword d 2) 36)

/-- Bytes of an OFMT element. -/
def rsize (f : Nat) : Nat := if f = 0 then 4 else 2

/-- A reserved format code (05 R177). -/
def badCode (f : Nat) : Bool := decide (10 ≤ f)

/-- DESC_INVALID. -/
def rlrInvalid (op : UOp) (d : Desc) : Bool :=
  let s := rselOf d
  let m := rmvOf d
  let w (i : Nat) : Word := dword d i
  !onlyBits s.w [(0, 8), (16, 20), (48, 16)] || s.rollers.isEmpty
    || (match op with
      | .rlrVld _ =>
        s.banks != 0 || !onlyBits (w 1) [(0, 21), (32, 14)] || !onlyBits (w 2) [(0, 26), (32, 21)] || !restZero d 3
          || fld (w 1) 32 14 == 0 || decide (8192 < fld (w 1) 32 14) || fld (w 2) 16 10 == 0
          || decide (512 < fld (w 2) 16 10)
      | .rlrMv _ =>
        s.banks == 0 || !onlyBits (w 1) [(0, 2), (4, 8), (16, 48)] || !onlyBits (w 2) [(0, 26), (32, 32)]
          || !onlyBits (w 3) [(0, 32)] || !onlyBits (w 5) [(0, 12), (16, 48)] || !restZero d 6
          || m.len == 0 || m.rows == 0 || m.nblk == 0 || (m.wf == 7 && m.len % 2 != 0) || badCode m.wf || badCode m.vf
      | .rlrRd _ =>
        let (_, n, f, _) := racc d
        s.banks != 0 || !onlyBits (w 1) [(0, 21), (32, 21)] || !onlyBits (w 2) [(0, 12), (16, 13), (32, 5)]
          || !restZero d 3 || n == 0 || decide (4096 < n) || decide (fld (w 1) 32 21 < n * rsize f) || badCode f
      | _ =>
        let (_, n, f, _) := racc d
        s.banks == 0 || !onlyBits (w 1) [(0, 26)] || !onlyBits (w 2) [(0, 12), (16, 13), (32, 5)] || !restZero d 3
          || n == 0 || decide (4096 < n) || badCode f)

/-- MISALIGNED. -/
def rlrMisaligned (op : UOp) (d : Desc) : Bool :=
  let w (i : Nat) : Word := dword d i
  let m := rmvOf d
  match op with
  | .rlrVld _ => fld (w 1) 0 21 % 8 != 0 || fld (w 2) 0 16 % 8 != 0 || fld (w 2) 32 21 % 8 != 0
  | .rlrMv _ => m.off % 64 != 0 || m.rstr % 64 != 0 || m.bstr % 64 != 0
  | .rlrRd _ => fld (w 1) 0 21 % 64 != 0 || fld (w 1) 32 21 % 64 != 0
  | _ => fld (w 1) 0 26 % 64 != 0 || (racc d).2.1 * rsize (racc d).2.2.1 % 64 != 0

/-- RLR_FORMAT (R374 R383). -/
def rlrFormat (op : UOp) (d : Desc) : Bool :=
  let m := rmvOf d
  match op with
  | .rlrVld _ => false
  | .rlrMv _ => !([1, 2, 3, 4, 7, 8] : List Nat).contains m.wf || !([0, 1, 2, 3, 4, 8] : List Nat).contains m.vf
  | _ => decide (2 < (racc d).2.2.1)

/-- BANK_RANGE. -/
def rlrBank (op : UOp) (d : Desc) : Bool :=
  match op with
  | .rlrMv _ =>
    let r := ((rmvOf d).extremes (bitsOf 16 (rselOf d).banks)).1
    decide (r.1 < 0) || decide (2 ^ 26 ≤ r.2)
  | .rlrWr _ => decide (2 ^ 26 < fld (dword d 1) 0 26 + (racc d).2.1 * rsize (racc d).2.2.1)
  | _ => false

/-- BUF_RANGE. -/
def rlrBuf (op : UOp) (d : Desc) : Bool :=
  let w (i : Nat) : Word := dword d i
  let n := (rselOf d).rollers.length
  let (ab, cnt, f, _) := racc d
  match op with
  | .rlrVld _ =>
    let len := fld (w 1) 32 14 * 8
    decide (65536 < fld (w 2) 0 16 + len)
      || decide (0x200000 < fld (w 1) 0 21 + (fld (w 2) 16 10 - 1) * fld (w 2) 32 21 + len)
  | .rlrMv _ =>
    let m := rmvOf d
    let (_, v, a) := m.extremes (bitsOf 16 (rselOf d).banks)
    decide (v.1 < 0) || decide ((65536 / (m.vfmt.bits / 8) : Nat) ≤ v.2) || decide (a.1 < 0) || decide (4096 ≤ a.2)
  | .rlrRd _ =>
    decide (4096 < ab + cnt) || decide (0x200000 < fld (w 1) 0 21 + (n - 1) * fld (w 1) 32 21 + cnt * rsize f)
  | _ => decide (4096 < ab + cnt)

/-- The checks of the Scrim port, in their order. -/
def State.rlrCheck (s : State) (op : UOp) (d : Desc) : Option (BitVec 8) :=
  if rlrInvalid op d then some stInvalid
  else if rlrMisaligned op d then some stMisaligned
  else if s.rf .rlrState 0 1 = 0 then some 0x70
  else if (rselOf d).rollers.any fun x => s.rf (.rlrRetired (x / 64)) (x % 64) 1 = 1 then some 0x74
  else if rlrFormat op d then some 0x71
  else if rlrBank op d then some 0x72
  else if rlrBuf op d then some 0x73
  else none

/-! ### Sending (R385 R386) -/

/-- What an entry awaits of a stack: its command's arrival, then its report. -/
def toArrive (st : Nat) : Nat := 2 * st

/-- The report of a stack that the command has reached. -/
def toReport (st : Nat) : Nat := 2 * st + 1

/-- Commands on their way to a stack. -/
def State.onWay (s : State) (st : Nat) : Nat :=
  s.cores.foldl (fun n c => n + (c.2.scrQ.filter fun e =>
    (match e.op with | .rlrVld _ | .rlrMv _ | .rlrRd _ | .rlrWr _ => true | _ => false)
      && e.await.contains (toArrive st)).length) 0

/-- What a multicast awaits of a target beside its copy: the flag addition after it. -/
def flagDue (n : Nat) : Nat := n + 256

/-- An earlier instruction of core lc's Scrim port, before entry i, has still to write the hawk of core n: a multicast
that owes it its copy or its flag, or an RLR.RD or the result of an SCR.RED in the own hawk (12 R421). -/
def Core.writesAhead (c : Core) (lc i n : Nat) : Bool :=
  (c.scrQ.take i).any fun e => e.begun && e.fin.isNone && (match e.op with
    | .scrMcast _ => e.await.contains n || e.await.contains (flagDue n)
    | .rlrRd _ => n == lc
    | .scrRed _ => n == lc && fld (dword (e.ds.headD 0) 4) 0 8 == lc
    | _ => false)

/-- An earlier SCR.RED of core lc's Scrim port, before entry i, has still to read the hawk of core n, its own (R439). -/
def Core.readsAhead (c : Core) (lc i n : Nat) : Bool :=
  n == lc && (c.scrQ.take i).any fun e => e.begun && e.fin.isNone && e.prog == 0 && (match e.op with
    | .scrRed _ => !bitAt (dword (e.ds.headD 0) 4) 18
    | _ => false)

/-- The hawk bytes that an RLR.VLD carries, of all its NSRC sources: byte n at key 2n, a poisoned one marked at key 2n + 1. -/
def State.vldPayload (s : State) (lc : Nat) (d : Desc) : List (Nat × Byte) :=
  let len := fld (dword d 1) 32 14 * 8
  let src := fld (dword d 1) 0 21
  (List.range (fld (dword d 2) 16 10 * len)).flatMap fun n =>
    let o := src + n / len * fld (dword d 2) 32 21 + n % len
    let x := s.hawkGran lc o 1
    (2 * n, x.1.headD 0) :: (if x.2 then [(2 * n + 1, 1)] else [])

/-- An RLR instruction starts its work: its checks, then the command leaves for every selected stack; the rows of an
RLR.VLD leave the hawk over the core's vertical channel (04 R153), after its port's earlier writes there (12 R439). -/
def State.sendRlr (s : State) (lc i : Nat) (e : UEntry) (errs : List MemErr) : State :=
  let d := e.ds.headD 0
  let vld : Bool := match e.op with
    | .rlrVld _ => true
    | _ => false
  match s.rlrCheck e.op d with
  | some st => s.finish lc .scrim i st {}
  | none =>
    let sts := (rselOf d).stackList
    if (vld && (s.core lc).writesAhead lc i lc) || sts.any fun st => decide (16 ≤ s.seqLen st + s.onWay st) then s
    else match s.crossAll (if vld then [(s.siteOf lc, .down)] else []) errs with
    | none => s
    | some s =>
      let buf := if vld then s.vldPayload lc d else []
      s.setEntry lc .scrim i { e with
        begun := true, await := sts.map toArrive, buf := buf, poi := buf.any fun b => b.1 % 2 == 1 }

/-- The oldest Scrim-port instruction that has not begun is sent when it is one of the row's. -/
def State.rlrPerform (s : State) (lc : Nat) (mine : UOp → Bool) (errs : List MemErr) : State :=
  match findEntry (fun e => e.started && !e.begun) (s.core lc).scrQ with
  | some (i, e) => if mine e.op && s.clocked lc then (s.meet errs).sendRlr lc i e errs else s
  | none => s

/-- RLR.VLD (R380). -/
def execRlrVld (lc : Nat) (step : UStep UnitF) (s : State) : Host.Outcome State Fault Refusal :=
  match step with
  | .issue f => .next (s.dispatch lc (.rlrVld f) false)
  | .perform errs => .next (s.rlrPerform lc (fun o => match o with | .rlrVld _ => true | _ => false) errs)

/-- RLR.MV (R381). -/
def execRlrMv (lc : Nat) (step : UStep UnitF) (s : State) : Host.Outcome State Fault Refusal :=
  match step with
  | .issue f => .next (s.dispatch lc (.rlrMv f) false)
  | .perform errs => .next (s.rlrPerform lc (fun o => match o with | .rlrMv _ => true | _ => false) errs)

/-- RLR.RD (R383). -/
def execRlrRd (lc : Nat) (step : UStep UnitF) (s : State) : Host.Outcome State Fault Refusal :=
  match step with
  | .issue f => .next (s.dispatch lc (.rlrRd f) false)
  | .perform errs => .next (s.rlrPerform lc (fun o => match o with | .rlrRd _ => true | _ => false) errs)

/-- RLR.WR (R384). -/
def execRlrWr (lc : Nat) (step : UStep UnitF) (s : State) : Host.Outcome State Fault Refusal :=
  match step with
  | .issue f => .next (s.dispatch lc (.rlrWr f) false)
  | .perform errs => .next (s.rlrPerform lc (fun o => match o with | .rlrWr _ => true | _ => false) errs)

/-! ### A command at a stack -/

/-- What a command did at a stack: the state, poison, bytes written, and the values of RLR.RD by place. -/
structure RDone where
  s : State
  poi : Bool
  n : Nat
  vals : FMap Byte

/-- RLR.VLD at one Roller (R380): poisoned bytes poison their granule, a granule written whole loses its poison. -/
def Roller.load (r : Roller) (d : Desc) (buf : List (Nat × Byte)) (rank : Nat) : Roller :=
  let len := fld (dword d 1) 32 14 * 8
  let dst := fld (dword d 2) 0 16
  let base := rank % fld (dword d 2) 16 10 * len
  let r := { r with
    vec := (List.range len).foldl (fun m j => mapSet m (dst + j) (mapGet buf (2 * (base + j)) 0)) r.vec
    vecPoison := (List.range 1024).foldl (fun p g =>
      if dst ≤ 64 * g ∧ 64 * g + 64 ≤ dst + len then setDel p g else p) r.vecPoison }
  { r with vecPoison := (List.range len).foldl (fun p j =>
      if mapGet buf (2 * (base + j) + 1) 0 ≠ 0 then setAdd p ((dst + j) / 64) else p) r.vecPoison }

/-- Accumulators converted (R383): codes with their poison. -/
def Roller.values (r : Roller) (d : Desc) : List (Nat × Bool) :=
  let (ab, n, f, _) := racc d
  (List.range n).map fun t =>
    ((((fmtOf f).getD .fp32).conv .rne false (fp32 (mapGet r.acc (ab + t) 0))).1, setHas r.accPoison (ab + t))

/-- CLR: the accumulators read are set to +0, their poison cleared. -/
def Roller.clear (r : Roller) (d : Desc) : Roller :=
  let (ab, n, _, clr) := racc d
  if clr then
    { r with
      acc := (List.range n).foldl (fun m t => mapErase m (ab + t)) r.acc
      accPoison := (List.range n).foldl (fun p t => setDel p (ab + t)) r.accPoison }
  else r

/-- Values written to consecutive places: their bytes, and the bytes of the poisoned ones. -/
def valBytes (sz : Nat) (vs : List (Nat × Bool)) : List Byte × List Nat :=
  (vs.flatMap fun v => leBytes sz v.1, (List.range vs.length).filter fun t => (vs.getD t (0, false)).2)

/-- One selected Roller starts or does its part of a command: an RLR.MV starts its walk (R375); RLR.WR opens every DRAM row
that it writes (R368). -/
def rollerRun (c : RlrCmd) (x rank : Nat) (a : RDone) : RDone :=
  let r := a.s.roller x
  let d := c.desc
  let sz := rsize (racc d).2.2.1
  let vs := r.values d
  let (bs, bad) := valBytes sz vs
  match c.op with
  | .rlrVld _ =>
    { a with s := a.s.setRoller x (r.load d c.payload rank), n := a.n + fld (dword d 1) 32 14 * 8 }
  | .rlrMv _ =>
    let due := a.s.pins.brake || setHas a.s.refreshDue (x / 4)
    { a with s := a.s.setRoller x { r with pass := !due, walk := some ⟨0, [], (rselOf d).banks, none⟩ } }
  | .rlrRd _ =>
    let dst := fld (dword d 1) 0 21 + rank * fld (dword d 1) 32 21
    let s := bad.foldl (fun s t => s.hawkPoison c.lc (dst + t * sz) sz) (a.s.hawkWrite c.lc dst bs)
    { a with
      s := s.setRoller x (r.clear d), poi := a.poi || !bad.isEmpty
      vals := (List.range bs.length).foldl (fun m j => mapSet m (rank * (racc d).2.1 * sz + j) (bs.getD j 0)) a.vals }
  | _ =>
    let off := fld (dword d 1) 0 26
    let qs := bitsOf 16 (rselOf d).banks
    let s := qs.foldl (fun s q =>
      let p := bankCell x q + off
      let s := (blocks 1024 (bs.length + 1) p bs.length).foldl (fun s b => s.openRow b.1) s
      bad.foldl (fun s t => s.poisonGran (p + t * sz)) (s.writeRun p bs)) a.s
    { a with s := s.setRoller x (r.clear d), poi := a.poi || !bad.isEmpty, n := a.n + qs.length * bs.length }

/-- A command does its part at a stack, Roller by Roller; those whose part a reset has ended are left out (R398). -/
def State.stackRun (s : State) (st : Nat) (c : RlrCmd) : RDone :=
  let rs := (rselOf c.desc).rollers
  (List.range rs.length).foldl (fun a rank =>
    let x := rs.getD rank 0
    if x / 64 = st ∧ !setHas c.gone x then rollerRun c x rank a else a) ⟨s, false, 0, []⟩

/-- A selected channel of a command is in reset (R398). -/
def State.chanOff (s : State) (d : Desc) (st : Nat) : Bool :=
  (rselOf d).rollers.any fun x => decide (x / 64 = st) && decide (s.rf (.rndCh (x / 4)) 0 1 = 1)

/-- A Roller instruction. -/
def UOp.isRlr : UOp → Bool
  | .rlrVld _ | .rlrMv _ | .rlrRd _ | .rlrWr _ => true
  | _ => false

/-- The commands at a stack, oldest first. -/
def State.queueAt (s : State) (st : Nat) : List RlrCmd := mapGet s.seqs st []

/-- The state with the commands at a stack. -/
def State.setQueue (s : State) (st : Nat) (q : List RlrCmd) : State := { s with seqs := mapSet s.seqs st q }

/-- The Rollers of a command at a stack. -/
def RlrCmd.rollers (c : RlrCmd) (st : Nat) : List Nat := (rselOf c.desc).rollers.filter fun x => x / 64 == st

/-- The entry of a core's Scrim port that the nth of its commands at a stack belongs to. -/
def Core.sentTo (c : Core) (st n : Nat) : Option (Nat × UEntry) :=
  (c.scrQ.zipIdx.filterMap fun x =>
    if x.1.begun && x.1.fin.isNone && UOp.isRlr x.1.op && x.1.await.contains (toReport st) then some (x.2, x.1) else none)[n]?

/-- A Roller of a stack is on its walk: the RLR.MV of that stack goes on. -/
def State.walking (s : State) (st : Nat) : Bool :=
  (List.range 64).any fun r => (s.roller (64 * st + r)).walk.isSome

/-- The values of an RLR.RD may enter the hawk: its port's earlier writes and reads there are performed (12 R421 R439), and
its rows cross the core's vertical channel (04 R153); at a retired site they never land (03 R127). -/
def State.rdLands (s : State) (st i : Nat) (c : RlrCmd) (errs : List MemErr) : Option State :=
  let site := s.siteOf c.lc
  if s.siteRetired site then some s
  else
  let n := ((s.queueAt st).take i).filter fun x => x.lc == c.lc
  match (s.core c.lc).sentTo st n.length with
  | some (k, _) =>
    if (s.core c.lc).writesAhead c.lc k c.lc || (s.core c.lc).readsAhead c.lc k c.lc then none else s.cross site .up errs
  | none => s.cross site .up errs

/-- The next command of a stack takes its turn, once the RLR.MV before it is done (R386). -/
def State.seqStep (s : State) (st : Nat) (errs : List MemErr) : State :=
  let q := s.queueAt st
  let i := q.findIdx fun c => !c.ran
  match q[i]? with
  | none => s
  | some c =>
    let rd : Bool := match c.op with
      | .rlrRd _ => true
      | _ => false
    let go := if s.walking st then none else if rd then s.rdLands st i c errs else some s
    match go with
    | none => s
    | some s =>
      let c := if rd && s.siteRetired (s.siteOf c.lc) then { c with gone := (c.rollers st).foldl setAdd c.gone } else c
      let a := s.stackRun st c
      a.s.setQueue st (q.set i { c with
        ran := true, poi := c.poi || a.poi, nnz := c.nnz + a.n, payload := if rd then a.vals else [] })

/-- The commands of a stack take their turns as far as they can. -/
def State.seqOn (s : State) (st : Nat) (errs : List MemErr) : State :=
  (List.range 16).foldl (fun s _ => s.seqStep st errs) s

/-! ### Reports (R385 R401) -/

/-- The status that a stack reports of a command (R400); values that could not reach a retired site make it CORE_DEAD (03 R127,
log entry 120). -/
def RlrCmd.status (c : RlrCmd) : BitVec 8 :=
  if c.reset then stReset else if !c.gone.isEmpty then stDead else if c.poi then stPoisoned else if c.fixed ≠ 0 then 0x30 else stOk

/-- An entry takes up what a stack reports: counts, FLAGS bits of an RLR.MV, values of an RLR.RD. -/
def UEntry.heard (e : UEntry) (c : RlrCmd) : UEntry :=
  { e with
    nnz := e.nnz + c.nnz, prog := e.prog + c.fixed, poi := e.poi || c.poi
    worst := worse e.worst (if c.status = stOk then none else some c.status)
    buf := match c.op with
      | .rlrMv _ => [(0, mapGet e.buf 0 0 ||| BitVec.ofNat 8 c.flags)]
      | _ => c.payload.foldl (fun m b => mapSet m b.1 b.2) e.buf }

/-- The summary of a Roller instruction: the values of RLR.RD are those written, each at its place n * COUNT + t. -/
def rlrSum (e : UEntry) : SumV :=
  let d := e.ds.headD 0
  let n := (rselOf d).rollers.length
  let (_, cnt, f, _) := racc d
  let sz := rsize f
  let poi := poisonFlag e.poi
  match e.op with
  | .rlrMv _ =>
    { sum := intSum (BitVec.ofNat 32 e.prog), nnz := BitVec.ofNat 64 e.nnz, flags := flagWord [(mapGet e.buf 0 0).toNat, poi] }
  | .rlrRd _ =>
    let fm := (fmtOf f).getD .fp32
    let ts := (List.range (n * cnt)).filter fun t => (mapGet? e.buf (t * sz)).isSome
    let vs := ts.map fun t => fm.num (leNat ((List.range sz).map fun j => mapGet e.buf (t * sz + j) 0))
    { statsOf false (fun i => ts.getD i 0) vs with flags := flagWord [flagsOf vs, poi] }
  | _ => { nnz := BitVec.ofNat 64 e.nnz, flags := flagWord [poi] }

/-- Entry i of a core, with the stacks that it still awaits, takes up a report; the instruction ends with the last one
(R385). -/
def State.report (s : State) (lc i : Nat) (e : UEntry) (c : RlrCmd) : State :=
  let e := e.heard c
  let s := s.setEntry lc .scrim i e
  if e.await.isEmpty then
    s.finish lc .scrim i ((if e.poi then worse e.worst (some stPoisoned) else e.worst).getD stOk) (rlrSum e)
  else s

/-! ### Arrival and report -/

/-- ROLLER_COMMAND_ARRIVAL: the oldest command of a core on its way to a stack reaches the sequencer, and runs once its
turn comes (R386); a stack in self-refresh lets it wait (R392); a command that finds a selected channel in reset completes
at once with PORT_RESET (R398). -/
def execRollerCommandArrival (lc stack : Nat) (errs : List MemErr) (s : State) : Host.Outcome State Fault Refusal :=
  if s.rf .rlrState (16 + stack) 1 = 1 ∧ !setHas s.power.awake (168 + stack) then .next s
  else match findEntry (fun e => e.begun && e.fin.isNone && e.await.contains (toArrive stack) && UOp.isRlr e.op)
      (s.core lc).scrQ with
  | none => .next ((s.meet errs).seqOn stack errs)
  | some (i, e) =>
    let d := e.ds.headD 0
    let c : RlrCmd := ⟨lc, e.op, d, false, [], s.chanOff d stack, 0, 0, 0, false, match e.op with | .rlrVld _ => e.buf | _ => []⟩
    let s := s.meet errs
    if c.reset then
      .next ((s.incRf (.rlrStack stack) 16 16 1).report lc i { e with await := e.await.filter fun n => n != toArrive stack } c)
    else
      let s := s.setEntry lc .scrim i { e with await := e.await.map fun n => if n = toArrive stack then toReport stack else n }
      .next ((s.setQueue stack (s.queueAt stack ++ [c])).seqOn stack errs)

/-- ROLLER_STACK_REPORT: the oldest command of a stack, once its turn has come and its Rollers have finished, is reported;
the instruction ends with its last report (R385). -/
def execRollerStackReport (stack : Nat) (s : State) : Host.Outcome State Fault Refusal :=
  match s.queueAt stack with
  | [] => .next s
  | c :: rest =>
    let mv : Bool := match c.op with
      | .rlrMv _ => true
      | _ => false
    if !c.ran ∨ (mv ∧ rest.all (fun x => !x.ran) ∧ s.walking stack) then .next s
    else
      let s := s.setQueue stack rest
      match (s.core c.lc).sentTo stack 0 with
      | none => .next s
      | some (i, e) =>
        .next ((s.report c.lc i { e with await := e.await.filter fun n => n != toReport stack } c).seqOn stack [])

/-! ### Passes, refresh, disarming (R389-R391 R399) -/

/-- The DRAM rows of a channel are closed. -/
def State.closeRows (s : State) (chan : Nat) : State := { s with rows := s.rows.filter fun e => e.1 / 64 != chan }

/-- A Roller of a channel is in a pass. -/
def State.passing (s : State) (chan : Nat) : Bool := (List.range 4).any fun r => (s.roller (4 * chan + r)).pass

/-- The RLR.MV that walks at a stack: the last command whose turn has come. -/
def State.mvAt (s : State) (st : Nat) : Option (Nat × RlrCmd) :=
  let q := s.queueAt st
  let n := (q.takeWhile fun c => c.ran).length
  if n = 0 then none else (q[n - 1]?).map fun c => (n - 1, c)

/-- No Roller of a channel is in a pass: the refresh that has fallen due is performed (R390 R391). -/
def State.gapRefresh (s : State) (ch : Nat) : State :=
  if setHas s.refreshDue ch ∧ ¬ s.passing ch then { s with refreshDue := setDel s.refreshDue ch }.closeRows ch else s

/-- The Roller is on a walk, and no gap stays open for requests queued to its banks (R390). -/
def Roller.goesOn (r : Roller) : Bool :=
  match r.walk with
  | some w => w.gap.isNone
  | none => false

/-- The Rollers of a channel whose gap is over begin their next pass, unless a refresh is due (R390 R391) or BRAKE_N is
asserted (17 R586). -/
def State.gapEnd (s : State) (ch : Nat) : State :=
  if setHas s.refreshDue ch ∨ s.pins.brake then s
  else { s with rollers := s.rollers.map fun (e : Nat × Roller) =>
    if e.1 / 4 = ch ∧ e.2.goesOn then (e.1, { e.2 with pass := true }) else e }

/-- The gap of a Roller's walk. -/
def State.setGap (s : State) (x : Nat) (g : Option Nat) : State :=
  let r := s.roller x
  s.setRoller x { r with walk := r.walk.map fun w => { w with gap := g } }

/-- No request remains in a Roller's gap: it ends (R390). -/
def State.gapClose (s : State) (x : Nat) : State := (s.setGap x none).gapEnd (x / 4)

/-- A pass of a Roller ends after n steps: its buffers and its place in the walk are kept over the gap; a walk that is over
lets the next command of the stack run (R375-R377 R386 R390). -/
def State.passEnd (s : State) (x n : Nat) (errs : List MemErr) : State :=
  let r := s.roller x
  match r.walk, s.mvAt (x / 64) with
  | some a, some (i, c) =>
    let m := rmvOf c.desc
    let qs := bitsOf 16 (rselOf c.desc).banks
    let s := s.meet (rollerErrs errs)
    let k := min n (m.steps qs - a.pos)
    let w := s.rrun x m errs qs a k
    let s := w.read.foldl State.openRow s
    let next := if m.steps qs ≤ a.pos + k then none else some { a with pos := a.pos + k, seen := w.seen }
    let s := s.setRoller x { w.r with pass := false, walk := next }
    let c := { c with fixed := c.fixed + w.fixed, nnz := c.nnz + w.bad, flags := c.flags ||| w.flags, poi := c.poi || w.poi }
    ((s.setQueue (x / 64) ((s.queueAt (x / 64)).set i c)).incRf (.rlrStack (x / 64)) 32 16 w.fixed).incRf
      (.rlrStack (x / 64)) 48 16 w.bad
  | _, _ => s.setRoller x { r with pass := false }

/-- ROLLER_PASS_END: a Roller's pass ends at a step boundary, after a number of steps; the gap serves the refresh that is
due once no Roller of the channel is in a pass, then the write-backs that waited for the Roller's banks, and with `gap` it
stays open for the requests queued to them, until 64 have been served or a ROLLER_PASS_END without `gap` says that none
remain (R389-R391; the length of a pass, and which requests are queued, are operands: log entry 104). -/
def execRollerPassEnd (p : PassEnd) (s : State) : Host.Outcome State Fault Refusal :=
  let ch := p.roller / 4
  if (s.roller p.roller).pass then
    let s := s.passEnd p.roller p.steps p.errs
    let s := ({ s with free := s.free + 1 }.lathEvent (168 + ch) 5 (Config.elapsed s.free)).gapRefresh ch
    let s := (s.setGap p.roller (some 0)).rcDrain
    .next ((if p.gap then s else s.gapClose p.roller).seqOn (p.roller / 64) p.errs)
  else .next (if p.gap then s else s.gapClose p.roller)

/-- CHANNEL_REFRESH: the refresh of a channel falls due; it waits for the passes of its Rollers and closes every open
row (R391). -/
def execChannelRefresh (chan : Nat) (s : State) : Host.Outcome State Fault Refusal :=
  let s := { s with free := s.free + 1 }.lathEvent (168 + chan) 4 (Config.elapsed s.free)
  if s.passing chan then .next { s with refreshDue := setAdd s.refreshDue chan } else .next (s.closeRows chan)

/-- ROLLER_DISARM_COMPLETE: at a stack that is disarming, every command already sent has completed: its vector and
accumulator buffers are cleared (R399). -/
def execRollerDisarmComplete (stack : Nat) (s : State) : Host.Outcome State Fault Refusal :=
  if setHas s.disarming stack ∧ s.seqLen stack = 0 ∧ s.onWay stack = 0 then
    .next { s with
      disarming := setDel s.disarming stack
      rollers := s.rollers.map fun e =>
        if e.1 / 64 = stack then (e.1, { Roller.zero with pass := e.2.pass, walk := e.2.walk }) else e }
  else .next s

/-- DRAM_ROW_CLOSE: a row that has gone 64 ns without an access closes (R368). -/
def execDramRowClose (chan bank : Nat) (s : State) : Host.Outcome State Fault Refusal :=
  .next (if bank < 64 then { s with rows := mapErase s.rows (chan * 64 + bank) } else s)

/-- The accumulators of a Roller that an RLR.MV updates. -/
def RMv.targets (m : RMv) (banks : Nat) : List Nat :=
  (bitsOf 16 banks).flatMap fun (q : Nat) => (List.range m.nblk).flatMap fun (j : Nat) =>
    (List.range (if m.axpy then m.len else m.rows)).map fun (t : Nat) =>
      ((m.acc : Int) + q * m.abank + j * m.aj + (if m.axpy then (t : Int) else (t : Int) * m.ai)).toNat

/-- A reset ends a command's part at one Roller (R398): the accumulators that it had updated, or was to update, are
poisoned, and the granules that it was to write in the banks, or to fill in the hawk (03 R136). -/
def State.loseRoller (s : State) (c : RlrCmd) (x : Nat) : State :=
  let d := c.desc
  let r := s.roller x
  let (ab, n, f, clr) := racc d
  let sel := rselOf d
  let rank := (sel.rollers.filter fun y => decide (y < x)).length
  let cleared := if clr then (List.range n).map fun t => ab + t else []
  let accs := match c.op with
    | .rlrVld _ => []
    | .rlrMv _ => (rmvOf d).targets sel.banks
    | _ => cleared
  let s := s.setRoller x { r with accPoison := accs.foldl setAdd r.accPoison, pass := false, walk := none }
  match c.op with
  | .rlrRd _ => s.hawkPoison c.lc (fld (dword d 1) 0 21 + rank * fld (dword d 1) 32 21) (n * rsize f)
  | .rlrWr _ => (bitsOf 16 sel.banks).foldl (fun s q =>
      (List.range (n * rsize f / 64)).foldl (fun s g => s.poisonGran (bankCell x q + fld (dword d 1) 0 26 + 64 * g)) s) s
  | _ => s

/-- A reset of a render controller ends every Roller command at its channel's four Rollers: those whose turn has not come,
and the RLR.MV that walks (R398); each ends with PORT_RESET once its other Rollers have finished. -/
def State.resetRollers (s : State) (chan : Nat) : State :=
  let st := chan / 16
  let q := s.queueAt st
  let last := (q.takeWhile fun c => c.ran).length
  let s := (List.range q.length).foldl (fun s i =>
    match q[i]? with
    | none => s
    | some c =>
      let xs := (c.rollers st).filter fun x => x / 4 == chan && !setHas c.gone x
        && (!c.ran || (i + 1 == last && (s.roller x).walk.isSome))
      if xs.isEmpty then s
      else
        let s := xs.foldl (fun s x => s.loseRoller c x) s
        let s := s.setQueue st ((s.queueAt st).set i { c with gone := xs.foldl setAdd c.gone, reset := true })
        if c.reset then s else s.incRf (.rlrStack st) 16 16 1) s
  ((s.gapRefresh chan).rcDrain).seqOn st []

end Sys2Proof.Machine
end

