-- ==== Sys2Proof/Machine/Scrim.lean ====
section
/-!
DEFINITION. The Scrim port and the networks (12 R405-R446): multicast, in-network reduction, barriers, flag operations,
remote accesses of hawks, the seam, link parity.
-/

namespace Sys2Proof.Machine

/-! ### Paths -/

/-- The Scrim-port instruction that a row works on: the oldest that has not begun, while the clock of its half runs (03
R112). -/
def State.scrimPerform (s : State) (lc : Nat) (mine : UOp → Bool) (f : State → Nat → UEntry → State) : State :=
  match findEntry (fun e => e.started && !e.begun) (s.core lc).scrQ with
  | some (i, e) => if mine e.op && s.clocked lc then f s i e else s
  | none => s

/-- A core's Scrim port reaches the hawk of core n now (12 R408 R412 R413). -/
def State.toHawk (s : State) (lc n : Nat) : Bool := s.reaches lc (.hawk n 0)

/-- The routers between two cores forward now. -/
def State.routes (s : State) (lc n : Nat) : Bool := s.clocked lc && s.scrimOpen (s.siteOf lc) (s.siteOf n)

/-- A run lies in the first 2 MiB of a hawk window. -/
def inHawk (o len : Nat) : Bool := decide (o + len ≤ 0x200000)

/-! ### SCR.MCAST (R418-R421) -/

/-- The fields of SCR.MCAST. -/
structure McastD where
  src : Nat
  dst : Nat
  len : Nat
  foff : Nat
  fen : Bool

/-- They read. -/
def mcastOf (d : Desc) : McastD :=
  ⟨fld (dword d 4) 0 21, fld (dword d 4) 21 21, fld (dword d 5) 0 19 * 8, fld (dword d 6) 0 21, bitAt (dword d 6) 21⟩

/-- The checks of R436 for SCR.MCAST. -/
def State.mcastCheck (s : State) (lc : Nat) (d : Desc) : Except (BitVec 8) (List Nat) :=
  let m := mcastOf d
  let set := s.descSet d
  let own : Bool := match set with
    | some ns => ns.contains lc
    | none => false
  if !onlyBits (dword d 4) [(0, 42)] || !onlyBits (dword d 5) [(0, 19)] || !onlyBits (dword d 6) [(0, 22)]
      || dword d 7 != 0 || m.len == 0 || decide (262144 * 8 < m.len)
      || (own && decide (m.src < m.dst + m.len) && decide (m.dst < m.src + m.len)) then .error stInvalid
  else if m.src % 8 ≠ 0 ∨ m.dst % 8 ≠ 0 ∨ m.foff % 8 ≠ 0 then .error stMisaligned
  else match set with
    | none => .error 0x50
    | some ns => if inHawk m.src m.len && inHawk m.dst m.len then .ok ns else .error stUnmapped

/-- An SCR.MCAST begins: its checks, then its payload, which its port's earlier writes precede (R439), leaves for every
target. -/
def State.beginMcast (s : State) (lc i : Nat) (e : UEntry) : State :=
  let d := e.ds.headD 0
  match s.mcastCheck lc d with
  | .error st => s.finish lc .scrim i st {}
  | .ok ns =>
    if (s.core lc).writesAhead lc i lc then s
    else
    let m := mcastOf d
    let buf := (List.range m.len).flatMap fun n =>
      let x := s.hawkGran lc (m.src + n) 1
      (2 * n, x.1.headD 0) :: (if x.2 then [(2 * n + 1, 1)] else [])
    (s.freeEvent lc 0x38).setEntry lc .scrim i { e with
      begun := true, await := ns, buf := buf, poi := buf.any fun b => b.1 % 2 == 1 }

/-- SCR.MCAST (R418). -/
def execScrMcast (lc : Nat) (step : UStep UnitF) (s : State) : Host.Outcome State Fault Refusal :=
  match step with
  | .issue f => .next (s.dispatch lc (.scrMcast f) false)
  | .perform errs =>
    .next (s.scrimPerform lc (fun o => match o with | .scrMcast _ => true | _ => false) fun s i e =>
      (s.meet errs).beginMcast lc i e)

/-- A target is done with; the instruction ends with the last (R420). -/
def State.mcastDone (s : State) (lc i : Nat) (e : UEntry) : State :=
  let s := s.setEntry lc .scrim i e
  if e.await.isEmpty then
    let st := if e.poi then worse e.worst (some stPoisoned) else e.worst
    s.finish lc .scrim i (st.getD stOk) { nnz := BitVec.ofNat 64 e.nnz }
  else s

/-- The flag addition of a multicast at a target: once every write that its release covers has been performed; after a
covered PORT_RESET it is not performed (R418 R441). Its read of the word meets errors. -/
def State.mcastFlag (s : State) (lc i n : Nat) (e : UEntry) (errs : List MemErr) : State :=
  let m := mcastOf (e.ds.headD 0)
  let rest := e.await.filter fun x => x != flagDue n
  if s.failed n then s.mcastDone lc i { e with await := rest, worst := worse e.worst (some stDead) }
  else if (s.core lc).aheadReset .scrim i then
    s.mcastDone lc i { e with await := rest, worst := worse e.worst (some stReset) }
  else if s.coveredBy lc .scrim i e then
    ((s.meet errs).flagAt (0x10100000000 + n * 0x400000 + m.foff) 1 1).mcastDone lc i { e with await := rest }
  else s.setEntry lc .scrim i e

/-- MCAST_COPY_DELIVERED: the oldest multicast of a core that still owes a target its copy, or its flag, performs it
there; a failed target receives nothing (R418-R421). -/
def execMcastCopyDelivered (lc : Nat) (m : Met Nat) (s : State) : Host.Outcome State Fault Refusal :=
  let target := m.val
  match findEntry (fun e => e.begun && e.fin.isNone && (match e.op with | .scrMcast _ => true | _ => false)
      && (e.await.contains target || e.await.contains (flagDue target))) (s.core lc).scrQ with
  | none => .next s
  | some (i, e) =>
    let open? := if s.failed target then s.routes lc target else s.toHawk lc target
    if !open? || decide (144 ≤ target) || (s.core lc).writesAhead lc i target || (s.core lc).readsAhead lc i target then
      .next s
    else if !e.await.contains target then .next (s.mcastFlag lc i target e m.errs)
    else
      let rest := e.await.filter fun x => x != target
      if s.failed target then
        .next (s.mcastDone lc i { e with await := rest, worst := worse e.worst (some stDead) })
      else
        let errs := m.errs
        let m := mcastOf (e.ds.headD 0)
        let s := s.hawkWrite target m.dst ((e.buf.filter fun b => b.1 % 2 == 0).map fun b => b.2)
        let s := (e.buf.filter fun b => b.1 % 2 == 1).foldl (fun s b => s.hawkPoison target (m.dst + b.1 / 2) 1) s
        let s := ((s.freeEvent target 0x39).seamNote (s.siteOf lc) (s.siteOf target)).flitsTo target lc
        let e := { e with await := rest, nnz := e.nnz + 1 }
        if m.fen then
          let e := { e with await := flagDue target :: rest }
          .next ((s.setEntry lc .scrim i e).mcastFlag lc i target e errs)
        else .next (s.mcastDone lc i e)

/-! ### Combine contexts (R425-R428) -/

/-- The context of a DEST and RID. -/
def State.coll (s : State) (dest rid : Nat) : Option Coll := s.liveColls.find? fun c => c.dest == dest && c.rid == rid

/-- The state with a context. -/
def State.setColl (s : State) (k : Coll) : State :=
  { s with colls := (s.colls.filter fun c => !(c.dest == k.dest && c.rid == k.rid)) ++ [k] }

/-- The state without a context. -/
def State.dropColl (s : State) (dest rid : Nat) : State :=
  { s with colls := s.colls.filter fun c => !(c.dest == dest && c.rid == rid) }

/-- The summary of an instruction that a context's end completes (R437): arrivals of a barrier, contributions combined at a
destination. -/
def Coll.sum (k : Coll) (lc : Nat) (op : UOp) : SumV :=
  match op with
  | .scrBar _ => { nnz := BitVec.ofNat 64 k.came }
  | _ => { nnz := if lc = k.dest then BitVec.ofNat 64 k.terms.length else 0 }

/-- Every started and unfinished instruction of a context's DEST and RID ends with a status. -/
def State.endColl (s : State) (k : Coll) (st : BitVec 8) : State :=
  (s.cores.map fun c => c.1).foldl (fun s lc =>
    (List.range (s.core lc).scrQ.length).foldl (fun s i =>
      match (s.core lc).scrQ[i]? with
      | some e =>
        if e.started && e.fin.isNone && s.ofColl k.dest k.rid e then s.finish lc .scrim i st (k.sum lc e.op) else s
      | none => s) s) s

/-- A context ends as a mismatch (R425 R427). -/
def State.mismatch (s : State) (k : Coll) : State :=
  (s.setColl { k with mismatch := true }).endColl k 0x51

/-- An instruction goes on its way: one that started before a mismatch of its DEST and RID had ended, which a context that is
still there shows, completes with RED_MISMATCH (R427). -/
def State.joinColl (s : State) (lc i : Nat) (e : UEntry) (dest rid : Nat) : State :=
  let s := s.setEntry lc .scrim i { e with begun := true }
  match s.coll dest rid with
  | some k => if k.mismatch then s.finish lc .scrim i 0x51 (k.sum lc e.op) else s
  | none => s

/-! ### SCR.RED (R422-R429) -/

/-- The fields of SCR.RED. -/
structure RedD where
  dest : Nat
  rid : Nat
  fmt : Nat
  nocont : Bool
  len : Nat
  src : Nat
  dst : Nat

/-- They read. -/
def redOf (d : Desc) : RedD :=
  let w := dword d 4
  ⟨fld w 0 8, fld w 8 6, fld w 16 2, bitAt w 18, fld w 32 17, fld (dword d 5) 0 21, fld (dword d 5) 21 21⟩

/-- Bytes of an element. -/
def RedD.size (r : RedD) : Nat := if r.fmt = 1 then 2 else 4

/-- The checks of R436 for SCR.RED. -/
def State.redCheck (s : State) (lc : Nat) (d : Desc) : Option (BitVec 8) :=
  let r := redOf d
  let set := s.descSet d
  let outside : Bool := match set with
    | some ns => !ns.contains r.dest
    | none => false
  let self : Bool := match set with
    | some ns => ns.contains lc
    | none => false
  if !onlyBits (dword d 4) [(0, 14), (16, 3), (32, 17)] || !onlyBits (dword d 5) [(0, 42)] || !restZero d 6
      || r.fmt == 3 || r.len == 0 || decide (65536 < r.len) || outside then some stInvalid
  else if r.src % 8 ≠ 0 ∨ r.dst % 8 ≠ 0 ∨ r.len * r.size % 8 ≠ 0 then some stMisaligned
  else if !self then some 0x50
  else if !(r.nocont || inHawk r.src (r.len * r.size)) || !inHawk r.dst (r.len * r.size) then some stUnmapped
  else none

/-- SCR.RED (R422): the participant's contribution starts on its way. -/
def execScrRed (lc : Nat) (step : UStep UnitF) (s : State) : Host.Outcome State Fault Refusal :=
  match step with
  | .issue f => .next (s.dispatch lc (.scrRed f) false)
  | .perform errs =>
    .next (s.scrimPerform lc (fun o => match o with | .scrRed _ => true | _ => false) fun s i e =>
      let s := s.meet errs
      let d := e.ds.headD 0
      match s.redCheck lc d with
      | some st => s.finish lc .scrim i st {}
      | none => s.joinColl lc i e (redOf d).dest (redOf d).rid)

/-- A contribution's elements as the routers combine them, with their poison (R424 R429). -/
def State.redTerm (s : State) (lc : Nat) (r : RedD) : List (BitVec 32 × Bool) :=
  (List.range r.len).map fun j =>
    let (bs, p) := s.hawkGran lc (r.src + j * r.size) r.size
    let v := leNat bs
    (if r.fmt = 1 then toFp32 (Fmt.bf16.num v) else BitVec.ofNat 32 v, p)

/-- A value under combination: value and saturation, poison. -/
abbrev RedV := RVal × Bool

/-- One combine; an absent operand passes the other (R423). -/
def redComb2 (int : Bool) : Option RedV → Option RedV → Option RedV
  | some a, some b => some (redComb (if int then 6 else 1) a.1 b.1, a.2 || b.2)
  | some a, none => some a
  | none, b => b

/-- The result of one element over the tree of the logical grid toward dest (R423). -/
def redTree (int : Bool) (dest : Nat) (x : Nat → Option RedV) : Option RedV :=
  let rd := dest / 12
  let cd := dest % 12
  let comb := redComb2 int
  let chain (l : List (Option RedV)) : Option RedV := l.foldl comb none
  let v (r : Nat) : Option RedV :=
    let w := chain ((List.range cd).map fun c => x (12 * r + c))
    let e := chain ((List.range (11 - cd)).map fun c => x (12 * r + (11 - c)))
    comb (comb w e) (x (12 * r + cd))
  let n := chain ((List.range rd).map v)
  let t := chain ((List.range (11 - rd)).map fun r => v (11 - r))
  comb (comb n t) (v rd)

/-- Every participant that has not failed has arrived. -/
def State.allArrived (s : State) (k : Coll) : Bool := k.set.all fun n => s.failed n || k.arrived.contains n

/-- Some participant failed without arriving. -/
def State.someDead (s : State) (k : Coll) : Bool := k.set.any fun n => s.failed n && !k.arrived.contains n

/-- The destination's reduction is over: the result is written, poisoned granules poisoned (R423 R424 R428 R429). -/
def State.writeRed (s : State) (lc i : Nat) (e : UEntry) (k : Coll) : State :=
  let r := redOf (e.ds.headD 0)
  let int := k.fmt == 2
  let f : Fmt := if k.fmt = 0 then .fp32 else if k.fmt = 1 then .bf16 else .int32
  let dead := s.someDead k
  let res := (List.range k.len).map fun j =>
    redTree int k.dest fun n => match k.terms.lookup n with
      | some l => (l[j]?).map fun t => ((t.1, false), t.2)
      | none => none
  let codes := res.map fun x => match x with
    | none => (0, false, false)
    | some v => ((if k.fmt = 1 then (toBf16 v.1.1).toNat else v.1.1.toNat), v.1.2, v.2)
  let bs := codes.flatMap fun c => leBytes r.size c.1
  let poi := codes.any fun c => c.2.2
  let s := s.hawkWrite lc r.dst bs
  let s := if dead then s.hawkPoison lc r.dst bs.length
    else (List.range codes.length).foldl (fun s j =>
      if (codes.getD j (0, false, false)).2.2 then s.hawkPoison lc (r.dst + j * r.size) r.size else s) s
  let fl := if int then satFlag (codes.any fun c => c.2.1) else flagsOf (codes.map fun c => f.num c.1)
  (s.dropColl k.dest k.rid).finish lc .scrim i (if dead then stDead else if poi then stPoisoned else stOk)
    { nnz := BitVec.ofNat 64 k.terms.length, flags := flagWord [fl, poisonFlag poi] }

/-- The started instruction of a core in a DEST and RID that has joined and not ended. -/
def State.collEntry (s : State) (lc dest rid : Nat) : Option (Nat × UEntry) :=
  findEntry (fun e => e.begun && e.fin.isNone && s.ofColl dest rid e) (s.core lc).scrQ

/-- A context goes on: a reduction whose participants have all arrived is written, after the earlier writes of its port
to that hawk (R421), a barrier is released; a dead one is dropped once every participant has completed. -/
def State.collOn (s : State) (dest rid : Nat) : State :=
  match s.coll dest rid with
  | none => s
  | some k =>
    if k.mismatch || !s.allArrived k then s
    else if k.dead then (if k.set.any fun n => (s.collEntry n dest rid).isSome then s else s.dropColl dest rid)
    else if k.barrier then
      if s.someDead k then (s.dropColl dest rid).endColl k stDead
      else s.setColl { k with released := true }
    else match s.collEntry dest dest rid with
      | some (i, e) =>
        if (s.core dest).writesAhead dest i dest || (s.core dest).readsAhead dest i dest || !s.accepts dest then s
        else s.writeRed dest i e k
      | none => s.dropColl dest rid

/-- Every router on a new context's tree has one of its 32 contexts free (R426). -/
def State.roomFor (s : State) (new : Coll) : Bool :=
  (List.range 168).all fun x => !s.collAt x new || decide (s.ctxHeld x < 32)

/-- A contribution or an arrival is counted in its context (R425-R427): a new context needs room at its routers; `f` adds it
to a context that agrees. -/
def State.reachColl (s : State) (lc : Nat) (new : Coll) (f : State → Coll → State) : State :=
  match s.coll new.dest new.rid with
  | none => if s.roomFor new then f (s.dropColl new.dest new.rid) new else s
  | some k =>
    if k.mismatch then s.endColl k 0x51
    else if k.dead then f s k
    else if k.barrier != new.barrier || k.set != new.set || k.fmt != new.fmt || k.len != new.len
        || k.arrived.contains lc then s.mismatch k
    else f s k

/-- The oldest joined instruction of a core, of a kind, whose contribution or arrival is on its way. -/
def Core.onTheWay (c : Core) (mine : UOp → Bool) : Option (Nat × UEntry) :=
  findEntry (fun e => e.begun && e.fin.isNone && e.prog == 0 && mine e.op) c.scrQ

/-- A reduction whose participants a failure has completed: any context that names the core goes on. -/
def State.collsOf (s : State) (lc : Nat) : State :=
  (s.colls.filter fun k => k.set.contains lc).foldl (fun s k => s.collOn k.dest k.rid) s

/-- RED_CONTRIBUTION_ARRIVAL: a core's contribution reaches the routers and is combined; the reduction ends at the
destination with the last one (R422-R429). -/
def execRedContributionArrival (lc : Nat) (s : State) : Host.Outcome State Fault Refusal :=
  match (s.core lc).onTheWay fun o => match o with | .scrRed _ => true | _ => false with
  | none => .next (s.collsOf lc)
  | some (i, e) =>
    let d := e.ds.headD 0
    let r := redOf d
    if s.failed lc || !s.routes lc r.dest || (s.core lc).writesAhead lc i lc then .next (s.collsOf lc)
    else
      let flits := if r.nocont then 1 else (r.len + 15) / 16
      let new : Coll :=
        ⟨r.dest, r.rid, false, (s.descSet d).getD [], r.fmt, r.len, [], [], false, false, 0, false⟩
      .next (s.reachColl lc new fun s k =>
        let k := { k with
          arrived := k.arrived ++ [lc], came := if k.dead then k.came else k.came + 1
          terms := if r.nocont || k.dead then k.terms else k.terms ++ [(lc, s.redTerm lc r)] }
        let s := (s.setColl k).carried lc r.dest
        let s := s.setEntry lc .scrim i { e with prog := 1 }
        let s := if lc = r.dest then s else s.finish lc .scrim i stOk { nnz := BitVec.ofNat 64 flits }
        s.collOn r.dest r.rid)

/-! ### SCR.BAR (R430) -/

/-- The checks of R436 for SCR.BAR. -/
def State.barCheck (s : State) (lc : Nat) (d : Desc) : Option (BitVec 8) :=
  if !onlyBits (dword d 4) [(8, 6)] || !restZero d 5 then some stInvalid
  else match s.descSet d with
    | none => some 0x50
    | some ns => if ns.contains lc then none else some 0x50

/-- SCR.BAR (R430): the core's arrival starts on its way. -/
def execScrBar (lc : Nat) (step : UStep UnitF) (s : State) : Host.Outcome State Fault Refusal :=
  match step with
  | .issue f => .next (s.dispatch lc (.scrBar f) false)
  | .perform errs =>
    .next (s.scrimPerform lc (fun o => match o with | .scrBar _ => true | _ => false) fun s i e =>
      let s := s.meet errs
      let d := e.ds.headD 0
      match s.barCheck lc d with
      | some st => s.finish lc .scrim i st {}
      | none => s.joinColl lc i e (((s.descSet d).getD []).headD 0) (fld (dword d 4) 8 6))

/-- BARRIER_ARRIVAL: a core's arrival, which carries a release, is combined toward the root; with the last one the
barrier is released (R430 R441). -/
def execBarrierArrival (lc : Nat) (s : State) : Host.Outcome State Fault Refusal :=
  match (s.core lc).onTheWay fun o => match o with | .scrBar _ => true | _ => false with
  | none => .next (s.collsOf lc)
  | some (i, e) =>
    let d := e.ds.headD 0
    let ns := (s.descSet d).getD []
    let root := ns.headD 0
    let rid := fld (dword d 4) 8 6
    if s.failed lc || !s.routes lc root then .next (s.collsOf lc)
    else if (s.core lc).aheadReset .scrim i then
      .next (s.finish lc .scrim i stReset { nnz := BitVec.ofNat 64 (((s.coll root rid).map (·.came)).getD 0) })
    else if !s.coveredBy lc .scrim i e then .next s
    else
      .next (s.reachColl lc ⟨root, rid, true, ns, 0, 0, [], [], false, false, 0, false⟩ fun s k =>
        let k := { k with arrived := k.arrived ++ [lc], came := if k.dead then k.came else k.came + 1 }
        let s := ((s.setColl k).freeEvent lc 0x38).seamNote (s.siteOf lc) (s.siteOf root)
        (s.setEntry lc .scrim i { e with prog := 1 }).collOn root rid)

/-- BARRIER_RELEASE_DELIVERED: the release reaches a participant, whose SCR.BAR ends; during a retune window it waits for
the window's end (R430, 03 R121). -/
def execBarrierReleaseDelivered (lc : Nat) (s : State) : Host.Outcome State Fault Refusal :=
  match s.colls.find? fun k => k.released && k.arrived.contains lc && !(k.terms.map fun t => t.1).contains lc with
  | none => .next s
  | some k =>
    if s.windowOpen lc || !s.routes k.dest lc || !s.clocked lc then .next s
    else
      let k := { k with terms := k.terms ++ [(lc, [])] }
      let s := if k.set.all fun n => s.failed n || (k.terms.map fun t => t.1).contains n then s.dropColl k.dest k.rid
        else s.setColl k
      match s.collEntry lc k.dest k.rid with
      | some (i, _) =>
        .next (((s.freeEvent lc 0x39).seamNote (s.siteOf k.dest) (s.siteOf lc)).finish lc .scrim i stOk
          { nnz := BitVec.ofNat 64 k.came })
      | none => .next s

/-- COLL_TIMEOUT: the oldest unfinished reduction or barrier of a core ends with COLL_TIMEOUT; at a destination the
result's granules are poisoned; later flits of its DEST and RID are discarded (R428 R430). -/
def execCollTimeout (lc : Nat) (s : State) : Host.Outcome State Fault Refusal :=
  match findEntry (fun e => e.begun && e.fin.isNone && (s.collKey e).isSome) (s.core lc).scrQ with
  | none => .next s
  | some (i, e) =>
    match s.collKey e with
    | none => .next s
    | some (dest, rid, bar) =>
      let d := e.ds.headD 0
      let r := redOf d
      let s := if !bar && lc == dest then s.hawkPoison lc r.dst (r.len * r.size) else s
      let k := (s.coll dest rid).getD
        ⟨dest, rid, bar, (s.descSet d).getD [], if bar then 0 else r.fmt, if bar then 0 else r.len, [], [], false, false,
          0, false⟩
      let s := s.setColl { k with dead := true, arrived := if k.arrived.contains lc then k.arrived else k.arrived ++ [lc] }
      .next ((s.finish lc .scrim i 0x52 (k.sum lc e.op)).collOn dest rid)

/-! ### SCR.FLAG (R432) -/

/-- The checks of R436 for SCR.FLAG, with the place of the flag. -/
def State.flagCheck (s : State) (lc : Nat) (d : Desc) : Except (BitVec 8) Place :=
  let w0 := dword d 0
  let p := s.place (bitAt w0 63) (fld w0 0 56)
  if !addrForm w0 || !onlyBits (dword d 2) [(0, 3)] || !restZero d 3 then .error stInvalid
  else match p with
    | .absent => .error 0x54
    | .here a =>
      if !flagTarget a then .error 0x53
      else match s.spanStatus lc a 8 with
        | some st => .error st
        | none => .ok p
    | .remote _ a => if flagTarget a then .ok p else .error 0x53

/-- An SCR.FLAG performs its operation, or sends it to another device; with REL it waits for every covered write, and a
covered PORT_RESET ends it (R432 R441). -/
def State.doFlag (s : State) (lc i : Nat) (e : UEntry) : State :=
  let d := e.ds.headD 0
  let op := fld (dword d 2) 0 2
  let rel := bitAt (dword d 2) 2
  match s.flagCheck lc d with
  | .error st => s.finish lc .scrim i st {}
  | .ok p =>
    if rel && (s.core lc).aheadReset .scrim i then s.finish lc .scrim i stReset {}
    else if rel && !s.coveredBy lc .scrim i e then s
    else match p with
      | .here a =>
        let n := (a - 0x10100000000) / 0x400000
        if (s.core lc).writesAhead lc i n || (s.core lc).readsAhead lc i n || !s.toHawk lc n then s
        else ((s.flagAt a op (dword d 1)).carried lc n).finish lc .scrim i stOk { nnz := 1 }
      | .remote dev a =>
        if s.portDown dev 0 a then s.finish lc .scrim i stReset {}
        else
        let (s, k) := s.flagRemote lc .scrim dev a op rel (dword d 1)
        s.setEntry lc .scrim i { e with begun := true, await := [k] }
      | .absent => s

/-- The rows of SCR.FLAG: row k works on an instruction whose OP is k. -/
def State.flagRow (s : State) (lc k : Nat) (step : UStep UnitF) : State :=
  match step with
  | .issue f => s.dispatch lc (.scrFlag f) false
  | .perform errs =>
    s.scrimPerform lc (fun o => match o with | .scrFlag _ => true | _ => false) fun s i e =>
      if fld (dword (e.ds.headD 0) 2) 0 2 = k then (s.meet errs).doFlag lc i e else s

/-- A remote flag operation whose acknowledgement has come ends (13 R464). -/
def State.scrimOn (s : State) (lc : Nat) : State :=
  match findEntry (fun e => e.begun && e.fin.isNone && e.await.isEmpty
      && (match e.op with | .scrFlag _ => true | _ => false)) (s.core lc).scrQ with
  | some (i, e) => s.finish lc .scrim i (e.worst.getD stOk) { nnz := if e.worst.isNone then 1 else 0 }
  | none => s

/-- SCR.FLAG SET. -/
def execScrFlagSet (lc : Nat) (step : UStep UnitF) (s : State) : Host.Outcome State Fault Refusal :=
  .next (s.flagRow lc 0 step)

/-- SCR.FLAG ADD. -/
def execScrFlagAdd (lc : Nat) (step : UStep UnitF) (s : State) : Host.Outcome State Fault Refusal :=
  .next (s.flagRow lc 1 step)

/-- SCR.FLAG OR. -/
def execScrFlagOr (lc : Nat) (step : UStep UnitF) (s : State) : Host.Outcome State Fault Refusal :=
  .next (s.flagRow lc 2 step)

/-- SCR.FLAG MAXU. -/
def execScrFlagMaxu (lc : Nat) (step : UStep UnitF) (s : State) : Host.Outcome State Fault Refusal :=
  .next (s.flagRow lc 3 step)

/-! ### Remote accesses of hawks (R410) -/

/-- The core whose hawk an address of a core's load or store reaches over the upper Scrim. -/
def State.remoteHawk (s : State) (lc a : Nat) : Option Nat :=
  match s.resolve (some lc) a with
  | .hawk n _ => if n = lc then none else some n
  | _ => none

/-- HAWK_REMOTE_WRITE: a posted store to another core's hawk is performed there, once that hawk takes writes (R412 R413). -/
def execHawkRemoteWrite (lc : Nat) (m : Met Nat) (s : State) : Host.Outcome State Fault Refusal :=
  match (s.core lc).stores[m.val]? with
  | none => .next s
  | some p => .next (if (s.remoteHawk lc p.addr).isSome then s.performStore lc m else s)

/-- HAWK_REMOTE_READ_REQUEST: a load from another core's hawk is performed there; its data return later. -/
def execHawkRemoteReadRequest (lc idx : Nat) (errs : List MemErr) (s : State) : Host.Outcome State Fault Refusal :=
  match (s.core lc).loads[idx]? with
  | none => .next s
  | some l =>
    if (s.remoteHawk lc l.addr).isSome then
      let (s, l) := s.sampleLoad lc idx l errs
      let c := s.core lc
      .next (s.setCore lc { c with loads := c.loads.set idx l })
    else .next s

/-! ### The seam and the links (R411-R413, 16 R546) -/

/-- A site of a half. -/
def siteIn : Half → Nat
  | .west => 0
  | .east => 7

/-- SEAM_ROUTER_WAKE: traffic at the seam finds a half whose router clock does not run, and starts it; the seam buffers hold
the traffic (R412). -/
def execSeamRouterWake (half : Half) (s : State) : Host.Outcome State Fault Refusal :=
  let h := s.half half
  if (!h.routers || h.stopped) && !h.waiting then
    let other : Half := if half = .west then .east else .west
    .next ((((s.setHalf half { h with waiting := true }).incRf .scrSeam 32 32 1).setRf .scrSeam (waitBit half) 1 1).seamNote
      (siteIn other) (siteIn half))
  else .next s

/-- SEAM_ROUTER_WAKE_COMPLETE: the half's routers forward, once a clock stop has ended (R412). -/
def execSeamRouterWakeComplete (half : Half) (s : State) : Host.Outcome State Fault Refusal :=
  let h := s.half half
  if h.waiting && !h.stopped then
    .next (s.routersRun half)
  else .next s

/-- SCRIM_LINK_PARITY_ERROR: a flit with bad parity is sent again; when it fails again it is delivered with every 64 bytes that
it carries poisoned, 256 at most in the lower Scrim, and a ROUTER entry names the sending router or stop (16 R546, 12
R414). -/
def execScrimLinkParityError (site : Nat) (lower again : Bool) (c : Carried) (s : State) :
    Host.Outcome State Fault Refusal :=
  if site < 168 then
    let s := s.log 6 0xA (locRouter site lower) 0
    if again then
      let s := s.poisonMem none c.addr (min c.len 256)
      .next (s.snagIn 0xA (locRouter site lower))
    else .next s
  else .next s

end Sys2Proof.Machine
end

