-- ==== Sys2Proof/Machine/Kerit.lean ====
section
/-!
DEFINITION. The receiving side of Kerit (13 R451-R457 R461-R465 R472-R474 R481): frames, training, packets at their
target and acknowledgements at their source, failover.
-/

namespace Sys2Proof.Machine

/-! ### The reset of a port (13 R457, 03 R133-R137) -/

/-- A key under which an instruction awaits a Kerit packet. -/
def isAwaitKey (k : Nat) : Bool := decide (2 ^ 48 ≤ k) && decide (k < 2 ^ 60)

/-- The packets of a unit of a core go on where nothing more is awaited. -/
def State.unitOn (s : State) (lc : Nat) : UnitId → State
  | .mover => s.moverOn lc
  | .scrim => s.scrimOn lc
  | _ => s

/-- The bytes of a read that will not come: the destination is not filled, and where `poi` holds it is poisoned (R474,
03 R136). -/
def State.fillMissing (s : State) (key : Nat) (u : Unacked) (unit : UnitId) (poi : Bool) : State :=
  if u.pkt.op ≠ 2 then s
  else match findEntry (fun e => e.await.contains key) ((s.core u.lc).q unit) with
    | some (i, e) => s.setEntry u.lc unit i { e with
        buf := putBuf e.buf u.dst poi true (List.replicate u.pkt.len 0) }
    | none => s

/-- A packet of an instruction ends with a status; a write that ends with PORT_RESET after its instruction completed is
known to its queue (12 R441), and releases that it held go on (R465). -/
def State.endPacket (s : State) (fkey : Nat) (u : Unacked) (st : Option (BitVec 8)) (n : Nat) : State :=
  match u.unit with
  | some unit =>
    let k := awaitKey fkey u.pkt.fseq.toNat
    let c := s.core u.lc
    let s := if st = some stReset ∧ u.pkt.op ≠ 2 ∧ !((c.q unit).any fun e => e.await.contains k) then
        s.setCore u.lc { c with lost := setAdd c.lost (unitNum unit) }
      else s
    ((s.awaited u.lc unit k st n).unitOn u.lc unit).storesDone u.lc
  | none => s

/-- Every unacknowledged packet of a flow ends with PORT_RESET (R474, 03 R134-R136). -/
def State.endFlow (s : State) (fkey : Nat) : State :=
  match mapGet? s.tx fkey with
  | none => s
  | some f =>
    let us := f.unacked ++ f.held
    let s := { s with tx := mapSet s.tx fkey { f with unacked := [], held := [] } }
    us.foldl (fun s u =>
      let s := match u.unit with
        | some unit => s.fillMissing (awaitKey fkey u.pkt.fseq.toNat) u unit true
        | none => s
      s.endPacket fkey u (some stReset) 0) s

/-- A Kerit port reset (03 R133-R137): every transfer bound to the port that has not been performed ends with
PORT_RESET. -/
def State.resetPort (s : State) (p : Nat) : State :=
  let s := (s.setPort p { Port.zero with
    peer := (s.port p).peer, coef := (s.port p).coef, coefPeer := (s.port p).coefPeer }).setReg (.klkStatus p) 4
  (s.tx.filter fun (e : Nat × TxFlow) => e.2.port == p).foldl (fun s e => s.endFlow e.1) s

/-- A port is declared failed (R454): recorded in the snag list, nothing carried until it is retrained or reset. -/
def State.failPort (s : State) (p : Nat) : State :=
  ((s.setPort p (s.port p).clear).setReg (.klkStatus p)
    (setFld (setFld (setFld (s.reg (.klkStatus p)) 0 4 3) 4 1 0) 32 8 0)).snagIn 9 (locPort p 0 true)

/-! ### Frames (R451-R454) -/

/-- An ACK frees the frames that it covers; progress ends a run of replays. -/
def Port.ack (x : Port) (a : BitVec 16) : Port :=
  match x.replay.findIdx? fun f => f.pseq == a with
  | some i => { x with replay := x.replay.drop (i + 1), replays := 0 }
  | none => x

/-- The ACK and the credits that an accepted frame delivers. -/
def Port.take (x : Port) (f : Frame) : Port :=
  let y := x.ack f.ack
  { y with
    credReq := y.credReq + f.credReq.toNat, credRsp := y.credRsp + f.credRsp.toNat
    credMgt := y.credMgt + f.credMgt.toNat }

/-- A flow of answers keeps its packets until its port has none of their frames left to send or to have acknowledged
(log entry 31). -/
def State.ackAnswers (s : State) (p : Nat) : State :=
  let x := s.port p
  if (x.sendQ ++ x.replay).any fun f => f.vc != 0 then s
  else { s with tx := s.tx.map fun (e : Nat × TxFlow) =>
    (e.1, if e.2.port = p ∧ e.2.vc ≠ 0 then { e.2 with unacked := [] } else e.2) }.fillStore

/-- What an accepted frame starts at the port: frames that may go now, packets that may enter the flow store. -/
def State.afterFrame (s : State) (p : Nat) (f : Frame) (report : Bool) : State :=
  ((s.setPort p ((s.port p).take f)).pumpPort p report).ackAnswers p

/-- A discarded frame: one NAK frame, which reports ACK and credits as every frame does, names the PSEQ that is expected
(R451). -/
def State.nakFrame (s : State) (p : Nat) : State :=
  let x := s.port p
  if x.nakSent then s
  else
    let (y, g) := x.stamp (bareFrame 2 s.free)
    { (s.setPort p { y with nakSent := true }).send (.nak p x.expect g) with free := s.free + 1 }

/-- A frame with a bad CRC is counted (R484). -/
def State.badFrame (s : State) (p : Nat) : State := (s.incRf (.klkCounts p) 0 16 1).lathEvent (296 + p) 4 1

/-- What every frame at a port that is UP shows: uncorrectable codewords (R484), the margin (R483). -/
def State.noteFrame (s : State) (p : Nat) (f : Frame) : State :=
  let s := if f.words = 0 then s else s.incRf (.klkCounts p) 16 16 f.words
  (s.setRf (.klkStatus p) 32 8 f.margin.toNat).setRf (.klkStatus p) 4 1 (b2n (decide (f.margin.toNat < 20)))

/-- A frame is judged (R448 R451): with a bad CRC it is counted and discarded, with another PSEQ than the expected one
discarded; a NAK answers a discarded frame. -/
def State.frameIn (s : State) (p : Nat) (f : Frame) : Except State State :=
  let s := s.noteFrame p f
  if !Frame.good f then .error ((s.badFrame p).nakFrame p)
  else if f.pseq ≠ (s.port p).expect then .error (s.nakFrame p)
  else .ok s

/-- Buffer frames of a channel are free again. -/
def Port.freed (x : Port) (vc n : Nat) : Port :=
  if vc = 0 then { x with freeReq := x.freeReq + n }
  else if vc = 1 then { x with freeRsp := x.freeRsp + n } else { x with freeMgt := x.freeMgt + n }

/-- The virtual channel of a packet. -/
def Packet.vc (p : Packet) : Nat := if 3 ≤ p.op.toNat then 1 else 0

/-- The frames of a packet. -/
def Packet.frames (p : Packet) : Nat := (32 + p.data.length + 255) / 256

/-- A flit joins the packet of its channel; a first frame drops a part that was left (R461). A whole packet of a form
that R450 gives waits to be taken on channels REQ and RSP (one of MGT goes to the MC at once); anything else is dropped. -/
def Port.gather (x : Port) (f : Frame) : Port :=
  let vc := f.vc.toNat
  let old := if f.sop then [] else mapGet x.asm vc []
  let bytes := old ++ f.flit
  if 33 * 256 < bytes.length then { x with asm := mapErase x.asm vc }.freed vc 33
  else if f.eop then
    let p := packetOf bytes
    let x := { x with asm := mapErase x.asm vc }
    if vc < 2 ∧ p.okForm ∧ p.vc = vc ∧ p.frames = (bytes.length + 255) / 256 then { x with arrived := x.arrived ++ [p] }
    else x.freed vc ((bytes.length + 255) / 256)
  else { x with asm := mapSet x.asm vc bytes }

/-- The packet of channel MGT that a flit completes (R469). -/
def Port.mgtPacket (x : Port) (f : Frame) : Option Packet :=
  let bytes := (if f.sop then [] else mapGet x.asm 2 []) ++ f.flit
  let p := packetOf bytes
  if f.vc = 2 ∧ f.eop ∧ bytes.length ≤ 33 * 256 ∧ p.op = 0 ∧ p.okForm ∧ p.frames = (bytes.length + 255) / 256 then some p
  else none

/-- A port that carries frames: UP, with KLK_CTRL.LOCK 1 (R481). -/
def State.carries (s : State) (p : Nat) : Bool :=
  decide (p < 16) && decide (s.portState p = 2) && decide (s.rf .klkCtrl 16 1 = 1)

/-! ### The receive flow table, and packets that go on (R461 R472) -/

/-- What the receive flow table says of a packet (R461). -/
inductive RxSays
  | accept | duplicate | drop
  deriving DecidableEq, Repr

/-- The receive flow table judges a packet of a virtual channel. -/
def State.rxJudge (s : State) (vc : Nat) (p : Packet) : State × RxSays :=
  let key := flowKey p.srcDev.toNat vc p.stripe.toNat
  let e : RxFlow := mapGet s.rx key ⟨0, 0⟩
  let n := p.fseq.toNat
  if e.epoch ≠ p.epoch ∧ n ≠ 0 then (s, .drop)
  else
    let want := if e.epoch = p.epoch then e.expect else 0
    if n = want then ({ s with rx := mapSet s.rx key ⟨p.epoch, want + 1⟩ }, .accept)
    else if n < want then (s, .duplicate) else (s, .drop)

/-- The ports from this device to a panel member, in ascending order of g. -/
def State.memberPorts (s : State) (j : Nat) : List Nat :=
  let size := s.rf .klkIdent 24 5
  (List.range (panelGroups size)).map fun g => panelPort size (s.devnum % 16) j g

/-- A packet for another device goes on from port to port (R472): it leaves on the home port toward its destination, or in a
panel on another port toward it that is UP where that one is not. -/
def State.relayOn (s : State) (vc : Nat) (p : Packet) : State :=
  let dst := p.dstDev.toNat
  let h := s.homePort dst p.stripe.toNat
  let more := if s.rf .klkIdent 45 1 = 0 ∧ dst / 16 = s.devnum / 16 then s.memberPorts (dst % 16) else []
  s.transmit (((h :: more).find? fun x => decide (s.portState x = 2)).getD h) vc p

/-- A complete packet of channel MGT: for another device it goes on; for this one the receive flow table judges it, and the MC
takes the bytes of an accepted one into the message that MGT_IMAGE_RECEIVE or MEMBER_REPORT brings (R461 R469 R472, log
entry 106). -/
def State.onMgt (s : State) (p : Packet) : State :=
  if p.dstDev.toNat ≠ s.devnum then s.relayOn 2 p else (s.rxJudge 2 p).1

/-- DATA_FRAME: accepted when its CRC is good and its PSEQ is the next, discarded with a NAK otherwise; the port reports the
new ACK (R448-R453). -/
def execDataFrame (port : Nat) (f : Frame) (s : State) : Host.Outcome State Fault Refusal :=
  if s.carries port && f.typ == 1 && decide (f.flit.length = 256) then
    match s.frameIn port f with
    | .error s => .next s
    | .ok s =>
      let x := s.port port
      let s := match x.mgtPacket f with
        | some p => s.onMgt p
        | none => s
      let x := ({ s.port port with expect := x.expect + 1, nakSent := false } : Port).gather f
      .next (((s.setPort port x).lathEvent (296 + port) 2 1).afterFrame port f true)
  else .next s

/-- The frames held from a place on are sent again, each reporting the present ACK; a replay is counted, and the
RETRY_LIMIT-th in a row of one PSEQ fails the port (R452 R454). -/
def State.replayFrom (s : State) (p i : Nat) : State :=
  let x := s.port p
  let fs := x.replay.map fun f => let g : Frame := { f with ack := x.expect - 1 }; { g with crc := Frame.crcOf g }
  if fs.length ≤ i then s
  else
    let n := if i = 0 then x.replays + 1 else x.replays
    let s := s.setPort p { x with replay := fs, replays := n }
    let s := (s.incRf (.klkCounts p) 48 16 1).lathEvent (296 + p) 3 1
    let s := s.send (.frames p (fs.drop i))
    if s.rf .klkCfg 24 8 ≤ n then s.failPort p else s

/-- NAK_FRAME: once accepted (R451), the frames from the named PSEQ on are sent again (R452). -/
def execNakFrame (port : Nat) (f : Frame) (want : Nat) (s : State) : Host.Outcome State Fault Refusal :=
  if s.carries port && f.typ == 2 then
    match s.frameIn port f with
    | .error s => .next s
    | .ok s =>
      let s := s.setPort port ((s.port port).take f)
      match (s.port port).replay.findIdx? fun g => g.pseq.toNat == want with
      | some i => .next (((s.replayFrom port i).pumpPort port).ackAnswers port)
      | none => .next ((s.pumpPort port).ackAnswers port)
  else .next s

/-- IDLE_FRAME: once accepted (R451), its ACK, its credits, and in a panel a request of the peer that changes the
transmitter coefficients; the uplink K15 leads to a switch, toward which only the receiver adapts (R449 R453 R456). -/
def execIdleFrame (port : Nat) (f : Frame) (eq : Option (List Byte)) (s : State) : Host.Outcome State Fault Refusal :=
  if decide (port < 16) && decide (s.portState port = 2) && f.typ == 0 then
    match s.frameIn port f with
    | .error s => .next s
    | .ok s =>
      let s := match eq with
        | some c => if s.rf .klkIdent 45 1 = 0 ∧ port ≠ 15 then s.setPort port { s.port port with coef := c } else s
        | none => s
      .next (s.afterFrame port f false)
  else .next s

/-- ACK_TIMEOUT_REPLAY: 4 us without progress of ACK while frames are held (R452). -/
def execAckTimeoutReplay (port : Nat) (s : State) : Host.Outcome State Fault Refusal :=
  .next (if s.carries port && !(s.port port).replay.isEmpty then s.replayFrom port 0 else s)

/-- CODEWORD_LOCK_LOSS: the receiver has had no codeword lock for 1 us (R454). -/
def execCodewordLockLoss (port : Nat) (s : State) : Host.Outcome State Fault Refusal :=
  .next (if port < 16 ∧ s.portState port = 2 then s.failPort port else s)

/-! ### Training (R447 R455 R466, 20 R636 R637) -/

/-- The number of a peer: its device number and its port. -/
def peerCode (dev : BitVec 12) (port : BitVec 4) : Nat := dev.toNat * 16 + port.toNat + 1

/-- The cable rule of a panel (R466): which peer port faces port p; K15 is the uplink, and the unused ports face
nothing. -/
def State.cableOk (s : State) (p : Nat) (dev : BitVec 12) (q : BitVec 4) : Bool :=
  let size := s.rf .klkIdent 24 5
  let m := size - 1
  if s.rf .klkIdent 45 1 = 1 ∨ p = 15 then true
  else if panelGroups size * m ≤ p then false
  else
    let r := p % m
    let j := (s.devnum % 16 + r + 1) % size
    decide (dev.toNat = s.devnum / 16 * 16 + j) && decide (q.toNat = p / m * m + (size - 2 - r))

/-- A KLK_LANE entry of a port: in service once READY is 1, in training before (15 R516 R517); the health class follows an
in-service fault (R530). -/
def State.laneSnag (s : State) (p lane : Nat) (whole : Bool) : State :=
  if s.ready then s.snagIn 9 (locPort p lane whole) else s.snag (s.foundBy 9 (locPort p lane whole) false)

/-- What training finds of a port's lanes: an entry for the port where it cannot come up, else one for each lane that did not
train and that no entry names (15 R516, 13 R447). -/
def State.noteLanes (s : State) (p : Nat) (l : BitVec 8) : State :=
  if portLanes l = 0 then s.laneSnag p 0 true
  else ((List.range 8).filter fun i => (s.portGood p).getLsbD i && !l.getLsbD i).foldl
    (fun (s : State) (i : Nat) => s.laneSnag p i false) s

/-- A port that trains (R455): on the lanes that the map leaves it. It reaches UP; a peer that differs from the one recorded at
start fails it under R454; too few lanes, or a peer that breaks the cable rule, leave it FAILED. LANES shows every lane that
trained. A breach of the cable rule is a fault of the cabling, which has no entry (log entry 128). -/
def State.portTrained (s : State) (port : Nat) (t : Training) : State :=
  if port < 16 ∧ (s.portState port = 1 ∨ s.portState port = 3) ∧ s.rf .klkCfg (32 + port) 1 = 1 ∧ !s.portGone port then
    let l := t.lanes &&& s.portGood port
    let code := peerCode t.peerDev t.peerPort
    let stored := decide (mapGet? s.flash.coefPeer port = some code)
    let w : Word := BitVec.ofNat 64 (t.peerDev.toNat * 2 ^ 52 + t.peerPort.toNat * 2 ^ 48 + l.toNat * 2 ^ 16
      + b2n stored * 2 ^ 8)
    let x := s.port port
    let same := match x.peer with
      | some q => q == (t.peerDev, t.peerPort)
      | none => true
    let s := s.noteLanes port l
    if portLanes l ≠ 0 ∧ !same then (s.setReg (.klkStatus port) w).failPort port
    else if portLanes l = 0 ∨ !s.cableOk port t.peerDev t.peerPort then
      let s := s.setReg (.klkStatus port) (setFld w 0 4 3)
      if s.ready then s.health else s
    else
        let w := setFld (setFld (setFld w 32 8 t.margin.toNat) 4 1 (b2n (decide (t.margin.toNat < 20)))) 0 4 2
        let x := { Port.zero with
          peer := some (t.peerDev, t.peerPort), arrived := x.arrived
          coef := if stored then mapGet s.flash.coef port x.coef else x.coef
          coefPeer := some (t.peerDev, t.peerPort) }
        (s.setPort port x).setReg (.klkStatus port) w
  else s

/-- PORT_TRAINING_COMPLETE: a port finishes its training. -/
def execPortTrainingComplete (port : Nat) (t : Training) (s : State) : Host.Outcome State Fault Refusal :=
  .next (s.portTrained port t)

/-- PORT_RETRAIN_RETRY: a port whose peer does not answer trains again, until PORTEN disables it (20 R637). -/
def execPortRetrainRetry (port : Nat) (s : State) : Host.Outcome State Fault Refusal :=
  .next (if port < 16 ∧ s.portState port = 1 ∧ s.rf .klkCfg (32 + port) 1 = 0 then s.setReg (.klkStatus port) 0 else s)

/-- KERIT_COEFFICIENT_STORE: the coefficients in force at a port go to module flash under its peer's identity
(R456). -/
def execKeritCoefficientStore (port : Nat) (coef : List Byte) (s : State) : Host.Outcome State Fault Refusal :=
  match (s.port port).peer with
  | some q =>
    if port < 16 ∧ s.portState port = 2 then
      .next { s.setPort port { s.port port with coef := coef, coefPeer := some q } with flash := { s.flash with
        coef := mapSet s.flash.coef port coef, coefPeer := mapSet s.flash.coefPeer port (peerCode q.1 q.2) } }
    else .next s
  | none => .next s

/-! ### Packets at their target (R459 R461 R462 R464) -/

/-- The oldest packet that a port holds complete leaves it, and its buffer frames are free, which the port reports (R453). -/
def State.takePacket (s : State) (port : Nat) (op : Nat) : Option (State × Packet) :=
  let x := s.port port
  match x.arrived with
  | p :: rest =>
    if p.op.toNat = op ∧ s.rf .klkCtrl 0 1 = 1 ∧ port < 16 then
      some ((s.setPort port ({ x with arrived := rest }.freed p.vc p.frames)).pumpPort port true, p)
    else none
  | [] => none

/-- A complete packet is handled at its target: forwarded, dropped, or judged and handed on. What it is handed to may have to
wait: the packet then stays where it is (log entry 118). -/
def State.onPacket (s : State) (port op : Nat) (f : State → Packet → Bool → Option State) : State :=
  match s.takePacket port op with
  | none => s
  | some (t, p) =>
    if p.dstDev.toNat ≠ s.devnum then t.relayOn p.vc p
    else match t.rxJudge p.vc p with
      | (t, .accept) => (f t p false).getD s
      | (t, .duplicate) => (f t p true).getD s
      | (t, .drop) => t

/-- The checks of a remote access against the own map (R459): host windows and the own-slice window are unmapped. -/
def State.remoteStatus (s : State) (a len : Nat) : Option (BitVec 8) :=
  if 2 ^ 44 < a + len then some stUnmapped
  else (blocks 256 (len + 1) a len).foldl (fun r b =>
    worse r (match s.resolve none b.1 with
      | .unmapped | .host _ => some stUnmapped
      | .dead => some stDead
      | _ => none)) none

/-- The places of a remote access, granule by granule. -/
def State.remotePlaces (s : State) (a len : Nat) : List Loc :=
  (blocks 64 (len + 1) a len).map fun b => s.resolve none b.1

/-- The part of a PUT within one 64-byte granule is performed, and poisoned where bit 63 of AUX was set (16 R545). -/
def State.putPart (s : State) (dev a : Nat) (bs : List Byte) (poi : Bool) (w : Option (BitVec 8)) :
    State × Option (BitVec 8) :=
  let l := s.resolve none a
  match l with
  | .reg _ =>
    ((blocks 8 (bs.length + 1) a bs.length).foldl (fun s b =>
      s.writeRegs (.remote dev) b.1 ((bs.drop (b.1 - a)).take b.2)) s, w)
  | _ =>
    if s.chanReset l then (s.poisonLoc l, worse w (some stReset))
    else
      let s := s.writeBlock l bs
      (if poi then s.poisonLoc (s.resolve none a) else s, w)

/-- The answer to a packet: PACK or READ_DATA, on the flow of answers toward its source with its stripe. -/
def State.answer (s : State) (p : Packet) (op : BitVec 8) (st : BitVec 8) (poi : Bool) (data : List Byte) : State :=
  let aux : Word := BitVec.ofNat 64 (p.fseq.toNat + st.toNat * 2 ^ 32 + b2n poi * 2 ^ 63)
  (s.sendPacket p.srcDev.toNat 1 op p.stripe.toNat data.length p.addr aux data 0 none 0).1

/-- PUT: performed at its target in flow order, once its places take it, and acknowledged; a duplicate is acknowledged
again. -/
def execPut (m : Met Nat) (s : State) : Host.Outcome State Fault Refusal :=
  .next (s.onPacket m.val 0 fun s p dup =>
    let a := fld p.addr 0 44
    match s.remoteStatus a p.len with
    | some st => some (s.answer p 4 st false [])
    | none =>
      if dup then some (s.answer p 4 stOk false [])
      else match s.letIn (s.remotePlaces a p.len) .up m.errs with
        | none => none
        | some s => match s.remoteStatus a p.len with
          | some st => some (s.answer p 4 st false [])
          | none =>
            let (s, w) := (blocks 64 (p.len + 1) a p.len).foldl
              (fun (r : State × Option (BitVec 8)) (x : Nat × Nat) =>
                r.1.putPart p.srcDev.toNat x.1 ((p.data.drop (x.1 - a)).take x.2) (bitAt p.aux 63) r.2) (s, none)
            some (s.answer p 4 (w.getD stOk) false []))

/-- FLAG: the atomic operation at its hawk word (12 R432), once that takes it, acknowledged. -/
def execFlag (m : Met Nat) (s : State) : Host.Outcome State Fault Refusal :=
  .next (s.onPacket m.val 1 fun s p dup =>
    let a := fld p.addr 0 44
    match s.remoteStatus a 8 with
    | some st => some (s.answer p 4 st false [])
    | none =>
      if dup then some (s.answer p 4 stOk false [])
      else match s.letIn (s.remotePlaces a 8) .up m.errs with
        | none => none
        | some s => match s.remoteStatus a 8 with
          | some st => some (s.answer p 4 st false [])
          | none => some ((s.flagAt a (fld p.addr 48 2) p.aux).answer p 4 stOk false []))

/-- The part of a READ within one granule is read: bytes, poison, the worst status. -/
def State.readPart (s : State) (dev a n : Nat) (r : List Byte × Bool × Option (BitVec 8)) :
    State × List Byte × Bool × Option (BitVec 8) :=
  let l := s.resolve none a
  match l with
  | .reg _ => (s, r.1 ++ s.readRegs (.remote dev) a n, r.2.1, r.2.2)
  | _ =>
    if s.chanReset l then (s, r.1 ++ List.replicate n 0, true, worse r.2.2 (some stReset))
    else
      let (s, bs, _) := s.readBlock l n
      (s, r.1 ++ bs, r.2.1 || s.granPoisoned l, r.2.2)

/-- READ: performed at its target, once its places take it, and answered by READ_DATA (R464). An error that fails a core whose
hawk it reads ends it with CORE_DEAD (01 R23). -/
def execRead (port : Nat) (errs : List MemErr) (s : State) : Host.Outcome State Fault Refusal :=
  .next (s.onPacket port 2 fun s p _ =>
    let a := fld p.addr 0 44
    match s.remoteStatus a p.len with
    | some st => some (s.answer p 3 st false [])
    | none => match s.letIn (s.remotePlaces a p.len) .down errs with
      | none => none
      | some s => match s.remoteStatus a p.len with
        | some st => some (s.answer p 3 st false [])
        | none =>
          let (s, bs, poi, w) := (blocks 64 (p.len + 1) a p.len).foldl
            (fun (r : State × List Byte × Bool × Option (BitVec 8)) (x : Nat × Nat) =>
              r.1.readPart p.srcDev.toNat x.1 x.2 r.2) (s, [], false, none)
          match w with
          | some st => some (s.answer p 3 st true [])
          | none => some (s.answer p 3 stOk poi bs))

/-! ### Acknowledgements at their source (R464 R465) -/

/-- READ_DATA: the bytes fill the destination of the read, which is acknowledged; a failed read fills nothing. -/
def execReadData (port : Nat) (s : State) : Host.Outcome State Fault Refusal :=
  .next (s.onPacket port 3 fun s p dup => some <|
    let key := flowKey p.srcDev.toNat 0 p.stripe.toNat
    let n := fld p.aux 0 32
    let st := BitVec.ofNat 8 (fld p.aux 32 8)
    match mapGet? s.tx key with
    | some f => match f.unacked.find? fun u => decide (u.pkt.fseq.toNat = n) && u.pkt.op == 2 with
      | some u =>
        if dup then s
        else
          let s := { s with tx := mapSet s.tx key { f with unacked := f.unacked.filter (· ≠ u) } }
          let k := awaitKey key n
          let unit := u.unit.getD .mover
          let s := if st ≠ stOk then s.fillMissing k u unit (st == stReset)
            else match findEntry (fun e => e.await.contains k) ((s.core u.lc).q unit) with
              | some (i, e) => s.setEntry u.lc unit i { e with
                  buf := putBuf e.buf u.dst (bitAt p.aux 63) false (p.data.take u.pkt.len) }
              | none => s
          (s.endPacket key u (if st = stOk then none else some st) 0).fillStore
      | none => s
    | none => s)

/-- PACK: the write and flag packets of the flow up to the FSEQ it names are acknowledged (R464); the status belongs to
the packet it names. -/
def execPack (port : Nat) (s : State) : Host.Outcome State Fault Refusal :=
  .next (s.onPacket port 4 fun s p dup => some <|
    let key := flowKey p.srcDev.toNat 0 p.stripe.toNat
    let n := fld p.aux 0 32
    let st := BitVec.ofNat 8 (fld p.aux 32 8)
    if dup then s
    else match mapGet? s.tx key with
      | some f =>
        let mine (u : Unacked) : Bool := decide (u.pkt.fseq.toNat ≤ n) && u.pkt.op != 2
        let s := { s with tx := mapSet s.tx key { f with unacked := f.unacked.filter fun u => !mine u } }
        ((f.unacked.filter mine).foldl (fun s u =>
          let bad := decide (u.pkt.fseq.toNat = n) && st != stOk
          s.endPacket key u (if bad then some st else none) (if bad ∨ u.pkt.op ≠ 0 then 0 else u.pkt.len)) s).fillStore
      | none => s)

/-! ### Failover (R472-R474) -/

/-- A port is UP and has not failed a flow. -/
def State.portFor (s : State) (f : TxFlow) (p : Nat) : Bool := decide (s.portState p = 2) && !setHas f.failed p

/-- The next port that a test accepts, after port p in a list that goes round. -/
def nextIn (l : List Nat) (p : Nat) (ok : Nat → Bool) : Option Nat :=
  let i := l.idxOf p
  ((l.drop (i + 1)) ++ l.take i).find? ok

/-- The relay of a flow (R472): the lowest-numbered member whose ports to both ends are UP. Its port to the far end is not
this device's: whether it is UP is a free value (log entry 32). -/
def State.relayFor (s : State) (f : TxFlow) (target : Option Nat) : Option (Nat × Nat) :=
  (List.range (s.rf .klkIdent 24 5)).findSome? fun m =>
    if m = s.devnum % 16 ∨ target = some m ∨ !Config.memberUp s.free f.dst.toNat m then none
    else ((s.memberPorts m).find? (s.portFor f)).map fun p => (m, p)

/-- The port, and the relay, that a flow moves to. -/
def State.newPort (s : State) (f : TxFlow) : Option (Option Nat × Nat) :=
  if s.rf .klkIdent 45 1 = 1 then (nextIn (List.range 16) f.port (s.portFor f)).map fun p => (none, p)
  else
    let dst := f.dst.toNat
    if dst / 16 ≠ s.devnum / 16 then (s.relayFor f none).map fun r => (some r.1, r.2)
    else
      match nextIn (s.memberPorts (dst % 16)) f.port (s.portFor f) with
      | some p => some (none, p)
      | none => (s.relayFor f (some (dst % 16))).map fun r => (some r.1, r.2)

/-- A flow sends every unacknowledged packet again on its port, lowest FSEQ first (R473). -/
def State.resend (s : State) (f : TxFlow) : State :=
  f.unacked.foldl (fun s u => s.transmit f.port f.vc u.pkt) s

/-- FLOW_FAILOVER: a flow leaves a failed port, or one that is UP and has left its oldest packet unacknowledged for 20
us; with no port and no relay left, the failed port is reset (R472-R474). -/
def execFlowFailover (flow : Nat) (s : State) : Host.Outcome State Fault Refusal :=
  match mapGet? s.tx flow with
  | none => .next s
  | some f =>
    if s.portState f.port = 3 ∨ (s.portState f.port = 2 ∧ f.unacked ≠ []) then
      let g := { f with failed := setAdd f.failed f.port }
      match s.newPort g with
      | some (r, p) =>
        let g := { g with port := p, relay := r }
        .next (({ s with tx := mapSet s.tx flow g }.incRf (.klkCounts f.port) 32 16 1).resend g)
      | none => .next ((s.resetPort f.port).endFlow flow)
    else .next s

/-- FLOW_RETURN_HOME: a moved flow with nothing unacknowledged returns to its home port, which is UP again (R473). -/
def execFlowReturnHome (flow : Nat) (s : State) : Host.Outcome State Fault Refusal :=
  match mapGet? s.tx flow with
  | none => .next s
  | some f =>
    let h := s.homePort f.dst.toNat f.stripe
    if f.port ≠ h ∧ s.portState h = 2 ∧ f.unacked = [] then
      .next { s with tx := mapSet s.tx flow { f with port := h, relay := none, failed := [] } }
    else .next s

/-- E2E_TIMEOUT: the oldest instruction of a Mover or Scrim port with a packet unacknowledged for E2E_TMO completes with
DEV_UNREACHABLE (R474 R479). -/
def execE2eTimeout (lc : Nat) (u : UnitId) (s : State) : Host.Outcome State Fault Refusal :=
  match u with
  | .mover | .scrim =>
    match findEntry (fun e => e.begun && e.fin.isNone && e.await.any isAwaitKey) ((s.core lc).q u) with
    | none => .next s
    | some (_, e) =>
      let st : BitVec 8 := if u = .mover then 0x52 else 0x55
      let us := s.tx.flatMap fun (t : Nat × TxFlow) => (t.2.unacked ++ t.2.held).filterMap fun x =>
        if x.lc = lc ∧ x.unit = some u ∧ e.await.contains (awaitKey t.1 x.pkt.fseq.toNat) ∧ s.portState t.2.port = 2
        then some (t.1, x) else none
      if us.isEmpty then .next s
      else
        .next ((us.foldl (fun s (t : Nat × Unacked) =>
          let k := awaitKey t.1 t.2.pkt.fseq.toNat
          (s.fillMissing k t.2 u true).awaited lc u k (some st) 0) s).unitOn lc u)
  | _ => .next s

/-! ### KLK_CTRL (R481) -/

/-- KLK_CTRL_EN: a write of KLK_CTRL. -/
def execKlkCtrlEn (req : Requester) (data : Word) (s : State) : Host.Outcome State Fault Refusal :=
  .next (s.writeReg8 req .klkCtrl data)

/-- KLK_LOCK_SET: firmware sets LOCK after EN and stores KLK_IDENT in module flash; traffic that waited may go. -/
def execKlkLockSet (s : State) : Host.Outcome State Fault Refusal :=
  if s.rf .klkCtrl 0 1 = 1 ∧ s.rf .klkCtrl 16 1 = 0 then
    let s := { s.setRf .klkCtrl 16 1 1 with flash := { s.flash with ident := s.reg .klkIdent } }
    .next ((List.range 16).foldl State.pumpPort s)
  else .next s

end Sys2Proof.Machine
end

