-- ==== Sys2Proof/Machine/Stack.lean ====
section
/-!
DEFINITION. The vertical channels (03 R105-R109 R117-R127): rows that commit, errors in transit, lanes and groups that
fail, widths, probes and retune windows; and the resets of 03 R133-R138.
-/

namespace Sys2Proof.Machine

/-! ### Failures (R109 R124-R127) -/

/-- A rub-down in progress whose range a part leaves ends with PORT_RESET (16 R553): a render channel, or the hawk of a
core. -/
def State.rubLoses (s : State) (chan lc : Option Nat) : State :=
  let lo := s.rubStart
  let hi := lo + 64 * s.rub.total
  let hit : Bool := match s.rub.space, chan, lc with
    | 0, some _, _ => true
    | 1, some c, _ => decide (lo < 2 ^ 39 + (c + 1) * 2 ^ 32) && decide (2 ^ 39 + c * 2 ^ 32 < hi)
    | 4, _, some n => decide (lo < 0x10100000000 + n * 0x400000 + 0x200000) && decide (0x10100000000 + n * 0x400000 < hi)
    | _, _, _ => false
  if hit ∧ s.rf .rubCtrl 40 8 = 1 then s.rubCut (Config.cutErrs s.free) 3 else s

/-- The header of an STC.FWD has PAGED set (09 R306). -/
def pagedFwd (d : Desc) : Bool := bitAt (dword d 0) 23

/-- A started instruction of the core at a site whose rows, none of them Mover rows, have still to cross its channel: of the
vector buffers, of page staging (04 R153 R154); values that leave the Rollers show when they arrive. -/
def UEntry.rowsLeft (e : UEntry) : Bool :=
  e.started && e.fin.isNone && (match e.op with
    | .rlrVld _ => !e.begun
    | .stcDec _ => true
    | .stcFwd _ => pagedFwd (e.ds.headD 0)
    | _ => false)

/-- The started Mover instructions of every core that use a site's channel end with CORE_DEAD (R127); so do the other started
instructions of its core whose rows have still to cross it, which never land (DESIGN CHOICE, log entry 120: R127 names no
status for them). -/
def State.endOnChannel (s : State) (site : Nat) : State :=
  let cut (lc : Nat) (e : UEntry) : UEntry :=
    if s.onChannel site lc e then { e with fin := some ⟨stDead, movSum e.nnz e.poi⟩, begun := true, await := [] } else e
  let rest (own : Bool) (e : UEntry) : UEntry :=
    if own && e.rowsLeft then { e with fin := some ⟨stDead, { }⟩, begun := true, await := [] } else e
  { s with cores := s.cores.map fun (k : Nat × Core) =>
      let own := s.siteOf k.1 == site
      (k.1, { k.2 with
        movQ := k.2.movQ.map (cut k.1), scrQ := k.2.scrQ.map (rest own), stcQ := k.2.stcQ.map (rest own)
        held := if own && k.2.stcQ.any (fun e => e.started && e.rowsLeft) then [] else k.2.held }) }

/-- A site is retired (R127): what its channel was carrying ends, its groups are noted (R128), and the logical core is
marked failed and stopped. -/
def State.retireSite (s : State) (site : Nat) : State :=
  let s := (s.setRf (.vcStatus site .up) 18 1 1).setRf (.vcStatus site .down) 18 1 1
  let s := ((s.vcNote site .up).vcNote site .down).endOnChannel site
  match s.lcAt site with
  | none => s.health
  | some lc => (s.rubLoses none (some lc)).failCore lc

/-- A group is dead: a VC_GROUP entry, a width change that is due, or a retired site where none is left (R118 R124 R125
R127). -/
def State.killGroup (s : State) (site : Nat) (d : VcDir) (g : Nat) : State :=
  if s.groupDead site d g then s
  else if 8 ≤ g then (s.snagIn 4 (locLane site d 8 0)).retireSite site
  else
    let v := s.vc site d
    let s := (s.setRf (.vcGroup site d g) 36 1 1).setVc site d { v with
      widthDue := true, attempt := 0, failed := v.failed.filter fun k => k / 512 != g }
    let s := (s.snagIn 4 (locLane site d g 0)).vcNote site d
    if s.healthy site d = 0 then s.retireSite site else s

/-- A lane is declared failed (R123-R125): it waits for its repair while a spare is left; with none its group is dead
and FAIL2 records it; a third lane of GC retires the site (R109). -/
def State.declareLane (s : State) (site : Nat) (d : VcDir) (g lane : Nat) : State :=
  let v := s.vc site d
  let known := v.failed.contains (laneKey g lane) || s.groupDead site d g
  if known then s
  else
    let s := s.snagIn 3 (locLane site d g lane)
    let v := s.vc site d
    let s := s.setVc site d { v with errs := mapErase v.errs (laneKey g lane) }
    let used := s.sparesUsed site d g + (s.vc site d).waiting g
    if used < 2 then
      let v := s.vc site d
      s.setVc site d { v with failed := setAdd v.failed (laneKey g lane) }
    else
      let s := if g < 8 then
          ((s.setRf (.vcGroup site d g) 24 9 lane).setRf (.vcGroup site d g) 33 1 1).setRf (.vcGroup site d g) 34 1 1
        else s
      s.killGroup site d g

/-- A failed lane is repaired from the spares of its group (R124); once none is left a window is due at once. -/
def State.repairLane (s : State) (site : Nat) (d : VcDir) (g lane : Nat) : State :=
  let v := s.vc site d
  let used := s.sparesUsed site d g
  if !v.failed.contains (laneKey g lane) ∨ 2 ≤ used then s
  else
    let lo := 12 * used
    let s := s.setVc site d { v with
      failed := setDel v.failed (laneKey g lane), gcFails := if g < 8 then v.gcFails else v.gcFails + 1
      gcLanes := if g < 8 then v.gcLanes else v.gcLanes ++ [lane] }
    let s := if g < 8 then
        ((s.setRf (.vcGroup site d g) lo 9 lane).setRf (.vcGroup site d g) (lo + 9) 1 1).setRf
          (.vcGroup site d g) (lo + 10) 1 1
      else s
    let s := s.vcNote site d
    let x := s.site site
    if s.probeless site d g && x.win == .none then s.setSite site { x with win := .due .corrected } else s

/-! ### Rows (R105 R123 R125) -/

/-- The last four rows sent, newest last: the replay buffer (R125). -/
def Vc.sent (v : Vc) (row : Nat) : Vc := { v with replay := (v.replay ++ [row]).drop (v.replay.length - 3) }

/-- VC_ROW_COMMIT: the next row of the MOV.ROW in progress crosses and is committed; the errors that strike it in transit
are corrected and counted by lane, those of its cells are met (R105 R123 R130). -/
def execVcRowCommit (site : Nat) (dir : VcDir) (struck errs : List MemErr) (s : State) :
    Host.Outcome State Fault Refusal :=
  match s.lcAt site with
  | none => .next s
  | some lc =>
    let dn := dir == .down
    match findEntry (fun e => e.started && e.fin.isNone) (s.core lc).movQ with
    | some (i, e) =>
      let mine := match e.op with
        | .movRow b _ => b == dn
        | _ => false
      if mine && e.begun then
        match s.cross site dir struck with
        | none => .next s
        | some t =>
          let v := t.vc site dir
          let t := if v.replay.getLast? = some e.prog then t else t.setVc site dir (v.sent e.prog)
          .next ((t.meet errs).commitRow lc i e dn)
      else .next s
    | none => .next s

/-- The row that a direction of a site's channel has in flight: by its number in its MOV.ROW, 0 of any other transfer. A row of
a scalar access, of an instruction fetch, of the host or of another device leaves no trace in the state before it has
crossed, so that one of any channel that carries rows may be in flight (04 R153 R154, log entry 118). -/
def State.rowInFlight (s : State) (site : Nat) (d : VcDir) : Option Nat :=
  let up := d == .up
  let rows := s.cores.filterMap fun (k : Nat × Core) =>
    (k.2.movQ.find? fun e => s.siteOf k.1 == site && e.started && e.fin.isNone && e.begun && (match e.op with
      | .movRow dn _ => dn != up
      | _ => false)).map fun e => e.prog
  if s.vcRetired site d then none else rows.head? <|> some 0

/-- The lanes of a group that carry a bit of a failing word and have shown a corrected error within the last 1 ms (R103
R107 R125). -/
def State.suspects (s : State) (site : Nat) (d : VcDir) (g : Nat) (words : List Nat) (us : Nat) : List Nat :=
  (List.range (lanesOf g)).filter fun l =>
    (words.any fun w => s.carrier site d (w / 4) == g && (bitOfLane l).1 == w % 4)
      && (s.vc site d).recent (laneKey g l) us

/-- VC_ROW_REPLAY: words of the row in flight are uncorrectable (R125). The first and second time the sender replays the
row, which its replay buffer holds; before the second, the lanes of the failing words that have shown a corrected error are
declared failed and repaired; after two failed replays the group is dead, and the row crosses at the width that remains. -/
def execVcRowReplay (site : Nat) (dir : VcDir) (group attempt : Nat) (f : FailedRow) (s : State) :
    Host.Outcome State Fault Refusal :=
  let v := s.vc site dir
  match s.rowInFlight site dir with
  | none => .next s
  | some row =>
    if s.groupDead site dir group ∨ v.attempt + 1 ≠ attempt
        ∨ ¬ (f.words.any fun w => s.carrier site dir (w / 4) == group) then .next s
    else if attempt = 1 then
      .next ((s.setVc site dir { v.sent row with attempt := 1 }).incRf (.vcCounts site dir) 32 8 1)
    else if v.replay.getLast? ≠ some row then .next s
    else if attempt = 2 then
      let s := (s.setVc site dir { v with attempt := 2 }).incRf (.vcCounts site dir) 32 8 1
      .next ((s.suspects site dir group f.words f.us).foldl (fun s l =>
        (s.declareLane site dir group l).repairLane site dir group l) s)
    else .next ((s.setVc site dir { v with attempt := 0 }).killGroup site dir group)

/-- VC_LANE_FAILED: a lane with 8 corrected errors within 1 ms is declared failed (R123). A lane of GC, whose parity
corrects nothing, is declared failed by its own faults. -/
def execVcLaneFailed (site : Nat) (dir : VcDir) (group lane : Nat) (s : State) : Host.Outcome State Fault Refusal :=
  .next (if s.vcRetired site dir ∨ lanesOf group ≤ lane then s
    else if 8 ≤ group ∨ (s.vc site dir).struck (laneKey group lane) then s.declareLane site dir group lane
    else s)

/-- VC_LANE_REPAIR: a failed lane is repaired between two rows (R124). -/
def execVcLaneRepair (site : Nat) (dir : VcDir) (group lane : Nat) (s : State) : Host.Outcome State Fault Refusal :=
  .next (if s.vcRetired site dir ∨ lanesOf group ≤ lane then s else s.repairLane site dir group lane)

/-- VC_WIDTH_CHANGE: the direction takes the width of its healthy groups (R106 R126). -/
def execVcWidthChange (site : Nat) (dir : VcDir) (s : State) : Host.Outcome State Fault Refusal :=
  let v := s.vc site dir
  if v.widthDue && !s.vcRetired site dir then
    let s := (s.setVc site dir { v with widthDue := false }).setRf (.vcStatus site dir) 16 2 (widthCode (s.healthy site dir))
    .next s.health
  else .next s

/-! ### Probes and windows (R117-R122) -/

/-- A measured eye below 3 steps is handled as a group whose lanes failed in service (R118). -/
def State.measured (s : State) (site : Nat) (d : VcDir) (g eye : Nat) : State :=
  let s := s.noteEye site d g eye
  if eye < 3 then s.killGroup site d g else s

/-- PROBE_MEASUREMENT: the eye is measured; the setting moves one step toward a centre that lies one step or more away
(R117). -/
def execProbeMeasurement (site : Nat) (dir : VcDir) (group eye centre : Nat) (s : State) :
    Host.Outcome State Fault Refusal :=
  if s.groupDead site dir group ∨ s.vcRetired site dir ∨ s.probeless site dir group then .next s
  else
    let v := s.setting site dir group
    let s := if v < centre then s.retune site dir group (v + 1)
      else if centre < v then s.retune site dir group (v - 1) else s
    .next (s.measured site dir group eye)

/-- RETUNE_WINDOW_DUE: a site with a group that has no probe needs a window: INTERVAL milliseconds have passed or its Skim
temperature has moved by TEMP_STEP kelvin since its last window, or a lane of such a group showed a corrected error (R119).
-/
def execRetuneWindowDue (site : Nat) (cause : RetuneCause) (s : State) : Host.Outcome State Fault Refusal :=
  let x := s.site site
  let ok : Bool := match cause with
    | .interval ms => decide (s.rf .vcPolicy 0 16 ≤ ms)
    | .temp k => decide (s.rf .vcPolicy 16 8 ≤ k)
    | .corrected => x.corr
  .next (if ok && s.needsWindow site && x.win == .none then s.setSite site { x with win := .due cause } else s)

/-- The control core waits at a Scrim barrier (R120, 12 R431): issue is held at a TKW on the signal ticket of a started
SCR.BAR. -/
def Core.atBarrier (c : Core) : Bool :=
  match c.stall with
  | .tkw tk _ => c.scrQ.any fun e => e.started && (match e.op with
      | .scrBar f => f.ts == tk
      | _ => false)
  | _ => false

/-- The first moment of R120. -/
def State.windowMayOpen (s : State) (site : Nat) : Bool :=
  match s.lcAt site with
  | none => true
  | some lc =>
    let c := s.core lc
    (c.st == .idle || c.st == .done || c.st == .sleeping || c.atBarrier)
      && !s.cores.any fun (k : Nat × Core) => k.2.movQ.any (s.onChannel site k.1)

/-- A window opens: both directions count it, and what it answers is met (R119 R130). -/
def State.openWindow (s : State) (site : Nat) (w : Window) (forced : Nat) : State :=
  [VcDir.up, VcDir.down].foldl (fun s d =>
    (s.incRf (.vcCounts site d) 40 16 1).incRf (.vcCounts site d) 56 8 forced)
    (s.setSite site { s.site site with win := w, corr := false })

/-- RETUNE_WINDOW_OPEN: a due window opens at the first moment of R120. -/
def execRetuneWindowOpen (site : Nat) (s : State) : Host.Outcome State Fault Refusal :=
  let x := s.site site
  match x.win with
  | .due _ =>
    .next (if s.windowMayOpen site then s.openWindow site .open 0 else s)
  | _ => .next s

/-- RETUNE_WINDOW_END: the groups without a probe take the centres that the window found (R120 R121). -/
def execRetuneWindowEnd (site : Nat) (found : List GroupTune) (s : State) : Host.Outcome State Fault Refusal :=
  let x := s.site site
  if s.siteWindow site then
    .next (found.foldl (fun (s : State) (t : GroupTune) =>
      if t.group < 9 ∧ t.eye ≤ 128 ∧ t.centre < 128 ∧ s.probeless site t.dir t.group then
        (s.retune site t.dir t.group t.centre).measured site t.dir t.group t.eye
      else s) (s.setSite site { x with win := .none }))
  else .next s

/-- RETUNE_WINDOW_FORCED: a window not opened within FORCE_AFTER of falling due is forced (R122). -/
def execRetuneWindowForced (site msDue : Nat) (s : State) : Host.Outcome State Fault Refusal :=
  let x := s.site site
  match x.win with
  | .due _ =>
    .next (if s.rf .vcPolicy 32 8 ≤ msDue then s.openWindow site .forced 1 else s)
  | _ => .next s

/-- LATH_VC_POLICY_LOCK: a write of LATH_VC_POLICY (R131). -/
def execLathVcPolicyLock (req : Requester) (data : Word) (s : State) : Host.Outcome State Fault Refusal :=
  .next (s.writeReg8 req .vcPolicy data)

/-- SCR_CFG_LOCK: a write of SCR_CFG (12 R445). -/
def execScrCfgLock (req : Requester) (data : Word) (s : State) : Host.Outcome State Fault Refusal :=
  .next (s.writeReg8 req .scrCfg data)

/-! ### Resets (R133-R138) -/

/-- A block copy that has still to store through a port that is reset keeps its bytes there back and ends with
PORT_RESET (R134). -/
def State.barCopies (s : State) (code : Nat) (hit : Nat → BlkMove → Bool) : State :=
  let bar (lc : Nat) (e : UEntry) : UEntry :=
    if UOp.isBlk e.op && e.started && e.fin.isNone && decide (e.prog ≤ 1) && hit lc (blkMove (e.ds.headD 0)) then
      { e with barred := setAdd e.barred code, worst := worse e.worst (some stReset) }
    else e
  { s with cores := s.cores.map fun (k : Nat × Core) => (k.1, { k.2 with movQ := k.2.movQ.map (bar k.1) }) }

/-- The places that a copy stores to on the own device, block by block. -/
def State.storeBlocks (s : State) (m : BlkMove) : List Nat :=
  match s.place m.dg m.dst with
  | .here a => (runs m.c1 m.c2 m.ds1 m.ds2).flatMap fun d =>
      (blocks 256 (m.len + 1) ((a : Int) + d).toNat m.len).map fun b => b.1
  | _ => []

/-- FULL_LATH_RESET: by MC command (R133). -/
def execFullLathReset (s : State) : Host.Outcome State Fault Refusal := .next s.fullReset

/-- KERIT_PORT_RESET: by firmware (R133); a copy that has still to store over the port keeps its bytes back. -/
def execKeritPortReset (port : Nat) (s : State) : Host.Outcome State Fault Refusal :=
  if port < 16 then
    let s := s.barCopies (129 + port) fun _ m =>
      match s.place m.dg m.dst with
      | .remote dev a => (runs m.c1 m.c2 m.ds1 m.ds2).any fun d =>
          (stripes ((a : Int) + d).toNat m.len).any fun b => (s.flow dev 0 (stripeOf b.1)).port == port
      | _ => false
    .next (s.resetPort port).voidNonce
  else .next s

/-- KERIT_PORT_RESET_END: training from stored coefficients follows (13 R457); a disabled port is OFF. -/
def execKeritPortResetEnd (port : Nat) (s : State) : Host.Outcome State Fault Refusal :=
  .next (if port < 16 ∧ s.portState port = 4 then
      s.setReg (.klkStatus port) (BitVec.ofNat 64 (s.rf .klkCfg (32 + port) 1))
    else s)

/-- RENDER_CONTROLLER_RESET: transfers that have still to store in the channel end with PORT_RESET there, their granules
poisoned (R134-R136); Roller commands at the channel end (11 R398). -/
def execRenderControllerReset (chan : Nat) (s : State) : Host.Outcome State Fault Refusal :=
  if chan < 128 then
    let s := s.barCopies chan fun lc m => (s.storeBlocks m).any fun a =>
      match s.resolve (some lc) a with
      | .render p none => chanOf p == chan
      | .render p (some _) => chanOf p == chan && s.rcMib == 0
      | _ => false
    .next (((s.resetRollers chan).rubLoses (some chan) none).setRf (.rndCh chan) 0 1 1).voidNonce
  else .next s

/-- RENDER_CONTROLLER_RESET_END: the controller leaves reset, and the write-backs that waited for it proceed (04 R161). -/
def execRenderControllerResetEnd (chan : Nat) (s : State) : Host.Outcome State Fault Refusal :=
  if chan < 128 ∧ s.rf (.rndCh chan) 0 1 = 1 then
    .next (s.setRf (.rndCh chan) 0 1 0).rcDrain
  else .next s

end Sys2Proof.Machine
end

