-- ==== Sys2Proof/Machine/Power.lean ====
section
/-!
DEFINITION. Finishes, power states, the thermal cap, hot spots, thermal cycles and the power limit (17), with the
change of a half's clock point (03 R112 R113) and QUIET Kerit ports (17 R564).
-/

namespace Sys2Proof.Machine

/-- The Skim rail of a finish in millivolts (R561). -/
def railOf (f : Nat) : Nat := if f = 0 then 660 else if f = 1 then 780 else 885

/-! ### Finish changes (R562) -/

/-- FINISH_REQUEST: a write of MC_FINISH by the host or by board management. -/
def execFinishRequest (req : Requester) (data : Word) (s : State) : Host.Outcome State Fault Refusal :=
  .next (s.writeReg8 req .finish data)

/-- A change in progress goes up. -/
def State.upward (s : State) : Bool := decide (s.rf .finish 4 2 < s.power.target)

/-- FINISH_CHANGE_ACCEPT: the MC accepts REQ. An upward change ramps the rails while the idle PLLs lock; one out of
Gloss disarms the Rollers first (R562 R399). -/
def execFinishChangeAccept (s : State) : Host.Outcome State Fault Refusal :=
  if s.power.reqWaits && decide (s.rf .finish 8 1 = 0) && s.ready then
    let cur := s.rf .finish 4 2
    let t := s.rf .finish 0 2
    let s := { s with power := { s.power with reqWaits := false } }
    if t = cur then .next s
    else
      let s := s.setRf .finish 8 1 1
      let s := { s with
        power := { s.power with step := if cur < t then .ramp else .lock, target := t }
        west := { s.west with pll := some t, locked := false }
        east := { s.east with pll := some t, locked := false } }
      if cur = 2 then .next { s.setRf .rlrState 0 1 0 with disarming := List.range 8 } else .next s
  else .next s

/-- A half's clock stops for its change of point, which POINT shows (R112 R132). -/
def State.stopHalf (s : State) (h : Half) : State :=
  ((s.setHalf h { s.half h with stopped := true }).setRf (clkReg h) 2 1 1).setRf (clkReg h) 0 2 3

/-- Both PLLs have locked and the rail allows it: the west half changes its point. -/
def State.startWest (s : State) : State :=
  if s.power.step = .lock && s.west.locked && s.east.locked then
    { s.stopHalf .west with power := { s.power with step := .west } }
  else s

/-- The change is complete: CUR shows the new finish, BUSY clears; Gloss arms the Rollers. -/
def State.finishDone (s : State) : State :=
  let t := s.power.target
  let s := { (s.setRf .finish 4 2 t).setRf .finish 8 1 0 with power := { s.power with step := .none } }
  if t = 2 then s.setRf .rlrState 0 1 1 else s

/-- PLL_LOCK_COMPLETE: the idle PLL of a half has locked to the new point (R112 step 1); a change out of Gloss waits for
the Rollers. -/
def execPllLockComplete (half : Half) (s : State) : Host.Outcome State Fault Refusal :=
  let h := s.half half
  if h.pll.isSome && !h.locked && (s.upward || s.disarming.isEmpty) then
    .next (s.setHalf half { h with locked := true }).startWest
  else .next s

/-- RAIL_RAMP_COMPLETE: the Skim rails have reached the voltage of the new finish; a downward change is then done. -/
def execRailRampComplete (s : State) : Host.Outcome State Fault Refusal :=
  match s.power.step with
  | .ramp => .next { s with power := { s.power with step := .lock, rail := railOf s.power.target } }.startWest
  | .rampDown => .next { s with power := { s.power with rail := railOf s.power.target } }.finishDone
  | _ => .next s

/-- HALF_CLOCK_RESUME: the stopped half's clock resumes from the locked PLL with the settings of the new point loaded
(R112 steps 3 and 4); the east half follows the west one. -/
def execHalfClockResume (half : Half) (s : State) : Host.Outcome State Fault Refusal :=
  let h := s.half half
  match h.pll with
  | none => .next s
  | some p =>
    if !h.stopped then .next s
    else
      let r := clkReg half
      let s := s.takePoint half p
      let s := s.setHalf half { s.half half with pll := none, locked := false, stopped := false }
      let s := ((if s.halfOff half then s else s.setRf r 0 2 p).setRf r 2 1 0).incRf r 32 32 1
      let s := if h.routers then s.routersRun half else s
      match half with
      | .west => .next { s.stopHalf .east with power := { s.power with step := .east } }
      | .east =>
        if s.upward then .next s.finishDone
        else .next { s with power := { s.power with step := .rampDown } }

/-! ### QUIET (R564) -/

/-- QUIET_ENTRY: a full-width port without a DATA frame for the finish's time turns lanes 4-7 off; never in Gloss. -/
def execQuietEntry (port : Nat) (s : State) : Host.Outcome State Fault Refusal :=
  let x := s.port port
  .next (if port < 16 ∧ s.portState port = 2 ∧ s.rf (.klkStatus port) 16 8 = 0xFF ∧ s.rf .finish 4 2 ≠ 2
      ∧ x.sendQ = [] ∧ x.replay = [] ∧ !x.quiet then s.setPort port { x with quiet := true }
    else s)

/-- QUIET_EXIT: the first DATA frame queued for a QUIET port starts lanes 4-7. -/
def execQuietExit (port : Nat) (s : State) : Host.Outcome State Fault Refusal :=
  let x := s.port port
  .next (if port < 16 ∧ x.quiet ∧ !x.waking ∧ (x.sendQ ≠ [] ∨ x.replay ≠ []) then
      s.setPort port { x with waking := true }
    else s)

/-- FULL_WIDTH_RESUME: lanes 4-7 run again. -/
def execFullWidthResume (port : Nat) (s : State) : Host.Outcome State Fault Refusal :=
  let x := s.port port
  .next (if x.quiet && x.waking then s.setPort port { x with quiet := false, waking := false } else s)

/-! ### Power states (R565-R573) -/

/-- The wake tolerance of a core (R565): the WAKE_US of the RUNNING launch that names it, else PCI_WAKE. -/
def State.coreTol (s : State) (lc : Nat) : Nat :=
  match s.runningLaunches.find? fun d => ((s.launchSet d).getD []).contains lc with
  | some d => if wakeUs d = 0 then s.rf .pciWake 0 32 else wakeUs d
  | none => s.rf .pciWake 0 32

/-- The logical cores of a half. -/
def State.coresOf (s : State) (h : Half) : List Nat :=
  (List.range 144).filter fun n => s.valid n && decide (halfOf (s.siteOf n) = h)

/-- Floor hold keeps every core from states deeper than clock-gated (R585). -/
def State.flooring (s : State) : Bool := decide (s.rf .power 32 1 = 1)

/-- What is lost when a half goes off (R566 R569): the state of its cores and their hawks. -/
def State.loseHalf (s : State) (h : Half) : State :=
  let gone (i : Nat) : Bool := decide (halfOf i = h)
  let hawkGone (k : Nat) : Bool := decide (2 ^ 45 ≤ k) && decide (k < 2 ^ 46) && gone ((k - 2 ^ 45) / 2 ^ 21)
  { s with
    cores := s.cores.filter fun (e : Nat × Core) => !(s.valid e.1 && gone (s.siteOf e.1))
    mem := s.mem.filter fun (e : Nat × Byte) => !hawkGone e.1
    poison := s.poison.filter fun m => !hawkGone (8 * m)
    power := { s.power with pgated := s.power.pgated.filter fun n => !gone (s.siteOf n) } }

/-- Every dirty render-cache line is written back (R572); lines whose controller is in reset wait. -/
def State.flushCache (s : State) : State :=
  let ls := s.rc.flatMap fun (x : Nat × List RcLine) => x.2.filter (·.dirty)
  let s := { s with rc := s.rc.map fun (x : Nat × List RcLine) => (x.1, x.2.map fun (l : RcLine) => { l with dirty := false }) }
  ls.foldl State.rcEvict s

/-- Module asleep (R566): hod contents, Kerit links and everything of the Skim are lost; render cells, flash, MC state
(with the peers recorded at start and the coefficients reported to the MC, 13 R454-R456) and the logical map stay. FSEQ goes on,
since a flow's packets are numbered in an epoch, that of a start (13 R460; log entry 50); stacks that the write-back roused are
in self-refresh again (R572). -/
def State.asleep (s : State) : State :=
  let s := s.endScopes
  let s := (List.range 16).foldl (fun s p => s.setReg (.klkStatus p) 0) s
  { s.setRf .pwrState 12 1 1 with
    mem := s.mem.filter fun (e : Nat × Byte) => decide (e.1 < 2 ^ 45)
    poison := s.poison.filter fun m => decide (m < 2 ^ 42)
    ports := s.ports.map fun (e : Nat × Port) =>
      (e.1, { Port.zero with peer := e.2.peer, coef := e.2.coef, coefPeer := e.2.coefPeer })
    tx := s.tx.map fun (e : Nat × TxFlow) => (e.1, { e.2 with
      port := s.homePort e.2.dst.toNat e.2.stripe, relay := none, unacked := [], held := [], failed := [] })
    power := { s.power with awake := [] }
    cores := [], rc := [], rollers := [], seqs := [], colls := [], deferred := [] }

/-- POWER_STATE_ENTRY: after its dwell a part enters a state whose conditions hold (R566). On entry to module asleep every
scope ends, and a grant of SCAN with a full Lath reset (18 R606). -/
def execPowerStateEntry (scope : PowerScope) (s : State) : Host.Outcome State Fault Refusal :=
  match scope with
  | .coreClock _ => .next s
  | .core lc =>
    let c := s.core lc
    .next (if s.valid lc ∧ (c.st = .sleeping ∨ c.st = .idle ∨ c.st = .done) ∧ c.drained ∧ 3 ≤ s.coreTol lc
        ∧ !s.flooring ∧ !s.halfOff (halfOf (s.siteOf lc)) then
        { s with power := { s.power with pgated := setAdd s.power.pgated lc } }
      else s)
  | .half h =>
    let cs := s.coresOf h
    .next (if !s.halfOff h ∧ 60 ≤ s.tolerance ∧ !s.flooring ∧ !(s.half h).stopped
        ∧ cs.all (fun n => ((s.core n).st == .idle || (s.core n).st == .done) && (s.core n).drained && !s.launchNames n)
      then
        let s := s.loseHalf h
        ((s.setRf .pwrState (offBit h) 1 1).setRf (clkReg h) 0 2 3).setHalf h { s.half h with routers := false }
      else s)
  | .hod =>
    .next (if s.halfOff .west ∧ s.halfOff .east ∧ 2000 ≤ s.tolerance then
        { s.setRf .pwrState 10 1 1 with power := { s.power with awake := s.power.awake.filter fun n => decide (168 ≤ n) } }
      else s)
  | .render =>
    .next (if s.rf .pwrState 10 1 = 1 ∧ 8000 ≤ s.tolerance then
        { (s.setRf .pwrState 11 1 1).setRf .rlrState 16 8 0xFF with
          rows := [], power := { s.power with awake := s.power.awake.filter fun n => decide (n < 168) } }
      else s)
  | .module =>
    if s.rf .pwrState 11 1 = 1 ∧ s.rf .pwrState 12 1 = 0 ∧ s.power.d3 ∧ 250000 ≤ s.tolerance then
      let s := s.flushCache
      .next (if s.rcDirty then s else if bitAt (BitVec.ofNat 3 s.sec.scopes) 2 then s.relock else s.asleep)
    else .next s

/-- POWER_STATE_WAKE: a part wakes (R567 R573); a waking half takes the hod out of retention, since the Skim is then no
longer off. The module wakes by D0_RETURN. -/
def execPowerStateWake (scope : PowerScope) (s : State) : Host.Outcome State Fault Refusal :=
  match scope with
  | .coreClock _ => .next s
  | .core lc => .next { s with power := { s.power with pgated := setDel s.power.pgated lc } }
  | .half h => .next (s.wakeHalf h)
  | .hod =>
    .next (if s.rf .pwrState 10 1 = 1 ∧ s.rf .pwrState 12 1 = 0 then (s.setRf .pwrState 10 1 0).wakeRender else s)
  | .render => .next (if s.rf .pwrState 11 1 = 1 ∧ s.rf .pwrState 12 1 = 0 then s.wakeRender else s)
  | .module => .next s

/-! ### The thermal cap (R574-R577) -/

/-- A quotient whose rounding the spec does not give: down, or up where Config says so. -/
def looseDiv (a b : Nat) : Nat := a / b + (if a % b ≠ 0 ∧ Config.roundUp a b then 1 else 0)

/-- The inlet temperature that the MC uses: a reading outside 0-80 is invalid and 45 is taken (R574). -/
def inletOf (t : Int) : Nat := if 0 ≤ t ∧ t ≤ 80 then t.toNat else 45

/-- The resistance in force in units of 10^-6 K/W, times 10 (R576). -/
def State.resist10 (s : State) : Nat :=
  if s.rf .therm 48 10 < 600 then s.flash.rf.toNat * 12 else s.rf .therm 0 16 * 10

/-- The cap of R577 in watts, to the nearest watt, before its bounds. -/
def State.rawCap (s : State) : Nat :=
  let tin := s.rf .therm 40 8
  let k : Nat := 105 - tin - s.rf .pwrPolicy 44 4
  let r := s.resist10
  if r = 0 then 65535 else (2 * k * 10000000 + r) / (2 * r)

/-- The MC recomputes the thermal cap (R577); a cut for stuck hot spots ends once no site is stuck (R580). -/
def State.recap (s : State) : State :=
  let cut := if s.sites.any fun (e : Nat × Site) => e.2.stuck then s.power.cut else 0
  let c := min s.rawCap s.finishCap - cut
  let s := { s with power := { s.power with cut := cut } }
  ((s.setRf .therm 16 16 (max c 600)).setRf .therm 61 1 (b2n (decide (c < 600)))).setRf .therm 63 1
    (b2n (decide (s.rf .therm 48 10 < 600)))

/-- The hottest-junction temperature: the highest of the readings of all sensors (03 R101). -/
def hottest (temps : List Int) : Int := temps.foldl max (temps.headD 0)

/-- THERMAL_SAMPLE: the means of the past second, those of the 168 Skim sensors and the 168 Lath sensors among them, give a
sample; a valid one updates est, which begins at Rf (R575-R577, 03 R101). -/
def execThermalSample (temps : List Int) (tin : Int) (p : Nat) (s : State) : Host.Outcome State Fault Refusal :=
  let tj := hottest temps
  let ti := inletOf tin
  let last := s.power.lastP
  let diff := if p ≤ last then last - p else p - last
  let n := s.rf .therm 48 10
  let est := if n = 0 then s.flash.rf.toNat else s.rf .therm 0 16
  let ok := decide (500 ≤ p) && decide (diff * 100 ≤ 5 * last)
  let s := (s.setRf .therm 40 8 ti).setRf .therm 32 8 (max 0 (min 255 tj)).toNat
  let s := { s with power := { s.power with lastP := p, lastTin := ti, temps := temps } }
  let num : Int := 63 * est * p + (tj - ti) * 1000000
  let s := if ok then
      (s.setRf .therm 0 16 (min 65535 (looseDiv num.toNat (64 * p)))).setRf .therm 48 10 (min 1023 (n + 1))
    else s
  .next s.recap

/-- INLET_TEMPERATURE_CHANGE: a change of Tin by 1 K recomputes the cap at once (R577). -/
def execInletTemperatureChange (tin : Int) (s : State) : Host.Outcome State Fault Refusal :=
  let t := inletOf tin
  if (t : Int) = s.power.lastTin then .next s
  else .next ({ s.setRf .therm 40 8 t with power := { s.power with lastTin := t } }.recap)

/-- THERMAL_ESTIMATE_STORE: each hour est and its count go to module flash (R575). -/
def execThermalEstimateStore (s : State) : Host.Outcome State Fault Refusal :=
  .next { s with flash := { s.flash with est := BitVec.ofNat 64 (s.rf .therm 0 16), valid := s.rf .therm 48 10 } }

/-- THERMAL_TRIP: a reading of 110 C causes a full Lath reset, and the next start is COLD (R579). -/
def execThermalTrip (temp : Int) (s : State) : Host.Outcome State Fault Refusal :=
  .next (if 110 ≤ temp then s.coldReset else s)

/-! ### Hot spots (R580) -/

/-- A reading below 104 C ends the lowering of the cap for a site. -/
def Site.cooled (x : Site) (temp : Int) : Site := if temp < 104 then { x with stuck := false } else x

/-- HOT_SPOT_FALL: at 104 C or more a site's ratio falls by 1/16, down to 4/16. -/
def execHotSpotFall (site : Nat) (temp : Int) (s : State) : Host.Outcome State Fault Refusal :=
  let x := (s.site site).cooled temp
  .next (if site < 168 then
      s.setSite site (if 104 ≤ temp ∧ 4 < x.ratio then { x with ratio := x.ratio - 1 } else x)
    else s)

/-- HOT_SPOT_RISE: at 102 C or less the ratio rises by 1/16, up to 16/16. -/
def execHotSpotRise (site : Nat) (temp : Int) (s : State) : Host.Outcome State Fault Refusal :=
  let x := (s.site site).cooled temp
  .next (if site < 168 then
      s.setSite site (if temp ≤ 102 ∧ x.ratio < 16 then { x with ratio := x.ratio + 1 } else x)
    else s)

/-- HOT_SPOT_CAP_STEP: a site at 4/16 that still reads 105 C or more lowers the thermal cap by 50 W, and again until it
reads below 104 C. -/
def execHotSpotCapStep (site : Nat) (temp : Int) (s : State) : Host.Outcome State Fault Refusal :=
  let x := (s.site site).cooled temp
  if site < 168 then
    if x.ratio = 4 ∧ (105 ≤ temp ∨ (x.stuck ∧ 104 ≤ temp)) then
      let cap := s.rf .therm 16 16
      let s := { s.setSite site { x with stuck := true } with power := { s.power with cut := s.power.cut + 50 } }
      .next ((s.setRf .therm 16 16 (max 600 (cap - 50))).setRf .therm 61 1 (b2n (decide (cap - 50 < 600))))
    else .next (s.setSite site x)
  else .next s

/-! ### Thermal cycles and life (R581 R582) -/

/-- The range bin of a half-cycle, if it is counted. -/
def rangeBin (k : Nat) : Option Nat :=
  if k < 5 then none else if k < 10 then some 0 else if 70 < k then some 7 else some (min 6 (k / 10))

/-- A half-cycle of a range, counted n times. -/
def State.countSwing (s : State) (k n : Nat) : State :=
  match rangeBin k with
  | some b => s.incRf (.tcyc b) 0 32 n
  | none => s

/-- The reduction of rainflow counting over turning points, newest first (ASTM E1049): the range before the last one is
counted once the last one is no smaller, as a half-cycle when it holds the series' first point, else as two. -/
def rainflow : Nat → List Int → State → List Int × State
  | 0, l, s => (l, s)
  | fuel + 1, x :: y :: z :: r, s =>
    let a := (x - y).natAbs
    let b := (y - z).natAbs
    if a < b then (x :: y :: z :: r, s)
    else match r with
      | [] => rainflow fuel [x, y] (s.countSwing b 1)
      | _ => rainflow fuel (x :: r) (s.countSwing b 2)
  | _ + 1, l, s => (l, s)

/-- RAINFLOW_SAMPLE: the hottest Skim sensor is sampled; a reversal makes the point before it a turning point. -/
def execRainflowSample (temp : Int) (s : State) : Host.Outcome State Fault Refusal :=
  let put (l : List Int) (s : State) : State := { s with power := { s.power with turns := l } }
  match s.power.turns with
  | [] => .next (put [temp] s)
  | [a] => .next (if temp = a then s else put [temp, a] s)
  | b :: a :: r =>
    if temp = b then .next s
    else if (a < b) = (b < temp) then .next (put (temp :: a :: r) s)
    else
      let (l, s) := rainflow (r.length + 3) (b :: a :: r) s
      .next (put (temp :: l) s)

/-- The life consumed in parts per million (R582). -/
def State.lifePpm (s : State) : State :=
  let cnt (k : Nat) : Nat := s.rf (.tcyc k) 0 32
  let nf (k : Nat) : Nat := s.rf (.tcyc k) 32 32
  let ks := (List.range 8).filter fun k => decide (nf k ≠ 0)
  let (num, den) := ks.foldl (fun (r : Nat × Nat) k => (r.1 * nf k + 500 * cnt k * r.2, r.2 * nf k)) (0, 1)
  s.setRf .life 0 32 (min (2 ^ 32 - 1) (looseDiv num den))

/-- LIFE_RECOMPUTE: each hour the life consumed is computed, and the counts go to module flash (R581 R582). -/
def execLifeRecompute (s : State) : Host.Outcome State Fault Refusal :=
  let s := s.lifePpm
  .next { s with flash := { s.flash with
    tcyc := (List.range 8).foldl (fun m k => mapSet m k (s.rf (.tcyc k) 0 32)) s.flash.tcyc } }

/-! ### The power limit (R574 R578 R583-R587) -/

/-- Joules that a sum of microjoules adds to a register; the rest is kept. -/
def State.addJoules (s : State) (r : Reg) (uj : Nat) : State × Nat :=
  (s.setReg r (s.reg r + BitVec.ofNat 64 (uj / 1000000)), uj % 1000000)

/-- POWER_SAMPLE: each 10 us power and energy are measured, floor hold begins where power would fall below FLOOR, and
the device ratio is set: 1/64 under BRAKE_N, else what holds the limit, a free value (R574 R578 R584-R587). Voltages come in
millivolts (20 R647). -/
def execPowerSample (p v48 vaux uj fillUj : Nat) (s : State) : Host.Outcome State Fault Refusal :=
  let s := (s.setRf .power 0 16 (min p 65535)).setRf .supply 32 16 (min ((v48 + 5) / 10) 65535)
  let s := s.setRf .supply 16 16 (min vaux 65535)
  let (s, u) := s.addJoules .energy (s.power.uj + uj)
  let (s, f) := s.addJoules .filler (s.power.fillUj + fillUj)
  let floor := s.rf .pwrPolicy 16 16
  let done := s.power.floorDone && decide (p ≤ floor)
  let hold := decide (floor ≠ 0) && decide (p ≤ floor) && !done && !s.pins.brake
  let gov := decide (s.rf .pwrPolicy 0 16 ≠ 0) && !s.pins.brake && decide (Config.elapsed (s.free + 1) % 2 = 1)
  let k := if s.pins.brake then 1 else Config.ratio s.free % 64 + 1
  let s := (s.setRf .power 32 1 (b2n hold)).setRf .power 33 1 (b2n gov)
  .next { s with
    free := s.free + 2
    power := { s.power with uj := u, fillUj := f, floorDone := done, ratio := k } }

/-- FLOOR_HOLD_EXPIRY: floor hold ends after FLOOR_MS and restarts only after power has risen above FLOOR (R585). -/
def execFloorHoldExpiry (s : State) : Host.Outcome State Fault Refusal :=
  if s.flooring then
    .next { s.setRf .power 32 1 0 with power := { s.power with floorDone := true } }
  else .next s

/-- BRAKE_N_ASSERT: the ratio falls to 1/64, filler and a floor hold stop (the hold restarts only after power has risen above
FLOOR, R585), each Roller ends its pass, keeping its place, and a refresh that
waited for it is performed (R586, 11 R389-R391). -/
def execBrakeNAssert (s : State) : Host.Outcome State Fault Refusal :=
  let held := s.flooring
  let s := s.setRf .power 32 1 0
  .next (State.rcDrain <| (List.range 128).foldl State.gapRefresh { s with
    pins := { s.pins with brake := true }
    power := { s.power with ratio := 1, floorDone := s.power.floorDone || held }
    rollers := s.rollers.map fun (e : Nat × Roller) => (e.1, { e.2 with pass := false }) })

/-- BRAKE_N_DEASSERT: power rises at the governor's rate, and the Rollers that are on a walk begin their next pass. -/
def execBrakeNDeassert (s : State) : Host.Outcome State Fault Refusal :=
  .next ((List.range 128).foldl State.gapEnd { s with pins := { s.pins with brake := false } })

end Sys2Proof.Machine
end

