-- ==== Sys2Proof/Machine/HostIf.lean ====
section
/-!
DEFINITION. The host's side of the PCI Express function (14): configuration, BAR reads and writes, launch slots, MSI-X,
reads of host memory, resets of the function, D3hot and the return from it (17 R571).
-/

namespace Sys2Proof.Machine

/-! ### Places behind the BARs (R487) -/

/-- What an offset of a BAR reaches. -/
inductive BarPlace
  | loc (a : Nat) | slots (o : Nat) | vectors (o : Nat) | pending (o : Nat) | nothing
  deriving DecidableEq, Repr

/-- The size field of the Resizable BAR control register: 2^n MiB. With no value written BAR2 has 1 GiB (log entry 26). -/
def State.bar2Size (s : State) : Nat :=
  2 ^ (20 + max 10 (min 19 ((mapGet s.cfg (Config.rebarOff + 9) 10).toNat % 64)))

/-- BAR2 and BAR4 are open once READY is 1 and the module is not asleep (15 R513, 17 R571). -/
def State.barsOpen (s : State) : Bool := s.ready && decide (s.rf .pwrState 12 1 = 0)

/-- The place of a BAR offset; in RECOVERY BAR0 reaches no launch slot and neither MSI-X table (18 R598), and of the registers
those that their own filter leaves. -/
def State.barPlace (s : State) (bar off : Nat) : BarPlace :=
  if bar = 0 then
    if off < 0x2000000 then .loc (lathBase + off)
    else if off < 0x3200000 then
      .loc (coreBase + (off - 0x2000000) / 0x20000 * 0x100000 + (off - 0x2000000) % 0x20000)
    else if s.sec.recovery then .nothing
    else if 0x3800000 ≤ off ∧ off < 0x3802000 then .slots (off - 0x3800000)
    else if 0x3A00000 ≤ off ∧ off < 0x3A00400 then .vectors (off - 0x3A00000)
    else if 0x3A01000 ≤ off ∧ off < 0x3A01008 then .pending (off - 0x3A01000)
    else .nothing
  else if !s.barsOpen then .nothing
  else if bar = 2 then
    let n := s.bar2Size
    if off < n then .loc (s.rf .pciBar2 0 39 / n * n + off) else .nothing
  else if bar = 4 then
    if off < 2 ^ 31 then .loc (0x10000000000 + off)
    else if off < 2 ^ 32 then .loc (0x10100000000 + (off - 2 ^ 31)) else .nothing
  else .nothing

/-- TLPs received (code 1) and sent (code 2) by the function (19 R623). -/
def State.tlp (s : State) (code : Nat) : State := s.lathEvent 312 code 1

/-! ### MSI-X (R501) -/

/-- The 16 bytes of a table entry. -/
def Msix.bytes (m : Msix) : List Byte :=
  leBytes 8 m.addr.toNat ++ leBytes 4 m.data.toNat ++ leBytes 4 (b2n m.masked)

/-- A vector is unmasked: its pending message is sent. -/
def State.unmask (s : State) (v : Nat) : State :=
  let m := mapGet s.msix v Msix.zero
  let s := { s with msix := mapSet s.msix v { m with masked := false, pend := false } }
  if m.pend then s.sendMsi v m else s

/-- A write of bytes of the table. -/
def State.writeVectors (s : State) (o : Nat) (bs : List Byte) : State :=
  (List.range 64).foldl (fun s v =>
    if o < 16 * v + 16 ∧ 16 * v < o + bs.length then
      let m := mapGet s.msix v Msix.zero
      let b := (List.range 16).map fun j =>
        if o ≤ 16 * v + j ∧ 16 * v + j < o + bs.length then bs.getD (16 * v + j - o) 0 else m.bytes.getD j 0
      let n (i l : Nat) : Nat := leNat ((b.drop i).take l)
      let s := { s with msix := mapSet s.msix v { m with
        addr := BitVec.ofNat 64 (n 0 8), data := BitVec.ofNat 32 (n 8 4), masked := n 12 4 % 2 == 1 } }
      if m.masked && n 12 4 % 2 == 0 then s.unmask v else s
    else s) s

/-- MSIX_VECTOR_UNMASK: the host clears a vector's mask, in the table that BAR0 reaches. -/
def execMsixVectorUnmask (vec : Nat) (s : State) : Host.Outcome State Fault Refusal :=
  .next (if vec < 64 ∧ !s.sec.recovery then s.unmask vec else s)

/-! ### Launch slots (R494-R500) -/

/-- The 256 bytes a slot holds. -/
def Slot.image (x : Slot) : List Byte := (List.range 256).map fun i => mapGet x.bytes i 0

/-- CHK of a descriptor (R494). -/
def chkOf (d : List Byte) : BitVec 32 :=
  ~~~((List.range 63).foldl (fun c i => c ^^^ BitVec.ofNat 32 (leNat ((d.drop (4 * i)).take 4))) 0#32)

/-- A field of a descriptor. -/
def descNat (d : List Byte) (o l : Nat) : Nat := leNat ((d.drop o).take l)

/-- The status that keeps a launch from starting (R498): a bad set, or a core that failed in service. -/
def State.launchBad (s : State) (d : List Byte) : Option Nat :=
  match s.launchSet d with
  | none => some 3
  | some ns => if ns.any s.failed then some 2 else none

/-- The completion record (R500) in its two writes, then the message of VEC when IRQ is 1. -/
def State.record (s : State) (i : Nat) (d : List Byte) (status nfault : Nat) (exit : Word) (first cause : Nat) : State :=
  let a := descNat d 48 8
  let s := s.send (.hostWrite a (leBytes 4 status ++ leBytes 4 nfault ++ leBytes 8 exit.toNat ++ leBytes 4 first
    ++ leBytes 4 cause) false)
  let s := (s.send (.hostWrite (a + 24) ((d.drop 248).take 4 ++ leBytes 4 i) false)).lathEvent 312 2 2
  if descNat d 57 1 % 2 = 1 then s.msi (descNat d 56 1 % 64) else s

/-- A launch that was not started completes at once (R498). -/
def State.recordBad (s : State) (i : Nat) (d : List Byte) (status : Nat) : State := s.record i d status 0 0 0xFFFFFFFF 0

/-- The slot's conditions are evaluated (R495): a complete descriptor with a wrong SEQ or CHK counts an error; a current
one fires while STATE is IDLE and READY is 1 (R496 R498, 15 R513). -/
def State.evalSlot (s : State) (i : Nat) : State :=
  let x := s.slotOf i
  let d := x.image
  if x.written.length < 256 then s
  else if ¬ (descNat d 248 4 = s.rf (.pciSlot i) 0 32 ∧ descNat d 252 4 = (chkOf d).toNat) then
    s.incRf (.pciSlot i) 56 8 1
  else if s.rf (.pciSlot i) 32 2 ≠ 0 ∨ !s.barsOpen then s
  else
    let e := (descNat d 248 4 + 1) % 2 ^ 32
    let s := (s.setRf (.pciSlot i) 0 32 (if e = 0 then 1 else e)).lathEvent 312 3 1
    let x := { x with written := [], entered := [], ended := [], order := s.fires + 1 }
    let s := { s with fires := s.fires + 1 }
    match s.launchBad d with
    | some st => { s with slots := mapSet s.slots i x }.recordBad i d st
    | none => { s with slots := mapSet s.slots i { x with launch := some d } }.setRf (.pciSlot i) 32 2 1

/-- A slot's STATE returns to IDLE, and its conditions are evaluated. -/
def State.freeSlot (s : State) (i : Nat) : State :=
  ({ s with slots := mapSet s.slots i { s.slotOf i with launch := none, entered := [], ended := [] } }.setRf
    (.pciSlot i) 32 2 0).evalSlot i

/-- Bytes written to a launch slot are recorded (R495). -/
def State.recordSlot (s : State) (i off : Nat) (bytes : List (Option Byte)) : State :=
  let x := s.slotOf i
  let y := (List.range bytes.length).foldl (fun (x : Slot) (j : Nat) =>
    match bytes.getD j none with
    | some b =>
      if off + j < 256 then
        { x with bytes := mapSet x.bytes (off + j) b, written := setAdd x.written (off + j) }
      else x
    | none => x) x
  { s with slots := mapSet s.slots i y }

/-- A host write to a launch slot: its bytes are recorded, then the conditions evaluated (R495). -/
def State.writeSlot (s : State) (i off : Nat) (bytes : List (Option Byte)) : State :=
  (s.recordSlot i off bytes).evalSlot i

/-- LAUNCH_SLOT_WRITE; in RECOVERY no slot is reached (18 R598). -/
def execLaunchSlotWrite (slot off : Nat) (bytes : List (Option Byte)) (s : State) : Host.Outcome State Fault Refusal :=
  .next (if slot < 32 then (if s.sec.recovery then s.tlp 1 else (s.tlp 1).writeSlot slot off bytes) else s)

/-- A core that a launch may take (R498): IDLE, DONE or FAULTED, with no RUNNING launch that it has yet to enter. -/
def State.coreFree (s : State) (n : Nat) : Bool := (s.core n).free && (s.launchOf n).isNone

/-- How a core has ended the launch that it ran last. -/
def State.coreEnd (s : State) (n : Nat) : CoreEnd :=
  ⟨(s.core n).st == .faulted, (s.core n).exit.getD 0, (s.core n).excCause.toNat % 2 ^ 32⟩

/-- A launch starts on cores: a started launch that they ran before keeps how they ended it. -/
def State.keepEnds (s : State) (ns : List Nat) (x : Slot) : Slot :=
  { x with ended := ns.foldl (fun (m : FMap CoreEnd) (n : Nat) =>
      if setHas x.entered n ∧ (mapGet? m n).isNone then mapSet m n (s.coreEnd n) else m) x.ended }

/-- An earlier launch that has not started names one of the cores. -/
def State.earlierQueued (s : State) (i : Nat) (ns : List Nat) : Bool :=
  (List.range 32).any fun j => decide (s.rf (.pciSlot j) 32 2 = 1) && decide ((s.slotOf j).order < (s.slotOf i).order)
    && (match (s.slotOf j).launch with
      | some e => ((s.launchSet e).getD []).any ns.contains
      | none => false)

/-- A core is awake: its half is on, and it is not power-gated (17 R566). -/
def State.awakeCore (s : State) (n : Nat) : Bool :=
  !s.halfOff (halfOf (s.siteOf n)) && decide (s.rf .pwrState 12 1 = 0) && !setHas s.power.pgated n

/-- LAUNCH_START: a QUEUED launch starts once its cores are free and awake (17 R573), and no earlier one waits for any of
them; its set is checked again first (R498). -/
def execLaunchStart (slot : Nat) (s : State) : Host.Outcome State Fault Refusal :=
  match (s.slotOf slot).launch with
  | none => .next s
  | some d =>
    if slot < 32 ∧ s.rf (.pciSlot slot) 32 2 = 1 then
      match s.launchSet d with
      | none => .next ((s.recordBad slot d 3).freeSlot slot)
      | some ns =>
        if ns.all s.coreFree && !s.earlierQueued slot ns then
          if ns.any s.failed then .next ((s.recordBad slot d 2).freeSlot slot)
          else if !ns.all s.awakeCore then .next s
          else
            let x := s.slotOf slot
            let s := { s with
              slots := mapSet (s.slots.map fun (y : Nat × Slot) => (y.1, s.keepEnds ns y.2)) slot
                { x with entered := [], ended := [] }
              orphans := (s.orphans.map fun (y : Nat × Slot) => (y.1, s.keepEnds ns y.2)).filter fun o => s.slotRuns o.2 }
            .next (s.setRf (.pciSlot slot) 32 2 2)
        else .next s
    else .next s

/-- How a core ended a RUNNING launch; one that failed before it was reached counts as FAULTED, with exit code 0. -/
def State.endOf (s : State) (x : Slot) (n : Nat) : CoreEnd :=
  (mapGet? x.ended n).getD (if s.coreLost x n then { s.coreEnd n with faulted := true, exit := 0 } else s.coreEnd n)

/-- LAUNCH_END: a RUNNING launch ends once every core of its set is DONE or FAULTED (R499 R500). -/
def execLaunchEnd (slot : Nat) (s : State) : Host.Outcome State Fault Refusal :=
  match (s.slotOf slot).launch with
  | none => .next s
  | some d =>
    let ns := (s.launchSet d).getD []
    let x := s.slotOf slot
    if slot < 32 ∧ s.rf (.pciSlot slot) 32 2 = 2 ∧ ns.all (s.corePast x) then
      let bad := ns.filter fun n => (s.endOf x n).faulted
      let exit := (ns.head?.map fun n => (s.endOf x n).exit).getD 0
      let first := bad.headD 0xFFFFFFFF
      let cause := if bad.isEmpty then 0 else (s.endOf x first).cause
      .next ((s.record slot d (b2n (!bad.isEmpty)) bad.length exit first cause).freeSlot slot)
    else .next s

/-! ### BAR reads (R489 R490) -/

/-- The event of a read of a poisoned granule is logged under the class of poison that was met (16 R555). -/
def State.logPoison (s : State) (l : Loc) : State :=
  match l with
  | .render p _ => s.log 5 7 (locGran p) (BitVec.ofNat 64 (2 ^ 39 + p / 64 * 64))
  | .hawk _ k => s.log 5 1 (locSite ((k - 2 ^ 45) / 2 ^ 21) 1) 0
  | .hod k => s.log 5 5 (locRow ((k - 2 ^ 46) / 2 ^ 24) ((k - 2 ^ 46) % 2 ^ 24 / 256)) 0
  | _ => s

/-- What a read of a BAR has gathered: bytes, whether a granule was poisoned, whether it aborts. -/
structure BarRead where
  bytes : List Byte
  ep : Bool
  abort : Bool

/-- The memory and registers that an access to a BAR reaches, granule by granule. -/
def State.barPlaces (s : State) (bar off len : Nat) : List Loc :=
  (blocks 64 (len + 1) off len).filterMap fun b => match s.barPlace bar b.1 with
    | .loc a => some (s.resolve none a)
    | _ => none

/-- The part of a BAR read that lies in one aligned 64-byte granule. A granule behind a controller in reset reads zero with
the EP bit set. -/
def State.barReadPart (s : State) (bar off n : Nat) (r : BarRead) : State × BarRead :=
  let zeros := { r with bytes := r.bytes ++ List.replicate n 0 }
  match s.barPlace bar off with
  | .loc a => match s.resolve none a with
    | .reg _ => (s, { r with bytes := r.bytes ++ s.readRegs .host a n })
    | .dead => (s, { zeros with abort := true })
    | .unmapped | .host _ => (s, zeros)
    | l =>
      if s.chanReset l then (s, { zeros with ep := true })
      else
        let poi := s.granPoisoned l
        let (s, bs, _) := s.readBlock l n
        (if poi then s.logPoison l else s, { r with bytes := r.bytes ++ bs, ep := r.ep || poi })
  | .slots o => (s, { r with bytes := r.bytes ++ (((s.slotOf (o / 256)).image.drop (o % 256)).take n) })
  | .vectors o =>
    (s, { r with bytes := r.bytes ++ ((List.range n).map fun j =>
      (mapGet s.msix ((o + j) / 16) Msix.zero).bytes.getD ((o + j) % 16) 0) })
  | .pending o =>
    let w := (List.range 64).foldl (fun m v => m + b2n (mapGet s.msix v Msix.zero).pend * 2 ^ v) 0
    let part := ((leBytes 8 w).drop o).take n
    (s, { r with bytes := r.bytes ++ part ++ List.replicate (n - part.length) 0 })
  | .nothing => (s, zeros)

/-- BAR_READ: each granule is read at one moment, once its place takes the access; a completion with its bytes, or an abort,
which AER records (R489 R490). -/
def execBarRead (bar off len : Nat) (errs : List MemErr) (s : State) : Host.Outcome State Fault Refusal :=
  match (s.tlp 1).letIn (s.barPlaces bar off len) .down errs with
  | none => .next s
  | some s =>
    let (s, r) := (blocks 64 (len + 1) off len).foldl
      (fun (t : State × BarRead) (b : Nat × Nat) => t.1.barReadPart bar b.1 b.2 t.2) (s, ⟨[], false, false⟩)
    let s := s.tlp 2
    .next (if r.abort then { s.send (.abort bar off) with aer := true } else s.send (.readData bar off r.bytes r.ep))

/-! ### BAR writes (R488 R490 R493) -/

/-- The runs of enabled bytes of a write. One whose byte enables have holes is taken as one access for each run: the spec
does not say what a register takes of such a write (DESIGN CHOICE, log entry 98). -/
def enabledRuns : Nat → List (Option Byte) → List (Nat × List Byte)
  | _, [] => []
  | o, none :: bs => enabledRuns (o + 1) bs
  | o, some b :: bs => match enabledRuns (o + 1) bs with
    | (p, l) :: rs => if p = o + 1 then (o, b :: l) :: rs else (o, [b]) :: (p, l) :: rs
    | [] => [(o, [b])]

/-- The part of a host write in one aligned 64-byte granule of memory; EP poisons the granule (16 R545), and so does a
controller in reset, which takes no byte. -/
def State.barWritePart (s : State) (l : Loc) (bs : List Byte) (ep : Bool) : State :=
  match l with
  | .render _ _ | .hawk _ _ | .hod _ =>
    if s.chanReset l then s.poisonLoc l
    else
      let s := s.writeBlock l bs
      if ep then s.poisonLoc l else s
  | _ => s

/-- A run of enabled bytes of a host write. -/
def State.barWriteRun (s : State) (bar off : Nat) (bs : List Byte) (ep : Bool) : State :=
  match s.barPlace bar off with
  | .loc a => match s.resolve none a with
    | .reg _ => s.writeRegs .host a bs
    | _ =>
      (blocks 64 (bs.length + 1) off bs.length).foldl (fun (s : State) (b : Nat × Nat) =>
        match s.barPlace bar b.1 with
        | .loc x => s.barWritePart (s.resolve none x) ((bs.drop (b.1 - off)).take b.2) ep
        | _ => s) s
  | .slots o =>
    (blocks 256 (bs.length + 1) o bs.length).foldl (fun (s : State) (b : Nat × Nat) =>
      s.recordSlot (b.1 / 256) (b.1 % 256) (((bs.drop (b.1 - o)).take b.2).map some)) s
  | .vectors o => s.writeVectors o bs
  | .pending _ | .nothing => s

/-- The launch slots that a write touches. -/
def State.slotsHit (s : State) (bar : Nat) (rs : List (Nat × List Byte)) : NSet :=
  rs.foldl (fun (m : NSet) (r : Nat × List Byte) => (List.range r.2.length).foldl (fun (m : NSet) (j : Nat) =>
    match s.barPlace bar (r.1 + j) with
    | .slots o => setAdd m (o / 256)
    | _ => m) m) []

/-- BAR_WRITE: performed on the bytes it names (R488), once its places take it; the conditions of a slot that it touches are
evaluated after it (R495). -/
def execBarWrite (bar off : Nat) (bytes : List (Option Byte)) (ep : Met Bool) (s : State) :
    Host.Outcome State Fault Refusal :=
  let rs := enabledRuns off bytes
  match (s.tlp 1).letIn (rs.flatMap fun r => s.barPlaces bar r.1 r.2.length) .up ep.errs with
  | none => .next s
  | some t =>
    let t := rs.foldl (fun (s : State) (r : Nat × List Byte) => s.barWriteRun bar r.1 r.2 ep.val) t
    .next ((s.slotsHit bar rs).foldl State.evalSlot t)

/-- REGISTER_WRITE: a write in the register ranges by a requester (00 R4-R10 R650 R651), once the register takes it; none at a
failed core. -/
def execRegisterWrite (req : Requester) (addr : Nat) (bytes : List Byte) (s : State) :
    Host.Outcome State Fault Refusal :=
  .next (match s.resolve none addr with
    | .reg x => match s.letIn [.reg x] .up [] with
      | some t => t.writeRegs req addr bytes
      | none => s
    | _ => s)

/-! ### Configuration (R485) -/

/-- A byte of the configuration space with fixed bits: offset, which, their value. -/
structure CfgByte where
  off : Nat
  mask : Byte
  val : Byte

/-- The fixed bits of the header (R485 R487): identity, class, one function, no INTx, the head of the capability list, and the
type bits of the three BARs, at the offsets of PCI Express (PRESUMED, log entry 26). -/
def cfgHeader : List CfgByte :=
  [⟨0, 0xFF, Config.vendorId.setWidth 8⟩, ⟨1, 0xFF, (Config.vendorId >>> 8).setWidth 8⟩, ⟨2, 0xFF, 0x60⟩, ⟨3, 0xFF, 0x91⟩,
   ⟨8, 0xFF, 0xB0⟩, ⟨9, 0xFF, 0⟩, ⟨10, 0xFF, 0⟩, ⟨11, 0xFF, 0x12⟩, ⟨16, 0x0F, 0x04⟩, ⟨24, 0x0F, 0x0C⟩, ⟨32, 0x0F, 0x0C⟩,
   ⟨14, 0xFF, 0⟩, ⟨52, 0xFF, BitVec.ofNat 8 Config.pmOff⟩, ⟨61, 0xFF, 0⟩]

/-- The fixed bits of the capabilities that R485 lists: power management with D0 and D3hot alone, MSI-X with 64 vectors and its
places in BAR0, 512 B payload, FLR, 8 to 64 GT/s, x16, ASPM L1, 10-bit tags, AER, and the sizes of BAR2; their two lists end
there, since the device supports no capability beside them. Where each capability stands the spec does not say; the
offsets within it are those of PCI Express (PRESUMED, log entry 26). -/
def cfgCaps : List CfgByte :=
  let m := Config.msixOff
  let e := Config.pcieOff
  let r := Config.rebarOff
  let p := Config.pmOff
  [⟨p, 0xFF, 0x01⟩, ⟨p + 1, 0xFF, BitVec.ofNat 8 m⟩, ⟨p + 3, 0x06, 0⟩,
   ⟨m, 0xFF, 0x11⟩, ⟨m + 1, 0xFF, BitVec.ofNat 8 e⟩, ⟨m + 2, 0xFF, 63⟩, ⟨m + 3, 0x07, 0⟩,
   ⟨m + 4, 0xFF, 0⟩, ⟨m + 5, 0xFF, 0⟩, ⟨m + 6, 0xFF, 0xA0⟩, ⟨m + 7, 0xFF, 0x03⟩,
   ⟨m + 8, 0xFF, 0⟩, ⟨m + 9, 0xFF, 0x10⟩, ⟨m + 10, 0xFF, 0xA0⟩, ⟨m + 11, 0xFF, 0x03⟩,
   ⟨e, 0xFF, 0x10⟩, ⟨e + 1, 0xFF, 0⟩, ⟨e + 44, 0xFE, 0x78⟩, ⟨e + 4, 0x07, 2⟩,
   ⟨e + 7, 0x10, 0x10⟩, ⟨e + 12, 0xFF, 0x06⟩, ⟨e + 13, 0x0F, 0x09⟩, ⟨e + 38, 0x03, 0x03⟩,
   ⟨Config.aerOff, 0xFF, 0x01⟩, ⟨Config.aerOff + 1, 0xFF, 0⟩, ⟨Config.aerOff + 2, 0xF0, BitVec.ofNat 8 (r % 16 * 16)⟩,
   ⟨Config.aerOff + 3, 0xFF, BitVec.ofNat 8 (r / 16)⟩,
   ⟨r, 0xFF, 0x15⟩, ⟨r + 1, 0xFF, 0⟩, ⟨r + 2, 0xF0, 0⟩, ⟨r + 3, 0xFF, 0⟩, ⟨r + 4, 0xFF, 0⟩,
   ⟨r + 5, 0xFF, 0xC0⟩, ⟨r + 6, 0xFF, 0xFF⟩, ⟨r + 7, 0xFF, 0⟩,
   ⟨r + 8, 0xE7, 0x22⟩]

/-- The fixed bits that concern a byte of the configuration space: the header has its first 64 bytes. -/
def cfgGiven (o : Nat) : List CfgByte := (if o < 64 then cfgHeader else cfgCaps).filter fun g => g.off == o

/-- A byte of the configuration space as it is before a write: what the spec gives, over what it does not lay out; the BARs
hold no address, no command bit is set, and BAR2 has 1 GiB (log entry 26). -/
def cfgDefault (o : Nat) : Byte :=
  let old : Byte := if o = 4 ∨ o = 5 ∨ (16 ≤ o ∧ o < 40) then 0 else if 64 ≤ o ∧ o = Config.rebarOff + 9 then 10
    else Config.cfgByte o
  (cfgGiven o).foldl (fun (b : Byte) g => (b &&& ~~~g.mask) ||| g.val) old

/-- The bits of a byte of the configuration space that take a write: not the fixed ones, nor the address bits of a BAR below
its size (R487). -/
def State.cfgTakes (s : State) (o : Nat) : Byte :=
  let bar (size lo : Nat) : Byte := BitVec.ofNat 8 ((2 ^ 64 - size) / 256 ^ (o - lo))
  let m : Byte := if 16 ≤ o ∧ o < 24 then bar (2 ^ 26) 16 else if 24 ≤ o ∧ o < 32 then bar s.bar2Size 24
    else if 32 ≤ o ∧ o < 40 then bar (2 ^ 32) 32 else 0xFF
  (cfgGiven o).foldl (fun (b : Byte) g => b &&& ~~~g.mask) m

/-- A byte of the configuration space: AER's Completer Abort status is bit 15 of the register behind its header (R490). -/
def State.cfgAt (s : State) (o : Nat) : Byte :=
  let b := mapGet s.cfg o (cfgDefault o)
  if 64 ≤ o ∧ o = Config.aerOff + 5 then (b &&& 0x7F) ||| (if s.aer then 0x80 else 0) else b

/-- Bus Master Enable follows bit 2 of the command register, as PCI Express lays it out. -/
def State.followBme (s : State) : State :=
  s.setRf .pciLink 10 1 ((mapGet s.cfg 4 (cfgDefault 4)).toNat / 4 % 2)

/-- PCIE_CONFIG_REQUEST: a configuration read is answered, a write is taken (R485); a 1 written to AER's Completer Abort
status clears it. -/
def execPcieConfigRequest (r : CfgReq) (s : State) : Host.Outcome State Fault Refusal :=
  let s := s.tlp 1
  if r.write then
    let m := (List.range r.bytes.length).foldl (fun (m : FMap Byte) (j : Nat) =>
      match r.bytes.getD j none with
      | some b =>
        let o := r.off + j
        let k := s.cfgTakes o
        if k = 0 ∨ 4096 ≤ o then m else mapSet m o ((mapGet m o (cfgDefault o) &&& ~~~k) ||| (b &&& k))
      | none => m) s.cfg
    let clears := (List.range r.bytes.length).any fun j =>
      r.off + j == Config.aerOff + 5 && ((r.bytes.getD j none).getD 0).getLsbD 7
    .next (({ s with cfg := m, aer := s.aer && !clears }.followBme.send (.cfg r.off [])).tlp 2)
  else
    .next ((s.send (.cfg r.off ((List.range (min r.len 4096)).map fun j => s.cfgAt (r.off + j)))).tlp 2)

/-! ### Reads of host memory by the device (R491 R654) -/

/-- Whether a key awaits host bytes; the host address, the place in the stream and the length that it names. -/
def isHostKey (k : Nat) : Bool := decide (2 ^ 200 ≤ k)

/-- The host address of a key. -/
def keyHost (k : Nat) : Nat := (k - 2 ^ 200) / 64 / 2 ^ 64

/-- The place in the stream of a key. -/
def keyPos (k : Nat) : Nat := (k - 2 ^ 200) / 64 % 2 ^ 64

/-- The length of a key. -/
def keyLen (k : Nat) : Nat := (k - 2 ^ 200) % 64 + 1

/-- HOST_READ_COMPLETION: a completion brings the bytes of host addresses; the pieces of the oldest copy of the core that
lie in it are filled, poisoned where EP is set. -/
def execHostReadCompletion (lc addr : Nat) (bytes : List Byte) (ep : Bool) (s : State) :
    Host.Outcome State Fault Refusal :=
  match findEntry (fun e => e.begun && e.fin.isNone && e.await.any isHostKey) (s.core lc).movQ with
  | none => .next s
  | some (i, e) =>
    let got (k : Nat) : Bool := isHostKey k && decide (addr ≤ keyHost k)
      && decide (keyHost k + keyLen k ≤ addr + bytes.length)
    let ks := e.await.filter got
    if ks.isEmpty then .next s
    else
      let buf := ks.foldl (fun (b : FMap Byte) (k : Nat) =>
        putBuf b (keyPos k) ep false ((bytes.drop (keyHost k - addr)).take (keyLen k))) e.buf
      .next (((s.tlp 1).setEntry lc .mover i { e with buf := buf, await := e.await.filter fun k => !got k }).moverOn lc)

/-- Every transfer with host memory that is not performed ends with PORT_RESET (03 R133-R136). -/
def State.endHost (s : State) : State :=
  let s := s.barCopies 128 fun lc m => (s.storeBlocks m).any fun a =>
    match s.resolve (some lc) a with
    | .host _ => true
    | _ => false
  s.cores.foldl (fun (s : State) (c : Nat × Core) =>
    match findEntry (fun e => e.begun && e.fin.isNone && e.await.any isHostKey) (s.core c.1).movQ with
    | none => s
    | some (i, e) =>
      let ks := e.await.filter isHostKey
      let buf := ks.foldl (fun (b : FMap Byte) (k : Nat) =>
        putBuf b (keyPos k) true true (List.replicate (keyLen k) 0)) e.buf
      (s.setEntry c.1 .mover i { e with
        buf := buf, await := e.await.filter fun k => !isHostKey k, worst := worse e.worst (some stReset) }).moverOn c.1) s

/-! ### Resets of the function, D3hot (R486, 17 R571) -/

/-- Launch slots as a reset of the function leaves them: EXPECT 1, nothing written, nothing fired. -/
def State.clearSlots (s : State) : State :=
  let s := (List.range 32).foldl (fun (s : State) (i : Nat) => s.setReg (.pciSlot i) (Reg.pciSlot i).resetWord) s
  { s with slots := [] }

/-- The function, its BARs and configuration and every launch slot are reset; started launches run on without their
slots, so that their records and messages are discarded (R486). -/
def State.resetFunction (s : State) : State :=
  let s := { s.endHost with orphans := s.orphans ++ ((List.range 32).filterMap fun i =>
    if s.rf (.pciSlot i) 32 2 = 2 then some (i, s.slotOf i) else none) }
  let s := (List.range 8).foldl (fun (s : State) (k : Nat) => s.setReg (.pciHwin k) 0) (s.setReg .pciBar2 0)
  let s := { s.clearSlots with msix := [], cfg := [], aer := false, power := { s.power with d3 := false } }
  s.followBme.voidNonce

/-- FUNCTION_LEVEL_RESET. -/
def execFunctionLevelReset (s : State) : Host.Outcome State Fault Refusal := .next s.resetFunction

/-- HOT_RESET. -/
def execHotReset (s : State) : Host.Outcome State Fault Refusal := .next s.resetFunction

/-- D3HOT_ENTRY: the host places the function in D3hot. -/
def execD3hotEntry (s : State) : Host.Outcome State Fault Refusal :=
  .next { s with power := { s.power with d3 := true } }

/-- A register of the counters and the sampling state (19 R617): of a core's block its offsets 0x1100-0x11BF but PMU_PERM,
of the Lath blocks the whole range. -/
def isPmuReg (a : Nat) : Bool :=
  (decide (coreBase ≤ a) && decide (a < lathBase) && decide (0x1100 ≤ (a - coreBase) % 0x100000)
    && decide ((a - coreBase) % 0x100000 < 0x11C0) && decide ((a - coreBase) % 0x100000 ≠ 0x1118))
  || (decide (lathBase + 0x50000 ≤ a) && decide (a < lathBase + 0x63900))

/-- Every counter and the sampling state are set to 0 (19 R617). -/
def State.clearPmu (s : State) : State :=
  { s with pmus := [], regs := s.regs.filter fun (e : Nat × Word) => !isPmuReg e.1 }

/-- A port that trains at a start or a wake: enabled, and not recorded as failed whole (15 R524). -/
def State.trainPorts (s : State) : State :=
  (List.range 16).foldl (fun (s : State) (p : Nat) =>
    s.setReg (.klkStatus p)
      (if s.rf .klkCfg (32 + p) 1 = 1 ∧ !s.portGone p then 1 else 0)) s

/-- D0_RETURN: the function returns to D0; from module asleep the MC brings the Lath back (17 R571, 19 R617). -/
def execD0Return (s : State) : Host.Outcome State Fault Refusal :=
  let s := { s with power := { s.power with d3 := false } }
  if s.rf .pwrState 12 1 = 1 ∧ !s.power.waking then
    .next { s.clearSlots.clearPmu.trainPorts with power := { s.power with waking := true } }
  else .next s

/-- ASLEEP_WAKE_COMPLETE: every part is awake and ASLEEP returns to 0; launch slots are evaluated again. -/
def execAsleepWakeComplete (s : State) : Host.Outcome State Fault Refusal :=
  if s.power.waking then
    let f := s.rf .finish 4 2
    let s := (((s.setRf .pwrState 8 5 0).setRf .rlrState 16 8 0).setRf .clkWest 0 2 f).setRf .clkEast 0 2 f
    let s := (s.takePoint .west f).takePoint .east f
    let s := ({ s with power := { s.power with waking := false } }.routersRun .west).routersRun .east
    .next ((List.range 32).foldl State.evalSlot s)
  else .next s

end Sys2Proof.Machine
end

