-- ==== Sys2Proof/Machine/Counters.lean ====
section
/-!
DEFINITION. Counting and sampling by command (19 R620 R623-R630): the cycles that pass while no command waits, writes of
PMU_MARK, PMU_SCTRL and PMU_PERM, and the spill of a core's sample records.
-/

namespace Sys2Proof.Machine

/-- A cycle counter moves on by a free number of cycles, none among them (R620 R623). -/
def State.advance (s : State) (r : Reg) : State :=
  { s.setReg r (s.reg r + BitVec.ofNat 64 (Config.elapsed s.free)) with free := s.free + 1 }

/-- Time passes while no command waits: PMU_CYCLE of every core whose clock reaches its site, and of every Lath block, moves on
by a free number of cycles (R620 R623). Before READY and while the module sleeps no clock that they count runs (17 R571;
DESIGN CHOICE, log entry 43). -/
def State.tick (s : State) : State :=
  if !s.ready || decide (s.rf .pwrState 12 1 = 1) then s
  else (List.range 313).foldl (fun s b => s.advance (.lathCycle b))
    ((List.range 144).foldl (fun s lc => if decide (lc < s.inForce) && s.accepts lc then s.advance (.pmuCycle lc) else s) s)

/-- A write of all eight bytes of a register of a core, which it wakes (17 R567). -/
def State.writeCore (s : State) (req : Requester) (r : Reg) (data : Word) : State :=
  (s.wakePlace (s.resolve none r.addr)).writeReg8 req r data

/-- PMU_MARK_WRITE: a MARK record while sampling is enabled (R626). -/
def execPmuMarkWrite (lc : Nat) (req : Requester) (data : Word) (s : State) : Host.Outcome State Fault Refusal :=
  .next (s.writeCore req (.pmuMark lc) data)

/-- PMU_SAMPLING_ENABLE: a write of PMU_SCTRL with EN 1 (R629). -/
def execPmuSamplingEnable (lc : Nat) (req : Requester) (data : Word) (s : State) : Host.Outcome State Fault Refusal :=
  .next (s.writeCore req (.pmuSctrl lc) (setFld data 0 1 1))

/-- PMU_SAMPLING_DISABLE: a write of PMU_SCTRL with EN 0 (R629). -/
def execPmuSamplingDisable (lc : Nat) (req : Requester) (data : Word) (s : State) : Host.Outcome State Fault Refusal :=
  .next (s.writeCore req (.pmuSctrl lc) (setFld data 0 1 0))

/-- SAMPLE_SPILL: with 128 records held the Mover copies them into the next 16 rows of the ring, when no retune window is
open (R627); what a window held back when sampling was turned off goes the same way (R629). -/
def execSampleSpill (lc : Nat) (s : State) : Host.Outcome State Fault Refusal :=
  .next (if s.spillDue lc then s.spill lc 128 else s)

/-- PMU_PERM_SAVE: a write of PMU_PERM with SAVE 1 (R630). -/
def execPmuPermSave (lc : Nat) (req : Requester) (data : Word) (s : State) : Host.Outcome State Fault Refusal :=
  .next (s.writeCore req (.pmuPerm lc) (setFld data 2 1 1))

/-- PMU_PERM_LOCK: a write of PMU_PERM with LOCK 1 (R630). -/
def execPmuPermLock (lc : Nat) (req : Requester) (data : Word) (s : State) : Host.Outcome State Fault Refusal :=
  .next (s.writeCore req (.pmuPerm lc) (setFld data 1 1 1))

end Sys2Proof.Machine
end

