-- ==== Sys2Proof/Machine/Security.lean ====
section
/-!
DEFINITION. Wyrok (18): firmware images and the commands that load, activate and commit them, the panel broadcast of 13
R469, the SPDM answers, and debug access.
-/

namespace Sys2Proof.Machine

/-- The bank that the ROM runs (R598): the active one, else the other one; none in RECOVERY. -/
def State.pickBank (s : State) : Option Bool :=
  let a := s.sec.activeB
  if s.bankRuns (s.sec.bank a) then some a else if s.bankRuns (s.sec.bank !a) then some !a else none

/-! ### Firmware commands (R599-R602 R612 R614) -/

/-- Chunk bytes written into an image: 64 KiB at a place. -/
def chunkPut (l : List Byte) (k : Nat) (bs : List Byte) : List Byte :=
  let o := k * 65536
  l.take o ++ List.replicate (o - l.length) 0 ++ bs ++ l.drop (o + bs.length)

/-- What a firmware command does and answers. The order of R599: WRITE after BEGIN, FINISH after WRITE, ACTIVATE with a
valid inactive bank, COMMIT while an image runs (log entry 41). -/
def Sec.fwRun (x : Sec) (o : Otp) (c : SecCmd) (flashOk : Bool) : Sec × Otp × Nat :=
  let i := !x.activeB
  let k := x.bank i
  match c.cmd with
  | 1 =>
    if flashOk then ({ x.setBank i ⟨[], false⟩ with fwStep := 1 }, o, 1)
    else ({ x.setBank i { k with valid := false } with fwStep := 0 }, o, 8)
  | 2 =>
    if ¬ (1 ≤ x.fwStep) then (x, o, 7)
    else if flashOk then ({ x.setBank i { k with image := chunkPut k.image c.chunk x.imgBytes } with fwStep := 2 }, o, 1)
    else (x, o, 8)
  | 3 =>
    if x.fwStep ≠ 2 then (x, o, 7)
    else if !flashOk then (x, o, 8)
    else
      let r := imageCheck o k.image
      (if r = 1 then { x.setBank i { k with valid := true } with fwStep := 0 } else x, o, r)
  | 4 => if !k.ok o then (x, o, 7) else if flashOk then ({ x with activeB := i }, o, 1) else (x, o, 8)
  | 5 => if x.recovery then (x, o, 7) else (x, { o with rollback := max o.rollback x.runSvn }, 1)
  | 6 => ({ x.setBank i { k with valid := false } with fwStep := 0 }, o, 1)
  | _ => (x, o, 0)

/-- A write of SEC_FW_CTRL with a command. -/
def State.fwWriteCmd (s : State) (cmd : Nat) (c : FwCtl) : State :=
  s.writeReg8 c.req .fwCtrl (BitVec.ofNat 64 (cmd + c.chunk.toNat * 2 ^ 8 + b2n c.panel * 2 ^ 16))

/-- FW_BEGIN. -/
def execFwBegin (ctl : FwCtl) (s : State) : Host.Outcome State Fault Refusal := .next (s.fwWriteCmd 1 ctl)

/-- FW_WRITE. -/
def execFwWrite (ctl : FwCtl) (s : State) : Host.Outcome State Fault Refusal := .next (s.fwWriteCmd 2 ctl)

/-- FW_FINISH. -/
def execFwFinish (ctl : FwCtl) (s : State) : Host.Outcome State Fault Refusal := .next (s.fwWriteCmd 3 ctl)

/-- FW_ACTIVATE. -/
def execFwActivate (ctl : FwCtl) (s : State) : Host.Outcome State Fault Refusal := .next (s.fwWriteCmd 4 ctl)

/-- FW_COMMIT. -/
def execFwCommit (ctl : FwCtl) (s : State) : Host.Outcome State Fault Refusal := .next (s.fwWriteCmd 5 ctl)

/-- FW_ABORT. -/
def execFwAbort (ctl : FwCtl) (s : State) : Host.Outcome State Fault Refusal := .next (s.fwWriteCmd 6 ctl)

/-- FW_COMMAND_COMPLETE: the running command takes its effect, BUSY clears and RESULT is set. -/
def execFwCommandComplete (flashOk : Bool) (s : State) : Host.Outcome State Fault Refusal :=
  match s.sec.fwCmd with
  | none => .next s
  | some c =>
    let (x, o, r) := s.sec.fwRun s.otp c flashOk
    .next (({ s with sec := { x with fwCmd := none }, otp := o }.setRf .fwStatus 8 1 0).setRf .fwStatus 0 8 r)

/-- A command that the lead forwards runs at a member on the image bytes that came with it (R602): the member's own image
buffer stays as it is. What its banks, its fuses and its report come to; false while a command of its own runs (log entry
106). -/
def State.runForwarded (s : State) (cmd chunk : Nat) (bytes : List Byte) (flashOk : Bool) : State × Bool :=
  if s.sec.fwCmd.isSome then (s, false)
  else
    let (x, o, r) := { s.sec with img := memPuts [] 0 (bytes.take 65536) }.fwRun s.otp ⟨cmd, true, chunk, 0, 0⟩ flashOk
    ({ s with sec := { x with img := s.sec.img }, otp := o }, decide (r = 1))

/-- MGT_IMAGE_RECEIVE: what a member's MC receives on channel MGT. It accepts an image, and runs a forwarded command, from
position 0 only; an image has both signatures verified and goes into the inactive bank; success or failure is reported (13
R469, 18 R602). -/
def execMgtImageReceive (srcPos : Nat) (m : MgtIn) (s : State) : Host.Outcome State Fault Refusal :=
  let id := s.reg .klkIdent
  if srcPos ≠ 0 ∨ bitAt id 45 ∨ fld id 0 4 = 0 then .next s
  else
    let (t, ok) : State × Bool := match m with
      | .image l =>
        if imageCheck s.otp l = 1 ∧ s.sec.fwCmd.isNone then
          ({ s with sec := { s.sec.setBank (!s.sec.activeB) ⟨l, true⟩ with fwStep := 0 } }, true)
        else (s, false)
      | .command cmd chunk bytes flashOk => s.runForwarded cmd chunk bytes flashOk
    .next (t.reportMgt ok)

/-- MEMBER_REPORT: the lead records what a member reports of the last forwarded command (R602 R614). -/
def execMemberReport (pos : Nat) (ok : Bool) (s : State) : Host.Outcome State Fault Refusal :=
  if setHas s.sec.mgtPend pos then
    .next ({ s with sec := { s.sec with mgtPend := setDel s.sec.mgtPend pos } }.setRf .fwStatus (48 + pos) 1 (b2n ok))
  else .next s

/-- MEMBER_REPORT_TIMEOUT: a member that has not reported within 10 s keeps its firmware: no bit is set (13 R469). -/
def execMemberReportTimeout (pos : Nat) (s : State) : Host.Outcome State Fault Refusal :=
  .next { s with sec := { s.sec with mgtPend := setDel s.sec.mgtPend pos } }

/-! ### SPDM (R603-R605) -/

/-- The SPDM messages that a transport has answered in order: 1 version, 2 capabilities, 3 algorithms. -/
def State.spdmAt (s : State) : Transport → Nat
  | .pcie => s.sec.spdmPcie
  | .i3c => s.sec.spdmI3c

/-- A transport's state: the two do not interfere. -/
def State.setSpdm (s : State) (t : Transport) (n : Nat) : State :=
  match t with
  | .pcie => { s with sec := { s.sec with spdmPcie := n } }
  | .i3c => { s with sec := { s.sec with spdmI3c := n } }

/-- The MC answers on a transport: it has its supply, and on I3C its dynamic address (20 R634). -/
def State.spdmOn (s : State) (t : Transport) : Bool :=
  s.pins.aux && (match t with
    | .pcie => true
    | .i3c => s.pins.i3c.isSome)

/-- An SPDM answer, in the form that DMTF SPDM 1.3 gives it. -/
def State.spdmSend (s : State) (t : Transport) (name : String) (body : List Byte) : State :=
  s.send (.spdm t name (Config.spdmBody name body))

/-- A request that is answered once a transport has come so far; before that the answer is ERROR. -/
def State.spdmAnswer (s : State) (t : Transport) (need : Nat) (ok : Bool) (name : String) (body : List Byte) : State :=
  if !s.spdmOn t then s
  else if s.spdmAt t < need ∨ !ok then s.spdmSend t "ERROR" []
  else s.spdmSend t name body

/-- A certificate slot: 0 is Ed25519, 1 is ML-DSA-65. -/
def certSlot (n : Nat) : Bool := decide (n < 2)

/-- The algorithms that a transport has negotiated: Ed25519 (bit 0), ML-DSA-65 (bit 1). -/
def State.spdmAlgs (s : State) : Transport → Nat
  | .pcie => s.sec.algsPcie
  | .i3c => s.sec.algsI3c

/-- A transport with the algorithms that it has negotiated. -/
def State.setAlgs (s : State) (t : Transport) (n : Nat) : State :=
  match t with
  | .pcie => { s with sec := { s.sec with algsPcie := n } }
  | .i3c => { s with sec := { s.sec with algsI3c := n } }

/-- A slot that may sign on a transport: its algorithm is negotiated there (R604). -/
def State.signSlot (s : State) (t : Transport) (n : Nat) : Bool := certSlot n && decide (s.spdmAlgs t / 2 ^ n % 2 = 1)

/-- The signature of a body with the slot that the request names, over the verifier's nonce. -/
def State.spdmSign (s : State) (q : SpdmReq) (body : List Byte) : List Byte :=
  Config.sign q.slot s.otp.seeds (body ++ q.nonce)

/-- GET_VERSION: a transport begins anew, nothing negotiated. -/
def execGetVersion (tr : Transport) (_q : SpdmReq) (s : State) : Host.Outcome State Fault Refusal :=
  .next (if s.spdmOn tr then ((s.setSpdm tr 1).setAlgs tr 0).spdmSend tr "VERSION" [0x13] else s)

/-- GET_CAPABILITIES. -/
def execGetCapabilities (tr : Transport) (_q : SpdmReq) (s : State) : Host.Outcome State Fault Refusal :=
  let t := s.spdmAnswer tr 1 true "CAPABILITIES" []
  .next (if s.spdmOn tr ∧ 1 ≤ s.spdmAt tr then t.setSpdm tr (max 2 (s.spdmAt tr)) else t)

/-- NEGOTIATE_ALGORITHMS: SHA-384 with Ed25519 (bit 0) and ML-DSA-65 (bit 1), of which the request offers some. -/
def execNegotiateAlgorithms (tr : Transport) (q : SpdmReq) (s : State) : Host.Outcome State Fault Refusal :=
  let ok := decide (q.algs % 4 ≠ 0)
  let t := s.spdmAnswer tr 2 ok "ALGORITHMS" [BitVec.ofNat 8 (q.algs % 4)]
  .next (if s.spdmOn tr ∧ 2 ≤ s.spdmAt tr ∧ ok then (t.setSpdm tr 3).setAlgs tr (q.algs % 4) else t)

/-- GET_DIGESTS: of both certificate chains. -/
def execGetDigests (tr : Transport) (_q : SpdmReq) (s : State) : Host.Outcome State Fault Refusal :=
  .next (s.spdmAnswer tr 3 true "DIGESTS" (Config.sha384 (Config.certChain 0) ++ Config.sha384 (Config.certChain 1)))

/-- GET_CERTIFICATE: a part of the chain of a slot. -/
def execGetCertificate (tr : Transport) (q : SpdmReq) (s : State) : Host.Outcome State Fault Refusal :=
  .next (s.spdmAnswer tr 3 (certSlot q.slot) "CERTIFICATE" (imgPart (Config.certChain q.slot) q.off q.len))

/-- CHALLENGE: the chain's digest, signed with the slot that the request names. -/
def execChallenge (tr : Transport) (q : SpdmReq) (s : State) : Host.Outcome State Fault Refusal :=
  let b := Config.sha384 (Config.certChain q.slot)
  .next (s.spdmAnswer tr 3 (s.signSlot tr q.slot) "CHALLENGE_AUTH" (b ++ s.spdmSign q b))

/-- The measurement blocks of R605. -/
def State.measurement (s : State) (i : Nat) : List Byte :=
  match i with
  | 1 => Config.romDigest
  | 2 => s.sec.runM ++ leBytes 4 s.sec.runSvn
  | 3 => leBytes 1 s.otp.rollback ++ leBytes 1 (b2n s.sec.bankA.valid) ++ leBytes 1 (s.sec.bankA.svn s.otp)
      ++ leBytes 1 (b2n s.sec.bankB.valid) ++ leBytes 1 (s.sec.bankB.svn s.otp)
  | 4 => leBytes 1 s.dbg ++ leBytes 1 s.sec.scopes
  | 5 => s.flash.chain
  | 6 => Config.sha384 (s.otp.ops.flatMap fun (k : OpSlot) => k.ed ++ k.ml ++ leBytes 1 (b2n k.valid) ++ leBytes 1 (b2n k.revoked))
  | _ => []

/-- GET_MEASUREMENTS: index 0 asks for the number of blocks, 255 for all of them, 1-6 for one; signed when the request
asks for it, with the slot that it names. -/
def execGetMeasurements (tr : Transport) (q : SpdmReq) (s : State) : Host.Outcome State Fault Refusal :=
  let ok := (decide (q.index ≤ 6) || decide (q.index = 255)) && (!q.sign || s.signSlot tr q.slot)
  let b := if q.index = 0 then [6] else if q.index = 255 then (List.range 6).flatMap fun i => s.measurement (i + 1)
    else s.measurement q.index
  .next (s.spdmAnswer tr 3 ok "MEASUREMENTS" (if q.sign then b ++ s.spdmSign q b else b))

/-! ### Debug access (R606-R612 R615) -/

/-- The digest of the device's identity: both public keys. -/
def State.idDigest (s : State) : List Byte :=
  Config.sha384 (Config.idKey 0 s.otp.seeds ++ Config.idKey 1 s.otp.seeds)

/-- The challenge of R607. -/
def State.dbgChallenge (s : State) (nonce : List Byte) : List Byte :=
  Config.sha384 (nonce ++ s.idDigest ++ leBytes 1 s.sec.nonceScope ++ leBytes 1 s.sec.nonceSlot
    ++ leBytes 4 (s.rf .mcStart 32 32))

/-- The key digests of a slot: 15 the vendor's, 0-3 an operator's that is enrolled and not revoked. -/
def State.slotKeys (s : State) (slot : Nat) : Option (List Byte × List Byte) :=
  if slot = 15 then some (s.otp.vendorEd, s.otp.vendorMl)
  else match s.otp.ops[slot]? with
    | some o => if o.valid && !o.revoked then some (o.ed, o.ml) else none
    | none => none

/-- What SUBMIT answers: the keys and the scopes against the slot, then both signatures over the challenge (R607
R608). -/
def State.submitCheck (s : State) (nonce : List Byte) : Nat :=
  let r := memGets s.sec.rsp 0 5357
  let ed := imgPart r 0 32
  let ml := imgPart r 32 1952
  match s.slotKeys s.sec.nonceSlot with
  | none => 4
  | some k =>
    if ¬ (Config.sha384 ed = k.1 ∧ Config.sha384 ml = k.2) then 4
    else if s.sec.nonceSlot ≠ 15 ∧ 4 ≤ s.sec.nonceScope then 4
    else
      let c := s.dbgChallenge nonce
      if edOk ed c (imgPart r 1984 64) && mlOk ml c (imgPart r 2048 3309) then 1 else 5

/-- REQUEST: a fresh nonce, unless the device is locked out, or SCAN is asked while a launch is queued or running. -/
def State.dbgRequest (s : State) (c : SecCmd) : State × Nat :=
  let r := if 8 ≤ s.sec.refused then 10
    else if c.scope / 4 % 2 = 1 ∧ (s.launchesIn 1 ++ s.runningLaunches) ≠ [] then 2 else 1
  if r ≠ 1 then (s.unlockLog c.scope c.slot r, r)
  else
    let t : State := { s with
      free := s.free + 1
      sec := { s.sec with
        nonce := some ((List.range 32).map fun i => (Config.trng s.free).getD i 0), nonceScope := c.scope, nonceSlot := c.slot } }
    (t.unlockLog c.scope c.slot 1, 1)

/-- SUBMIT: the nonce serves once; the log is written before a grant takes effect (R610); eight refusals lock out
(R609). -/
def State.dbgSubmit (s : State) : State × Nat :=
  let r := match s.sec.nonce with
    | none => 9
    | some n => s.submitCheck n
  let t := s.unlockLog s.sec.nonceScope s.sec.nonceSlot r
  if r = 1 then
    ({ t with sec := { t.sec with
        nonce := none, scopes := t.sec.scopes ||| s.sec.nonceScope
        grants := t.sec.grants ++ [⟨s.sec.nonceScope, s.sec.nonceSlot, s.sec.nonce.getD []⟩] } }, r)
  else ({ t with sec := { t.sec with nonce := none, refused := t.sec.refused + 1 } }, r)

/-- ENROL: the vendor's keys and both signatures over the command; a slot whose valid bit is blown is not enrolled again,
an empty one not revoked (R611). -/
def State.dbgEnrol (s : State) : State × Nat :=
  let buf := memGets s.sec.rsp 0 8192
  let k := Config.enrolSlot buf
  let rev := Config.enrolRevokes buf
  let part := Config.enrolPart buf
  let msg := Config.sha384 (s.idDigest ++ leBytes 1 k ++ part 0 ++ part 1 ++ leBytes 1 (b2n rev))
  match s.otp.ops[k]? with
  | none => (s.unlockLog 0 (k % 256) 3, 3)
  | some o =>
    let r := if ¬ (Config.sha384 (part 2) = s.otp.vendorEd ∧ Config.sha384 (part 3) = s.otp.vendorMl) then 4
      else if !(edOk (part 2) msg (part 4) && mlOk (part 3) msg (part 5)) then 5
      else if rev ≠ o.valid then 4 else 1
    let s := s.unlockLog 0 k r
    if r ≠ 1 then (s, r)
    else
      let o := if rev then { o with revoked := true } else { o with ed := part 0, ml := part 1, valid := true }
      ({ s with otp := { s.otp with ops := s.otp.ops.set k o } }, r)

/-- A write of SEC_DBG_CTRL with a command. -/
def State.dbgWriteCmd (s : State) (cmd : Nat) (c : DbgCtl) : State :=
  s.writeReg8 c.req .dbgCtrl (BitVec.ofNat 64 (cmd + c.scope.toNat * 2 ^ 4 + c.slot.toNat * 2 ^ 12))

/-- DBG_REQUEST. -/
def execDbgRequest (ctl : DbgCtl) (s : State) : Host.Outcome State Fault Refusal := .next (s.dbgWriteCmd 1 ctl)

/-- DBG_SUBMIT. -/
def execDbgSubmit (ctl : DbgCtl) (s : State) : Host.Outcome State Fault Refusal := .next (s.dbgWriteCmd 2 ctl)

/-- DBG_RELOCK: every granted scope ends at once. -/
def execDbgRelock (ctl : DbgCtl) (s : State) : Host.Outcome State Fault Refusal := .next (s.dbgWriteCmd 3 ctl)

/-- DBG_ENROL. -/
def execDbgEnrol (ctl : DbgCtl) (s : State) : Host.Outcome State Fault Refusal := .next (s.dbgWriteCmd 4 ctl)

/-- DBG_COMMAND_COMPLETE: the running command takes its effect, BUSY clears and RESULT is set. -/
def execDbgCommandComplete (s : State) : Host.Outcome State Fault Refusal :=
  match s.sec.dbgCmd with
  | none => .next s
  | some c =>
    let (t, r) := match c.cmd with
      | 1 => s.dbgRequest c
      | 2 => s.dbgSubmit
      | _ => s.dbgEnrol
    .next (({ t with sec := { t.sec with dbgCmd := none } }.setRf .dbgCtrl 24 1 0).setRf .dbgCtrl 16 8 r)

/-- NONCE_EXPIRY: an unused nonce is void after 60 s (R607). -/
def execNonceExpiry (s : State) : Host.Outcome State Fault Refusal :=
  .next s.voidNonce

end Sys2Proof.Machine
end

