-- ==== Sys2Proof/Machine/BringUp.lean ====
section
/-!
DEFINITION. Starts (15): what a start loads, tests and builds; the snag list, remaps, rub-downs, and the module's supplies
and pins (20 R634 R640-R643).
-/

namespace Sys2Proof.Machine

/-! ### The vertical channels at a start (03 R106 R109 R114-R116 R124, 15 R524) -/

/-- The places of a VC_LANE or VC_GROUP entry: site, direction, group, lane (15 R518). -/
def laneLoc (loc : Word) : Nat × VcDir × Nat × Nat :=
  (fld loc 8 8, if bitAt loc 16 then .down else .up, fld loc 17 4, fld loc 24 9)

/-- A direction loses its site: no data group is left, or GC has failed. -/
def State.noteRetired (s : State) (site : Nat) : State :=
  (s.setRf (.vcStatus site .up) 18 1 1).setRf (.vcStatus site .down) 18 1 1

/-- A group is dead at a start: a VC_GROUP entry (03 R109 R116). -/
def State.deadGroup (s : State) (site : Nat) (d : VcDir) (g : Nat) : State :=
  let s := s.snag (s.foundBy 4 (locLane site d g 0) false)
  if g < 8 then s.setRf (.vcGroup site d g) 36 1 1 else s.noteRetired site

/-- A failed lane takes the next spare of its group; with none left FAIL2 records it and the group is dead (03 R109
R124). -/
def State.useSpare (s : State) (site : Nat) (d : VcDir) (g lane ins : Nat) : State :=
  let used := s.sparesUsed site d g
  if g < 8 then
    let r := Reg.vcGroup site d g
    if used < 2 then
      ((s.setRf r (12 * used) 9 lane).setRf r (12 * used + 9) 1 1).setRf r (12 * used + 10) 1 ins
    else (((s.setRf r 24 9 lane).setRf r 33 1 1).setRf r 34 1 ins).deadGroup site d g
  else
    let v := s.vc site d
    if used < 2 then s.setVc site d { v with gcFails := v.gcFails + 1, gcLanes := v.gcLanes ++ [lane] }
    else s.deadGroup site d g

/-- One entry of the snag list loaded into a channel: a spare used, a group dead, a site retired. -/
def State.loadLane (s : State) (e : Snag) : State :=
  let (site, d, g, lane) := laneLoc e.loc
  if 8 < g ∨ 168 ≤ site ∨ s.groupDead site d g then s
  else if e.typ = 4 then s.deadGroup site d g
  else s.useSpare site d g lane (e.flags.toNat % 2)

/-- The settings of module flash, 27 of each direction: the setting last used and the one loaded (03 R113); a setting that is
not listed is the centre of all 128. -/
def State.loadTrim (s : State) : State :=
  if !s.flash.vcStored then { s with flash := { s.flash with vcSet := [] } }
  else { s with vcs := s.flash.vcSet.foldl (fun (m : FMap Vc) (e : Nat × Word) =>
      let v := mapGet m (e.1 / 27) Vc.zero
      mapSet m (e.1 / 27) { v with set := mapSet (mapSet v.set (e.1 % 27) e.2) (27 + e.1 % 27) e.2 }) s.vcs }

/-! ### Training (03 R114-R116) -/

/-- The functional lanes of a group that err at a point, each with the settings at which it does, over its repaired
lanes. -/
def errLanes (tr : List VcTrain) (rep : List Nat) (g p : Nat) : List (Nat × List Nat) :=
  (List.range (lanesOf g)).filterMap fun l =>
    let bad := (tr.filter fun t => t.point == p && t.lane == physOf rep l).flatMap VcTrain.bad
    if bad = [] then none else some (l, bad)

/-- The eye of a group whose lanes err so (R114): first setting and length of the longest run of settings at which none errs,
the lowest of equal runs (log entry 107). -/
def eyeOf (ls : List (Nat × List Nat)) : Nat × Nat :=
  ((List.range 128).foldl (fun (r : (Nat × Nat) × Nat) v =>
    if ls.any fun e => e.2.contains v then (r.1, 0)
    else (if r.1.2 < r.2 + 1 then (v - r.2, r.2 + 1) else r.1, r.2 + 1)) ((0, 0), 0)).1

/-- The centre of an eye, rounded toward the lower setting. -/
def eyeCentre (e : Nat × Nat) : Nat := e.1 + (e.2 - 1) / 2

/-- The lane that a full sweep declares failed (R114): the lowest that errs at the centre, else the lowest without which an
eye narrower than 8 steps has 8 or more. -/
def failingLane (ls : List (Nat × List Nat)) : Option Nat :=
  let e := eyeOf ls
  ((ls.find? fun l => l.2.contains 128) <|>
    (if e.2 < 8 then ls.find? fun l => decide (8 ≤ (eyeOf (ls.filter fun k => k.1 != l.1)).2) else none)).map Prod.fst

/-- A verify of a stored setting passes: no lane errs from two steps below it to two above (R115); a setting outside 0-127
is not there to be tested (log entry 107). -/
def verifies (ls : List (Nat × List Nat)) : Option Nat → Bool
  | none => false
  | some v => (List.range 5).all fun i =>
      decide (v + i < 2) || decide (129 < v + i) || !ls.any fun e => e.2.contains (v + i - 2)

/-- What the training of a group comes to: the points that it swept, the repaired lanes, those declared failed now, and
whether the group is dead. -/
structure GroupEnd where
  swept : List Nat
  rep : List Nat
  lanes : List Nat
  dead : Bool
  deriving DecidableEq, Repr

/-- The training of a group at its three points: a verify where a setting is stored, a full sweep where there is none or the
verify fails; a failing lane is repaired and training repeats, one lane at a time (R114 R115, log entry 107). -/
def trainGroup (tr : List VcTrain) (g : Nat) (stored : Nat → Option Nat) :
    Nat → List Nat → List Nat → List Nat → GroupEnd
  | 0, sw, rep, lanes => ⟨sw, rep, lanes, true⟩
  | n + 1, sw, rep, lanes =>
    let errs (p : Nat) := errLanes tr rep g p
    let sw := (List.range 3).filter fun p => sw.contains p || !verifies (errs p) (stored p)
    match sw.findSome? fun p => failingLane (errs p) with
    | some l =>
      if rep.length < 2 then trainGroup tr g stored n sw (rep ++ [l]) (lanes ++ [l]) else ⟨sw, rep, lanes ++ [l], true⟩
    | none => ⟨sw, rep, lanes, sw.any fun p => decide ((eyeOf (errs p)).2 < 8)⟩

/-- A full sweep sets a group to the centre of its eye at a point, and stores the setting; the registers show those of point
1, at which a start ends. -/
def State.swept (s : State) (site : Nat) (d : VcDir) (g p : Nat) (e : Nat × Nat) : State :=
  let w : Word := BitVec.ofNat 64 (eyeCentre e)
  let v := s.vc site d
  let s := { s.setVc site d { v with set := mapSet (mapSet v.set (9 * p + g) w) (27 + 9 * p + g) w } with
    flash := { s.flash with vcSet := mapSet s.flash.vcSet (vcKey site d * 27 + 9 * p + g) w } }
  if p = 1 ∧ g < 8 then (s.setRf (.vcGroup site d g) 40 7 (eyeCentre e)).setRf (.vcGroup site d g) 48 8 e.2 else s

/-- A group of whose lanes some err is trained; what fails joins the snag list, with "failed in service" clear (R116). -/
def State.trainOne (s : State) (tr : List VcTrain) (site : Nat) (d : VcDir) (g : Nat) : State :=
  if s.groupDead site d g ∨ s.vcRetired site d ∨ 168 ≤ site ∨ 8 < g then s
  else
    let mine := tr.filter fun t => t.site == site && t.dir == d && t.group == g
    let stored (p : Nat) : Option Nat := if s.flash.vcStored then some ((s.vc site d).at (9 * p + g)).toNat else none
    let r := trainGroup mine g stored 3 [] (s.repaired site d g) []
    let s := r.lanes.foldl (fun (s : State) (l : Nat) =>
      (s.snag (s.foundBy 3 (locLane site d g l) false)).useSpare site d g l 0) s
    let s := r.swept.foldl (fun (s : State) (p : Nat) => s.swept site d g p (eyeOf (errLanes mine r.rep g p))) s
    if r.dead then s.deadGroup site d g else s

/-- The groups that errors in training name, each once: site, direction, group. -/
def trainKeys (tr : List VcTrain) : NSet := tr.foldl (fun (m : NSet) t => setAdd m (vcKey t.site t.dir * 9 + t.group)) []

/-- The registers of one direction of a channel before training: the setting of point 1 in each group, EYE 5 for a stored one,
128 for one that a sweep finds clean. -/
def State.loadChannel (s : State) (site : Nat) (d : VcDir) : State :=
  (List.range 8).foldl (fun (s : State) (g : Nat) =>
    (s.setRf (.vcGroup site d g) 40 7 ((s.vc site d).at (9 + g)).toNat).setRf (.vcGroup site d g) 48 8
      (if s.flash.vcStored then 5 else 128)) s

/-- The counts of groups and the width of one direction. -/
def State.closeChannel (s : State) (site : Nat) (d : VcDir) : State :=
  let s := if s.healthy site d = 0 then s.noteRetired site else s
  (s.vcNote site d).setRf (.vcStatus site d) 16 2 (widthCode (s.healthy site d))

/-- Every channel: the snag list's lanes and groups, the stored settings, training, the widths. -/
def State.loadChannels (s : State) (tr : List VcTrain) : State :=
  let s := (s.snags.filter fun e => e.typ == 3 || e.typ == 4).foldl State.loadLane s.loadTrim
  let both (f : State → Nat → VcDir → State) (s : State) : State :=
    (List.range 168).foldl (fun (s : State) (i : Nat) => f (f s i .up) i .down) s
  let s := both State.loadChannel s
  let s := (trainKeys tr).foldl (fun (s : State) (k : Nat) =>
    s.trainOne tr (k / 18) (if k / 9 % 2 = 0 then .up else .down) (k % 9)) s
  both State.closeChannel { s with flash := { s.flash with vcStored := true } }

/-! ### The logical map (15 R522-R526) -/

/-- TRW_REPAIR (06 R231) of a cover. -/
def repairWord (c : List Nat × List Nat) : Word :=
  let f (l : List Nat) (i lo : Nat) (w : Word) : Word :=
    match l[i]? with
    | some x => setFld (setFld w lo 7 x) (lo + 7) 1 1
    | none => w
  f c.2 1 24 (f c.2 0 16 (f c.1 1 8 (f c.1 0 0 0)))

/-- The repair word of a site. -/
def State.repairOf (s : State) (site : Nat) : Word :=
  match trowelCover (s.badCells site) with
  | some c => repairWord c
  | none => 0

/-- The sites of the logical cores in order (15 R523): of each physical row with at least 12 usable sites the first 12;
none at all with a ROUTER entry (R524). -/
def State.mapSites (s : State) : List Nat :=
  if s.snags.any (·.typ == 0x0A) then []
  else (List.range 12).flatMap fun r =>
    let u := ((List.range 14).map fun c => 14 * r + c).filter s.usable
    if 12 ≤ u.length then u.take 12 else []

/-- The slice list (04 R149 R152). -/
def State.mapSlices (s : State) : List Nat :=
  (List.range 168).filter fun i => !s.sliceLeaves i

/-- The patch table of a slice: failed spare rows are out of use, the other rows patched. -/
def rowPatches (rows : List Nat) : List Patch :=
  (rows.filter fun r => decide (49152 ≤ r)).map (fun r => Patch.mk r true)
    ++ (rows.filter fun r => decide (r < 49152)).map fun r => Patch.mk r false

/-- The plumb offset of an RND_GRANULE entry. -/
def granOf (loc : Word) : Nat := fld loc 0 3 * 2 ^ 36 + fld loc 4 4 * 2 ^ 32 + fld loc 8 6 * 2 ^ 26 + fld loc 14 20 * 64

/-- The failed granules of a channel, in order. -/
def State.badGrans (s : State) (ch : Nat) : List Nat :=
  ((s.snags.filter fun e => e.typ == 7).map fun e => granOf e.loc).filter fun p => chanOf p == ch

/-- The channels with a failed granule. -/
def State.badChans (s : State) : NSet :=
  (s.snags.filter fun e => e.typ == 7).foldl (fun (m : NSet) e => setAdd m (chanOf (granOf e.loc))) []

/-- The copy of a granule into its patch register at a warm start: with correction, or with poison where its content is
uncorrectable (16 R550). -/
def State.copyGran (s : State) (errs : List MemErr) (p : Nat) : State :=
  s.meet ((errs.filter fun e => decide (e.key / 64 = p / 64)).map fun e =>
    { e with kind := if e.kind == .uncorr || e.kind == .hardUncorr then .uncorr else .soft })

/-- The render part of the map: 16 patches of each channel, their registers loaded; the granule of each further entry reads
poisoned, and its 8 MiB block of the interleaved view is retired (15 R524 R525). -/
def State.loadRender (s : State) (errs : List MemErr) : State :=
  s.badChans.foldl (fun (s : State) (ch : Nat) =>
    let l := s.badGrans ch
    let s := (l.take 16).foldl (fun (s : State) (p : Nat) => s.copyGran errs p) s
    let s := { s with rndPatch := mapSet s.rndPatch ch ((l.take 16).map fun p => Patch.mk (p / 64) false) }
    (l.drop 16).foldl (fun (s : State) (p : Nat) =>
      { s.poisonGran p with bad := setAdd s.bad (markOf p), retired := setAdd s.retired (plumbToIlv p / 2 ^ 23) }) s) s

/-- The retired Rollers of a stack (11 R402): bit 4c + r. -/
def State.badRollers (s : State) (st : Nat) : Nat :=
  (s.snags.filter fun e => e.typ == 8 && decide (fld e.loc 0 3 = st)).foldl (fun (m : Nat) e =>
    m ||| 2 ^ (4 * fld e.loc 4 4 + fld e.loc 16 2)) 0

/-- The map in every part of R523 and R524, as numbers; it stands for the digest that R526 keeps. -/
def State.mapDigest (s : State) : List Nat :=
  let part (l : List Nat) : List Nat := l.length :: l
  part s.mapSites ++ part ((List.range 168).map fun i => (s.repairOf i).toNat)
    ++ ((List.range 168).flatMap fun i => [VcDir.up, VcDir.down].flatMap fun d =>
      (s.vc i d).gcFails :: s.rf (.vcStatus i d) 18 1 :: (List.range 8).map fun g =>
        s.rf (.vcGroup i d g) 0 10 + s.rf (.vcGroup i d g) 12 10 * 2 ^ 10 + s.rf (.vcGroup i d g) 36 1 * 2 ^ 20)
    ++ part s.slices ++ (s.slices.flatMap fun i => part (s.badRows i))
    ++ (s.badChans.flatMap fun ch => part (s.badGrans ch))
    ++ ((List.range 8).map fun i => s.badRollers i)
    ++ (s.snags.filter fun e => e.typ == 9).map fun e => e.loc.toNat

/-- The copy of the previous start's map and GEN that passes its check, the newer one first (15 R526): `lost` names those that
do not. -/
def Flash.lastMap (f : Flash) (lost : List Nat) : Option (Nat × List Nat) :=
  if f.gen ≠ 0 ∧ ¬ lost.contains 0 then some (f.gen, f.map)
  else if f.gen2 ≠ 0 ∧ ¬ lost.contains 1 then some (f.gen2, f.map2) else none

/-- The generation of the map (15 R526): one more when the map differs from the previous start's; the start count where
that is unknown. -/
def State.mapGen (s : State) (lost : List Nat) : Nat :=
  match s.flash.lastMap lost with
  | none => s.flash.starts
  | some g => if s.mapDigest = g.2 then g.1 else g.1 + 1

/-- GEN and the map go to module flash, over the copy that is not the last one that passed (15 R526). -/
def State.storeMap (s : State) (lost : List Nat) : State :=
  let old := (s.flash.lastMap lost).getD (0, [])
  { s with flash := { s.flash with gen := s.mapGen lost, map := s.mapDigest, gen2 := old.1, map2 := old.2 } }

/-- The map is built and stored (15 R523-R526). -/
def State.buildMap (s : State) (lost : List Nat) (errs : List MemErr) : State :=
  let sites := s.mapSites
  let s := { s with
    slices := s.mapSlices
    hodPatch := s.mapSlices.foldl (fun (m : FMap (List Patch)) (i : Nat) =>
      let p := rowPatches (s.badRows i)
      if p = [] then m else mapSet m i p) []
    rndPatch := [], retired := [], bad := []
    repairs := (List.range 168).foldl (fun (m : FMap Word) (i : Nat) =>
      if s.repairOf i = 0 then m else mapSet m i (s.repairOf i)) [] }
  let s := s.loadRender errs
  let s := (List.range 8).foldl (fun (s : State) (i : Nat) => s.setReg (.rlrRetired i) (BitVec.ofNat 64 (s.badRollers i))) s
  let s := sites.zipIdx.foldl (fun (s : State) (x : Nat × Nat) =>
    (s.setReg (.mcLc x.2) (BitVec.ofNat 64 (1 + x.1 % 14 * 2 ^ 8 + x.1 / 14 * 2 ^ 12))).setReg (.trwRepair x.2)
      (mapGet s.repairs x.1 0)) s
  let g := s.mapGen lost
  (s.storeMap lost).setReg .mcMap (BitVec.ofNat 64 (sites.length + sites.length / 12 * 2 ^ 16 + g * 2 ^ 32))

/-! ### A start (15 R509-R516) -/

/-- The kind of a start (R509): 0 FIRST, 1 COLD, 2 WARM. -/
def State.startKind (s : State) : Nat :=
  if s.flash.starts = 0 ∨ !s.flash.vcStored then 0 else if s.trip then 1 else 2

/-- The entries of a list that pass their CRC: those at the places named fail it, and are skipped (15 R519). -/
def passCrc (l : List Snag) (rot : List Nat) : List Snag :=
  (l.zipIdx.filter fun x => !rot.contains x.2).map Prod.fst

/-- Phase 3: the start count, the snag list that is current from now on, its skipped entries counted, the cleared error log (15
R519 R521, 16 R555). -/
def State.openStart (s : State) (rot : List Nat) : State :=
  let f := s.flash
  let l := if f.second then f.snag2 else f.snag
  let good := passCrc l rot
  let s := { s with
    flash := { f with
      starts := f.starts + 1, snag := good, snag2 := [], second := false
      badCrc := (if f.second then 0 else f.badCrc) + (l.length - good.length) }
    snagHeld := [], seen := [], errlog := [], sites := [] }
  (((s.setReg .errLog 0).setReg .errStatus 0).setReg .errMask 0x1F8).alertNow

/-- What firmware loads: policies, limits, identities, counts (every field whose Reset column is FW). The wake tolerance
that it loads into PCI_WAKE the spec does not give: a free value (log entry 108). -/
def State.loadFw (s : State) : State :=
  let set (s : State) (x : Reg × Nat) : State := s.setReg x.1 (BitVec.ofNat 64 x.2)
  let u := b2n s.flash.user
  let s := [(Reg.vcPolicy, 250 + 6 * 2 ^ 16 + 50 * 2 ^ 32), (.scrCfg, 1000 * 2 ^ 16), (.rcConfig, s.flash.nextMib.toNat),
    (.klkIdent, s.flash.ident.toNat % 2 ^ 48 + s.flash.starts % 2 ^ 16 * 2 ^ 48),
    (.klkCfg, 100 + 16 * 2 ^ 24 + 0xFFFF * 2 ^ 32), (.finish, 1 + 1 * 2 ^ 4),
    (.pwrPolicy, 200 + 50 * 2 ^ 32 + 2 * 2 ^ 44), (.pciWake, Config.fwWake.toNat), (.clkWest, 1), (.clkEast, 1), (.lperm, u)].foldl set s
  let s := (List.range 144).foldl (fun (s : State) (n : Nat) => s.setReg (.pmuPerm n) (BitVec.ofNat 64 u)) s
  let s := (List.range 8).foldl (fun (s : State) (k : Nat) =>
    set s (.tcyc k, mapGet s.flash.tcyc k 0 % 2 ^ 32 + mapGet s.flash.nfail k 1 % 2 ^ 32 * 2 ^ 32)) s
  let s := ((s.setRf .therm 0 16 (fld s.flash.est 0 16)).setRf .therm 48 10 (min 1023 s.flash.valid)).setRf .therm 40 8 45
  let s := (s.recap.setRf .therm 40 8 0).lifePpm
  { s with
    rcMib := min 6 s.flash.nextMib.toNat, power := { s.power with lastTin := 45, target := 1 }
    west := { s.west with point := 1 }, east := { s.east with point := 1 } }

/-- The milliseconds that a start takes at most (15 R510 R511): FIRST 6,000, COLD 3,000, WARM 1,200; a vertical sweep in a COLD
or WARM start takes 210 more than the verify (DEDUCED from the table of R510, log entry 20). BRAKE_N adds four times the time
that it was asserted (20 R643). -/
def startBound (i : StartIn) (kind : Nat) : Nat :=
  let sweep := if i.trained = [] then 0 else 210
  (if kind = 0 then 6000 else if kind = 1 then 3000 + sweep else 1200 + sweep) + 4 * i.brakeMs

/-- The PCI Express link as it has trained (14 R505): FLIT mode at 64 GT/s. -/
def State.linkUp (s : State) (i : StartIn) : State :=
  ((s.setRf .pciLink 0 4 i.speed).setRf .pciLink 4 5 i.width).setRf .pciLink 9 1 (b2n (decide (i.speed = 6)))

/-- The health class at READY (15 R514 R530). -/
def State.firstHealth (s : State) : State :=
  let (r, repl) := s.healthNow
  (s.setRf .mcHealth 8 8 (r + b2n repl * 128)).setRf .mcHealth 0 2 (if repl then 2 else if r ≠ 0 then 1 else 0)

/-- The phases of a start whose firmware runs, in order: the tests' faults are appended, and the Kerit ports trained, before the
map is built; a port that has not finished is still TRAINING (log entry 128). A COLD start and a FIRST one copy no content into
patch registers (16 R550). How long it took is a free value within R510 R511 R643. -/
def State.runStart (s : State) (i : StartIn) : State :=
  let kind := s.startKind
  let s := s.openStart i.rot
  let s := if kind = 2 then s else { s with mem := [], poison := [] }
  let s := s.loadFw.linkUp i
  let s := i.found.foldl (fun (s : State) (f : FoundFault) => s.snag { f with inservice := false }) s
  let s := (s.loadChannels i.trained).trainPorts
  let s := i.ports.foldl (fun (s : State) (x : Nat × Training) => s.portTrained x.1 x.2) s
  let s := (s.buildMap i.lostMaps (if kind = 2 then i.errs else [])).firstHealth
  let ms := min 65535 (Config.elapsed s.free % (startBound i kind + 1))
  let s := s.setReg .mcStart (BitVec.ofNat 64 (kind + 2 ^ 8 + ms * 2 ^ 16 + s.flash.starts % 2 ^ 32 * 2 ^ 32))
  let s := { s with free := s.free + 1, trip := false }
  (List.range 32).foldl State.evalSlot s

/-- A start may run: the supplies are there, PERST# is deasserted, and no start has run since the last full Lath reset
(R510, 20 R642). -/
def State.mayStart (s : State) : Bool :=
  s.pins.aux && s.pins.stage && !s.pins.perst && !s.ready && !s.sec.recovery && decide (s.rf .mcStart 32 32 = 0)

/-- START: the ROM picks the firmware (18 R598), and the MC runs the phases of the kind that R509 gives; with no valid bank
the device enters RECOVERY and READY stays 0. -/
def execStart (i : StartIn) (s : State) : Host.Outcome State Fault Refusal :=
  if !s.mayStart then .next s
  else
    let s := s.endScopes
    let s := { s with sec := { s.sec with refused := 0 } }
    match s.pickBank with
    | none => .next ({ s with sec := { s.sec with recovery := true } }.linkUp i)
    | some b =>
      let im := (s.sec.bank b).image
      .next ({ s with sec := { s.sec with runningB := b, runSvn := imgSvn im, runM := imgM im } }.runStart i)

/-! ### The snag list (15 R519 R521 R527) -/

/-- SNAG_APPEND: an in-service fault is appended; one in a block of a core site marks the logical core failed. -/
def execSnagAppend (f : FoundFault) (s : State) : Host.Outcome State Fault Refusal :=
  let s := (s.snag { f with inservice := true }).health
  if f.typ = 1 ∧ fld f.loc 0 3 ≤ 5 then
    match s.lcAt (fld f.loc 8 8) with
    | some lc => .next (s.failCore lc)
    | none => .next s
  else .next s

/-- Entries with their ORDINAL values renumbered. -/
def renumber (l : List Snag) : List Snag :=
  l.zipIdx.map fun x =>
    let e := { x.1 with ordinal := BitVec.ofNat 32 x.2 }
    { e with crc := crc32 e.head }

/-- SNAG_LIST_CLEAR: under a grant of CORE_DEBUG or SCAN the entries that remain go to the second region, which the next
start reads; the MC logs it (log entry 42). -/
def execSnagListClear (idx : List Nat) (s : State) : Host.Outcome State Fault Refusal :=
  if s.sec.scopes / 2 % 4 = 0 then .next s
  else
    let named := idx.filterMap fun i => s.flash.snag[i]?
    let base := if s.flash.second then s.flash.snag2 else s.flash.snag
    let rest := base.filter fun e => !named.any fun k => k.typ == e.typ && k.loc == e.loc
    .next ({ s with flash := { s.flash with snag2 := renumber rest, second := true } }.unlockLog s.sec.scopes
      s.sec.nonceSlot 16)

/-! ### Remaps (15 R528 R529) -/

/-- MC_REMAP_GO: a write of MC_REMAP with GO 1. -/
def execMcRemapGo (req : Requester) (data : Word) (s : State) : Host.Outcome State Fault Refusal :=
  .next (s.writeReg8 req .mcRemap (setFld data 4 1 1))

/-- Hops between two sites (12 R409). -/
def hops (a b : Nat) : Nat :=
  (a / 14 - b / 14) + (b / 14 - a / 14) + (a % 14 - b % 14) + (b % 14 - a % 14)

/-- The nearest free spare, the lowest index among equals (R529). -/
def State.nearSpare (s : State) (site : Nat) : Option Nat :=
  s.freeSites.foldl (fun (b : Option Nat) (x : Nat) => match b with
    | none => some x
    | some y => if hops site x < hops site y then some x else some y) none

/-- The status of a request: the first condition of R528 that applies. -/
def State.remapStatus (s : State) (lc : Nat) : Nat :=
  if !s.ready then 6
  else if ¬ (s.valid lc ∧ s.failed lc) then 3
  else if s.launchNames lc then 4
  else if s.freeSites = [] then 5 else 2

/-- The logical number moves to a site: its core there is IDLE with a zero hawk, and TRW_REPAIR shows the site's repair map,
which is the start's (R529, 06 R207). PMU_PERM, which changes at a start alone, stays the logical core's (19 R630, log
entry 79). -/
def State.moveCore (s : State) (lc site : Nat) : State :=
  let h := hawkKey site 0
  let w := coreBase + lc * 0x100000
  let perm := s.reg (.pmuPerm lc)
  let s := { s.setCore lc Core.zero with
    mem := s.mem.filter fun (e : Nat × Byte) => !(decide (h ≤ e.1) && decide (e.1 < h + 2 ^ 21))
    poison := s.poison.filter fun m => !(decide (h / 8 ≤ m) && decide (m < h / 8 + 2 ^ 18))
    pmus := mapErase s.pmus site
    regs := s.regs.filter fun (e : Nat × Word) => !(decide (w ≤ e.1) && decide (e.1 < w + 0x100000)) }
  let s := (s.setReg (.mcLc lc) (BitVec.ofNat 64 (1 + site % 14 * 2 ^ 8 + site / 14 * 2 ^ 12))).setReg (.trwRepair lc)
    (mapGet s.repairs site 0)
  let s := s.setReg (.pmuPerm lc) perm
  (s.setRf .mcMap 8 8 (s.rf .mcMap 8 8 - 1)).incRf .mcMap 24 8 1

/-- REMAP_COMPLETE: the oldest request finishes with its status (R528 R529). -/
def execRemapComplete (s : State) : Host.Outcome State Fault Refusal :=
  match s.remaps with
  | [] => .next s
  | lc :: rest =>
    let st := s.remapStatus lc
    let s := { s with remaps := rest }
    let s := if st = 2 then
        match s.nearSpare (s.siteOf lc) with
        | some x => s.moveCore lc x
        | none => s
      else s
    let s := (s.setRf .mcRemap 0 4 st).setRf .mcRemap 4 1 0
    .next (if st = 2 then s.health else s)

/-! ### Rub-downs and errors (16 R552-R556) -/

/-- RUB_DOWN_GO: a write of LATH_RUB_CTRL with GO 1. -/
def execRubDownGo (req : Requester) (data : Word) (s : State) : Host.Outcome State Fault Refusal :=
  .next (s.writeReg8 req .rubCtrl (setFld (setFld data 0 1 1) 1 1 0))

/-- RUB_DOWN_STOP: a write of LATH_RUB_CTRL with STOP 1 ends a rub-down at the next granule. -/
def execRubDownStop (req : Requester) (data : Word) (errs : List MemErr) (s : State) :
    Host.Outcome State Fault Refusal :=
  let t := s.writeReg8 req .rubCtrl (setFld (setFld data 0 1 0) 1 1 0)
  .next (if s.mayWrite req .rubCtrl && decide (s.rf .rubCtrl 40 8 = 1) then t.rubCut errs 5 else t)

/-- RUB_DOWN_COMPLETE: the rest of the range is read, and the summary written. -/
def execRubDownComplete (errs : List MemErr) (s : State) : Host.Outcome State Fault Refusal :=
  .next (if s.rf .rubCtrl 40 8 = 1 then (s.rubScan (s.rub.total - s.rub.pos) errs).rubEnd 2 else s)

/-- MC_ERR_STATUS_CLEAR: a write of MC_ERR_STATUS (R556). -/
def execMcErrStatusClear (req : Requester) (data : Word) (s : State) : Host.Outcome State Fault Refusal :=
  .next (s.writeReg8 req .errStatus data)

/-! ### The module (20 R634 R640-R642, 03 R133) -/

/-- AUX_APPLY: 3V3_AUX becomes present. -/
def execAuxApply (s : State) : Host.Outcome State Fault Refusal :=
  .next { s with pins := { s.pins with aux := true } }.alertNow

/-- AUX_LOSS: while the stage runs it is a loss of 48 V (R641). The MC loses its dynamic address, and no sideband signal
is driven (R633). -/
def execAuxLoss (s : State) : Host.Outcome State Fault Refusal :=
  let t := if s.pins.aux && s.pins.stage then s.lose48 else s
  .next { t with pins := { t.pins with aux := false, stage := false, alert := false, i3c := none } }

/-- STAGE_START: the stopped stage starts when its input lies above 40 V and at or below 60 V, and 3V3_AUX in its range of 3.135
to 3.465 V, in millivolts (R640 R644). -/
def execStageStart (v : Supply) (s : State) : Host.Outcome State Fault Refusal :=
  .next (if s.pins.aux && !s.pins.stage && decide (3135 ≤ v.aux) && decide (v.aux ≤ 3465) && decide (40000 < v.clip)
      && decide (v.clip ≤ 60000) then
    { s with pins := { s.pins with stage := true } } else s)

/-- STAGE_STOP: the running stage stops when its input has stayed below 38 V or above 62 V for 100 us, a loss of 48 V
(R640 R641). -/
def execStageStop (mv : Nat) (s : State) : Host.Outcome State Fault Refusal :=
  if s.pins.stage && (decide (mv < 38000) || decide (62000 < mv)) then
    let t := s.lose48
    .next { t with pins := { t.pins with stage := false } }
  else .next s

/-- PERST_ASSERT: a full Lath reset, which resets nothing further while the stage is stopped (R642). -/
def execPerstAssert (s : State) : Host.Outcome State Fault Refusal :=
  let t := if s.pins.stage && !s.pins.perst then s.fullReset else s
  .next { t with pins := { t.pins with perst := true } }

/-- PERST_DEASSERT: the trigger from which a start is counted (R642). -/
def execPerstDeassert (s : State) : Host.Outcome State Fault Refusal :=
  .next { s with pins := { s.pins with perst := false } }

/-- MC_WATCHDOG_EXPIRY: a full Lath reset (03 R133). -/
def execMcWatchdogExpiry (s : State) : Host.Outcome State Fault Refusal :=
  .next (if s.pins.aux then s.fullReset else s)

/-- I3C_ENTDAA: the MC gives its provisional ID, which holds the serial number, and takes a dynamic address (R634; what else the
ID holds the spec does not give, log entry 129). -/
def execI3cEntdaa (addr : BitVec 7) (s : State) : Host.Outcome State Fault Refusal :=
  .next (if s.pins.aux then { s with pins := { s.pins with i3c := some addr } }.send (.entdaa s.flash.serial addr) else s)

end Sys2Proof.Machine
end

