-- ==== Sys2Proof/Machine/Control.lean ====
section
/-!
DEFINITION. Branches and jumps (02 R53 R54).
-/

namespace Sys2Proof.Machine

/-- A branch issues: the next PC is the target when the condition holds (02 R53). -/
def State.branch (s : State) (lc : Nat) (k : Cond) (rs1 rs2 : BitVec 5) (off : BitVec 12) : State :=
  s.scalar lc (.br k rs1 rs2 off) fun c =>
    if condHolds k (c.rx rs1) (c.rx rs2) then { c with pc := target c.pc off - 4 } else c

/-- BR.EQ, 02 R53. -/
def execBrEq (lc : Nat) (rs1 rs2 : BitVec 5) (off : BitVec 12) (s : State) : Host.Outcome State Fault Refusal :=
  .next (s.branch lc .eq rs1 rs2 off)

/-- BR.NE, 02 R53. -/
def execBrNe (lc : Nat) (rs1 rs2 : BitVec 5) (off : BitVec 12) (s : State) : Host.Outcome State Fault Refusal :=
  .next (s.branch lc .ne rs1 rs2 off)

/-- BR.LT, 02 R53. -/
def execBrLt (lc : Nat) (rs1 rs2 : BitVec 5) (off : BitVec 12) (s : State) : Host.Outcome State Fault Refusal :=
  .next (s.branch lc .lt rs1 rs2 off)

/-- BR.GE, 02 R53. -/
def execBrGe (lc : Nat) (rs1 rs2 : BitVec 5) (off : BitVec 12) (s : State) : Host.Outcome State Fault Refusal :=
  .next (s.branch lc .ge rs1 rs2 off)

/-- BR.LTU, 02 R53. -/
def execBrLtu (lc : Nat) (rs1 rs2 : BitVec 5) (off : BitVec 12) (s : State) : Host.Outcome State Fault Refusal :=
  .next (s.branch lc .ltu rs1 rs2 off)

/-- BR.GEU, 02 R53. -/
def execBrGeu (lc : Nat) (rs1 rs2 : BitVec 5) (off : BitVec 12) (s : State) : Host.Outcome State Fault Refusal :=
  .next (s.branch lc .geu rs1 rs2 off)

/-- The address of the next instruction, as a jump writes it into rd (02 R54). -/
def link (c : Core) : Word := (c.pc + 4).setWidth 64

/-- JAL: the return address into rd, then to its own address plus off20 * 4 (02 R54). -/
def execJal (lc : Nat) (rd : BitVec 5) (off : BitVec 20) (s : State) : Host.Outcome State Fault Refusal :=
  .next (s.scalar lc (.jal rd off) fun c => { c.wx rd (link c) with pc := target c.pc off - 4 })

/-- JALR: the return address into rd, then to rs1 + imm15; a target with bit 0 or 1 set raises ALIGN and writes
neither (02 R54). Bits [63:44] of the sum lie outside the 44-bit PC and are cut (log entry 10). -/
def execJalr (lc : Nat) (rd rs1 : BitVec 5) (imm : BitVec 15) (s : State) : Host.Outcome State Fault Refusal :=
  let i : Flik := .jalr rd rs1 imm
  let t := (s.core lc).rx rs1 + sext imm
  if s.canIssue lc i ∧ t.toNat % 4 ≠ 0 then .next (s.excAt lc i 3 0 t)
  else .next (s.scalar lc i fun c => { c.wx rd (link c) with pc := (c.rx rs1 + sext imm).setWidth 44 - 4 })

end Sys2Proof.Machine
end

