-- ==== Sys2Proof/Machine/Descriptors.lean ====
section
/-!
DEFINITION. Descriptor registers and summary slots (02 R56-R58 R79).
-/

namespace Sys2Proof.Machine

/-- DLD: 64 bytes into a descriptor register (02 R56), as an outstanding load. -/
def execDld (lc : Nat) (dn : BitVec 4) (xs : BitVec 5) (imm : BitVec 16) (s : State) :
    Host.Outcome State Fault Refusal :=
  .next (s.issueLoad lc (.dld dn xs imm) (.d dn) (descAddr xs imm))

/-- DST: a descriptor register to 64 bytes (02 R56). -/
def execDst (lc : Nat) (dn : BitVec 4) (xs : BitVec 5) (imm : BitVec 16) (s : State) :
    Host.Outcome State Fault Refusal :=
  .next (s.issueStore lc (.dst dn xs imm) 64 (descAddr xs imm) fun c => leBytes 64 (c.rd dn).toNat)

/-- DSET: word w of a descriptor register = xs (02 R57). -/
def execDset (lc : Nat) (dn : BitVec 4) (w : BitVec 3) (xs : BitVec 5) (s : State) :
    Host.Outcome State Fault Refusal :=
  .next (s.scalar lc (.dset dn w xs) fun c => c.wd dn (setDword (c.rd dn) w.toNat (c.rx xs)))

/-- DGET: xd = word w of a descriptor register (02 R57). -/
def execDget (lc : Nat) (xd : BitVec 5) (dn : BitVec 4) (w : BitVec 3) (s : State) :
    Host.Outcome State Fault Refusal :=
  .next (s.scalarX lc (.dget xd dn w) xd fun c => dword (c.rd dn) w.toNat)

/-- DCPY: dN = dM (02 R57). -/
def execDcpy (lc : Nat) (dn dm : BitVec 4) (s : State) : Host.Outcome State Fault Refusal :=
  .next (s.scalar lc (.dcpy dn dm) fun c => c.wd dn (c.rd dm))

/-- DZERO: dN = 0 (02 R57). -/
def execDzero (lc : Nat) (dn : BitVec 4) (s : State) : Host.Outcome State Fault Refusal :=
  .next (s.scalar lc (.dzero dn) fun c => c.wd dn 0)

/-- A field of a summary slot (02 R58). -/
def Summary.field (m : Summary) (f : BitVec 3) : Word :=
  match f.toNat with
  | 0 => m.max
  | 1 => m.min
  | 2 => m.sum
  | 3 => m.nnz
  | 4 => m.argmax
  | 5 => m.flags
  | 6 => m.status
  | _ => m.seq

/-- SUMRD: one field of a summary slot's current contents (02 R58 R79). -/
def execSumrd (lc : Nat) (xd : BitVec 5) (slot field : BitVec 3) (s : State) : Host.Outcome State Fault Refusal :=
  .next (s.scalarX lc (.sumrd xd slot field) xd fun c => c.sum[slot.toNat].field field)

end Sys2Proof.Machine
end

