-- ==== Sys2Proof/Machine/Kv.lean ====
section
/-!
DEFINITION. The KV table (10 R323-R344 R357-R361): sequence descriptors, page-table entries, the agent's holds and
edits, the walker, STC.PTEDIT and STC.BUCKET. The table stands in memory, in the hod global view.
-/

namespace Sys2Proof.Machine

/-! ### The table (R323-R325) -/

/-- STC_KV_CONFIG.EN. -/
def State.kvOn (s : State) : Bool := decide (s.rf .kvConfig 0 1 = 1)

/-- The table's first address. -/
def State.kvBase (s : State) : Nat := s.rf .kvConfig 20 24 * 2 ^ 20

/-- Bytes of the table, and whether poison was read. -/
def State.kvRead (s : State) (o len : Nat) : List Byte × Bool :=
  match s.resolve none (s.kvBase + o) with
  | .hod k => (memGets s.mem k len, s.runPoisoned k len)
  | _ => (List.replicate len 0, true)

/-- A write of the table. -/
def State.kvWrite (s : State) (o : Nat) (bs : List Byte) : State :=
  match s.resolve none (s.kvBase + o) with
  | .hod k => s.writeRun k bs
  | _ => s

/-- The offset of entry e of block b. -/
def entryOff (b e : Nat) : Nat := (b * 32 + e) * 8

/-- A page-table entry, and whether it is uncorrectable. -/
def State.kvEntry (s : State) (b e : Nat) : Word × Bool :=
  let (bs, p) := s.kvRead (entryOff b e) 8
  (BitVec.ofNat 64 (leNat bs), p)

/-- A page-table entry written. -/
def State.putEntry (s : State) (b e : Nat) (w : Word) : State := s.kvWrite (entryOff b e) (leBytes 8 w.toNat)

/-- VALID of an entry. -/
def eValid (w : Word) : Bool := bitAt w 63

/-- STATE of an entry: 1 LIVE, 2 DROPPED, 3 LINK. -/
def eState (w : Word) : Nat := fld w 61 2

/-! ### Sequence descriptors (R329) -/

/-- A sequence descriptor. -/
structure SeqD where
  head : Nat
  region : Nat
  active : Bool
  len : Nat
  tail : Nat
  npages : Nat
  holds : Nat
  defer : Nat
  step : Nat
  deriving DecidableEq, Repr

/-- A sequence descriptor read, and whether it is uncorrectable. -/
def State.seqD (s : State) (n : Nat) : SeqD × Bool :=
  let (bs, p) := s.kvRead (0x400000 + n * 32) 32
  let w (i : Nat) : Word := BitVec.ofNat 64 (leNat ((bs.drop (8 * i)).take 8))
  (⟨fld (w 0) 0 14, fld (w 0) 16 4, bitAt (w 0) 31, fld (w 0) 32 32, fld (w 1) 0 14, fld (w 1) 32 32, fld (w 2) 0 16,
    fld (w 2) 16 5, fld (w 2) 32 32⟩, p)

/-- A sequence descriptor written. -/
def State.putSeq (s : State) (n : Nat) (d : SeqD) : State :=
  s.kvWrite (0x400000 + n * 32)
    (leBytes 8 (d.head + d.region * 2 ^ 16 + b2n d.active * 2 ^ 31 + d.len % 2 ^ 32 * 2 ^ 32)
      ++ leBytes 8 (d.tail + d.npages % 2 ^ 32 * 2 ^ 32)
      ++ leBytes 8 (d.holds % 2 ^ 16 + d.defer % 32 * 2 ^ 16 + d.step % 2 ^ 32 * 2 ^ 32) ++ leBytes 8 0)

/-! ### Regions (R326-R328) -/

/-- The shape of a region; TPP is 0 where the region is not valid. -/
structure RegionD where
  ps : Nat
  dim : Nat
  hkv : Nat
  ebits : Nat
  tpp : Nat
  deriving DecidableEq, Repr

/-- A region. -/
def State.region (s : State) (r : Nat) : RegionD :=
  let w := s.reg (.kvRegion r)
  ⟨2 ^ fld w 0 5, fld w 8 9, fld w 17 4 + 1, regionEbits w, regionTpp w⟩

/-- Bytes of a 64-token block of one head. -/
def RegionD.block (r : RegionD) : Nat := 64 * r.dim * r.ebits / 8

/-- Bytes of a slab. -/
def RegionD.slab (r : RegionD) : Nat := r.tpp * r.dim * r.ebits / 8

/-- FRAME keeps R328: a multiple of PS, its range wholly in the interleaved view, the plumb view or the hod view. -/
def State.frameOk (s : State) (r : RegionD) (a : Nat) : Bool :=
  decide (a % r.ps = 0)
    && (decide (a + r.ps ≤ 2 ^ 39) || (decide (2 ^ 39 ≤ a) && decide (a + r.ps ≤ 2 ^ 40))
      || (decide (0x10000000000 ≤ a) && decide (a + r.ps ≤ s.hodTop + 1)))

/-- FORMAT and SCALE keep R328. -/
def scaleOk (r : RegionD) (w : Word) : Bool :=
  match fmtOf (fld w 57 4) with
  | some f => f.rank.isSome && f.bits == r.ebits && (f.scalable || fld w 49 8 == 127)
  | none => false

/-! ### The walker (R325 R333 R344) -/

/-- The block n hops along a chain, or the reason that stops the walk. -/
def State.chainBlock (s : State) : Nat → Nat → Except Nat Nat
  | 0, b => .ok b
  | n + 1, b =>
    let (w, p) := s.kvEntry b 31
    if p then .error 4 else if eValid w && eState w == 3 then s.chainBlock n (fld w 0 14) else .error 2

/-- A page of a walk: its frame and its scale byte. -/
structure KPage where
  frame : Nat
  scale : Nat
  deriving DecidableEq, Repr

/-- Page j of a chain, or the reason that stops the walk. -/
def State.pageAt (s : State) (head : Nat) (r : RegionD) (fmt j : Nat) : Except Nat KPage :=
  match s.chainBlock (j / 31) head with
  | .error e => .error e
  | .ok b =>
    let (w, p) := s.kvEntry b (j % 31)
    if p then .error 4
    else if !eValid w || eState w == 0 || eState w == 3 then .error 2
    else if eState w = 2 then .error 1
    else if fld w 57 4 ≠ fmt || !scaleOk r w then .error 3
    else if !s.frameOk r (fld w 0 48) then .error 5
    else .ok ⟨fld w 0 48, fld w 49 8⟩

/-- Page j is LIVE, whatever its entry says else. -/
def State.pageLive (s : State) (head : Nat) (r : RegionD) (fmt j : Nat) : Bool :=
  match s.pageAt head r fmt j with
  | .ok _ => true
  | .error e => e == 3 || e == 5

/-- How a walk stops: REASON, FIRST and LAST where a page bounds them, MORE, and whether an uncorrectable entry or
descriptor was read. -/
structure WStop where
  reason : Nat
  span : Option (Nat × Nat)
  more : Bool
  poi : Bool
  deriving DecidableEq, Repr

/-- A stop at page j. -/
def stopAt (r : RegionD) (len reason j : Nat) : WStop :=
  ⟨reason, some (j * r.tpp, min ((j + 1) * r.tpp) len - 1), false, reason == 4⟩

/-- The last page of the run of DROPPED pages from j, at most n pages on. -/
def State.dropRun (s : State) (head : Nat) (r : RegionD) (fmt : Nat) : Nat → Nat → Nat
  | 0, j => j
  | n + 1, j => match s.pageAt head r fmt (j + 1) with
    | .error 1 => s.dropRun head r fmt n (j + 1)
    | _ => j

/-- The stop that page j's entry gives, p1 being the last page of the span (R344). -/
def State.entryStop (s : State) (head : Nat) (r : RegionD) (fmt len j p1 reason : Nat) : WStop :=
  if reason = 1 then
    let k := s.dropRun head r fmt (p1 - j) j
    ⟨1, some (j * r.tpp, min ((k + 1) * r.tpp) len - 1),
     (List.range (p1 - k)).any fun i => !s.pageLive head r fmt (k + 1 + i),
     (List.range (p1 - k)).any fun i => match s.pageAt head r fmt (k + 1 + i) with
      | .error e => e == 4
      | .ok _ => false⟩
  else stopAt r len reason j

/-- The offsets within its page of key block t (64 tokens) of a head: keys and values. -/
def RegionD.places (r : RegionD) (h t : Nat) : Nat × Nat :=
  (2 * h * r.slab + t * r.block, (2 * h + 1) * r.slab + t * r.block)

/-- A block of frame bytes meets a memory controller in reset (03 R134). -/
def State.portAt (s : State) (a len : Nat) : Bool :=
  (blocks 64 (len + 1) a len).any fun b => s.chanReset (s.resolve none b.1)

/-- The pages of key blocks b0 to b1, in order, up to the stop of the walk where there is one: entries in page order, each
page's frame fetched before the next entry is acted on. -/
def State.walk (s : State) (q : SeqD) (r : RegionD) (fmt head len b0 b1 : Nat) : List (Nat × KPage) × Option WStop :=
  let per := r.tpp / 64
  let p0 := b0 / per
  let p1 := b1 / per
  (List.range (p1 + 1 - p0)).foldl (fun (acc : List (Nat × KPage) × Option WStop) i =>
    if acc.2.isSome then acc
    else
      let j := p0 + i
      match s.pageAt q.head r fmt j with
      | .error reason => (acc.1, some (s.entryStop q.head r fmt len j p1 reason))
      | .ok p =>
        let lo := max b0 (j * per)
        let hi := min b1 (j * per + per - 1)
        if (List.range (hi + 1 - lo)).any fun t =>
            let (ko, vo) := r.places head ((lo + t) % per)
            s.portAt (p.frame + ko) r.block || s.portAt (p.frame + vo) r.block then
          (acc.1, some (stopAt r len 6 j))
        else (acc.1 ++ [(j, p)], none)) ([], none)

/-- Frame bytes fetched, with the poison of each 64-byte granule. -/
def State.fetchFrame (s : State) (lc a len : Nat) : State × List Byte × List Bool :=
  (blocks 64 (len + 1) a len).foldl (fun r b =>
    let l := r.1.resolve (some lc) b.1
    let p := r.1.granPoisoned l
    let (s, bs, _) := r.1.readBlock l b.2
    (s, r.2.1 ++ bs, r.2.2 ++ [p])) (s, [], [])

/-- The frame bytes of a key block on a page of a head: keys, then values. -/
def RegionD.frames (r : RegionD) (head : Nat) (ps : List (Nat × KPage)) (b : Nat) : Option (Nat × Nat) :=
  (ps.lookup (b / (r.tpp / 64))).map fun p =>
    let (ko, vo) := r.places head (b % (r.tpp / 64))
    (p.frame + ko, p.frame + vo)

/-- The frames of key blocks are reached now: the clock of the half runs and no pass of a Roller holds their banks (11
R389). -/
def State.framesReach (s : State) (lc : Nat) (r : RegionD) (head : Nat) (ps : List (Nat × KPage)) (bs : List Nat) : Bool :=
  bs.all fun b => match r.frames head ps b with
    | none => true
    | some (k, v) => (List.range (r.block / 256)).all fun i =>
      s.reaches lc (s.resolve (some lc) (k + 256 * i)) && s.reaches lc (s.resolve (some lc) (v + 256 * i))

/-- Frame bytes are staged at an offset of the hawk, poisoned granules with their poison (R347). -/
def State.stageRun (s : State) (lc src len dst : Nat) : State :=
  let (s, bs, poi) := s.fetchFrame lc src len
  let s := s.hawkWrite lc dst bs
  (List.range poi.length).foldl (fun s g => if poi.getD g false then s.hawkPoison lc (dst + 64 * g) 1 else s) s

/-- Key blocks are staged in a slot of the ring that takes nb of them: keys, then values (R347). -/
def State.stage (s : State) (lc : Nat) (r : RegionD) (head : Nat) (ps : List (Nat × KPage)) (nb slot : Nat) (bs : List Nat) :
    State :=
  bs.foldl (fun s b => match r.frames head ps b with
    | none => s
    | some (k, v) => (s.stageRun lc k r.block (slot + b % nb * r.block)).stageRun lc v r.block
      (slot + nb * r.block + b % nb * r.block)) s

/-- One stopped entry is counted (R363). -/
def State.countStop (s : State) : State := s.incRf .kvStatus 48 16 1

/-! ### Holds (R332) -/

/-- A hold is taken: HOLDS and STEP rise, LEN is the step length. -/
def State.takeHold (s : State) (lc seq entry : Nat) : State :=
  let q := (s.seqD seq).1
  let st := (q.step + 1) % 2 ^ 32
  let s := s.putSeq seq { q with holds := q.holds + 1, step := st }
  let c := s.core lc
  s.setCore lc { c with held := c.held ++ [⟨seq, entry, st, q.len⟩] }

/-- A hold is released. -/
def State.dropHold (s : State) (lc : Nat) (h : Held) : State :=
  let c := s.core lc
  let s := s.setCore lc { c with held := c.held.erase h }
  let (q, p) := s.seqD h.seq
  if p then s else s.putSeq h.seq { q with holds := q.holds - 1 }

/-- Deferred edits of a sequence are due: no hold is left and edits wait (R338). -/
def State.editsDue (s : State) (seq : Nat) : Bool :=
  decide ((s.seqD seq).1.holds = 0) && s.deferred.any fun d => d.seq == seq

/-! ### Edits (R336-R339) -/

/-- An edit's operands. -/
structure Edit where
  op : Nat
  region : Nat
  seq : Nat
  arg : Nat
  blk : Nat
  value : Word

/-- An edit read. -/
def editOf (d : Desc) : Edit :=
  ⟨fld (dword d 0) 0 3, fld (dword d 0) 16 4, fld (dword d 0) 32 16, fld (dword d 1) 0 32, fld (dword d 1) 32 14,
   dword d 2⟩

/-- A field that the operation does not use, or a bit that no field names, is set; or OP is reserved (R336). -/
def editInvalid (d : Desc) : Bool :=
  let op := fld (dword d 0) 0 3
  let w0 := if op = 0 then [(0, 3), (16, 4), (32, 16)] else [(0, 3), (32, 16)]
  let w1 := (if op = 2 ∨ op = 3 ∨ op = 4 ∨ op = 5 then [(0, 32)] else []) ++ (if op = 0 ∨ op = 1 then [(32, 14)] else [])
  decide (op = 7) || !restZero d 3 || !onlyBits (dword d 0) w0 || !onlyBits (dword d 1) w1
    || (decide (op ≠ 1 ∧ op ≠ 4) && dword d 2 != 0)

/-- The edit reads BLK when it is applied. -/
def Edit.readsBlk (e : Edit) (q : SeqD) : Bool :=
  e.op == 0 || (e.op == 1 && q.npages != 0 && q.npages % 31 == 0)

/-- The block n hops along a chain by its entries 31. -/
def State.blockOf (s : State) : Nat → Nat → Nat
  | 0, b => b
  | n + 1, b => s.blockOf n (fld (s.kvEntry b 31).1 0 14)

/-- The places of the entries that an edit reads or writes in the chain of a sequence: pages from p on, and the links
that lead to them. -/
def State.tailPlaces (s : State) (q : SeqD) (p : Nat) : List (Nat × Nat) :=
  ((List.range (q.npages - p)).map fun i => (s.blockOf ((p + i) / 31) q.head, (p + i) % 31))
    ++ (((List.range (q.npages / 31)).filter fun k => decide (p ≤ 31 * (k + 1)) && decide (31 * (k + 1) < q.npages)).map
      fun k => (s.blockOf k q.head, 31))

/-- The faults of R337, checked against the state at the moment of applying, in their order. -/
def State.editFault (s : State) (e : Edit) (q : SeqD) : Option (BitVec 8) :=
  let r := s.region (if e.op = 0 then e.region else q.region)
  if (e.op == 0) == q.active then some 0x61
  else if (e.op = 3 ∨ e.op = 4) ∧ q.npages ≤ e.arg ∨ e.op = 5 ∧ q.npages < e.arg then some 0x62
  else if e.readsBlk q ∧ (List.range 32).any (fun i => eValid (s.kvEntry e.blk i).1) then some 0x63
  else if e.op = 2 ∧ (q.npages * r.tpp < q.len + e.arg ∨ 1048576 < q.len + e.arg) then some 0x64
  else if (e.op = 1 ∨ e.op = 4) ∧ ¬ (eValid e.value ∧ eState e.value = 1 ∧ scaleOk r e.value
      ∧ s.frameOk r (fld e.value 0 48)) then some 0x66
  else if r.tpp = 0 then some 0x67
  else none

/-- An entry that the edit reads is uncorrectable. -/
def State.editPoison (s : State) (e : Edit) (q : SeqD) : Bool :=
  let link (n : Nat) : Bool := (List.range n).any fun k => (s.kvEntry (s.blockOf k q.head) 31).2
  if e.readsBlk q then (List.range 32).any fun i => (s.kvEntry e.blk i).2
  else if e.op = 3 ∨ e.op = 4 then
    q.active && (link (e.arg / 31) || (e.op == 3 && (s.kvEntry (s.blockOf (e.arg / 31) q.head) (e.arg % 31)).2))
  else if e.op = 5 ∨ e.op = 6 then q.active && link ((q.npages - 1) / 31)
  else false

/-- An edit applied (R336): the table, and the number of entries written or cleared. -/
def State.edit (s : State) (e : Edit) (q : SeqD) : State × Nat :=
  let page := s.blockOf (e.arg / 31) q.head
  match e.op with
  | 0 => (s.putSeq e.seq { q with
      active := true, region := e.region, head := e.blk, tail := e.blk, len := 0, npages := 0, step := 0 }, 0)
  | 1 =>
    if e.readsBlk q then
      let s := s.putEntry q.tail 31 (BitVec.ofNat 64 (2 ^ 63 + 3 * 2 ^ 61 + e.blk))
      let s := s.putEntry e.blk 0 e.value
      (s.putSeq e.seq { q with npages := q.npages + 1, tail := e.blk }, 2)
    else ((s.putEntry q.tail (q.npages % 31) e.value).putSeq e.seq { q with npages := q.npages + 1 }, 1)
  | 2 => (s.putSeq e.seq { q with len := q.len + e.arg }, 0)
  | 3 =>
    let w := (s.kvEntry page (e.arg % 31)).1
    (s.putEntry page (e.arg % 31) (setFld (setFld w 61 2 2) 0 48 0), 1)
  | 4 => (s.putEntry page (e.arg % 31) e.value, 1)
  | 5 =>
    let ps := s.tailPlaces q e.arg
    let tail := s.blockOf ((e.arg - 1) / 31) q.head
    let tpp := (s.region q.region).tpp
    ((ps.foldl (fun s p => s.putEntry p.1 p.2 0) s).putSeq e.seq
      { q with npages := e.arg, len := min q.len (e.arg * tpp), tail := tail }, ps.length)
  | _ =>
    let ps := s.tailPlaces q 0
    ((ps.foldl (fun s p => s.putEntry p.1 p.2 0) s).putSeq e.seq { q with active := false, len := 0, npages := 0 },
     ps.length)

/-- The agent applies an edit: the state, the status, the entries written or cleared. -/
def State.applyEdit (s : State) (d : Desc) (ok : BitVec 8) : State × BitVec 8 × Nat :=
  let e := editOf d
  let (q, p) := s.seqD e.seq
  if p then (s, stPoisoned, 0)
  else match s.editFault e q with
    | some st => (s, st, 0)
    | none =>
      if s.editPoison e q then (s, stPoisoned, 0)
      else
        let (s, n) := s.edit e q
        (s, ok, n)

/-- An STC.PTEDIT performed: applied at once, or queued at the agent (R338). An edit that arrives while deferred edits
are due waits for them (R330). -/
def State.doEdit (s : State) (lc i : Nat) (e : UEntry) : State :=
  let d := e.ds.headD 0
  let op := fld (dword d 0) 0 3
  if e.begun then s
  else if editInvalid d then s.finish lc .stencil i stInvalid {}
  else if !s.kvOn then s.finish lc .stencil i 0x60 {}
  else
    let x := editOf d
    let (q, p) := s.seqD x.seq
    if !p && s.editsDue x.seq then s
    else if !p && ((decide (3 ≤ op) && q.holds != 0) || q.defer != 0) then
      if 16 ≤ q.defer then s.finish lc .stencil i 0x65 {}
      else
        let s := s.putSeq x.seq { q with defer := q.defer + 1 }
        let s : State := { s with deferred := s.deferred ++ [⟨lc, x.seq, d⟩] }
        (s.incRf .kvStatus 32 16 1).setEntry lc .stencil i { e with begun := true }
    else
      let (s, st, n) := s.applyEdit d stOk
      s.finish lc .stencil i st { nnz := BitVec.ofNat 64 n }

/-- The rows of STC.PTEDIT: row k works on an instruction whose OP is k, or reserved. -/
def State.ptedit (s : State) (lc k : Nat) (step : UStep UnitF) : State :=
  match step with
  | .issue f => s.dispatch lc (.stcPtedit f) false
  | .perform errs =>
    s.work lc .stencil anyOp (fun o => match o with | .stcPtedit _ => true | _ => false) fun s i e =>
      let op := fld (dword (e.ds.headD 0) 0) 0 3
      if op = k ∨ op = 7 then (s.meet errs).doEdit lc i e else s

/-- STC.PTEDIT INIT (R336). -/
def execStcPteditInit (lc : Nat) (step : UStep UnitF) (s : State) : Host.Outcome State Fault Refusal :=
  .next (s.ptedit lc 0 step)

/-- STC.PTEDIT APPEND (R336). -/
def execStcPteditAppend (lc : Nat) (step : UStep UnitF) (s : State) : Host.Outcome State Fault Refusal :=
  .next (s.ptedit lc 1 step)

/-- STC.PTEDIT EXTEND (R336). -/
def execStcPteditExtend (lc : Nat) (step : UStep UnitF) (s : State) : Host.Outcome State Fault Refusal :=
  .next (s.ptedit lc 2 step)

/-- STC.PTEDIT DROP (R336). -/
def execStcPteditDrop (lc : Nat) (step : UStep UnitF) (s : State) : Host.Outcome State Fault Refusal :=
  .next (s.ptedit lc 3 step)

/-- STC.PTEDIT REPLACE (R336). -/
def execStcPteditReplace (lc : Nat) (step : UStep UnitF) (s : State) : Host.Outcome State Fault Refusal :=
  .next (s.ptedit lc 4 step)

/-- STC.PTEDIT TRUNC (R336). -/
def execStcPteditTrunc (lc : Nat) (step : UStep UnitF) (s : State) : Host.Outcome State Fault Refusal :=
  .next (s.ptedit lc 5 step)

/-- STC.PTEDIT FREE (R336). -/
def execStcPteditFree (lc : Nat) (step : UStep UnitF) (s : State) : Host.Outcome State Fault Refusal :=
  .next (s.ptedit lc 6 step)

/-- One deferred edit applied: its instruction completes with DEFERRED, or with its fault. -/
def State.applyDeferred (s : State) (d : Deferred) : State :=
  let (s, st, n) := s.applyEdit d.desc stDeferred
  let (q, p) := s.seqD d.seq
  let s := if p then s else s.putSeq d.seq { q with defer := q.defer - 1 }
  match findEntry (fun e => e.begun && e.fin.isNone && (match e.op with | .stcPtedit _ => true | _ => false))
      (s.core d.lc).stcQ with
  | some (i, _) => s.finish d.lc .stencil i st { nnz := BitVec.ofNat 64 n }
  | none => s

/-- DEFERRED_EDIT_APPLY: with HOLDS at 0 the agent applies the queued edits of a sequence in arrival order (R338). Its reads
of the table meet errors. -/
def execDeferredEditApply (m : Met Nat) (s : State) : Host.Outcome State Fault Refusal :=
  let seq := m.val
  if s.kvOn && s.editsDue seq then
    let s := s.meet m.errs
    let ds := s.deferred.filter fun d => d.seq == seq
    let s := { s with deferred := s.deferred.filter fun d => d.seq != seq }
    .next (ds.foldl State.applyDeferred s)
  else .next s

/-- KV_TABLE_ENABLE: a write of STC_KV_CONFIG with EN 1 (R362). -/
def execKvTableEnable (req : Requester) (data : BitVec 64) (s : State) : Host.Outcome State Fault Refusal :=
  .next (if bitAt data 0 then s.writeRegs req (Reg.addr .kvConfig) (leBytes 8 data.toNat) else s)

/-- KV_TABLE_DISABLE: a write of STC_KV_CONFIG with EN 0 (R362). -/
def execKvTableDisable (req : Requester) (data : BitVec 64) (s : State) : Host.Outcome State Fault Refusal :=
  .next (if bitAt data 0 then s else s.writeRegs req (Reg.addr .kvConfig) (leBytes 8 data.toNat))

/-! ### STC.BUCKET (R357-R359) -/

/-- What STC.BUCKET checks, in the order of R355. -/
def State.bucketCheck (s : State) (d : Desc) : Option (BitVec 8) :=
  let src := fld (dword d 0) 0 21
  let n := fld (dword d 0) 32 16
  let edges := fld (dword d 1) 0 21
  let nb := fld (dword d 1) 24 7
  let dst := fld (dword d 2) 0 21
  let cnt := fld (dword d 2) 21 21
  let rs : List (Nat × Nat) := [(src, 2 * n), (edges, 4 * (nb - 1)), (dst, 4 * n), (cnt, 4 * nb)]
  let hit (a b : Nat × Nat) : Bool :=
    decide (0 < a.2) && decide (0 < b.2) && decide (a.1 < b.1 + b.2) && decide (b.1 < a.1 + a.2)
  if ¬ (restZero d 3 ∧ onlyBits (dword d 0) [(0, 21), (32, 16)] ∧ onlyBits (dword d 1) [(0, 21), (24, 7)]
      ∧ onlyBits (dword d 2) [(0, 42)] ∧ 1 ≤ n ∧ 1 ≤ nb ∧ nb ≤ 64) then some stInvalid
  else if src % 2 ≠ 0 ∨ edges % 4 ≠ 0 ∨ dst % 4 ≠ 0 ∨ cnt % 4 ≠ 0 then some stMisaligned
  else if !s.kvOn then some 0x60
  else if rs.any fun r => decide (0x200000 < r.1 + r.2) then some 0x56
  else if hit (dst, 4 * n) (src, 2 * n) || hit (dst, 4 * n) (edges, 4 * (nb - 1)) || hit (cnt, 4 * nb) (src, 2 * n)
      || hit (cnt, 4 * nb) (edges, 4 * (nb - 1)) || hit (dst, 4 * n) (cnt, 4 * nb) then some 0x55
  else none

/-- An STC.BUCKET performed. -/
def State.doBucket (s : State) (lc i : Nat) (e : UEntry) : State :=
  let d := e.ds.headD 0
  match s.bucketCheck d with
  | some st => s.finish lc .stencil i st {}
  | none =>
    let n := fld (dword d 0) 32 16
    let nb := fld (dword d 1) 24 7
    let dst := fld (dword d 2) 0 21
    let cnt := fld (dword d 2) 21 21
    let (sb, p1) := s.hawkRead lc (fld (dword d 0) 0 21) (2 * n)
    let (eb, p2) := s.hawkRead lc (fld (dword d 1) 0 21) (4 * (nb - 1))
    let seqs := (List.range n).map fun j => leNat ((sb.drop (2 * j)).take 2)
    let edges := (List.range (nb - 1)).map fun j => leNat ((eb.drop (4 * j)).take 4)
    let ds := seqs.map s.seqD
    let all := (seqs.zip ds).zipIdx
    let placed := all.filterMap fun x =>
      if x.1.2.1.active then
        some (x.1.1, x.2, x.1.2.1.npages, (edges.filter fun b => decide (b ≤ x.1.2.1.npages)).length)
      else none
    let left := all.filter fun x => !x.1.2.1.active
    let out := (List.range nb).reverse.flatMap fun k => (placed.filter fun x => x.2.2.2 == k).map fun x =>
      x.1 + x.2.1 * 2 ^ 16
    let counts := (List.range nb).map fun k => (placed.filter fun x => x.2.2.2 == k).length
    let poi := p1 || p2 || ds.any fun x => x.2
    let ob := out.flatMap (leBytes 4)
    let cb := counts.flatMap (leBytes 4)
    let s := (s.hawkWrite lc dst ob).hawkWrite lc cnt cb
    let s := if poi then (s.hawkPoison lc dst ob.length).hawkPoison lc cnt cb.length else s
    let ps := placed.map fun x => x.2.2.1
    s.finish lc .stencil i (if poi then stPoisoned else stOk)
      { max := BitVec.ofNat 64 (ps.foldl max 0), min := BitVec.ofNat 64 (ps.foldl min (ps.headD 0))
        sum := intSum (BitVec.ofNat 32 placed.length), nnz := BitVec.ofNat 64 left.length
        argmax := match left with | x :: _ => BitVec.ofNat 64 x.2 | [] => 0 }

/-- STC.BUCKET (R358). -/
def execStcBucket (lc : Nat) (step : UStep UnitF) (s : State) : Host.Outcome State Fault Refusal :=
  match step with
  | .issue f => .next (s.dispatch lc (.stcBucket f) false)
  | .perform errs =>
    .next (s.work lc .stencil anyOp (fun o => match o with | .stcBucket _ => true | _ => false) fun s i e =>
      (s.meet errs).doBucket lc i e)

end Sys2Proof.Machine
end

