-- ==== Sys2Proof/Machine/LoadStore.lean ====
section
/-!
DEFINITION. The scalar loads and stores (02 R49-R52 R63-R67). A load leaves an outstanding load whose data
LOAD_DATA_RETURN delivers; a store to the own hawk is performed at once, any other is posted.
-/

namespace Sys2Proof.Machine

/-- LB, 02 R49 R51. -/
def execLb (lc : Nat) (rd rs1 : BitVec 5) (imm : BitVec 12) (s : State) : Host.Outcome State Fault Refusal :=
  .next (s.issueLoad lc (.load .lb rd rs1 imm) (.x rd .lb) (memAddr rs1 imm))

/-- LH, 02 R49 R51. -/
def execLh (lc : Nat) (rd rs1 : BitVec 5) (imm : BitVec 12) (s : State) : Host.Outcome State Fault Refusal :=
  .next (s.issueLoad lc (.load .lh rd rs1 imm) (.x rd .lh) (memAddr rs1 imm))

/-- LW, 02 R49 R51. -/
def execLw (lc : Nat) (rd rs1 : BitVec 5) (imm : BitVec 12) (s : State) : Host.Outcome State Fault Refusal :=
  .next (s.issueLoad lc (.load .lw rd rs1 imm) (.x rd .lw) (memAddr rs1 imm))

/-- LD, 02 R49 R51. -/
def execLd (lc : Nat) (rd rs1 : BitVec 5) (imm : BitVec 12) (s : State) : Host.Outcome State Fault Refusal :=
  .next (s.issueLoad lc (.load .ld rd rs1 imm) (.x rd .ld) (memAddr rs1 imm))

/-- LBU, 02 R49 R51. -/
def execLbu (lc : Nat) (rd rs1 : BitVec 5) (imm : BitVec 12) (s : State) : Host.Outcome State Fault Refusal :=
  .next (s.issueLoad lc (.load .lbu rd rs1 imm) (.x rd .lbu) (memAddr rs1 imm))

/-- LHU, 02 R49 R51. -/
def execLhu (lc : Nat) (rd rs1 : BitVec 5) (imm : BitVec 12) (s : State) : Host.Outcome State Fault Refusal :=
  .next (s.issueLoad lc (.load .lhu rd rs1 imm) (.x rd .lhu) (memAddr rs1 imm))

/-- LWU, 02 R49 R51. -/
def execLwu (lc : Nat) (rd rs1 : BitVec 5) (imm : BitVec 12) (s : State) : Host.Outcome State Fault Refusal :=
  .next (s.issueLoad lc (.load .lwu rd rs1 imm) (.x rd .lwu) (memAddr rs1 imm))

/-- SB, 02 R50 R51 R66 R67. -/
def execSb (m : Met Nat) (rs2 rs1 : BitVec 5) (imm : BitVec 12) (s : State) : Host.Outcome State Fault Refusal :=
  .next (s.issueStore m.val (.store .sb rs2 rs1 imm) (StoreW.size .sb) (memAddr rs1 imm)
    (fun c => leBytes (StoreW.size .sb) (c.rx rs2).toNat) m.errs)

/-- SH, 02 R50 R51 R66 R67. -/
def execSh (m : Met Nat) (rs2 rs1 : BitVec 5) (imm : BitVec 12) (s : State) : Host.Outcome State Fault Refusal :=
  .next (s.issueStore m.val (.store .sh rs2 rs1 imm) (StoreW.size .sh) (memAddr rs1 imm)
    (fun c => leBytes (StoreW.size .sh) (c.rx rs2).toNat) m.errs)

/-- SW, 02 R50 R51 R66 R67. -/
def execSw (m : Met Nat) (rs2 rs1 : BitVec 5) (imm : BitVec 12) (s : State) : Host.Outcome State Fault Refusal :=
  .next (s.issueStore m.val (.store .sw rs2 rs1 imm) (StoreW.size .sw) (memAddr rs1 imm)
    (fun c => leBytes (StoreW.size .sw) (c.rx rs2).toNat) m.errs)

/-- ST, 02 R50 R51 R66 R67. -/
def execSt (lc : Nat) (rs2 rs1 : BitVec 5) (imm : BitVec 12) (s : State) : Host.Outcome State Fault Refusal :=
  .next (s.issueStore lc (.store .st rs2 rs1 imm) (StoreW.size .st) (memAddr rs1 imm)
    fun c => leBytes (StoreW.size .st) (c.rx rs2).toNat)

/-- ST.REL: a 64-bit store performed after every earlier scalar store of the core (02 R50 R67, 12 R441). While an
earlier store is posted, or a remote write that the release may cover is not acknowledged (13 R465), the core stalls at it;
where a covered write ended with PORT_RESET it is not performed (12 R441). -/
def execStRel (lc : Nat) (rs2 rs1 : BitVec 5) (imm : BitVec 12) (s : State) : Host.Outcome State Fault Refusal :=
  let c := s.core lc
  let a := memAddr rs1 imm c
  if s.canIssue lc (.store .stRel rs2 rs1 imm) ∧ s.addrCheck lc a 8 = none ∧ (c.stores ≠ [] ∨ s.orphaned lc) then
    .next (s.setCore lc { c with stall := .stRel a (c.rx rs2) })
  else if s.addrCheck lc a 8 = none ∧ setHas c.lost 5 then .next (s.scalar lc (.store .stRel rs2 rs1 imm) id)
  else
    .next (s.issueStore lc (.store .stRel rs2 rs1 imm) 8 (memAddr rs1 imm) fun c => leBytes 8 (c.rx rs2).toNat)

end Sys2Proof.Machine
end

