-- ==== Sys2Proof/Machine/Scalar.lean ====
section
/-!
DEFINITION. The integer instructions of the control core (02 R43 R44 R46-R48). A core that cannot issue the
instruction is left as it is (log entry 3).
-/

namespace Sys2Proof.Machine

/-- ADD: rs1 + rs2 modulo 2^64, 02 R43. -/
def execAdd (lc : Nat) (rd rs1 rs2 : BitVec 5) (s : State) : Host.Outcome State Fault Refusal :=
  .next (s.scalarX lc (.op .add rd rs1 rs2) rd fun c => alu .add (c.rx rs1) (c.rx rs2))

/-- SUB: rs1 - rs2 modulo 2^64, 02 R43. -/
def execSub (lc : Nat) (rd rs1 rs2 : BitVec 5) (s : State) : Host.Outcome State Fault Refusal :=
  .next (s.scalarX lc (.op .sub rd rs1 rs2) rd fun c => alu .sub (c.rx rs1) (c.rx rs2))

/-- AND: bitwise AND, 02 R43. -/
def execAnd (lc : Nat) (rd rs1 rs2 : BitVec 5) (s : State) : Host.Outcome State Fault Refusal :=
  .next (s.scalarX lc (.op .and rd rs1 rs2) rd fun c => alu .and (c.rx rs1) (c.rx rs2))

/-- OR: bitwise OR, 02 R43. -/
def execOr (lc : Nat) (rd rs1 rs2 : BitVec 5) (s : State) : Host.Outcome State Fault Refusal :=
  .next (s.scalarX lc (.op .or rd rs1 rs2) rd fun c => alu .or (c.rx rs1) (c.rx rs2))

/-- XOR: bitwise XOR, 02 R43. -/
def execXor (lc : Nat) (rd rs1 rs2 : BitVec 5) (s : State) : Host.Outcome State Fault Refusal :=
  .next (s.scalarX lc (.op .xor rd rs1 rs2) rd fun c => alu .xor (c.rx rs1) (c.rx rs2))

/-- SLL: rs1 shifted left by rs2[5:0], 02 R43. -/
def execSll (lc : Nat) (rd rs1 rs2 : BitVec 5) (s : State) : Host.Outcome State Fault Refusal :=
  .next (s.scalarX lc (.op .sll rd rs1 rs2) rd fun c => alu .sll (c.rx rs1) (c.rx rs2))

/-- SRL: rs1 shifted right by rs2[5:0], logical, 02 R43. -/
def execSrl (lc : Nat) (rd rs1 rs2 : BitVec 5) (s : State) : Host.Outcome State Fault Refusal :=
  .next (s.scalarX lc (.op .srl rd rs1 rs2) rd fun c => alu .srl (c.rx rs1) (c.rx rs2))

/-- SRA: rs1 shifted right by rs2[5:0], arithmetic, 02 R43. -/
def execSra (lc : Nat) (rd rs1 rs2 : BitVec 5) (s : State) : Host.Outcome State Fault Refusal :=
  .next (s.scalarX lc (.op .sra rd rs1 rs2) rd fun c => alu .sra (c.rx rs1) (c.rx rs2))

/-- SLT: 1 if rs1 < rs2 as signed values, 02 R43. -/
def execSlt (lc : Nat) (rd rs1 rs2 : BitVec 5) (s : State) : Host.Outcome State Fault Refusal :=
  .next (s.scalarX lc (.op .slt rd rs1 rs2) rd fun c => alu .slt (c.rx rs1) (c.rx rs2))

/-- SLTU: 1 if rs1 < rs2 as unsigned values, 02 R43. -/
def execSltu (lc : Nat) (rd rs1 rs2 : BitVec 5) (s : State) : Host.Outcome State Fault Refusal :=
  .next (s.scalarX lc (.op .sltu rd rs1 rs2) rd fun c => alu .sltu (c.rx rs1) (c.rx rs2))

/-- MIN: signed minimum, 02 R43. -/
def execMin (lc : Nat) (rd rs1 rs2 : BitVec 5) (s : State) : Host.Outcome State Fault Refusal :=
  .next (s.scalarX lc (.op .min rd rs1 rs2) rd fun c => alu .min (c.rx rs1) (c.rx rs2))

/-- MAX: signed maximum, 02 R43. -/
def execMax (lc : Nat) (rd rs1 rs2 : BitVec 5) (s : State) : Host.Outcome State Fault Refusal :=
  .next (s.scalarX lc (.op .max rd rs1 rs2) rd fun c => alu .max (c.rx rs1) (c.rx rs2))

/-- MINU: unsigned minimum, 02 R43. -/
def execMinu (lc : Nat) (rd rs1 rs2 : BitVec 5) (s : State) : Host.Outcome State Fault Refusal :=
  .next (s.scalarX lc (.op .minu rd rs1 rs2) rd fun c => alu .minu (c.rx rs1) (c.rx rs2))

/-- MAXU: unsigned maximum, 02 R43. -/
def execMaxu (lc : Nat) (rd rs1 rs2 : BitVec 5) (s : State) : Host.Outcome State Fault Refusal :=
  .next (s.scalarX lc (.op .maxu rd rs1 rs2) rd fun c => alu .maxu (c.rx rs1) (c.rx rs2))

/-- MUL: low 64 bits of the product, 02 R43. -/
def execMul (lc : Nat) (rd rs1 rs2 : BitVec 5) (s : State) : Host.Outcome State Fault Refusal :=
  .next (s.scalarX lc (.op .mul rd rs1 rs2) rd fun c => alu .mul (c.rx rs1) (c.rx rs2))

/-- MULH: high 64 bits of the signed product, 02 R43. -/
def execMulh (lc : Nat) (rd rs1 rs2 : BitVec 5) (s : State) : Host.Outcome State Fault Refusal :=
  .next (s.scalarX lc (.op .mulh rd rs1 rs2) rd fun c => alu .mulh (c.rx rs1) (c.rx rs2))

/-- MULHU: high 64 bits of the unsigned product, 02 R43. -/
def execMulhu (lc : Nat) (rd rs1 rs2 : BitVec 5) (s : State) : Host.Outcome State Fault Refusal :=
  .next (s.scalarX lc (.op .mulhu rd rs1 rs2) rd fun c => alu .mulhu (c.rx rs1) (c.rx rs2))

/-- DIV: signed quotient, rounded toward zero, 02 R44. -/
def execDiv (lc : Nat) (rd rs1 rs2 : BitVec 5) (s : State) : Host.Outcome State Fault Refusal :=
  .next (s.scalarX lc (.op .div rd rs1 rs2) rd fun c => alu .div (c.rx rs1) (c.rx rs2))

/-- DIVU: unsigned quotient, 02 R44. -/
def execDivu (lc : Nat) (rd rs1 rs2 : BitVec 5) (s : State) : Host.Outcome State Fault Refusal :=
  .next (s.scalarX lc (.op .divu rd rs1 rs2) rd fun c => alu .divu (c.rx rs1) (c.rx rs2))

/-- REM: signed remainder, 02 R44. -/
def execRem (lc : Nat) (rd rs1 rs2 : BitVec 5) (s : State) : Host.Outcome State Fault Refusal :=
  .next (s.scalarX lc (.op .rem rd rs1 rs2) rd fun c => alu .rem (c.rx rs1) (c.rx rs2))

/-- REMU: unsigned remainder, 02 R44. -/
def execRemu (lc : Nat) (rd rs1 rs2 : BitVec 5) (s : State) : Host.Outcome State Fault Refusal :=
  .next (s.scalarX lc (.op .remu rd rs1 rs2) rd fun c => alu .remu (c.rx rs1) (c.rx rs2))

/-- ADDI: as ADD with imm15, 02 R46. -/
def execAddi (lc : Nat) (rd rs1 : BitVec 5) (imm : BitVec 15) (s : State) : Host.Outcome State Fault Refusal :=
  .next (s.scalarX lc (.opi .addi rd rs1 imm) rd fun c => aluImm .addi (c.rx rs1) imm)

/-- ANDI: as AND with imm15, 02 R46. -/
def execAndi (lc : Nat) (rd rs1 : BitVec 5) (imm : BitVec 15) (s : State) : Host.Outcome State Fault Refusal :=
  .next (s.scalarX lc (.opi .andi rd rs1 imm) rd fun c => aluImm .andi (c.rx rs1) imm)

/-- ORI: as OR with imm15, 02 R46. -/
def execOri (lc : Nat) (rd rs1 : BitVec 5) (imm : BitVec 15) (s : State) : Host.Outcome State Fault Refusal :=
  .next (s.scalarX lc (.opi .ori rd rs1 imm) rd fun c => aluImm .ori (c.rx rs1) imm)

/-- XORI: as XOR with imm15, 02 R46. -/
def execXori (lc : Nat) (rd rs1 : BitVec 5) (imm : BitVec 15) (s : State) : Host.Outcome State Fault Refusal :=
  .next (s.scalarX lc (.opi .xori rd rs1 imm) rd fun c => aluImm .xori (c.rx rs1) imm)

/-- SLTI: as SLT with imm15, 02 R46. -/
def execSlti (lc : Nat) (rd rs1 : BitVec 5) (imm : BitVec 15) (s : State) : Host.Outcome State Fault Refusal :=
  .next (s.scalarX lc (.opi .slti rd rs1 imm) rd fun c => aluImm .slti (c.rx rs1) imm)

/-- SLLI, 02 R47. -/
def execSlli (lc : Nat) (rd rs1 : BitVec 5) (sh : BitVec 6) (s : State) : Host.Outcome State Fault Refusal :=
  .next (s.scalarX lc (.shi .slli rd rs1 sh) rd fun c => shiftImm .slli (c.rx rs1) sh)

/-- SRLI, 02 R47. -/
def execSrli (lc : Nat) (rd rs1 : BitVec 5) (sh : BitVec 6) (s : State) : Host.Outcome State Fault Refusal :=
  .next (s.scalarX lc (.shi .srli rd rs1 sh) rd fun c => shiftImm .srli (c.rx rs1) sh)

/-- SRAI, 02 R47. -/
def execSrai (lc : Nat) (rd rs1 : BitVec 5) (sh : BitVec 6) (s : State) : Host.Outcome State Fault Refusal :=
  .next (s.scalarX lc (.shi .srai rd rs1 sh) rd fun c => shiftImm .srai (c.rx rs1) sh)

/-- LUI: sign_extend(imm20) * 2^12, 02 R48. -/
def execLui (lc : Nat) (rd : BitVec 5) (imm : BitVec 20) (s : State) : Host.Outcome State Fault Refusal :=
  .next (s.scalarX lc (.lui rd imm) rd fun _ => sext imm <<< 12)

end Sys2Proof.Machine
end

