-- ==== Sys2Proof/Machine/ScalarFp.lean ====
section
/-!
DEFINITION. The FP32 instructions of the control core (02 R45, 05 R178-R180 R194).
-/

namespace Sys2Proof.Machine

/-- The FP32 operand of a scalar register: its low 32 bits. -/
def lo32 (w : Word) : BitVec 32 := w.setWidth 32

/-- The value whose order FEQ, FLT and FLE compare: both zeros are 0. -/
def cmpKey (w : BitVec 32) : Int :=
  if w.getLsbD 31 then -((w.toNat % 2 ^ 31 : Nat) : Int) else (w.toNat : Int)

/-- The result of an OPF instruction with two sources (02 R45). -/
def falu (f : FpOp) (a b : Word) : Word :=
  let x := lo32 a
  let y := lo32 b
  let bad := (fp32 x).isNan || (fp32 y).isNan
  match f with
  | .fadd => (fadd32 x y).setWidth 64
  | .fsub => (fsub32 x y).setWidth 64
  | .fmul => (fmul32 x y).setWidth 64
  | .fmin => (fmin32 x y).setWidth 64
  | .fmax => (fmax32 x y).setWidth 64
  | .feq => flag (!bad && decide (cmpKey x = cmpKey y))
  | .flt => flag (!bad && decide (cmpKey x < cmpKey y))
  | .fle => flag (!bad && decide (cmpKey x ≤ cmpKey y))

/-- FCVT.S.L: a signed 64-bit value to FP32 (02 R45). -/
def cvtSL (a : Word) : Word := (toFp32 (Num.ofInt a.toInt)).setWidth 64

/-- FCVT.L.S: FP32 to a signed 64-bit value, toward zero, held at the bounds; NaN gives 0 (02 R45). -/
def cvtLS (a : Word) : Word :=
  match fp32 (lo32 a) with
  | .nan => 0
  | .inf neg => if neg then 0x8000000000000000#64 else 0x7FFFFFFFFFFFFFFF#64
  | .fin neg m e =>
    let n := if 0 ≤ e then m * 2 ^ e.toNat else m / 2 ^ (-e).toNat
    if neg then (if 2 ^ 63 ≤ n then 0x8000000000000000#64 else -(BitVec.ofNat 64 n))
    else if 2 ^ 63 ≤ n then 0x7FFFFFFFFFFFFFFF#64 else BitVec.ofNat 64 n

/-- FADD, 02 R45. -/
def execFadd (lc : Nat) (rd rs1 rs2 : BitVec 5) (s : State) : Host.Outcome State Fault Refusal :=
  .next (s.scalarX lc (.opf .fadd rd rs1 rs2) rd fun c => falu .fadd (c.rx rs1) (c.rx rs2))

/-- FSUB, 02 R45. -/
def execFsub (lc : Nat) (rd rs1 rs2 : BitVec 5) (s : State) : Host.Outcome State Fault Refusal :=
  .next (s.scalarX lc (.opf .fsub rd rs1 rs2) rd fun c => falu .fsub (c.rx rs1) (c.rx rs2))

/-- FMUL, 02 R45. -/
def execFmul (lc : Nat) (rd rs1 rs2 : BitVec 5) (s : State) : Host.Outcome State Fault Refusal :=
  .next (s.scalarX lc (.opf .fmul rd rs1 rs2) rd fun c => falu .fmul (c.rx rs1) (c.rx rs2))

/-- FMIN, 02 R45. -/
def execFmin (lc : Nat) (rd rs1 rs2 : BitVec 5) (s : State) : Host.Outcome State Fault Refusal :=
  .next (s.scalarX lc (.opf .fmin rd rs1 rs2) rd fun c => falu .fmin (c.rx rs1) (c.rx rs2))

/-- FMAX, 02 R45. -/
def execFmax (lc : Nat) (rd rs1 rs2 : BitVec 5) (s : State) : Host.Outcome State Fault Refusal :=
  .next (s.scalarX lc (.opf .fmax rd rs1 rs2) rd fun c => falu .fmax (c.rx rs1) (c.rx rs2))

/-- FEQ, 02 R45. -/
def execFeq (lc : Nat) (rd rs1 rs2 : BitVec 5) (s : State) : Host.Outcome State Fault Refusal :=
  .next (s.scalarX lc (.opf .feq rd rs1 rs2) rd fun c => falu .feq (c.rx rs1) (c.rx rs2))

/-- FLT, 02 R45. -/
def execFlt (lc : Nat) (rd rs1 rs2 : BitVec 5) (s : State) : Host.Outcome State Fault Refusal :=
  .next (s.scalarX lc (.opf .flt rd rs1 rs2) rd fun c => falu .flt (c.rx rs1) (c.rx rs2))

/-- FLE, 02 R45. -/
def execFle (lc : Nat) (rd rs1 rs2 : BitVec 5) (s : State) : Host.Outcome State Fault Refusal :=
  .next (s.scalarX lc (.opf .fle rd rs1 rs2) rd fun c => falu .fle (c.rx rs1) (c.rx rs2))

/-- FCVT.S.L, 02 R45. -/
def execFcvtSL (lc : Nat) (rd rs1 : BitVec 5) (s : State) : Host.Outcome State Fault Refusal :=
  .next (s.scalarX lc (.fcvtSL rd rs1) rd fun c => cvtSL (c.rx rs1))

/-- FCVT.L.S, 02 R45. -/
def execFcvtLS (lc : Nat) (rd rs1 : BitVec 5) (s : State) : Host.Outcome State Fault Refusal :=
  .next (s.scalarX lc (.fcvtLS rd rs1) rd fun c => cvtLS (c.rx rs1))

end Sys2Proof.Machine
end

