-- ==== Sys2Proof/Machine/Attention.lean ====
section
/-!
DEFINITION. What STC.FWD, STC.BWD and STC.DEC share (09 R292-R302): products at their depth, the recurrence of a row
over its chunks, the class of a row and what it writes, byte ranges and walks.
-/

namespace Sys2Proof.Machine

/-! ### Products (R295, 05 R187-R192 R215) -/

/-- A code of a Trowel operand format. -/
def isOperand (c : Nat) : Bool := match fmtOf c with
  | some f => f.rank.isSome
  | none => false

/-- A code that PFMT and DSFMT may name. -/
def isProb (c : Nat) : Bool := decide (1 ≤ c) && decide (c ≤ 4)

/-- The depth of two formats, and whether their accumulator is INT32. -/
def depthOf (a b : Fmt) : Nat × Bool := pairDepth (a.rank.getD 5) (b.rank.getD 5)

/-- The bank value that one MMA with INIT leaves in a cell of these products, in K order, as an FP32 code: thin mode
takes the groups in four bands and combines them. -/
def dot (thin : Bool) (d : Nat × Bool) (ts : List Num) : BitVec 32 :=
  let gs := chunksOf d.1 (ts.length + 1) ts
  if thin then
    let gs := gs ++ List.replicate ((4 - gs.length % 4) % 4) []
    let p (b : Nat) : BitVec 32 := (cellRun d.2 0 false (bandOf true b gs)).1
    if d.2 then toFp32 (Num.ofInt (combine32 true (combine32 true (p 0) (p 1)) (combine32 true (p 2) (p 3))).toInt)
    else fadd32 (fadd32 (p 0) (p 1)) (fadd32 (p 2) (p 3))
  else
    let x := (cellRun d.2 0 false gs).1
    if d.2 then toFp32 (Num.ofInt x.toInt) else x

/-- Products of two lists of values. -/
def mulAll (a b : List Num) : List Num := (a.zip b).map fun x => x.1.mul x.2

/-! ### The recurrence (R299 R300) -/

/-- -Inf in FP32. -/
def negInf32 : BitVec 32 := 0xFF800000#32

/-- +Inf in FP32. -/
def posInf32 : BitVec 32 := 0x7F800000#32

/-- The state of a row, with the FLAGS bits of its unmasked scores. -/
structure ARow where
  m : BitVec 32
  l : BitVec 32
  o : List (BitVec 32)
  nan : Bool
  flags : Nat

/-- A row before its first chunk. -/
def ARow.start (d : Nat) : ARow := ⟨negInf32, 0, List.replicate d 0, false, 0⟩

/-- What fixes an instruction's arithmetic. -/
structure Attn where
  thin : Bool
  qk : Nat × Bool
  pv : Nat × Bool
  p : Fmt
  scale : BitVec 32
  dim : Nat
  chunk : Nat

/-- A present key: its place in the chunk, its K row, its V row. -/
structure AKey where
  pos : Nat
  k : List Num
  v : List Num

/-- What a chunk gives a row: t by place, and, unless the row is marked NaN, the codes of p by place, and a. -/
structure CRow where
  t : List (Nat × BitVec 32)
  pa : Option (List (Nat × Nat) × BitVec 32)

/-- The score t of a key (R299). -/
def Attn.score (a : Attn) (q : List Num) (masked : Bool) (k : AKey) : BitVec 32 :=
  if masked then negInf32 else fmul32 (dot a.thin a.qk (mulAll q k.k)) a.scale

/-- The codes of p, and a (R300). -/
def Attn.weights (a : Attn) (m m1 : BitVec 32) (ts : List (Nat × BitVec 32)) : List (Nat × Nat) × BitVec 32 :=
  let one := (a.p.conv .rne false (.fin false 1 0)).1
  if m1 = posInf32 then
    (ts.map fun t => (t.1, if t.2 = posInf32 then one else 0), if m = posInf32 then 0x3F800000#32 else 0)
  else if m1 = negInf32 then (ts.map fun t => (t.1, 0), 0x3F800000#32)
  else
    let ex (w : BitVec 32) : BitVec 32 := toFp32 (fp32 (fsub32 w m1)).exp
    (ts.map fun t => (t.1, (a.p.conv .rne false (fp32 (ex t.2))).1), ex m)

/-- The FMA of R263. -/
def fma32 (x y z : BitVec 32) : BitVec 32 := toFp32 ((fp32 z).add ((fp32 x).mul (fp32 y)))

/-- The V values of a head dimension. -/
def column (ks : List AKey) (d : Nat) : List Num := ks.map fun k => k.v.getD d (.zero false)

/-- One row over one chunk (R299 R300). -/
def Attn.step (a : Attn) (q : List Num) (masked : Nat → Bool) (ks : List AKey) (r : ARow) : ARow × CRow :=
  let ts := ks.map fun k => (k.pos, a.score q (masked k.pos) k)
  let r := { r with flags := (ts.filter fun (t : Nat × BitVec 32) => !masked t.1).foldl (fun (m : Nat) (t : Nat × BitVec 32) => m ||| (fp32 t.2).flags) r.flags }
  if r.nan ∨ ts.any (fun (t : Nat × BitVec 32) => (fp32 t.2).isNan) then ({ r with nan := true }, ⟨ts, none⟩)
  else
    let m1 := fmax32 r.m (ts.foldl (fun (m : BitVec 32) (t : Nat × BitVec 32) => fmax32 m t.2) negInf32)
    let (ps, al) := a.weights r.m m1 ts
    let pn := ps.map fun p => a.p.num p.2
    let sum := (redRow 1 (a.chunk + 1)
      ((List.range a.chunk).map fun j => (ps.lookup j).map fun c => ((toFp32 (a.p.num c), false) : RVal)) none).map
      fun x => x.1
    let o := (List.range a.dim).map fun d =>
      fma32 (r.o.getD d 0) al (dot a.thin a.pv (mulAll pn (column ks d)))
    ({ r with m := m1, l := fma32 r.l al (sum.getD 0), o := o }, ⟨ts, some (ps, al)⟩)

/-! ### The finish (R301 R302) -/

/-- The classes of a row. -/
inductive AClass
  | nan | allmask | inf | normal
  deriving DecidableEq, Repr

/-- The class of a row after its last chunk. -/
def ARow.cls (r : ARow) : AClass :=
  if r.nan then .nan else if r.m = negInf32 then .allmask else if r.m = posInf32 then .inf else .normal

/-- What a row writes: O codes, LSE, ROWINFO without its POISON bit. -/
def ARow.finish (r : ARow) (f : Fmt) : List Nat × BitVec 32 × Nat :=
  let div := r.o.map fun x => (f.conv .rne false (fp32 (toFp32 ((fp32 x).div (fp32 r.l))))).1
  let vnan := b2n (div.any fun c => (f.num c).isNan) * 16
  match r.cls with
  | .nan => (r.o.map fun _ => f.nanCode.getD 0, 0x7FC00000#32, 1)
  | .allmask => (r.o.map fun _ => 0, negInf32, 2)
  | .inf => (div, posInf32, 4 + vnan + (fp32 r.l).toInt.toNat % 2 ^ 24 * 256)
  | .normal => (div, fadd32 r.m (toFp32 (fp32 r.l).ln), vnan)

/-! ### Byte ranges -/

/-- A byte range: its first byte and the byte after its last. -/
abbrev Range := Int × Int

/-- A range that leaves the hawk. -/
def Range.outside (r : Range) : Bool := decide (r.1 < 0) || decide (0x200000 < r.2)

/-- A range of n bytes from an offset. -/
def rangeAt (o : Int) (n : Nat) : Range := (o, o + n)

/-- The ranges of rows of n bytes. -/
def rowRanges (base stride rows n : Nat) : List Range := (List.range rows).map fun i => rangeAt (base + i * stride : Nat) n

/-- The byte ranges that R251 forms of a walk: elements, and scales. -/
def Feed.ranges (f : Feed) : List Range :=
  (match f.extent FDim.stride (fun i => (f.dim i).ext) with
    | none => []
    | some (lo, hi) => [((f.span lo).1, (f.span hi).1 + ((f.span hi).2 : Nat))])
    ++ (if f.scaled then
        match f.extent FDim.sstride (fun i => if f.sdim = some i then ((f.dim i).ext - 1) / 32 + 1 else (f.dim i).ext) with
        | none => []
        | some (lo, hi) => [(f.sbase + lo, f.sbase + hi + 1)]
      else [])

/-- Two ranges share a byte. -/
def rangesMeet (a b : Range) : Bool := decide (a.1 < b.2) && decide (b.1 < a.2) && decide (a.1 < a.2) && decide (b.1 < b.2)

/-! ### Operands (R292-R294) -/

/-- A feed at another base. -/
def Feed.moved (f : Feed) (db ds : Int) : Feed := { f with base := f.base + db, sbase := f.sbase + ds }

/-- The transposed role: the LANE bit of every used dimension is inverted (R294). -/
def Feed.flip (f : Feed) : Feed :=
  { f with dims := f.dims.map fun x => if x.ext = 0 then x else { x with lane := !x.lane } }

/-- R292: CG 0, no window, one K dimension of extent D, and the lanes that `ok` asks. -/
def Feed.rowRole (f : Feed) (d : Nat) (ok : Feed → Bool) : Bool :=
  f.cg == 0 && f.used.isEmpty && (f.ks.map fun i => (f.dim i).ext) == [d] && ok f

/-- One lane dimension of extent 64. -/
def Feed.keyLanes (f : Feed) : Bool := (f.lanes.map fun i => (f.dim i).ext) == [64]

/-- The checks of R250 in the row role, and in the transposed role, where the lanes are cut into slices. -/
def Feed.checkRow (f : Feed) (d mask : Nat) : Option (BitVec 8) := f.check d mask 64

/-- The checks of R250 in the transposed role. -/
def Feed.checkFlip (f : Feed) : Option (BitVec 8) :=
  let g := f.flip
  g.check (g.prod g.ks) 0 (g.prod g.lanes)

/-- n values that a lane is fed at K indices 0 to n - 1, and whether poison was fed. -/
def State.fedRow (s : State) (lc : Nat) (f : Feed) (lane n : Nat) : List Num × Bool :=
  let l := (List.range n).map fun k => s.fed lc f lane k
  (l.map fun x => x.1.getD (.zero false), l.any fun x => x.2)

/-- n values at one K index over lanes 0 to n - 1. -/
def State.fedCol (s : State) (lc : Nat) (f : Feed) (k n : Nat) : List Num × Bool :=
  let l := (List.range n).map fun d => s.fed lc f d k
  (l.map fun x => x.1.getD (.zero false), l.any fun x => x.2)

/-- FP32 words as bytes. -/
def words32 (ws : List (BitVec 32)) : List Byte := ws.flatMap fun w => leBytes 4 w.toNat

/-- A value as numbers. -/
def Num.nums : Num → List Nat
  | .nan => [0]
  | .inf a => [1, b2n a]
  | .fin a m e => [2, b2n a, m, e.toNat, (-e).toNat]

/-- The numbers of an instruction's descriptors. -/
def UEntry.nums (e : UEntry) : List Nat := e.ds.map BitVec.toNat

/-- Bytes of the hawk that an instruction may have written: which of them, and with what, the spec does not state; the numbers
that the instruction depends on fix both, and a byte that is not written stays (09 R312; DESIGN CHOICE, log entry 109). -/
def State.scramble (s : State) (lc : Nat) (on : List Nat) (off len : Nat) : State :=
  let old := (s.hawkRead lc off len).1
  s.hawkWrite lc off ((List.range len).map fun i =>
    if (Config.left (1 :: on) i).getLsbD 0 then (Config.left (0 :: on) i).setWidth 8 else old.getD i 0)

/-- The errors of a command within byte ranges of the core's own hawk, and the others. -/
def State.splitErrs (s : State) (lc : Nat) (rs : List Range) (errs : List MemErr) : List MemErr × List MemErr :=
  errs.partition fun e => rs.any fun r =>
    decide ((hawkKey (s.siteOf lc) 0 : Int) + r.1 ≤ e.key) && decide ((e.key : Int) < (hawkKey (s.siteOf lc) 0 : Int) + r.2)

/-- An error that a read cannot correct. -/
def MemErr.uncorr (e : MemErr) : Bool := e.kind == .uncorr || e.kind == .hardUncorr

/-- The words of a run of the hawk are written unpoisoned (R303). -/
def State.hawkHeal (s : State) (lc off len : Nat) : State :=
  let k := hawkKey (s.siteOf lc) off / 8
  { s with poison := (List.range ((off % 8 + len + 7) / 8)).foldl (fun p i => setDel p (k + i)) s.poison }

/-! ### Buffers (R304, 10 R353) -/

/-- The score and p buffers of a chunk of n lanes as bytes, and a by row: absent keys -Inf and +0, disabled rows as wholly
masked ones (R304; in 10 R353's buffers DEDUCED, log entry 111); what a row marked NaN leaves in p and a is not stated (log
entry 109). -/
def buffers (n chunk : Nat) (p : Fmt) (on : List Nat) (crs : List CRow) : List Byte × List Byte × List (BitVec 32) :=
  let t (j i : Nat) : BitVec 32 := match crs[i]? with
    | some c => (c.t.lookup j).getD negInf32
    | none => negInf32
  let pc (j i : Nat) : Nat := match crs[i]? with
    | some c => (match c.pa with
      | some x => (x.1.lookup j).getD 0
      | none => if (c.t.lookup j).isSome then (Config.left on (n * j + i)).toNat else 0)
    | none => 0
  let al (i : Nat) : BitVec 32 := match crs[i]? with
    | some c => (match c.pa with
      | some x => x.2
      | none => (Config.left on (n * chunk + i)).setWidth 32)
    | none => 0x3F800000#32
  let cells := (List.range chunk).flatMap fun j => (List.range n).map fun i => (j, i)
  (cells.flatMap fun x => leBytes 4 (t x.1 x.2).toNat, cells.flatMap fun x => leBytes (p.bits / 8) (pc x.1 x.2),
   (List.range n).map al)

/-- STAT of a workspace of n lanes. -/
def statAt (n chunk dim ws : Nat) (p : Fmt) : Nat := ws + 8 * n * chunk + 2 * n * chunk * (p.bits / 8) + 4 * n * dim

/-- The buffers of an even or odd chunk written: SB, PB and a. -/
def State.putChunk (s : State) (lc n chunk dim ws : Nat) (p : Fmt) (on : List Nat) (par : Nat) (crs : List CRow) : State :=
  let (t, pc, al) := buffers n chunk p on crs
  let s := (s.hawkWrite lc (ws + par * (4 * n * chunk)) t).hawkWrite lc
    (ws + 8 * n * chunk + par * (n * chunk * (p.bits / 8))) pc
  s.hawkWrite lc (statAt n chunk dim ws p + 8 * n + 4 * n * par) (words32 al)

/-- OACC, m and l written; disabled rows as wholly masked ones, with OACC +0 whatever V holds (R298 lets a disabled row take no
product; DEDUCED, log entry 126). -/
def State.putRows (s : State) (lc n chunk dim ws : Nat) (p : Fmt) (rows : List ARow) : State :=
  let row (i : Nat) : ARow := rows.getD i (ARow.start dim)
  let st := statAt n chunk dim ws p
  let s := s.hawkWrite lc (st - 4 * n * dim) ((List.range n).flatMap fun i => words32 (row i).o)
  (s.hawkWrite lc st (words32 ((List.range n).map fun i => (row i).m))).hawkWrite lc (st + 4 * n)
    (words32 ((List.range n).map fun i => (row i).l))

/-- An FP32 word of the hawk, and whether its granule is poisoned. -/
def State.hawk32 (s : State) (lc off : Nat) : BitVec 32 × Bool :=
  let x := s.hawkGran lc off 4
  (BitVec.ofNat 32 (leNat x.1), x.2)

/-- NaN rows reported (R322). -/
def State.countNan (s : State) (lc n : Nat) : State := s.incRf (.stcStatus lc) 48 16 n

end Sys2Proof.Machine
end

