-- ==== Sys2Proof/Machine/Stencil.lean ====
section
/-!
DEFINITION. STC.FWD with its paged form (09 R289-R312 R319 R320, 10 R346-R348) and STC.BWD (09 R313-R318 R321).
-/

namespace Sys2Proof.Machine

/-! ### The header (R306) -/

/-- The header of STC.FWD and STC.BWD; formats that the checks refuse stand as FP32. -/
structure SHead where
  raw : Desc
  nk : Nat
  paged : Bool
  chunk : Nat
  dim : Nat
  rows : Nat
  grp : Nat
  fq : Fmt
  fk : Fmt
  fv : Fmt
  fo : Fmt
  p : Fmt
  out : Fmt
  scq : Bool
  sck : Bool
  scv : Bool
  sco : Bool
  causal : Bool
  bmask : Bool
  scale : BitVec 32
  qpos : Nat
  kpos : Nat
  window : Nat
  kb : Int
  ksb : Int
  vb : Int
  vsb : Int
  mbase : Nat
  mstr : Nat

/-- A header read. -/
def sheadOf (d : Desc) : SHead :=
  let w (i : Nat) : Word := dword d i
  let f (i lo : Nat) : Fmt := (fmtOf (fld (w i) lo 4)).getD .fp32
  { raw := d, nk := fld (w 0) 0 21, paged := bitAt (w 0) 23, chunk := 128 * 2 ^ fld (w 0) 21 2, dim := fld (w 0) 24 9
    rows := fld (w 0) 33 7, grp := fld (w 0) 40 2, fq := f 0 42, fk := f 0 46, fv := f 0 50, p := f 0 54, out := f 0 58
    scq := bitAt (w 1) 0, sck := bitAt (w 1) 1, scv := bitAt (w 1) 2, sco := bitAt (w 1) 3, causal := bitAt (w 1) 4
    bmask := bitAt (w 1) 5, fo := f 1 8, scale := (w 1 >>> 32).setWidth 32
    qpos := fld (w 2) 0 32, kpos := fld (w 2) 32 32, window := fld (w 3) 0 32
    kb := sfld (w 4) 0 32, ksb := sfld (w 4) 32 32, vb := sfld (w 5) 0 32, vsb := sfld (w 5) 32 32
    mbase := fld (w 6) 0 21, mstr := fld (w 6) 32 16 }

/-- SCALE is finite and greater than 0 (R299). -/
def scaleFine (w : BitVec 32) : Bool :=
  match fp32 w with
  | .fin neg m _ => !neg && m != 0
  | _ => false

/-- DESC_INVALID of a header: R295, R299, R306, and R346 where PAGED. -/
def SHead.invalid (h : SHead) (bwd : Bool) (k v : Feed) : Bool :=
  let w (i : Nat) : Word := dword h.raw i
  !onlyBits (w 0) [(0, 62)] || !onlyBits (w 1) [(0, 6), (8, 4), (32, 32)] || !onlyBits (w 3) [(0, 32)]
    || !onlyBits (w 6) [(0, 21), (32, 16)] || w 7 != 0
    || h.nk == 0 || decide (1048576 < h.nk) || decide (h.dim < 32) || decide (256 < h.dim) || h.dim % 32 != 0
    || h.rows == 0 || decide (64 < h.rows)
    || !isOperand (fld (w 0) 42 4) || !isOperand (fld (w 0) 46 4) || !isOperand (fld (w 0) 50 4)
    || !isProb (fld (w 0) 54 4) || !scaleFine h.scale
    || (if bwd then fld (w 0) 21 3 != 0 || !isOperand (fld (w 1) 8 4) || !isProb (fld (w 0) 58 4)
      else h.sco || fld (w 1) 8 4 != 0 || decide (2 < fld (w 0) 58 4))
    || (h.paged && (!onlyBits (w 4) [(0, 20)] || !onlyBits (w 5) [(0, 21)] || fld (w 5) 0 21 % 256 != 0
      || k.base != 0 || k.sbase != 0 || v.base != 0 || v.sbase != 0 || h.sck || h.scv || h.fk != h.fv))

/-- SHAPE (R292). -/
def SHead.shapeBad (h : SHead) (q k v : Feed) : Bool :=
  !q.rowRole h.dim (fun f => decide (h.rows ≤ f.prod f.lanes)) || !k.rowRole h.dim Feed.keyLanes
    || !v.rowRole h.dim Feed.keyLanes

/-- A scale bit on a format without scales (05 R189). -/
def SHead.scaleBad (h : SHead) : Bool :=
  (h.scq && !h.fq.scalable) || (h.sck && !h.fk.scalable) || (h.scv && !h.fv.scalable)

/-- Key blocks that hold a present key. -/
def SHead.nblocks (h : SHead) : Nat := (h.nk + 63) / 64

/-- The lane mask of the present keys of a block. -/
def SHead.keyMask (h : SHead) (b : Nat) : Nat := 2 ^ min 64 (h.nk - 64 * b) - 1

/-- The first and last blocks that hold a present key. -/
def SHead.ends (h : SHead) : List Nat := [0, h.nblocks - 1]

/-- Chunks. -/
def SHead.nchunks (h : SHead) : Nat := (h.nk + h.chunk - 1) / h.chunk

/-- The bytes of the bitmask that the instruction reads. -/
def SHead.maskRanges (h : SHead) : List Range :=
  if h.bmask then rowRanges h.mbase h.mstr h.rows ((h.nk + 7) / 8) else []

/-- Key k is masked for row i, and whether a poisoned byte said so (R297). -/
def State.masked (s : State) (lc : Nat) (h : SHead) (i k : Nat) : Bool × Bool :=
  let qp : Int := (h.qpos + i % (64 / 2 ^ h.grp) : Nat)
  let kp : Int := (h.kpos + k : Nat)
  let m := (h.causal && decide (qp < kp)) || (h.window != 0 && decide ((h.window : Int) ≤ qp - kp))
  if h.bmask then
    let (bs, p) := s.hawkGran lc (h.mbase + i * h.mstr + k / 8) 1
    (m || leNat bs / 2 ^ (k % 8) % 2 == 0, p)
  else (m, false)

/-! ### STC.FWD: outputs and workspace (R304 R307) -/

/-- The output descriptor of STC.FWD. -/
structure FOut where
  raw : Desc
  o : Nat
  ostr : Nat
  lse : Nat
  ri : Nat
  ws : Nat

/-- An output descriptor read. -/
def foutOf (d : Desc) : FOut :=
  ⟨d, fld (dword d 0) 0 21, fld (dword d 0) 32 16, fld (dword d 1) 0 21, fld (dword d 1) 21 21, fld (dword d 2) 0 21⟩

/-- Bytes of the forward workspace. -/
def SHead.wsSize (h : SHead) : Nat := h.chunk * (512 + 128 * (h.p.bits / 8)) + 256 * h.dim + 1024

/-- Bytes of a half slot of the staging ring: the keys, or the values, of a chunk (10 R347); its element size is that of FMT_K,
since the checks come before the sequence's region is known (DEDUCED, log entry 121). -/
def SHead.half (h : SHead) : Nat := h.chunk * h.dim * h.fk.bits / 8

/-- The staging ring's first byte (10 R346). -/
def SHead.stage (h : SHead) : Nat := fld (dword h.raw 5) 0 21

/-- K and V of block b: by their strides, or staged in the ring. -/
def SHead.blockFeeds (h : SHead) (k v : Feed) (b : Nat) : Feed × Feed :=
  if h.paged then
    let o : Int := (h.stage + b / (h.chunk / 64) % 5 * (2 * h.half) + b % (h.chunk / 64) * (64 * h.dim * h.fk.bits / 8) : Nat)
    (k.moved o 0, v.moved (o + (h.half : Nat)) 0)
  else (k.moved (b * h.kb) (b * h.ksb), v.moved (b * h.vb) (b * h.vsb))

/-- The ranges that STC.FWD writes beside its workspace. -/
def FOut.ranges (x : FOut) (h : SHead) : List Range :=
  rowRanges x.o x.ostr h.rows (h.dim * h.out.bits / 8) ++ [rangeAt x.lse (4 * h.rows), rangeAt x.ri (4 * h.rows)]

/-- The ranges of a block's feeds in the roles in which STC.FWD feeds them: V transposed (R294 R296 R300). -/
def feedRanges (f : Feed × Feed) : List Range := f.1.ranges ++ f.2.flip.ranges

/-- The checks of R319 for STC.FWD, in their order; `db` is the first descriptor register. -/
def SHead.fwdCheck (h : SHead) (x : FOut) (q k v : Feed) (db : Nat) : Option (BitVec 8) :=
  let ring : List Range := if h.paged then [rangeAt h.stage (10 * h.half)] else []
  let ws : List Range := [rangeAt x.ws h.wsSize]
  let ends := h.ends.map fun b => (b, h.blockFeeds k v b)
  let walks := (List.range h.nblocks).flatMap fun b => feedRanges (h.blockFeeds k v b)
  if decide (11 < db) || h.invalid false k v || q.badBits || k.badBits || v.badBits || !restZero x.raw 3
      || !onlyBits (dword x.raw 0) [(0, 21), (32, 16)] || !onlyBits (dword x.raw 1) [(0, 42)]
      || !onlyBits (dword x.raw 2) [(0, 21)] then some stInvalid
  else if (!h.paged && (h.kb % 64 != 0 || h.vb % 64 != 0)) || x.ws % 256 != 0 || x.o % 8 != 0 || x.ostr % 8 != 0
      || x.lse % 4 != 0 || x.ri % 4 != 0 then some stMisaligned
  else if h.shapeBad q k v then some 0x50
  else if h.scaleBad then some 0x51
  else match (q.checkRow h.dim (2 ^ h.rows - 1)).or ((ends.findSome? fun e => e.2.1.checkRow h.dim (h.keyMask e.1)).or
      (ends.findSome? fun e => e.2.2.checkFlip)) with
    | some st => some st
    | none =>
      if (x.ranges h ++ ws ++ ring ++ h.maskRanges).any Range.outside then some 0x56
      else
        let others := q.ranges ++ h.maskRanges ++ x.ranges h
        if (ws ++ ring).any (fun w => others.any (rangesMeet w)) || ws.any (fun w => (walks ++ ring).any (rangesMeet w))
        then some 0x55
        else none

/-! ### STC.FWD: the chunks -/

/-- What the instruction carries from chunk to chunk: the rows, the last even and odd chunk, poison read, the numbers of the
inputs read. -/
structure FRun where
  rows : List ARow
  even : Option (List CRow)
  odd : Option (List CRow)
  poi : Bool
  seen : List Nat

/-- The present keys of a chunk with their K and V rows, values times the page's scale, and whether poison was fed. -/
def State.chunkKeys (s : State) (lc : Nat) (h : SHead) (k v : Feed) (sc : Nat → Num) (c : Nat) : List AKey × Bool :=
  let l := (List.range (min h.chunk (h.nk - c * h.chunk))).map fun j =>
    let key := c * h.chunk + j
    let f := h.blockFeeds k v (key / 64)
    let (kr, p1) := s.fedRow lc f.1 (key % 64) h.dim
    let (vr, p2) := s.fedCol lc f.2.flip (key % 64) h.dim
    let m (x : Num) : Num := x.mul (sc key)
    ((⟨j, kr.map m, vr.map m⟩ : AKey), p1 || p2)
  (l.map fun x => x.1, l.any fun x => x.2)

/-- One chunk of STC.FWD. -/
def State.fwdChunk (s : State) (lc : Nat) (h : SHead) (a : Attn) (qs : List (List Num)) (k v : Feed) (sc : Nat → Num)
    (r : FRun) (c : Nat) : FRun :=
  let (ks, p) := s.chunkKeys lc h k v sc c
  let out := (List.range h.rows).map fun i =>
    let ms := ks.map fun x => (x.pos, s.masked lc h i (c * h.chunk + x.pos))
    let mk (j : Nat) : Bool := match ms.lookup j with
      | some x => x.1
      | none => false
    (a.step (qs.getD i []) mk ks (r.rows.getD i (ARow.start h.dim)), ms.any fun x => x.2.2)
  let rows := out.map fun x => x.1.1
  let crs := out.map fun x => x.1.2
  { rows := rows, even := if c % 2 = 0 then some crs else r.even, odd := if c % 2 = 1 then some crs else r.odd
    poi := r.poi || p || out.any fun x => x.2
    seen := r.seen ++ (ks.flatMap fun k => (k.k ++ k.v).flatMap Num.nums)
      ++ crs.flatMap fun x => x.t.map fun y => y.2.toNat }

/-- The arithmetic of STC.FWD (R308). -/
def SHead.attn (h : SHead) : Attn :=
  ⟨false, depthOf h.fq h.fk, depthOf h.p h.fv, h.p, h.scale, h.dim, h.chunk⟩

/-! ### STC.FWD: what it writes (R301-R304) -/

/-- The workspace after completion (R304). With a single chunk there is no odd one, and SB1, PB1 and STAT's odd a keep their
bytes (DEDUCED, log entry 126). -/
def State.fwdWorkspace (s : State) (lc : Nat) (h : SHead) (ws : Nat) (on : List Nat) (r : FRun) : State :=
  let one (s : State) (par : Nat) (crs : Option (List CRow)) : State :=
    match crs with
    | none => s
    | some l => s.putChunk lc 64 h.chunk h.dim ws h.p (on ++ r.seen ++ [par]) par l
  (one (one s 0 r.even) 1 r.odd).putRows lc 64 h.chunk h.dim ws h.p r.rows

/-- O, LSE and ROWINFO written (R301-R303): where poison was read the O and LSE granules are poisoned, then the ROWINFO words
written unpoisoned, one that lies in a poisoned LSE granule too (DEDUCED, log entry 112). -/
def State.fwdOutputs (s : State) (lc : Nat) (h : SHead) (x : FOut) (r : FRun) : State :=
  let out := r.rows.map fun y => y.finish h.out
  let n := out.length
  let len := h.dim * h.out.bits / 8
  let s := (List.range n).foldl (fun s i =>
    s.hawkWrite lc (x.o + i * x.ostr) ((out.getD i ([], 0, 0)).1.flatMap (leBytes (h.out.bits / 8)))) s
  let s := s.hawkWrite lc x.lse (words32 (out.map fun y => y.2.1))
  let info := out.flatMap fun y => leBytes 4 (y.2.2 + b2n r.poi * 8)
  if r.poi then
    let s := (List.range n).foldl (fun s i => s.hawkPoison lc (x.o + i * x.ostr) len) s
    ((s.hawkPoison lc x.lse (4 * n)).hawkWrite lc x.ri info).hawkHeal lc x.ri (4 * n)
  else s.hawkWrite lc x.ri info

/-- NaN rows: how many, and the lowest. -/
def nanRows (cls : List AClass) : Nat × Nat :=
  ((cls.filter fun c => c == .nan).length, if cls.contains .nan then cls.idxOf .nan else 0)

/-- The summary of STC.FWD (R320). -/
def fwdSum (h : SHead) (r : FRun) : SumV :=
  let fin := r.rows.map fun x => x.finish h.out
  let lses := (r.rows.zip fin).filterMap fun x => if x.1.cls = .normal then some (fp32 x.2.2.1) else none
  let st := statsOf false id lses
  let (n, low) := nanRows (r.rows.map ARow.cls)
  { max := st.max, min := st.min, nnz := BitVec.ofNat 64 n, argmax := BitVec.ofNat 64 low
    flags := flagWord (poisonFlag r.poi :: (r.rows.map fun x => x.flags)
      ++ fin.map fun x => flagsOf (x.1.map h.out.num)) }

/-- Q rows, and whether poison was fed. -/
def State.qRows (s : State) (lc : Nat) (h : SHead) (q : Feed) : List (List Num) × Bool :=
  let l := (List.range h.rows).map fun i => s.fedRow lc q i h.dim
  (l.map fun x => x.1, l.any fun x => x.2)

/-- The end of an STC.FWD whose chunks have run; `own` are the errors met in its workspace and ring (R303). -/
def State.fwdEnd (s : State) (lc i : Nat) (h : SHead) (x : FOut) (on : List Nat) (own : List MemErr) (r : FRun) : State :=
  let s := (s.fwdWorkspace lc h x.ws on r).meet own
  let r := { r with poi := r.poi || own.any MemErr.uncorr }
  let v := fwdSum h r
  let n := (nanRows (r.rows.map ARow.cls)).1
  let s := s.fwdOutputs lc h x r
  let s := ((s.event lc 0x20 (h.nchunks + 2)).freeEvent lc 0x21).countNan lc n
  s.finish lc .stencil i (if r.poi then stPoisoned else if n = 0 then stOk else 0x10) v

/-- The descriptors of an STC.FWD. -/
def fwdParts (e : UEntry) : SHead × FOut × Feed × Feed × Feed :=
  let h := sheadOf (e.ds.getD 0 0)
  (h, foutOf (e.ds.getD 1 0), feedOf h.fq h.scq (e.ds.getD 2 0), feedOf h.fk h.sck (e.ds.getD 3 0),
    feedOf h.fv h.scv (e.ds.getD 4 0))

/-- The first descriptor register of a Stencil instruction. -/
def UOp.first : UOp → Nat
  | .stcFwd f | .stcBwd f | .stcDec f => f.desc.toNat
  | _ => 0

/-- The ranges that an STC.FWD writes for itself: its workspace, and its ring. -/
def SHead.own (h : SHead) (x : FOut) : List Range :=
  rangeAt x.ws h.wsSize :: if h.paged then [rangeAt h.stage (10 * h.half)] else []

/-- Before the first chunk: the rows, and the Q values read. -/
def SHead.run0 (h : SHead) (q : List (List Num) × Bool) : FRun :=
  ⟨List.replicate h.rows (ARow.start h.dim), none, none, q.2, q.1.flatMap fun l => l.flatMap Num.nums⟩

/-- An STC.FWD without pages performed. -/
def State.doFwd (s : State) (lc i : Nat) (e : UEntry) (errs : List MemErr) : State :=
  let (h, x, q, k, v) := fwdParts e
  match h.fwdCheck x q k v (UOp.first e.op) with
  | some st => s.finish lc .stencil i st {}
  | none =>
    let (own, others) := s.splitErrs lc (h.own x) errs
    let s := s.meet others
    let qs := s.qRows lc h q
    let r := (List.range h.nchunks).foldl (fun r c =>
      s.fwdChunk lc h h.attn qs.1 k v (fun _ => .fin false 1 0) r c) (h.run0 qs)
    s.fwdEnd lc i h x e.nums own r

/-! ### STC.FWD over pages (10 R346-R348) -/

/-- SEQ and HEAD of a paged header. -/
def SHead.seq (h : SHead) : Nat := fld (dword h.raw 4) 0 16

/-- The key-value head of a paged header. -/
def SHead.kvHead (h : SHead) : Nat := fld (dword h.raw 4) 16 4

/-- What stops a paged STC.FWD before it takes its hold: R319, KV_OFF, REGION_INVALID, SEQ_STATE, or a descriptor that
is uncorrectable. -/
def State.pagedStop (s : State) (e : UEntry) : Option (BitVec 8 ⊕ WStop) :=
  let (h, x, q, k, v) := fwdParts e
  match h.fwdCheck x q k v (UOp.first e.op) with
  | some st => some (.inl st)
  | none =>
    if !s.kvOn then some (.inl 0x60)
    else
      let (d, p) := s.seqD h.seq
      let r := s.region d.region
      if p then some (.inr ⟨4, none, false, true⟩)
      else if r.tpp = 0 ∨ r.dim ≠ h.dim ∨ r.hkv ≤ h.kvHead then some (.inl 0x67)
      else if !d.active then some (.inl 0x61)
      else none

/-- FIRST and LAST of a stop, or of an end, where no page bounds it: the spec states none; the numbers that the instruction
depends on fix them (DESIGN CHOICE, log entry 109). -/
def WStop.ends (w : WStop) (on : List Nat) : Nat × Nat :=
  match w.span with
  | some x => x
  | none => (fld (Config.left on 0) 0 20, fld (Config.left on 1) 0 20)

/-- The inputs that an STC.FWD may have read before a stop, as numbers: Q, the bitmask, and of every page before the stop its
scale and the keys and values of its head. -/
def State.fwdInputs (s : State) (lc : Nat) (h : SHead) (q : Feed) (ps : List (Nat × KPage)) : List Nat :=
  let r := s.region (s.seqD h.seq).1.region
  let bytes (l : List Byte) : List Nat := l.map BitVec.toNat
  (s.qRows lc h q).1.flatMap (fun l => l.flatMap Num.nums)
    ++ (h.maskRanges.flatMap fun m => bytes (s.hawkRead lc m.1.toNat (m.2 - m.1).toNat).1)
    ++ ps.flatMap fun p => p.2.scale :: bytes (s.fetchFrame lc (p.2.frame + 2 * h.kvHead * r.slab) (2 * r.slab)).2.1

/-- A walker stop ends an STC.FWD (10 R348): no output; what the ring and the workspace hold is not stated, and depends on what
the instruction read alone (01 R28, R312). -/
def State.fwdStopped (s : State) (lc i : Nat) (h : SHead) (x : FOut) (on read : List Nat) (w : WStop) : State :=
  let (a, b) := w.ends (on ++ [w.reason])
  let on := on ++ [w.reason] ++ read
  let s := (s.scramble lc on h.stage (10 * h.half)).scramble lc on x.ws h.wsSize
  s.countStop.finish lc .stencil i (if w.reason = 6 then stReset else 0x20)
    { max := BitVec.ofNat 64 b, min := BitVec.ofNat 64 a, nnz := BitVec.ofNat 64 w.reason }

/-- A paged STC.FWD performed: it waits for its hold, and while the rows of its pages cannot cross into the hawk. -/
def State.doPaged (s : State) (lc i : Nat) (e : UEntry) (errs : List MemErr) : State :=
  let (h, x, q, k, v) := fwdParts e
  match s.pagedStop e with
  | some (.inl st) => s.finish lc .stencil i st {}
  | some (.inr w) => s.fwdStopped lc i h x e.nums [] w
  | none =>
    match (s.core lc).held.head? with
    | none => s
    | some hd =>
      let (own, others) := s.splitErrs lc (h.own x) errs
      let d := (s.seqD h.seq).1
      let r := s.region d.region
      if hd.len < h.nk then s.finish lc .stencil i 0x64 {}
      else match s.walk d r (fld (dword h.raw 0) 46 4) h.kvHead hd.len 0 (h.nblocks - 1) with
        | (ps, some w) => (s.meet others).fwdStopped lc i h x e.nums (s.fwdInputs lc h q ps) w
        | (ps, none) =>
          if !s.framesReach lc r h.kvHead ps (List.range h.nblocks) then s
          else match s.cross (s.siteOf lc) .up errs with
          | none => s
          | some s =>
            let s := s.meet others
            let sc (key : Nat) : Num := match ps.lookup (key / r.tpp) with
              | some p => scaleNum p.scale
              | none => .fin false 1 0
            let qs := s.qRows lc h q
            let nb := h.chunk / 64
            let (s, out) := (List.range h.nchunks).foldl (fun (y : State × FRun) c =>
              let s := y.1.stage lc r h.kvHead ps nb (h.stage + c % 5 * (2 * h.half))
                ((List.range (min nb (h.nblocks - c * nb))).map fun j => c * nb + j)
              (s, s.fwdChunk lc h h.attn qs.1 k v sc y.2 c)) (s, h.run0 qs)
            s.fwdEnd lc i h x e.nums own out

/-- STC.FWD (R300). -/
def execStcFwd (lc : Nat) (step : UStep UnitF) (s : State) : Host.Outcome State Fault Refusal :=
  match step with
  | .issue f => .next (s.dispatch lc (.stcFwd f) false)
  | .perform errs =>
    .next (s.work lc .stencil anyOp (fun o => match o with | .stcFwd _ => true | _ => false) fun s i e =>
      if (sheadOf (e.ds.getD 0 0)).paged then s.doPaged lc i e errs else s.doFwd lc i e errs)

/-! ### STC.BWD (R313-R318 R321) -/

/-- The output descriptor of STC.BWD (R313). -/
structure BOutD where
  raw : Desc
  dq : Nat
  dqs : Nat
  dk : Nat
  dks : Nat
  dv : Nat
  dvs : Nat
  lse : Nat
  ri : Nat
  delta : Nat
  ws : Nat

/-- It read. -/
def boutOf (d : Desc) : BOutD :=
  ⟨d, fld (dword d 0) 0 21, fld (dword d 0) 32 16, fld (dword d 1) 0 21, fld (dword d 1) 32 16, fld (dword d 2) 0 21,
   fld (dword d 2) 32 16, fld (dword d 3) 0 21, fld (dword d 3) 21 21, fld (dword d 4) 0 21, fld (dword d 5) 0 21⟩

/-- The accumulators' rows. -/
def BOutD.accs (x : BOutD) (h : SHead) : List Range :=
  rowRanges x.dq x.dqs h.rows (4 * h.dim) ++ rowRanges x.dk x.dks h.nk (4 * h.dim)
    ++ rowRanges x.dv x.dvs h.nk (4 * h.dim)

/-- Bytes of the backward workspace (R317). -/
def SHead.bwdWs (h : SHead) : Nat := 8192 * (h.p.bits / 8 + 2 * (h.out.bits / 8))

/-- The descriptors of an STC.BWD. -/
def bwdParts (e : UEntry) : SHead × BOutD × Feed × Feed × Feed × Feed :=
  let h := sheadOf (e.ds.getD 0 0)
  (h, boutOf (e.ds.getD 1 0), feedOf h.fq h.scq (e.ds.getD 2 0), feedOf h.fk h.sck (e.ds.getD 3 0),
    feedOf h.fv h.scv (e.ds.getD 4 0), feedOf h.fo h.sco (e.ds.getD 5 0))

/-- The checks of R319 for STC.BWD, in their order. -/
def SHead.bwdCheck (h : SHead) (x : BOutD) (q k v o : Feed) (db : Nat) : Option (BitVec 8) :=
  let ws := rangeAt x.ws h.bwdWs
  let small := [rangeAt x.lse (4 * h.rows), rangeAt x.ri (4 * h.rows), rangeAt x.delta (4 * h.rows)]
  let ends := h.ends.map fun b => (b, h.blockFeeds k v b)
  let walks := q.ranges ++ o.ranges ++ (List.range h.nblocks).flatMap fun b =>
    let f := h.blockFeeds k v b
    f.1.ranges ++ f.2.ranges
  let pairs : List (Nat × Nat) := [(0, 2), (1, 2), (2, 2)]
  if decide (10 < db) || h.invalid true k v || q.badBits || k.badBits || v.badBits || o.badBits || !restZero x.raw 6
      || pairs.any (fun p => !onlyBits (dword x.raw p.1) [(0, 21), (32, 16)]) || !onlyBits (dword x.raw 3) [(0, 42)]
      || !onlyBits (dword x.raw 4) [(0, 21)] || !onlyBits (dword x.raw 5) [(0, 21)] then some stInvalid
  else if h.kb % 64 != 0 || h.vb % 64 != 0 || x.ws % 256 != 0
      || ([x.dq, x.dqs, x.dk, x.dks, x.dv, x.dvs, x.lse, x.ri, x.delta] : List Nat).any (fun n => n % 4 != 0) then
    some stMisaligned
  else if h.shapeBad q k v || !o.rowRole h.dim (fun f => decide (h.rows ≤ f.prod f.lanes)) then some 0x50
  else if h.scaleBad || h.scq || h.sck || h.sco then some 0x51
  else match ((q.checkRow h.dim (2 ^ h.rows - 1)).or q.checkFlip).or
      ((ends.findSome? fun e => (e.2.1.checkRow h.dim (h.keyMask e.1)).or e.2.1.checkFlip).or
      ((ends.findSome? fun e => e.2.2.checkRow h.dim (h.keyMask e.1)).or
      ((o.checkRow h.dim (2 ^ h.rows - 1)).or o.checkFlip))) with
    | some st => some st
    | none =>
      if (ws :: small ++ x.accs h ++ h.maskRanges).any Range.outside then some 0x56
      else if (walks ++ h.maskRanges ++ small ++ x.accs h).any (rangesMeet ws) then some 0x55
      else none

/-- What a row of STC.BWD starts from: class, 1 / INFCNT in PFMT, LSE, DELTA, its Q and dO values. -/
structure BRow where
  cls : AClass
  inv : Nat
  lse : BitVec 32
  delta : BitVec 32
  q : List Num
  o : List Num

/-- The class that ROWINFO gives a row (R315). -/
def infoClass (w : BitVec 32) : AClass :=
  if bitAt w 0 then .nan else if bitAt w 1 then .allmask else if bitAt w 2 then .inf else .normal

/-- A row read: ROWINFO and DELTA, and LSE where the class is NORMAL; and whether poison was read. -/
def State.bwdRow (s : State) (lc : Nat) (h : SHead) (x : BOutD) (q o : Feed) (i : Nat) : BRow × Bool :=
  let (info, p1) := s.hawk32 lc (x.ri + 4 * i)
  let (delta, p2) := s.hawk32 lc (x.delta + 4 * i)
  let cls := infoClass info
  let (lse, p3) := if cls = .normal then s.hawk32 lc (x.lse + 4 * i) else (0, false)
  let (qr, p4) := s.fedRow lc q i h.dim
  let (dr, p5) := s.fedRow lc o i h.dim
  let inv := (h.p.conv .rne false
    (fp32 (toFp32 ((Num.fin false 1 0).div (fp32 (toFp32 (.fin false (fld info 8 24) 0))))))).1
  (⟨cls, inv, lse, delta, qr, dr⟩, p1 || p2 || p3 || p4 || p5)

/-- p and ds of one score (R315), with the FLAGS bits that they meet. -/
def SHead.grad (h : SHead) (b : BRow) (t dp : BitVec 32) (masked : Bool) : Nat × Nat × Nat :=
  let fl := if masked then 0 else (fp32 t).flags
  match b.cls with
  | .nan | .allmask => (0, 0, 0)
  | .inf => (if t = posInf32 then b.inv else 0, 0, fl)
  | .normal =>
    let p := (h.p.conv .rne false (fp32 (toFp32 (fp32 (fsub32 t b.lse)).exp))).1
    let pw := toFp32 (h.p.num p)
    let ds := h.out.conv .rne false (fp32 (fmul32 (fmul32 pw (fsub32 dp b.delta)) h.scale))
    (p, ds.1, fl ||| (ds.2 &&& 16))

/-- An accumulator's row receives one addition to each element (R316): the values written, and whether the row was
poisoned. -/
def State.accumulate (s : State) (lc off : Nat) (vs : List (BitVec 32)) : State × List (BitVec 32) × Bool :=
  let (bs, p) := s.hawkGran lc off (4 * vs.length)
  let new := (List.range vs.length).map fun d =>
    fadd32 (BitVec.ofNat 32 (leNat ((bs.drop (4 * d)).take 4))) (vs.getD d 0)
  (s.hawkWrite lc off (words32 new), new, p)

/-- What STC.BWD carries from block to block: poison read, the values written, the FLAGS bits of scores. -/
structure BAcc where
  poi : Bool
  vals : List Num
  flags : Nat

/-- Rows of an accumulator, one after the other; a row that receives nothing keeps its bits (R316). -/
def State.accRows (s : State) (lc base stride : Nat) (rows : List (Option (List (BitVec 32)))) (dim : Nat) (a : BAcc) :
    State × BAcc :=
  (List.range rows.length).foldl (fun (y : State × BAcc) i =>
    let off := base + i * stride
    let (s, vs, p) := match rows.getD i none with
      | some v => y.1.accumulate lc off v
      | none =>
        let (bs, p) := y.1.hawkGran lc off (4 * dim)
        (y.1, (List.range dim).map fun d => BitVec.ofNat 32 (leNat ((bs.drop (4 * d)).take 4)), p)
    (s, { y.2 with poi := y.2.poi || p, vals := y.2.vals ++ vs.map fp32 })) (s, a)

/-- A row's Q or dO values in the products over rows: an ALLMASK row's terms are zero whatever it holds (R316). -/
def BRow.fed (r : BRow) (sel : BRow → List Num) (d : Nat) : Num :=
  if r.cls = .allmask then .zero false else (sel r).getD d (.zero false)

/-- One key block of STC.BWD (R314-R316): its products, its workspace buffers, its additions. -/
def State.bwdBlock (s : State) (lc : Nat) (h : SHead) (x : BOutD) (k v : Feed) (rows : List BRow) (a : BAcc) (b : Nat) :
    State × BAcc :=
  let n := min 64 (h.nk - 64 * b)
  let f := h.blockFeeds k v b
  let kr := (List.range n).map fun j => s.fedRow lc f.1 j h.dim
  let vr := (List.range n).map fun j => s.fedRow lc f.2 j h.dim
  let kv (j : Nat) : List Num := match kr[j]? with
    | some y => y.1
    | none => []
  let vv (j : Nat) : List Num := match vr[j]? with
    | some y => y.1
    | none => []
  let g := (List.range rows.length).map fun i =>
    match rows[i]? with
    | none => []
    | some r => (List.range n).map fun j =>
      let (m, p) := s.masked lc h i (64 * b + j)
      let t := if m then negInf32 else fmul32 (dot false (depthOf h.fq h.fk) (mulAll r.q (kv j))) h.scale
      let dp := dot false (depthOf h.fo h.fv) (mulAll r.o (vv j))
      (h.grad r t dp m, p)
  let cell (i j : Nat) : Nat × Nat := match g[i]? with
    | some l => (match l[j]? with
      | some y => (y.1.1, y.1.2.1)
      | none => (0, 0))
    | none => (0, 0)
  let poi := (kr ++ vr).any (fun y => y.2) || g.any fun l => l.any fun y => y.2
  let flags := (g.flatMap fun l => l.map fun y => y.1.2.2).foldl (· ||| ·) a.flags
  let ri := List.range rows.length
  let di := List.range h.dim
  let col (d : Nat) (sel : BRow → List Num) : List Num := rows.map fun r => r.fed sel d
  let dv := (List.range n).map fun j => some <| di.map fun d =>
    dot false (depthOf h.p h.fo) (mulAll (ri.map fun i => h.p.num (cell i j).1) (col d BRow.o))
  let dk := (List.range n).map fun j => some <| di.map fun d =>
    dot false (depthOf h.out h.fq) (mulAll (ri.map fun i => h.out.num (cell i j).2) (col d BRow.q))
  let dq := (ri.zip rows).map fun (i, r) => if r.cls = .allmask then none else some <| di.map fun d =>
    dot false (depthOf h.out h.fk) (mulAll ((List.range n).map fun j => h.out.num (cell i j).2)
      ((List.range n).map fun j => (kv j).getD d (.zero false)))
  let ps := h.p.bits / 8
  let ds := h.out.bits / 8
  let pb := x.ws + b % 2 * (4096 * ps)
  let dr := x.ws + 8192 * ps + b % 2 * (4096 * ds)
  let dc := x.ws + 8192 * (ps + ds) + b % 2 * (4096 * ds)
  let s := ri.foldl (fun s i =>
    let s := s.hawkWrite lc (pb + i * 64 * ps) ((List.range n).flatMap fun j => leBytes ps (cell i j).1)
    s.hawkWrite lc (dr + i * 64 * ds) ((List.range n).flatMap fun j => leBytes ds (cell i j).2)) s
  let s := (List.range n).foldl (fun s j =>
    s.hawkWrite lc (dc + j * 64 * ds) (ri.flatMap fun i => leBytes ds (cell i j).2)) s
  let (s, a) := s.accRows lc (x.dv + 64 * b * x.dvs) x.dvs dv h.dim { a with poi := a.poi || poi, flags := flags }
  let (s, a) := s.accRows lc (x.dk + 64 * b * x.dks) x.dks dk h.dim a
  s.accRows lc x.dq x.dqs dq h.dim a

/-- The numbers of what a row and the keys of an STC.BWD read. -/
def State.bwdNums (s : State) (lc : Nat) (h : SHead) (k v : Feed) (rows : List BRow) : List Nat :=
  (rows.flatMap fun r => [r.inv, r.lse.toNat, r.delta.toNat] ++ (r.q ++ r.o).flatMap Num.nums)
    ++ (List.range h.nk).flatMap fun j =>
      let f := h.blockFeeds k v (j / 64)
      ((s.fedRow lc f.1 (j % 64) h.dim).1 ++ (s.fedRow lc f.2 (j % 64) h.dim).1).flatMap Num.nums

/-- An STC.BWD performed. -/
def State.doBwd (s : State) (lc i : Nat) (e : UEntry) (errs : List MemErr) : State :=
  let (h, x, q, k, v, o) := bwdParts e
  match h.bwdCheck x q k v o (UOp.first e.op) with
  | some st => s.finish lc .stencil i st {}
  | none =>
    let (own, others) := s.splitErrs lc [rangeAt x.ws h.bwdWs] errs
    let s := s.meet others
    let rs := (List.range h.rows).map fun j => s.bwdRow lc h x q o j
    let rows := rs.map fun y => y.1
    let s := s.scramble lc (e.nums ++ s.bwdNums lc h k v rows) x.ws h.bwdWs
    let a0 : BAcc := ⟨rs.any fun y => y.2, [], 0⟩
    let (s, a) := (List.range h.nblocks).foldl (fun (y : State × BAcc) b => y.1.bwdBlock lc h x k v rows y.2 b) (s, a0)
    let s := s.meet own
    let a := { a with poi := a.poi || own.any MemErr.uncorr }
    let nan := (List.range h.rows).filter fun j => match rows[j]? with
      | some r => r.cls == .nan
      | none => false
    let s := nan.foldl (fun s j =>
      s.hawkWrite lc (x.dq + j * x.dqs) (words32 (List.replicate h.dim 0x7FC00000#32))) s
    let s := if a.poi then
        (x.accs h).foldl (fun s r => s.hawkPoison lc r.1.toNat (r.2 - r.1).toNat) s
      else s
    let st := statsOf false id a.vals
    let s := ((s.event lc 0x20 (h.nblocks + 1)).freeEvent lc 0x21).countNan lc nan.length
    s.finish lc .stencil i (if a.poi then stPoisoned else if nan.isEmpty then stOk else 0x10)
      { max := st.max, min := st.min, nnz := BitVec.ofNat 64 nan.length, argmax := BitVec.ofNat 64 (nan.headD 0)
        flags := flagWord [poisonFlag a.poi, a.flags, flagsOf a.vals, b2n (!nan.isEmpty)] }

/-- STC.BWD (R315). -/
def execStcBwd (lc : Nat) (step : UStep UnitF) (s : State) : Host.Outcome State Fault Refusal :=
  match step with
  | .issue f => .next (s.dispatch lc (.stcBwd f) false)
  | .perform errs =>
    .next (s.work lc .stencil anyOp (fun o => match o with | .stcBwd _ => true | _ => false) fun s i e =>
      s.doBwd lc i e errs)

end Sys2Proof.Machine
end

