-- ==== Sys2Proof/Machine/StcDec.lean ====
section
/-!
DEFINITION. STC.DEC (10 R349-R356) and the holds of walkers (10 R332 R334).
-/

namespace Sys2Proof.Machine

/-! ### Descriptors (R350 R351) -/

/-- The header and the address descriptor of STC.DEC; formats that the checks refuse stand as FP32. -/
structure DHead where
  raw : Desc
  adr : Desc
  count : Nat
  g : Nat
  head : Nat
  chunk : Nat
  fq : Fmt
  fkv : Fmt
  p : Fmt
  out : Fmt
  window : Nat
  scale : BitVec 32
  list : Nat
  stage : Nat
  ws : Nat
  nidx : Nat
  region : Nat

/-- They read. -/
def dheadOf (d a : Desc) : DHead :=
  let w (i : Nat) : Word := dword d i
  let f (lo : Nat) : Fmt := (fmtOf (fld (w 0) lo 4)).getD .fp32
  ⟨d, a, fld (w 0) 0 16, fld (w 0) 16 5, fld (w 0) 21 4, 128 * 2 ^ fld (w 0) 25 2, f 27, f 31, f 35, f 39,
   fld (w 1) 0 32, (w 1 >>> 32).setWidth 32, fld (w 2) 0 21, fld (w 2) 21 21, fld (w 3) 0 21, fld (w 3) 32 16,
   fld (w 3) 48 4⟩

/-- A base of the address descriptor. -/
def DHead.base (h : DHead) (i : Nat) : Nat := fld (dword h.adr i) 0 21

/-- A stride of the address descriptor. -/
def DHead.str (h : DHead) (i : Nat) : Nat := fld (dword h.adr i) 32 16

/-- RIBASE. -/
def DHead.ri (h : DHead) : Nat := fld (dword h.adr 2) 21 21

/-- Bytes of a ring slot over a region (R326 R354). -/
def DHead.slot (h : DHead) (r : RegionD) : Nat := 2 * h.chunk * r.dim * r.ebits / 8

/-- Bytes of the workspace (R353). -/
def DHead.wsSize (h : DHead) (d : Nat) : Nat := h.chunk * (128 + 32 * (h.p.bits / 8)) + 64 * d + 256

/-- The ranges of R351 up to IDX = NIDX - 1: Q, then the outputs O, LSE, ROWINFO, ESTAT. -/
def DHead.ranges (h : DHead) (d : Nat) : List Range :=
  let n := h.nidx - 1
  [rangeAt (h.base 0) (n * h.str 0 + d * 16 * h.fq.bits / 8),
   rangeAt (h.base 1) (n * h.str 1 + h.g * d * (h.out.bits / 8)),
   rangeAt (h.base 2) ((n * 16 + h.g) * 4), rangeAt h.ri ((n * 16 + h.g) * 4), rangeAt (h.base 3) (n * 8 + 8)]

/-- Workspace, ring and list. -/
def DHead.own (h : DHead) (r : RegionD) : List Range :=
  [rangeAt h.ws (h.wsSize r.dim), rangeAt h.stage (5 * h.slot r), rangeAt h.list (4 * h.count)]

/-- Two ranges of a list share a byte. -/
def anyMeet : List Range → Bool
  | [] => false
  | r :: rs => rs.any (rangesMeet r) || anyMeet rs

/-- The checks of R355 in their order; `db` is the first descriptor register. A HEAD that the region does not have is
REGION_INVALID, as R346 has it for STC.FWD (DEDUCED, log entry 127). -/
def State.decCheck (s : State) (h : DHead) (db : Nat) : Option (BitVec 8) :=
  let w (i : Nat) : Word := dword h.raw i
  let a (i : Nat) : Word := dword h.adr i
  let r := s.region h.region
  if decide (14 < db) || !restZero h.raw 4 || !onlyBits (w 0) [(0, 43)] || !onlyBits (w 2) [(0, 42)]
      || !onlyBits (w 3) [(0, 21), (32, 20)] || h.count == 0 || h.g == 0 || decide (16 < h.g)
      || !isOperand (fld (w 0) 27 4) || !isOperand (fld (w 0) 31 4) || !isProb (fld (w 0) 35 4)
      || decide (2 < fld (w 0) 39 4) || !scaleFine h.scale || h.nidx == 0 || !restZero h.adr 4
      || !onlyBits (a 0) [(0, 21), (32, 16)] || !onlyBits (a 1) [(0, 21), (32, 16)] || !onlyBits (a 2) [(0, 42)]
      || !onlyBits (a 3) [(0, 21)] then some stInvalid
  else if h.list % 4 != 0 || h.stage % 256 != 0 || h.ws % 256 != 0
      || ([h.base 0, h.str 0, h.base 1, h.str 1, h.base 3] : List Nat).any (fun n => n % 8 != 0)
      || h.base 2 % 4 != 0 || h.ri % 4 != 0 then some stMisaligned
  else if !s.kvOn then some 0x60
  else if r.tpp = 0 ∨ r.hkv ≤ h.head then some 0x67
  else if (h.ranges r.dim ++ h.own r).any Range.outside then some 0x56
  else if anyMeet (h.own r ++ (h.ranges r.dim).drop 1)
      || (h.own r ++ (h.ranges r.dim).drop 1).any (fun x => ((h.ranges r.dim).take 1).any (rangesMeet x)) then
    some 0x55
  else none

/-! ### List entries -/

/-- A list entry: SEQ, IDX, and whether it was poisoned. -/
def State.listEntry (s : State) (lc : Nat) (h : DHead) (pos : Nat) : Nat × Nat × Bool :=
  let (bs, p) := s.hawkGran lc (h.list + 4 * pos) 4
  let v := leNat bs
  (v % 2 ^ 16, v / 2 ^ 16, p)

/-- What stops an entry before its hold: BADIDX, an uncorrectable descriptor, an inactive one (R344). -/
def State.entryEarly (s : State) (h : DHead) (seq idx : Nat) : Option WStop :=
  if h.nidx ≤ idx then some ⟨8, none, false, false⟩
  else
    let (q, p) := s.seqD seq
    if p then some ⟨4, none, false, true⟩ else if !q.active then some ⟨9, none, false, false⟩ else none

/-- An element of a packed run at an offset of a hawk: its value and its poison. -/
def State.hawkElem (s : State) (lc base : Nat) (f : Fmt) (i : Nat) : Num × Bool :=
  let bit := i * f.bits
  let (bs, p) := s.hawkGran lc (base + bit / 8) ((bit % 8 + f.bits + 7) / 8)
  (f.num (leNat bs / 2 ^ (bit % 8) % 2 ^ f.bits), p)

/-- The present keys of a chunk, staged in slot n mod 5 of the ring (R327 R347 R349 R354) and read from there, and whether
poison was fed. A block without a present key is not fetched (09 R298). -/
def State.decKeys (s : State) (lc : Nat) (h : DHead) (r : RegionD) (ps : List (Nat × KPage)) (lo len n c : Nat) :
    State × List AKey × Bool :=
  let nb := h.chunk / 64
  let a := max lo (c * h.chunk)
  let b := min len ((c + 1) * h.chunk)
  let slot := h.stage + n % 5 * h.slot r
  let bs := (List.range ((b + 63) / 64 - a / 64)).map fun i => a / 64 + i
  let s := s.stage lc r h.head ps nb slot bs
  let ks := bs.flatMap fun t =>
    let at' := slot + t % nb * r.block
    let m (x : Num × Bool) : Num := match ps.lookup (t / (r.tpp / 64)) with
      | some p => x.1.mul (scaleNum p.scale)
      | none => x.1
    ((List.range 64).filter fun j => decide (a ≤ 64 * t + j) && decide (64 * t + j < b)).map fun j =>
      let kr := (List.range r.dim).map fun d => s.hawkElem lc at' h.fkv (d * 64 + j)
      let vr := (List.range r.dim).map fun d => s.hawkElem lc (at' + nb * r.block) h.fkv (j * r.dim + d)
      ((⟨64 * t + j - c * h.chunk, kr.map m, vr.map m⟩ : AKey), (kr ++ vr).any fun x => x.2)
  (s, ks.map (fun x => x.1), ks.any fun x => x.2)

/-- The first and last key that an entry walks. -/
def DHead.from (h : DHead) (len : Nat) : Nat := if h.window = 0 then 0 else len - h.window

/-- The chunks that an entry walks (R349): the first, and how many. -/
def DHead.walked (h : DHead) (len : Nat) : Nat × Nat :=
  let c0 := h.from len / h.chunk
  (c0, if len = 0 then 0 else (len - 1) / h.chunk + 1 - c0)

/-- What an entry carries from chunk to chunk: its rows, poison read, the numbers of the inputs read. -/
structure DRun where
  rows : List ARow
  poi : Bool
  seen : List Nat

/-- The arithmetic of STC.DEC (R352). -/
def DHead.attn (h : DHead) (dim : Nat) : Attn :=
  ⟨true, depthOf h.fq h.fkv, depthOf h.p h.fkv, h.p, h.scale, dim, h.chunk⟩

/-- The first k chunks of an entry, numbered from n in the stream (R349 R354), with what they leave in the workspace (R353):
the rows, poison read, the numbers of the inputs. -/
def State.decWalk (s : State) (lc : Nat) (h : DHead) (r : RegionD) (ps : List (Nat × KPage)) (idx len n k : Nat) :
    State × DRun :=
  let qs := (List.range h.g).map fun g => (List.range r.dim).map fun d =>
    s.hawkElem lc (h.base 0 + idx * h.str 0) h.fq (d * 16 + g)
  let c0 := (h.walked len).1
  let y0 : DRun := ⟨List.replicate h.g (ARow.start r.dim), k != 0 && qs.any fun l => l.any fun x => x.2,
    qs.flatMap fun l => l.flatMap fun x => x.1.nums⟩
  (List.range k).foldl (fun (y : State × DRun) i =>
    let (s, ks, p) := y.1.decKeys lc h r ps (h.from len) len (n + i) (c0 + i)
    let out := (List.range h.g).map fun g =>
      (h.attn r.dim).step ((qs.getD g []).map fun x => x.1) (fun _ => false) ks (y.2.rows.getD g (ARow.start r.dim))
    let z : DRun := ⟨out.map fun x => x.1, y.2.poi || p,
      y.2.seen ++ ks.flatMap fun x => (x.k ++ x.v).flatMap Num.nums⟩
    let on := h.raw.toNat :: h.adr.toNat :: idx :: z.seen
    let s := s.putChunk lc 16 h.chunk r.dim h.ws h.p on ((n + i) % 2) (out.map fun x => x.2)
    (s.putRows lc 16 h.chunk r.dim h.ws h.p z.rows, z)) (s, y0)

/-! ### Results of an entry -/

/-- What an STC.DEC has counted: NaN rows, FLAGS bits, stopped entries, the first one's position, FIRST and LAST, and
the chunks walked. -/
structure DAcc where
  nan : Nat
  flags : Nat
  stops : Nat
  pos : Nat
  first : Nat
  last : Nat
  chunks : Nat

/-- Kept in the entry's list of numbers. -/
def daccOf (l : List Nat) : DAcc :=
  ⟨l.getD 0 0, l.getD 1 0, l.getD 2 0, l.getD 3 0, l.getD 4 0, l.getD 5 0, l.getD 6 0⟩

/-- The same as numbers. -/
def DAcc.nums (a : DAcc) : List Nat := [a.nan, a.flags, a.stops, a.pos, a.first, a.last, a.chunks]

/-- ESTAT written (R345). -/
def State.estat (s : State) (lc : Nat) (h : DHead) (idx step first last reason : Nat) (more : Bool) : State :=
  let a := h.base 3 + idx * 8
  if a + 8 ≤ 0x200000 then
    s.hawkWrite lc a (leBytes 8 (reason + b2n more * 16 + first % 2 ^ 20 * 2 ^ 8 + last % 2 ^ 20 * 2 ^ 28
      + step % 2 ^ 16 * 2 ^ 48))
  else s

/-- The numbers of an entry that fix the FIRST and LAST that no page bounds. -/
def DHead.nums (h : DHead) (pos idx step reason : Nat) : List Nat := [h.raw.toNat, h.adr.toNat, pos, idx, step, reason]

/-- A stopped entry: its ESTAT and its count. -/
def State.decStop (s : State) (lc : Nat) (h : DHead) (pos idx step : Nat) (w : WStop) (a : DAcc) : State × DAcc :=
  let (f, l) := w.ends (h.nums pos idx step w.reason)
  ((s.estat lc h idx step f l w.reason w.more).countStop,
   { a with stops := a.stops + 1, pos := if a.stops = 0 then pos else a.pos, first := if a.stops = 0 then f else a.first
            last := if a.stops = 0 then l else a.last })

/-- The outputs of an entry (R301-R303 R351) and its ESTAT. -/
def State.decDone (s : State) (lc : Nat) (h : DHead) (d pos idx step : Nat) (rows : List ARow) (poi : Bool) : State :=
  let sz := h.out.bits / 8
  let n := rows.length
  let out := rows.map fun y => y.finish h.out
  let o (g : Nat) : Nat := h.base 1 + idx * h.str 1 + g * d * sz
  let la := h.base 2 + idx * 16 * 4
  let ra := h.ri + idx * 16 * 4
  let s := (List.range n).foldl (fun s g => s.hawkWrite lc (o g) ((out.getD g ([], 0, 0)).1.flatMap (leBytes sz))) s
  let s := s.hawkWrite lc la (words32 (out.map fun y => y.2.1))
  let info := out.flatMap fun y => leBytes 4 (y.2.2 + b2n poi * 8)
  let s := if poi then
      let s := (List.range n).foldl (fun s g => s.hawkPoison lc (o g) (d * sz)) s
      ((s.hawkPoison lc la (4 * n)).hawkWrite lc ra info).hawkHeal lc ra (4 * n)
    else s.hawkWrite lc ra info
  let (f, l) := WStop.ends ⟨0, none, false, false⟩ (h.nums pos idx step 0)
  s.estat lc h idx step f l 0 false

/-- The FLAGS bits of an entry (R356): unmasked t of INF and NORMAL rows, and O values. -/
def decFlags (f : Fmt) (rows : List ARow) (old : Nat) : Nat :=
  rows.foldl (fun m r =>
    let t := match r.cls with
      | .inf | .normal => r.flags
      | _ => 0
    m ||| t ||| flagsOf ((r.finish f).1.map f.num)) old

/-- The end of an STC.DEC (R355 R356); MIN and MAX read 0 when no entry stopped (02 R59). -/
def State.decEnd (s : State) (lc i : Nat) (poi : Bool) (a : DAcc) : State :=
  let sum : SumV :=
    { max := BitVec.ofNat 64 a.last, min := BitVec.ofNat 64 a.first, sum := intSum (BitVec.ofNat 32 a.nan)
      nnz := BitVec.ofNat 64 a.stops, argmax := BitVec.ofNat 64 a.pos, flags := flagWord [a.flags, poisonFlag poi] }
  let s := (s.event lc 0x20 (a.chunks + 2)).freeEvent lc 0x21
  (s.countNan lc a.nan).finish lc .stencil i
    (if poi then stPoisoned else if a.stops ≠ 0 then 0x20 else if a.nan ≠ 0 then 0x10 else stOk) sum

/-- A list entry is processed: the next one follows, or the instruction ends. -/
def State.decNext (s : State) (lc i : Nat) (e : UEntry) (h : DHead) (poi : Bool) (a : DAcc) : State :=
  let e := { e with nnz := e.nnz + 1, prog := max e.prog (e.nnz + 1), poi := e.poi || poi, await := a.nums }
  let s := s.setEntry lc .stencil i e
  if e.nnz = h.count then s.decEnd lc i e.poi a else s

/-- An entry under its hold: its chunks, all or those wholly before the page that stops it; then its outputs, or its ESTAT.
It waits while the rows of its pages cannot cross into the hawk (03 R105, 04 R153). -/
def State.decHeld (s : State) (lc i : Nat) (e : UEntry) (h : DHead) (hd : Held) (idx : Nat) (pl : Bool) (errs : List MemErr) :
    State :=
  let r := s.region h.region
  let q := (s.seqD hd.seq).1
  let acc := daccOf e.await
  let (c0, n) := h.walked hd.len
  let (ps, stop) : List (Nat × KPage) × Option WStop :=
    if q.region ≠ h.region then ([], some ⟨7, none, false, false⟩)
    else if hd.len = 0 then ([], none)
    else s.walk q r (fld (dword h.raw 0) 31 4) h.head hd.len (h.from hd.len / 64) ((hd.len - 1) / 64)
  let k := match stop with
    | none => n
    | some _ => match ps.getLast? with
      | some p => min n ((p.1 + 1) * r.tpp / h.chunk - c0)
      | none => 0
  let last := min hd.len ((c0 + k) * h.chunk)
  let bs := (List.range ((last + 63) / 64 - h.from hd.len / 64)).map fun t => h.from hd.len / 64 + t
  if k ≠ 0 ∧ !s.framesReach lc r h.head ps bs then s
  else match (if k = 0 then some s else s.cross (s.siteOf lc) .up errs) with
  | none => s
  | some s =>
    let (own, others) := s.splitErrs lc [rangeAt h.ws (h.wsSize r.dim), rangeAt h.stage (5 * h.slot r)] errs
    let (s, y) := (s.meet others).decWalk lc h r ps idx hd.len acc.chunks k
    let s := s.meet own
    let poi := y.poi || pl || own.any MemErr.uncorr
    let acc := { acc with chunks := acc.chunks + k }
    match stop with
    | some w =>
      let (s, a) := s.decStop lc h e.nnz idx hd.step w acc
      s.decNext lc i e h (poi || w.poi) a
    | none =>
      (s.decDone lc h r.dim e.nnz idx hd.step y.rows poi).decNext lc i e h poi { acc with
        nan := acc.nan + (y.rows.filter fun x => x.nan).length, flags := decFlags h.out y.rows acc.flags }

/-- One list entry processed: it waits for its hold unless it stops before it, and for the table while EN is 0 (R323; that a
begun instruction waits then is the model's choice, log entry 110). -/
def State.decOne (s : State) (lc i : Nat) (e : UEntry) (h : DHead) (errs : List MemErr) : State :=
  let (seq, idx, pl) := s.listEntry lc h e.nnz
  let held := (s.core lc).held.find? fun x => x.entry == e.nnz
  if !s.kvOn then s
  else match s.entryEarly h seq idx with
    | some w =>
      let (s, a) := (s.meet errs).decStop lc h e.nnz idx ((held.map fun x => x.step).getD 0) w (daccOf e.await)
      s.decNext lc i e h (pl || w.poi) a
    | none => match held with
      | none => s
      | some hd => s.decHeld lc i e h hd idx pl errs

/-- An STC.DEC performed: its checks, then one list entry at a time. -/
def State.doDec (s : State) (lc i : Nat) (e : UEntry) (errs : List MemErr) : State :=
  let h := dheadOf (e.ds.getD 0 0) (e.ds.getD 1 0)
  if e.begun then s.decOne lc i e h errs
  else match s.decCheck h (UOp.first e.op) with
    | some st => s.finish lc .stencil i st {}
    | none => s.setEntry lc .stencil i { e with begun := true }

/-- STC.DEC (R349). -/
def execStcDec (lc : Nat) (step : UStep UnitF) (s : State) : Host.Outcome State Fault Refusal :=
  match step with
  | .issue f => .next (s.dispatch lc (.stcDec f) false)
  | .perform errs =>
    .next (s.work lc .stencil anyOp (fun o => match o with | .stcDec _ => true | _ => false) fun s i e =>
      s.doDec lc i e errs)

/-! ### Holds (R332 R334) -/

/-- The sequence that the core's walking instruction takes its next hold on, with the list position; none while EN is 0
(R323, log entry 110). -/
def State.nextHold (s : State) (lc : Nat) : Option (Nat × Nat × Nat × UEntry) :=
  let c := s.core lc
  if !s.kvOn then none
  else match findEntry (fun e => e.started && e.fin.isNone) c.stcQ with
  | none => none
  | some (i, e) =>
    match e.op with
    | .stcFwd _ =>
      let h := sheadOf (e.ds.getD 0 0)
      if h.paged && !e.begun && (s.pagedStop e).isNone then some (i, h.seq, 0, { e with begun := true }) else none
    | .stcDec _ =>
      let h := dheadOf (e.ds.getD 0 0) (e.ds.getD 1 0)
      let (seq, idx, _) := s.listEntry lc h e.prog
      if e.begun && decide (e.prog < h.count) && decide (c.held.length < 3) && (s.entryEarly h seq idx).isNone then
        some (i, seq, e.prog, { e with prog := e.prog + 1 })
      else none
    | _ => none

/-- HOLD_ACQUIRE: the agent grants the walker of a core its next hold (R332); deferred edits that are due apply first
(R330). -/
def execHoldAcquire (lc : Nat) (s : State) : Host.Outcome State Fault Refusal :=
  match s.nextHold lc with
  | none => .next s
  | some (i, seq, pos, e) =>
    if s.editsDue seq then .next s else .next ((s.setEntry lc .stencil i e).takeHold lc seq pos)

/-- The work under the oldest hold is done: the STC.FWD has ended, or the list entry has been processed. -/
def Core.holdDone (c : Core) (h : Held) : Bool :=
  match findEntry (fun e => e.started && UOp.owns e.op) c.stcQ with
  | some (_, e) => e.fin.isSome || (match e.op with | .stcDec _ => decide (h.entry < e.nnz) | _ => false)
  | none => true

/-- HOLD_RELEASE: the walker releases its oldest hold once its work is done (R332). -/
def execHoldRelease (lc : Nat) (s : State) : Host.Outcome State Fault Refusal :=
  let c := s.core lc
  match c.held with
  | [] => .next s
  | h :: _ => if c.holdDone h then .next (s.dropHold lc h) else .next s

/-- MC_HOLD_RELEASE: the holds of a core that failed or whose site was retired are released; its walk ends without
outputs (R334), and the array that the Stencil owned is released (06 R216). -/
def execMcHoldRelease (lc : Nat) (s : State) : Host.Outcome State Fault Refusal :=
  let c := s.core lc
  if (s.failed lc || s.siteRetired (s.siteOf lc)) && !c.held.isEmpty then
    let s := c.held.foldl (fun s h => s.dropHold lc h) s
    let c := s.core lc
    .next (s.setCore lc { c with
      stcQ := c.stcQ.filter fun e => !(e.started && UOp.owns e.op), stcOwns := false
      bankA := if c.stcOwns then Bank.zero else c.bankA, bankB := if c.stcOwns then Bank.zero else c.bankB })
  else .next s

end Sys2Proof.Machine
end

