-- ==== Sys2Proof/Machine/System.lean ====
section
/-!
DEFINITION. System instructions, WAITF and its wake and timeout, a stalled TKW that is met, and the word that no
instruction spells (02 R42 R55 R60 R61 R71-R78 R83 R86).
-/

namespace Sys2Proof.Machine

/-- FENCE: stalls until every earlier scalar store of the core has been performed (02 R60). -/
def execFence (lc : Nat) (s : State) : Host.Outcome State Fault Refusal :=
  let c := s.core lc
  if s.canIssue lc .fence ∧ c.stores ≠ [] then .next (s.setCore lc { c with stall := .fence })
  else .next (s.scalar lc .fence fun c => c)

/-- ICINV: every line of the instruction cache is invalidated (02 R60 R83). -/
def execIcinv (lc : Nat) (s : State) : Host.Outcome State Fault Refusal :=
  .next (s.scalar lc .icinv fun c => { c with ic := [] })

/-- SEED: the rounding seed of later dispatches; their ordinals count from 0 again (02 R61, 05 R196). -/
def execSeed (lc : Nat) (xs : BitVec 5) (s : State) : Host.Outcome State Fault Refusal :=
  .next (s.scalar lc (.seed xs) fun c => { c with seed := c.rx xs, ord := 0 })

/-- BRK: the break exception with the low 8 bits of imm15 as subcause (02 R60 R90 R95). -/
def execBrk (lc : Nat) (imm : BitVec 15) (s : State) : Host.Outcome State Fault Refusal :=
  if s.canIssue lc (.brk imm) then .next (s.excAt lc (.brk imm) 6 (imm.toNat % 256) 0) else .next s

/-- HALT: issue stops with the exit code xs; the queues run on (02 R60 R86). The PC stays at the HALT (R94). -/
def execHalt (lc : Nat) (xs : BitVec 5) (s : State) : Host.Outcome State Fault Refusal :=
  if s.canIssue lc (.halt xs) then
    let s := s.noteIssue lc
    let (s, smp) := s.countSample lc 0
    let c := s.core lc
    let s := s.setCore lc { c with st := .draining, exit := some (c.rx xs) }
    .next (if smp then s.sampleDone lc (s.reg (.pmuCycle lc)) c.pc (Flik.halt xs).encode 7 c.missFlag 0 0 else s)
  else .next s

/-- The flag address of a WAITF (02 R72): its offset in the own hawk, or the exception it raises. -/
def State.waitfAddr (_s : State) (lc : Nat) (a : Word) : Except (Nat × Nat) Nat :=
  let base := 0x10100000000 + lc * 0x400000
  if a.toNat % 8 ≠ 0 then .error (3, 0)
  else if base ≤ a.toNat ∧ a.toNat < base + 0x200000 then .ok (a.toNat - base)
  else .error (2, 4)

/-- A WAITF completes: 0 into rd when the condition was met, 1 when it timed out (02 R76). -/
def State.waitfEnd (s : State) (lc : Nat) (rd : BitVec 5) (v : Word) (pc : LAddr) : State :=
  let s := s.tickCycle lc
  let c := s.core lc
  let s := { s.setCore lc { (c.wx rd v).next with st := .running, waitf := none, waitSamp := none } with
    power := { s.power with pgated := setDel s.power.pgated lc } }
  match c.waitSamp with
  | some t => s.sampleDone lc t pc (c.pcWordOr 0) 7 c.missFlag 0 0
  | none => s

/-- WAITF: the monitor is armed, then the flag is read; the core completes at once or sleeps (02 R71-R73). The flag's bytes
are compared whether or not they are poisoned (DESIGN CHOICE, log entry 95). The read meets errors, and one that fails the
core leaves nothing to complete. -/
def execWaitf (m : Met Nat) (rd rs1 rs2 : BitVec 5) (cond : BitVec 3) (acq : Bool) (tmo : BitVec 5) (s : State) :
    Host.Outcome State Fault Refusal :=
  let i : Flik := .waitf rd rs1 rs2 cond acq tmo
  let lc := m.val
  if cond ≠ 7 ∧ s.canIssue lc i then
    let a := (s.core lc).rx rs1
    let cmp := (s.core lc).rx rs2
    match s.waitfAddr lc a with
    | .error (cause, sub) => .next (s.excAt lc i cause sub a)
    | .ok off =>
      let s := s.meet m.errs
      if !s.canIssue lc i then .next s
      else
      let s := s.noteIssue lc
      let (s, smp) := s.countSample lc 1
      let c := { (s.core lc).retarget i with waitSamp := if smp then some (s.reg (.pmuCycle lc)) else none }
      let s := s.setCore lc c
      if waitfCond cond (s.hawkWord lc off) cmp then .next (s.waitfEnd lc rd 0 c.pc)
      else
        let s := s.event lc 0x07 1
        .next (s.setCore lc { c with
          st := .sleeping, waitf := some ⟨rd, off, cmp, cond, acq, tmo, false⟩ })
  else .next s

/-- WAITF_WAKE: a sleeping WAITF whose condition an evaluation has met completes with 0 (02 R73 R74 R76). Its acquire
needs nothing more: every covered write has been performed (12 R441 R442). -/
def execWaitfWake (lc : Nat) (s : State) : Host.Outcome State Fault Refusal :=
  let c := s.core lc
  match c.waitf with
  | some w =>
    if c.st = .sleeping ∧ w.met ∧ ¬ s.windowOpen lc ∧ s.clocked lc then .next (s.waitfEnd lc w.rd 0 c.pc) else .next s
  | none => .next s

/-- WAITF_TIMEOUT: a WAITF with a timeout completes with 1 and no acquire; with 0 when the condition is met in the
same evaluation (02 R75 R76). -/
def execWaitfTimeout (lc : Nat) (s : State) : Host.Outcome State Fault Refusal :=
  let c := s.core lc
  match c.waitf with
  | some w =>
    if c.st = .sleeping ∧ w.tmo ≠ 0 ∧ ¬ (w.met ∧ s.windowOpen lc) ∧ s.clocked lc then
      .next (s.waitfEnd lc w.rd (if w.met then 0 else 1) c.pc)
    else .next s
  | none => .next s

/-- TKW_SATISFIED: a stalled TKW finds its ticket sufficient, takes the count, and issue resumes (02 R55). -/
def execTkwSatisfied (lc : Nat) (s : State) : Host.Outcome State Fault Refusal :=
  let c := s.core lc
  match c.stall with
  | .tkw tk imm =>
    if c.st = .running ∧ c.tkwMet tk imm ∧ s.clocked lc then
      let s := s.stalled lc 0x06
      let d := s.core lc
      let s := s.setCore lc { (d.take tk imm.toNat).next with stall := .none, waitSamp := none }
      .next (match c.waitSamp with
        | some t => s.sampleDone lc t c.pc (c.pcWordOr 0) 7 c.missFlag (s.reg (.pmuCycle lc) - t).toNat 0
        | none => s)
    else .next s
  | _ => .next s

/-- ILLEGAL_INSTRUCTION: the word at the PC of a core that may issue spells no instruction: ILLEGAL (02 R11 R42). -/
def execIllegalInstruction (lc : Nat) (word : BitVec 32) (s : State) : Host.Outcome State Fault Refusal :=
  let c := s.core lc
  if s.valid lc ∧ ¬ s.failed lc ∧ s.clocked lc ∧ c.st = .running ∧ c.stall = .none ∧ c.icWord c.pc = some word
      ∧ decode word = none then
    .next (s.setCore lc (c.takeExc (excWord 1 0 0 0) 0 word))
  else .next s

end Sys2Proof.Machine
end

