-- ==== Sys2Proof/Machine/Dispatch.lean ====
section
/-!
DEFINITION. One arm per command: the meaning of each, called with the command's operands and the state whose queue
has already lost the command.
-/

namespace Sys2Proof.Machine

def exec (i : Instr) (s : State) : Host.Outcome State Fault Refusal :=
  match i with
  | .add lc rd rs1 rs2 => Sys2Proof.Machine.execAdd lc rd rs1 rs2 s
  | .sub lc rd rs1 rs2 => Sys2Proof.Machine.execSub lc rd rs1 rs2 s
  | .and lc rd rs1 rs2 => Sys2Proof.Machine.execAnd lc rd rs1 rs2 s
  | .or lc rd rs1 rs2 => Sys2Proof.Machine.execOr lc rd rs1 rs2 s
  | .xor lc rd rs1 rs2 => Sys2Proof.Machine.execXor lc rd rs1 rs2 s
  | .sll lc rd rs1 rs2 => Sys2Proof.Machine.execSll lc rd rs1 rs2 s
  | .srl lc rd rs1 rs2 => Sys2Proof.Machine.execSrl lc rd rs1 rs2 s
  | .sra lc rd rs1 rs2 => Sys2Proof.Machine.execSra lc rd rs1 rs2 s
  | .slt lc rd rs1 rs2 => Sys2Proof.Machine.execSlt lc rd rs1 rs2 s
  | .sltu lc rd rs1 rs2 => Sys2Proof.Machine.execSltu lc rd rs1 rs2 s
  | .min lc rd rs1 rs2 => Sys2Proof.Machine.execMin lc rd rs1 rs2 s
  | .max lc rd rs1 rs2 => Sys2Proof.Machine.execMax lc rd rs1 rs2 s
  | .minu lc rd rs1 rs2 => Sys2Proof.Machine.execMinu lc rd rs1 rs2 s
  | .maxu lc rd rs1 rs2 => Sys2Proof.Machine.execMaxu lc rd rs1 rs2 s
  | .mul lc rd rs1 rs2 => Sys2Proof.Machine.execMul lc rd rs1 rs2 s
  | .mulh lc rd rs1 rs2 => Sys2Proof.Machine.execMulh lc rd rs1 rs2 s
  | .mulhu lc rd rs1 rs2 => Sys2Proof.Machine.execMulhu lc rd rs1 rs2 s
  | .div lc rd rs1 rs2 => Sys2Proof.Machine.execDiv lc rd rs1 rs2 s
  | .divu lc rd rs1 rs2 => Sys2Proof.Machine.execDivu lc rd rs1 rs2 s
  | .rem lc rd rs1 rs2 => Sys2Proof.Machine.execRem lc rd rs1 rs2 s
  | .remu lc rd rs1 rs2 => Sys2Proof.Machine.execRemu lc rd rs1 rs2 s
  | .fadd lc rd rs1 rs2 => Sys2Proof.Machine.execFadd lc rd rs1 rs2 s
  | .fsub lc rd rs1 rs2 => Sys2Proof.Machine.execFsub lc rd rs1 rs2 s
  | .fmul lc rd rs1 rs2 => Sys2Proof.Machine.execFmul lc rd rs1 rs2 s
  | .fmin lc rd rs1 rs2 => Sys2Proof.Machine.execFmin lc rd rs1 rs2 s
  | .fmax lc rd rs1 rs2 => Sys2Proof.Machine.execFmax lc rd rs1 rs2 s
  | .feq lc rd rs1 rs2 => Sys2Proof.Machine.execFeq lc rd rs1 rs2 s
  | .flt lc rd rs1 rs2 => Sys2Proof.Machine.execFlt lc rd rs1 rs2 s
  | .fle lc rd rs1 rs2 => Sys2Proof.Machine.execFle lc rd rs1 rs2 s
  | .fcvtSL lc rd rs1 => Sys2Proof.Machine.execFcvtSL lc rd rs1 s
  | .fcvtLS lc rd rs1 => Sys2Proof.Machine.execFcvtLS lc rd rs1 s
  | .addi lc rd rs1 imm => Sys2Proof.Machine.execAddi lc rd rs1 imm s
  | .andi lc rd rs1 imm => Sys2Proof.Machine.execAndi lc rd rs1 imm s
  | .ori lc rd rs1 imm => Sys2Proof.Machine.execOri lc rd rs1 imm s
  | .xori lc rd rs1 imm => Sys2Proof.Machine.execXori lc rd rs1 imm s
  | .slti lc rd rs1 imm => Sys2Proof.Machine.execSlti lc rd rs1 imm s
  | .slli lc rd rs1 sh => Sys2Proof.Machine.execSlli lc rd rs1 sh s
  | .srli lc rd rs1 sh => Sys2Proof.Machine.execSrli lc rd rs1 sh s
  | .srai lc rd rs1 sh => Sys2Proof.Machine.execSrai lc rd rs1 sh s
  | .lui lc rd imm => Sys2Proof.Machine.execLui lc rd imm s
  | .lb lc rd rs1 imm => Sys2Proof.Machine.execLb lc rd rs1 imm s
  | .lh lc rd rs1 imm => Sys2Proof.Machine.execLh lc rd rs1 imm s
  | .lw lc rd rs1 imm => Sys2Proof.Machine.execLw lc rd rs1 imm s
  | .ld lc rd rs1 imm => Sys2Proof.Machine.execLd lc rd rs1 imm s
  | .lbu lc rd rs1 imm => Sys2Proof.Machine.execLbu lc rd rs1 imm s
  | .lhu lc rd rs1 imm => Sys2Proof.Machine.execLhu lc rd rs1 imm s
  | .lwu lc rd rs1 imm => Sys2Proof.Machine.execLwu lc rd rs1 imm s
  | .sb lc rs2 rs1 imm => Sys2Proof.Machine.execSb lc rs2 rs1 imm s
  | .sh lc rs2 rs1 imm => Sys2Proof.Machine.execSh lc rs2 rs1 imm s
  | .sw lc rs2 rs1 imm => Sys2Proof.Machine.execSw lc rs2 rs1 imm s
  | .st lc rs2 rs1 imm => Sys2Proof.Machine.execSt lc rs2 rs1 imm s
  | .stRel lc rs2 rs1 imm => Sys2Proof.Machine.execStRel lc rs2 rs1 imm s
  | .brEq lc rs1 rs2 off => Sys2Proof.Machine.execBrEq lc rs1 rs2 off s
  | .brNe lc rs1 rs2 off => Sys2Proof.Machine.execBrNe lc rs1 rs2 off s
  | .brLt lc rs1 rs2 off => Sys2Proof.Machine.execBrLt lc rs1 rs2 off s
  | .brGe lc rs1 rs2 off => Sys2Proof.Machine.execBrGe lc rs1 rs2 off s
  | .brLtu lc rs1 rs2 off => Sys2Proof.Machine.execBrLtu lc rs1 rs2 off s
  | .brGeu lc rs1 rs2 off => Sys2Proof.Machine.execBrGeu lc rs1 rs2 off s
  | .jal lc rd off => Sys2Proof.Machine.execJal lc rd off s
  | .jalr lc rd rs1 imm => Sys2Proof.Machine.execJalr lc rd rs1 imm s
  | .tks lc tk imm => Sys2Proof.Machine.execTks lc tk imm s
  | .tkw lc tk imm => Sys2Proof.Machine.execTkw lc tk imm s
  | .tkrd lc xd tk => Sys2Proof.Machine.execTkrd lc xd tk s
  | .tkset lc tk xs => Sys2Proof.Machine.execTkset lc tk xs s
  | .dld lc dn xs imm => Sys2Proof.Machine.execDld lc dn xs imm s
  | .dst lc dn xs imm => Sys2Proof.Machine.execDst lc dn xs imm s
  | .dset lc dn w xs => Sys2Proof.Machine.execDset lc dn w xs s
  | .dget lc xd dn w => Sys2Proof.Machine.execDget lc xd dn w s
  | .dcpy lc dn dm => Sys2Proof.Machine.execDcpy lc dn dm s
  | .dzero lc dn => Sys2Proof.Machine.execDzero lc dn s
  | .sumrd lc xd slot field => Sys2Proof.Machine.execSumrd lc xd slot field s
  | .fence lc => Sys2Proof.Machine.execFence lc s
  | .icinv lc => Sys2Proof.Machine.execIcinv lc s
  | .seed lc xs => Sys2Proof.Machine.execSeed lc xs s
  | .brk lc imm => Sys2Proof.Machine.execBrk lc imm s
  | .halt lc xs => Sys2Proof.Machine.execHalt lc xs s
  | .waitf lc rd rs1 rs2 cond acq tmo => Sys2Proof.Machine.execWaitf lc rd rs1 rs2 cond acq tmo s
  | .waitfWake lc => Sys2Proof.Machine.execWaitfWake lc s
  | .waitfTimeout lc => Sys2Proof.Machine.execWaitfTimeout lc s
  | .tkwSatisfied lc => Sys2Proof.Machine.execTkwSatisfied lc s
  | .loadDataReturn lc errs => Sys2Proof.Machine.execLoadDataReturn lc errs s
  | .storePerformed lc idx => Sys2Proof.Machine.execStorePerformed lc idx s
  | .unitInstructionStart lc u => Sys2Proof.Machine.execUnitInstructionStart lc u s
  | .unitInstructionComplete lc u => Sys2Proof.Machine.execUnitInstructionComplete lc u s
  | .ticketDeadlock lc => Sys2Proof.Machine.execTicketDeadlock lc s
  | .coreDrainComplete lc => Sys2Proof.Machine.execCoreDrainComplete lc s
  | .icacheMissFill lc errs => Sys2Proof.Machine.execIcacheMissFill lc errs s
  | .icacheParityError lc line => Sys2Proof.Machine.execIcacheParityError lc line s
  | .controlPathParityError lc => Sys2Proof.Machine.execControlPathParityError lc s
  | .coreLaunchEntry e => Sys2Proof.Machine.execCoreLaunchEntry e s
  | .coreCtrlStop lc => Sys2Proof.Machine.execCoreCtrlStop lc s
  | .movRowUp lc step => Sys2Proof.Machine.execMovRowUp lc step s
  | .movRowDn lc step => Sys2Proof.Machine.execMovRowDn lc step s
  | .movBlk lc step => Sys2Proof.Machine.execMovBlk lc step s
  | .movRcflWb lc step => Sys2Proof.Machine.execMovRcflWb lc step s
  | .movRcflWbinv lc step => Sys2Proof.Machine.execMovRcflWbinv lc step s
  | .movPutf lc step => Sys2Proof.Machine.execMovPutf lc step s
  | .trwMma lc step => Sys2Proof.Machine.execTrwMma lc step s
  | .trwDrain lc step => Sys2Proof.Machine.execTrwDrain lc step s
  | .trwLdacc lc step => Sys2Proof.Machine.execTrwLdacc lc step s
  | .trwClr lc step => Sys2Proof.Machine.execTrwClr lc step s
  | .trwAccumulatorParityError lc bankB row col => Sys2Proof.Machine.execTrwAccumulatorParityError lc bankB row col s
  | .brsLdp lc step => Sys2Proof.Machine.execBrsLdp lc step s
  | .brsRun lc step => Sys2Proof.Machine.execBrsRun lc step s
  | .stcFwd lc step => Sys2Proof.Machine.execStcFwd lc step s
  | .stcBwd lc step => Sys2Proof.Machine.execStcBwd lc step s
  | .stcPteditInit lc step => Sys2Proof.Machine.execStcPteditInit lc step s
  | .stcPteditAppend lc step => Sys2Proof.Machine.execStcPteditAppend lc step s
  | .stcPteditExtend lc step => Sys2Proof.Machine.execStcPteditExtend lc step s
  | .stcPteditDrop lc step => Sys2Proof.Machine.execStcPteditDrop lc step s
  | .stcPteditReplace lc step => Sys2Proof.Machine.execStcPteditReplace lc step s
  | .stcPteditTrunc lc step => Sys2Proof.Machine.execStcPteditTrunc lc step s
  | .stcPteditFree lc step => Sys2Proof.Machine.execStcPteditFree lc step s
  | .stcBucket lc step => Sys2Proof.Machine.execStcBucket lc step s
  | .stcDec lc step => Sys2Proof.Machine.execStcDec lc step s
  | .holdAcquire lc => Sys2Proof.Machine.execHoldAcquire lc s
  | .holdRelease lc => Sys2Proof.Machine.execHoldRelease lc s
  | .deferredEditApply seq => Sys2Proof.Machine.execDeferredEditApply seq s
  | .mcHoldRelease lc => Sys2Proof.Machine.execMcHoldRelease lc s
  | .kvTableEnable req data => Sys2Proof.Machine.execKvTableEnable req data s
  | .kvTableDisable req data => Sys2Proof.Machine.execKvTableDisable req data s
  | .rlrVld lc step => Sys2Proof.Machine.execRlrVld lc step s
  | .rlrMv lc step => Sys2Proof.Machine.execRlrMv lc step s
  | .rlrRd lc step => Sys2Proof.Machine.execRlrRd lc step s
  | .rlrWr lc step => Sys2Proof.Machine.execRlrWr lc step s
  | .rollerCommandArrival lc stack errs => Sys2Proof.Machine.execRollerCommandArrival lc stack errs s
  | .rollerStackReport stack => Sys2Proof.Machine.execRollerStackReport stack s
  | .rollerPassEnd p => Sys2Proof.Machine.execRollerPassEnd p s
  | .channelRefresh chan => Sys2Proof.Machine.execChannelRefresh chan s
  | .rollerDisarmComplete stack => Sys2Proof.Machine.execRollerDisarmComplete stack s
  | .scrMcast lc step => Sys2Proof.Machine.execScrMcast lc step s
  | .scrRed lc step => Sys2Proof.Machine.execScrRed lc step s
  | .scrBar lc step => Sys2Proof.Machine.execScrBar lc step s
  | .scrFlagSet lc step => Sys2Proof.Machine.execScrFlagSet lc step s
  | .scrFlagAdd lc step => Sys2Proof.Machine.execScrFlagAdd lc step s
  | .scrFlagOr lc step => Sys2Proof.Machine.execScrFlagOr lc step s
  | .scrFlagMaxu lc step => Sys2Proof.Machine.execScrFlagMaxu lc step s
  | .mcastCopyDelivered lc target => Sys2Proof.Machine.execMcastCopyDelivered lc target s
  | .redContributionArrival lc => Sys2Proof.Machine.execRedContributionArrival lc s
  | .barrierArrival lc => Sys2Proof.Machine.execBarrierArrival lc s
  | .barrierReleaseDelivered lc => Sys2Proof.Machine.execBarrierReleaseDelivered lc s
  | .collTimeout lc => Sys2Proof.Machine.execCollTimeout lc s
  | .hawkRemoteWrite lc idx => Sys2Proof.Machine.execHawkRemoteWrite lc idx s
  | .hawkRemoteReadRequest lc idx errs => Sys2Proof.Machine.execHawkRemoteReadRequest lc idx errs s
  | .seamRouterWake half => Sys2Proof.Machine.execSeamRouterWake half s
  | .seamRouterWakeComplete half => Sys2Proof.Machine.execSeamRouterWakeComplete half s
  | .scrimLinkParityError site lower again c => Sys2Proof.Machine.execScrimLinkParityError site lower again c s
  | .vcRowCommit site dir struck errs => Sys2Proof.Machine.execVcRowCommit site dir struck errs s
  | .vcRowReplay site dir group attempt row => Sys2Proof.Machine.execVcRowReplay site dir group attempt row s
  | .vcLaneFailed site dir group lane => Sys2Proof.Machine.execVcLaneFailed site dir group lane s
  | .vcLaneRepair site dir group lane => Sys2Proof.Machine.execVcLaneRepair site dir group lane s
  | .vcWidthChange site dir => Sys2Proof.Machine.execVcWidthChange site dir s
  | .probeMeasurement site dir group eye centre => Sys2Proof.Machine.execProbeMeasurement site dir group eye centre s
  | .retuneWindowDue site cause => Sys2Proof.Machine.execRetuneWindowDue site cause s
  | .retuneWindowOpen site => Sys2Proof.Machine.execRetuneWindowOpen site s
  | .retuneWindowEnd site found => Sys2Proof.Machine.execRetuneWindowEnd site found s
  | .retuneWindowForced site msDue => Sys2Proof.Machine.execRetuneWindowForced site msDue s
  | .pllLockComplete half => Sys2Proof.Machine.execPllLockComplete half s
  | .halfClockResume half => Sys2Proof.Machine.execHalfClockResume half s
  | .railRampComplete => Sys2Proof.Machine.execRailRampComplete s
  | .fullLathReset => Sys2Proof.Machine.execFullLathReset s
  | .keritPortReset port => Sys2Proof.Machine.execKeritPortReset port s
  | .keritPortResetEnd port => Sys2Proof.Machine.execKeritPortResetEnd port s
  | .renderControllerReset chan => Sys2Proof.Machine.execRenderControllerReset chan s
  | .renderControllerResetEnd chan => Sys2Proof.Machine.execRenderControllerResetEnd chan s
  | .barRead bar off len errs => Sys2Proof.Machine.execBarRead bar off len errs s
  | .barWrite bar off bytes ep => Sys2Proof.Machine.execBarWrite bar off bytes ep s
  | .registerWrite req addr bytes => Sys2Proof.Machine.execRegisterWrite req addr bytes s
  | .launchSlotWrite slot off bytes => Sys2Proof.Machine.execLaunchSlotWrite slot off bytes s
  | .launchStart slot => Sys2Proof.Machine.execLaunchStart slot s
  | .launchEnd slot => Sys2Proof.Machine.execLaunchEnd slot s
  | .msixVectorUnmask vec => Sys2Proof.Machine.execMsixVectorUnmask vec s
  | .functionLevelReset => Sys2Proof.Machine.execFunctionLevelReset s
  | .hotReset => Sys2Proof.Machine.execHotReset s
  | .pcieConfigRequest r => Sys2Proof.Machine.execPcieConfigRequest r s
  | .hostReadCompletion lc addr bytes ep => Sys2Proof.Machine.execHostReadCompletion lc addr bytes ep s
  | .d3hotEntry => Sys2Proof.Machine.execD3hotEntry s
  | .d0Return => Sys2Proof.Machine.execD0Return s
  | .asleepWakeComplete => Sys2Proof.Machine.execAsleepWakeComplete s
  | .dataFrame port f => Sys2Proof.Machine.execDataFrame port f s
  | .nakFrame port f want => Sys2Proof.Machine.execNakFrame port f want s
  | .idleFrame port f eq => Sys2Proof.Machine.execIdleFrame port f eq s
  | .ackTimeoutReplay port => Sys2Proof.Machine.execAckTimeoutReplay port s
  | .codewordLockLoss port => Sys2Proof.Machine.execCodewordLockLoss port s
  | .portTrainingComplete port t => Sys2Proof.Machine.execPortTrainingComplete port t s
  | .portRetrainRetry port => Sys2Proof.Machine.execPortRetrainRetry port s
  | .put port => Sys2Proof.Machine.execPut port s
  | .flag port => Sys2Proof.Machine.execFlag port s
  | .read port errs => Sys2Proof.Machine.execRead port errs s
  | .readData port => Sys2Proof.Machine.execReadData port s
  | .pack port => Sys2Proof.Machine.execPack port s
  | .flowFailover flow => Sys2Proof.Machine.execFlowFailover flow s
  | .flowReturnHome flow => Sys2Proof.Machine.execFlowReturnHome flow s
  | .e2eTimeout lc u => Sys2Proof.Machine.execE2eTimeout lc u s
  | .quietEntry port => Sys2Proof.Machine.execQuietEntry port s
  | .quietExit port => Sys2Proof.Machine.execQuietExit port s
  | .fullWidthResume port => Sys2Proof.Machine.execFullWidthResume port s
  | .keritCoefficientStore port coef => Sys2Proof.Machine.execKeritCoefficientStore port coef s
  | .mgtImageReceive srcPos m => Sys2Proof.Machine.execMgtImageReceive srcPos m s
  | .memberReport pos ok => Sys2Proof.Machine.execMemberReport pos ok s
  | .memberReportTimeout pos => Sys2Proof.Machine.execMemberReportTimeout pos s
  | .klkCtrlEn req data => Sys2Proof.Machine.execKlkCtrlEn req data s
  | .klkLockSet => Sys2Proof.Machine.execKlkLockSet s
  | .lathVcPolicyLock req data => Sys2Proof.Machine.execLathVcPolicyLock req data s
  | .scrCfgLock req data => Sys2Proof.Machine.execScrCfgLock req data s
  | .start inp => Sys2Proof.Machine.execStart inp s
  | .snagAppend f => Sys2Proof.Machine.execSnagAppend f s
  | .mcRemapGo req data => Sys2Proof.Machine.execMcRemapGo req data s
  | .remapComplete => Sys2Proof.Machine.execRemapComplete s
  | .rubDownGo req data => Sys2Proof.Machine.execRubDownGo req data s
  | .rubDownStop req data errs => Sys2Proof.Machine.execRubDownStop req data errs s
  | .rubDownComplete errs => Sys2Proof.Machine.execRubDownComplete errs s
  | .mcErrStatusClear req data => Sys2Proof.Machine.execMcErrStatusClear req data s
  | .finishRequest req data => Sys2Proof.Machine.execFinishRequest req data s
  | .finishChangeAccept => Sys2Proof.Machine.execFinishChangeAccept s
  | .powerStateEntry scope => Sys2Proof.Machine.execPowerStateEntry scope s
  | .powerStateWake scope => Sys2Proof.Machine.execPowerStateWake scope s
  | .powerSample p v48 vaux uj fillUj => Sys2Proof.Machine.execPowerSample p v48 vaux uj fillUj s
  | .thermalSample temps tin p => Sys2Proof.Machine.execThermalSample temps tin p s
  | .thermalEstimateStore => Sys2Proof.Machine.execThermalEstimateStore s
  | .hotSpotFall site temp => Sys2Proof.Machine.execHotSpotFall site temp s
  | .hotSpotRise site temp => Sys2Proof.Machine.execHotSpotRise site temp s
  | .hotSpotCapStep site temp => Sys2Proof.Machine.execHotSpotCapStep site temp s
  | .thermalTrip temp => Sys2Proof.Machine.execThermalTrip temp s
  | .rainflowSample temp => Sys2Proof.Machine.execRainflowSample temp s
  | .lifeRecompute => Sys2Proof.Machine.execLifeRecompute s
  | .floorHoldExpiry => Sys2Proof.Machine.execFloorHoldExpiry s
  | .brakeNAssert => Sys2Proof.Machine.execBrakeNAssert s
  | .brakeNDeassert => Sys2Proof.Machine.execBrakeNDeassert s
  | .auxApply => Sys2Proof.Machine.execAuxApply s
  | .auxLoss => Sys2Proof.Machine.execAuxLoss s
  | .stageStart v => Sys2Proof.Machine.execStageStart v s
  | .stageStop mv => Sys2Proof.Machine.execStageStop mv s
  | .perstAssert => Sys2Proof.Machine.execPerstAssert s
  | .perstDeassert => Sys2Proof.Machine.execPerstDeassert s
  | .mcWatchdogExpiry => Sys2Proof.Machine.execMcWatchdogExpiry s
  | .i3cEntdaa addr => Sys2Proof.Machine.execI3cEntdaa addr s
  | .getVersion tr q => Sys2Proof.Machine.execGetVersion tr q s
  | .getCapabilities tr q => Sys2Proof.Machine.execGetCapabilities tr q s
  | .negotiateAlgorithms tr q => Sys2Proof.Machine.execNegotiateAlgorithms tr q s
  | .getDigests tr q => Sys2Proof.Machine.execGetDigests tr q s
  | .getCertificate tr q => Sys2Proof.Machine.execGetCertificate tr q s
  | .challenge tr q => Sys2Proof.Machine.execChallenge tr q s
  | .getMeasurements tr q => Sys2Proof.Machine.execGetMeasurements tr q s
  | .fwBegin ctl => Sys2Proof.Machine.execFwBegin ctl s
  | .fwWrite ctl => Sys2Proof.Machine.execFwWrite ctl s
  | .fwFinish ctl => Sys2Proof.Machine.execFwFinish ctl s
  | .fwActivate ctl => Sys2Proof.Machine.execFwActivate ctl s
  | .fwCommit ctl => Sys2Proof.Machine.execFwCommit ctl s
  | .fwAbort ctl => Sys2Proof.Machine.execFwAbort ctl s
  | .fwCommandComplete flashOk => Sys2Proof.Machine.execFwCommandComplete flashOk s
  | .dbgRequest ctl => Sys2Proof.Machine.execDbgRequest ctl s
  | .dbgSubmit ctl => Sys2Proof.Machine.execDbgSubmit ctl s
  | .dbgRelock ctl => Sys2Proof.Machine.execDbgRelock ctl s
  | .dbgEnrol ctl => Sys2Proof.Machine.execDbgEnrol ctl s
  | .dbgCommandComplete => Sys2Proof.Machine.execDbgCommandComplete s
  | .nonceExpiry => Sys2Proof.Machine.execNonceExpiry s
  | .pmuMarkWrite lc req data => Sys2Proof.Machine.execPmuMarkWrite lc req data s
  | .pmuSamplingEnable lc req data => Sys2Proof.Machine.execPmuSamplingEnable lc req data s
  | .pmuSamplingDisable lc req data => Sys2Proof.Machine.execPmuSamplingDisable lc req data s
  | .sampleSpill lc => Sys2Proof.Machine.execSampleSpill lc s
  | .pmuPermSave lc req data => Sys2Proof.Machine.execPmuPermSave lc req data s
  | .pmuPermLock lc req data => Sys2Proof.Machine.execPmuPermLock lc req data s
  | .illegalInstruction lc word => Sys2Proof.Machine.execIllegalInstruction lc word s
  | .dramRowClose chan bank => Sys2Proof.Machine.execDramRowClose chan bank s
  | .inletTemperatureChange tin => Sys2Proof.Machine.execInletTemperatureChange tin s
  | .snagListClear idx => Sys2Proof.Machine.execSnagListClear idx s

end Sys2Proof.Machine
end

