-- ==== Sys2Proof/Safety.lean ====
section
/-!
DEFINITION. The terms that statements use: sound states and safe runs, the commands of each function, what an
instruction may change beside its own effect, and the results of the integer instructions as the spec's tables give
them.
-/

namespace Sys2Proof.Machine

/-! ### Sound states and runs -/

/-- Every memory of the device is in its canonical form: cells by rising address, none listed that holds 0. -/
def State.Sound (s : State) : Prop := Memory.wf s.mem = true

/-- A step goes on: it neither faults nor refuses. -/
def Goes (o : Host.Outcome State Fault Refusal) (s : State) : Prop := o = Host.Outcome.next s

/-- Several steps, each of which goes on. -/
inductive Run : State → State → Prop
  | stay (s : State) : Run s s
  | more (s t u : State) (h : step s = Host.Outcome.next t) (r : Run t u) : Run s u

/-! ### The command of each function -/

/-- The command that issues an OP instruction. -/
def opCmd : AluOp → Nat → BitVec 5 → BitVec 5 → BitVec 5 → Instr
  | .add => .add | .sub => .sub | .and => .and | .or => .or | .xor => .xor | .sll => .sll | .srl => .srl
  | .sra => .sra | .slt => .slt | .sltu => .sltu | .min => .min | .max => .max | .minu => .minu | .maxu => .maxu
  | .mul => .mul | .mulh => .mulh | .mulhu => .mulhu | .div => .div | .divu => .divu | .rem => .rem | .remu => .remu

/-- The command that issues an OPF instruction of two sources. -/
def opfCmd : FpOp → Nat → BitVec 5 → BitVec 5 → BitVec 5 → Instr
  | .fadd => .fadd | .fsub => .fsub | .fmul => .fmul | .fmin => .fmin | .fmax => .fmax | .feq => .feq
  | .flt => .flt | .fle => .fle

/-- The command that issues an immediate form. -/
def immCmd : ImmOp → Nat → BitVec 5 → BitVec 5 → BitVec 15 → Instr
  | .addi => .addi | .andi => .andi | .ori => .ori | .xori => .xori | .slti => .slti

/-- The command that issues a shift by an immediate amount. -/
def shCmd : ShOp → Nat → BitVec 5 → BitVec 5 → BitVec 6 → Instr
  | .slli => .slli | .srli => .srli | .srai => .srai

/-- The command that issues a load. -/
def loadCmd : LoadW → Nat → BitVec 5 → BitVec 5 → BitVec 12 → Instr
  | .lb => .lb | .lh => .lh | .lw => .lw | .ld => .ld | .lbu => .lbu | .lhu => .lhu | .lwu => .lwu

/-- The command that issues a store; one narrower than a word reads the word that it merges into, and may meet errors. -/
def storeCmd (w : StoreW) (lc : Nat) (rs base : BitVec 5) (off : BitVec 12) (errs : List MemErr) : Instr :=
  match w with
  | .sb => .sb ⟨lc, errs⟩ rs base off
  | .sh => .sh ⟨lc, errs⟩ rs base off
  | .sw => .sw ⟨lc, errs⟩ rs base off
  | .st => .st lc rs base off
  | .stRel => .stRel lc rs base off

/-- The command that issues a branch. -/
def brCmd : Cond → Nat → BitVec 5 → BitVec 5 → BitVec 12 → Instr
  | .eq => .brEq | .ne => .brNe | .lt => .brLt | .ge => .brGe | .ltu => .brLtu | .geu => .brGeu

/-! ### Results of the integer instructions (02 R43 R44) -/

/-- What the table of R43 and R44 say of the result r of an OP instruction on a and b: unsigned values as toNat,
signed values as toInt. -/
def AluMeans (f : AluOp) (a b r : Word) : Prop :=
  match f with
  | .add => r.toNat = (a.toNat + b.toNat) % 2 ^ 64
  | .sub => r.toNat = (a.toNat + (2 ^ 64 - b.toNat)) % 2 ^ 64
  | .and => ∀ i, r.getLsbD i = (a.getLsbD i && b.getLsbD i)
  | .or => ∀ i, r.getLsbD i = (a.getLsbD i || b.getLsbD i)
  | .xor => ∀ i, r.getLsbD i = (a.getLsbD i != b.getLsbD i)
  | .sll => r.toNat = a.toNat * 2 ^ (b.toNat % 64) % 2 ^ 64
  | .srl => r.toNat = a.toNat / 2 ^ (b.toNat % 64)
  | .sra => r.toInt = a.toInt / 2 ^ (b.toNat % 64)
  | .slt => r = if a.toInt < b.toInt then 1 else 0
  | .sltu => r = if a.toNat < b.toNat then 1 else 0
  | .min => r.toInt = min a.toInt b.toInt
  | .max => r.toInt = max a.toInt b.toInt
  | .minu => r.toNat = min a.toNat b.toNat
  | .maxu => r.toNat = max a.toNat b.toNat
  | .mul => r.toNat = a.toNat * b.toNat % 2 ^ 64
  | .mulh => r.toInt = a.toInt * b.toInt / 2 ^ 64
  | .mulhu => r.toNat = a.toNat * b.toNat / 2 ^ 64
  | .div => if b = 0 then r = 0xFFFFFFFFFFFFFFFF#64 else r = BitVec.ofInt 64 (a.toInt.tdiv b.toInt)
  | .divu => if b = 0 then r = 0xFFFFFFFFFFFFFFFF#64 else r.toNat = a.toNat / b.toNat
  | .rem => if b = 0 then r = a else r = BitVec.ofInt 64 (a.toInt.tmod b.toInt)
  | .remu => if b = 0 then r = a else r.toNat = a.toNat % b.toNat

/-- The OP instruction that an immediate form combines as (R46). -/
def immAlu : ImmOp → AluOp
  | .addi => .add | .andi => .and | .ori => .or | .xori => .xor | .slti => .slt

/-- The OP instruction that a shift by an immediate amount acts as (R47). -/
def shAlu : ShOp → AluOp
  | .slli => .sll | .srli => .srl | .srai => .sra

/-- Whether a branch's condition holds of two values (R53). -/
def CondMeans (k : Cond) (a b : Word) : Prop :=
  match k with
  | .eq => a.toNat = b.toNat
  | .ne => a.toNat ≠ b.toNat
  | .lt => a.toInt < b.toInt
  | .ge => b.toInt ≤ a.toInt
  | .ltu => a.toNat < b.toNat
  | .geu => b.toNat ≤ a.toNat

/-! ### Frames -/

/-- The addresses of the registers in which a core counts its cycles, events and dropped samples (19 R620-R629). -/
def CountAddr (lc a : Nat) : Prop :=
  a = (Reg.pmuCycle lc).addr ∨ a = (Reg.pmuOvf lc).addr ∨ a = (Reg.pmuSstat lc).addr
    ∨ ∃ i, i < 8 ∧ a = (Reg.pmuCnt lc i).addr

/-- A command that acts on one core alone: memory, every other core, every register but those in which the core
counts, and every other field of the state stay; the core's own samples and the counter of free values may move on. -/
structure CoreFrame (lc : Nat) (s t : State) : Prop where
  rest : t = { s with cores := t.cores, regs := t.regs, pmus := t.pmus, free := t.free }
  cores : ∀ k, k ≠ lc → t.core k = s.core k
  samples : ∀ k, k ≠ s.siteOf lc → mapGet? t.pmus k = mapGet? s.pmus k
  regs : ∀ a, ¬ CountAddr lc a → mapGet? t.regs a = mapGet? s.regs a

/-- One scalar register takes a value of which P holds; x0 discards what is written to it and reads 0 (02 R30). -/
def WritesX (c d : Core) (rd : BitVec 5) (P : Word → Prop) : Prop :=
  (∀ r, r ≠ rd → d.rx r = c.rx r) ∧ (rd ≠ 0 → P (d.rx rd)) ∧ d.rx 0 = 0

/-- The outstanding loads once an instruction writes a scalar and a descriptor register: a load that was to write one of them
writes nothing when its data return (02 R62 R65). -/
def passed (ls : List Load) (x : Option (BitVec 5)) (n : Option (BitVec 4)) : List Load :=
  ls.map fun l =>
    let gone := match l.dst with
      | .x r _ => x == some r
      | .d m => n == some m
    if gone then { l with stale := true } else l

/-- Of a core only scalar register rd changed: the PC moved to the next instruction, and the line of the PC became the
most recently used of the instruction cache (02 R80); which results come later is kept for the samples of MUL, DIV and OPF (02
R62, 19 R625). -/
def OnlyX (c d : Core) (rd : BitVec 5) : Prop :=
  d = { c.touch with
    x := d.x, loads := passed c.loads (some rd) none, late := d.late, pc := c.pc + 4, icMiss := false, qFull := false }

/-- What a load of a width makes of the bytes that it read, the first at the lowest address (02 R49). -/
def LoadMeans (w : LoadW) (bs : List Byte) (r : Word) : Prop :=
  let v := leNat bs
  match w with
  | .lb => r.toInt = if v < 2 ^ 7 then (v : Int) else (v : Int) - 2 ^ 8
  | .lh => r.toInt = if v < 2 ^ 15 then (v : Int) else (v : Int) - 2 ^ 16
  | .lw => r.toInt = if v < 2 ^ 31 then (v : Int) else (v : Int) - 2 ^ 32
  | .ld | .lbu | .lhu | .lwu => r.toNat = v

/-- Bytes of a load's width (02 R49). -/
def loadBytes : LoadW → Nat
  | .lb | .lbu => 1
  | .lh | .lhu => 2
  | .lw | .lwu => 4
  | .ld => 8

/-- The exception that an address of a load or store of `size` bytes raises, as cause and subcause, in the order of 02
R51: ALIGN, bits [63:44], the map, a failed core; none where the access may be made. -/
def AddrRule (s : State) (lc : Nat) (a : Word) (size : Nat) (e : Option (Nat × Nat)) : Prop :=
  if a.toNat % size ≠ 0 then e = some (3, 0)
  else if 2 ^ 44 ≤ a.toNat then e = some (2, 3)
  else match s.resolve (some lc) a.toNat with
    | .unmapped | .host _ => e = some (2, 1)
    | .dead => e = some (2, 2)
    | .render _ _ | .hawk _ _ | .hod _ | .reg _ => e = none

/-- A core in a launch takes an exception (02 R88 R89 R95 R96): it drains, its queued unit instructions that have not
started are gone, and the first exception of the launch is recorded; scalar, descriptor and ticket registers and the
summary slots stay. -/
structure TakesExc (c d : Core) (cause sub : Nat) (pc : LAddr) (addr : Word) (insn : BitVec 32) : Prop where
  state : d.st = .draining
  queues : ∀ u, d.q u = (c.q u).filter (·.started)
  first : fld c.excCause 0 8 = 0 →
    fld d.excCause 0 8 = cause ∧ fld d.excCause 8 8 = sub ∧ d.excPc = pc ∧ d.excAddr = addr ∧ d.excInsn = insn
  later : fld c.excCause 0 8 ≠ 0 →
    d.excCause = c.excCause ∧ d.excPc = c.excPc ∧ d.excAddr = c.excAddr ∧ d.excInsn = c.excInsn
  kept : d.x = c.x ∧ d.pc = c.pc ∧ d.d = c.d ∧ d.tk = c.tk ∧ d.sum = c.sum ∧ d.loads = c.loads ∧ d.stores = c.stores

/-- The bytes that a command stores: `bs` from cell `key` on, and every other cell of the device's memories as before. -/
def Stores (s t : State) (key : Nat) (bs : List Byte) : Prop :=
  ∀ k, memGet t.mem k = if key ≤ k ∧ k < key + bs.length then bs.getD (k - key) 0 else memGet s.mem k

/-- Every cell of the device's memories reads as before. -/
def SameMemory (s t : State) : Prop := ∀ k, memGet t.mem k = memGet s.mem k

/-- What a store leaves alone beside the bytes it stores and the poison of the words it covers: every register but those
in which the core counts, and of every other core all but the monitor of its WAITF. -/
structure StoreFrame (lc : Nat) (s t : State) : Prop where
  rest : t = { s with mem := t.mem, poison := t.poison, cores := t.cores, regs := t.regs, pmus := t.pmus, free := t.free }
  cores : ∀ k, k ≠ lc → t.core k = { s.core k with waitf := (t.core k).waitf }
  samples : ∀ k, k ≠ s.siteOf lc → mapGet? t.pmus k = mapGet? s.pmus k
  regs : ∀ a, ¬ CountAddr lc a → mapGet? t.regs a = mapGet? s.regs a

/-- Rows cross the vertical channel of a site in a direction now: the site is not retired, no retune window is open, the
clock of the half runs and no change of width is due (03 R105 R112 R120 R126 R127). -/
def ChannelFree (s : State) (site : Nat) (d : VcDir) : Prop :=
  s.siteRetired site = false ∧ s.siteWindow site = false ∧ (s.half (halfOf site)).stopped = false
    ∧ (s.vc site d).widthDue = false

/-- An access of a core to a place is made now: its half is clocked, another core takes it, no Roller's pass holds the place's
bank, and what lies beyond the Skim is reached over the core's channel, in a direction in which that carries rows (03 R112
R120 R122, 11 R389, 12 R412 R413). -/
def Crosses (s : State) (lc : Nat) (l : Loc) (d : VcDir) : Prop :=
  s.reaches lc l = true ∧ (l.beyond = true → ChannelFree s (s.siteOf lc) d)

/-- The first cell of a place in memory before which no render cache stands; none of any other place. -/
def State.plainCell (s : State) (l : Loc) : Option Nat :=
  match l with
  | .hawk _ k | .hod k => some k
  | .render p none => some p
  | .render p (some _) => if s.rcMib = 0 then some p else none
  | _ => none

/-- What a read of n bytes at a place in memory finds, and whether it meets poison: in the render cache, where that holds the
line, else in the cells. -/
def State.found (s : State) (l : Loc) (n : Nat) : Option (List Byte × Bool) :=
  let cells (k : Nat) : Option (List Byte × Bool) := some (memGets s.mem k n, s.runPoisoned k n)
  match l with
  | .hawk _ k | .hod k | .render k none => cells k
  | .render p (some a) =>
    match (mapGet s.rc (s.rcSet (a / 256)) []).find? fun x => s.rcMib != 0 && x.tag == a / 256 with
    | some x => some ((x.data.drop (a % 256)).take n, (List.range 4).any fun i =>
        x.poison.getLsbD i && decide (a % 256 < 64 * i + 64) && decide (64 * i < a % 256 + n))
    | none => cells p
  | _ => none

/-- The address of a register in which a Lath block counts its events (19 R623). -/
def LathCountAddr (a : Nat) : Prop :=
  ∃ b, b < 313 ∧ (a = (Reg.lathOvf b).addr ∨ ∃ i, i < 8 ∧ a = (Reg.lathCnt b i).addr)

/-- The address of a register in which an access of core lc may count: its own counters and those of the core that it reaches,
those of the Lath blocks, and the seam's (12 R446, 19 R620-R629). -/
def AccessAddr (lc a : Nat) : Prop :=
  CountAddr lc a ∨ (∃ n, n < 144 ∧ CountAddr n a) ∨ LathCountAddr a ∨ a = Reg.scrSeam.addr

/-- What an access of core lc leaves alone beside the bytes that it stores: of other cores all but the monitors of their
WAITF, and every register but those in which it counts. -/
structure AccessFrame (lc : Nat) (s t : State) : Prop where
  rest : t = { s with
    mem := t.mem, poison := t.poison, cores := t.cores, regs := t.regs, pmus := t.pmus, free := t.free, vcs := t.vcs
    rows := t.rows, rollers := t.rollers, power := t.power, rc := t.rc, rcWait := t.rcWait }
  cores : ∀ k, k ≠ lc → t.core k = { s.core k with waitf := (t.core k).waitf }
  regs : ∀ a, ¬ AccessAddr lc a → mapGet? t.regs a = mapGet? s.regs a

/-- Memory, its poison and every core but one are as before. -/
def OthersSame (lc : Nat) (s t : State) : Prop :=
  t.mem = s.mem ∧ t.poison = s.poison ∧ ∀ k, k ≠ lc → t.core k = s.core k

/-- Errors of hawk words that correction takes away (16 R539). -/
def Corrected (errs : List MemErr) : Prop := ∀ e ∈ errs, e.kind = .soft ∧ 2 ^ 45 ≤ e.key ∧ e.key < 2 ^ 46

/-- Of a core only tickets changed, n counts taken from ticket tk with the cover of its signals (02 R68), and the PC moved to
the next instruction. -/
def OnlyTk (c d : Core) (tk : BitVec 6) (n : Nat) : Prop :=
  d = { c.touch with
    tk := d.tk, late := d.late, pc := c.pc + 4, icMiss := false, qFull := false
    lost := if c.takesLost tk n = true then setAdd c.lost 5 else c.lost }

/-- One ticket takes a value; tk0 keeps nothing (02 R35). -/
def WritesTk (c d : Core) (tk : BitVec 6) (v : Nat) : Prop :=
  (∀ k, k ≠ tk → d.tick k = c.tick k) ∧ d.tick tk = if tk = 0 then 0 else v

/-- Of a core only one descriptor register changed, and the PC moved to the next instruction. -/
def OnlyD (c d : Core) (dn : BitVec 4) : Prop :=
  d = { c.touch with
    d := d.d, loads := passed c.loads none (some dn), late := d.late, pc := c.pc + 4, icMiss := false
    qFull := false } ∧ ∀ m, m ≠ dn → d.rd m = c.rd m

/-- Of a core only the scalar register that an instruction writes, if any, and the PC changed. -/
def JumpsTo (c d : Core) (rd : Option (BitVec 5)) : Prop :=
  d = { c.touch with
    x := d.x, loads := passed c.loads rd none, late := d.late, pc := d.pc, icMiss := false, qFull := false }

/-- What the table of 02 R45 says of the result r of an OPF instruction on the FP32 codes x and y: the exact sum,
difference or product rounded once to nearest even; one operand that the other is not below (above), -0 below +0; a
comparison of the values. -/
def FpMeans (f : FpOp) (x y : BitVec 32) (r : Word) : Prop :=
  let nan := (fp32 x).isNan = true ∨ (fp32 y).isNan = true
  let lt (a b : BitVec 32) : Prop := (fp32 a).lt (fp32 b) = true
  match f with
  | .fadd => r = (toFp32 ((fp32 x).add (fp32 y))).setWidth 64
  | .fsub => r = (toFp32 ((fp32 x).add (fp32 y).neg)).setWidth 64
  | .fmul => r = (toFp32 ((fp32 x).mul (fp32 y))).setWidth 64
  | .fmin => (nan → r = 0x7FC00000) ∧ (¬ nan → ∃ z, r = z.setWidth 64 ∧ (z = x ∨ z = y)
      ∧ (fp32 x).below (fp32 z) = false ∧ (fp32 y).below (fp32 z) = false)
  | .fmax => (nan → r = 0x7FC00000) ∧ (¬ nan → ∃ z, r = z.setWidth 64 ∧ (z = x ∨ z = y)
      ∧ (fp32 z).below (fp32 x) = false ∧ (fp32 z).below (fp32 y) = false)
  | .feq => (r = 0 ∨ r = 1) ∧ (r = 1 ↔ ¬ nan ∧ ¬ lt x y ∧ ¬ lt y x)
  | .flt => (r = 0 ∨ r = 1) ∧ (r = 1 ↔ ¬ nan ∧ lt x y)
  | .fle => (r = 0 ∨ r = 1) ∧ (r = 1 ↔ ¬ nan ∧ ¬ lt y x)

/-- What FCVT.L.S makes of a value (02 R45): toward zero, held at the bounds, NaN giving 0. -/
def TruncMeans (v : Num) (r : Word) : Prop :=
  match v with
  | .nan => r = 0
  | .inf neg => r.toInt = if neg then -2 ^ 63 else 2 ^ 63 - 1
  | .fin neg m e =>
    let n : Nat := if 0 ≤ e then m * 2 ^ e.toNat else m / 2 ^ (-e).toNat
    r.toInt = if neg then max (-(n : Int)) (-2 ^ 63) else min (n : Int) (2 ^ 63 - 1)

/-- A unit instruction captured in its queue at dispatch (02 R38): the descriptor registers and the seed of the core. -/
def Captured (c : Core) (u : UOp) (e : UEntry) : Prop :=
  e.op = u ∧ e.ds = u.descs.map c.rd ∧ e.seed = c.seed ∧ e.pc = c.pc ∧ e.started = false ∧ e.fin = none

/-- The rows of unit instructions that a UnitF spells, with the instruction that each dispatches. -/
def unitRows : List ((Nat → UStep UnitF → Instr) × (UnitF → UOp)) :=
  [(.movRowUp, .movRow false), (.movRowDn, .movRow true), (.movBlk, .movBlk), (.movRcflWb, .movRcfl false),
   (.movRcflWbinv, .movRcfl true), (.movPutf, .movPutf), (.stcFwd, .stcFwd), (.stcBwd, .stcBwd),
   (.stcPteditInit, .stcPtedit), (.stcPteditAppend, .stcPtedit), (.stcPteditExtend, .stcPtedit),
   (.stcPteditDrop, .stcPtedit), (.stcPteditReplace, .stcPtedit), (.stcPteditTrunc, .stcPtedit),
   (.stcPteditFree, .stcPtedit), (.stcBucket, .stcBucket), (.stcDec, .stcDec), (.rlrVld, .rlrVld), (.rlrMv, .rlrMv),
   (.rlrRd, .rlrRd), (.rlrWr, .rlrWr), (.scrMcast, .scrMcast), (.scrRed, .scrRed), (.scrBar, .scrBar),
   (.scrFlagSet, .scrFlag), (.scrFlagAdd, .scrFlag), (.scrFlagOr, .scrFlag), (.scrFlagMaxu, .scrFlag)]

/-- A command that dispatches a unit instruction. -/
inductive Dispatches : Instr → Nat → UOp → Prop
  | row (p : (Nat → UStep UnitF → Instr) × (UnitF → UOp)) (h : p ∈ unitRows) (lc : Nat) (f : UnitF) :
    Dispatches (p.1 lc (.issue f)) lc (p.2 f)
  | trwMma (lc : Nat) (f : MmaF) : Dispatches (.trwMma lc (.issue f)) lc (.trwMma f)
  | trwDrain (lc : Nat) (f : DrainF) : Dispatches (.trwDrain lc (.issue f)) lc (.trwDrain f)
  | trwLdacc (lc : Nat) (f : LdaccF) : Dispatches (.trwLdacc lc (.issue f)) lc (.trwLdacc f)
  | trwClr (lc : Nat) (f : ClrF) : Dispatches (.trwClr lc (.issue f)) lc (.trwClr f)
  | brsLdp (lc : Nat) (f : LdpF) : Dispatches (.brsLdp lc (.issue f)) lc (.brsLdp f)
  | brsRun (lc : Nat) (f : RunF) : Dispatches (.brsRun lc (.issue f)) lc (.brsRun f)

/-! ### Unit instructions at work -/

/-- The oldest instruction of a unit's queue is e: it has started, has not begun its work and has not ended; the clock of the
core's half runs (03 R112). -/
def AtFront (s : State) (lc : Nat) (u : UnitId) (e : UEntry) : Prop :=
  lc < 144 ∧ s.clocked lc = true ∧ ∃ rest, (s.core lc).q u = e :: rest ∧ e.started = true ∧ e.begun = false ∧ e.fin = none

/-- The oldest instruction of a unit's queue has ended with a status and a summary; it stays in its queue until it
completes, and the instructions behind it stay. -/
def EndsWith (s t : State) (lc : Nat) (u : UnitId) (st : BitVec 8) (v : SumV) : Prop :=
  ∃ e rest e', (s.core lc).q u = e :: rest ∧ (t.core lc).q u = e' :: rest ∧ e'.op = e.op ∧ e'.ds = e.ds
    ∧ e'.started = e.started ∧ e'.fin = some ⟨st, v⟩

/-- What the work of a unit leaves alone: every field but memory, poison, the open DRAM rows and the render cache; of
its core all but the queue, of every core the monitor of its WAITF may move on; every register but counters. -/
structure WorkFrame (lc : Nat) (u : UnitId) (s t : State) : Prop where
  rest : t = { s with mem := t.mem, poison := t.poison, cores := t.cores, regs := t.regs, rows := t.rows, rc := t.rc }
  core : t.core lc = { (s.core lc).setQ u ((t.core lc).q u) with waitf := (t.core lc).waitf }
  others : ∀ k, k ≠ lc → t.core k = { s.core k with waitf := (t.core k).waitf }
  regs : ∀ a, ¬ CountAddr lc a → ¬ LathCountAddr a → mapGet? t.regs a = mapGet? s.regs a

/-- What a copy between hawks leaves alone: as the work of a unit does, but for the counters of the cores whose hawks it
reaches and of the seam. -/
structure CopyFrame (lc : Nat) (s t : State) : Prop where
  rest : t = { s with mem := t.mem, poison := t.poison, cores := t.cores, regs := t.regs, free := t.free }
  core : t.core lc = { (s.core lc).setQ .mover ((t.core lc).q .mover) with waitf := (t.core lc).waitf }
  others : ∀ k, k ≠ lc → t.core k = { s.core k with waitf := (t.core k).waitf }
  regs : ∀ a, ¬ AccessAddr lc a → mapGet? t.regs a = mapGet? s.regs a

/-- The units that the order of 02 R37 puts before a unit. -/
def unitsBefore : UnitId → List UnitId
  | .trowel => []
  | .brush => [.trowel]
  | .stencil => [.trowel, .brush]
  | .mover => [.trowel, .brush, .stencil]
  | .scrim => [.trowel, .brush, .stencil, .mover]

/-- The cell of a local address that lies in a hawk: none of any other address. -/
def State.hawkCell (s : State) (lc a : Nat) : Option Nat :=
  match s.resolve (some lc) a with
  | .hawk _ k => some k
  | _ => none

/-- Bytes copied in the order of a list of (destination cell, source cell): the last write of a cell remains. -/
def copied (m : Memory) (l : List (Nat × Nat)) (k : Nat) : Byte :=
  match l.reverse.find? fun p => p.1 == k with
  | some p => memGet m p.2
  | none => memGet m k

/-- A Trowel instruction changed its queue and bank b of its core, and nothing else of it. -/
def OnlyBank (c d : Core) (b : Bool) : Prop :=
  d = { c.setQ .trowel (d.q .trowel) with bankA := d.bankA, bankB := d.bankB } ∧ d.bank (!b) = c.bank (!b)

/-- The products that group g feeds to the cell of a row and an output column (05 R190): one for each K index at which
neither element is excluded. -/
def mmaTerms (s : State) (lc : Nat) (m : Mma) (row col g : Nat) : List Num :=
  (m.group g).filterMap fun k => match (s.fed lc m.a row k).1, (s.fed lc m.b col k).1 with
    | some x, some y => some (x.mul y)
    | _, _ => none

/-- A cell over groups of products in order (05 R190-R192): each group is added exactly to the accumulator and the sum
rounded once, or saturated in an INT bank; a group without a term leaves the cell. -/
def accumulate (int : Bool) (gs : List (List Num)) (a : BitVec 32) : BitVec 32 :=
  gs.foldl (fun a ts =>
    if ts = [] then a
    else if int then (satInt32 (a.toInt + (ts.map Num.toInt).sum)).1
    else toFp32 (Num.sum (fp32 a :: ts))) a

/-- No byte of a core's hawk is poisoned. -/
def State.hawkClean (s : State) (lc : Nat) : Prop := ∀ o, o < 2 ^ 21 → s.poisoned (hawkKey (s.siteOf lc) o) = false

/-- A row of STC.FWD after its chunks, in ascending order (09 R300): without pages every key counts with factor 1. -/
def fwdRow (s : State) (lc : Nat) (h : SHead) (q k v : Feed) (i : Nat) : ARow :=
  (List.range h.nchunks).foldl (fun r c =>
    (h.attn.step (s.fedRow lc q i h.dim).1 (fun j => (s.masked lc h i (c * h.chunk + j)).1)
      (s.chunkKeys lc h k v (fun _ => .fin false 1 0) c).1 r).1) (ARow.start h.dim)

/-- The codes of p and ds of row i and key n of STC.BWD (09 R315). -/
def bwdCell (s : State) (lc : Nat) (h : SHead) (x : BOutD) (q k v o : Feed) (i n : Nat) : Nat × Nat :=
  let r := (s.bwdRow lc h x q o i).1
  let f := h.blockFeeds k v (n / 64)
  let m := (s.masked lc h i n).1
  let t := if m then negInf32
    else fmul32 (dot false (depthOf h.fq h.fk) (mulAll r.q (s.fedRow lc f.1 (n % 64) h.dim).1)) h.scale
  let dp := dot false (depthOf h.fo h.fv) (mulAll r.o (s.fedRow lc f.2 (n % 64) h.dim).1)
  let g := h.grad r t dp m
  (g.1, g.2.1)

/-- The Stencil ended with a status and a summary, and only its queue, its count of NaN rows, the hawk of its core and
counters changed. -/
structure StencilFrame (lc : Nat) (s t : State) : Prop where
  rest : t = { s with mem := t.mem, poison := t.poison, cores := t.cores, regs := t.regs, free := t.free }
  core : t.core lc = { (s.core lc).setQ .stencil ((t.core lc).stcQ) with waitf := (t.core lc).waitf }
  others : ∀ k, k ≠ lc → t.core k = { s.core k with waitf := (t.core k).waitf }
  regs : ∀ a, ¬ CountAddr lc a → a ≠ (Reg.stcStatus lc).addr → mapGet? t.regs a = mapGet? s.regs a
  cells : ∀ k, (k < hawkKey (s.siteOf lc) 0 ∨ hawkKey (s.siteOf lc) 0x200000 ≤ k) → memGet t.mem k = memGet s.mem k

/-! ### The KV table (10) -/

/-- The KV table is enabled and all of it lies in the hod, whose slice list names each slice once. -/
def KvMapped (s : State) : Prop :=
  s.kvOn = true ∧ s.slices.Nodup ∧ (∀ x ∈ s.slices, x < 168)
    ∧ ∀ o, o < 0x600000 → ∃ k, s.resolve none (s.kvBase + o) = .hod k

/-- The command that performs an edit of an OP. -/
def editCmd (op lc : Nat) : Instr :=
  match op with
  | 0 => .stcPteditInit lc (.perform [])
  | 1 => .stcPteditAppend lc (.perform [])
  | 2 => .stcPteditExtend lc (.perform [])
  | 3 => .stcPteditDrop lc (.perform [])
  | 4 => .stcPteditReplace lc (.perform [])
  | 5 => .stcPteditTrunc lc (.perform [])
  | _ => .stcPteditFree lc (.perform [])

/-- The sequence descriptor after an edit (R336). -/
def editSeq (s : State) (x : Edit) (q : SeqD) : SeqD :=
  match x.op with
  | 0 => { q with active := true, region := x.region, head := x.blk, tail := x.blk, len := 0, npages := 0, step := 0 }
  | 1 => { q with npages := (q.npages + 1) % 2 ^ 32, tail := if x.readsBlk q then x.blk else q.tail }
  | 2 => { q with len := q.len + x.arg }
  | 5 => { q with npages := x.arg, len := min q.len (x.arg * (s.region q.region).tpp)
                  tail := s.blockOf ((x.arg - 1) / 31) q.head }
  | 6 => { q with active := false, len := 0, npages := 0 }
  | _ => q

/-- Entry j of block b after an edit (R336). -/
def editEntry (s : State) (x : Edit) (q : SeqD) (b j : Nat) : Word :=
  let old := (s.kvEntry b j).1
  let page := (s.blockOf (x.arg / 31) q.head, x.arg % 31)
  match x.op with
  | 1 =>
    if x.readsBlk q then
      if (b, j) = (x.blk, 0) then x.value
      else if (b, j) = (q.tail, 31) then BitVec.ofNat 64 (2 ^ 63 + 3 * 2 ^ 61 + x.blk) else old
    else if (b, j) = (q.tail, q.npages % 31) then x.value else old
  | 3 => if (b, j) = page then setFld (setFld old 61 2 2) 0 48 0 else old
  | 4 => if (b, j) = page then x.value else old
  | 5 => if (b, j) ∈ s.tailPlaces q x.arg then 0 else old
  | 6 => if (b, j) ∈ s.tailPlaces q 0 then 0 else old
  | _ => old

/-- The table after an edit: its descriptor (with DEFER as given), every other descriptor, every entry. -/
def EditEffect (s t : State) (x : Edit) (q : SeqD) (defer : Nat) : Prop :=
  (t.seqD x.seq).1 = { editSeq s x q with defer := defer }
    ∧ (∀ n, n < 65536 → n ≠ x.seq → (t.seqD n).1 = (s.seqD n).1)
    ∧ ∀ b j, b < 16384 → j < 32 → (t.kvEntry b j).1 = editEntry s x q b j

/-- What an edit leaves alone: every cell below the hod, every other core, and of its core all but the Stencil's queue;
every register but STC_KV_STATUS. -/
structure KvFrame (lc : Nat) (s t : State) : Prop where
  cells : ∀ k, k < 2 ^ 46 → memGet t.mem k = memGet s.mem k
  core : t.core lc = (s.core lc).setQ .stencil ((t.core lc).stcQ)
  others : ∀ k, k ≠ lc → t.core k = s.core k
  regs : ∀ a, a ≠ Reg.kvStatus.addr → mapGet? t.regs a = mapGet? s.regs a

/-! ### Fetch and the vertical channels (02, 03) -/

/-- The 256 bytes and the poison marks of the four granules of a line from which programs may be fetched (02 R81): of
interleaved render memory as the render cache holds them, where it does; all poisoned behind a render controller in reset
(log entry 90); none elsewhere. -/
def State.fetched (s : State) (lc tag : Nat) : Option (List Byte × (Nat → Bool)) :=
  if s.chanReset (s.resolve (some lc) (tag * 256)) then some (List.replicate 256 0, fun _ => true)
  else match s.resolve (some lc) (tag * 256) with
  | .render p none => some (memGets s.mem p 256, fun i => s.poisoned (p + 64 * i))
  | .render p (some a) =>
    match (mapGet s.rc (s.rcSet (a / 256)) []).find? fun l => s.rcMib != 0 && l.tag == a / 256 with
    | some l => some (l.data, fun i => l.poison.getLsbD i)
    | none => some (memGets s.mem p 256, fun i => s.poisoned (p + 64 * i))
  | .hod k => some (memGets s.mem k 256, fun i => s.runPoisoned (k + 64 * i) 64)
  | _ => none

/-- The instruction cache holds a line, the most recently used, with these bytes. -/
def HoldsLine (c : Core) (tag : Nat) (bs : List Byte) : Prop :=
  ∃ l rest, c.ic = l :: rest ∧ l.tag = tag ∧ l.data = BitVec.ofNat 2048 (leNat bs)

/-- A core takes FETCH_FAULT at its PC (02 R81 R96), its first exception being recorded. -/
def FetchFaults (s t : State) (lc : Nat) : Prop :=
  (t.core lc).st = .draining ∧ (t.core lc).x = (s.core lc).x ∧ (∀ k, k ≠ lc → t.core k = s.core k)
    ∧ (fld (s.core lc).excCause 0 8 = 0 → fld (t.core lc).excCause 0 8 = 4 ∧ (t.core lc).excPc = (s.core lc).pc
      ∧ (t.core lc).excAddr = (s.core lc).pc.setWidth 64)

/-- A lane has shown 8 corrected errors within 1 ms (03 R123): the newest of the last eight is at most 1,000 microseconds
after the oldest. -/
def EightErrors (s : State) (site : Nat) (d : VcDir) (g lane : Nat) : Prop :=
  let l := mapGet (s.vc site d).errs (laneKey g lane) []
  8 ≤ l.length ∧ l.headD 0 ≤ l.getD 7 0 + 1000

/-- Words of the row in flight fail their check, one of them on group g, which is not dead (03 R107 R125). -/
def FailsOn (s : State) (site : Nat) (d : VcDir) (g : Nat) (words : List Nat) (row : Nat) : Prop :=
  s.rowInFlight site d = some row ∧ s.groupDead site d g = false ∧ ∃ w ∈ words, s.carrier site d (w / 4) = g

/-! ### Rollers (11) -/

/-- The command that starts the work of a Roller instruction. -/
def rlrCmd (lc : Nat) : UOp → Option Instr
  | .rlrVld _ => some (.rlrVld lc (.perform []))
  | .rlrMv _ => some (.rlrMv lc (.perform []))
  | .rlrRd _ => some (.rlrRd lc (.perform []))
  | .rlrWr _ => some (.rlrWr lc (.perform []))
  | _ => none

/-- The bank byte at which row (j, i) starts (11 R373). -/
def RMv.rowAt (m : RMv) (j i : Nat) : Int := (m.off : Int) + j * m.bstr + i * m.rstr

/-- The vector element that meets element k of row (j, i) of position q (11 R373). -/
def RMv.vecAt (m : RMv) (q j i k : Nat) : Int :=
  (m.voff : Int) + q * m.vbank + j * m.vj + if m.axpy then (i : Int) * m.vi else k

/-- The accumulator that its product is added to (11 R373). -/
def RMv.accAt (m : RMv) (q j i k : Nat) : Int :=
  (m.acc : Int) + q * m.abank + j * m.aj + if m.axpy then (k : Int) else i * m.ai

/-- The bits of element k of a row are bits [kz, kz + z) of the row (05 R181). -/
def State.rweight (s : State) (x : Nat) (m : RMv) (q j i k : Nat) : Num :=
  m.wfmt.num (leNat (memGets s.mem (bankCell x q + (m.rowAt j i).toNat) m.rowBytes) / 2 ^ (k * m.wfmt.bits)
    % 2 ^ m.wfmt.bits)

/-- Vector element v of a Roller. -/
def Roller.vecNum (r : Roller) (m : RMv) (v : Nat) : Num :=
  let n := m.vfmt.bits / 8
  m.vfmt.num (leNat ((List.range n).map fun b => mapGet r.vec (v * n + b) 0))

/-- The products of a step (bank positions ps, row (j, i), granule g) bound for accumulator a, and whether one of them
read poison (11 R375-R377). -/
def State.rproducts (s : State) (x : Nat) (m : RMv) (a : Nat) (st : List Nat × Nat × Nat × Nat) : List (Num × Bool) :=
  let (ps, j, i, g) := st
  let r := s.roller x
  ps.flatMap fun q => (List.range m.len).filterMap fun k =>
    if k * m.wfmt.bits / 512 = g ∧ m.accAt q j i k = a then
      let v := (m.vecAt q j i k).toNat
      some ((s.rweight x m q j i k).mul (r.vecNum m v),
        s.poisoned (bankCell x q + (m.rowAt j i).toNat + 64 * g) || setHas r.vecPoison (v * (m.vfmt.bits / 8) / 64))
    else none

/-- The steps of a walk in order (11 R375). -/
def RMv.stepList (m : RMv) (qs : List Nat) : List (List Nat × Nat × Nat × Nat) :=
  (pairsOf qs).flatMap fun ps => (List.range m.nblk).flatMap fun j => (List.range m.rows).flatMap fun i =>
    (List.range m.grans).map fun g => (ps, j, i, g)

/-- The products bound for accumulator a of Roller x, step by step; steps without one left out. -/
def State.rsteps (s : State) (x : Nat) (m : RMv) (qs : List Nat) (a : Nat) : List (List (Num × Bool)) :=
  ((m.stepList qs).map (s.rproducts x m a)).filter (· ≠ [])

/-- Accumulator a of Roller x after an RLR.MV (11 R376 R381): an exact sum and one rounding for each step. -/
def State.raccAfter (s : State) (x : Nat) (m : RMv) (qs : List Nat) (a : Nat) : BitVec 32 :=
  let old := mapGet (s.roller x).acc a 0
  match s.rsteps x m qs a with
  | [] => old
  | l => l.foldl (fun v ts => toFp32 (Num.sum (fp32 v :: ts.map Prod.fst))) (if m.init then 0 else old)

/-- Its poison bit (11 R377 R381). -/
def State.raccPoison (s : State) (x : Nat) (m : RMv) (qs : List Nat) (a : Nat) : Bool :=
  let old := setHas (s.roller x).accPoison a
  match s.rsteps x m qs a with
  | [] => old
  | l => (!m.init && old) || l.any fun ts => ts.any Prod.snd

/-- The oldest entry of a core's Scrim port is a command on its way to a stack. -/
def Arriving (s : State) (lc st : Nat) (e : UEntry) (rest : List UEntry) : Prop :=
  lc < 144 ∧ (s.core lc).scrQ = e :: rest ∧ e.begun = true ∧ e.fin = none ∧ toArrive st ∈ e.await

/-- A stack's sequencer holds no command and no RLR.MV walks there. -/
def SeqIdle (s : State) (st : Nat) : Prop := mapGet s.seqs st [] = [] ∧ s.walking st = false

/-- Roller x begins the first pass of the walk of an RLR.MV, which is the one command of its stack and passed its checks. -/
def WalksFirst (s : State) (x : Nat) (c : RlrCmd) : Prop :=
  x < 512 ∧ (s.roller x).pass = true ∧ (s.roller x).walk = some ⟨0, [], (rselOf c.desc).banks, none⟩
    ∧ mapGet s.seqs (x / 64) [] = [c] ∧ c.ran = true ∧ (∃ f, c.op = .rlrMv f) ∧ s.rlrCheck c.op c.desc = none

/-- A command reached a stack and took its turn there: it is the youngest command of the stack's sequencer, the entry awaits
the stack's report, and only the stack's register, DRAM rows and the replay count of a vertical channel changed beside its
own effect. -/
structure RanAt (s t : State) (lc st : Nat) (e : UEntry) (es : List UEntry) (status : BitVec 8) : Prop where
  rest : t = { s with
    mem := t.mem, poison := t.poison, cores := t.cores, regs := t.regs, rollers := t.rollers, rows := t.rows
    seqs := t.seqs, vcs := t.vcs }
  entry : ∃ e', (t.core lc).scrQ = e' :: es ∧ e'.op = e.op ∧ e'.ds = e.ds ∧ e'.fin = none ∧ toReport st ∈ e'.await
    ∧ toArrive st ∉ e'.await
  core : t.core lc = { (s.core lc).setQ .scrim ((t.core lc).scrQ) with waitf := (t.core lc).waitf }
  others : ∀ k, k ≠ lc → t.core k = { s.core k with waitf := (t.core k).waitf }
  seq : ∃ c, mapGet t.seqs st [] = mapGet s.seqs st [] ++ [c] ∧ c.lc = lc ∧ c.op = e.op ∧ c.desc = e.ds.headD 0
    ∧ c.ran = true ∧ c.status = status
  seqs : ∀ k, k ≠ st → mapGet t.seqs k [] = mapGet s.seqs k []
  regs : ∀ a, a ≠ (Reg.rlrStack st).addr → mapGet? t.regs a = mapGet? s.regs a

/-- The code that RLR.RD and RLR.WR write for accumulator ABASE + n of Roller x (11 R383). -/
def State.raccCode (s : State) (x : Nat) (d : Desc) (n : Nat) : Nat :=
  (((fmtOf (fld (dword d 2) 32 4)).getD .fp32).conv .rne false (fp32 (mapGet (s.roller x).acc (fld (dword d 2) 0 12 + n) 0))).1

/-- CLR of RLR.RD and RLR.WR (11 R383): the accumulators read become +0 without poison. -/
def Cleared (r r' : Roller) (d : Desc) : Prop :=
  r'.vec = r.vec ∧ r'.vecPoison = r.vecPoison ∧ r'.pass = r.pass ∧ r'.walk = r.walk
    ∧ ∀ a, if bitAt (dword d 2) 36 = true ∧ fld (dword d 2) 0 12 ≤ a
          ∧ a < fld (dword d 2) 0 12 + fld (dword d 2) 16 13
        then mapGet r'.acc a 0 = 0 ∧ setHas r'.accPoison a = false
        else mapGet r'.acc a 0 = mapGet r.acc a 0 ∧ setHas r'.accPoison a = setHas r.accPoison a

/-! ### The Scrim (12) -/

/-- An operation of core lc's Scrim port that reaches the hawk of core n: beside memory, poison and combine contexts
only the two cores' Scrim-port queues, monitors and counters and the seam's register changed. -/
structure ScrimFrame (lc n : Nat) (s t : State) : Prop where
  only : t = { s with
    mem := t.mem, poison := t.poison, cores := t.cores, regs := t.regs, colls := t.colls, free := t.free }
  cores : ∀ k, t.core k = { s.core k with scrQ := (t.core k).scrQ, waitf := (t.core k).waitf }
  queues : ∀ k, k ≠ lc → k ≠ n → (t.core k).scrQ = (s.core k).scrQ
  regs : ∀ a, ¬ CountAddr lc a → ¬ CountAddr n a → a ≠ Reg.scrSeam.addr → mapGet? t.regs a = mapGet? s.regs a

/-- The logical cores that the set words of a descriptor name (12 R417). -/
def InSet (d : Desc) (n : Nat) : Prop :=
  n < 144 ∧ if bitAt (dword d 0) 0 = true
    then (if n < 64 then bitAt (dword d 1) n else if n < 128 then bitAt (dword d 2) (n - 64)
      else bitAt (dword d 3) (n - 128)) = true
    else fld (dword d 0) 8 4 ≤ n / 12 ∧ n / 12 ≤ fld (dword d 0) 12 4 ∧ fld (dword d 0) 16 4 ≤ n % 12
      ∧ n % 12 ≤ fld (dword d 0) 20 4

/-- The bytes that a multicast carries, in order. -/
def UEntry.payload (e : UEntry) : List Byte := (e.buf.filter fun x => x.1 % 2 == 0).map Prod.snd

/-- A multicast at the front of its port that owes a target its copy; the clock of its half runs, the routers forward, and a
target that has not failed takes writes (12 R412 R413). -/
def Owes (s : State) (lc target : Nat) (f : UnitF) (e : UEntry) (es : List UEntry) : Prop :=
  lc < 144 ∧ (s.core lc).scrQ = e :: es ∧ e.op = .scrMcast f ∧ e.begun = true ∧ e.fin = none ∧ target ∈ e.await ∧ target < 144
    ∧ s.clocked lc = true ∧ s.scrimOpen (s.siteOf lc) (s.siteOf target) = true
    ∧ (s.failed target = false → s.accepts target = true)

/-- A combine with an operand that may be absent: an absent one passes the other through (12 R423). -/
def orAbsent {α : Type} (f : α → α → α) : Option α → Option α → Option α
  | some a, some b => some (f a b)
  | a, none => a
  | none, b => b

/-- Combines of a row of operands, the first two first. -/
def chainOf {α : Type} (f : α → α → α) (l : List (Option α)) : Option α := l.foldl (orAbsent f) none

/-- The tree of 12 R423 over the logical grid of 12 rows and 12 columns, toward core `dest`. -/
def treeSum {α : Type} (f : α → α → α) (dest : Nat) (x : Nat → Nat → Option α) : Option α :=
  let rd := dest / 12
  let cd := dest % 12
  let v (r : Nat) : Option α :=
    orAbsent f (orAbsent f (chainOf f ((List.range cd).map (x r)))
      (chainOf f ((List.range' (cd + 1) (11 - cd)).reverse.map (x r)))) (x r cd)
  orAbsent f (orAbsent f (chainOf f ((List.range rd).map v))
    (chainOf f ((List.range' (rd + 1) (11 - rd)).reverse.map v))) (v rd)

/-- Element i of the contribution of core lc, read from its hawk (12 R424). -/
def State.redElem (s : State) (lc : Nat) (r : RedD) (i : Nat) : BitVec 32 :=
  let v := leNat (memGets s.mem (hawkKey (s.siteOf lc) (r.src + i * r.size)) r.size)
  if r.fmt = 1 then toFp32 (Fmt.bf16.num v) else BitVec.ofNat 32 v

/-- A reduction or barrier of a core, at the front of its port, whose contribution or arrival is on its way; the clock of its
half runs (03 R112). -/
def OnItsWay (s : State) (lc : Nat) (e : UEntry) (es : List UEntry) : Prop :=
  (s.core lc).scrQ = e :: es ∧ e.begun = true ∧ e.fin = none ∧ e.prog = 0 ∧ s.failed lc = false ∧ lc < 144
    ∧ s.clocked lc = true

/-- The context that a contribution or an arrival of core lc reaches: one that agrees with it and has not counted it, or
a new one, for which every router of its tree has one of its 32 contexts free (12 R425-R427). -/
def Reaches (s : State) (lc : Nat) (new k : Coll) : Prop :=
  (s.coll new.dest new.rid = some k
      ∨ s.coll new.dest new.rid = none ∧ (∀ x, x < 168 → s.collAt x new = true → s.ctxHeld x < 32) ∧ k = new)
    ∧ k.dest = new.dest ∧ k.rid = new.rid ∧ k.barrier = new.barrier ∧ k.set = new.set ∧ k.fmt = new.fmt
    ∧ k.len = new.len ∧ lc ∉ k.arrived ∧ k.mismatch = false ∧ k.dead = false

/-- The context of a reduction, empty. -/
def redColl (r : RedD) (set : List Nat) : Coll :=
  ⟨r.dest, r.rid, false, set, r.fmt, r.len, [], [], false, false, 0, false⟩

/-- The context of a barrier, empty. -/
def barColl (set : List Nat) (rid : Nat) : Coll :=
  ⟨set.headD 0, rid, true, set, 0, 0, [], [], false, false, 0, false⟩

/-- NNZ of an instruction that the end of its context completes (12 R437): arrivals of a barrier, contributions combined at
a reduction's destination. -/
def collNnz (k : Coll) (n : Nat) (bar : Bool) : Word :=
  if bar then BitVec.ofNat 64 k.came else if n = k.dest then BitVec.ofNat 64 k.terms.length else 0

/-- What a flag operation makes of a word (12 R432). -/
def FlagMeans (op : Nat) (old v new : Word) : Prop :=
  match op with
  | 0 => new = v
  | 1 => new.toNat = (old.toNat + v.toNat) % 2 ^ 64
  | 2 => ∀ i, new.getLsbD i = (old.getLsbD i || v.getLsbD i)
  | _ => new.toNat = max old.toNat v.toNat

/-- The command of a row of SCR.FLAG. -/
def flagCmd (op lc : Nat) : Instr :=
  match op with
  | 0 => .scrFlagSet lc (.perform [])
  | 1 => .scrFlagAdd lc (.perform [])
  | 2 => .scrFlagOr lc (.perform [])
  | _ => .scrFlagMaxu lc (.perform [])

/-! ### Kerit (13) -/

/-- The oldest packet that a port holds complete is p, for this device, with Kerit traffic enabled. -/
def Arrived (s : State) (port : Nat) (p : Packet) (ps : List Packet) : Prop :=
  port < 16 ∧ s.rf .klkCtrl 0 1 = 1 ∧ (s.port port).arrived = p :: ps ∧ p.dstDev.toNat = s.devnum ∧ p.okForm = true

/-- The receive flow entry of a packet (13 R461). -/
def State.rxEntry (s : State) (p : Packet) : RxFlow :=
  mapGet s.rx (flowKey p.srcDev.toNat (Packet.vc p) p.stripe.toNat) ⟨0, 0⟩

/-- The flow of answers toward the source of a packet holds an answer to it, with an OP, a status and data (13 R464). -/
def Answers (t : State) (p : Packet) (op st : BitVec 8) (data : List Byte) : Prop :=
  ∃ u, u ∈ (t.flow p.srcDev.toNat 1 p.stripe.toNat).unacked ++ (t.flow p.srcDev.toNat 1 p.stripe.toNat).held
    ∧ u.pkt.op = op ∧ u.pkt.dstDev = p.srcDev ∧ fld u.pkt.aux 0 32 = p.fseq.toNat ∧ fld u.pkt.aux 32 8 = st.toNat
    ∧ u.pkt.data = data

/-- The hawk of a core is reached from outside now, and its rows cross in a direction: the module is not asleep, and what else
sleeps is woken (03 R105 R112 R120 R122, 17 R567 R568). -/
def HawkOpen (s : State) (n : Nat) (d : VcDir) : Prop := ChannelFree s (s.siteOf n) d ∧ s.rf .pwrState 12 1 = 0

/-- Of the cores only WAITF monitors changed. -/
def OnlyWaitf (s t : State) : Prop := ∀ k, t.core k = { s.core k with waitf := (t.core k).waitf }

/-- A frame that a port sends carries its next PSEQ, its ACK, the credits freed since the last report, and the CRC of it all
(13 R449 R451 R453). -/
def Reports (x : Port) (g : Frame) : Prop :=
  g.pseq = x.nextSeq ∧ g.ack = x.expect - 1 ∧ g.credReq.toNat = min x.freeReq 255 ∧ g.credRsp.toNat = min x.freeRsp 255
    ∧ g.credMgt.toNat = min x.freeMgt 255 ∧ g.crc = Frame.crcOf g

/-- A port once a frame of its own has reported credits. -/
def Port.told (x : Port) : Port :=
  { x with freeReq := x.freeReq - 255, freeRsp := x.freeRsp - 255, freeMgt := x.freeMgt - 255 }

/-- A discarded frame (13 R451): one NAK names the PSEQ that is expected, and reports as every frame does, unless one has been
sent for it. -/
def Naks (s t : State) (port : Nat) : Prop :=
  let x := s.port port
  (∀ k, k ≠ port → t.port k = s.port k) ∧ t.tx = s.tx
    ∧ if x.nakSent then t.port port = x ∧ t.out = s.out
      else t.port port = { x.told with nakSent := true }
        ∧ ∃ g, t.out = Out.nak port x.expect g :: s.out ∧ g.typ = 2 ∧ Reports x g

/-- A command by which a frame of its type comes to a port (13 R449). -/
def FrameCmd (port : Nat) (f : Frame) (c : Instr) : Prop :=
  c = .dataFrame port f ∧ f.typ = 1 ∧ f.flit.length = 256
    ∨ (∃ want, c = .nakFrame port f want) ∧ f.typ = 2
    ∨ (∃ eq, c = .idleFrame port f eq) ∧ f.typ = 0

/-- No packet waits for room in the flow store. -/
def State.noneHeld (s : State) : Prop := ∀ x ∈ s.tx, x.2.held = []

/-! ### The host, counters (14, 19) -/

/-- A register that holds its fields and starts nothing: a write changes those fields only. -/
def PlainReg (r : Reg) : Prop :=
  regAt r.addr = some r ∧ match r with
  | .pmuCtrl _ | .pmuOvf _ | .pmuEvsel _ _ | .pmuCnt _ _ | .pmuSpill _ | .pmuSstat _ | .lathCtrl _ | .lathOvf _
  | .lathEvsel _ _ | .lathCnt _ _ | .pciBar2 | .pciWake | .pciHwin _ | .errMask | .pwrPolicy => True
  | _ => False

/-- What a write of a word makes of a field (00 R4 R5): a listed value is taken, an unlisted one leaves the field; W1C
clears the bits written 1. -/
def FieldMeans (f : WFld) (old w new : Word) : Prop :=
  match f.acc with
  | .w1c => ∀ i, i < f.len → bitAt new (f.lo + i) = (bitAt old (f.lo + i) && !bitAt w (f.lo + i))
  | _ => fld new f.lo f.len = if f.ok (fld w f.lo f.len) = true then fld w f.lo f.len else fld old f.lo f.len

/-- A bit of a register that lies in no writable field. -/
def Reg.fixedBit (r : Reg) (i : Nat) : Prop := ∀ f ∈ r.wflds, ¬ (f.lo ≤ i ∧ i < f.lo + f.len)

/-- Every register but those in which the Lath blocks count keeps its word. -/
def LathFrame (s t : State) : Prop := ∀ a, ¬ LathCountAddr a → mapGet? t.regs a = mapGet? s.regs a

/-- A panel member's MC reports to the lead (13 R469, 18 R602): what it reports, in one packet of its flow on channel MGT. -/
structure ReportsToLead (s t : State) (ok : Bool) : Prop where
  only : t = { s with
    sec := t.sec, otp := t.otp, tx := t.tx, ports := t.ports, regs := t.regs, out := t.out, free := t.free }
  regs : LathFrame s t
  out : Out.report (s.devnum % 16) ok ∈ t.out
  packet : (t.flow (s.devnum / 16 * 16) 2 0).next = (s.flow (s.devnum / 16 * 16) 2 0).next + 1
    ∧ ∃ u, u ∈ (t.flow (s.devnum / 16 * 16) 2 0).unacked ++ (t.flow (s.devnum / 16 * 16) 2 0).held
      ∧ u.pkt.fseq = BitVec.ofNat 32 (s.flow (s.devnum / 16 * 16) 2 0).next
      ∧ u.pkt.data = (List.range 256).map (Config.mgtReport ok)

/-- What has been sent once the completion record of slot i is written (14 R500): its first 24 bytes, its last 8, then
the message of VEC where IRQ asks for it and the vector is not masked. -/
def recordOut (s : State) (i : Nat) (d : List Byte) (status nfault : Nat) (exit : Word) (first cause : Nat) : List Out :=
  let vec := descNat d 56 1 % 64
  let m := mapGet s.msix vec Msix.zero
  let crec := descNat d 48 8
  (if descNat d 57 1 % 2 = 1 ∧ m.masked = false then [.msix vec m.addr m.data] else [])
    ++ .hostWrite (crec + 24) ((d.drop 248).take 4 ++ leBytes 4 i) false
    :: .hostWrite crec (leBytes 4 status ++ leBytes 4 nfault ++ leBytes 8 exit.toNat ++ leBytes 4 first
      ++ leBytes 4 cause) false :: s.out

/-- The 256 bytes of a slot after a write of bytes at an offset. -/
def Slot.after (x : Slot) (off : Nat) (bs : List Byte) : List Byte :=
  (List.range 256).map fun i => if off ≤ i ∧ i < off + bs.length then bs.getD (i - off) 0 else mapGet x.bytes i 0

/-- SEQ and CHK of a descriptor are those that the slot waits for (14 R494 R495). -/
def State.current (s : State) (i : Nat) (d : List Byte) : Prop :=
  descNat d 248 4 = s.rf (.pciSlot i) 0 32
    ∧ descNat d 252 4 + ((List.range 63).foldl (fun c k => c ^^^ BitVec.ofNat 32 (leNat ((d.drop (4 * k)).take 4))) 0#32).toNat
      = 2 ^ 32 - 1

/-- A core's register block is reached by writes (14 R490, 18 R598) and is awake (17 R568). -/
def State.blockReached (s : State) (lc : Nat) : Prop :=
  lc < 144 ∧ lc < s.inForce ∧ s.failed lc = false ∧ s.sec.recovery = false ∧ s.accepts lc = true

/-- Only registers other than one, none: every register but that at an address keeps its word. -/
def OnlyReg (s t : State) (r : Reg) : Prop := ∀ a, a ≠ r.addr → mapGet? t.regs a = mapGet? s.regs a

/-! ### Starts, resets, rub-downs (15, 16, 20) -/

/-- What a full Lath reset leaves (03 R133 R139): hawks and hod read zero without poison, cores and registers are as at
reset but for the error log's, nothing is under way, and of module flash only the unlock log may have grown. -/
structure ResetLeaves (s t : State) : Prop where
  cores : ∀ n, t.core n = Core.zero
  cells : ∀ k, 2 ^ 45 ≤ k → memGet t.mem k = 0 ∧ t.poisoned k = false
  regs : ∀ a, a ≠ Reg.errLog.addr → mapGet? t.regs a = none
  idle : t.slots = [] ∧ t.msix = [] ∧ t.cfg = [] ∧ t.colls = [] ∧ t.deferred = [] ∧ t.seqs = [] ∧ t.rollers = []
    ∧ t.rc = [] ∧ t.ports = [] ∧ t.tx = [] ∧ t.rx = []
  scopes : t.sec.scopes = 0 ∧ t.sec.nonce = none
  kept : t.pending = s.pending ∧ t.flash.snag = s.flash.snag ∧ t.flash.starts = s.flash.starts

/-- What Wyrok keeps for ever stays: the fuses, both firmware banks and which one is active. -/
structure KeepsImages (s t : State) : Prop where
  otp : t.otp = s.otp
  banks : t.sec.bankA = s.sec.bankA ∧ t.sec.bankB = s.sec.bankB
  active : t.sec.activeB = s.sec.activeB

/-- What a power loss leaves of a firmware command that runs (18 R600 R601). -/
structure FwCut (s t : State) (cmd : Nat) : Prop where
  active : cmd ≠ 4 ∨ (s.sec.bank (!s.sec.activeB)).ok s.otp = false → t.sec.activeB = s.sec.activeB
  begun : cmd = 1 → t.sec.bank (!s.sec.activeB) = { s.sec.bank (!s.sec.activeB) with valid := false }
  other : t.sec.bank s.sec.activeB = s.sec.bank s.sec.activeB
    ∧ (cmd ≠ 1 → t.sec.bank (!s.sec.activeB) = s.sec.bank (!s.sec.activeB))
  fuses : ∃ r, t.otp = { s.otp with rollback := r } ∧ s.otp.rollback ≤ r
    ∧ (r = s.otp.rollback ∨ cmd = 5 ∧ r ≤ s.sec.runSvn)

/-- A start may run (15 R510, 20 R642): the supplies are there, PERST# is deasserted, and none has run since the reset. -/
def State.startsNow (s : State) : Prop :=
  s.pins.aux = true ∧ s.pins.stage = true ∧ s.pins.perst = false ∧ s.ready = false ∧ s.sec.recovery = false
    ∧ s.rf .mcStart 32 32 = 0

/-- The kind of a start (15 R509): 0 FIRST, 1 COLD, 2 WARM. -/
def State.kindOf (s : State) : Nat :=
  if s.flash.starts = 0 ∨ s.flash.vcStored = false then 0 else if s.trip = true then 1 else 2

/-- A record of the error log stands at HEAD and is the next in order (16 R555). -/
def LogsOne (s t : State) (cls src : Nat) (loc addr : Word) : Prop :=
  mapGet? t.errlog (s.rf .errLog 0 10) = some ⟨BitVec.ofNat 8 cls, BitVec.ofNat 8 src, BitVec.ofNat 32 s.flash.starts,
      loc, addr, BitVec.ofNat 32 (s.rf .errLog 32 32)⟩
    ∧ t.rf .errStatus cls 1 = 1

/-- A rub-down finds nothing before its end: no poison, no cached line, an empty list, and its summary goes to cell k of
a hawk. -/
def State.rubQuiet (s : State) (n k : Nat) : Prop :=
  s.poison = [] ∧ s.rc = [] ∧ s.rub.list = [] ∧ s.rf .rubDest 0 44 % 64 = 0
    ∧ s.resolve none (s.rf .rubDest 0 44) = .hawk n k

/-- The summary of a rub-down (16 R554) with a number of granules scanned and a status. -/
def Rub.summary (r : Rub) (scanned status : Nat) : List Byte :=
  leBytes 8 scanned ++ leBytes 8 r.corrected ++ leBytes 8 r.uncorr ++ leBytes 8 r.poisoned ++ leBytes 8 r.patched
    ++ leBytes 8 r.unpatched ++ leBytes 4 r.list.length ++ leBytes 4 r.unlisted
    ++ leBytes 8 (status + r.run % 2 ^ 32 * 2 ^ 32)

/-! ### Heat (17) -/

/-- The thermal cap in force follows R576 and R577: 105 - Tin - MARGIN over the resistance, which is Rf times 1.2 while
fewer than 600 samples are valid, to the nearest watt, within 600 W and the finish cap, less what stuck hot spots have
cut from it (R580). -/
def CapRule (t : State) : Prop :=
  let valid := t.rf .therm 48 10
  let k := 105 - t.rf .therm 40 8 - t.rf .pwrPolicy 44 4
  let r := if valid < 600 then t.flash.rf.toNat * 12 else t.rf .therm 0 16 * 10
  let raw := (2 * k * 10 ^ 7 + r) / (2 * r)
  t.rf .therm 63 1 = b2n (decide (valid < 600))
    ∧ (r ≠ 0 → t.rf .therm 16 16 = max 600 (min raw t.finishCap - t.power.cut)
      ∧ t.rf .therm 61 1 = b2n (decide (min raw t.finishCap - t.power.cut < 600)))

/-! ### Wyrok (18) -/

/-- The command that writes a code of SEC_FW_CTRL.CMD (18 R614). -/
inductive FwCmd (c : FwCtl) : Nat → Instr → Prop
  | begin : FwCmd c 1 (.fwBegin c)
  | write : FwCmd c 2 (.fwWrite c)
  | finish : FwCmd c 3 (.fwFinish c)
  | activate : FwCmd c 4 (.fwActivate c)
  | commit : FwCmd c 5 (.fwCommit c)
  | abort : FwCmd c 6 (.fwAbort c)

/-- The command that writes a code of SEC_DBG_CTRL.CMD that the MC serves in its turn (18 R615). -/
inductive DbgCmd (c : DbgCtl) : Nat → Instr → Prop
  | request : DbgCmd c 1 (.dbgRequest c)
  | submit : DbgCmd c 2 (.dbgSubmit c)
  | enrol : DbgCmd c 4 (.dbgEnrol c)

/-- A firmware command ended with a result: BUSY is 0, no command runs, and beside that, the inactive bank, the order of
commands and the counter, nothing changed (18 R599 R612 R614). -/
structure FwEnds (s t : State) (result : Nat) : Prop where
  only : t = { s with regs := t.regs, sec := t.sec, otp := t.otp }
  status : t.rf .fwStatus 0 8 = result ∧ t.rf .fwStatus 8 1 = 0 ∧ OnlyReg s t .fwStatus
  idle : t.sec.fwCmd = none
  sec : t.sec = { s.sec with
    bankA := t.sec.bankA, bankB := t.sec.bankB, activeB := t.sec.activeB, fwStep := t.sec.fwStep, fwCmd := none }
  active : t.sec.bank s.sec.activeB = s.sec.bank s.sec.activeB

/-- Neither bank, nor which is active, nor the fuses changed. -/
def SameBanks (s t : State) : Prop :=
  t.sec.bankA = s.sec.bankA ∧ t.sec.bankB = s.sec.bankB ∧ t.sec.activeB = s.sec.activeB ∧ t.otp = s.otp

/-- A debug command ended with a result, after a record in the unlock log (18 R610 R612 R615). -/
structure DbgEnds (s t : State) (result : Nat) : Prop where
  only : t = { s with regs := t.regs, sec := t.sec, otp := t.otp, flash := t.flash, free := t.free }
  status : t.rf .dbgCtrl 16 8 = result ∧ t.rf .dbgCtrl 24 1 = 0 ∧ OnlyReg s t .dbgCtrl
  idle : t.sec.dbgCmd = none
  logged : t.flash = { s.flash with unlock := t.flash.unlock, chain := t.flash.chain }
    ∧ ∃ r, t.flash.unlock = s.flash.unlock ++ [r] ∧ t.flash.chain = Config.sha384 (s.flash.chain ++ r)
  banks : t.sec.bankA = s.sec.bankA ∧ t.sec.bankB = s.sec.bankB ∧ t.sec.fwCmd = s.sec.fwCmd

/-- A transport answers (18 R604, 20 R634): the module has its supply, and I3C its dynamic address. -/
def State.answersOn (s : State) (tr : Transport) : Prop := s.pins.aux = true ∧ (tr = .i3c → s.pins.i3c ≠ none)

/-- One SPDM answer is sent on a transport, whose progress becomes n and whose negotiated algorithms a; the other transport's
stay (18 R604). -/
def SpdmSends (s t : State) (tr : Transport) (name : String) (body : List Byte) (n a : Nat) : Prop :=
  t = { s with sec := { s.sec with
                 spdmPcie := t.sec.spdmPcie, spdmI3c := t.sec.spdmI3c, algsPcie := t.sec.algsPcie, algsI3c := t.sec.algsI3c }
               out := Out.spdm tr name (Config.spdmBody name body) :: s.out }
    ∧ t.spdmAt tr = n ∧ t.spdmAlgs tr = a ∧ ∀ u, u ≠ tr → t.spdmAt u = s.spdmAt u ∧ t.spdmAlgs u = s.spdmAlgs u

/-- The command of an SPDM request that is answered once algorithms are negotiated on a transport, its answer's name and its
body; a signature takes a slot whose algorithm is among them. -/
inductive SpdmAsks (s : State) (tr : Transport) : (Transport → SpdmReq → Instr) → SpdmReq → String → List Byte → Prop
  | digests (q : SpdmReq) : SpdmAsks s tr .getDigests q "DIGESTS"
      (Config.sha384 (Config.certChain 0) ++ Config.sha384 (Config.certChain 1))
  | certificate (q : SpdmReq) (h : q.slot < 2) : SpdmAsks s tr .getCertificate q "CERTIFICATE"
      (imgPart (Config.certChain q.slot) q.off q.len)
  | challenge (q : SpdmReq) (h : q.slot < 2) (k : s.spdmAlgs tr / 2 ^ q.slot % 2 = 1) : SpdmAsks s tr .challenge q "CHALLENGE_AUTH"
      (Config.sha384 (Config.certChain q.slot) ++ Config.sign q.slot s.otp.seeds (Config.sha384 (Config.certChain q.slot) ++ q.nonce))
  | block (q : SpdmReq) (h : 1 ≤ q.index ∧ q.index ≤ 6) (n : q.sign = false) : SpdmAsks s tr .getMeasurements q "MEASUREMENTS"
      (s.measurement q.index)
  | signed (q : SpdmReq) (h : 1 ≤ q.index ∧ q.index ≤ 6) (n : q.sign = true) (k : q.slot < 2)
      (a : s.spdmAlgs tr / 2 ^ q.slot % 2 = 1) : SpdmAsks s tr .getMeasurements q "MEASUREMENTS"
        (s.measurement q.index ++ Config.sign q.slot s.otp.seeds (s.measurement q.index ++ q.nonce))

end Sys2Proof.Machine
end

