-- ==== Sys2Proof/Certificates/Slice0/Obligations.lean ====
section
/-!
DEFINITION. The statements about the model, for the provers: the spec's rules in the terms of the machine.
-/

open Sys2Proof Sys2Proof.Machine

/-- A step runs the command at the front of the queue (95_what_each_step_holds). On an empty queue time alone passes, which
moves the cycle counters by free numbers once a start has made the device ready; that idle tick is the model's choice (log
entry 43). -/
def Obligations.StepRunsFrontCommand : Prop :=
  (∀ (s : State) (c : Instr) (rest : List Instr), s.pending = c :: rest →
    step s = exec c { s with pending := rest })
  ∧ ∀ s : State, s.pending = [] → ∃ t, step s = .next t ∧ t = { s with regs := t.regs, free := t.free }
    ∧ (∀ a, (∀ lc, lc < 144 → a ≠ (Reg.pmuCycle lc).addr) → (∀ b, b < 313 → a ≠ (Reg.lathCycle b).addr) →
      mapGet? t.regs a = mapGet? s.regs a)
    ∧ (s.ready = false ∨ s.rf .pwrState 12 1 = 1 → t = s)

/-- OP instructions write the results of R43 and R44 and nothing else (R43, R44). -/
def Obligations.IntegerResults : Prop :=
  ∀ (s : State) (lc : Nat) (f : AluOp) (rd rs1 rs2 : BitVec 5), s.canIssue lc (.op f rd rs1 rs2) = true →
    ∃ t, exec (opCmd f lc rd rs1 rs2) s = .next t ∧ CoreFrame lc s t ∧ OnlyX (s.core lc) (t.core lc) rd
      ∧ WritesX (s.core lc) (t.core lc) rd (AluMeans f ((s.core lc).rx rs1) ((s.core lc).rx rs2))

/-- Immediate forms, shifts by an amount and LUI (R43, R46, R47, R48). -/
def Obligations.ImmediateResults : Prop :=
  (∀ (s : State) (lc : Nat) (f : ImmOp) (rd rs1 : BitVec 5) (imm : BitVec 15),
      s.canIssue lc (.opi f rd rs1 imm) = true →
      ∃ t, exec (immCmd f lc rd rs1 imm) s = .next t ∧ CoreFrame lc s t ∧ OnlyX (s.core lc) (t.core lc) rd
        ∧ WritesX (s.core lc) (t.core lc) rd (AluMeans (immAlu f) ((s.core lc).rx rs1) (BitVec.ofInt 64 imm.toInt)))
  ∧ (∀ (s : State) (lc : Nat) (f : ShOp) (rd rs1 : BitVec 5) (sh : BitVec 6),
      s.canIssue lc (.shi f rd rs1 sh) = true →
      ∃ t, exec (shCmd f lc rd rs1 sh) s = .next t ∧ CoreFrame lc s t ∧ OnlyX (s.core lc) (t.core lc) rd
        ∧ WritesX (s.core lc) (t.core lc) rd (AluMeans (shAlu f) ((s.core lc).rx rs1) (BitVec.ofNat 64 sh.toNat)))
  ∧ ∀ (s : State) (lc : Nat) (rd : BitVec 5) (imm : BitVec 20), s.canIssue lc (.lui rd imm) = true →
      ∃ t, exec (.lui lc rd imm) s = .next t ∧ CoreFrame lc s t ∧ OnlyX (s.core lc) (t.core lc) rd
        ∧ WritesX (s.core lc) (t.core lc) rd fun r => r.toInt = imm.toInt * 2 ^ 12

/-- OPF instructions: results, special values and frame (R45, R179, R180, R194, R197). -/
def Obligations.FloatResults : Prop :=
  (∀ (s : State) (lc : Nat) (f : FpOp) (rd rs1 rs2 : BitVec 5), s.canIssue lc (.opf f rd rs1 rs2) = true →
      ∃ t, exec (opfCmd f lc rd rs1 rs2) s = .next t ∧ CoreFrame lc s t ∧ OnlyX (s.core lc) (t.core lc) rd
        ∧ WritesX (s.core lc) (t.core lc) rd fun r =>
            FpMeans f (((s.core lc).rx rs1).setWidth 32) (((s.core lc).rx rs2).setWidth 32) r)
  ∧ (∀ (s : State) (lc : Nat) (rd rs1 : BitVec 5), s.canIssue lc (.fcvtSL rd rs1) = true →
      ∃ t, exec (.fcvtSL lc rd rs1) s = .next t ∧ CoreFrame lc s t ∧ OnlyX (s.core lc) (t.core lc) rd
        ∧ WritesX (s.core lc) (t.core lc) rd fun r =>
            r = (toFp32 (Num.ofInt ((s.core lc).rx rs1).toInt)).setWidth 64)
  ∧ ∀ (s : State) (lc : Nat) (rd rs1 : BitVec 5), s.canIssue lc (.fcvtLS rd rs1) = true →
      ∃ t, exec (.fcvtLS lc rd rs1) s = .next t ∧ CoreFrame lc s t ∧ OnlyX (s.core lc) (t.core lc) rd
        ∧ WritesX (s.core lc) (t.core lc) rd fun r => TruncMeans (fp32 (((s.core lc).rx rs1).setWidth 32)) r

/-- Branches, and jumps, of which JALR's target is the sum of 64 bits cut to 44, as is the model's reading (R53, R54; log
entry 10). -/
def Obligations.BranchesAndJumps : Prop :=
  (∀ (s : State) (lc : Nat) (k : Cond) (rs1 rs2 : BitVec 5) (off : BitVec 12),
      s.canIssue lc (.br k rs1 rs2 off) = true →
      ∃ t, exec (brCmd k lc rs1 rs2 off) s = .next t ∧ CoreFrame lc s t
        ∧ JumpsTo (s.core lc) (t.core lc) none
        ∧ (∀ r, (t.core lc).rx r = (s.core lc).rx r)
        ∧ (CondMeans k ((s.core lc).rx rs1) ((s.core lc).rx rs2) →
            (t.core lc).pc = (s.core lc).pc + BitVec.ofInt 44 (off.toInt * 4))
        ∧ (¬ CondMeans k ((s.core lc).rx rs1) ((s.core lc).rx rs2) → (t.core lc).pc = (s.core lc).pc + 4))
  ∧ (∀ (s : State) (lc : Nat) (rd : BitVec 5) (off : BitVec 20), s.canIssue lc (.jal rd off) = true →
      ∃ t, exec (.jal lc rd off) s = .next t ∧ CoreFrame lc s t ∧ JumpsTo (s.core lc) (t.core lc) (some rd)
        ∧ WritesX (s.core lc) (t.core lc) rd (fun r => r = ((s.core lc).pc + 4).setWidth 64)
        ∧ (t.core lc).pc = (s.core lc).pc + BitVec.ofInt 44 (off.toInt * 4))
  ∧ ∀ (s : State) (lc : Nat) (rd rs1 : BitVec 5) (imm : BitVec 15), s.canIssue lc (.jalr rd rs1 imm) = true →
      ((s.core lc).rx rs1 + BitVec.ofInt 64 imm.toInt).toNat % 4 = 0 →
      ∃ t, exec (.jalr lc rd rs1 imm) s = .next t ∧ CoreFrame lc s t ∧ JumpsTo (s.core lc) (t.core lc) (some rd)
        ∧ WritesX (s.core lc) (t.core lc) rd (fun r => r = ((s.core lc).pc + 4).setWidth 64)
        ∧ (t.core lc).pc = ((s.core lc).rx rs1 + BitVec.ofInt 64 imm.toInt).setWidth 44

/-- TKS, TKW, TKRD and TKSET, and a stalled TKW that is met; a TKW comes after the units whose oldest instruction asks for
a count of the same ticket (R35, R36, R37, R55). -/
def Obligations.TicketInstructions : Prop :=
  (∀ (s : State) (lc : Nat) (tk : BitVec 6) (imm : BitVec 11), s.canIssue lc (.tks tk imm) = true →
      (tk = 0 ∨ (s.core lc).tick tk + imm.toNat ≤ 65535) →
      ∃ t, exec (.tks lc tk imm) s = .next t ∧ CoreFrame lc s t ∧ OnlyTk (s.core lc) (t.core lc) tk 0
        ∧ WritesTk (s.core lc) (t.core lc) tk ((s.core lc).tick tk + imm.toNat))
  ∧ (∀ (s : State) (lc : Nat) (tk : BitVec 6) (imm : BitVec 11), s.canIssue lc (.tks tk imm) = true →
      tk ≠ 0 → 65535 < (s.core lc).tick tk + imm.toNat →
      ∃ t, exec (.tks lc tk imm) s = .next t ∧ (t.core lc).tick tk = 65535 ∧ (t.core lc).st = .draining
        ∧ (fld (s.core lc).excCause 0 8 = 0 → fld (t.core lc).excCause 0 8 = 0x11
            ∧ (t.core lc).excPc = (s.core lc).pc))
  ∧ (∀ (s : State) (lc : Nat) (tk : BitVec 6) (imm : BitVec 11), s.canIssue lc (.tkw tk imm) = true →
      (tk = 0 ∨ imm = 0 ∨ imm.toNat + (s.core lc).asking tk ≤ (s.core lc).tick tk) →
      ∃ t, exec (.tkw lc tk imm) s = .next t ∧ CoreFrame lc s t
        ∧ OnlyTk (s.core lc) (t.core lc) tk imm.toNat
        ∧ WritesTk (s.core lc) (t.core lc) tk ((s.core lc).tick tk - imm.toNat))
  ∧ (∀ (s : State) (lc : Nat) (tk : BitVec 6) (imm : BitVec 11), s.canIssue lc (.tkw tk imm) = true →
      tk ≠ 0 → imm ≠ 0 → (s.core lc).tick tk < imm.toNat + (s.core lc).asking tk →
      ∃ t, exec (.tkw lc tk imm) s = .next t ∧ CoreFrame lc s t ∧ (t.core lc).stall = .tkw tk imm
        ∧ (t.core lc).pc = (s.core lc).pc ∧ (t.core lc).tk = (s.core lc).tk ∧ (t.core lc).x = (s.core lc).x)
  ∧ (∀ (s : State) (lc : Nat) (xd : BitVec 5) (tk : BitVec 6), s.canIssue lc (.tkrd xd tk) = true →
      ∃ t, exec (.tkrd lc xd tk) s = .next t ∧ CoreFrame lc s t ∧ OnlyX (s.core lc) (t.core lc) xd
        ∧ WritesX (s.core lc) (t.core lc) xd fun r => r.toNat = (s.core lc).tick tk)
  ∧ (∀ (s : State) (lc : Nat) (tk : BitVec 6) (xs : BitVec 5), s.canIssue lc (.tkset tk xs) = true →
      ∃ t, exec (.tkset lc tk xs) s = .next t ∧ CoreFrame lc s t ∧ OnlyTk (s.core lc) (t.core lc) tk 0
        ∧ WritesTk (s.core lc) (t.core lc) tk (min ((s.core lc).rx xs).toNat 65535))
  ∧ ∀ (s : State) (lc : Nat) (tk : BitVec 6) (imm : BitVec 11), (s.core lc).stall = .tkw tk imm →
      (s.core lc).st = .running → s.clocked lc = true →
      (tk = 0 ∨ imm = 0 ∨ imm.toNat + (s.core lc).asking tk ≤ (s.core lc).tick tk) →
      ∃ t, exec (.tkwSatisfied lc) s = .next t ∧ CoreFrame lc s t ∧ (t.core lc).stall = .none
        ∧ (t.core lc).pc = (s.core lc).pc + 4 ∧ (t.core lc).x = (s.core lc).x ∧ (t.core lc).d = (s.core lc).d
        ∧ (∀ u, (t.core lc).q u = (s.core lc).q u)
        ∧ WritesTk (s.core lc) (t.core lc) tk ((s.core lc).tick tk - imm.toNat)

/-- DSET, DGET, DCPY, DZERO, SUMRD, SEED, ICINV and FENCE (R56, R57, R58, R60, R61, R83). -/
def Obligations.DescriptorAndSystemInstructions : Prop :=
  (∀ (s : State) (lc : Nat) (dn : BitVec 4) (w : BitVec 3) (xs : BitVec 5), s.canIssue lc (.dset dn w xs) = true →
      ∃ t, exec (.dset lc dn w xs) s = .next t ∧ CoreFrame lc s t ∧ OnlyD (s.core lc) (t.core lc) dn
        ∧ ∀ k, k < 8 → dword ((t.core lc).rd dn) k
            = if k = w.toNat then (s.core lc).rx xs else dword ((s.core lc).rd dn) k)
  ∧ (∀ (s : State) (lc : Nat) (xd : BitVec 5) (dn : BitVec 4) (w : BitVec 3), s.canIssue lc (.dget xd dn w) = true →
      ∃ t, exec (.dget lc xd dn w) s = .next t ∧ CoreFrame lc s t ∧ OnlyX (s.core lc) (t.core lc) xd
        ∧ WritesX (s.core lc) (t.core lc) xd fun r => r = dword ((s.core lc).rd dn) w.toNat)
  ∧ (∀ (s : State) (lc : Nat) (dn dm : BitVec 4), s.canIssue lc (.dcpy dn dm) = true →
      ∃ t, exec (.dcpy lc dn dm) s = .next t ∧ CoreFrame lc s t ∧ OnlyD (s.core lc) (t.core lc) dn
        ∧ (t.core lc).rd dn = (s.core lc).rd dm)
  ∧ (∀ (s : State) (lc : Nat) (dn : BitVec 4), s.canIssue lc (.dzero dn) = true →
      ∃ t, exec (.dzero lc dn) s = .next t ∧ CoreFrame lc s t ∧ OnlyD (s.core lc) (t.core lc) dn
        ∧ (t.core lc).rd dn = 0)
  ∧ (∀ (s : State) (lc : Nat) (xd : BitVec 5) (slot field : BitVec 3), s.canIssue lc (.sumrd xd slot field) = true →
      ∃ t, exec (.sumrd lc xd slot field) s = .next t ∧ CoreFrame lc s t ∧ OnlyX (s.core lc) (t.core lc) xd
        ∧ WritesX (s.core lc) (t.core lc) xd fun r =>
          let m := (s.core lc).sum[slot.toNat]
          [m.max, m.min, m.sum, m.nnz, m.argmax, m.flags, m.status, m.seq][field.toNat]? = some r)
  ∧ (∀ (s : State) (lc : Nat) (xs : BitVec 5), s.canIssue lc (.seed xs) = true →
      ∃ t, exec (.seed lc xs) s = .next t ∧ CoreFrame lc s t
        ∧ t.core lc = { (s.core lc).touch with
            late := (t.core lc).late
            seed := (s.core lc).rx xs, ord := 0, pc := (s.core lc).pc + 4, icMiss := false, qFull := false })
  ∧ (∀ (s : State) (lc : Nat), s.canIssue lc .icinv = true →
      ∃ t, exec (.icinv lc) s = .next t ∧ CoreFrame lc s t
        ∧ t.core lc = { s.core lc with ic := [], late := (t.core lc).late, pc := (s.core lc).pc + 4, icMiss := false, qFull := false })
  ∧ (∀ (s : State) (lc : Nat), s.canIssue lc .fence = true → (s.core lc).stores = [] →
      ∃ t, exec (.fence lc) s = .next t ∧ CoreFrame lc s t
        ∧ t.core lc = { (s.core lc).touch with late := (t.core lc).late, pc := (s.core lc).pc + 4, icMiss := false, qFull := false })
  ∧ ∀ (s : State) (lc : Nat), s.canIssue lc .fence = true → (s.core lc).stores ≠ [] →
      exec (.fence lc) s = .next (s.setCore lc { s.core lc with stall := .fence })

/-- A load or DLD whose address may be read leaves an outstanding load (R49, R51, R52, R56, R62, R63). -/
def Obligations.LoadsIssue : Prop :=
  (∀ (s : State) (lc : Nat) (w : LoadW) (rd rs1 : BitVec 5) (imm : BitVec 12),
      let a := (s.core lc).rx rs1 + BitVec.ofInt 64 imm.toInt
      s.canIssue lc (.load w rd rs1 imm) = true → AddrRule s lc a (loadBytes w) none → (s.core lc).loads.length < 4 →
      ∃ t l, exec (loadCmd w lc rd rs1 imm) s = .next t ∧ CoreFrame lc s t
        ∧ t.core lc = { (s.core lc).touch with
            late := (t.core lc).late
            loads := passed (s.core lc).loads (some rd) none ++ [l]
            pc := (s.core lc).pc + 4, icMiss := false, qFull := false }
        ∧ l.dst = .x rd w ∧ l.stale = false ∧ l.addr = a.toNat ∧ l.data = none ∧ l.pc = (s.core lc).pc)
  ∧ ∀ (s : State) (lc : Nat) (dn : BitVec 4) (xs : BitVec 5) (imm : BitVec 16),
      let a := (s.core lc).rx xs + BitVec.ofInt 64 (imm.toInt * 64)
      s.canIssue lc (.dld dn xs imm) = true → AddrRule s lc a 64 none → (s.core lc).loads.length < 4 →
      ∃ t l, exec (.dld lc dn xs imm) s = .next t ∧ CoreFrame lc s t
        ∧ t.core lc = { (s.core lc).touch with
            late := (t.core lc).late
            loads := passed (s.core lc).loads none (some dn) ++ [l]
            pc := (s.core lc).pc + 4, icMiss := false, qFull := false }
        ∧ l.dst = .d dn ∧ l.stale = false ∧ l.addr = a.toNat ∧ l.data = none ∧ l.pc = (s.core lc).pc

/-- The oldest load returns the bytes that it finds at its place in a hawk, the hod or render memory, or the word of a register,
or raises LOAD_POISON; one whose destination a later instruction has written writes nothing (R49, R52, R56, R62, R63,
R65). -/
def Obligations.LoadDataReturns : Prop :=
  ∀ (s : State) (lc : Nat) (l : Load) (rest : List Load),
    let at' := s.resolve (some lc) l.addr
    (s.core lc).loads = l :: rest → l.data = none → s.loadBlocked lc 0 l = false → (s.core lc).stall = .none →
    Crosses s lc at' .up → (∀ x ∈ s.slices, x < 168) → (l.addr % 256) + l.dst.size ≤ 256 →
    let gives (t : State) (bs : List Byte) : Prop :=
      exec (.loadDataReturn lc []) s = .next t ∧ AccessFrame lc s t
        ∧ (t.core lc).loads = rest ∧ (t.core lc).pc = (s.core lc).pc ∧ (t.core lc).st = (s.core lc).st
        ∧ (t.core lc).tk = (s.core lc).tk
        ∧ (l.stale = true → (t.core lc).x = (s.core lc).x ∧ (t.core lc).d = (s.core lc).d)
        ∧ (l.stale = false → match l.dst with
          | .x rd w => WritesX (s.core lc) (t.core lc) rd (LoadMeans w bs) ∧ (t.core lc).d = (s.core lc).d
          | .d dn => (t.core lc).x = (s.core lc).x
              ∧ (∀ m, m ≠ dn → (t.core lc).rd m = (s.core lc).rd m) ∧ ((t.core lc).rd dn).toNat = leNat bs)
    (s.chanReset at' = false → ∀ bs, s.found at' l.dst.size = some (bs, false) →
      ∃ t, gives t bs ∧ ((∃ k, s.plainCell at' = some k) → OthersSame lc s t)
        ∧ ((∃ k, at' = .hawk lc k) → CoreFrame lc s t))
    ∧ (s.chanReset at' = false → ∀ bs, s.found at' l.dst.size = some (bs, true) → (s.core lc).st = .running →
      ∃ t, exec (.loadDataReturn lc []) s = .next t ∧ (t.core lc).loads = rest
        ∧ (t.core lc).x = (s.core lc).x ∧ (t.core lc).d = (s.core lc).d ∧ (t.core lc).st = .draining
        ∧ ((∃ k, s.plainCell at' = some k) → t.mem = s.mem)
        ∧ (fld (s.core lc).excCause 0 8 = 0 → fld (t.core lc).excCause 0 8 = 5 ∧ (t.core lc).excPc = l.pc))
    ∧ ∀ r, at' = .reg r → (at'.coreOf = none ∨ at'.coreOf = some lc) → (l.addr % 8) + l.dst.size ≤ 8 →
      ∃ t, gives t (((leBytes 8 (s.regWordAt (.core lc) (l.addr / 8 * 8)).toNat).drop (l.addr % 8)).take l.dst.size)
        ∧ OthersSame lc s t

/-- Stores to the own hawk are performed at once, ST.REL and DST included; errors that the read of a partly written word meets
and correction takes away change none of it (R50, R51, R56, R66). -/
def Obligations.StoresToOwnHawk : Prop :=
  (∀ (s : State) (lc key : Nat) (w : StoreW) (rs2 rs1 : BitVec 5) (imm : BitVec 12) (errs : List MemErr),
      let a := (s.core lc).rx rs1 + BitVec.ofInt 64 imm.toInt
      s.Sound → s.canIssue lc (.store w rs2 rs1 imm) = true → a.toNat % (StoreW.size w) = 0 → Corrected errs →
      s.resolve (some lc) a.toNat = .hawk lc key → s.storeBlocked lc (s.core lc).storeSeq a.toNat (StoreW.size w) = false →
      (w = .stRel → (s.core lc).stores = [] ∧ s.orphaned lc = false ∧ setHas (s.core lc).lost 5 = false) →
      ∃ t, exec (storeCmd w lc rs2 rs1 imm errs) s = .next t
        ∧ Stores s t key (leBytes (StoreW.size w) ((s.core lc).rx rs2).toNat)
        ∧ (errs = [] → StoreFrame lc s t) ∧ (∀ k, k ≠ lc → t.core k = { s.core k with waitf := (t.core k).waitf })
        ∧ t.core lc = { (s.core lc).touch with
            late := (t.core lc).late, pc := (s.core lc).pc + 4, icMiss := false, qFull := false })
  ∧ ∀ (s : State) (lc key : Nat) (dn : BitVec 4) (xs : BitVec 5) (imm : BitVec 16),
      let a := (s.core lc).rx xs + BitVec.ofInt 64 (imm.toInt * 64)
      s.Sound → s.canIssue lc (.dst dn xs imm) = true → a.toNat % 64 = 0 →
      s.resolve (some lc) a.toNat = .hawk lc key → s.storeBlocked lc (s.core lc).storeSeq a.toNat 64 = false →
      ∃ t, exec (.dst lc dn xs imm) s = .next t
        ∧ Stores s t key (leBytes 64 ((s.core lc).rd dn).toNat)
        ∧ StoreFrame lc s t
        ∧ t.core lc = { (s.core lc).touch with
            late := (t.core lc).late, pc := (s.core lc).pc + 4, icMiss := false, qFull := false }

/-- A store elsewhere is posted, and STORE_PERFORMED writes its bytes in a hawk, the hod or render memory, or the fields of a
register; at a render controller in reset it ends with PORT_RESET and writes nothing (R50, R51, R64, R67, R137, R441). -/
def Obligations.PostedStores : Prop :=
  (∀ (s : State) (lc : Nat) (w : StoreW) (rs2 rs1 : BitVec 5) (imm : BitVec 12) (errs : List MemErr),
      let a := (s.core lc).rx rs1 + BitVec.ofInt 64 imm.toInt
      s.canIssue lc (.store w rs2 rs1 imm) = true → AddrRule s lc a (StoreW.size w) none → s.atOnce lc a.toNat = false →
      (s.core lc).stores.length < 16 →
      (w = .stRel → (s.core lc).stores = [] ∧ s.orphaned lc = false ∧ setHas (s.core lc).lost 5 = false) →
      ∃ t p, exec (storeCmd w lc rs2 rs1 imm errs) s = .next t ∧ CoreFrame lc s t
        ∧ (t.core lc).stores = (s.core lc).stores ++ [p] ∧ p.addr = a.toNat
        ∧ p.bytes = leBytes (StoreW.size w) ((s.core lc).rx rs2).toNat
        ∧ (t.core lc).x = (s.core lc).x ∧ (t.core lc).d = (s.core lc).d ∧ (t.core lc).pc = (s.core lc).pc + 4)
  ∧ (∀ (s : State) (lc : Nat) (dn : BitVec 4) (xs : BitVec 5) (imm : BitVec 16),
      let a := (s.core lc).rx xs + BitVec.ofInt 64 (imm.toInt * 64)
      s.canIssue lc (.dst dn xs imm) = true → AddrRule s lc a 64 none → s.atOnce lc a.toNat = false →
      (s.core lc).stores.length < 16 →
      ∃ t p, exec (.dst lc dn xs imm) s = .next t ∧ CoreFrame lc s t
        ∧ (t.core lc).stores = (s.core lc).stores ++ [p] ∧ p.addr = a.toNat
        ∧ p.bytes = leBytes 64 ((s.core lc).rd dn).toNat
        ∧ (t.core lc).x = (s.core lc).x ∧ (t.core lc).d = (s.core lc).d ∧ (t.core lc).pc = (s.core lc).pc + 4)
  ∧ ∀ (s : State) (lc idx : Nat) (p : PStore) (errs : List MemErr), s.Sound → (s.core lc).stores[idx]? = some p →
      let at' := s.resolve (some lc) p.addr
      s.storeBlocked lc p.id p.addr p.bytes.length = false → (s.core lc).stall = .none → Crosses s lc at' .down →
      (∀ x ∈ s.slices, x < 168) → (p.addr % 256) + p.bytes.length ≤ 256 → Corrected errs →
      let does (t : State) : Prop := exec (.storePerformed lc ⟨idx, errs⟩) s = .next t
        ∧ (errs = [] → AccessFrame lc s t)
        ∧ (t.core lc).stores = (s.core lc).stores.eraseIdx idx
        ∧ (t.core lc).x = (s.core lc).x ∧ (t.core lc).d = (s.core lc).d ∧ (t.core lc).pc = (s.core lc).pc
      (s.chanReset at' = false → ∀ key, s.plainCell at' = some key → ∃ t, does t ∧ Stores s t key p.bytes)
      ∧ (s.chanReset at' = false → (∀ x ∈ s.rc, ∀ y ∈ x.2, y.data.length = 256) →
        ∀ q a, at' = .render q (some a) → s.rcMib ≠ 0 →
        ∃ t b, does t ∧ t.found at' p.bytes.length = some (p.bytes, b))
      ∧ (s.chanReset at' = true → ∃ t, exec (.storePerformed lc ⟨idx, errs⟩) s = .next t ∧ t.mem = s.mem
        ∧ t.poison = s.poison ∧ (t.core lc).stores = (s.core lc).stores.eraseIdx idx
        ∧ setHas (t.core lc).lost 5 = true ∧ (t.core lc).x = (s.core lc).x ∧ (t.core lc).pc = (s.core lc).pc)
      ∧ ∀ r, PlainReg r → at' = .reg r.addr → (at'.coreOf = none ∨ at'.coreOf = some lc) → p.addr = r.addr →
        p.bytes.length = 8 → s.mayWrite (.core lc) r = true → ¬ AccessAddr lc r.addr →
        ∃ t, exec (.storePerformed lc ⟨idx, errs⟩) s = .next t ∧ t.mem = s.mem ∧ t.poison = s.poison
          ∧ (t.core lc).stores = (s.core lc).stores.eraseIdx idx
          ∧ (∀ f ∈ r.wflds, FieldMeans f (s.reg r) (BitVec.ofNat 64 (leNat p.bytes)) (t.reg r))
          ∧ ∀ i, r.fixedBit i → (t.reg r).getLsbD i = (s.reg r).getLsbD i

/-- A load or store that breaks the address rules raises the first exception of R51 (R51). -/
def Obligations.AddressExceptionsInOrder : Prop :=
  (∀ (s : State) (lc : Nat) (w : LoadW) (rd rs1 : BitVec 5) (imm : BitVec 12) (cause sub : Nat),
      let a := (s.core lc).rx rs1 + BitVec.ofInt 64 imm.toInt
      s.canIssue lc (.load w rd rs1 imm) = true → AddrRule s lc a (loadBytes w) (some (cause, sub)) →
      ∃ t, exec (loadCmd w lc rd rs1 imm) s = .next t ∧ CoreFrame lc s t
        ∧ TakesExc (s.core lc) (t.core lc) cause sub (s.core lc).pc a (Flik.load w rd rs1 imm).encode)
  ∧ (∀ (s : State) (lc : Nat) (w : StoreW) (rs2 rs1 : BitVec 5) (imm : BitVec 12) (cause sub : Nat) (errs : List MemErr),
      let a := (s.core lc).rx rs1 + BitVec.ofInt 64 imm.toInt
      s.canIssue lc (.store w rs2 rs1 imm) = true → AddrRule s lc a (StoreW.size w) (some (cause, sub)) →
      ∃ t, exec (storeCmd w lc rs2 rs1 imm errs) s = .next t ∧ CoreFrame lc s t
        ∧ TakesExc (s.core lc) (t.core lc) cause sub (s.core lc).pc a (Flik.store w rs2 rs1 imm).encode)
  ∧ (∀ (s : State) (lc : Nat) (dn : BitVec 4) (xs : BitVec 5) (imm : BitVec 16) (cause sub : Nat),
      let a := (s.core lc).rx xs + BitVec.ofInt 64 (imm.toInt * 64)
      s.canIssue lc (.dld dn xs imm) = true → AddrRule s lc a 64 (some (cause, sub)) →
      ∃ t, exec (.dld lc dn xs imm) s = .next t ∧ CoreFrame lc s t
        ∧ TakesExc (s.core lc) (t.core lc) cause sub (s.core lc).pc a (Flik.dld dn xs imm).encode)
  ∧ ∀ (s : State) (lc : Nat) (dn : BitVec 4) (xs : BitVec 5) (imm : BitVec 16) (cause sub : Nat),
      let a := (s.core lc).rx xs + BitVec.ofInt 64 (imm.toInt * 64)
      s.canIssue lc (.dst dn xs imm) = true → AddrRule s lc a 64 (some (cause, sub)) →
      ∃ t, exec (.dst lc dn xs imm) s = .next t ∧ CoreFrame lc s t
        ∧ TakesExc (s.core lc) (t.core lc) cause sub (s.core lc).pc a (Flik.dst dn xs imm).encode

/-- BRK, a misaligned JALR, an illegal word, STOP, PARITY and TICKET_DEADLOCK take their exceptions; that CORE_EXC_ADDR holds
0 where no address raised one is the model's choice (R54, R60, R88, R89, R90, R91, R95, R96, R98; log entry 94). -/
def Obligations.ExceptionEntries : Prop :=
  (∀ (s : State) (lc : Nat) (imm : BitVec 15), s.canIssue lc (.brk imm) = true →
      ∃ t, exec (.brk lc imm) s = .next t ∧ CoreFrame lc s t
        ∧ TakesExc (s.core lc) (t.core lc) 6 (imm.toNat % 256) (s.core lc).pc 0 (Flik.brk imm).encode)
  ∧ (∀ (s : State) (lc : Nat) (rd rs1 : BitVec 5) (imm : BitVec 15), s.canIssue lc (.jalr rd rs1 imm) = true →
      let a := (s.core lc).rx rs1 + BitVec.ofInt 64 imm.toInt
      a.toNat % 4 ≠ 0 →
      ∃ t, exec (.jalr lc rd rs1 imm) s = .next t ∧ CoreFrame lc s t
        ∧ TakesExc (s.core lc) (t.core lc) 3 0 (s.core lc).pc a (Flik.jalr rd rs1 imm).encode)
  ∧ (∀ (s : State) (lc : Nat) (w : BitVec 32), s.valid lc = true → s.failed lc = false → s.clocked lc = true →
      (s.core lc).st = .running → (s.core lc).stall = .none → (s.core lc).icWord (s.core lc).pc = some w →
      decode w = none →
      ∃ t, exec (.illegalInstruction lc w) s = .next t ∧ CoreFrame lc s t
        ∧ TakesExc (s.core lc) (t.core lc) 1 0 (s.core lc).pc 0 w)
  ∧ (∀ (s : State) (lc : Nat) (w : BitVec 32), s.valid lc = true →
      ((s.core lc).st = .running ∨ (s.core lc).st = .sleeping) → (s.core lc).icWord (s.core lc).pc = some w →
      ∃ t, exec (.coreCtrlStop lc) s = .next t ∧ TakesExc (s.core lc) (t.core lc) 0x14 0 (s.core lc).pc 0 w
        ∧ t.mem = s.mem ∧ ∀ k, k ≠ lc → t.core k = s.core k)
  ∧ (∀ (s : State) (lc : Nat) (w : BitVec 32), s.valid lc = true → s.failed lc = false →
      (s.core lc).st = .running → (s.core lc).icWord (s.core lc).pc = some w → (s.site (s.siteOf lc)).parity = 0 →
      ∃ t, exec (.controlPathParityError lc) s = .next t
        ∧ TakesExc (s.core lc) (t.core lc) 0x13 0 (s.core lc).pc 0 w ∧ t.mem = s.mem)
  ∧ ∀ (s : State) (lc : Nat) (w : BitVec 32) (tk : BitVec 6) (imm : BitVec 11), (s.core lc).st = .running →
      (s.core lc).stall = .tkw tk imm → tk ≠ 0 → imm ≠ 0 →
      (s.core lc).tick tk < imm.toNat + (s.core lc).asking tk →
      (∀ u e rest, (s.core lc).q u = e :: rest →
        e.started = false ∧ e.op.tickets.1 ≠ 0 ∧ (s.core lc).tick e.op.tickets.1 = 0) →
      (s.core lc).icWord (s.core lc).pc = some w →
      ∃ t, exec (.ticketDeadlock lc) s = .next t ∧ TakesExc (s.core lc) (t.core lc) 0x12 0 (s.core lc).pc 0 w
        ∧ t.mem = s.mem ∧ ∀ k, k ≠ lc → t.core k = s.core k

/-- WAITF completes at once, sleeps, wakes or times out; that the flag's bytes are compared whether poisoned or not is the
model's choice (R71, R72, R73, R74, R75, R76; log entry 95). -/
def Obligations.WaitfSleepsAndWakes : Prop :=
  (∀ (s : State) (lc off : Nat) (rd rs1 rs2 : BitVec 5) (cond : BitVec 3) (acq : Bool) (tmo : BitVec 5)
      (errs : List MemErr), cond ≠ 7 → Corrected errs → s.canIssue lc (.waitf rd rs1 rs2 cond acq tmo) = true →
      ((s.core lc).rx rs1).toNat = 0x10100000000 + lc * 0x400000 + off → off % 8 = 0 → off < 0x200000 →
      let v := s.hawkWord lc off
      let c := (s.core lc).rx rs2
      let holds := (cond = 0 ∧ v = c) ∨ (cond = 1 ∧ v ≠ c) ∨ (cond = 2 ∧ c.toNat ≤ v.toNat)
        ∨ (cond = 3 ∧ v.toNat < c.toNat) ∨ (cond = 4 ∧ c.toInt ≤ v.toInt) ∨ (cond = 5 ∧ v.toInt < c.toInt)
        ∨ (cond = 6 ∧ v &&& c ≠ 0)
      ∃ t, exec (.waitf ⟨lc, errs⟩ rd rs1 rs2 cond acq tmo) s = .next t ∧ t.mem = s.mem
        ∧ (∀ k, k ≠ lc → t.core k = s.core k)
        ∧ (holds → WritesX (s.core lc) (t.core lc) rd (fun r => r = 0) ∧ (t.core lc).st = .running
            ∧ (t.core lc).pc = (s.core lc).pc + 4)
        ∧ (¬ holds → (t.core lc).x = (s.core lc).x ∧ (t.core lc).st = .sleeping
            ∧ (t.core lc).pc = (s.core lc).pc
            ∧ (t.core lc).waitf = some ⟨rd, off, c, cond, acq, tmo, false⟩))
  ∧ (∀ (s : State) (lc : Nat) (w : Waitf), (s.core lc).waitf = some w → (s.core lc).st = .sleeping → w.met = true →
      s.windowOpen lc = false → s.clocked lc = true →
      ∃ t, exec (.waitfWake lc) s = .next t ∧ t.mem = s.mem ∧ (∀ k, k ≠ lc → t.core k = s.core k)
        ∧ WritesX (s.core lc) (t.core lc) w.rd (fun r => r = 0) ∧ (t.core lc).st = .running
        ∧ (t.core lc).waitf = none ∧ (t.core lc).pc = (s.core lc).pc + 4)
  ∧ ∀ (s : State) (lc : Nat) (w : Waitf), (s.core lc).waitf = some w → (s.core lc).st = .sleeping → w.met = false →
      w.tmo ≠ 0 → s.clocked lc = true →
      ∃ t, exec (.waitfTimeout lc) s = .next t ∧ t.mem = s.mem ∧ (∀ k, k ≠ lc → t.core k = s.core k)
        ∧ WritesX (s.core lc) (t.core lc) w.rd (fun r => r = 1) ∧ (t.core lc).st = .running
        ∧ (t.core lc).waitf = none ∧ (t.core lc).pc = (s.core lc).pc + 4

/-- HALT stops issue and a drained core is DONE or FAULTED (R60, R86, R88, R95, R96). -/
def Obligations.HaltAndDrain : Prop :=
  (∀ (s : State) (lc : Nat) (xs : BitVec 5), s.canIssue lc (.halt xs) = true →
      ∃ t, exec (.halt lc xs) s = .next t ∧ CoreFrame lc s t
        ∧ t.core lc = { (s.core lc).touch with late := (t.core lc).late, st := .draining, exit := some ((s.core lc).rx xs) })
  ∧ (∀ (s : State) (lc : Nat) (x : Word), (s.core lc).st = .draining → (∀ u, (s.core lc).q u = []) →
      (s.core lc).loads = [] → (s.core lc).stores = [] → (s.core lc).exit = some x →
      ∃ t, exec (.coreDrainComplete lc) s = .next t ∧ CoreFrame lc s t ∧ (t.core lc).st = .done
        ∧ fld (t.core lc).excCause 32 8 = x.toNat % 256 ∧ (t.core lc).excAddr = x
        ∧ (t.core lc).excPc = (s.core lc).pc ∧ (t.core lc).x = (s.core lc).x ∧ (t.core lc).d = (s.core lc).d
        ∧ (t.core lc).tk = (s.core lc).tk ∧ (t.core lc).sum = (s.core lc).sum)
  ∧ ∀ (s : State) (lc : Nat), (s.core lc).st = .draining → (∀ u, (s.core lc).q u = []) →
      (s.core lc).loads = [] → (s.core lc).stores = [] → (s.core lc).exit = none →
      ∃ t, exec (.coreDrainComplete lc) s = .next t ∧ CoreFrame lc s t
        ∧ t.core lc = { s.core lc with late := [], st := .faulted }

/-- An instruction-cache miss fills its line from memory, and a line that may not be fetched or whose granule at the PC
is poisoned faults; a parity error drops its line and fetches it again (R80, R81, R82, R84, R96, R112, R120). -/
def Obligations.InstructionCacheFills : Prop :=
  (∀ (s : State) (lc : Nat), s.valid lc = true → s.failed lc = false → s.clocked lc = true → (s.core lc).st = .running →
      (s.core lc).stall = .none → (∀ l ∈ (s.core lc).ic, l.tag ≠ (s.core lc).pc.toNat / 256) →
      ChannelFree s (s.siteOf lc) .up →
      let tag := (s.core lc).pc.toNat / 256
      let off := (s.core lc).pc.toNat % 256
      (∀ bs marks, s.fetched lc tag = some (bs, marks) → marks (off / 64) = false →
        ∃ t, exec (.icacheMissFill lc []) s = .next t ∧ (∀ k, k ≠ lc → t.core k = s.core k)
          ∧ HoldsLine (t.core lc) tag bs
          ∧ ((s.core lc).pc.toNat % 4 = 0 →
              (t.core lc).icWord (s.core lc).pc = some (BitVec.ofNat 32 (leNat ((bs.drop off).take 4))))
          ∧ (t.core lc).st = .running ∧ (t.core lc).pc = (s.core lc).pc ∧ (t.core lc).x = (s.core lc).x
          ∧ (s.rcMib = 0 → t.mem = s.mem))
      ∧ (∀ bs marks, s.fetched lc tag = some (bs, marks) → marks (off / 64) = true →
        ∃ t, exec (.icacheMissFill lc []) s = .next t ∧ FetchFaults s t lc)
      ∧ (s.fetched lc tag = none →
        ∃ t, exec (.icacheMissFill lc []) s = .next t ∧ t.mem = s.mem ∧ FetchFaults s t lc))
  ∧ (∀ (s : State) (lc tag : Nat) (bs : List Byte) (marks : Nat → Bool), (∃ l ∈ (s.core lc).ic, l.tag = tag) →
      ChannelFree s (s.siteOf lc) .up → s.fetched lc tag = some (bs, marks) →
      ∃ t, exec (.icacheParityError lc ⟨tag, []⟩) s = .next t ∧ (∀ k, k ≠ lc → t.core k = s.core k)
        ∧ HoldsLine (t.core lc) tag bs ∧ (s.rcMib = 0 → t.mem = s.mem)
        ∧ (t.core lc).st = (s.core lc).st ∧ (t.core lc).pc = (s.core lc).pc ∧ (t.core lc).x = (s.core lc).x
        ∧ (t.core lc).excCause = (s.core lc).excCause)
  ∧ ∀ (s : State) (lc tag : Nat), (∃ l ∈ (s.core lc).ic, l.tag = tag) →
      (s.windowOpen lc = true ∨ s.clocked lc = false ∨ s.fetched lc tag = none) →
      ∃ t, exec (.icacheParityError lc ⟨tag, []⟩) s = .next t ∧ t.mem = s.mem ∧ (∀ k, k ≠ lc → t.core k = s.core k)
        ∧ t.core lc = { s.core lc with ic := (s.core lc).ic.filter fun l => l.tag != tag }

/-- A unit instruction captures its descriptor registers in its queue at dispatch, and stalls at a queue of 16, in which started
entries count too: that they do is the model's choice (R38, R39; log entry 89). -/
def Obligations.UnitInstructionsDispatch : Prop :=
  (∀ (s : State) (c : Instr) (lc : Nat) (u : UOp), Dispatches c lc u → s.canIssue lc (.unit u) = true →
      ((s.core lc).q u.unit).length < 16 →
      ∃ t e, exec c s = .next t ∧ CoreFrame lc s t ∧ Captured (s.core lc) u e
        ∧ (t.core lc).q u.unit = (s.core lc).q u.unit ++ [e]
        ∧ (∀ v, v ≠ u.unit → (t.core lc).q v = (s.core lc).q v)
        ∧ (t.core lc).x = (s.core lc).x ∧ (t.core lc).d = (s.core lc).d ∧ (t.core lc).tk = (s.core lc).tk
        ∧ (t.core lc).sum = (s.core lc).sum ∧ (t.core lc).bankA = (s.core lc).bankA
        ∧ (t.core lc).bankB = (s.core lc).bankB ∧ (t.core lc).pc = (s.core lc).pc + 4)
  ∧ ∀ (s : State) (c : Instr) (lc : Nat) (u : UOp), Dispatches c lc u → s.canIssue lc (.unit u) = true →
      16 ≤ ((s.core lc).q u.unit).length →
      ∃ t, exec c s = .next t ∧ CoreFrame lc s t ∧ t.core lc = { s.core lc with qFull := true }

/-- Wait tickets at the start of each unit's instructions, after the units that the order of R37 puts first; signal tickets and
summary slots at the end (R32, R33, R34, R37, R58, R59, R112, R627). -/
def Obligations.UnitInstructionsStartAndComplete : Prop :=
  (∀ (s : State) (lc i : Nat) (u : UnitId) (e : UEntry), (s.core lc).headOf u = some (i, e) →
      let c := s.core lc
      let tk := e.op.tickets.1
      let before := ((unitsBefore u).filter fun v => c.asks v (c.unitGate v) tk).length
      (tk = 0 ∨ 1 + before ≤ c.tick tk) → c.unitGate u e = true → s.clocked lc = true →
      (u = .mover → s.spillWaits lc = false) →
      ∃ t e', exec (.unitInstructionStart lc u) s = .next t
        ∧ (u ≠ .scrim → CoreFrame lc s t) ∧ (u = .scrim → CoreFrame lc s { t with colls := s.colls })
        ∧ ((t.core lc).q u)[i]? = some e' ∧ e'.started = true ∧ e'.op = e.op ∧ e'.ds = e.ds ∧ e'.fin = e.fin
        ∧ (∀ k, k < i → ((t.core lc).q u)[k]? = (c.q u)[k]?) ∧ (∀ v, v ≠ u → (t.core lc).q v = c.q v)
        ∧ WritesTk c (t.core lc) tk (c.tick tk - 1)
        ∧ (t.core lc).x = c.x ∧ (t.core lc).d = c.d ∧ (t.core lc).pc = c.pc)
  ∧ (∀ (c : Core) (u : UnitId) (i : Nat) (e : UEntry), c.headOf u = some (i, e) → c.stcOwns = false →
      (∀ v, ∀ x ∈ c.q v, x.started = false) → (UOp.owns e.op = true → c.q .trowel = [] ∧ c.q .brush = []) →
      c.unitGate u e = true)
  ∧ (∀ (s : State) (lc : Nat) (u : UnitId) (e : UEntry) (i : Nat), (s.core lc).headOf u = some (i, e) →
      e.op.tickets.1 ≠ 0 → (s.core lc).tick e.op.tickets.1 = 0 → exec (.unitInstructionStart lc u) s = .next s)
  ∧ ∀ (s : State) (lc : Nat) (u : UnitId) (e : UEntry) (rest : List UEntry) (r : Fin),
      (u = .stencil → (s.core lc).held = []) → s.clocked lc = true →
      (s.core lc).q u = e :: rest → e.started = true → e.fin = some r → UOp.owns e.op = false → r.status.toNat < 0x40 →
      (e.op.tickets.2 = 0 ∨ (s.core lc).tick e.op.tickets.2 < 65535) →
      ∃ t, exec (.unitInstructionComplete lc u) s = .next t ∧ CoreFrame lc s t ∧ (t.core lc).q u = rest
        ∧ (∀ v, v ≠ u → (t.core lc).q v = (s.core lc).q v)
        ∧ WritesTk (s.core lc) (t.core lc) e.op.tickets.2 ((s.core lc).tick e.op.tickets.2 + 1)
        ∧ (t.core lc).x = (s.core lc).x ∧ (t.core lc).d = (s.core lc).d ∧ (t.core lc).pc = (s.core lc).pc
        ∧ (t.core lc).st = (s.core lc).st
        ∧ (e.op.slot = none → (t.core lc).sum = (s.core lc).sum)
        ∧ ∀ n, e.op.slot = some n →
          (∀ k : BitVec 3, k ≠ n → (t.core lc).sum[k.toNat] = (s.core lc).sum[k.toNat])
          ∧ (t.core lc).sum[n.toNat].status.toNat = r.status.toNat + 256 * unitNum u
          ∧ (t.core lc).sum[n.toNat].seq.toNat = ((s.core lc).sum[n.toNat].seq.toNat + 1) % 2 ^ 32
          ∧ (t.core lc).sum[n.toNat].nnz = r.sum.nnz ∧ (t.core lc).sum[n.toNat].flags = r.sum.flags
          ∧ (t.core lc).sum[n.toNat].max = r.sum.max ∧ (t.core lc).sum[n.toNat].min = r.sum.min
          ∧ (t.core lc).sum[n.toNat].sum = r.sum.sum ∧ (t.core lc).sum[n.toNat].argmax = r.sum.argmax

/-- The state of a core at launch entry, once the rows of its preload may cross; a core that is not free is not entered (R85,
R112, R120, R498). Bits [1:0] of ENTRY are cut, which is the model's reading of R30 (log entry 93). -/
def Obligations.LaunchEntryState : Prop :=
  (∀ (s : State) (lc i : Nat) (d : List Byte) (ns : List Nat), s.launchOf lc = some (i, d, ns) →
    s.halfOff (halfOf (s.siteOf lc)) = false → s.failed lc = false → ChannelFree s (s.siteOf lc) .up →
    ((s.core lc).st = .idle ∨ (s.core lc).st = .done ∨ (s.core lc).st = .faulted) →
    ∃ t, exec (.coreLaunchEntry ⟨lc, []⟩) s = .next t
      ∧ (t.core lc).st = .running ∧ (t.core lc).pc.toNat = (launchWord d 0).toNat % 2 ^ 44 / 4 * 4
      ∧ (∀ r : BitVec 5, (t.core lc).rx r =
          [0, BitVec.ofNat 64 lc, BitVec.ofNat 64 ((ns.idxOf? lc).getD 0), BitVec.ofNat 64 ns.length, launchWord d 1,
            BitVec.ofNat 64 (s.rf .klkIdent 0 12), BitVec.ofNat 64 (s.rf .mcMap 32 32), BitVec.ofNat 64 i,
            BitVec.ofNat 64 s.inForce].getD r.toNat 0)
      ∧ (∀ n, (t.core lc).rd n = 0) ∧ (∀ n, (t.core lc).tick n = 0)
      ∧ (∀ n : BitVec 3, (t.core lc).sum[n.toNat] = Summary.zero) ∧ (t.core lc).seed = 0
      ∧ (∀ u, (t.core lc).q u = []) ∧ (t.core lc).excCause = 0 ∧ (t.core lc).excPc = 0 ∧ (t.core lc).excAddr = 0
      ∧ (t.core lc).excInsn = 0 ∧ (t.core lc).faultMask = (s.core lc).faultMask)
  ∧ ∀ (s : State) (lc : Nat) (errs : List MemErr),
      ((s.core lc).st = .running ∨ (s.core lc).st = .sleeping ∨ (s.core lc).st = .draining) →
      exec (.coreLaunchEntry ⟨lc, errs⟩) s = .next s

/-- Lanes declared failed, repaired, replayed rows, dead groups and widths (R102, R103, R106, R107, R123, R124, R125, R126,
R129, R130). -/
def Obligations.VerticalChannelFailures : Prop :=
  (∀ (s : State) (site g lane : Nat) (d : VcDir), g < 8 → lane < 288 → s.vcRetired site d = false →
      EightErrors s site d g lane → s.groupDead site d g = false →
      (s.vc site d).failed.contains (laneKey g lane) = false → s.sparesUsed site d g + (s.vc site d).waiting g < 2 →
      ∃ t, exec (.vcLaneFailed site d g lane) s = .next t ∧ t.mem = s.mem
        ∧ (t.vc site d).failed.contains (laneKey g lane) = true ∧ t.hasSnag 3 (locLane site d g lane) = true
        ∧ t.groupDead site d g = false)
  ∧ (∀ (s : State) (site g lane : Nat) (d : VcDir), g < 8 → lane < 288 → s.vcRetired site d = false →
      EightErrors s site d g lane → s.groupDead site d g = false →
      (s.vc site d).failed = [] → s.sparesUsed site d g = 2 → 2 ≤ s.healthy site d →
      ∃ t, exec (.vcLaneFailed site d g lane) s = .next t ∧ t.mem = s.mem ∧ t.groupDead site d g = true
        ∧ t.rf (.vcGroup site d g) 24 9 = lane ∧ t.rf (.vcGroup site d g) 33 1 = 1
        ∧ (t.vc site d).widthDue = true)
  ∧ (∀ (s : State) (site g lane : Nat) (d : VcDir), g < 8 → lane < 288 → s.vcRetired site d = false →
      (s.vc site d).failed.contains (laneKey g lane) = true → s.sparesUsed site d g < 2 →
      ∃ t, exec (.vcLaneRepair site d g lane) s = .next t ∧ t.mem = s.mem ∧ t.cores = s.cores
        ∧ t.rf (.vcGroup site d g) (12 * s.sparesUsed site d g) 9 = lane
        ∧ t.rf (.vcGroup site d g) (12 * s.sparesUsed site d g + 9) 1 = 1
        ∧ t.rf (.vcGroup site d g) (12 * s.sparesUsed site d g + 10) 1 = 1
        ∧ (t.vc site d).errs = (s.vc site d).errs
        ∧ (t.vc site d).failed = setDel (s.vc site d).failed (laneKey g lane)
        ∧ (s.sparesUsed site d g = 0 → ∀ l, l < 288 → t.physLane site d g l = if lane ≤ l then l + 1 else l))
  ∧ (∀ (s : State) (site g row us : Nat) (d : VcDir) (words : List Nat), FailsOn s site d g words row →
      (s.vc site d).attempt = 0 →
      ∃ t, exec (.vcRowReplay site d g 1 ⟨words, us⟩) s = .next t ∧ t.mem = s.mem ∧ t.cores = s.cores
        ∧ t.rf (.vcCounts site d) 32 8 = min (s.rf (.vcCounts site d) 32 8 + 1) 255
        ∧ (∀ a, a ≠ (Reg.vcCounts site d).addr → mapGet? t.regs a = mapGet? s.regs a))
  ∧ (∀ (s : State) (site g row us lane : Nat) (d : VcDir) (words : List Nat), g < 8 → FailsOn s site d g words row →
      (s.vc site d).attempt = 1 → (s.vc site d).replay.getLast? = some row → s.vcRetired site d = false →
      (s.vc site d).failed = [] → s.sparesUsed site d g = 0 →
      (∀ l, l < 288 → ((∃ w ∈ words, s.carrier site d (w / 4) = g ∧ w % 4 = l % 4)
        ∧ (∃ m ∈ mapGet (s.vc site d).errs (laneKey g l) [], m ≤ us ∧ us ≤ m + 1000) ↔ l = lane)) → lane < 288 →
      ∃ t, exec (.vcRowReplay site d g 2 ⟨words, us⟩) s = .next t ∧ t.mem = s.mem ∧ t.cores = s.cores
        ∧ t.rf (.vcCounts site d) 32 8 = min (s.rf (.vcCounts site d) 32 8 + 1) 255
        ∧ t.rf (.vcGroup site d g) 0 9 = lane ∧ t.rf (.vcGroup site d g) 9 1 = 1 ∧ t.groupDead site d g = false)
  ∧ (∀ (s : State) (site g row us : Nat) (d : VcDir) (words : List Nat), g < 8 → FailsOn s site d g words row →
      (s.vc site d).attempt = 2 → (s.vc site d).replay.getLast? = some row → 2 ≤ s.healthy site d →
      ∃ t, exec (.vcRowReplay site d g 3 ⟨words, us⟩) s = .next t ∧ t.mem = s.mem ∧ t.groupDead site d g = true
        ∧ t.hasSnag 4 (locLane site d g 0) = true)
  ∧ ∀ (s : State) (site : Nat) (d : VcDir), (s.vc site d).widthDue = true → s.vcRetired site d = false →
      ∃ t, exec (.vcWidthChange site d) s = .next t ∧ t.mem = s.mem ∧ t.cores = s.cores
        ∧ (t.vc site d).widthDue = false
        ∧ (s.healthy site d = 8 → t.rf (.vcStatus site d) 16 2 = 0)
        ∧ (4 ≤ s.healthy site d ∧ s.healthy site d ≤ 7 → t.rf (.vcStatus site d) 16 2 = 1)
        ∧ (2 ≤ s.healthy site d ∧ s.healthy site d ≤ 3 → t.rf (.vcStatus site d) 16 2 = 2)
        ∧ (s.healthy site d = 1 → t.rf (.vcStatus site d) 16 2 = 3)

/-- Probes move a setting by one step; retune windows fall due, open, end and are forced, and no row crosses in one (R117,
R118, R119, R120, R121, R122, R129, R130, R131). -/
def Obligations.RetuneWindowsAndProbes : Prop :=
  (∀ (s : State) (site g eye centre : Nat) (d : VcDir), g < 8 → s.groupDead site d g = false →
      s.vcRetired site d = false → s.probeless site d g = false → 3 ≤ eye → eye ≤ 128 → centre < 128 →
      ∃ t, exec (.probeMeasurement site d g eye centre) s = .next t ∧ t.mem = s.mem ∧ t.cores = s.cores
        ∧ t.setting site d g = (if s.setting site d g < centre then s.setting site d g + 1
            else if centre < s.setting site d g then s.setting site d g - 1 else s.setting site d g)
        ∧ t.rf (.vcGroup site d g) 48 8 = eye
        ∧ t.rf (.vcStatus site d) (24 + g) 1 = if eye < 6 then 1 else 0)
  ∧ (∀ (s : State) (site : Nat) (c : RetuneCause), (c = .corrected → (s.site site).corr = true) →
      (∀ ms, c = .interval ms → s.rf .vcPolicy 0 16 ≤ ms) → (∀ k, c = .temp k → s.rf .vcPolicy 16 8 ≤ k) →
      s.needsWindow site = true → (s.site site).win = .none →
      ∃ t, exec (.retuneWindowDue site c) s = .next t ∧ t = { s with sites := t.sites }
        ∧ (t.site site).win = .due c ∧ ∀ k, k ≠ site → t.site k = s.site k)
  ∧ (∀ (s : State) (site lc : Nat) (c : RetuneCause), (s.site site).win = .due c → s.lcAt site = some lc →
      (s.core lc).st = .sleeping → (∀ p ∈ s.cores, ∀ e ∈ p.2.movQ, e.started = false) →
      ∃ t, exec (.retuneWindowOpen site) s = .next t ∧ t = { s with sites := t.sites, regs := t.regs }
        ∧ (t.site site).win = .open
        ∧ (∀ d, t.rf (.vcCounts site d) 40 16 = min (s.rf (.vcCounts site d) 40 16 + 1) 65535)
        ∧ (∀ d, t.rf (.vcCounts site d) 56 8 = s.rf (.vcCounts site d) 56 8))
  ∧ (∀ (s : State) (site ms : Nat) (c : RetuneCause), (s.site site).win = .due c → s.rf .vcPolicy 32 8 ≤ ms →
      ∃ t, exec (.retuneWindowForced site ms) s = .next t ∧ t = { s with sites := t.sites, regs := t.regs }
        ∧ (t.site site).win = .forced
        ∧ (∀ d, t.rf (.vcCounts site d) 40 16 = min (s.rf (.vcCounts site d) 40 16 + 1) 65535)
        ∧ (∀ d, t.rf (.vcCounts site d) 56 8 = min (s.rf (.vcCounts site d) 56 8 + 1) 255))
  ∧ (∀ (s : State) (site : Nat) (d : VcDir) (struck errs : List MemErr),
      ((s.site site).win = .open ∨ (s.site site).win = .forced) → exec (.vcRowCommit site d struck errs) s = .next s)
  ∧ ∀ (s : State) (site : Nat), ((s.site site).win = .open ∨ (s.site site).win = .forced) →
      exec (.retuneWindowEnd site []) s = .next (s.setSite site { s.site site with win := .none })

/-- A full Lath reset: hawks and hod read zero, render cells stay, cores and registers return to reset (R133, R139,
R161, R398). What the registers without a reset value and the unwritten bytes hold is the model's choice (log entries
2 and 80). -/
def Obligations.FullLathResetState : Prop :=
  ∀ s : State, s.Sound → ∃ t, exec .fullLathReset s = .next t ∧ t.Sound
    ∧ (∀ k, 2 ^ 45 ≤ k → memGet t.mem k = 0 ∧ t.poisoned k = false)
    ∧ (∀ k, k < 2 ^ 45 → memGet t.mem k = memGet s.mem k ∧ t.poisoned k = s.poisoned k)
    ∧ (∀ n, t.core n = Core.zero)
    ∧ (∀ r : Reg, r.addr ≠ Reg.errLog.addr → t.reg r = r.resetWord)
    ∧ t.pending = s.pending ∧ t.otp = s.otp ∧ t.pins = { s.pins with alert := false } ∧ t.flash.snag = s.flash.snag
    ∧ t.slots = [] ∧ t.colls = [] ∧ t.deferred = [] ∧ t.seqs = [] ∧ t.rc = []

/-- Kerit port and render controller resets and their ends (R133, R137, R138, R457, R469); a Roller command that waits at
the channel's stack may run once those before it have ended (R386), and a write-back that waits may go on, so the frame is of
a state without them. -/
def Obligations.PortAndControllerResets : Prop :=
  (∀ (s : State) (p : Nat), p < 16 → (∀ x ∈ s.tx, x.2.port ≠ p) →
      ∃ t, exec (.keritPortReset p) s = .next t ∧ t.portState p = 4 ∧ t.mem = s.mem
        ∧ ∀ n, (t.core n).x = (s.core n).x ∧ (t.core n).tk = (s.core n).tk ∧ (t.core n).pc = (s.core n).pc)
  ∧ (∀ (s : State) (p : Nat), p < 16 → s.portState p = 4 →
      ∃ t, exec (.keritPortResetEnd p) s = .next t ∧ t = { s with regs := t.regs }
        ∧ t.portState p = (if s.rf .klkCfg (32 + p) 1 = 1 then 1 else 0)
        ∧ ∀ a, a ≠ (Reg.klkStatus p).addr → mapGet? t.regs a = mapGet? s.regs a)
  ∧ (∀ (s : State) (c : Nat), c < 128 → s.rf .rubCtrl 40 8 ≠ 1 →
      ∃ t, exec (.renderControllerReset c) s = .next t ∧ t.rf (.rndCh c) 0 1 = 1
        ∧ (s.queueAt (c / 16) = [] → s.rcWait = [] → t.mem = s.mem
            ∧ ∀ n, (t.core n).x = (s.core n).x ∧ (t.core n).tk = (s.core n).tk ∧ (t.core n).pc = (s.core n).pc))
  ∧ ∀ (s : State) (c : Nat), c < 128 → s.rf (.rndCh c) 0 1 = 1 → s.rcWait = [] →
      exec (.renderControllerResetEnd c) s = .next (s.setRf (.rndCh c) 0 1 0)

/-- MOV.ROW: its checks, its rows one by one, its end (R105, R123, R130, R163, R164, R165, R172, R173). -/
def Obligations.RowMoves : Prop :=
  (∀ (s : State) (lc : Nat) (dn : Bool) (f : UnitF) (e : UEntry), AtFront s lc .mover e → e.op = .movRow dn f →
      s.siteRetired (s.siteOf lc) = false →
      let d := e.ds.headD 0
      let hawk := fld (dword d 0) 0 13
      let slice := fld (dword d 0) 16 16
      let count := fld (dword d 1) 0 14
      let row (i : Nat) : Int := slice + i * sfld (dword d 1) 16 16
      let pos (i : Nat) : Int := hawk + i * sfld (dword d 1) 32 16
      let clean := (∀ k, 2 ≤ k → k < 8 → dword d k = 0) ∧ fld (dword d 0) 13 3 = 0 ∧ fld (dword d 0) 32 32 = 0
        ∧ fld (dword d 1) 14 2 = 0 ∧ fld (dword d 1) 48 16 = 0
      let valid := clean ∧ 1 ≤ count ∧ count ≤ 8192
        ∧ ∀ i, i < count → 0 ≤ row i ∧ row i ≤ 49151 ∧ 0 ≤ pos i ∧ pos i ≤ 8191
      let mapped := s.slices.contains (s.siteOf lc) = true ∧ ∀ i, i < count → row i < s.rowsUsed
      ∃ t, exec (if dn then .movRowDn lc (.perform []) else .movRowUp lc (.perform [])) s = .next t
        ∧ (valid ∧ mapped → t = s.setEntry lc .mover 0 { e with begun := true })
        ∧ (¬ valid → EndsWith s t lc .mover 0x44 {} ∧ WorkFrame lc .mover s t ∧ t.mem = s.mem ∧ t.poison = s.poison)
        ∧ (valid ∧ ¬ mapped →
            EndsWith s t lc .mover 0x40 {} ∧ WorkFrame lc .mover s t ∧ t.mem = s.mem ∧ t.poison = s.poison))
  ∧ (∀ (s : State) (lc site : Nat) (dn : Bool) (f : UnitF) (e : UEntry) (rest : List UEntry), s.Sound →
      s.lcAt site = some lc → (s.core lc).movQ = e :: rest → e.started = true → e.begun = true → e.fin = none →
      e.poi = false → e.op = .movRow dn f → ChannelFree s site (if dn then .down else .up) →
      let d := e.ds.headD 0
      let count := fld (dword d 1) 0 14
      let row := ((fld (dword d 0) 16 16 : Int) + e.prog * sfld (dword d 1) 16 16).toNat
      let pos := ((fld (dword d 0) 0 13 : Int) + e.prog * sfld (dword d 1) 32 16).toNat
      row < 49152 → pos < 8192 →
      let src := if dn then hawkKey site (pos * 256) else hodKey site row 0
      let dst := if dn then hodKey site row 0 else hawkKey site (pos * 256)
      s.runPoisoned src 256 = false →
      ∃ t, exec (.vcRowCommit site (if dn then .down else .up) [] []) s = .next t
        ∧ (∀ k, memGet t.mem k = if dst ≤ k ∧ k < dst + 256 then memGet s.mem (src + (k - dst)) else memGet s.mem k)
        ∧ (∀ k, k ≠ lc → t.core k = { s.core k with waitf := (t.core k).waitf })
        ∧ t.core lc = { (s.core lc).setQ .mover ((t.core lc).movQ) with waitf := (t.core lc).waitf }
        ∧ (∀ a, ¬ CountAddr lc a → ¬ LathCountAddr a → a ≠ (Reg.vcCounts site (if dn then .down else .up)).addr →
            mapGet? t.regs a = mapGet? s.regs a)
        ∧ (e.prog + 1 < count → (t.core lc).movQ = { e with prog := e.prog + 1 } :: rest)
        ∧ (count ≤ e.prog + 1 → EndsWith s t lc .mover 0 { nnz := BitVec.ofNat 64 (256 * count) }))
  ∧ ∀ (s : State) (lc site : Nat) (dn : Bool) (f : UnitF) (e : UEntry) (rest : List UEntry)
      (struck errs : List MemErr), s.lcAt site = some lc → (s.core lc).movQ = e :: rest → e.started = true → e.begun = true → e.fin = none →
      e.op = .movRow dn f → ChannelFree s site (if dn then .down else .up) →
      let dir : VcDir := if dn then .down else .up
      let fs := flipsOf site struck
      (tooMany fs = true → exec (.vcRowCommit site dir struck errs) s = .next s)
      ∧ (tooMany fs = false → ∃ t, exec (.vcRowCommit site dir struck errs) s = .next t
        ∧ t.rf (.vcCounts site dir) 0 32 = min (s.rf (.vcCounts site dir) 0 32 + fs.length) (2 ^ 32 - 1))

/-- MOV.BLK and MOV.PUTF between hawks copy the bytes of every run, and MOV.PUTF then adds 1 to its flag, or leaves it where a
covered write ended with PORT_RESET (R166, R167, R172, R173, R433, R441). -/
def Obligations.BlockCopies : Prop :=
  ∀ (s : State) (lc : Nat) (putf : Bool) (f : UnitF) (e : UEntry), s.Sound → AtFront s lc .mover e →
    e.op = (if putf then .movPutf f else .movBlk f) → e.poi = false → e.worst = none → e.barred = [] → e.await = [] →
    let d := e.ds.headD 0
    let len := fld (dword d 2) 0 22 * 8
    let c1 := fld (dword d 2) 32 16
    let c2 := fld (dword d 2) 48 16
    let at' (base s1 s2 : Word) (i1 i2 j : Nat) : Nat :=
      ((fld base 0 56 : Int) + i1 * s1.toInt + i2 * s2.toInt).toNat + j
    let src := at' (dword d 0) (dword d 3) (dword d 5)
    let dst := at' (dword d 1) (dword d 4) (dword d 6)
    let flag := fld (dword d 7) 0 56
    s.blkCheck lc d putf = none → bitAt (dword d 0) 63 = false → bitAt (dword d 1) 63 = false →
    bitAt (dword d 7) 63 = false →
    (∀ i1 i2 j, i1 < c1 → i2 < c2 → j < len →
      (∃ k, s.hawkCell lc (src i1 i2 j) = some k ∧ s.runPoisoned (k / 64 * 64) 64 = false)
        ∧ (s.hawkCell lc (dst i1 i2 j)).isSome = true) →
    s.copyReaches lc d = true →
    (putf = true → (∃ n kf, s.resolve (some lc) flag = .hawk n kf ∧ s.reaches lc (.hawk n kf) = true)
      ∧ (s.core lc).stores = [] ∧ s.orphaned lc = false) →
    let lost : Prop := setHas (s.core lc).lost (unitNum .mover) = true ∨ e.lost = true
    let pairs : List (Nat × Nat) := (List.range c2).flatMap fun i2 => (List.range c1).flatMap fun i1 =>
      (List.range len).map fun j => ((s.hawkCell lc (dst i1 i2 j)).getD 0, (s.hawkCell lc (src i1 i2 j)).getD 0)
    ∃ t, exec (if putf then .movPutf lc (.perform []) else .movBlk lc (.perform [])) s = .next t
      ∧ (¬ (putf = true ∧ lost) → EndsWith s t lc .mover 0 { nnz := BitVec.ofNat 64 (len * c1 * c2) })
      ∧ (putf = true ∧ lost → EndsWith s t lc .mover 0x42 { nnz := BitVec.ofNat 64 (len * c1 * c2) })
      ∧ CopyFrame lc s t
      ∧ (putf = false ∨ lost → ∀ k, memGet t.mem k = copied s.mem pairs k)
      ∧ (putf = true → ¬ lost → ∀ kf, s.hawkCell lc flag = some kf →
          let bs := leBytes 8 ((leNat ((List.range 8).map fun j => copied s.mem pairs (kf + j)) + 1) % 2 ^ 64)
          ∀ k, memGet t.mem k = if kf ≤ k ∧ k < kf + 8 then bs.getD (k - kf) 0 else copied s.mem pairs k)

/-- MOV.RCFL: its checks, RC_NONE, and the write-back of the lines of a range (R170, R171, R172, R173). -/
def Obligations.RenderCacheFlush : Prop :=
  (∀ (s : State) (lc : Nat) (inv : Bool) (f : UnitF) (e : UEntry), AtFront s lc .mover e → e.op = .movRcfl inv f →
      let d := e.ds.headD 0
      let base := fld (dword d 0) 0 44
      let len := fld (dword d 1) 0 40
      let clean := fld (dword d 0) 44 20 = 0 ∧ fld (dword d 1) 40 24 = 0 ∧ ∀ k, 2 ≤ k → k < 8 → dword d k = 0
      let c := if inv then Instr.movRcflWbinv lc (.perform []) else .movRcflWb lc (.perform [])
      let ends (st : BitVec 8) := ∃ t, exec c s = .next t ∧ EndsWith s t lc .mover st {} ∧ WorkFrame lc .mover s t
        ∧ t.mem = s.mem ∧ t.rc = s.rc
      (¬ clean ∨ len = 0 → ends 0x44)
        ∧ (clean → len ≠ 0 → (base % 256 ≠ 0 ∨ len % 256 ≠ 0) → ends 0x45)
        ∧ (clean → len ≠ 0 → base % 256 = 0 → len % 256 = 0 → 2 ^ 39 < base + len → ends 0x40)
        ∧ (clean → len ≠ 0 → base % 256 = 0 → len % 256 = 0 → base + len ≤ 2 ^ 39 → s.rcMib = 0 → ends 0x10))
  ∧ ∀ (s : State) (lc : Nat) (inv : Bool) (f : UnitF) (e : UEntry), s.Sound → AtFront s lc .mover e →
      e.op = .movRcfl inv f → s.rcflCheck (e.ds.headD 0) = none → s.rcWait = [] →
      (∀ c, c < 128 → s.rf (.rndCh c) 0 1 = 0) → (∀ x, (s.roller x).pass = false) →
      let lines := s.rc.flatMap Prod.snd
      (lines.map RcLine.tag).Nodup → (∀ l ∈ lines, l.data.length = 256 ∧ l.poison = 0) →
      let lo := fld (dword (e.ds.headD 0) 0) 0 44 / 256
      let hi := lo + fld (dword (e.ds.headD 0) 1) 0 40 / 256
      let inside (l : RcLine) : Prop := lo ≤ l.tag ∧ l.tag < hi
      ∃ t, exec (if inv then .movRcflWbinv lc (.perform []) else .movRcflWb lc (.perform [])) s = .next t
        ∧ t.cores = (s.setEntry lc .mover 0 { e with
            begun := true, fin := some ⟨0, { nnz := BitVec.ofNat 64 ((lines.filter fun l =>
              decide (lo ≤ l.tag) && decide (l.tag < hi) && l.dirty).length) }⟩ }).cores
        ∧ (∀ l ∈ lines, inside l → l.dirty = true →
            ∀ j, j < 256 → memGet t.mem (ilvToPlumb (l.tag * 256) + j) = l.data.getD j 0)
        ∧ (∀ k, (∀ l ∈ lines, inside l → l.dirty = true →
            ¬ (ilvToPlumb (l.tag * 256) ≤ k ∧ k < ilvToPlumb (l.tag * 256) + 256)) → memGet t.mem k = memGet s.mem k)
        ∧ (∀ l, l ∈ t.rc.flatMap Prod.snd ↔
            if inv then l ∈ lines ∧ ¬ inside l
            else ∃ l0 ∈ lines, (inside l0 → l = { l0 with dirty := false }) ∧ (¬ inside l0 → l = l0))

/-- TRW.MMA accumulates, group by group, the exact dot products that its feed walks name (R190, R192, R201, R212,
R213, R214, R219, R229). -/
def Obligations.MatrixMultiply : Prop :=
  ∀ (s : State) (lc : Nat) (f : MmaF) (e : UEntry) (m : Mma), AtFront s lc .trowel e → e.op = .trwMma f →
    let old := (s.core lc).bank f.bankB
    mmaCheck old f.init (e.ds.getD 0 0) (e.ds.getD 1 0) (e.ds.getD 2 0) = .ok m → m.rows ≠ 0 → m.cols ≠ 0 →
    ∃ t st, exec (.trwMma lc (.perform [])) s = .next t ∧ CoreFrame lc s t ∧ EndsWith s t lc .trowel st {}
      ∧ OnlyBank (s.core lc) (t.core lc) f.bankB
      ∧ (st = 0 ∨ st = 0x43)
      ∧ (st = 0x43 ↔ ∃ lane k, lane < 64 ∧ k < m.klen ∧ ((m.rows.testBit lane = true ∧ (s.fed lc m.a lane k).2 = true)
          ∨ (m.cols.testBit lane = true ∧ (s.fed lc m.b lane k).2 = true)))
      ∧ let new := (t.core lc).bank f.bankB
        new.int = (if f.init then m.int else old.int) ∧ new.thin = (if f.init then m.thin else old.thin)
          ∧ ∀ i j, i < 64 → j < 64 →
            let col := if m.thin then j % 16 else j
            let gs := if m.thin then (List.range (m.groups / 4)).map fun n => mmaTerms s lc m i col (4 * n + j / 16)
              else (List.range m.groups).map fun g => mmaTerms s lc m i col g
            ((m.rows.testBit i = true ∧ m.cols.testBit col = true) →
              new.cell i j = accumulate m.int gs (if f.init then 0 else old.cell i j))
            ∧ (¬ (m.rows.testBit i = true ∧ m.cols.testBit col = true) →
              new.cell i j = if m.mz then 0 else old.cell i j)

/-- TRW.CLR, the checks of TRW.MMA, and an accumulator parity error (R204, R208, R220, R228, R229, R232). -/
def Obligations.TrowelChecksAndClear : Prop :=
  (∀ (s : State) (lc : Nat) (f : ClrF) (e : UEntry), AtFront s lc .trowel e → e.op = .trwClr f →
      ∃ t, exec (.trwClr lc (.perform [])) s = .next t ∧ CoreFrame lc s t ∧ EndsWith s t lc .trowel 0 {}
        ∧ OnlyBank (s.core lc) (t.core lc) f.bankB
        ∧ let b := (t.core lc).bank f.bankB
          (∀ i j, b.cell i j = 0 ∧ b.marked i j = false) ∧ b.int = f.ty ∧ b.thin = f.th ∧ b.poison = false)
  ∧ (∀ (s : State) (lc : Nat) (f : MmaF) (e : UEntry), AtFront s lc .trowel e → e.op = .trwMma f →
      let dt := e.ds.getD 2 0
      let klen := fld (dword dt 2) 0 21
      let bad (c : Nat) : Prop := fmtOf c = none ∨ fmtOf c = some .fp32 ∨ fmtOf c = some .int32
      (klen = 0 ∨ 1048576 < klen ∨ bad (fld (dword dt 2) 24 4) ∨ bad (fld (dword dt 2) 28 4)
        ∨ fld (dword dt 2) 21 3 ≠ 0 ∨ fld (dword dt 2) 36 28 ≠ 0 ∨ (∃ k, 3 ≤ k ∧ k < 8 ∧ dword dt k ≠ 0)
        ∨ (bitAt (dword dt 2) 35 = true ∧ 2 ^ 16 ≤ (dword dt 1).toNat)) →
      ∃ t, exec (.trwMma lc (.perform [])) s = .next t ∧ CoreFrame lc s t ∧ EndsWith s t lc .trowel 0x44 {}
        ∧ (t.core lc).bankA = (s.core lc).bankA ∧ (t.core lc).bankB = (s.core lc).bankB)
  ∧ (∀ (s : State) (lc : Nat) (f : MmaF) (e : UEntry) (m : Mma) (b : Bank), AtFront s lc .trowel e →
      e.op = .trwMma f → f.init = false →
      mmaCheck b false (e.ds.getD 0 0) (e.ds.getD 1 0) (e.ds.getD 2 0) = .ok m →
      let old := (s.core lc).bank f.bankB
      (old.int ≠ m.int ∨ old.thin ≠ m.thin) →
      ∃ t, exec (.trwMma lc (.perform [])) s = .next t ∧ CoreFrame lc s t ∧ EndsWith s t lc .trowel 0x50 {}
        ∧ (t.core lc).bankA = (s.core lc).bankA ∧ (t.core lc).bankB = (s.core lc).bankB)
  ∧ ∀ (s : State) (lc row col : Nat) (bankB : Bool), s.valid lc = true →
      row ∈ usedLines (s.reg (.trwRepair lc)) 0 → col ∈ usedLines (s.reg (.trwRepair lc)) 16 →
      ∃ t, exec (.trwAccumulatorParityError lc bankB row col) s = .next t ∧ t.mem = s.mem
        ∧ t.cores = (s.setCore lc ((s.core lc).setBank bankB { (s.core lc).bank bankB with poison := true })).cores
        ∧ t.rf (.trwStatus lc) 48 16 = min (s.rf (.trwStatus lc) 48 16 + 1) 65535
        ∧ t.hasSnag 2 (BitVec.ofNat 64 (s.siteOf lc * 256 + row * 2 ^ 16 + col * 2 ^ 24)) = true

/-- TRW.DRAIN writes converted rows to the hawk, TRW.LDACC loads a bank exactly (R215, R224, R227, R230). -/
def Obligations.DrainsAndLoads : Prop :=
  (∀ (s : State) (lc : Nat) (f : DrainF) (e : UEntry) (d : DrainD), s.Sound → AtFront s lc .trowel e →
      e.op = .trwDrain f →
      let old := (s.core lc).bank f.bankB
      let site := s.siteOf lc
      drainCheck (e.ds.headD 0) old.thin false = .ok d → old.poison = false → (1 < d.rows → d.rowBytes ≤ d.dstride) →
      let value (r c : Nat) : Machine.Num := old.num (old.value r c).1
      let rm (r c : Nat) : Round := if d.rmode = 1 then .sr (srDraw e.seed lc e.ord (r * 64 + c)) else .rne
      let line (r : Nat) : List Machine.Num := (List.range d.cols).map fun c => value r c
      let codes (r : Nat) : List Nat :=
        if d.oscale then (quantise d.fmt (rm r) (d.cols + 1) 0 (line r)).2.1
        else (List.range d.cols).map fun c => (d.fmt.conv (rm r c) d.nosat (value r c)).1
      let scales (r : Nat) : List Nat :=
        if d.oscale then (quantise d.fmt (rm r) (d.cols + 1) 0 (line r)).1 else []
      let inRow (k r : Nat) : Prop :=
        hawkKey site (d.dst + r * d.dstride) ≤ k ∧ k < hawkKey site (d.dst + r * d.dstride) + d.rowBytes
      let inScale (k r : Nat) : Prop :=
        d.oscale = true ∧ hawkKey site (d.sdst + r * d.sstride) ≤ k
          ∧ k < hawkKey site (d.sdst + r * d.sstride) + (d.cols + 31) / 32
      ∃ t v, exec (.trwDrain lc (.perform [])) s = .next t ∧ EndsWith s t lc .trowel 0 v
        ∧ StoreFrame lc s t
        ∧ (t.core lc).x = (s.core lc).x ∧ (t.core lc).d = (s.core lc).d ∧ (t.core lc).tk = (s.core lc).tk
        ∧ (∀ k r, r < d.rows → inRow k r → (∀ q, q < d.rows → ¬ inScale k q) →
            memGet t.mem k = (packElems d.fmt (codes r)).getD (k - hawkKey site (d.dst + r * d.dstride)) 0)
        ∧ (∀ k r, r < d.rows → inScale k r → (∀ q, q < d.rows → ¬ inRow k q ∧ (q ≠ r → ¬ inScale k q)) →
            memGet t.mem k
              = BitVec.ofNat 8 ((scales r).getD (k - hawkKey site (d.sdst + r * d.sstride)) 0))
        ∧ (∀ k, (∀ r, r < d.rows → ¬ inRow k r ∧ ¬ inScale k r) → memGet t.mem k = memGet s.mem k)
        ∧ (f.clr = false → (t.core lc).bankA = (s.core lc).bankA ∧ (t.core lc).bankB = (s.core lc).bankB)
        ∧ (f.clr = true → let b := (t.core lc).bank f.bankB
            (t.core lc).bank (!f.bankB) = (s.core lc).bank (!f.bankB) ∧ b.poison = false
              ∧ b.int = old.int ∧ b.thin = old.thin
              ∧ ∀ i j, i < 64 → j < 64 → b.cell i j = (if i < d.rows then 0 else old.cell i j)
                ∧ b.marked i j = (if i < d.rows then false else old.marked i j))
        ∧ v.sum = 0
        ∧ (d.oscale = false → v.nnz.toNat = (((List.range d.rows).flatMap codes).filter fun c =>
            !(d.fmt.num c).isZero).length))
  ∧ ∀ (s : State) (lc : Nat) (f : LdaccF) (e : UEntry) (d : DrainD), AtFront s lc .trowel e → e.op = .trwLdacc f →
      drainCheck (e.ds.headD 0) ((s.core lc).bank f.bankB).thin true = .ok d →
      let row (r : Nat) : List Byte × Bool := s.hawkGran lc (d.dst + r * d.dstride) d.rowBytes
      ∃ t st, exec (.trwLdacc lc (.perform [])) s = .next t ∧ CoreFrame lc s t ∧ EndsWith s t lc .trowel st {}
        ∧ OnlyBank (s.core lc) (t.core lc) f.bankB
        ∧ (st = 0 ∨ st = 0x43) ∧ (st = 0x43 ↔ ∃ r, r < d.rows ∧ (row r).2 = true)
        ∧ let b := (t.core lc).bank f.bankB
          b.thin = false ∧ (b.poison = true ↔ st = 0x43) ∧ b.int = (d.fmt == .int8 || d.fmt == .int32)
            ∧ ∀ i j, i < 64 → j < 64 → b.marked i j = false
              ∧ b.cell i j = if i < d.rows ∧ j < d.cols then ldCell d.fmt (elemAt d.fmt (row i).1 j) else 0

/-- BRS.LDP fills a program slot, or leaves it, or empties it (R258, R278, R285). That a poisoned word wins over one
that breaks R259-R262 is the model's choice (log entry 103). -/
def Obligations.ProgramLoads : Prop :=
  ∀ (s : State) (lc : Nat) (f : LdpF) (e : UEntry), AtFront s lc .brush e → e.op = .brsLdp f →
    mapSorted (s.core lc).prog = true →
    let w := dword (e.ds.headD 0) 0
    let src := fld w 0 21
    let len := fld w 24 6
    let clean := fld w 21 3 = 0 ∧ fld w 30 34 = 0 ∧ ∀ k, 1 ≤ k → k < 8 → dword (e.ds.headD 0) k = 0
    let key := hawkKey (s.siteOf lc) src
    let word (j : Nat) : BitVec 32 := BitVec.ofNat 32 (leNat (memGets s.mem (key + 4 * j) 4))
    let slot := f.pslot.toNat
    ∃ t st, exec (.brsLdp lc (.perform [])) s = .next t ∧ CoreFrame lc s t ∧ EndsWith s t lc .brush st {}
      ∧ t.core lc = { (s.core lc).setQ .brush ((t.core lc).brsQ) with prog := (t.core lc).prog }
      ∧ (∀ n, n ≠ slot → mapGet? (t.core lc).prog n = mapGet? (s.core lc).prog n)
      ∧ (¬ (clean ∧ 1 ≤ len ∧ len ≤ 32) → st = 0x44 ∧ (t.core lc).prog = (s.core lc).prog)
      ∧ (clean → 1 ≤ len → len ≤ 32 →
        (src % 4 ≠ 0 → st = 0x45 ∧ (t.core lc).prog = (s.core lc).prog)
        ∧ (src % 4 = 0 → 0x200000 < src + 4 * len → st = 0x53 ∧ (t.core lc).prog = (s.core lc).prog)
        ∧ (src % 4 = 0 → src + 4 * len ≤ 0x200000 →
          (s.runPoisoned key (4 * len) = true → st = 0x43 ∧ mapGet? (t.core lc).prog slot = none)
          ∧ (s.runPoisoned key (4 * len) = false →
            ((∀ j, j < len → ewOk (word j) = true) →
              st = 0 ∧ mapGet? (t.core lc).prog slot = some ((List.range len).map word))
            ∧ ((∃ j, j < len ∧ ewOk (word j) = false) → st = 0x51 ∧ (t.core lc).prog = (s.core lc).prog))))

/-- BRS.RUN writes what its program leaves for every position, and its reductions (R255, R256, R260, R261, R268, R270,
R271, R272, R274, R275, R285). -/
def Obligations.ElementRuns : Prop :=
  ∀ (s : State) (lc : Nat) (f : RunF) (e : UEntry), s.Sound → AtFront s lc .brush e → e.op = .brsRun f →
    let b := brunOf (e.ds.getD 0 0) (e.ds.getD 1 0)
    let p := mapGet (s.core lc).prog b.pslot []
    let site := s.siteOf lc
    b.check p = none → (∀ o, o < 2 ^ 21 → s.poisoned (hawkKey site o) = false) →
    let bits (i r c : Nat) : Int × Int :=
      let x := (b.view i).span r c
      (8 * x.1 + x.2.2, 8 * x.1 + x.2.2 + (b.view i).fmt.bits)
    (∀ i r c r' c', 5 ≤ i → i < 8 → (b.view i).en = true → r < (b.dim i).1 → r' < (b.dim i).1 → c < (b.dim i).2 →
      c' < (b.dim i).2 → (r, c) ≠ (r', c') → (bits i r c).2 ≤ (bits i r' c').1 ∨ (bits i r' c').2 ≤ (bits i r c).1) →
    let val (r c : Nat) : List (BitVec 32) := (eRun b.pair
      ⟨(List.range 5).map fun i => if (progReads p).contains i then (s.viewIn lc b (b.view i) b.pair r c).1 else 0,
        b.rbase + BitVec.ofNat 32 r, b.cbase + BitVec.ofNat 32 c, b.k⟩ p).1
    let live (r c : Nat) : Bool := (val r c).getD 11 0 != 0
    let rm (n : Nat) : Round := if b.rmode = 1 then .sr (srDraw e.seed lc e.ord n) else .rne
    let out := b.view 5
    let quant (r : Nat) := quantise out.fmt (fun c => rm (r * b.cols + c)) (b.cols + 1) 0
      ((List.range b.cols).map fun c => if live r c then b.outNum ((val r c).getD 8 0) else .zero false)
    let scaleAt (r n : Nat) : Int := (b.osb : Int) + r * b.osrs + n
    ∃ t st v, exec (.brsRun lc (.perform [])) s = .next t ∧ EndsWith s t lc .brush st v ∧ StoreFrame lc s t
      ∧ t.core lc = { (s.core lc).setQ .brush ((t.core lc).brsQ) with waitf := (t.core lc).waitf }
      ∧ ((∃ r c, r < b.rows ∧ c < b.cols ∧ live r c = true) → st = 0)
      ∧ ((∀ r c, r < b.rows → c < b.cols → live r c = false) → st = 0x10)
      ∧ (out.en = true → b.oscale = false → ∀ r c, r < b.rows → c < b.cols →
          (t.viewCode lc out r c).1 =
            if live r c then
              (out.fmt.conv (rm (r * b.cols + c)) b.nosat (b.outNum ((val r c).getD 8 0))).1 % 2 ^ out.fmt.bits
            else if b.mz then 0 else (s.viewCode lc out r c).1)
      ∧ (out.en = true → b.oscale = true →
          (∀ r r' n n', r < b.rows → r' < b.rows → n < (b.cols + 31) / 32 → n' < (b.cols + 31) / 32 →
            (r, n) ≠ (r', n') → scaleAt r n ≠ scaleAt r' n') →
          (∀ r c r' n, r < b.rows → c < b.cols → r' < b.rows → n < (b.cols + 31) / 32 →
            8 * scaleAt r' n + 8 ≤ (bits 5 r c).1 ∨ (bits 5 r c).2 ≤ 8 * scaleAt r' n) →
          ∀ r c, r < b.rows → c < b.cols →
            (t.viewCode lc out r c).1 = (quant r).2.1.getD c 0 % 2 ^ out.fmt.bits
            ∧ memGet t.mem (hawkKey site (scaleAt r (c / 32)).toNat) = BitVec.ofNat 8 ((quant r).1.getD (c / 32) 0))
      ∧ (∀ j, j < 2 → (b.redn j).1 ≠ 0 → (b.redn j).2.2 = false →
          let view := b.view (6 + j)
          let give (r c : Nat) : Option (BitVec 32) :=
            if live r c then some (if b.pair then (val r c).getD (9 + j) 0 <<< 16 else (val r c).getD (9 + j) 0) else none
          let num (x : BitVec 32) : Machine.Num := if (b.redn j).1 ≤ 3 then fp32 x else Num.ofInt x.toInt
          let code (i : Nat) (l : List (Option (BitVec 32))) : Nat :=
            (view.fmt.conv (rm (2 ^ (40 + j) + i)) b.nosat
              (num (reduce (b.redn j).1 (!(b.redn j).2.1) l).1)).1 % 2 ^ view.fmt.bits
          ((b.redn j).2.1 = false → ∀ r, r < b.rows →
            (t.viewCode lc view r 0).1 = code r ((List.range b.cols).map fun c => give r c))
          ∧ ((b.redn j).2.1 = true → ∀ c, c < b.cols →
            (t.viewCode lc view 0 c).1 = code c ((List.range b.rows).map fun r => give r c)))
      ∧ ∀ k, (∀ i x, 5 ≤ i → i < 8 → (b.view i).en = true → x ∈ b.bytes i → k ≠ hawkKey site x.toNat) →
          memGet t.mem k = memGet s.mem k

/-- STC.FWD writes O, LSE and ROWINFO of every enabled row as the recurrence gives them (R299, R300, R301, R302, R304,
R307, R319, R320). -/
def Obligations.AttentionForward : Prop :=
  (∀ (s : State) (lc : Nat) (f : UnitF) (e : UEntry) (st : BitVec 8), AtFront s lc .stencil e → e.op = .stcFwd f →
      let y := fwdParts e
      y.1.paged = false → y.1.fwdCheck y.2.1 y.2.2.1 y.2.2.2.1 y.2.2.2.2 f.desc.toNat = some st →
      ∃ t, exec (.stcFwd lc (.perform [])) s = .next t ∧ EndsWith s t lc .stencil st {} ∧ StencilFrame lc s t
        ∧ t.mem = s.mem)
  ∧ ∀ (s : State) (lc : Nat) (f : UnitF) (e : UEntry), s.Sound → AtFront s lc .stencil e → e.op = .stcFwd f →
      let h := (fwdParts e).1
      let x := (fwdParts e).2.1
      let q := (fwdParts e).2.2.1
      let k := (fwdParts e).2.2.2.1
      let v := (fwdParts e).2.2.2.2
      h.paged = false → h.fwdCheck x q k v f.desc.toNat = none → s.hawkClean lc →
      (x.ranges h).Pairwise (fun a b => rangesMeet a b = false) →
      let cell (o : Nat) : Nat := hawkKey (s.siteOf lc) o
      let row (i : Nat) : ARow := fwdRow s lc h q k v i
      ∃ t st w, exec (.stcFwd lc (.perform [])) s = .next t ∧ EndsWith s t lc .stencil st w ∧ StencilFrame lc s t
        ∧ (st = 0 ∨ st = 0x10) ∧ (st = 0x10 ↔ ∃ i, i < h.rows ∧ (row i).cls = .nan)
        ∧ w.nnz.toNat = ((List.range h.rows).filter fun i => (row i).cls == .nan).length
        ∧ (∀ i, i < h.rows →
          let n := h.out.bits / 8
          memGets t.mem (cell (x.o + i * x.ostr)) (h.dim * n) = ((row i).finish h.out).1.flatMap (leBytes n)
          ∧ memGets t.mem (cell (x.lse + 4 * i)) 4 = leBytes 4 ((row i).finish h.out).2.1.toNat
          ∧ memGets t.mem (cell (x.ri + 4 * i)) 4 = leBytes 4 ((row i).finish h.out).2.2
          ∧ ((∀ j, j < h.nk → (s.masked lc h i j).1 = true) →
              (∀ b, b < h.dim * n → memGet t.mem (cell (x.o + i * x.ostr) + b) = 0)
              ∧ leNat (memGets t.mem (cell (x.lse + 4 * i)) 4) = 0xFF800000
              ∧ leNat (memGets t.mem (cell (x.ri + 4 * i)) 4) = 2))
        ∧ ∀ b : Nat, b < 2 ^ 21 → (∀ r ∈ x.ranges h, ¬ (r.1 ≤ b ∧ b < r.2)) → ¬ (x.ws ≤ b ∧ b < x.ws + h.wsSize) →
            memGet t.mem (cell b) = memGet s.mem (cell b)

/-- STC.BWD adds the products of P and dS into dV, dK and dQ (R313, R314, R315, R316, R317, R319, R321). -/
def Obligations.AttentionBackward : Prop :=
  (∀ (s : State) (lc : Nat) (f : UnitF) (e : UEntry) (st : BitVec 8), AtFront s lc .stencil e → e.op = .stcBwd f →
      let y := bwdParts e
      y.1.bwdCheck y.2.1 y.2.2.1 y.2.2.2.1 y.2.2.2.2.1 y.2.2.2.2.2 f.desc.toNat = some st →
      ∃ t, exec (.stcBwd lc (.perform [])) s = .next t ∧ EndsWith s t lc .stencil st {} ∧ StencilFrame lc s t
        ∧ t.mem = s.mem)
  ∧ ∀ (s : State) (lc : Nat) (f : UnitF) (e : UEntry), s.Sound → AtFront s lc .stencil e → e.op = .stcBwd f →
      let h := (bwdParts e).1
      let x := (bwdParts e).2.1
      let q := (bwdParts e).2.2.1
      let k := (bwdParts e).2.2.2.1
      let v := (bwdParts e).2.2.2.2.1
      let o := (bwdParts e).2.2.2.2.2
      h.bwdCheck x q k v o f.desc.toNat = none → s.hawkClean lc →
      (x.accs h).Pairwise (fun a b => rangesMeet a b = false) →
      (∀ r ∈ x.accs h, ∀ w ∈ q.ranges ++ o.ranges ++ h.maskRanges ++ ((List.range h.nblocks).flatMap fun b =>
          (h.blockFeeds k v b).1.ranges ++ (h.blockFeeds k v b).2.ranges), rangesMeet r w = false) →
      let word (u : State) (off : Nat) : BitVec 32 :=
        BitVec.ofNat 32 (leNat (memGets u.mem (hawkKey (s.siteOf lc) off) 4))
      let cls (i : Nat) : AClass := (s.bwdRow lc h x q o i).1.cls
      let rows := List.range h.rows
      ∃ t st w, exec (.stcBwd lc (.perform [])) s = .next t ∧ EndsWith s t lc .stencil st w ∧ StencilFrame lc s t
        ∧ (st = 0 ∨ st = 0x10) ∧ (st = 0x10 ↔ ∃ i, i < h.rows ∧ cls i = .nan)
        ∧ (∀ n d, n < h.nk → d < h.dim →
          word t (x.dv + n * x.dvs + 4 * d) = fadd32 (word s (x.dv + n * x.dvs + 4 * d))
            (dot false (depthOf h.p h.fo) (mulAll (rows.map fun i => h.p.num (bwdCell s lc h x q k v o i n).1)
              (rows.map fun i => if cls i = .allmask then .zero false else (s.bwdRow lc h x q o i).1.o.getD d (.zero false))))
          ∧ word t (x.dk + n * x.dks + 4 * d) = fadd32 (word s (x.dk + n * x.dks + 4 * d))
            (dot false (depthOf h.out h.fq) (mulAll (rows.map fun i => h.out.num (bwdCell s lc h x q k v o i n).2)
              (rows.map fun i => if cls i = .allmask then .zero false else (s.bwdRow lc h x q o i).1.q.getD d (.zero false)))))
        ∧ (∀ i d, i < h.rows → d < h.dim → cls i = .nan → word t (x.dq + i * x.dqs + 4 * d) = 0x7FC00000)
        ∧ (∀ i d, i < h.rows → d < h.dim → cls i = .allmask →
          word t (x.dq + i * x.dqs + 4 * d) = word s (x.dq + i * x.dqs + 4 * d))
        ∧ ∀ b : Nat, b < 2 ^ 21 → (∀ r ∈ x.accs h, ¬ (r.1 ≤ b ∧ b < r.2)) → ¬ (x.ws ≤ b ∧ b < x.ws + h.bwdWs) →
            memGet t.mem (hawkKey (s.siteOf lc) b) = memGet s.mem (hawkKey (s.siteOf lc) b)

/-- STC.PTEDIT edits the table at once, fails whole, or waits for the holds (R329, R336, R337, R338, R339, R360,
R361). -/
def Obligations.PageTableEdits : Prop :=
  (∀ (s : State) (lc : Nat) (f : UnitF) (e : UEntry), s.Sound → KvMapped s → AtFront s lc .stencil e →
      e.op = .stcPtedit f →
      let d := e.ds.headD 0
      let x := editOf d
      let q := (s.seqD x.seq).1
      editInvalid d = false → (s.seqD x.seq).2 = false →
      (q.holds = 0 → q.defer = 0 → (∀ y ∈ s.deferred, y.seq ≠ x.seq) → s.editPoison x q = false →
        (s.editFault x q = none →
          ∃ t n, exec (editCmd x.op lc) s = .next t ∧ EndsWith s t lc .stencil 0 { nnz := BitVec.ofNat 64 n }
            ∧ KvFrame lc s t ∧ EditEffect s t x q 0)
        ∧ (∀ st, s.editFault x q = some st →
          ∃ t, exec (editCmd x.op lc) s = .next t ∧ EndsWith s t lc .stencil st {} ∧ KvFrame lc s t ∧ t.mem = s.mem)
        ∧ ((x.op = 0 ↔ q.active = true) →
          ∃ t, exec (editCmd x.op lc) s = .next t ∧ EndsWith s t lc .stencil 0x61 {} ∧ t.mem = s.mem)
        ∧ (q.active = true → ((x.op = 3 ∨ x.op = 4) ∧ q.npages ≤ x.arg ∨ x.op = 5 ∧ q.npages < x.arg) →
          ∃ t, exec (editCmd x.op lc) s = .next t ∧ EndsWith s t lc .stencil 0x62 {} ∧ t.mem = s.mem)
        ∧ (q.active = true → x.op = 2 →
            (q.npages * (s.region q.region).tpp < q.len + x.arg ∨ 1048576 < q.len + x.arg) →
          ∃ t, exec (editCmd x.op lc) s = .next t ∧ EndsWith s t lc .stencil 0x64 {} ∧ t.mem = s.mem))
      ∧ (q.holds ≠ 0 → 3 ≤ x.op →
        (q.defer < 16 → ∃ t, exec (editCmd x.op lc) s = .next t ∧ KvFrame lc s t
            ∧ t.core lc = (s.setEntry lc .stencil 0 { e with begun := true }).core lc
            ∧ t.deferred = s.deferred ++ [⟨lc, x.seq, d⟩] ∧ (t.seqD x.seq).1 = { q with defer := q.defer + 1 }
            ∧ (∀ b j, b < 16384 → j < 32 → (t.kvEntry b j).1 = (s.kvEntry b j).1)
            ∧ t.rf .kvStatus 32 16 = min (s.rf .kvStatus 32 16 + 1) 65535)
        ∧ (16 ≤ q.defer →
          ∃ t, exec (editCmd x.op lc) s = .next t ∧ EndsWith s t lc .stencil 0x65 {} ∧ t.mem = s.mem)))
  ∧ ∀ (s : State) (lc seq : Nat) (d : Desc) (f : UnitF) (e : UEntry) (rest : List UEntry), s.Sound → KvMapped s →
      let x := editOf d
      let q := (s.seqD x.seq).1
      x.seq = seq → s.deferred.filter (fun y => y.seq == seq) = [⟨lc, seq, d⟩] → (s.seqD seq).2 = false →
      q.holds = 0 → 1 ≤ q.defer → lc < 144 → (s.core lc).stcQ = e :: rest → e.op = .stcPtedit f → e.begun = true → e.fin = none →
      s.editFault x q = none → s.editPoison x q = false → 3 ≤ x.op → x.op ≤ 6 →
      ∃ t n, exec (.deferredEditApply ⟨seq, []⟩) s = .next t
        ∧ EndsWith s t lc .stencil 1 { nnz := BitVec.ofNat 64 n } ∧ KvFrame lc s t
        ∧ EditEffect s t x q (q.defer - 1) ∧ t.deferred = s.deferred.filter fun y => y.seq != seq

/-- Holds are counted in the descriptor; the table is enabled, on the BASE that it held before the write, and
disabled; while it is disabled no walker goes on (R323, R330, R332, R334, R362, R650). That STEP is the value after
the increment (log entry 64), that MC_HOLD_RELEASE removes the walking instruction (68) and that nothing walks while
the table is off (110) are the model's choices. -/
def Obligations.HoldsAndTableEnable : Prop :=
  (∀ (s : State) (lc : Nat) (f : UnitF) (e : UEntry) (rest : List UEntry), s.Sound → KvMapped s →
      lc < 144 → (s.core lc).stcQ = e :: rest → e.op = .stcDec f → e.started = true → e.begun = true → e.fin = none →
      let h := dheadOf (e.ds.getD 0 0) (e.ds.getD 1 0)
      let seq := (s.listEntry lc h e.prog).1
      let q := (s.seqD seq).1
      e.prog < h.count → (s.listEntry lc h e.prog).2.1 < h.nidx → (s.core lc).held.length < 3 →
      (s.seqD seq).2 = false → q.active = true → s.editsDue seq = false →
      ∃ t, exec (.holdAcquire lc) s = .next t
        ∧ (t.seqD seq).1 = { q with holds := (q.holds + 1) % 2 ^ 16, step := (q.step + 1) % 2 ^ 32 }
        ∧ (∀ b j, b < 16384 → j < 32 → (t.kvEntry b j).1 = (s.kvEntry b j).1)
        ∧ t.core lc = { s.core lc with
            stcQ := { e with prog := e.prog + 1 } :: rest
            held := (s.core lc).held ++ [⟨seq, e.prog, (q.step + 1) % 2 ^ 32, q.len⟩] }
        ∧ t.regs = s.regs ∧ ∀ k, k ≠ lc → t.core k = s.core k)
  ∧ (∀ (s : State) (lc : Nat) (hd : Held) (hs : List Held), s.Sound → KvMapped s → lc < 144 → (s.core lc).held = hd :: hs →
      hd.seq < 65536 → (s.core lc).holdDone hd = true → (s.seqD hd.seq).2 = false → 1 ≤ (s.seqD hd.seq).1.holds →
      ∃ t, exec (.holdRelease lc) s = .next t
        ∧ (t.seqD hd.seq).1 = { (s.seqD hd.seq).1 with holds := (s.seqD hd.seq).1.holds - 1 }
        ∧ (∀ b j, b < 16384 → j < 32 → (t.kvEntry b j).1 = (s.kvEntry b j).1)
        ∧ t.core lc = { s.core lc with held := hs } ∧ t.regs = s.regs ∧ ∀ k, k ≠ lc → t.core k = s.core k)
  ∧ (∀ (s : State) (lc : Nat) (hd : Held), s.Sound → KvMapped s → lc < 144 → s.failed lc = true → (s.core lc).held = [hd] →
      hd.seq < 65536 → (s.seqD hd.seq).2 = false → 1 ≤ (s.seqD hd.seq).1.holds →
      ∃ t, exec (.mcHoldRelease lc) s = .next t
        ∧ (t.seqD hd.seq).1 = { (s.seqD hd.seq).1 with holds := (s.seqD hd.seq).1.holds - 1 }
        ∧ (t.core lc).held = [] ∧ (t.core lc).stcOwns = false
        ∧ (∀ e ∈ (t.core lc).stcQ, e ∈ (s.core lc).stcQ ∧ ¬ (e.started = true ∧ UOp.owns e.op = true))
        ∧ (∀ k, k < 2 ^ 46 → memGet t.mem k = memGet s.mem k))
  ∧ (∀ (s : State) (lc : Nat), s.kvOn = false → exec (.holdAcquire lc) s = .next s)
  ∧ (∀ (s : State) (w : Word), s.sec.recovery = false → bitAt w 0 = true → bitAt (s.reg .kvConfig) 0 = false →
      let base := s.rf .kvConfig 20 24 * 2 ^ 20
      ∃ t, exec (.kvTableEnable .host w) s = .next t ∧ t = { s with regs := t.regs }
        ∧ (∀ a, a ≠ Reg.kvConfig.addr → mapGet? t.regs a = mapGet? s.regs a)
        ∧ t.rf .kvConfig 20 24 = fld w 20 24
        ∧ t.rf .kvConfig 0 1 = if 0x10000000000 ≤ base ∧ base + 0x5FFFFF ≤ s.hodTop then 1 else 0)
  ∧ ∀ (s : State) (w : Word), s.sec.recovery = false → bitAt w 0 = false → bitAt (s.reg .kvConfig) 0 = true →
      ∃ t, exec (.kvTableDisable .host w) s = .next t ∧ t = { s with regs := t.regs }
        ∧ (∀ a, a ≠ Reg.kvConfig.addr → mapGet? t.regs a = mapGet? s.regs a)
        ∧ t.rf .kvConfig 20 24 = s.rf .kvConfig 20 24
        ∧ t.rf .kvConfig 0 1 = if s.holdsNow = 0 ∧ s.deferred = [] then 0 else 1

/-- STC.DEC processes its list entry by entry, STC.BUCKET sorts a batch by pages, a paged STC.FWD checks the table
(R301, R323, R344, R345, R348, R349, R351, R355, R357, R358, R359). The status word and STEP of a BADIDX entry (log
entry 64), the rows and keys of a stopped entry (111), the free upper half of SUM (81) and the wait while the table is
off (110) are the model's choices. -/
def Obligations.DecodeAndBuckets : Prop :=
  (∀ (s : State) (lc : Nat) (f : UnitF) (e : UEntry), AtFront s lc .stencil e → e.op = .stcDec f →
      let h := dheadOf (e.ds.getD 0 0) (e.ds.getD 1 0)
      (s.decCheck h f.desc.toNat = none →
        exec (.stcDec lc (.perform [])) s = .next (s.setEntry lc .stencil 0 { e with begun := true }))
      ∧ ∀ st, s.decCheck h f.desc.toNat = some st →
        ∃ t, exec (.stcDec lc (.perform [])) s = .next t ∧ EndsWith s t lc .stencil st {} ∧ StencilFrame lc s t
          ∧ t.mem = s.mem)
  ∧ (∀ (s : State) (lc : Nat) (f : UnitF) (e : UEntry) (rest : List UEntry), (s.core lc).stcQ = e :: rest →
      e.op = .stcDec f → e.started = true → e.begun = true → e.fin = none → s.kvOn = false →
      exec (.stcDec lc (.perform [])) s = .next s)
  ∧ (∀ (s : State) (lc : Nat) (f : UnitF) (e : UEntry) (rest : List UEntry), s.Sound → (s.core lc).stcQ = e :: rest →
      e.op = .stcDec f → e.started = true → e.begun = true → e.fin = none → s.kvOn = true → s.clocked lc = true →
      let h := dheadOf (e.ds.getD 0 0) (e.ds.getD 1 0)
      let idx := (s.listEntry lc h e.nnz).2.1
      let site := s.siteOf lc
      e.nnz + 1 < h.count → (s.listEntry lc h e.nnz).2.2 = false → h.nidx ≤ idx → h.base 3 + idx * 8 + 8 ≤ 0x200000 →
      ∃ t, exec (.stcDec lc (.perform [])) s = .next t
        ∧ (let w : Word := BitVec.ofNat 64 (leNat (memGets t.mem (hawkKey site (h.base 3 + idx * 8)) 8))
          let hold := (s.core lc).held.find? fun x => x.entry == e.nnz
          fld w 0 4 = 8 ∧ fld w 4 4 = 0 ∧ fld w 48 16 = ((hold.map fun x => x.step).getD 0) % 2 ^ 16)
        ∧ (∀ k, ¬ (hawkKey site (h.base 3 + idx * 8) ≤ k ∧ k < hawkKey site (h.base 3 + idx * 8) + 8) →
          memGet t.mem k = memGet s.mem k)
        ∧ (∃ e', (t.core lc).stcQ = e' :: rest ∧ e'.nnz = e.nnz + 1 ∧ e'.fin = none)
        ∧ t.rf .kvStatus 48 16 = min (s.rf .kvStatus 48 16 + 1) 65535)
  ∧ (∀ (s : State) (lc : Nat) (f : UnitF) (e : UEntry) (rest : List UEntry) (hd : Held), s.Sound →
      lc < 144 → (s.core lc).stcQ = e :: rest → e.op = .stcDec f → e.started = true → e.begun = true → e.fin = none →
      let h := dheadOf (e.ds.getD 0 0) (e.ds.getD 1 0)
      let seq := (s.listEntry lc h e.nnz).1
      let idx := (s.listEntry lc h e.nnz).2.1
      let q := (s.seqD seq).1
      let r := s.region h.region
      let site := s.siteOf lc
      let lo := if h.window = 0 then 0 else hd.len - h.window
      s.decCheck h f.desc.toNat = none → e.nnz + 1 < h.count → (s.listEntry lc h e.nnz).2.2 = false → idx < h.nidx →
      (s.seqD seq).2 = false → q.active = true → (s.core lc).held.find? (fun x => x.entry == e.nnz) = some hd →
      q.region = h.region → s.clocked lc = true →
      let first := lo / h.chunk
      let n := if hd.len = 0 then 0 else (hd.len - 1) / h.chunk + 1 - first
      let blocks := (List.range ((hd.len + 63) / 64 - lo / 64)).map fun t => lo / 64 + t
      ∀ ps u, (hd.len = 0 ∧ ps = [] ∧ u = s
          ∨ hd.len ≠ 0 ∧ s.walk q r (fld (dword h.raw 0) 31 4) h.head hd.len (lo / 64) ((hd.len - 1) / 64) = (ps, none)
            ∧ s.framesReach lc r h.head ps blocks = true ∧ s.cross site .up [] = some u) →
      let walked := (u.decWalk lc h r ps idx hd.len (daccOf e.await).chunks n).2
      walked.poi = false →
      let row (g : Nat) : ARow := walked.rows.getD g (ARow.start r.dim)
      let sz := h.out.bits / 8
      let o (g : Nat) : Nat := h.base 1 + idx * h.str 1 + g * r.dim * sz
      let lse (g : Nat) : Nat := h.base 2 + (idx * 16 + g) * 4
      let ri (g : Nat) : Nat := h.ri + (idx * 16 + g) * 4
      let es := h.base 3 + idx * 8
      ∃ t, exec (.stcDec lc (.perform [])) s = .next t
        ∧ (∀ g, g < h.g →
          memGets t.mem (hawkKey site (o g)) (r.dim * sz) = ((row g).finish h.out).1.flatMap (leBytes sz)
          ∧ memGets t.mem (hawkKey site (lse g)) 4 = leBytes 4 ((row g).finish h.out).2.1.toNat
          ∧ memGets t.mem (hawkKey site (ri g)) 4 = leBytes 4 ((row g).finish h.out).2.2
          ∧ (hd.len = 0 → (∀ b, b < r.dim * sz → memGet t.mem (hawkKey site (o g) + b) = 0)
            ∧ leNat (memGets t.mem (hawkKey site (lse g)) 4) = 0xFF800000
            ∧ leNat (memGets t.mem (hawkKey site (ri g)) 4) = 2))
        ∧ (let w : Word := BitVec.ofNat 64 (leNat (memGets t.mem (hawkKey site es) 8))
          fld w 0 5 = 0 ∧ fld w 48 16 = hd.step % 2 ^ 16)
        ∧ (∀ b, b < 2 ^ 21 → ¬ (es ≤ b ∧ b < es + 8) →
          (∀ g, g < h.g → ¬ (o g ≤ b ∧ b < o g + r.dim * sz) ∧ ¬ (lse g ≤ b ∧ b < lse g + 4)
            ∧ ¬ (ri g ≤ b ∧ b < ri g + 4)) →
          ¬ (h.ws ≤ b ∧ b < h.ws + h.wsSize r.dim) → ¬ (h.stage ≤ b ∧ b < h.stage + 5 * h.slot r) →
          memGet t.mem (hawkKey site b) = memGet s.mem (hawkKey site b))
        ∧ ∃ e', (t.core lc).stcQ = e' :: rest ∧ e'.nnz = e.nnz + 1 ∧ e'.fin = none)
  ∧ (∀ (s : State) (lc : Nat) (f : UnitF) (e : UEntry), s.Sound → AtFront s lc .stencil e → e.op = .stcBucket f →
      let d := e.ds.headD 0
      let n := fld (dword d 0) 32 16
      let nb := fld (dword d 1) 24 7
      let site := s.siteOf lc
      let seq (i : Nat) : Nat := leNat (memGets s.mem (hawkKey site (fld (dword d 0) 0 21 + 2 * i)) 2)
      let edge (i : Nat) : Nat := leNat (memGets s.mem (hawkKey site (fld (dword d 1) 0 21 + 4 * i)) 4)
      let q (i : Nat) : SeqD := (s.seqD (seq i)).1
      let bucket (i : Nat) : Nat := ((List.range (nb - 1)).filter fun j => decide (edge j ≤ (q i).npages)).length
      let of (k : Nat) : List Nat := (List.range n).filter fun i => (q i).active && bucket i == k
      let dst := fld (dword d 2) 0 21
      let cnt := fld (dword d 2) 21 21
      let out : List Nat := (List.range nb).reverse.flatMap of
      s.bucketCheck d = none → s.hawkClean lc → (∀ i, i < n → (s.seqD (seq i)).2 = false) →
      ∃ t v, exec (.stcBucket lc (.perform [])) s = .next t ∧ EndsWith s t lc .stencil 0 v ∧ StencilFrame lc s t
        ∧ (∀ i, i < out.length →
          leNat (memGets t.mem (hawkKey site (dst + 4 * i)) 4) = seq (out.getD i 0) + out.getD i 0 * 2 ^ 16)
        ∧ (∀ k, k < nb → leNat (memGets t.mem (hawkKey site (cnt + 4 * k)) 4) = (of k).length)
        ∧ (∀ b, b < 2 ^ 21 → ¬ (dst ≤ b ∧ b < dst + 4 * out.length) → ¬ (cnt ≤ b ∧ b < cnt + 4 * nb) →
          memGet t.mem (hawkKey site b) = memGet s.mem (hawkKey site b))
        ∧ v.sum.toNat = out.length ∧ v.nnz.toNat = n - out.length)
  ∧ ∀ (s : State) (lc : Nat) (f : UnitF) (e : UEntry), AtFront s lc .stencil e → e.op = .stcFwd f →
      let y := fwdParts e
      y.1.paged = true → y.1.fwdCheck y.2.1 y.2.2.1 y.2.2.2.1 y.2.2.2.2 f.desc.toNat = none → s.kvOn = false →
      ∃ t, exec (.stcFwd lc (.perform [])) s = .next t ∧ EndsWith s t lc .stencil 0x60 {} ∧ StencilFrame lc s t
        ∧ t.mem = s.mem

/-- RLR.VLD, MV, RD, WR: the checks in their order, then the command leaves for every selected stack, an RLR.VLD with all its
NSRC sources, over a channel that carries rows (R105, R120, R127, R379, R380, R381, R382, R385, R386, R399, R400). -/
def Obligations.RollerCommandsSent : Prop :=
  ∀ (s : State) (lc : Nat) (c : Instr) (e : UEntry), AtFront s lc .scrim e → rlrCmd lc e.op = some c →
    let op := e.op
    let d := e.ds.headD 0
    let sel := (rselOf d).rollers
    let m := rmvOf d
    let only (t : State) : Prop := t = { s with cores := t.cores }
      ∧ t.core lc = (s.core lc).setQ .scrim ((t.core lc).scrQ) ∧ ∀ k, k ≠ lc → t.core k = s.core k
    let ends (st : BitVec 8) := ∃ t, exec c s = .next t ∧ EndsWith s t lc .scrim st {} ∧ only t
    let armed := s.rf .rlrState 0 1 = 1
    let retired := ∃ x ∈ sel, s.rf (.rlrRetired (x / 64)) (x % 64) 1 = 1
    (sel = [] ∨ rlrInvalid op d = true → ends 0x44)
      ∧ (rlrInvalid op d = false → rlrMisaligned op d = true → ends 0x45)
      ∧ (rlrInvalid op d = false → rlrMisaligned op d = false → ¬ armed → ends 0x70)
      ∧ (rlrInvalid op d = false → rlrMisaligned op d = false → armed → retired → ends 0x74)
      ∧ (rlrInvalid op d = false → rlrMisaligned op d = false → armed → ¬ retired → rlrFormat op d = true → ends 0x71)
      ∧ (rlrInvalid op d = false → rlrMisaligned op d = false → armed → ¬ retired → rlrFormat op d = false →
          ∀ f, op = .rlrMv f →
          let rowsIn := ∀ j i b, j < m.nblk → i < m.rows → b < m.rowBytes →
            0 ≤ m.rowAt j i + b ∧ m.rowAt j i + b < 2 ^ 26
          let bufIn := ∀ q j i k, q ∈ bitsOf 16 (rselOf d).banks → j < m.nblk → i < m.rows → k < m.len →
            (0 ≤ m.vecAt q j i k ∧ m.vecAt q j i k * (m.vfmt.bits / 8) < 65536)
              ∧ 0 ≤ m.accAt q j i k ∧ m.accAt q j i k < 4096
          (¬ rowsIn → ends 0x72) ∧ (rowsIn → ¬ bufIn → ends 0x73) ∧ (rowsIn → bufIn → s.rlrCheck op d = none))
      ∧ (s.rlrCheck op d = none → (∀ st ∈ (rselOf d).stackList, s.seqLen st + s.onWay st < 16) →
          ((∃ f, op = .rlrVld f) → ChannelFree s (s.siteOf lc) .down) →
          ∃ t rest e', exec c s = .next t ∧ t = { s with cores := t.cores, vcs := t.vcs }
            ∧ ((∀ f, op ≠ .rlrVld f) → t.vcs = s.vcs)
            ∧ t.core lc = (s.core lc).setQ .scrim ((t.core lc).scrQ) ∧ (∀ k, k ≠ lc → t.core k = s.core k)
            ∧ (s.core lc).scrQ = e :: rest ∧ (t.core lc).scrQ = e' :: rest
            ∧ e'.op = op ∧ e'.ds = e.ds ∧ e'.begun = true ∧ e'.fin = none
            ∧ e'.await = (rselOf d).stackList.map toArrive
            ∧ (s.hawkClean lc → e'.poi = false)
            ∧ ∀ f, op = .rlrVld f →
              let len := fld (dword d 1) 32 14 * 8
              let place (k j : Nat) : Nat := hawkKey (s.siteOf lc) (fld (dword d 1) 0 21 + k * fld (dword d 2) 32 21 + j)
              (∀ k j, k < fld (dword d 2) 16 10 → j < len →
                mapGet e'.buf (2 * (k * len + j)) 0 = memGet s.mem (place k j))
              ∧ (e'.poi = true ↔ ∃ k j, k < fld (dword d 2) 16 10 ∧ j < len
                ∧ s.runPoisoned (place k j / 64 * 64) 64 = true))
      ∧ (s.rlrCheck op d = none → (∃ st ∈ (rselOf d).stackList, 16 ≤ s.seqLen st + s.onWay st) → exec c s = .next s)
      ∧ (s.rlrCheck op d = none → (∃ f, op = .rlrVld f) →
          (s.siteWindow (s.siteOf lc) = true ∨ s.siteRetired (s.siteOf lc) = true) → exec c s = .next s)

/-- An RLR.MV that reaches a stack starts a walk at each of its Rollers, and at the end of the pass that completes the
walk every accumulator has taken its exact step sums, each rounded once, in the order of the walk; a pass that ends
before keeps its place (R373, R375, R376, R377, R381, R386, R389, R390, R392, R398, R400). How many steps a pass holds
is an operand, as is the model's choice (log entry 104). -/
def Obligations.RollerProducts : Prop :=
  (∀ (s : State) (lc st : Nat) (f : UnitF) (e : UEntry) (rest : List UEntry), Arriving s lc st e rest →
      e.op = .rlrMv f → s.rf .rlrState (16 + st) 1 = 0 → s.chanOff (e.ds.headD 0) st = false →
      let sel := rselOf (e.ds.headD 0)
      let hit (x : Nat) : Prop := x ∈ sel.rollers ∧ x / 64 = st
      (SeqIdle s st → ∃ t, exec (.rollerCommandArrival lc st []) s = .next t ∧ RanAt s t lc st e rest 0
        ∧ t.mem = s.mem ∧ t.poison = s.poison ∧ t.vcs = s.vcs
        ∧ (∀ x, hit x → t.roller x = { s.roller x with
            pass := !(s.pins.brake || setHas s.refreshDue (x / 4)), walk := some ⟨0, [], sel.banks, none⟩ })
        ∧ ∀ x, ¬ hit x → t.roller x = s.roller x)
      ∧ (s.walking st = true → ∃ t c, exec (.rollerCommandArrival lc st []) s = .next t
        ∧ t = { s with cores := t.cores, seqs := t.seqs } ∧ mapGet t.seqs st [] = mapGet s.seqs st [] ++ [c]
        ∧ c.lc = lc ∧ c.op = e.op ∧ c.desc = e.ds.headD 0 ∧ c.ran = false))
  ∧ (∀ (s : State) (x n : Nat) (gap : Bool) (c : RlrCmd), WalksFirst s x c → s.rcWait = [] →
      (rmvOf c.desc).steps (bitsOf 16 (rselOf c.desc).banks) ≤ n →
      let m := rmvOf c.desc
      let qs := bitsOf 16 (rselOf c.desc).banks
      ∃ t c', exec (.rollerPassEnd ⟨x, n, gap, []⟩) s = .next t
        ∧ t = { s with
            rollers := t.rollers, seqs := t.seqs, regs := t.regs, rows := t.rows, refreshDue := t.refreshDue, free := t.free }
        ∧ (t.roller x).pass = false ∧ (t.roller x).walk = none ∧ (t.roller x).vec = (s.roller x).vec
        ∧ (t.roller x).vecPoison = (s.roller x).vecPoison
        ∧ (∀ a, mapGet (t.roller x).acc a 0 = s.raccAfter x m qs a
            ∧ setHas (t.roller x).accPoison a = s.raccPoison x m qs a)
        ∧ (∀ y, y ≠ x → t.roller y = { s.roller y with pass := (t.roller y).pass })
        ∧ mapGet t.seqs (x / 64) [] = [c'] ∧ (∀ k, k ≠ x / 64 → mapGet t.seqs k [] = mapGet s.seqs k [])
        ∧ c'.lc = c.lc ∧ c'.op = c.op ∧ c'.desc = c.desc ∧ c'.ran = true ∧ c'.reset = c.reset
        ∧ (c'.poi = true ↔ c.poi = true ∨ ∃ a, s.rsteps x m qs a ≠ [] ∧ s.raccPoison x m qs a = true))
  ∧ (∀ (s : State) (x n : Nat) (c : RlrCmd), WalksFirst s x c → s.rcWait = [] →
      n < (rmvOf c.desc).steps (bitsOf 16 (rselOf c.desc).banks) →
      ∃ t w, exec (.rollerPassEnd ⟨x, n, true, []⟩) s = .next t ∧ t.mem = s.mem ∧ t.poison = s.poison
        ∧ (t.roller x).pass = false ∧ (t.roller x).walk = some w ∧ w.pos = n ∧ w.banks = (rselOf c.desc).banks
        ∧ w.gap = some 0)
  ∧ (∀ (s : State) (lc st : Nat) (c : Instr) (e : UEntry) (rest : List UEntry), Arriving s lc st e rest →
      rlrCmd lc e.op = some c → s.rf .rlrState (16 + st) 1 = 0 → s.chanOff (e.ds.headD 0) st = true →
      let last := ∀ n ∈ e.await, n = toArrive st
      ∃ t, exec (.rollerCommandArrival lc st []) s = .next t ∧ t = { s with cores := t.cores, regs := t.regs }
        ∧ t.rf (.rlrStack st) 16 16 = min (s.rf (.rlrStack st) 16 16 + 1) 65535
        ∧ (∀ a, a ≠ (Reg.rlrStack st).addr → mapGet? t.regs a = mapGet? s.regs a)
        ∧ t.core lc = (s.core lc).setQ .scrim ((t.core lc).scrQ) ∧ (∀ k, k ≠ lc → t.core k = s.core k)
        ∧ (¬ last → ∃ e', (t.core lc).scrQ = e' :: rest ∧ e'.op = e.op ∧ e'.ds = e.ds ∧ e'.fin = none
            ∧ e'.await = e.await.filter (fun n => n != toArrive st) ∧ e'.worst = worse e.worst (some 0x42))
        ∧ (last → e.worst = none → ∃ v, EndsWith s t lc .scrim 0x42 v))
  ∧ ∀ (s : State) (lc st : Nat) (c : Instr) (e : UEntry) (rest : List UEntry), Arriving s lc st e rest →
      rlrCmd lc e.op = some c → s.rf .rlrState (16 + st) 1 = 1 → setHas s.power.awake (168 + st) = false →
      exec (.rollerCommandArrival lc st []) s = .next s

/-- RLR.VLD fills vector buffers, RLR.RD writes accumulators into the hawk, RLR.WR into the banks (R379, R380, R383,
R384, R397). -/
def Obligations.RollerTransfers : Prop :=
  ∀ (s : State) (lc st : Nat) (c : Instr) (e : UEntry) (rest : List UEntry), Arriving s lc st e rest →
    rlrCmd lc e.op = some c → s.rf .rlrState (16 + st) 1 = 0 → SeqIdle s st →
    let d := e.ds.headD 0
    let sel := (rselOf d).rollers
    let cnt := fld (dword d 2) 16 13
    let sz := rsize (fld (dword d 2) 32 4)
    s.rlrCheck e.op d = none → s.chanOff d st = false →
    (∀ f, e.op = .rlrVld f →
      let len := fld (dword d 1) 32 14 * 8
      let dst := fld (dword d 2) 0 16
      ∃ t, exec (.rollerCommandArrival lc st []) s = .next t ∧ RanAt s t lc st e rest 0
        ∧ t.mem = s.mem ∧ t.poison = s.poison
        ∧ (∀ n, n < sel.length → sel.getD n 0 / 64 = st →
          let r := s.roller (sel.getD n 0)
          let r' := t.roller (sel.getD n 0)
          r'.acc = r.acc ∧ r'.accPoison = r.accPoison ∧ r'.pass = r.pass ∧ r'.walk = r.walk
            ∧ ∀ b, mapGet r'.vec b 0 = if dst ≤ b ∧ b < dst + len
              then mapGet e.buf (2 * (n % fld (dword d 2) 16 10 * len + (b - dst))) 0 else mapGet r.vec b 0)
        ∧ ∀ x, x ∉ sel ∨ x / 64 ≠ st → t.roller x = s.roller x)
    ∧ (∀ f, e.op = .rlrRd f →
      let at' (n : Nat) : Nat := fld (dword d 1) 0 21 + n * fld (dword d 1) 32 21
      let key (o : Nat) : Nat := hawkKey (s.siteOf lc) o
      ChannelFree s (s.siteOf lc) .up →
      ∃ t status, exec (.rollerCommandArrival lc st []) s = .next t ∧ RanAt s t lc st e rest status
        ∧ (∀ n i, n < sel.length → sel.getD n 0 / 64 = st → i < cnt →
          memGets t.mem (key (at' n + i * sz)) sz = leBytes sz (s.raccCode (sel.getD n 0) d i)
            ∧ (setHas (s.roller (sel.getD n 0)).accPoison (fld (dword d 2) 0 12 + i) = true →
                t.poisoned (key (at' n + i * sz)) = true ∧ status = 0x43))
        ∧ (∀ k, (∀ n, n < sel.length → sel.getD n 0 / 64 = st → ¬ (key (at' n) ≤ k ∧ k < key (at' n) + cnt * sz)) →
            memGet t.mem k = memGet s.mem k)
        ∧ (∀ x, x ∈ sel → x / 64 = st → Cleared (s.roller x) (t.roller x) d)
        ∧ ∀ x, x ∉ sel ∨ x / 64 ≠ st → t.roller x = s.roller x)
    ∧ ∀ f, e.op = .rlrWr f →
      let at' (x q : Nat) : Nat := bankCell x q + fld (dword d 1) 0 26
      let qs := bitsOf 16 (rselOf d).banks
      ∃ t status, exec (.rollerCommandArrival lc st []) s = .next t ∧ RanAt s t lc st e rest status
        ∧ (∀ x q i, x ∈ sel → x / 64 = st → q ∈ qs → i < cnt →
          memGets t.mem (at' x q + i * sz) sz = leBytes sz (s.raccCode x d i)
            ∧ (setHas (s.roller x).accPoison (fld (dword d 2) 0 12 + i) = true →
                t.poisoned (at' x q + i * sz) = true ∧ status = 0x43))
        ∧ (∀ k, (∀ x q, x ∈ sel → x / 64 = st → q ∈ qs → ¬ (at' x q ≤ k ∧ k < at' x q + cnt * sz)) →
            memGet t.mem k = memGet s.mem k)
        ∧ (∀ x, x ∈ sel → x / 64 = st → Cleared (s.roller x) (t.roller x) d)
        ∧ ∀ x, x ∉ sel ∨ x / 64 ≠ st → t.roller x = s.roller x

/-- Stacks report, passes and gaps end, refreshes wait for passes and close rows, disarming clears the buffers (R385,
R386, R389, R390, R391, R399, R400, R401). How long a pass and its gap last is an operand, as is the model's choice
(log entry 104). -/
def Obligations.RollerReportsAndRefresh : Prop :=
  (∀ (s : State) (st : Nat) (c : RlrCmd) (cs : List RlrCmd) (e : UEntry) (rest : List UEntry) (x : Instr),
      mapGet s.seqs st [] = c :: cs → (s.core c.lc).scrQ = e :: rest → e.begun = true → e.fin = none →
      toReport st ∈ e.await → rlrCmd c.lc e.op = some x → e.op = c.op →
      let busy := c.ran = false ∨ (∃ f, c.op = .rlrMv f) ∧ (∀ y ∈ cs, y.ran = false) ∧ s.walking st = true
      let last := ∀ n ∈ e.await, n = toReport st
      (busy → exec (.rollerStackReport st) s = .next s)
      ∧ (¬ busy → ∃ t, exec (.rollerStackReport st) s = .next (t.seqOn st [])
        ∧ ((∀ y ∈ cs, y.ran = true) → t.seqOn st [] = t) ∧ t = { s with cores := t.cores, seqs := t.seqs }
        ∧ mapGet t.seqs st [] = cs ∧ (∀ k, k ≠ st → mapGet t.seqs k [] = mapGet s.seqs k [])
        ∧ t.core c.lc = (s.core c.lc).setQ .scrim ((t.core c.lc).scrQ) ∧ (∀ k, k ≠ c.lc → t.core k = s.core k)
        ∧ (¬ last → ∃ e', (t.core c.lc).scrQ = e' :: rest ∧ e'.fin = none
            ∧ e'.await = e.await.filter fun n => n != toReport st)
        ∧ (last → e.worst = none → ∃ v, EndsWith s t c.lc .scrim
              (if c.status = 0x42 ∨ c.status = 0x41 then c.status else if e.poi = true then 0x43 else c.status) v
            ∧ ((∀ f, e.op ≠ .rlrRd f) → v.nnz = BitVec.ofNat 64 (e.nnz + c.nnz)))))
  ∧ (∀ (s : State) (x n : Nat) (gap : Bool), x < 512 → (s.roller x).pass = true → s.rcWait = [] →
      (∀ c ∈ mapGet s.seqs (x / 64) [], c.ran = true) →
      ∃ t, exec (.rollerPassEnd ⟨x, n, gap, []⟩) s = .next t
        ∧ t = { s with
            rollers := t.rollers, seqs := t.seqs, regs := t.regs, rows := t.rows, refreshDue := t.refreshDue, free := t.free }
        ∧ (∀ y, y / 4 ≠ x / 4 → t.roller y = s.roller y)
        ∧ (∀ a, ¬ LathCountAddr a → a ≠ (Reg.rlrStack (x / 64)).addr → mapGet? t.regs a = mapGet? s.regs a)
        ∧ (t.roller x).pass = (!gap && !s.pins.brake && !setHas t.refreshDue (x / 4) && (t.roller x).walk.isSome)
        ∧ (∀ w, (t.roller x).walk = some w → w.gap = if gap then some 0 else none)
        ∧ (let ends := setHas s.refreshDue (x / 4) = true
            ∧ ∀ r, r < 4 → x / 4 * 4 + r ≠ x → (s.roller (x / 4 * 4 + r)).pass = false
          (ends → setHas t.refreshDue (x / 4) = false ∧ ∀ b, b / 64 = x / 4 → mapGet? t.rows b = none)
          ∧ (¬ ends → t.refreshDue = s.refreshDue) ∧ ∀ b, b / 64 ≠ x / 4 → mapGet? t.rows b = mapGet? s.rows b))
  ∧ (∀ (s : State) (x n : Nat) (errs : List MemErr), (s.roller x).pass = false →
      exec (.rollerPassEnd ⟨x, n, true, errs⟩) s = .next s
      ∧ ∃ t, exec (.rollerPassEnd ⟨x, n, false, errs⟩) s = .next t ∧ t = { s with rollers := t.rollers }
          ∧ ∀ y,
            let r := if y = x then { s.roller y with walk := (s.roller y).walk.map fun w => { w with gap := none } } else s.roller y
            let goes := setHas s.refreshDue (x / 4) = false ∧ s.pins.brake = false ∧ y / 4 = x / 4
              ∧ ∃ w, r.walk = some w ∧ w.gap = none
            (goes → t.roller y = { r with pass := true }) ∧ (¬ goes → t.roller y = r))
  ∧ (∀ (s : State) (ch : Nat), ch < 128 →
      ∃ t, exec (.channelRefresh ch) s = .next t
        ∧ t = { s with regs := t.regs, rows := t.rows, refreshDue := t.refreshDue, free := t.free }
        ∧ (∀ a, ¬ LathCountAddr a → mapGet? t.regs a = mapGet? s.regs a)
        ∧ (let busy := ∃ r, r < 4 ∧ (s.roller (4 * ch + r)).pass = true
          (busy → t.rows = s.rows ∧ t.refreshDue = setAdd s.refreshDue ch)
          ∧ (¬ busy → t.refreshDue = s.refreshDue
            ∧ ∀ b, mapGet? t.rows b = if b / 64 = ch then none else mapGet? s.rows b)))
  ∧ ∀ (s : State) (st : Nat), setHas s.disarming st = true → s.seqLen st = 0 → s.onWay st = 0 →
      ∃ t, exec (.rollerDisarmComplete st) s = .next t ∧ t = { s with rollers := t.rollers, disarming := t.disarming }
        ∧ (∀ n, setHas t.disarming n = (n != st && setHas s.disarming n))
        ∧ ∀ x, t.roller x = if x / 64 = st
          then { Roller.zero with pass := (s.roller x).pass, walk := (s.roller x).walk } else s.roller x

/-- SCR.MCAST: its checks, the payload it carries, each copy and flag at its target (R417, R418, R420, R421, R435,
R436, R437, R441). That a run beyond a hawk is ADDR_UNMAPPED (log entry 74), and SET_INVALID before reserved bits of
the same word (83), are the model's choices. -/
def Obligations.MulticastCopies : Prop :=
  (∀ (s : State) (d : Desc) (ns : List Nat), s.descSet d = some ns →
      ns ≠ [] ∧ (∀ n, n ∈ ns ↔ InSet d n) ∧ ∀ n ∈ ns, n < s.inForce)
  ∧ (∀ (s : State) (lc : Nat) (f : UnitF) (e : UEntry), AtFront s lc .scrim e → e.op = .scrMcast f →
      let d := e.ds.headD 0
      let m := mcastOf d
      let own := ∃ ns, s.descSet d = some ns ∧ lc ∈ ns
      let clean := fld (dword d 4) 42 22 = 0 ∧ fld (dword d 5) 19 45 = 0 ∧ fld (dword d 6) 22 42 = 0 ∧ dword d 7 = 0
        ∧ 1 ≤ fld (dword d 5) 0 19 ∧ fld (dword d 5) 0 19 ≤ 262144
        ∧ ¬ (own ∧ m.src < m.dst + m.len ∧ m.dst < m.src + m.len)
      let aligned := m.src % 8 = 0 ∧ m.dst % 8 = 0 ∧ m.foff % 8 = 0
      let inside := m.src + m.len ≤ 2 ^ 21 ∧ m.dst + m.len ≤ 2 ^ 21
      let ends (st : BitVec 8) := ∃ t, exec (.scrMcast lc (.perform [])) s = .next t ∧ EndsWith s t lc .scrim st {}
        ∧ ScrimFrame lc lc s t ∧ t.mem = s.mem ∧ t.poison = s.poison ∧ t.colls = s.colls
      (¬ clean → ends 0x44) ∧ (clean → ¬ aligned → ends 0x45) ∧ (clean → aligned → s.descSet d = none → ends 0x50)
        ∧ (clean → aligned → s.descSet d ≠ none → ¬ inside → ends 0x40)
        ∧ ∀ ns, clean → aligned → inside → s.descSet d = some ns →
          ∃ t rest e', exec (.scrMcast lc (.perform [])) s = .next t ∧ ScrimFrame lc lc s t ∧ t.mem = s.mem
            ∧ t.poison = s.poison ∧ t.colls = s.colls ∧ (s.core lc).scrQ = e :: rest ∧ (t.core lc).scrQ = e' :: rest
            ∧ e'.op = e.op ∧ e'.ds = e.ds ∧ e'.begun = true ∧ e'.fin = none ∧ e'.await = ns
            ∧ e'.payload = memGets s.mem (hawkKey (s.siteOf lc) m.src) m.len ∧ (s.hawkClean lc → e'.poi = false))
  ∧ (∀ (s : State) (lc target : Nat) (f : UnitF) (e : UEntry) (rest : List UEntry), Owes s lc target f e rest →
      let m := mcastOf (e.ds.headD 0)
      let key := hawkKey (s.siteOf target) m.dst
      let left := e.await.filter fun n => n != target
      s.failed target = false → e.worst = none → e.payload.length = m.len →
      (m.fen = false →
        ∃ t, exec (.mcastCopyDelivered lc ⟨target, []⟩) s = .next t ∧ ScrimFrame lc target s t ∧ t.colls = s.colls
          ∧ Stores s t key e.payload
          ∧ (∀ x ∈ e.buf, x.1 % 2 = 1 → t.poisoned (key + x.1 / 2) = true)
          ∧ (left ≠ [] → ∃ e', (t.core lc).scrQ = e' :: rest ∧ e'.await = left ∧ e'.fin = none ∧ e'.nnz = e.nnz + 1)
          ∧ (left = [] → EndsWith s t lc .scrim (if e.poi then 0x43 else 0) { nnz := BitVec.ofNat 64 (e.nnz + 1) }))
      ∧ (m.fen = true → (setHas (s.core lc).lost (unitNum .scrim) = true ∨ e.lost = true) →
        let due := left.filter fun n => n != flagDue target
        ∃ t, exec (.mcastCopyDelivered lc ⟨target, []⟩) s = .next t ∧ ScrimFrame lc target s t ∧ Stores s t key e.payload
          ∧ (due = [] → EndsWith s t lc .scrim 0x42 { nnz := BitVec.ofNat 64 (e.nnz + 1) }))
      ∧ (m.fen = true → target < s.inForce → (∀ p ∈ (s.core lc).stores, e.storeMark ≤ p.id) → s.orphaned lc = false →
        setHas (s.core lc).lost (unitNum .scrim) = false → e.lost = false →
        let due := left.filter fun n => n != flagDue target
        let copy (k : Nat) : Byte := if key ≤ k ∧ k < key + m.len then e.payload.getD (k - key) 0 else memGet s.mem k
        let kf := hawkKey (s.siteOf target) m.foff
        let flag := leBytes 8 ((leNat ((List.range 8).map fun j => copy (kf + j)) + 1) % 2 ^ 64)
        ∃ t, exec (.mcastCopyDelivered lc ⟨target, []⟩) s = .next t ∧ ScrimFrame lc target s t ∧ t.colls = s.colls
          ∧ (∀ k, memGet t.mem k = if kf ≤ k ∧ k < kf + 8 then flag.getD (k - kf) 0 else copy k)
          ∧ (due ≠ [] → ∃ e', (t.core lc).scrQ = e' :: rest ∧ e'.await = due ∧ e'.fin = none ∧ e'.nnz = e.nnz + 1)
          ∧ (due = [] → EndsWith s t lc .scrim (if e.poi then 0x43 else 0) { nnz := BitVec.ofNat 64 (e.nnz + 1) })))
  ∧ ∀ (s : State) (lc target : Nat) (f : UnitF) (e : UEntry) (rest : List UEntry), Owes s lc target f e rest →
      let left := e.await.filter fun n => n != target
      s.failed target = true → e.worst = none → e.poi = false →
      ∃ t, exec (.mcastCopyDelivered lc ⟨target, []⟩) s = .next t ∧ ScrimFrame lc lc s t ∧ t.mem = s.mem ∧ t.colls = s.colls
        ∧ (left ≠ [] → ∃ e', (t.core lc).scrQ = e' :: rest ∧ e'.await = left ∧ e'.fin = none)
        ∧ (left = [] → EndsWith s t lc .scrim 0x41 { nnz := BitVec.ofNat 64 e.nnz })

/-- SCR.RED: its checks, contributions, the fixed tree of the result, and mismatches (R417, R422, R423, R424, R425,
R427, R436, R437). That a mismatch goes on while a started instruction of its DEST and RID remains is the model's
choice (log entry 73). -/
def Obligations.ReductionTree : Prop :=
  (∀ (s : State) (lc : Nat) (f : UnitF) (e : UEntry), AtFront s lc .scrim e → e.op = .scrRed f →
      let d := e.ds.headD 0
      let r := redOf d
      let ends (st : BitVec 8) := ∃ t, exec (.scrRed lc (.perform [])) s = .next t ∧ EndsWith s t lc .scrim st {}
        ∧ ScrimFrame lc lc s t ∧ t.mem = s.mem ∧ t.colls = s.colls
      let outside := ∃ ns, s.descSet d = some ns ∧ r.dest ∉ ns
      let fields := fld (dword d 4) 14 2 = 0 ∧ fld (dword d 4) 19 13 = 0 ∧ fld (dword d 4) 49 15 = 0
        ∧ fld (dword d 5) 42 22 = 0 ∧ dword d 6 = 0 ∧ dword d 7 = 0 ∧ r.fmt < 3 ∧ 1 ≤ r.len ∧ r.len ≤ 65536 ∧ ¬ outside
      let aligned := r.src % 8 = 0 ∧ r.dst % 8 = 0 ∧ r.len * r.size % 8 = 0
      (¬ fields → ends 0x44) ∧ (fields → ¬ aligned → ends 0x45)
        ∧ (fields → aligned → (∀ ns, s.descSet d = some ns → lc ∉ ns) → ends 0x50)
        ∧ (s.redCheck lc d = none →
          ((∀ k, s.coll r.dest r.rid = some k → k.mismatch = false) →
            exec (.scrRed lc (.perform [])) s = .next (s.setEntry lc .scrim 0 { e with begun := true }))
          ∧ ∀ k, s.coll r.dest r.rid = some k → k.mismatch = true →
            ∃ t, exec (.scrRed lc (.perform [])) s = .next t ∧ t.mem = s.mem ∧ t.colls = s.colls
              ∧ EndsWith s t lc .scrim 0x51 { nnz := collNnz k lc false }))
  ∧ (∀ (s : State) (lc : Nat) (f : UnitF) (e : UEntry) (rest : List UEntry) (k : Coll), OnItsWay s lc e rest →
      e.op = .scrRed f →
      let d := e.ds.headD 0
      let r := redOf d
      s.scrimOpen (s.siteOf lc) (s.siteOf r.dest) = true → Reaches s lc (redColl r ((s.descSet d).getD [])) k →
      (∃ n ∈ k.set, n ≠ lc ∧ s.failed n = false ∧ n ∉ k.arrived) →
      ∃ t, exec (.redContributionArrival lc) s = .next t ∧ ScrimFrame lc r.dest s t ∧ t.mem = s.mem
        ∧ (∃ k', t.coll r.dest r.rid = some k' ∧ k'.arrived = k.arrived ++ [lc] ∧ k'.set = k.set
          ∧ k'.terms.map Prod.fst = k.terms.map Prod.fst ++ (if r.nocont then [] else [lc]))
        ∧ (lc ≠ r.dest → EndsWith s t lc .scrim 0 { nnz := BitVec.ofNat 64 (if r.nocont then 1 else (r.len + 15) / 16) })
        ∧ (lc = r.dest → ∃ e', (t.core lc).scrQ = e' :: rest ∧ e'.fin = none ∧ e'.prog = 1))
  ∧ (∀ (s : State) (lc : Nat) (f g : UnitF) (e ed : UEntry) (rest rd : List UEntry) (k : Coll), OnItsWay s lc e rest →
      e.op = .scrRed f →
      let d := e.ds.headD 0
      let r := redOf d
      let q := redOf (ed.ds.headD 0)
      s.scrimOpen (s.siteOf lc) (s.siteOf r.dest) = true → Reaches s lc (redColl r ((s.descSet d).getD [])) k →
      s.accepts r.dest = true → (∀ n ∈ k.set, n ≠ lc → s.failed n = false ∧ n ∈ k.arrived) → s.redCheck lc d = none → k.terms.lookup lc = none →
      (s.core r.dest).scrQ = ed :: rd → ed.op = .scrRed g → ed.begun = true → ed.fin = none →
      q.dest = r.dest → q.rid = r.rid → q.fmt = r.fmt →
      let term (n i : Nat) : Option (BitVec 32) :=
        if n = lc then (if r.nocont then none else some (s.redElem lc r i))
        else (k.terms.lookup n).bind fun l => l[i]?.map Prod.fst
      let code (i : Nat) : Nat :=
        match treeSum (combine32 (decide (r.fmt = 2))) r.dest (fun row col => term (12 * row + col) i) with
        | none => 0
        | some v => if r.fmt = 1 then (toBf16 v).toNat else v.toNat
      let key := hawkKey (s.siteOf r.dest) q.dst
      ∃ t, exec (.redContributionArrival lc) s = .next t ∧ ScrimFrame lc r.dest s t ∧ t.coll r.dest r.rid = none
        ∧ (∀ i, i < r.len → memGets t.mem (key + i * r.size) r.size = leBytes r.size (code i))
        ∧ (∀ a, ¬ (key ≤ a ∧ a < key + r.len * r.size) → memGet t.mem a = memGet s.mem a)
        ∧ (lc ≠ r.dest → EndsWith s t lc .scrim 0 { nnz := BitVec.ofNat 64 (if r.nocont then 1 else (r.len + 15) / 16) })
        ∧ ((r.nocont = true ∨ s.hawkClean lc) → (∀ x ∈ k.terms, ∀ y ∈ x.2, y.2 = false) →
          ∃ v, EndsWith s t r.dest .scrim 0 v ∧ v.nnz = BitVec.ofNat 64 (k.terms.length + if r.nocont then 0 else 1)))
  ∧ ∀ (s : State) (lc : Nat) (f : UnitF) (e : UEntry) (rest : List UEntry) (k : Coll), OnItsWay s lc e rest →
      e.op = .scrRed f →
      let d := e.ds.headD 0
      let r := redOf d
      s.scrimOpen (s.siteOf lc) (s.siteOf r.dest) = true → s.coll r.dest r.rid = some k →
      k.dest = r.dest → k.rid = r.rid → k.mismatch = false → k.dead = false →
      (k.barrier = true ∨ lc ∈ k.arrived ∨ k.set ≠ (s.descSet d).getD [] ∨ k.fmt ≠ r.fmt ∨ k.len ≠ r.len) →
      ∃ t, exec (.redContributionArrival lc) s = .next t ∧ t.mem = s.mem ∧ t.poison = s.poison ∧ t.regs = s.regs
        ∧ ∀ (n i : Nat) (x : UEntry), (s.core n).scrQ[i]? = some x →
          (x.started = true ∧ x.fin = none ∧ s.ofColl r.dest r.rid x = true →
            ∃ (y : UEntry) (bar : Bool), s.collKey x = some (r.dest, r.rid, bar) ∧ (t.core n).scrQ[i]? = some y
              ∧ y.fin = some ⟨0x51, { nnz := collNnz k n bar }⟩)
          ∧ (¬ (x.started = true ∧ x.fin = none ∧ s.ofColl r.dest r.rid x = true) → (t.core n).scrQ[i]? = some x)

/-- SCR.BAR arrives with a release, is released with its last participant, and ends as the release reaches it (R417,
R428, R430, R436, R437, R441). What holds a release back after E2E_TMO (log entry 49), how long a mismatch goes on
(73) and SET_INVALID before reserved bits (83) are the model's choices. -/
def Obligations.BarriersAndTimeouts : Prop :=
  (∀ (s : State) (lc : Nat) (f : UnitF) (e : UEntry), AtFront s lc .scrim e → e.op = .scrBar f →
      let d := e.ds.headD 0
      let set := (s.descSet d).getD []
      let fields := fld (dword d 4) 0 8 = 0 ∧ fld (dword d 4) 14 50 = 0 ∧ dword d 5 = 0 ∧ dword d 6 = 0 ∧ dword d 7 = 0
      let ends (st : BitVec 8) := ∃ t, exec (.scrBar lc (.perform [])) s = .next t ∧ EndsWith s t lc .scrim st {}
        ∧ ScrimFrame lc lc s t ∧ t.mem = s.mem ∧ t.colls = s.colls
      (¬ fields → ends 0x44) ∧ (fields → lc ∉ set → ends 0x50)
        ∧ (fields → lc ∈ set →
          let root := set.headD 0
          let rid := fld (dword d 4) 8 6
          ((∀ k, s.coll root rid = some k → k.mismatch = false) →
            exec (.scrBar lc (.perform [])) s = .next (s.setEntry lc .scrim 0 { e with begun := true }))
          ∧ ∀ k, s.coll root rid = some k → k.mismatch = true →
            ∃ t, exec (.scrBar lc (.perform [])) s = .next t ∧ t.mem = s.mem ∧ t.colls = s.colls
              ∧ EndsWith s t lc .scrim 0x51 { nnz := collNnz k lc true }))
  ∧ (∀ (s : State) (lc : Nat) (f : UnitF) (e : UEntry) (rest : List UEntry) (k : Coll), OnItsWay s lc e rest →
      e.op = .scrBar f →
      let d := e.ds.headD 0
      let set := (s.descSet d).getD []
      let rid := fld (dword d 4) 8 6
      let all := ∀ n ∈ k.set, n ≠ lc → s.failed n = false ∧ n ∈ k.arrived
      s.scrimOpen (s.siteOf lc) (s.siteOf (set.headD 0)) = true → Reaches s lc (barColl set rid) k → k.released = false →
      let lost := setHas (s.core lc).lost (unitNum .scrim) = true ∨ e.lost = true
      (lost → ∃ t, exec (.barrierArrival lc) s = .next t ∧ t.mem = s.mem ∧ t.colls = s.colls
        ∧ EndsWith s t lc .scrim 0x42 { nnz := BitVec.ofNat 64 k.came })
      ∧ (¬ lost → ((∃ p ∈ (s.core lc).stores, p.id < e.storeMark) ∨ s.orphaned lc = true) →
        exec (.barrierArrival lc) s = .next s)
      ∧ (¬ lost → s.orphaned lc = false → (∀ p ∈ (s.core lc).stores, e.storeMark ≤ p.id) → (all ∨ ∃ n ∈ k.set, n ≠ lc ∧ s.failed n = false ∧ n ∉ k.arrived) →
        ∃ t e', exec (.barrierArrival lc) s = .next t ∧ ScrimFrame lc lc s t ∧ t.mem = s.mem ∧ t.poison = s.poison
          ∧ (t.core lc).scrQ = e' :: rest ∧ e'.fin = none ∧ e'.prog = 1
          ∧ ∃ k', t.coll (set.headD 0) rid = some k' ∧ k'.arrived = k.arrived ++ [lc] ∧ (k'.released = true ↔ all)))
  ∧ (∀ (s : State) (lc : Nat) (e : UEntry) (rest : List UEntry) (k : Coll),
      s.colls.find? (fun c => c.released && c.arrived.contains lc && !(c.terms.map fun t => t.1).contains lc) = some k →
      (s.core lc).scrQ = e :: rest → e.begun = true → e.fin = none → s.ofColl k.dest k.rid e = true →
      (s.windowOpen lc = true → exec (.barrierReleaseDelivered lc) s = .next s)
      ∧ (s.windowOpen lc = false → s.scrimOpen (s.siteOf k.dest) (s.siteOf lc) = true → s.clocked k.dest = true →
        s.clocked lc = true →
        ∃ t, exec (.barrierReleaseDelivered lc) s = .next t ∧ ScrimFrame lc lc s t ∧ t.mem = s.mem ∧ t.poison = s.poison
          ∧ EndsWith s t lc .scrim 0 { nnz := BitVec.ofNat 64 k.came }))
  ∧ ∀ (s : State) (lc dest rid : Nat) (bar : Bool) (e : UEntry) (rest : List UEntry), (s.core lc).scrQ = e :: rest →
      e.begun = true → e.fin = none → s.collKey e = some (dest, rid, bar) →
      let r := redOf (e.ds.headD 0)
      ∃ t, exec (.collTimeout lc) s = .next t ∧ ScrimFrame lc lc s t ∧ t.mem = s.mem
        ∧ EndsWith s t lc .scrim 0x52 { nnz := match s.coll dest rid with
          | some k => collNnz k lc bar
          | none => 0 }
        ∧ (bar = false ∧ lc = dest → ∀ j, j < r.len * r.size →
            t.poisoned (hawkKey (s.siteOf lc) (r.dst + j)) = true)
        ∧ (bar = true ∨ lc ≠ dest → t.poison = s.poison)

/-- SCR.FLAG operations on this device and toward another, accesses of other cores' hawks, the seam's wakes, link
parity (R410, R412, R414, R432, R435, R436, R437, R441, R446, R458, R546). That a write which E2E_TMO ended holds back
every later release of its core is the model's choice (log entry 49). -/
def Obligations.FlagsRemoteAccessesAndSeam : Prop :=
  (∀ (s : State) (lc op n o : Nat) (f : UnitF) (e : UEntry), AtFront s lc .scrim e → e.op = .scrFlag f →
      let d := e.ds.headD 0
      let a := fld (dword d 0) 0 44
      let rel := bitAt (dword d 2) 2
      let clean := fld (dword d 0) 56 7 = 0 ∧ fld (dword d 2) 3 61 = 0 ∧ ∀ w, 3 ≤ w → w < 8 → dword d w = 0
      let own := fld (dword d 0) 44 12 = if bitAt (dword d 0) 63 = true then s.devnum else 0
      clean → own → fld (dword d 2) 0 2 = op →
      (¬ (a % 8 = 0 ∧ ∃ m p, m < 144 ∧ p < 2 ^ 21 ∧ a = 0x10100000000 + m * 0x400000 + p) →
        ∃ t, exec (flagCmd op lc) s = .next t ∧ EndsWith s t lc .scrim 0x53 {} ∧ ScrimFrame lc lc s t ∧ t.mem = s.mem)
      ∧ (a = 0x10100000000 + n * 0x400000 + o → o < 2 ^ 21 → o % 8 = 0 → n < 144 → (s.inForce ≤ n ∨ s.failed n = true) →
        ∃ t, exec (flagCmd op lc) s = .next t ∧ EndsWith s t lc .scrim (if s.inForce ≤ n then 0x40 else 0x41) {}
          ∧ ScrimFrame lc lc s t ∧ t.mem = s.mem)
      ∧ (a = 0x10100000000 + n * 0x400000 + o → o < 2 ^ 21 → o % 8 = 0 → n < 144 → n < s.inForce → s.failed n = false →
        let lost := rel = true ∧ (setHas (s.core lc).lost (unitNum .scrim) = true ∨ e.lost = true)
        (lost → ∃ t, exec (flagCmd op lc) s = .next t ∧ EndsWith s t lc .scrim 0x42 {} ∧ t.mem = s.mem)
        ∧ (¬ lost → rel = true → ((∃ p ∈ (s.core lc).stores, p.id < e.storeMark) ∨ s.orphaned lc = true) →
          exec (flagCmd op lc) s = .next s)
        ∧ (¬ lost → (rel = true → (∀ p ∈ (s.core lc).stores, e.storeMark ≤ p.id) ∧ s.orphaned lc = false) →
            s.reaches lc (.hawk n 0) = true →
            ∃ t w, exec (flagCmd op lc) s = .next t ∧ ScrimFrame lc n s t ∧ t.colls = s.colls
              ∧ EndsWith s t lc .scrim 0 { nnz := 1 }
              ∧ FlagMeans op (s.word (hawkKey (s.siteOf n) o)) (dword d 1) w
              ∧ Stores s t (hawkKey (s.siteOf n) o) (leBytes 8 w.toNat))))
  ∧ (∀ (s : State) (lc op : Nat) (f : UnitF) (e : UEntry) (rest : List UEntry), AtFront s lc .scrim e → e.op = .scrFlag f →
      (s.core lc).scrQ = e :: rest →
      let d := e.ds.headD 0
      let dev := fld (dword d 0) 44 12
      let a := fld (dword d 0) 0 44
      let rel := bitAt (dword d 2) 2
      let clean := fld (dword d 0) 56 7 = 0 ∧ fld (dword d 2) 3 61 = 0 ∧ ∀ w, 3 ≤ w → w < 8 → dword d w = 0
      let there := s.rf .klkCtrl 0 1 = 1 ∧ devOk (s.reg .klkIdent) dev = true
      let word := ∃ m o, m < 144 ∧ o < 2 ^ 21 ∧ o % 8 = 0 ∧ a = 0x10100000000 + m * 0x400000 + o
      let ends (st : BitVec 8) := ∃ t, exec (flagCmd op lc) s = .next t ∧ EndsWith s t lc .scrim st {} ∧ ScrimFrame lc lc s t
        ∧ t.mem = s.mem
      clean → bitAt (dword d 0) 63 = true → dev ≠ s.devnum → fld (dword d 2) 0 2 = op →
      let lost := rel = true ∧ (setHas (s.core lc).lost (unitNum .scrim) = true ∨ e.lost = true)
      let free := rel = true → (∀ p ∈ (s.core lc).stores, e.storeMark ≤ p.id) ∧ s.orphaned lc = false
      let x := s.flow dev 0 (stripeOf a)
      (¬ there → ends 0x54) ∧ (there → ¬ word → ends 0x53) ∧ (there → word → lost → ends 0x42)
        ∧ (there → word → ¬ lost → ¬ free → exec (flagCmd op lc) s = .next s)
        ∧ (there → word → ¬ lost → free → s.portDown dev 0 a = true → ends 0x42)
        ∧ (there → word → ¬ lost → free → s.portDown dev 0 a = false →
          ∃ t e' u, exec (flagCmd op lc) s = .next t
            ∧ t = { s with cores := t.cores, tx := t.tx, ports := t.ports, regs := t.regs, out := t.out, free := t.free }
            ∧ (∀ k, k ≠ lc → t.core k = s.core k) ∧ (t.core lc).scrQ = e' :: rest ∧ e'.op = e.op ∧ e'.ds = e.ds
            ∧ e'.begun = true ∧ e'.fin = none ∧ e'.await = [awaitKey (flowKey dev 0 (stripeOf a)) x.next]
            ∧ (t.flow dev 0 (stripeOf a)).next = x.next + 1
            ∧ u ∈ (t.flow dev 0 (stripeOf a)).unacked ++ (t.flow dev 0 (stripeOf a)).held ∧ u.lc = lc
            ∧ u.unit = some .scrim ∧ u.pkt.op = 1 ∧ u.pkt.srcDev = BitVec.ofNat 12 s.devnum
            ∧ u.pkt.dstDev = BitVec.ofNat 12 dev ∧ u.pkt.fseq = BitVec.ofNat 32 x.next ∧ u.pkt.aux = dword d 1
            ∧ fld u.pkt.addr 0 44 = a ∧ fld u.pkt.addr 48 2 = op ∧ fld u.pkt.addr 63 1 = b2n rel ∧ u.pkt.data = []))
  ∧ (∀ (s : State) (lc n key idx : Nat) (p : PStore), (s.core lc).stores[idx]? = some p → n ≠ lc → n < 144 →
      s.resolve (some lc) p.addr = .hawk n key → (p.addr % 256) + p.bytes.length ≤ 256 →
      s.reaches lc (.hawk n key) = true → s.storeBlocked lc p.id p.addr p.bytes.length = false →
      (s.core lc).stall = .none →
      ∃ t, exec (.hawkRemoteWrite lc ⟨idx, []⟩) s = .next t ∧ Stores s t key p.bytes
        ∧ (t.core lc).stores = (s.core lc).stores.eraseIdx idx ∧ (t.core lc).x = (s.core lc).x
        ∧ (t.core lc).pc = (s.core lc).pc ∧ (∀ k, k ≠ lc → t.core k = { s.core k with waitf := (t.core k).waitf })
        ∧ ∀ a, ¬ CountAddr lc a → ¬ CountAddr n a → a ≠ Reg.scrSeam.addr → mapGet? t.regs a = mapGet? s.regs a)
  ∧ (∀ (s : State) (lc n key idx : Nat) (l : Load), (s.core lc).loads[idx]? = some l → l.data = none → n ≠ lc →
      s.resolve (some lc) l.addr = .hawk n key → (l.addr % 256) + l.dst.size ≤ 256 → s.loadBlocked lc idx l = false →
      s.reaches lc (.hawk n key) = true →
      ∃ t, exec (.hawkRemoteReadRequest lc idx []) s = .next t ∧ t.mem = s.mem ∧ t.poison = s.poison
        ∧ (let l' := { l with data := some (memGets s.mem key l.dst.size, s.runPoisoned key l.dst.size) }
          t.core lc = { s.core lc with loads := (s.core lc).loads.set idx l' })
        ∧ (∀ k, k ≠ lc → t.core k = s.core k)
        ∧ ∀ a, ¬ CountAddr lc a → ¬ CountAddr n a → a ≠ Reg.scrSeam.addr → mapGet? t.regs a = mapGet? s.regs a)
  ∧ (∀ (s : State) (h : Half), ((s.half h).routers = false ∨ (s.half h).stopped = true) → (s.half h).waiting = false →
      ∃ t, exec (.seamRouterWake h) s = .next t
        ∧ t = { s with west := t.west, east := t.east, regs := t.regs, free := t.free }
        ∧ t.half h = { s.half h with waiting := true } ∧ (∀ g, g ≠ h → t.half g = s.half g)
        ∧ (∀ a, a ≠ Reg.scrSeam.addr → mapGet? t.regs a = mapGet? s.regs a)
        ∧ t.rf .scrSeam 32 32 = min (s.rf .scrSeam 32 32 + 1) (2 ^ 32 - 1) ∧ t.rf .scrSeam (waitBit h) 1 = 1)
  ∧ (∀ (s : State) (h : Half), (s.half h).waiting = true → (s.half h).stopped = false →
      ∃ t, exec (.seamRouterWakeComplete h) s = .next t ∧ t = { s with west := t.west, east := t.east, regs := t.regs }
        ∧ t.half h = { s.half h with routers := true, waiting := false } ∧ (∀ g, g ≠ h → t.half g = s.half g)
        ∧ (∀ a, a ≠ Reg.scrSeam.addr → mapGet? t.regs a = mapGet? s.regs a)
        ∧ t.rf .scrSeam 32 32 = s.rf .scrSeam 32 32 ∧ t.rf .scrSeam (waitBit h) 1 = 0)
  ∧ ∀ (s : State) (site : Nat) (lower : Bool) (c : Carried), site < 168 →
      (∃ t, exec (.scrimLinkParityError site lower false c) s = .next t ∧ t.mem = s.mem ∧ t.poison = s.poison
        ∧ t.cores = s.cores)
      ∧ ∃ t, exec (.scrimLinkParityError site lower true c) s = .next t ∧ (s.rcMib = 0 → t.mem = s.mem)
        ∧ t.hasSnag 0xA (BitVec.ofNat 64 (site * 256 + b2n lower * 2 ^ 16)) = true
        ∧ ∀ b n k, b < min c.len 256 → s.resolve none (c.addr + b) = .hawk n k → t.poisoned k = true

/-- The link layer: frames accepted or discarded with one NAK, replays, credits, failed ports (R448, R449, R451, R452,
R453, R454, R456, R461, R482, R483, R484). -/
def Obligations.KeritFrames : Prop :=
  (∀ (s : State) (port : Nat) (f : Frame) (c : Instr), s.carries port = true → FrameCmd port f c →
      let x := s.port port
      let good := f.marked = false ∧ f.crc = Frame.crcOf f
      let counts (t : State) (bad : Nat) : Prop :=
        t.rf (.klkCounts port) 0 16 = min (s.rf (.klkCounts port) 0 16 + bad) 65535
          ∧ t.rf (.klkCounts port) 16 16 = min (s.rf (.klkCounts port) 16 16 + f.words) 65535
          ∧ t.rf (.klkStatus port) 32 8 = f.margin.toNat ∧ t.rf (.klkStatus port) 4 1 = b2n (decide (f.margin.toNat < 20))
      (¬ good → ∃ t, exec c s = .next t ∧ t.mem = s.mem ∧ t.cores = s.cores ∧ Naks s t port ∧ counts t 1)
      ∧ (good → f.pseq ≠ x.expect → ∃ t, exec c s = .next t ∧ t.mem = s.mem ∧ t.cores = s.cores ∧ Naks s t port
        ∧ counts t 0))
  ∧ (∀ (s : State) (port : Nat) (f : Frame), s.carries port = true → f.typ = 1 → f.flit.length = 256 →
      let x := s.port port
      f.marked = false → f.crc = Frame.crcOf f → f.pseq = x.expect →
      (∃ t, exec (.dataFrame port f) s = .next t ∧ t.mem = s.mem ∧ t.cores = s.cores
        ∧ (t.port port).expect = x.expect + 1 ∧ (t.port port).nakSent = false
        ∧ (f.vc ≠ 2 → x.sendQ = [] → s.noneHeld → ∃ g, t.out = Out.frames port [g] :: s.out ∧ g.typ = 0 ∧ g.ack = f.pseq
          ∧ g.crc = Frame.crcOf g)
        ∧ (f.eop = false → (t.port port).arrived = x.arrived)
        ∧ (let p := packetOf f.flit
          f.sop = true → f.eop = true → f.vc = 0 → Packet.okForm p = true → p.op.toNat < 3 → 32 + p.data.length ≤ 256 →
            (t.port port).arrived = x.arrived ++ [p])
        ∧ (let p := packetOf f.flit
          let key := flowKey p.srcDev.toNat 2 p.stripe.toNat
          let old := mapGet s.rx key ⟨0, 0⟩
          f.sop = true → f.eop = true → f.vc = 2 → Packet.okForm p = true → p.op = 0 → 32 + p.data.length ≤ 256 →
            p.dstDev.toNat = s.devnum →
            (t.port port).arrived = x.arrived ∧ (∀ k, k ≠ key → mapGet? t.rx k = mapGet? s.rx k)
              ∧ mapGet t.rx key ⟨0, 0⟩ = (if p.fseq.toNat = (if old.epoch = p.epoch then old.expect else 0)
                then ⟨p.epoch, p.fseq.toNat + 1⟩ else old))))
  ∧ (∀ (s : State) (port want i : Nat) (f : Frame), s.carries port = true → f.typ = 2 → f.marked = false →
      f.crc = Frame.crcOf f → f.pseq = (s.port port).expect → (∀ g ∈ (s.port port).replay, g.pseq ≠ f.ack) →
      (s.port port).replay.findIdx? (fun g => g.pseq.toNat == want) = some i →
      (if i = 0 then (s.port port).replays + 1 else (s.port port).replays) < s.rf .klkCfg 24 8 →
      ∃ t fs, exec (.nakFrame port f want) s = .next t ∧ t.mem = s.mem ∧ t.cores = s.cores
        ∧ Out.frames port fs ∈ t.out
        ∧ fs.map (fun g => (g.pseq, g.flit)) = ((s.port port).replay.drop i).map (fun g => (g.pseq, g.flit))
        ∧ t.rf (.klkCounts port) 48 16 = min (s.rf (.klkCounts port) 48 16 + 1) 65535)
  ∧ (∀ (s : State) (port i : Nat) (f : Frame) (eq : Option (List (BitVec 8))), port < 16 → s.portState port = 2 →
      f.typ = 0 → f.marked = false → f.crc = Frame.crcOf f → f.pseq = (s.port port).expect → (s.port port).sendQ = [] →
      s.noneHeld → (s.port port).replay.findIdx? (fun g => g.pseq == f.ack) = some i →
      ∃ t, exec (.idleFrame port f eq) s = .next t
        ∧ t = { s with ports := t.ports, regs := t.regs, tx := t.tx } ∧ (∀ k, k ≠ port → t.port k = s.port k)
        ∧ (∀ a, a ≠ (Reg.klkStatus port).addr → a ≠ (Reg.klkCounts port).addr → mapGet? t.regs a = mapGet? s.regs a)
        ∧ t.port port = { s.port port with
            coef := (match eq with
              | some c => if s.rf .klkIdent 45 1 = 0 ∧ port ≠ 15 then c else (s.port port).coef
              | none => (s.port port).coef)
            replay := (s.port port).replay.drop (i + 1), replays := 0
            credReq := (s.port port).credReq + f.credReq.toNat, credRsp := (s.port port).credRsp + f.credRsp.toNat
            credMgt := (s.port port).credMgt + f.credMgt.toNat })
  ∧ (∀ (s : State) (port : Nat), s.carries port = true → (s.port port).replay ≠ [] →
      ∃ t, exec (.ackTimeoutReplay port) s = .next t ∧ t.mem = s.mem ∧ t.cores = s.cores
        ∧ ((s.port port).replays + 1 < s.rf .klkCfg 24 8 →
          (t.port port).replays = (s.port port).replays + 1 ∧ t.portState port = 2
            ∧ ∃ fs, t.out = Out.frames port fs :: s.out
              ∧ fs.map (fun g => (g.pseq, g.flit)) = (s.port port).replay.map fun g => (g.pseq, g.flit))
        ∧ (s.rf .klkCfg 24 8 ≤ (s.port port).replays + 1 → t.portState port = 3 ∧ (t.port port).replay = []
          ∧ t.hasSnag 9 (locPort port 0 true) = true))
  ∧ ∀ (s : State) (port : Nat), port < 16 → s.portState port = 2 →
      ∃ t, exec (.codewordLockLoss port) s = .next t ∧ t.mem = s.mem ∧ t.cores = s.cores ∧ t.portState port = 3
        ∧ (t.port port).replay = [] ∧ (t.port port).sendQ = [] ∧ t.hasSnag 9 (locPort port 0 true) = true

/-- Ports train to UP by lanes, cable rule and identity; coefficients, QUIET, KLK_CTRL (R447, R454, R455, R456, R458,
R466, R480, R481, R482, R483, R564). That too few lanes leave a port FAILED, which may train again (log entry 47),
that MARGINAL follows MARGIN and LANES shows every trained lane (50), and what of training a start does (128), are the
model's choices. -/
def Obligations.KeritTraining : Prop :=
  (∀ (s : State) (port : Nat) (tr : Training), port < 16 → (s.portState port = 1 ∨ s.portState port = 3) →
      s.rf .klkCfg (32 + port) 1 = 1 → s.portGone port = false →
      let live := tr.lanes &&& s.portGood port
      let lanes : Nat := if live = 0xFF then 0xFF else if live.toNat % 16 = 15 then 0x0F
        else if live.toNat / 16 = 15 then 0xF0 else 0
      let p := s.rf .klkIdent 24 5
      let m := p - 1
      let me := s.rf .klkIdent 0 12
      let cabled := s.rf .klkIdent 45 1 = 1 ∨ port = 15 ∨ port < 15 / m * m
        ∧ tr.peerDev.toNat = me / 16 * 16 + (me % 16 + port % m + 1) % p
        ∧ tr.peerPort.toNat = port / m * m + (p - 2 - port % m)
      let same := (s.port port).peer = none ∨ (s.port port).peer = some (tr.peerDev, tr.peerPort)
      2 ≤ p →
      ∃ t, exec (.portTrainingComplete port tr) s = .next t ∧ t.mem = s.mem ∧ t.cores = s.cores
        ∧ (∀ k, k ≠ port → t.port k = s.port k)
        ∧ t.rf (.klkStatus port) 16 8 = live.toNat
        ∧ (lanes ≠ 0 → cabled → same → t.portState port = 2
          ∧ t.rf (.klkStatus port) 52 12 = tr.peerDev.toNat ∧ t.rf (.klkStatus port) 48 4 = tr.peerPort.toNat
          ∧ t.rf (.klkStatus port) 32 8 = tr.margin.toNat
          ∧ t.rf (.klkStatus port) 4 1 = b2n (decide (tr.margin.toNat < 20))
          ∧ (live = s.portGood port → ∀ a, a ≠ (Reg.klkStatus port).addr → mapGet? t.regs a = mapGet? s.regs a)
          ∧ (t.port port).peer = some (tr.peerDev, tr.peerPort) ∧ (t.port port).nextSeq = 0 ∧ (t.port port).expect = 0
          ∧ (t.port port).credReq = 512 ∧ (t.port port).credRsp = 512 ∧ (t.port port).credMgt = 64
          ∧ (t.port port).replay = [] ∧ (t.port port).arrived = (s.port port).arrived)
        ∧ ((lanes = 0 ∨ ¬ cabled ∨ ¬ same) → t.portState port = 3)
        ∧ ((lanes = 0 ∨ ¬ same) → t.hasSnag 9 (locPort port 0 true) = true)
        ∧ (lanes ≠ 0 → ∀ i, i < 8 → (s.portGood port).getLsbD i = true → tr.lanes.getLsbD i = false →
          t.hasSnag 9 (locPort port i false) = true))
  ∧ (∀ (s : State) (port : Nat) (tr : Training), s.portGone port = true →
      exec (.portTrainingComplete port tr) s = .next s)
  ∧ (∀ (s : State) (port : Nat) (w : Word), port < 16 → s.loaded = true → s.sec.recovery = false →
      s.rf .klkCtrl 16 1 = 0 →
      ∃ t, exec (.registerWrite .host (Reg.addr .klkCfg) (leBytes 8 w.toNat)) s = .next t
        ∧ t = { s with regs := t.regs, ports := t.ports }
        ∧ (bitAt w (32 + port) = false → t.portState port = 0
          ∧ (s.portState port ≠ 0 → (t.port port).sendQ = [] ∧ (t.port port).replay = []))
        ∧ (bitAt w (32 + port) = true →
          t.portState port = (if s.portState port = 0 ∧ s.portGone port = false then 1 else s.portState port)
          ∧ t.port port = s.port port))
  ∧ (∀ (s : State) (port : Nat), port < 16 → s.portState port = 1 →
      (s.rf .klkCfg (32 + port) 1 = 1 → exec (.portRetrainRetry port) s = .next s)
      ∧ (s.rf .klkCfg (32 + port) 1 = 0 →
        exec (.portRetrainRetry port) s = .next (s.setReg (.klkStatus port) 0)))
  ∧ (∀ (s : State) (port : Nat) (coef : List (BitVec 8)) (d : BitVec 12) (q : BitVec 4), port < 16 →
      s.portState port = 2 → (s.port port).peer = some (d, q) →
      ∃ t, exec (.keritCoefficientStore port coef) s = .next t ∧ t = { s with ports := t.ports, flash := t.flash }
        ∧ mapGet t.flash.coef port [] = coef ∧ mapGet? t.flash.coefPeer port = some (peerCode d q)
        ∧ (t.port port).coef = coef ∧ t.flash.snag = s.flash.snag)
  ∧ (∀ (s : State) (w : Word), s.sec.recovery = false → s.rf .klkCtrl 0 1 = 0 →
      let ident := s.reg .klkIdent
      let dev := fld ident 0 12
      let valid := dev < fld ident 32 13 ∧ (fld ident 45 1 = 1 ∨ dev % 16 < fld ident 24 5)
      ∃ t, exec (.klkCtrlEn .host w) s = .next t ∧ t = { s with regs := t.regs }
        ∧ (∀ a, a ≠ Reg.klkCtrl.addr → mapGet? t.regs a = mapGet? s.regs a)
        ∧ t.rf .klkCtrl 16 1 = s.rf .klkCtrl 16 1
        ∧ (t.rf .klkCtrl 0 1 = 1 ↔ bitAt w 0 = true ∧ s.rf .mcStart 8 1 = 1 ∧ s.rf .pwrState 12 1 = 0 ∧ valid))
  ∧ (∀ s : State, s.rf .klkCtrl 0 1 = 1 → s.rf .klkCtrl 16 1 = 0 →
      ∃ t, exec .klkLockSet s = .next t ∧ t.mem = s.mem ∧ t.cores = s.cores ∧ t.rf .klkCtrl 16 1 = 1
        ∧ t.flash.ident = s.reg .klkIdent ∧ t.tx = s.tx
        ∧ ∀ a, a ≠ Reg.klkCtrl.addr → ¬ LathCountAddr a → mapGet? t.regs a = mapGet? s.regs a)
  ∧ (∀ (s : State) (port : Nat), port < 16 → s.portState port = 2 → s.rf (.klkStatus port) 16 8 = 0xFF →
      (s.port port).sendQ = [] → (s.port port).replay = [] → (s.port port).quiet = false →
      (s.rf .finish 4 2 ≠ 2 →
        exec (.quietEntry port) s = .next (s.setPort port { s.port port with quiet := true }))
      ∧ (s.rf .finish 4 2 = 2 → exec (.quietEntry port) s = .next s))
  ∧ (∀ (s : State) (port : Nat), port < 16 → (s.port port).quiet = true → (s.port port).waking = false →
      (s.port port).sendQ ≠ [] →
      exec (.quietExit port) s = .next (s.setPort port { s.port port with waking := true }))
  ∧ ∀ (s : State) (port : Nat), (s.port port).quiet = true → (s.port port).waking = true →
      exec (.fullWidthResume port) s = .next (s.setPort port { s.port port with quiet := false, waking := false })

/-- PUT, FLAG and READ at their target in flow order, PACK and READ_DATA at their source (R450, R459, R461, R464,
R465). Which packet a PACK's status belongs to is the model's choice (log entry 48). -/
def Obligations.RemotePackets : Prop :=
  (∀ (s : State) (port n key : Nat) (p : Packet) (ps : List Packet), Arrived s port p ps → p.op = 0 →
      bitAt p.aux 63 = false → s.resolve none (fld p.addr 0 44) = .hawk n key →
      (s.rxEntry p = ⟨p.epoch, p.fseq.toNat⟩ →
        (HawkOpen s n .up → ∃ t, exec (.put ⟨port, []⟩) s = .next t ∧ Stores s t key p.data ∧ Answers t p 4 0 []
          ∧ OnlyWaitf s t ∧ t.rxEntry p = ⟨p.epoch, p.fseq.toNat + 1⟩ ∧ (t.port port).arrived = ps)
        ∧ (s.siteWindow (s.siteOf n) = true ∨ s.clocked n = false → exec (.put ⟨port, []⟩) s = .next s))
      ∧ ((s.rxEntry p).epoch = p.epoch → p.fseq.toNat < (s.rxEntry p).expect →
        ∃ t, exec (.put ⟨port, []⟩) s = .next t ∧ t.mem = s.mem ∧ t.cores = s.cores ∧ Answers t p 4 0 [] ∧ t.rx = s.rx
          ∧ (t.port port).arrived = ps)
      ∧ ((s.rxEntry p).epoch = p.epoch → (s.rxEntry p).expect < p.fseq.toNat →
        ∃ t, exec (.put ⟨port, []⟩) s = .next t
          ∧ t = { s with ports := t.ports, out := t.out, free := t.free, regs := t.regs } ∧ LathFrame s t
          ∧ (t.port port).arrived = ps))
  ∧ (∀ (s : State) (port : Nat) (p : Packet) (ps : List Packet), Arrived s port p ps → p.op = 0 →
      s.rxEntry p = ⟨p.epoch, p.fseq.toNat⟩ → s.resolve none (fld p.addr 0 44) = .unmapped →
      ∃ t, exec (.put ⟨port, []⟩) s = .next t ∧ t.mem = s.mem ∧ t.cores = s.cores ∧ Answers t p 4 0x40 []
        ∧ t.rxEntry p = ⟨p.epoch, p.fseq.toNat + 1⟩)
  ∧ (∀ (s : State) (port n key : Nat) (p : Packet) (ps : List Packet), Arrived s port p ps → p.op = 1 →
      s.rxEntry p = ⟨p.epoch, p.fseq.toNat⟩ → s.resolve none (fld p.addr 0 44) = .hawk n key →
      HawkOpen s n .up →
      ∃ t w, exec (.flag ⟨port, []⟩) s = .next t ∧ FlagMeans (fld p.addr 48 2) (s.word key) p.aux w
        ∧ Stores s t key (leBytes 8 w.toNat) ∧ Answers t p 4 0 [] ∧ OnlyWaitf s t
        ∧ t.rxEntry p = ⟨p.epoch, p.fseq.toNat + 1⟩ ∧ (t.port port).arrived = ps)
  ∧ (∀ (s : State) (port n key : Nat) (p : Packet) (ps : List Packet), Arrived s port p ps → p.op = 2 →
      s.rxEntry p = ⟨p.epoch, p.fseq.toNat⟩ → s.resolve none (fld p.addr 0 44) = .hawk n key →
      HawkOpen s n .down → (∀ k, key ≤ k → k < key + p.len → s.runPoisoned (k / 64 * 64) 64 = false) →
      ∃ t, exec (.read port []) s = .next t ∧ t.mem = s.mem ∧ t.cores = s.cores
        ∧ Answers t p 3 0 (memGets s.mem key p.len) ∧ t.rxEntry p = ⟨p.epoch, p.fseq.toNat + 1⟩)
  ∧ (∀ (s : State) (port : Nat) (p : Packet) (ps : List Packet) (f : TxFlow) (u : Unacked) (g : UnitF) (e : UEntry)
      (rest : List UEntry), Arrived s port p ps → p.op = 4 → s.rxEntry p = ⟨p.epoch, p.fseq.toNat⟩ → s.noneHeld →
      let key := flowKey p.srcDev.toNat 0 p.stripe.toNat
      let n := fld p.aux 0 32
      fld p.aux 32 8 = 0 → mapGet? s.tx key = some f → f.unacked = [u] → u.pkt.op ≠ 2 → u.pkt.fseq.toNat = n →
      u.unit = some .scrim → (s.core u.lc).scrQ = e :: rest → e.op = .scrFlag g → e.begun = true → e.fin = none →
      e.worst = none → e.await = [awaitKey key n] → (s.core u.lc).stall = .none →
      ∃ t, exec (.pack port) s = .next t ∧ t.mem = s.mem ∧ LathFrame s t
        ∧ EndsWith s t u.lc .scrim 0 { nnz := 1 } ∧ mapGet? t.tx key = some { f with unacked := [] }
        ∧ (∀ k, k ≠ u.lc → t.core k = s.core k) ∧ t.core u.lc = (s.core u.lc).setQ .scrim ((t.core u.lc).scrQ))
  ∧ ∀ (s : State) (port : Nat) (p : Packet) (ps : List Packet) (f : TxFlow) (u : Unacked) (g : UnitF) (e : UEntry)
      (rest : List UEntry) (more : List Nat), Arrived s port p ps → p.op = 3 → s.rxEntry p = ⟨p.epoch, p.fseq.toNat⟩ →
      s.noneHeld →
      let key := flowKey p.srcDev.toNat 0 p.stripe.toNat
      let n := fld p.aux 0 32
      fld p.aux 32 8 = 0 → bitAt p.aux 63 = false → p.len = u.pkt.len →
      mapGet? s.tx key = some f → f.unacked = [u] → u.pkt.op = 2 → u.pkt.fseq.toNat = n → u.unit = some .mover →
      (s.core u.lc).movQ = e :: rest → e.op = .movBlk g → e.started = true → e.begun = true → e.fin = none →
      e.await = awaitKey key n :: more → more ≠ [] → awaitKey key n ∉ more → (s.core u.lc).stall = .none →
      ∃ t e', exec (.readData port) s = .next t ∧ t.mem = s.mem ∧ LathFrame s t
        ∧ (t.core u.lc).movQ = e' :: rest ∧ e'.await = more ∧ e'.fin = none
        ∧ (∀ j, j < u.pkt.len → mapGet e'.buf (bufKey (u.dst + j) false false) 0 = p.data.getD j 0)
        ∧ mapGet? t.tx key = some { f with unacked := [] } ∧ (∀ k, k ≠ u.lc → t.core k = s.core k)
        ∧ t.core u.lc = (s.core u.lc).setQ .mover ((t.core u.lc).movQ)

/-- A flow leaves a failed port for the next one that is UP, returns home; unreachable flows; firmware broadcast
(R469, R470, R472, R473, R474, R479). That dropped packets are not renumbered (log entry 49), what a member does with
an image while its own command runs (78) and the messages of channel MGT (106) are the model's choices. -/
def Obligations.KeritFailoverAndBroadcast : Prop :=
  (∀ (s : State) (flow : Nat) (f : TxFlow), mapGet? s.tx flow = some f → s.rf .klkIdent 45 1 = 1 →
      s.portState f.port = 3 → f.port < 16 →
      let ok (p : Nat) : Prop := s.portState p = 2 ∧ setHas f.failed p = false
      (∀ k, 1 ≤ k → k < 16 → ok ((f.port + k) % 16) → (∀ j, 1 ≤ j → j < k → ¬ ok ((f.port + j) % 16)) →
        let p := (f.port + k) % 16
        ∃ t g, exec (.flowFailover flow) s = .next t ∧ t.mem = s.mem ∧ t.cores = s.cores
          ∧ mapGet? t.tx flow = some g ∧ g.port = p ∧ g.unacked = f.unacked ∧ g.next = f.next
          ∧ setHas g.failed f.port = true
          ∧ (∀ u ∈ f.unacked, ∀ x ∈ packetFrames u.pkt f.vc, ∃ y ∈ (t.port p).replay ++ (t.port p).sendQ,
              y.flit = x.flit ∧ y.sop = x.sop ∧ y.eop = x.eop)
          ∧ t.rf (.klkCounts f.port) 32 16 = min (s.rf (.klkCounts f.port) 32 16 + 1) 65535)
      ∧ ((∀ p, p < 16 → p ≠ f.port → ¬ ok p) →
        ∀ (u : Unacked) (g : UnitF) (e : UEntry) (rest : List UEntry), f.unacked = [u] → f.held = [] →
          (∀ x ∈ s.tx, x.1 ≠ flow → x.2.port ≠ f.port) → u.unit = some .scrim →
          (s.core u.lc).scrQ = e :: rest → e.op = .scrFlag g → e.begun = true → e.fin = none → e.worst = none →
          e.await = [awaitKey flow u.pkt.fseq.toNat] → (s.core u.lc).stall = .none →
          ∃ t, exec (.flowFailover flow) s = .next t ∧ t.mem = s.mem ∧ t.portState f.port = 4
            ∧ EndsWith s t u.lc .scrim 0x42 {}))
  ∧ (∀ (s : State) (flow : Nat) (f : TxFlow), mapGet? s.tx flow = some f → s.rf .klkIdent 45 1 = 1 →
      f.port ≠ f.stripe → s.portState f.stripe = 2 → f.unacked = [] →
      ∃ t, exec (.flowReturnHome flow) s = .next t ∧ t = { s with tx := t.tx }
        ∧ mapGet? t.tx flow = some { f with port := f.stripe, relay := none, failed := [] }
        ∧ ∀ k, k ≠ flow → mapGet? t.tx k = mapGet? s.tx k)
  ∧ (∀ (s : State) (lc flow : Nat) (unit : UnitId) (f : TxFlow) (u : Unacked) (g : UnitF) (e : UEntry)
      (rest : List UEntry), (flow, f) ∈ s.tx → s.portState f.port = 2 → u ∈ f.unacked → u.lc = lc → u.unit = some unit →
      flow < 2 ^ 20 → (s.core lc).q unit = e :: rest → e.started = true → e.begun = true → e.fin = none →
      e.worst = none → e.poi = false → e.await = [awaitKey flow u.pkt.fseq.toNat] →
      (unit = .scrim → e.op = .scrFlag g →
        ∃ t, exec (.e2eTimeout lc .scrim) s = .next t ∧ t.mem = s.mem ∧ t.regs = s.regs ∧ t.tx = s.tx
          ∧ EndsWith s t lc .scrim 0x55 {} ∧ ∀ k, k ≠ lc → t.core k = s.core k)
      ∧ (unit = .mover → e.op = .movBlk g → e.prog = 2 →
        ∃ t v, exec (.e2eTimeout lc .mover) s = .next t ∧ t.mem = s.mem ∧ t.regs = s.regs ∧ t.tx = s.tx
          ∧ EndsWith s t lc .mover 0x52 v ∧ ∀ k, k ≠ lc → t.core k = s.core k))
  ∧ (∀ (s : State) (pos : Nat) (image : List (BitVec 8)), s.rf .klkIdent 45 1 = 0 → s.rf .klkIdent 0 4 ≠ 0 →
      s.sec.fwCmd = none →
      (∀ m, pos ≠ 0 → exec (.mgtImageReceive pos m) s = .next s)
      ∧ (pos = 0 → imageCheck s.otp image = 1 →
        ∃ t, exec (.mgtImageReceive pos (.image image)) s = .next t ∧ ReportsToLead s t true ∧ t.otp = s.otp
          ∧ (if s.sec.activeB then t.sec.bankA = ⟨image, true⟩ ∧ t.sec.bankB = s.sec.bankB
            else t.sec.bankB = ⟨image, true⟩ ∧ t.sec.bankA = s.sec.bankA) ∧ t.sec.activeB = s.sec.activeB)
      ∧ (pos = 0 → imageCheck s.otp image ≠ 1 →
        ∃ t, exec (.mgtImageReceive pos (.image image)) s = .next t ∧ ReportsToLead s t false ∧ t.otp = s.otp
          ∧ t.sec = s.sec))
  ∧ (∀ (s : State) (cmd chunk : Nat) (bytes : List (BitVec 8)) (flashOk : Bool), s.rf .klkIdent 45 1 = 0 →
      s.rf .klkIdent 0 4 ≠ 0 →
      let mine (t : State) : FwBank := t.sec.bank (!s.sec.activeB)
      (s.sec.fwCmd ≠ none → ∃ t, exec (.mgtImageReceive 0 (.command cmd chunk bytes flashOk)) s = .next t
        ∧ ReportsToLead s t false ∧ t.sec = s.sec ∧ t.otp = s.otp)
      ∧ (s.sec.fwCmd = none →
        ∃ t ok, exec (.mgtImageReceive 0 (.command cmd chunk bytes flashOk)) s = .next t ∧ ReportsToLead s t ok
          ∧ t.sec.img = s.sec.img ∧ t.sec.fwCmd = none ∧ t.sec.bank s.sec.activeB = s.sec.bank s.sec.activeB
          ∧ (cmd ≠ 4 → t.sec.activeB = s.sec.activeB) ∧ (cmd ≠ 5 → t.otp = s.otp)
          ∧ (cmd = 1 → (ok = true ↔ flashOk = true) ∧ (mine t).valid = false ∧ (flashOk = true → (mine t).image = []))
          ∧ (cmd = 2 → (ok = true ↔ 1 ≤ s.sec.fwStep ∧ flashOk = true)
            ∧ (ok = true → ∀ j, j < 65536 → (mine t).image.getD (chunk * 65536 + j) 0 = (bytes.take 65536).getD j 0))
          ∧ (cmd = 3 → (ok = true ↔ s.sec.fwStep = 2 ∧ flashOk = true ∧ imageCheck s.otp (mine s).image = 1)
            ∧ (ok = true → (mine t).valid = true ∧ (mine t).image = (mine s).image))
          ∧ (cmd = 4 → (ok = true ↔ (mine s).valid = true ∧ imageCheck s.otp (mine s).image = 1 ∧ flashOk = true)
            ∧ (ok = true → t.sec.activeB = !s.sec.activeB) ∧ (ok = false → t.sec.activeB = s.sec.activeB))
          ∧ (cmd = 5 → s.sec.recovery = false → ok = true ∧ t.otp = { s.otp with rollback := max s.otp.rollback s.sec.runSvn })
          ∧ (cmd = 6 → ok = true ∧ (mine t).valid = false)))
  ∧ ∀ (s : State) (pos : Nat), 1 ≤ pos → pos < 16 → setHas s.sec.mgtPend pos = true →
      (∀ ok, ∃ t, exec (.memberReport pos ok) s = .next t ∧ t = { s with sec := t.sec, regs := t.regs }
        ∧ t.rf .fwStatus (48 + pos) 1 = b2n ok ∧ setHas t.sec.mgtPend pos = false
        ∧ ∀ a, a ≠ Reg.fwStatus.addr → mapGet? t.regs a = mapGet? s.regs a)
      ∧ ∃ t, exec (.memberReportTimeout pos) s = .next t ∧ t = { s with sec := t.sec }
        ∧ setHas t.sec.mgtPend pos = false

/-- BAR reads and writes of hawks, render memory and registers, failed cores, closed BARs; register writes (R4, R5,
R10, R487, R488, R489, R490, R513, R545). What a host access meets at a render controller in reset (log entry 29), and
that an access wakes what sleeps (58), are the model's choices. -/
def Obligations.HostReadsAndWrites : Prop :=
  (∀ (s : State) (off len n k : Nat), s.barsOpen = true → 2 ^ 31 ≤ off → off < 2 ^ 32 → 0 < len → off % 64 + len ≤ 64 →
      s.resolve none (0x10100000000 + (off - 2 ^ 31)) = .hawk n k → ChannelFree s (s.siteOf n) .down →
      ∃ t, exec (.barRead 4 off len []) s = .next t ∧ t.mem = s.mem ∧ t.poison = s.poison ∧ t.cores = s.cores
        ∧ setHas t.power.pgated n = false ∧ (s.rf .pwrState 12 1 = 0 → t.halfOff (halfOf (s.siteOf n)) = false)
        ∧ (s.runPoisoned (k / 64 * 64) 64 = false → t.out = Out.readData 4 off (memGets s.mem k len) false :: s.out
          ∧ (s.accepts n = true → t = { s with regs := t.regs, out := t.out, vcs := t.vcs } ∧ LathFrame s t))
        ∧ (s.runPoisoned (k / 64 * 64) 64 = true → t.rf .errStatus 5 1 = 1
          ∧ t.out.head? = some (Out.readData 4 off (memGets s.mem k len) true)))
  ∧ (∀ (s : State) (off len k : Nat), s.barsOpen = true → off < 2 ^ 31 → 0 < len → off % 64 + len ≤ 64 →
      s.resolve none (0x10000000000 + off) = .hod k →
      (∀ bad, s.runPoisoned (k / 64 * 64) 64 = bad →
        ∃ t, exec (.barRead 4 off len []) s = .next t ∧ t.mem = s.mem ∧ t.poison = s.poison ∧ t.cores = s.cores
          ∧ t.out.head? = some (Out.readData 4 off (memGets s.mem k len) bad)
          ∧ (bad = false → t = { s with regs := t.regs, out := t.out, power := t.power } ∧ LathFrame s t)
          ∧ (bad = true → t.rf .errStatus 5 1 = 1))
      ∧ ∀ bs : List Byte, bs.length = len →
        ∃ t, exec (.barWrite 4 off (bs.map some) ⟨false, []⟩) s = .next t ∧ Stores s t k bs ∧ t.cores = s.cores
          ∧ t = { s with mem := t.mem, poison := t.poison, regs := t.regs, power := t.power } ∧ LathFrame s t)
  ∧ (∀ (s : State) (off len : Nat), s.barsOpen = true → s.rcMib = 0 → off < s.bar2Size → 0 < len → off % 64 + len ≤ 64 →
      let p := ilvToPlumb (s.rf .pciBar2 0 39 / s.bar2Size * s.bar2Size + off)
      s.rf (.rndCh (chanOf p)) 0 1 = 0 → s.bankHeld p = false →
      (s.poisoned p = false →
        ∃ t, exec (.barRead 2 off len []) s = .next t
          ∧ t = { s with regs := t.regs, out := t.out, rows := t.rows, power := t.power, rollers := t.rollers }
          ∧ (s.rf .pwrState 11 1 = 0 → t.power = s.power) ∧ LathFrame s t ∧ t.out = Out.readData 2 off (memGets s.mem p len) false :: s.out)
      ∧ ∀ bs : List Byte, bs.length = len →
        ∃ t, exec (.barWrite 2 off (bs.map some) ⟨false, []⟩) s = .next t ∧ Stores s t p bs ∧ t.cores = s.cores
          ∧ t = { s with
            mem := t.mem, poison := t.poison, regs := t.regs, rows := t.rows, power := t.power, rollers := t.rollers }
          ∧ LathFrame s t
          ∧ (s.rf .pwrState 11 1 = 0 → t.power = s.power))
  ∧ (∀ (s : State) (off : Nat) (r : Reg), off < 0x2000000 → off % 8 = 0 → regAt (lathBase + off) = some r →
      s.sec.recovery = false → ¬ LathCountAddr (lathBase + off) →
      ∃ t, exec (.barRead 0 off 8 []) s = .next t ∧ t = { s with regs := t.regs, out := t.out } ∧ LathFrame s t
        ∧ t.out = Out.readData 0 off (leBytes 8 (s.readReg r).toNat) false :: s.out)
  ∧ (∀ (s : State) (off len : Nat) (bytes : List (Option (BitVec 8))) (ep : Bool), 0x2000000 ≤ off → off < 0x3200000 →
      let n := (off - 0x2000000) / 0x20000
      n < s.inForce → s.failed n = true → 0 < len → off % 64 + len ≤ 64 → off % 0x20000 + bytes.length ≤ 0x20000 →
      (∃ t, exec (.barRead 0 off len []) s = .next t ∧ t = { s with regs := t.regs, out := Out.abort 0 off :: s.out, aer := true }
        ∧ LathFrame s t)
      ∧ ∃ t, exec (.barWrite 0 off bytes ⟨ep, []⟩) s = .next t ∧ t = { s with regs := t.regs } ∧ LathFrame s t)
  ∧ (∀ (s : State) (bar off len : Nat) (bytes : List (Option (BitVec 8))) (ep : Bool), s.barsOpen = false →
      bar = 2 ∨ bar = 4 → 0 < len →
      (∃ t, exec (.barRead bar off len []) s = .next t ∧ t = { s with regs := t.regs, out := t.out } ∧ LathFrame s t
        ∧ t.out = Out.readData bar off (List.replicate len 0) false :: s.out)
      ∧ ∃ t, exec (.barWrite bar off bytes ⟨ep, []⟩) s = .next t ∧ t = { s with regs := t.regs } ∧ LathFrame s t)
  ∧ (∀ (s : State) (off n k : Nat) (bytes : List (Option (BitVec 8))) (ep : Bool), s.barsOpen = true → 2 ^ 31 ≤ off →
      off < 2 ^ 32 → off % 64 + bytes.length ≤ 64 → s.resolve none (0x10100000000 + (off - 2 ^ 31)) = .hawk n k →
      s.accepts n = true → ChannelFree s (s.siteOf n) .up →
      ∃ t, exec (.barWrite 4 off bytes ⟨ep, []⟩) s = .next t ∧ OnlyWaitf s t ∧ LathFrame s t
        ∧ t = { s with mem := t.mem, poison := t.poison, cores := t.cores, regs := t.regs, vcs := t.vcs }
        ∧ (∀ x, memGet t.mem x = ((if k ≤ x then bytes.getD (x - k) none else none).getD (memGet s.mem x)))
        ∧ (ep = false → ∀ x, t.poisoned x = true → s.poisoned x = true)
        ∧ (ep = true → (∃ b, some b ∈ bytes) → ∀ j, j < 64 → t.poisoned (k / 64 * 64 + j) = true))
  ∧ ∀ (s : State) (req : Requester) (r : Reg) (w : Word), PlainReg r → s.mayWrite req r = true →
      s.resolve none r.addr = .reg r.addr → (∀ n, Loc.coreOf (.reg r.addr) = some n → s.accepts n = true) →
      (∃ t, exec (.registerWrite req r.addr (leBytes 8 w.toNat)) s = .next t ∧ t = { s with regs := t.regs }
        ∧ OnlyReg s t r ∧ (∀ f ∈ r.wflds, FieldMeans f (s.reg r) w (t.reg r))
        ∧ ∀ i, i < 64 → r.fixedBit i → bitAt (t.reg r) i = bitAt (s.reg r) i)
      ∧ (∀ (h : Nat) (bs : List (BitVec 8)), h < 2 → bs.length = 4 →
        ∃ t, exec (.registerWrite req (r.addr + 4 * h) bs) s = .next t ∧ t = { s with regs := t.regs } ∧ OnlyReg s t r
          ∧ ∀ i, i < 64 → i / 32 ≠ h → bitAt (t.reg r) i = bitAt (s.reg r) i)
      ∧ ∀ bs : List (BitVec 8), bs.length ≠ 8 → bs.length ≠ 4 → exec (.registerWrite req r.addr bs) s = .next s

/-- A slot records its bytes, fires a complete current descriptor, starts it on free cores, ends it with its record
(R494, R495, R496, R498, R499, R500, R501, R507). That records and messages are sent whether BME is 1 or not is the
model's choice (log entry 25). -/
def Obligations.LaunchSlots : Prop :=
  (∀ (s : State) (slot off : Nat) (bs : List (Option Byte)), slot < 32 → s.sec.recovery = true →
      ∃ t, exec (.launchSlotWrite slot off bs) s = .next t ∧ t = { s with regs := t.regs } ∧ LathFrame s t)
  ∧ (∀ (s : State) (slot off : Nat) (bs : List Byte), slot < 32 → s.sec.recovery = false → off + bs.length ≤ 256 →
      let x := s.slotOf slot
      let d := x.after off bs
      let set (v : Option (List Nat)) : Prop := s.launchSet d = v
      let queued (t : State) : Prop :=
        t.rf (.pciSlot slot) 0 32 = (if (descNat d 248 4 + 1) % 2 ^ 32 = 0 then 1 else (descNat d 248 4 + 1) % 2 ^ 32)
          ∧ (t.slotOf slot).written = [] ∧ t.rf (.pciSlot slot) 56 8 = s.rf (.pciSlot slot) 56 8
      ∃ t, exec (.launchSlotWrite slot off (bs.map some)) s = .next t
        ∧ t = { s with slots := t.slots, regs := t.regs, fires := t.fires, out := t.out, msix := t.msix }
        ∧ (∀ a, a ≠ (Reg.pciSlot slot).addr → ¬ LathCountAddr a → mapGet? t.regs a = mapGet? s.regs a)
        ∧ (∀ i, i ≠ slot → t.slotOf i = s.slotOf i)
        ∧ (∀ i, i < 256 → mapGet (t.slotOf slot).bytes i 0 = d.getD i 0)
        ∧ (x.written.length + bs.length < 256 → t.reg (.pciSlot slot) = s.reg (.pciSlot slot) ∧ t.out = s.out
          ∧ (t.slotOf slot).launch = x.launch
          ∧ ∀ i, setHas (t.slotOf slot).written i = (setHas x.written i || decide (off ≤ i ∧ i < off + bs.length)))
        ∧ ((∀ i, i < 256 → setHas x.written i = true ∨ off ≤ i ∧ i < off + bs.length) →
          (¬ s.current slot d → t.out = s.out ∧ (t.slotOf slot).launch = x.launch
            ∧ t.rf (.pciSlot slot) 56 8 = min (s.rf (.pciSlot slot) 56 8 + 1) 255
            ∧ t.rf (.pciSlot slot) 0 56 = s.rf (.pciSlot slot) 0 56)
          ∧ (s.current slot d → (s.rf (.pciSlot slot) 32 2 ≠ 0 ∨ s.barsOpen = false) →
            t.reg (.pciSlot slot) = s.reg (.pciSlot slot) ∧ t.out = s.out ∧ (t.slotOf slot).launch = x.launch)
          ∧ (s.current slot d → s.rf (.pciSlot slot) 32 2 = 0 → s.barsOpen = true →
            (∀ ns, set (some ns) → (∀ n ∈ ns, s.failed n = false) → queued t ∧ t.rf (.pciSlot slot) 32 2 = 1
              ∧ (t.slotOf slot).launch = some d ∧ t.out = s.out)
            ∧ (∀ ns n, set (some ns) → n ∈ ns → s.failed n = true → queued t ∧ t.rf (.pciSlot slot) 32 2 = 0
              ∧ t.out = recordOut s slot d 2 0 0 0xFFFFFFFF 0)
            ∧ (set none → queued t ∧ t.rf (.pciSlot slot) 32 2 = 0
              ∧ t.out = recordOut s slot d 3 0 0 0xFFFFFFFF 0))))
  ∧ (∀ (s : State) (slot : Nat) (d : List Byte) (ns : List Nat), slot < 32 → (s.slotOf slot).launch = some d →
      s.launchSet d = some ns → s.rf (.pciSlot slot) 32 2 = 1 →
      let free (n : Nat) : Prop := ((s.core n).st = .idle ∨ (s.core n).st = .done ∨ (s.core n).st = .faulted)
        ∧ (s.launchOf n).isNone = true
      let blocked : Prop := ∃ (j : Nat) (e : List Byte) (ms : List Nat) (n : Nat), j < 32 ∧ s.rf (.pciSlot j) 32 2 = 1
        ∧ (s.slotOf j).order < (s.slotOf slot).order ∧ (s.slotOf j).launch = some e ∧ s.launchSet e = some ms ∧ n ∈ ns
        ∧ n ∈ ms
      let awake (n : Nat) : Prop := s.halfOff (halfOf (s.siteOf n)) = false ∧ s.rf .pwrState 12 1 = 0
        ∧ setHas s.power.pgated n = false
      ((∀ n ∈ ns, free n ∧ awake n ∧ s.failed n = false) → ¬ blocked →
        ∃ t, exec (.launchStart slot) s = .next t ∧ t = { s with slots := t.slots, regs := t.regs, orphans := t.orphans }
          ∧ OnlyReg s t (.pciSlot slot) ∧ t.rf (.pciSlot slot) 32 2 = 2
          ∧ t.rf (.pciSlot slot) 0 32 = s.rf (.pciSlot slot) 0 32
          ∧ t.slotOf slot = { s.slotOf slot with entered := [], ended := [] }
          ∧ ∀ i, i ≠ slot → t.slotOf i = { s.slotOf i with ended := (t.slotOf i).ended }
            ∧ ∀ n, mapGet? (t.slotOf i).ended n =
              if n ∈ ns ∧ setHas (s.slotOf i).entered n = true ∧ mapGet? (s.slotOf i).ended n = none
              then some (s.coreEnd n) else mapGet? (s.slotOf i).ended n)
      ∧ ((∃ n ∈ ns, ¬ free n) ∨ blocked → exec (.launchStart slot) s = .next s)
      ∧ ((∃ n ∈ ns, ¬ awake n) → (∀ n ∈ ns, s.failed n = false) → exec (.launchStart slot) s = .next s)
      ∧ (∀ n ∈ ns, (∀ m ∈ ns, free m) → ¬ blocked → s.failed n = true → (s.slotOf slot).written.length < 256 →
        ∃ t, exec (.launchStart slot) s = .next t ∧ t.mem = s.mem ∧ t.cores = s.cores ∧ t.rf (.pciSlot slot) 32 2 = 0
          ∧ t.out = recordOut s slot d 2 0 0 0xFFFFFFFF 0 ∧ (t.slotOf slot).launch = none))
  ∧ (∀ (s : State) (slot : Nat) (d : List Byte) (n0 : Nat) (ns : List Nat), slot < 32 →
      (s.slotOf slot).launch = some d → s.launchSet d = some (n0 :: ns) → s.rf (.pciSlot slot) 32 2 = 2 →
      let past (n : Nat) : Prop := (mapGet? (s.slotOf slot).ended n).isSome = true ∨ (s.core n).st = .done
        ∨ (s.core n).st = .faulted
      let fin (n : Nat) : CoreEnd := (mapGet? (s.slotOf slot).ended n).getD
        ⟨(s.core n).st == .faulted, (s.core n).exit.getD 0, fld (s.core n).excCause 0 32⟩
      let bad := (n0 :: ns).filter fun n => (fin n).faulted
      (∀ n ∈ n0 :: ns, setHas (s.slotOf slot).entered n = true) →
      ((∀ n ∈ n0 :: ns, past n) → (s.slotOf slot).written.length < 256 →
        ∃ t, exec (.launchEnd slot) s = .next t
          ∧ t = { s with slots := t.slots, regs := t.regs, out := t.out, msix := t.msix }
          ∧ (∀ a, a ≠ (Reg.pciSlot slot).addr → ¬ LathCountAddr a → mapGet? t.regs a = mapGet? s.regs a)
          ∧ t.rf (.pciSlot slot) 32 2 = 0 ∧ (t.slotOf slot).launch = none
          ∧ (bad = [] → t.out = recordOut s slot d 0 0 (fin n0).exit 0xFFFFFFFF 0)
          ∧ (∀ b bs, bad = b :: bs → t.out = recordOut s slot d 1 (bs.length + 1) (fin n0).exit b (fin b).cause))
      ∧ ((∃ n ∈ n0 :: ns, ¬ past n) → exec (.launchEnd slot) s = .next s))
  ∧ ∀ (s : State) (v : Nat), v < 64 →
      let m := mapGet s.msix v Msix.zero
      (s.sec.recovery = true → exec (.msixVectorUnmask v) s = .next s)
      ∧ (s.sec.recovery = false → ∃ t, exec (.msixVectorUnmask v) s = .next t
        ∧ t = { s with regs := t.regs, msix := t.msix, out := t.out } ∧ LathFrame s t
        ∧ mapGet? t.msix v = some { m with masked := false, pend := false }
        ∧ (∀ k, k ≠ v → mapGet? t.msix k = mapGet? s.msix k)
        ∧ t.out = if m.pend then Out.msix v m.addr m.data :: s.out else s.out)

/-- Function resets, configuration, host reads, D3hot and its return, supplies, PERST#, watchdog, trip, ENTDAA (R133,
R139, R485, R486, R490, R505, R571, R579, R617, R634, R640, R641, R642, R600, R601); what a loss of 48 V does to a
running firmware command is the reading of log entry 116. That started launches run on without their slots after a
reset of the function is the model's choice (log entry 28), as is what of the provisional ID ENTDAA sends (129). -/
def Obligations.FunctionAndModuleResets : Prop :=
  (∀ (c : Instr) (s : State), c = .functionLevelReset ∨ c = .hotReset → (∀ x ∈ s.cores, x.2.movQ = []) →
      ∃ t, exec c s = .next t
        ∧ t = { s with
            regs := t.regs, slots := [], msix := [], cfg := [], aer := false, power := { s.power with d3 := false }
            sec := { s.sec with nonce := none }
            orphans := s.orphans ++ ((List.range 32).filter fun i => s.rf (.pciSlot i) 32 2 == 2).map fun i =>
              (i, s.slotOf i) }
        ∧ (∀ i, i < 32 → t.reg (.pciSlot i) = 1) ∧ (∀ k, k < 8 → t.reg (.pciHwin k) = 0) ∧ t.reg .pciBar2 = 0
        ∧ t.rf .pciLink 10 1 = 0
        ∧ ∀ a, (∀ i, i < 32 → a ≠ (Reg.pciSlot i).addr) → (∀ k, k < 8 → a ≠ (Reg.pciHwin k).addr) →
            a ≠ Reg.pciBar2.addr → a ≠ Reg.pciLink.addr → mapGet? t.regs a = mapGet? s.regs a)
  ∧ (∀ (s : State) (r : CfgReq),
      (r.write = false → (∀ o, o < 12 → mapGet? s.cfg o = none) →
        ∃ t bs, exec (.pcieConfigRequest r) s = .next t ∧ t = { s with regs := t.regs, out := Out.cfg r.off bs :: s.out }
          ∧ LathFrame s t
          ∧ (r.off = 0 → r.len = 4 →
            bs = [Config.vendorId.setWidth 8, (Config.vendorId >>> 8).setWidth 8, 0x60, 0x91])
          ∧ (r.off = 8 → r.len = 4 → bs = [0xB0, 0x00, 0x00, 0x12])
          ∧ (r.off = Config.aerOff + 5 → 64 ≤ r.off → r.off < 4096 → r.len = 1 → ∃ b, bs = [b] ∧ b.getLsbD 7 = s.aer))
      ∧ (r.write = true → (∀ o, o < 12 → mapGet? s.cfg o = none) →
        ∃ t, exec (.pcieConfigRequest r) s = .next t
          ∧ t = { s with regs := t.regs, out := t.out, cfg := t.cfg, aer := t.aer }
          ∧ (t.aer = true ↔ s.aer = true
            ∧ ¬ ∃ j b, r.off + j = Config.aerOff + 5 ∧ r.bytes.getD j none = some b ∧ b.getLsbD 7 = true)
          ∧ (∀ a, a ≠ Reg.pciLink.addr → ¬ LathCountAddr a → mapGet? t.regs a = mapGet? s.regs a)
          ∧ (∀ o b, r.off ≤ o → o < 4096 → r.bytes.getD (o - r.off) none = some b → s.cfgTakes o ≠ 0 →
            mapGet? t.cfg o = some ((mapGet s.cfg o (cfgDefault o) &&& ~~~s.cfgTakes o) ||| (b &&& s.cfgTakes o)))
          ∧ (∀ b, r.off ≤ 4 → r.bytes.getD (4 - r.off) none = some b → mapGet? t.cfg 4 = some b)
          ∧ (∀ o, o < 4 ∨ 8 ≤ o ∧ o < 12 → mapGet? t.cfg o = none)
          ∧ t.rf .pciLink 10 1 = b2n (bitAt (mapGet t.cfg 4 0) 2)))
  ∧ (∀ (s : State) (lc h n pos addr : Nat) (g : UnitF) (e : UEntry) (rest : List UEntry) (more : List Nat)
      (bytes : List Byte) (ep : Bool), (s.core lc).movQ = e :: rest → e.op = .movBlk g → e.started = true →
      e.begun = true → e.fin = none → e.await = hostKey h pos n :: more → more ≠ [] → 1 ≤ n → n ≤ 64 → pos < 2 ^ 64 →
      addr ≤ h → h + n ≤ addr + bytes.length → (∀ k ∈ more, ¬ (2 ^ 200 ≤ k)) →
      ∃ t e', exec (.hostReadCompletion lc addr bytes ep) s = .next t
        ∧ t = { s with cores := t.cores, regs := t.regs } ∧ LathFrame s t
        ∧ t.core lc = (s.core lc).setQ .mover (e' :: rest) ∧ (∀ k, k ≠ lc → t.core k = s.core k)
        ∧ e' = { e with buf := e'.buf, await := more }
        ∧ ∀ j, j < n → mapGet e'.buf (bufKey (pos + j) ep false) 0 = bytes.getD (h - addr + j) 0)
  ∧ (∀ s : State, exec .d3hotEntry s = .next { s with power := { s.power with d3 := true } })
  ∧ (∀ s : State,
      ((s.rf .pwrState 12 1 = 0 ∨ s.power.waking = true) →
        exec .d0Return s = .next { s with power := { s.power with d3 := false } })
      ∧ (s.rf .pwrState 12 1 = 1 → s.power.waking = false →
        ∃ t, exec .d0Return s = .next t
          ∧ t = { s with regs := t.regs, slots := [], pmus := [], power := { s.power with d3 := false, waking := true } }
          ∧ (∀ i, i < 32 → t.reg (.pciSlot i) = 1) ∧ t.rf .pwrState 12 1 = 1
          ∧ (∀ n i, n < 144 → i < 8 → t.reg (.pmuCnt n i) = 0 ∧ t.reg (.pmuCycle n) = 0)
          ∧ (∀ n, n < 144 → t.reg (.pmuPerm n) = s.reg (.pmuPerm n))
          ∧ ∀ p, p < 16 → t.portState p =
              if s.rf .klkCfg (32 + p) 1 = 1 ∧ s.portGone p = false then 1 else 0)
      ∧ (s.power.waking = true → (∀ i, i < 32 → (s.slotOf i).written.length < 256) →
        ∃ t, exec .asleepWakeComplete s = .next t
          ∧ t = { s with
              regs := t.regs, vcs := t.vcs, power := { s.power with waking := false }
              west := { s.west with routers := true, waiting := false, point := s.rf .finish 4 2 }
              east := { s.east with routers := true, waiting := false, point := s.rf .finish 4 2 } }
          ∧ t.rf .scrSeam (waitBit .west) 1 = 0 ∧ t.rf .scrSeam (waitBit .east) 1 = 0
          ∧ t.rf .pwrState 8 5 = 0 ∧ t.rf .rlrState 16 8 = 0 ∧ t.rf .clkWest 0 2 = s.rf .finish 4 2
          ∧ t.rf .clkEast 0 2 = s.rf .finish 4 2))
  ∧ (∀ s : State, ∃ t, exec .auxApply s = .next t ∧ t = { s with pins := t.pins } ∧ t.pins.aux = true
      ∧ t.pins.stage = s.pins.stage ∧ (t.pins.alert = true ↔ s.rf .errStatus 4 5 ≠ 0))
  ∧ (∀ (c : Instr) (s : State) (mv : Nat), s.pins.stage = true →
      (c = .auxLoss ∧ s.pins.aux = true ∨ c = .stageStop mv ∧ (mv < 38000 ∨ 62000 < mv)) →
      ∃ t, exec c s = .next t ∧ ResetLeaves s t ∧ t.mem = [] ∧ t.poison = [] ∧ t.trip = true ∧ t.pins.stage = false
        ∧ t.flash.losses = min (s.flash.losses + 1) 255 ∧ t.pins.perst = s.pins.perst
        ∧ (s.sec.fwCmd = none → KeepsImages s t) ∧ (∀ k, s.sec.fwCmd = some k → FwCut s t k.cmd)
        ∧ (c = .auxLoss → t.pins.aux = false ∧ t.pins.i3c = none ∧ t.pins.alert = false))
  ∧ (∀ s : State, s.pins.stage = false → exec .auxLoss s = .next { s with pins :=
      { s.pins with aux := false, alert := false, i3c := none } })
  ∧ (∀ (s : State) (mv : Nat) (v : Supply),
      (38000 ≤ mv → mv ≤ 62000 → exec (.stageStop mv) s = .next s)
      ∧ (s.pins.aux = true → s.pins.stage = false →
        (40000 < v.clip → v.clip ≤ 60000 → 3135 ≤ v.aux → v.aux ≤ 3465 →
          exec (.stageStart v) s = .next { s with pins := { s.pins with stage := true } })
        ∧ (v.clip ≤ 40000 ∨ 60000 < v.clip ∨ v.aux < 3135 ∨ 3465 < v.aux → exec (.stageStart v) s = .next s)))
  ∧ (∀ (c : Instr) (s : State), (c = .perstAssert ∧ s.pins.stage = true ∧ s.pins.perst = false
        ∨ c = .mcWatchdogExpiry ∧ s.pins.aux = true) →
      ∃ t, exec c s = .next t ∧ ResetLeaves s t ∧ KeepsImages s t ∧ t.trip = s.trip
        ∧ t.pins = { s.pins with alert := false, perst := s.pins.perst || decide (c = .perstAssert) }
        ∧ (s.Sound → ∀ k, k < 2 ^ 45 → memGet t.mem k = memGet s.mem k ∧ t.poisoned k = s.poisoned k))
  ∧ (∀ s : State, (s.pins.stage = false →
        exec .perstAssert s = .next { s with pins := { s.pins with perst := true } })
      ∧ exec .perstDeassert s = .next { s with pins := { s.pins with perst := false } }
      ∧ ∀ a : BitVec 7, (s.pins.aux = true → exec (.i3cEntdaa a) s = .next { s with
            pins := { s.pins with i3c := some a }, out := Out.entdaa s.flash.serial a :: s.out })
          ∧ (s.pins.aux = false → exec (.i3cEntdaa a) s = .next s))
  ∧ ∀ (s : State) (temp : Int), (110 ≤ temp → ∃ t, exec (.thermalTrip temp) s = .next t ∧ ResetLeaves s t ∧ KeepsImages s t
        ∧ t.trip = true ∧ t.pins = { s.pins with alert := false })
      ∧ (temp < 110 → exec (.thermalTrip temp) s = .next s)

/-- A start by its kind, the logical map it builds, snag-list entries and clears, remap requests and their ends (R509,
R514, R515, R517, R519, R521, R523, R527, R528, R529, R534, R598). The log record of a snag-list clear (log entry 42),
the code that MC_REMAP.STATUS shows while requests wait (75) and CORE_EXC_ADDR 0 at a STOP (94) are the model's
choices. -/
def Obligations.StartsAndRemaps : Prop :=
  (∀ (s : State) (i : StartIn),
      (¬ s.startsNow → exec (.start i) s = .next s)
      ∧ (s.startsNow → s.pickBank = none → ∃ t, exec (.start i) s = .next t ∧ t.sec.recovery = true ∧ t.ready = false
        ∧ t.mem = s.mem ∧ t.cores = s.cores ∧ t.sec.scopes = 0)
      ∧ ∀ b, s.startsNow → s.pickBank = some b → s.ports = [] →
        ∃ t, exec (.start i) s = .next t ∧ t.ready = true ∧ t.rf .mcStart 0 2 = s.kindOf ∧ t.cores = s.cores
          ∧ t.rf .mcStart 32 32 = (s.flash.starts + 1) % 2 ^ 32 ∧ t.flash.starts = s.flash.starts + 1
          ∧ t.sec.runningB = b ∧ t.sec.runM = imgM (s.sec.bank b).image ∧ t.sec.scopes = 0
          ∧ (s.kindOf = 2 → t.mem = s.mem) ∧ (s.kindOf ≠ 2 → t.mem = [])
          ∧ t.rf .finish 0 2 = 1 ∧ t.rf .finish 4 2 = 1 ∧ t.rf .pwrPolicy 0 16 = 200
          ∧ (∀ f ∈ i.found, t.hasSnag f.typ f.loc = true)
          ∧ (t.snags.any (·.typ == 0x0A) = true → t.inForce = 0)
          ∧ (t.snags.any (·.typ == 0x0A) = false → t.inForce = 12 * ((List.range 12).filter fun r =>
              decide (12 ≤ (((List.range 14).map fun c => 14 * r + c).filter t.usable).length)).length)
          ∧ ∀ n site, t.mapSites[n]? = some site → t.valid n = true ∧ t.siteOf n = site ∧ t.failed n = false)
  ∧ (∀ (s : State) (f : FoundFault),
      (s.hasSnag f.typ f.loc = false → s.flash.snag.length + s.flash.badCrc + b2n f.torn < 4096 →
        ¬ (f.typ = 1 ∧ fld f.loc 0 3 ≤ 5) →
        ∃ t e, exec (.snagAppend f) s = .next t ∧ t.mem = s.mem ∧ t.cores = s.cores ∧ t.flash.snag = s.flash.snag ++ [e]
          ∧ t.flash.badCrc = s.flash.badCrc + b2n f.torn
          ∧ e.typ = f.typ ∧ e.loc = f.loc ∧ e.sig = f.sig ∧ e.flags = 1 ∧ e.first = BitVec.ofNat 32 s.flash.starts
          ∧ (s.snags = [] → e.ordinal = 0) ∧ (∀ x, s.snags.getLast? = some x → e.ordinal = x.ordinal + 1)
          ∧ e.crc = crc32 (e.bytes.take 28)
          ∧ t.rf .mcSnag 32 16 = min (s.rf .mcSnag 32 16 + 1) 65535 ∧ LogsOne s t 7 f.typ.toNat f.loc 0)
      ∧ (s.hasSnag f.typ f.loc = true → ¬ (f.typ = 1 ∧ fld f.loc 0 3 ≤ 5) →
        ∃ t, exec (.snagAppend f) s = .next t ∧ t.mem = s.mem ∧ t.cores = s.cores ∧ t.snags = s.snags)
      ∧ ∀ lc, f.typ = 1 → fld f.loc 0 3 ≤ 5 → s.lcAt (fld f.loc 8 8) = some lc → s.failed lc = false →
        (s.core lc).st = .running →
        ∃ t w, exec (.snagAppend f) s = .next t ∧ t.mem = s.mem ∧ t.failed lc = true ∧ t.siteOf lc = s.siteOf lc
          ∧ t.rf .mcMap 8 8 = min (s.rf .mcMap 8 8 + 1) 255
          ∧ TakesExc (s.core lc) (t.core lc) 0x14 0 (s.core lc).pc 0 w ∧ ∀ k, k ≠ lc → t.core k = s.core k)
  ∧ (∀ (s : State) (idx : List Nat),
      let base := if s.flash.second then s.flash.snag2 else s.flash.snag
      let named (e : Snag) : Prop := ∃ i ∈ idx, ∃ k, s.flash.snag[i]? = some k ∧ k.typ = e.typ ∧ k.loc = e.loc
      (s.sec.scopes / 2 % 4 = 0 → exec (.snagListClear idx) s = .next s)
      ∧ (s.sec.scopes / 2 % 4 ≠ 0 → ∃ t, exec (.snagListClear idx) s = .next t ∧ t = { s with flash := t.flash }
        ∧ t.flash.snag = s.flash.snag ∧ t.flash.second = true
        ∧ (∀ e, e ∈ base → ¬ named e → ∃ x ∈ t.flash.snag2, x.typ = e.typ ∧ x.loc = e.loc ∧ x.first = e.first)
        ∧ (∀ x ∈ t.flash.snag2, ¬ named x ∧ ∃ e ∈ base, x.typ = e.typ ∧ x.loc = e.loc)
        ∧ (∀ j x, t.flash.snag2[j]? = some x → x.ordinal = BitVec.ofNat 32 j)
        ∧ t.flash.unlock.length = s.flash.unlock.length + 1))
  ∧ (∀ (s : State) (w : Word), s.sec.recovery = false →
      (s.ready = true → s.rf .pwrState 12 1 = 0 → ∃ t, exec (.mcRemapGo .host w) s = .next t ∧ t = { s with regs := t.regs, remaps := t.remaps }
        ∧ OnlyReg s t .mcRemap ∧ t.remaps = s.remaps ++ [fld w 8 8] ∧ t.rf .mcRemap 4 1 = 1 ∧ t.rf .mcRemap 0 4 = 1
        ∧ t.rf .mcRemap 8 8 = fld w 8 8)
      ∧ (s.ready = false ∨ s.rf .pwrState 12 1 = 1 → exec (.mcRemapGo .host w) s = .next s))
  ∧ ∀ (s : State) (lc : Nat) (rest : List Nat), s.remaps = lc :: rest → lc < 144 →
      let fails (st : Nat) : Prop := ∃ t, exec .remapComplete s = .next t ∧ t = { s with regs := t.regs, remaps := rest }
        ∧ OnlyReg s t .mcRemap ∧ t.rf .mcRemap 0 4 = st ∧ t.rf .mcRemap 4 1 = 0
      let down : Prop := s.valid lc = true ∧ s.failed lc = true
      (s.ready = false → fails 6)
      ∧ (s.ready = true → ¬ down → fails 3)
      ∧ (s.ready = true → down → s.launchNames lc = true → fails 4)
      ∧ (s.ready = true → down → s.launchNames lc = false → s.freeSites = [] → fails 5)
      ∧ ∀ x, s.ready = true → down → s.launchNames lc = false → x ∈ s.freeSites →
        (∀ y ∈ s.freeSites, hops (s.siteOf lc) x < hops (s.siteOf lc) y ∨ hops (s.siteOf lc) x = hops (s.siteOf lc) y ∧ x ≤ y) →
        ∃ t, exec .remapComplete s = .next t ∧ t.remaps = rest ∧ t.rf .mcRemap 0 4 = 2 ∧ t.rf .mcRemap 4 1 = 0
          ∧ t.siteOf lc = x ∧ t.valid lc = true ∧ t.failed lc = false ∧ t.core lc = Core.zero ∧ t.slices = s.slices
          ∧ t.reg (.pmuPerm lc) = s.reg (.pmuPerm lc)
          ∧ (∀ k, k ≠ lc → t.core k = s.core k ∧ (k < 144 → t.siteOf k = s.siteOf k))
          ∧ (s.Sound → ∀ k, memGet t.mem k =
              if hawkKey x 0 ≤ k ∧ k < hawkKey x 0x200000 then 0 else memGet s.mem k)
          ∧ t.rf .mcMap 24 8 = min (s.rf .mcMap 24 8 + 1) 255 ∧ t.rf .mcMap 8 8 = s.rf .mcMap 8 8 - 1
          ∧ t.rf .mcMap 32 32 = s.rf .mcMap 32 32

/-- Rub-downs start, read their range, stop and write their summary; MC_ERR_STATUS bits clear; DRAM rows close (R539,
R542, R552, R553, R554, R555, R556, R557, R559, R368). That a rub-down which ends with RANGE writes its summary (log
entry 21), and that a STOP comes after a free number of granules (23), are the model's choices. -/
def Obligations.RubDownsAndErrors : Prop :=
  (∀ (s : State) (req : Requester) (w : Word), s.mayWrite req .rubCtrl = true →
      let sp := if fld w 8 3 ≤ 4 then fld w 8 3 else s.rf .rubCtrl 8 3
      let busy := s.rf .rubCtrl 40 8 = 1
      (busy → ∃ t, exec (.rubDownGo req w) s = .next t ∧ t = { s with regs := t.regs } ∧ OnlyReg s t .rubCtrl
        ∧ t.rf .rubCtrl 40 8 = 1 ∧ t.rf .rubCtrl 0 1 = s.rf .rubCtrl 0 1)
      ∧ (∀ n, ¬ busy → s.rubRange sp (s.rf .rubBase 0 44) (s.rf .rubLen 0 44) = some n →
        ∃ t, exec (.rubDownGo req w) s = .next t ∧ t = { s with regs := t.regs, rub := t.rub } ∧ OnlyReg s t .rubCtrl
          ∧ t.rf .rubCtrl 40 8 = 1 ∧ t.rf .rubCtrl 0 1 = 1 ∧ t.rf .rubCtrl 16 3 = fld w 16 3
          ∧ t.rub = { Rub.zero with total := n, space := sp, run := s.rub.run + 1 })
      ∧ ∀ n k, ¬ busy → s.rubRange sp (s.rf .rubBase 0 44) (s.rf .rubLen 0 44) = none → s.rf .rubDest 0 44 % 64 = 0 →
        s.resolve none (s.rf .rubDest 0 44) = .hawk n k →
        ∃ t, exec (.rubDownGo req w) s = .next t ∧ OnlyWaitf s t ∧ OnlyReg s t .rubCtrl ∧ t.rf .rubCtrl 40 8 = 4
          ∧ t.rf .rubCtrl 0 1 = 0 ∧ Stores s t k ({ Rub.zero with run := s.rub.run + 1 }.summary 0 4))
  ∧ (∀ (s : State) (n k : Nat), s.rf .rubCtrl 40 8 = 1 → s.rubQuiet n k → s.rub.space ≠ 4 →
      (∃ t, exec (.rubDownComplete []) s = .next t ∧ OnlyWaitf s t ∧ OnlyReg s t .rubCtrl ∧ t.poison = []
        ∧ t.rf .rubCtrl 40 8 = 2 ∧ t.rf .rubCtrl 0 1 = 0
        ∧ Stores s t k (s.rub.summary (s.rub.scanned + (s.rub.total - s.rub.pos)) 2))
      ∧ ∀ key a, 2 ^ 46 ≤ key → key < 2 ^ 47 → s.rubAddr s.rub.space key = some a →
        s.rubStart + 64 * s.rub.pos ≤ a → a < s.rubStart + 64 * s.rub.total → s.rub.pos ≤ s.rub.total →
        0 < s.rf .rubDest 48 16 → s.hodPatch = [] →
        ∃ t, exec (.rubDownComplete [⟨key, .uncorr⟩]) s = .next t ∧ t.rf .rubCtrl 40 8 = 2 ∧ t.poisoned key = true
          ∧ t.rub.uncorr = s.rub.uncorr + 1 ∧ t.rub.corrected = s.rub.corrected
          ∧ t.rub.list = [BitVec.ofNat 64 (a + 2 ^ 44)] ∧ (t.rf .errStatus 4 1 = 1)
          ∧ ∀ x, (x < k ∨ k + 72 ≤ x) → memGet t.mem x = memGet s.mem x)
  ∧ (∀ (s : State) (req : Requester) (w : Word) (n k : Nat), s.mayWrite req .rubCtrl = true →
      (s.rf .rubCtrl 40 8 = 1 → s.rubQuiet n k → s.rub.space ≠ 4 → s.rub.pos ≤ s.rub.total →
        ∃ t m, exec (.rubDownStop req w []) s = .next t ∧ OnlyWaitf s t ∧ OnlyReg s t .rubCtrl ∧ t.rf .rubCtrl 40 8 = 5
          ∧ t.rf .rubCtrl 0 1 = 0 ∧ m ≤ s.rub.total - s.rub.pos ∧ Stores s t k (s.rub.summary (s.rub.scanned + m) 5))
      ∧ (s.rf .rubCtrl 40 8 ≠ 1 →
        ∃ t, exec (.rubDownStop req w []) s = .next t ∧ t = { s with regs := t.regs } ∧ OnlyReg s t .rubCtrl
          ∧ t.rf .rubCtrl 40 8 = s.rf .rubCtrl 40 8))
  ∧ (∀ (s : State) (req : Requester) (w : Word), s.mayWrite req .errStatus = true →
      ∃ t, exec (.mcErrStatusClear req w) s = .next t ∧ t = { s with regs := t.regs, pins := t.pins }
        ∧ OnlyReg s t .errStatus ∧ t.pins = { s.pins with alert := t.pins.alert }
        ∧ (t.pins.alert = true ↔ s.pins.aux = true ∧ t.rf .errStatus 4 5 ≠ 0)
        ∧ ∀ i, i < 64 → bitAt (t.reg .errStatus) i
          = (bitAt (s.reg .errStatus) i && !(decide (1 ≤ i ∧ i ≤ 8) && bitAt w i)))
  ∧ ∀ (s : State) (ch bank : Nat), bank < 64 → ∃ t, exec (.dramRowClose ch bank) s = .next t
      ∧ t = { s with rows := t.rows } ∧ mapGet? t.rows (ch * 64 + bank) = none
      ∧ ∀ k, k ≠ ch * 64 + bank → mapGet? t.rows k = mapGet? s.rows k

/-- Finish changes step by step; cores, halves, hod, render and module enter their power states and wake (R112, R562,
R563, R565, R566, R567, R569, R572, R573, R588, R590, R399). That a half which goes off clears its cores and hawks at
its entry (log entry 59), that FSEQ goes on through module asleep (50) and what an access wakes (58) are the model's
choices. -/
def Obligations.FinishChangesAndPowerStates : Prop :=
  (∀ (s : State) (req : Requester) (w : Word), req = .host ∨ req = .bmc ∧ s.pins.aux = true ∧ s.pins.i3c ≠ none →
      s.sec.recovery = false → s.loaded = true →
      ∃ t, exec (.finishRequest req w) s = .next t
        ∧ t = { s with regs := t.regs, power := { s.power with reqWaits := true } } ∧ OnlyReg s t .finish
        ∧ t.rf .finish 0 2 = (if fld w 0 2 ≤ 2 then fld w 0 2 else s.rf .finish 0 2)
        ∧ t.rf .finish 4 5 = s.rf .finish 4 5)
  ∧ (∀ s : State, s.power.reqWaits = true → s.rf .finish 8 1 = 0 → s.ready = true →
      let cur := s.rf .finish 4 2
      let new := s.rf .finish 0 2
      (new = cur → exec .finishChangeAccept s = .next { s with power := { s.power with reqWaits := false } })
      ∧ (new ≠ cur → ∃ t, exec .finishChangeAccept s = .next t
        ∧ t = { s with
            regs := t.regs, west := { s.west with pll := some new, locked := false }
            east := { s.east with pll := some new, locked := false }
            disarming := (if cur = 2 then List.range 8 else s.disarming)
            power := { s.power with reqWaits := false, target := new, step := (if cur < new then .ramp else .lock) } }
        ∧ t.rf .finish 8 1 = 1 ∧ t.rf .finish 4 2 = cur ∧ (cur = 2 → t.rf .rlrState 0 1 = 0)))
  ∧ (∀ s : State, (s.power.reqWaits = false ∨ s.rf .finish 8 1 = 1 ∨ s.ready = false) →
      exec .finishChangeAccept s = .next s)
  ∧ (∀ (s : State) (h : Half) (p : Nat), (s.half h).pll = some p → (s.half h).locked = false →
      let up := s.rf .finish 4 2 < s.power.target
      let other := s.half (match h with | .west => .east | .east => .west)
      (up ∨ s.disarming = [] → ∃ t, exec (.pllLockComplete h) s = .next t ∧ t.mem = s.mem ∧ t.cores = s.cores
        ∧ (t.half h).locked = true ∧ (t.half h).pll = some p
        ∧ (s.power.step = .lock → other.locked = true → t.power.step = .west ∧ t.west.stopped = true
          ∧ t.rf .clkWest 2 1 = 1 ∧ t.rf .clkWest 0 2 = 3 ∧ OnlyReg s t .clkWest)
        ∧ (s.power.step ≠ .lock ∨ other.locked = false → t = s.setHalf h { s.half h with locked := true }))
      ∧ (¬ up → s.disarming ≠ [] → exec (.pllLockComplete h) s = .next s))
  ∧ (∀ s : State,
      (s.power.step = .ramp → ∃ t, exec .railRampComplete s = .next t ∧ t.mem = s.mem ∧ t.cores = s.cores
        ∧ t.power.rail = railOf s.power.target ∧ t.power.target = s.power.target
        ∧ (s.west.locked = true → s.east.locked = true → t.power.step = .west ∧ t.west.stopped = true)
        ∧ (s.west.locked = false ∨ s.east.locked = false → t.power.step = .lock ∧ t.regs = s.regs))
      ∧ (s.power.step = .rampDown → s.power.target ≤ 2 → ∃ t, exec .railRampComplete s = .next t ∧ t.mem = s.mem
        ∧ t.cores = s.cores
        ∧ t.power.rail = railOf s.power.target ∧ t.power.step = .none ∧ t.rf .finish 4 2 = s.power.target
        ∧ t.rf .finish 8 1 = 0 ∧ (s.power.target = 2 → t.rf .rlrState 0 1 = 1)))
  ∧ (∀ (s : State) (p : Nat), p < 3 →
      (s.west.pll = some p → s.west.stopped = true → s.halfOff .west = false →
        ∃ t, exec (.halfClockResume .west) s = .next t ∧ t.mem = s.mem ∧ t.cores = s.cores ∧ t.rf .clkWest 0 2 = p
          ∧ t.rf .clkWest 2 1 = 0 ∧ t.west.stopped = false ∧ t.west.pll = none ∧ t.power.step = .east
          ∧ t.west.point = p ∧ t.east.stopped = true ∧ t.rf .clkEast 2 1 = 1 ∧ t.rf .clkEast 0 2 = 3
          ∧ t.rf .clkWest 32 32 = min (s.rf .clkWest 32 32 + 1) (2 ^ 32 - 1))
      ∧ (s.east.pll = some p → s.east.stopped = true → s.halfOff .east = false → s.power.target ≤ 2 →
        ∃ t, exec (.halfClockResume .east) s = .next t ∧ t.mem = s.mem ∧ t.cores = s.cores ∧ t.rf .clkEast 0 2 = p
          ∧ t.rf .clkEast 2 1 = 0 ∧ t.east.stopped = false ∧ t.east.pll = none ∧ t.east.point = p
          ∧ (s.rf .finish 4 2 < s.power.target → t.power.step = .none ∧ t.rf .finish 4 2 = s.power.target
            ∧ t.rf .finish 8 1 = 0 ∧ (s.power.target = 2 → t.rf .rlrState 0 1 = 1))
          ∧ (s.power.target ≤ s.rf .finish 4 2 → t.power.step = .rampDown
            ∧ t.rf .finish 4 2 = s.rf .finish 4 2)))
  ∧ (∀ (s : State) (lc : Nat),
      exec (.powerStateEntry (.coreClock lc)) s = .next s ∧ exec (.powerStateWake (.coreClock lc)) s = .next s
      ∧ (let c := s.core lc
        let may : Prop := s.valid lc = true ∧ (c.st = .sleeping ∨ c.st = .idle ∨ c.st = .done)
          ∧ (∀ u, c.q u = []) ∧ 3 ≤ s.coreTol lc ∧ s.rf .power 32 1 = 0 ∧ s.halfOff (halfOf (s.siteOf lc)) = false
        (may → ∃ t, exec (.powerStateEntry (.core lc)) s = .next t ∧ t = { s with power := t.power }
          ∧ t.power = { s.power with pgated := t.power.pgated }
          ∧ ∀ k, setHas t.power.pgated k = (decide (k = lc) || setHas s.power.pgated k))
        ∧ (¬ may → exec (.powerStateEntry (.core lc)) s = .next s))
      ∧ ∃ t, exec (.powerStateWake (.core lc)) s = .next t ∧ t = { s with power := t.power }
        ∧ ∀ k, setHas t.power.pgated k = (decide (k ≠ lc) && setHas s.power.pgated k))
  ∧ (∀ (s : State) (h : Half),
      let mine (n : Nat) : Prop := n < 144 ∧ s.valid n = true ∧ halfOf (s.siteOf n) = h
      let may : Prop := s.halfOff h = false ∧ 60 ≤ s.tolerance ∧ s.rf .power 32 1 = 0 ∧ (s.half h).stopped = false
        ∧ ∀ n, mine n → ((s.core n).st = .idle ∨ (s.core n).st = .done) ∧ (∀ u, (s.core n).q u = [])
          ∧ s.launchNames n = false
      (may → ∃ t, exec (.powerStateEntry (.half h)) s = .next t ∧ t.halfOff h = true ∧ (t.half h).routers = false
        ∧ (∀ n, mine n → t.core n = Core.zero) ∧ (∀ n, n < 144 → ¬ mine n → s.valid n = true → t.core n = s.core n)
        ∧ ∀ k, memGet t.mem k = if 2 ^ 45 ≤ k ∧ k < 2 ^ 46 ∧ halfOf ((k - 2 ^ 45) / 2 ^ 21) = h then 0 else memGet s.mem k)
      ∧ (¬ may → exec (.powerStateEntry (.half h)) s = .next s)
      ∧ (s.halfOff h = true → s.rf .pwrState 12 1 = 0 → s.power.step = .none → (s.half h).stopped = false →
        ∃ t, exec (.powerStateWake (.half h)) s = .next t ∧ t.mem = s.mem ∧ t.cores = s.cores ∧ t.halfOff h = false
          ∧ (t.half h).routers = true ∧ t.rf .pwrState 10 2 = 0
          ∧ t.rf (clkReg h) 0 2 = s.rf .finish 4 2 ∧ (t.half h).point = s.rf .finish 4 2)
      ∧ (s.halfOff h = false → exec (.powerStateWake (.half h)) s = .next s))
  ∧ (∀ s : State,
      (s.halfOff .west = true → s.halfOff .east = true → 2000 ≤ s.tolerance →
        ∃ t, exec (.powerStateEntry .hod) s = .next t
          ∧ t = { s.setRf .pwrState 10 1 1 with power := { s.power with awake := t.power.awake } }
          ∧ (∀ i, i < 168 → setHas t.power.awake i = false)
          ∧ ∀ i, 168 ≤ i → setHas t.power.awake i = setHas s.power.awake i)
      ∧ (s.rf .pwrState 10 1 = 1 → 8000 ≤ s.tolerance →
        ∃ t, exec (.powerStateEntry .render) s = .next t
          ∧ t = { s with regs := t.regs, rows := [], power := { s.power with awake := t.power.awake } }
          ∧ t.rf .pwrState 11 1 = 1 ∧ t.rf .rlrState 16 8 = 0xFF ∧ ∀ i, 168 ≤ i → setHas t.power.awake i = false)
      ∧ (s.rf .pwrState 11 1 = 1 → s.rf .pwrState 12 1 = 0 → s.power.d3 = true → 250000 ≤ s.tolerance → s.rcWait = [] →
        (∀ x ∈ s.rc, ∀ l ∈ x.2, l.dirty = false) →
        (4 ≤ s.sec.scopes → s.sec.scopes < 8 →
          ∃ t, exec (.powerStateEntry .module) s = .next t ∧ ResetLeaves s t ∧ KeepsImages s t)
        ∧ (s.sec.scopes < 4 → ∃ t, exec (.powerStateEntry .module) s = .next t ∧ t.rf .pwrState 12 1 = 1 ∧ (∀ n, t.core n = Core.zero)
          ∧ (∀ p, p < 16 → t.portState p = 0 ∧ (t.port p).peer = (s.port p).peer) ∧ t.sec.scopes = 0
          ∧ t.sec.nonce = none ∧ (∀ d v i, (t.flow d v i).next = (s.flow d v i).next)
          ∧ ∀ k, memGet t.mem k = if k < 2 ^ 45 then memGet s.mem k else 0))
      ∧ (s.rf .pwrState 12 1 = 0 →
        (s.rf .pwrState 10 1 = 1 → ∃ t, exec (.powerStateWake .hod) s = .next t ∧ t = { s with regs := t.regs }
          ∧ t.rf .pwrState 10 2 = 0)
        ∧ (s.rf .pwrState 11 1 = 1 → ∃ t, exec (.powerStateWake .render) s = .next t ∧ t = { s with regs := t.regs }
          ∧ t.rf .pwrState 11 1 = 0))
      ∧ exec (.powerStateWake .module) s = .next s)

/-- Power and thermal samples, the cap, hot spots, rainflow counts and life, floor hold, BRAKE_N (R574, R575, R576,
R577, R578, R580, R581, R582, R584, R585, R586, R647). The cap's rounding to the nearest watt (log entry 55), when
floor hold begins, the lower bounds of the rainflow bins and the first estimate (57) are the model's choices. -/
def Obligations.PowerAndHeat : Prop :=
  (∀ (s : State) (p v48 vaux uj fillUj : Nat),
      let floor := s.rf .pwrPolicy 16 16
      let done := s.power.floorDone = true ∧ p ≤ floor
      ∃ t, exec (.powerSample p v48 vaux uj fillUj) s = .next t
        ∧ t = { s with regs := t.regs, power := t.power, free := t.free }
        ∧ (∀ a, a ≠ Reg.power.addr → a ≠ Reg.supply.addr → a ≠ Reg.energy.addr → a ≠ Reg.filler.addr →
            mapGet? t.regs a = mapGet? s.regs a)
        ∧ t.rf .power 0 16 = min p 65535 ∧ t.rf .supply 32 16 = min ((v48 + 5) / 10) 65535
        ∧ t.rf .supply 16 16 = min vaux 65535
        ∧ t.reg .energy = s.reg .energy + BitVec.ofNat 64 ((s.power.uj + uj) / 1000000)
        ∧ t.power.uj = (s.power.uj + uj) % 1000000
        ∧ t.reg .filler = s.reg .filler + BitVec.ofNat 64 ((s.power.fillUj + fillUj) / 1000000)
        ∧ t.power.fillUj = (s.power.fillUj + fillUj) % 1000000
        ∧ (t.rf .power 32 1 = 1 ↔ floor ≠ 0 ∧ p ≤ floor ∧ ¬ done ∧ s.pins.brake = false)
        ∧ (s.pins.brake = true → t.power.ratio = 1) ∧ 1 ≤ t.power.ratio ∧ t.power.ratio ≤ 64)
  ∧ (∀ (s : State) (temps : List Int) (tj tin : Int) (p : Nat), tj ∈ temps → (∀ x ∈ temps, x ≤ tj) →
      let ti : Nat := if 0 ≤ tin ∧ tin ≤ 80 then tin.toNat else 45
      let last := s.power.lastP
      let near := 500 ≤ p ∧ (p - last) * 100 ≤ 5 * last ∧ (last - p) * 100 ≤ 5 * last
      let old := if s.rf .therm 48 10 = 0 then s.flash.rf.toNat else s.rf .therm 0 16
      let num : Int := 63 * old * p + (tj - ti) * 1000000
      ∃ t, exec (.thermalSample temps tin p) s = .next t ∧ t = { s with regs := t.regs, power := t.power }
        ∧ OnlyReg s t .therm ∧ t.power.temps = temps ∧ t.rf .therm 40 8 = ti ∧ t.power.lastP = p ∧ t.power.lastTin = ti
        ∧ (0 ≤ tj → tj ≤ 255 → (t.rf .therm 32 8 : Int) = tj)
        ∧ (near → t.rf .therm 48 10 = min 1023 (s.rf .therm 48 10 + 1)
          ∧ (0 ≤ num → num < 65535 * 64 * p → (t.rf .therm 0 16 : Int) * (64 * p) < num + 64 * p
            ∧ num < (t.rf .therm 0 16 : Int) * (64 * p) + 64 * p))
        ∧ (¬ near → t.rf .therm 48 10 = s.rf .therm 48 10 ∧ t.rf .therm 0 16 = s.rf .therm 0 16)
        ∧ CapRule t ∧ t.power.cut = if s.sites.any fun x => x.2.stuck then s.power.cut else 0)
  ∧ (∀ (s : State) (tin : Int),
      let ti : Nat := if 0 ≤ tin ∧ tin ≤ 80 then tin.toNat else 45
      ((ti : Int) = s.power.lastTin → exec (.inletTemperatureChange tin) s = .next s)
      ∧ ((ti : Int) ≠ s.power.lastTin →
        ∃ t, exec (.inletTemperatureChange tin) s = .next t ∧ t = { s with regs := t.regs, power := t.power }
          ∧ OnlyReg s t .therm ∧ t.rf .therm 40 8 = ti ∧ t.power.lastTin = ti ∧ t.rf .therm 0 16 = s.rf .therm 0 16
          ∧ t.rf .therm 48 10 = s.rf .therm 48 10 ∧ CapRule t
          ∧ t.power.cut = if s.sites.any fun x => x.2.stuck then s.power.cut else 0))
  ∧ (∀ s : State, exec .thermalEstimateStore s = .next { s with flash := { s.flash with
      est := BitVec.ofNat 64 (s.rf .therm 0 16), valid := s.rf .therm 48 10 } })
  ∧ (∀ (s : State) (site : Nat) (temp : Int), site < 168 →
      let x := s.site site
      let stuck := x.stuck && decide (104 ≤ temp)
      (∃ t, exec (.hotSpotFall site temp) s = .next t ∧ t = { s with sites := t.sites }
        ∧ (∀ k, k ≠ site → t.site k = s.site k)
        ∧ t.site site = { x with stuck := stuck
                                 ratio := (if 104 ≤ temp ∧ 4 < x.ratio then x.ratio - 1 else x.ratio) })
      ∧ (∃ t, exec (.hotSpotRise site temp) s = .next t ∧ t = { s with sites := t.sites }
        ∧ (∀ k, k ≠ site → t.site k = s.site k)
        ∧ t.site site = { x with stuck := stuck
                                 ratio := (if temp ≤ 102 ∧ x.ratio < 16 then x.ratio + 1 else x.ratio) })
      ∧ (x.ratio = 4 → 105 ≤ temp ∨ 104 ≤ temp ∧ x.stuck = true →
        ∃ t, exec (.hotSpotCapStep site temp) s = .next t ∧ t = { s with regs := t.regs, sites := t.sites, power := t.power }
          ∧ OnlyReg s t .therm ∧ t.rf .therm 16 16 = max 600 (s.rf .therm 16 16 - 50)
          ∧ t.site site = { x with stuck := true } ∧ t.power = { s.power with cut := s.power.cut + 50 })
      ∧ (x.ratio ≠ 4 ∨ temp < 104 →
        ∃ t, exec (.hotSpotCapStep site temp) s = .next t ∧ t = { s with sites := t.sites }
          ∧ t.site site = { x with stuck := stuck }))
  ∧ (∀ (s : State) (temp b a z : Int), (a < b ↔ temp < b) → temp ≠ b → a ≠ b →
      let x := (b - a).natAbs
      let y := (a - z).natAbs
      (s.power.turns = [] → exec (.rainflowSample temp) s = .next { s with power := { s.power with turns := [temp] } })
      ∧ (s.power.turns = [b, a] →
        exec (.rainflowSample temp) s = .next { s with power := { s.power with turns := [temp, b, a] } })
      ∧ (s.power.turns = [temp, b, a] → exec (.rainflowSample temp) s = .next s)
      ∧ (s.power.turns = [b, a, z] → x < y →
        exec (.rainflowSample temp) s = .next { s with power := { s.power with turns := [temp, b, a, z] } })
      ∧ (s.power.turns = [b, a, z] → y ≤ x →
        ∃ t, exec (.rainflowSample temp) s = .next t
          ∧ t = { s with regs := t.regs, power := { s.power with turns := [temp, b, a] } }
          ∧ (y < 5 → t.regs = s.regs)
          ∧ ∀ k, k < 8 → (if k = 0 then 5 ≤ y ∧ y < 10 else if k = 7 then 70 < y
              else 10 * k ≤ y ∧ (y < 10 * (k + 1) ∨ k = 6 ∧ y = 70)) →
            OnlyReg s t (.tcyc k) ∧ t.rf (.tcyc k) 0 32 = min (s.rf (.tcyc k) 0 32 + 1) (2 ^ 32 - 1)
              ∧ t.rf (.tcyc k) 32 32 = s.rf (.tcyc k) 32 32))
  ∧ (∀ s : State,
      let ks := (List.range 8).filter fun k => decide (s.rf (.tcyc k) 32 32 ≠ 0)
      let den := ks.foldl (fun m k => m * s.rf (.tcyc k) 32 32) 1
      let num := (ks.map fun k => 500 * s.rf (.tcyc k) 0 32 * (den / s.rf (.tcyc k) 32 32)).sum
      ∃ t, exec .lifeRecompute s = .next t ∧ t = { s with regs := t.regs, flash := { s.flash with tcyc := t.flash.tcyc } }
        ∧ OnlyReg s t .life ∧ (∀ k, k < 8 → mapGet t.flash.tcyc k 0 = s.rf (.tcyc k) 0 32)
        ∧ (num < (2 ^ 32 - 1) * den → t.rf .life 0 32 * den < num + den ∧ num < t.rf .life 0 32 * den + den))
  ∧ (∀ s : State,
      (s.rf .power 32 1 = 1 → ∃ t, exec .floorHoldExpiry s = .next t
        ∧ t = { s with regs := t.regs, power := { s.power with floorDone := true } } ∧ OnlyReg s t .power
        ∧ t.rf .power 32 1 = 0)
      ∧ (s.rcWait = [] → ∃ t, exec .brakeNAssert s = .next t
        ∧ t = { s with regs := t.regs, pins := { s.pins with brake := true }
                       power := { s.power with
                         ratio := 1, floorDone := s.power.floorDone || decide (s.rf .power 32 1 = 1) }
                       rollers := t.rollers, rows := t.rows, refreshDue := t.refreshDue }
        ∧ OnlyReg s t .power ∧ t.rf .power 32 1 = 0 ∧ t.limitNow ≤ 600
        ∧ (∀ x, t.roller x = { s.roller x with pass := false })
        ∧ ∀ ch, ch < 128 → setHas t.refreshDue ch = false ∧ ∀ b, b < 64 →
            mapGet? t.rows (ch * 64 + b) = if setHas s.refreshDue ch then none else mapGet? s.rows (ch * 64 + b))
      ∧ ∃ t, exec .brakeNDeassert s = .next t
        ∧ t = { s with pins := { s.pins with brake := false }, rollers := t.rollers }
        ∧ ∀ x, x < 512 → t.roller x = (if setHas s.refreshDue (x / 4) = false ∧ (s.roller x).goesOn = true
            then { s.roller x with pass := true } else s.roller x))

/-- LATH_VC_POLICY, SCR_CFG and PMU_PERM locks, PMU_MARK, sampling on and off, spills of sample records (R6, R131,
R445, R608, R618, R624, R626, R627, R628, R629, R630); that a retune window holds back the spill of a sampling turned
off is the model's choice (log entry 115). That a write of 1 to EN returns the ring to its first rows is the model's
choice (log entry 24). -/
def Obligations.LocksCountersAndSamples : Prop :=
  (∀ (s : State) (w : Word), s.sec.recovery = false → s.loaded = true →
      (∃ t, exec (.lathVcPolicyLock .host w) s = .next t ∧ t = { s with regs := t.regs } ∧ OnlyReg s t .vcPolicy
        ∧ (t.rf .vcPolicy 63 1 = 1 ↔ bitAt w 63 = true ∨ s.rf .vcPolicy 63 1 = 1)
        ∧ (s.rf .vcPolicy 63 1 = 0 →
          t.rf .vcPolicy 0 16 = (if 10 ≤ fld w 0 16 ∧ fld w 0 16 ≤ 1000 then fld w 0 16 else s.rf .vcPolicy 0 16)
          ∧ t.rf .vcPolicy 16 8 = (if 2 ≤ fld w 16 8 ∧ fld w 16 8 ≤ 20 then fld w 16 8 else s.rf .vcPolicy 16 8)
          ∧ t.rf .vcPolicy 32 8 = (if 1 ≤ fld w 32 8 ∧ fld w 32 8 ≤ 200 then fld w 32 8 else s.rf .vcPolicy 32 8))
        ∧ (s.rf .vcPolicy 63 1 = 1 → s.sec.scopes / 2 % 2 = 0 → t.reg .vcPolicy = s.reg .vcPolicy))
      ∧ (∃ t, exec (.lathVcPolicyLock .firmware w) s = .next t ∧ t.rf .vcPolicy 63 1 = s.rf .vcPolicy 63 1)
      ∧ (∃ t, exec (.scrCfgLock .host w) s = .next t ∧ t = { s with regs := t.regs } ∧ OnlyReg s t .scrCfg
        ∧ (t.rf .scrCfg 0 1 = 1 ↔ bitAt w 0 = true ∨ s.rf .scrCfg 0 1 = 1)
        ∧ (s.rf .scrCfg 0 1 = 0 → t.rf .scrCfg 16 16
          = if 1 ≤ fld w 16 16 ∧ fld w 16 16 ≤ 60000 then fld w 16 16 else s.rf .scrCfg 16 16)
        ∧ (s.rf .scrCfg 0 1 = 1 → s.sec.scopes / 2 % 2 = 0 → t.reg .scrCfg = s.reg .scrCfg))
      ∧ ∃ t, exec (.scrCfgLock .firmware w) s = .next t ∧ t.rf .scrCfg 0 1 = s.rf .scrCfg 0 1)
  ∧ (∀ (s : State) (lc : Nat) (req : Requester) (w : Word), s.blockReached lc → req ≠ .bmc →
      s.pmuOpen req (.pmuMark lc) = true →
      let p := s.pmu lc
      let r : Sample := ⟨s.reg (.pmuCycle lc),
        BitVec.ofNat 64 ((s.core lc).pc.toNat + 7 * 2 ^ 48 + 1 * 2 ^ 52), 0, 0, w⟩
      let lost : Sample := ⟨s.reg (.pmuCycle lc), BitVec.ofNat 64 (2 * 2 ^ 52), 0, 0, BitVec.ofNat 64 p.lost⟩
      (s.rf (.pmuSctrl lc) 0 1 = 0 → exec (.pmuMarkWrite lc req w) s = .next s)
      ∧ (s.rf (.pmuSctrl lc) 0 1 = 1 → p.lost = 0 → p.buf.length < 256 →
        exec (.pmuMarkWrite lc req w) s = .next (s.setPmu lc { p with buf := p.buf ++ [r] }))
      ∧ (s.rf (.pmuSctrl lc) 0 1 = 1 → p.lost ≠ 0 → p.buf.length < 255 →
        exec (.pmuMarkWrite lc req w) s = .next (s.setPmu lc { p with buf := p.buf ++ [lost, r], lost := 0 }))
      ∧ (s.rf (.pmuSctrl lc) 0 1 = 1 → 256 ≤ p.buf.length →
        ∃ t, exec (.pmuMarkWrite lc req w) s = .next t ∧ t = { s with regs := t.regs, pmus := t.pmus }
          ∧ t.pmu lc = { p with lost := p.lost + 1 } ∧ (∀ a, ¬ CountAddr lc a → mapGet? t.regs a = mapGet? s.regs a)
          ∧ t.rf (.pmuSstat lc) 16 16 = min (s.rf (.pmuSstat lc) 16 16 + 1) 65535))
  ∧ (∀ (s : State) (lc : Nat) (req : Requester) (w : Word), s.blockReached lc → req ≠ .bmc →
      s.pmuOpen req (.pmuSctrl lc) = true →
      let p := s.pmu lc
      let row := s.rf (.pmuSpill lc) 0 16
      let rows := s.rf (.pmuSpill lc) 32 16
      let ok : Prop := row % 16 = 0 ∧ rows % 16 = 0 ∧ 16 ≤ rows ∧ row + rows ≤ s.rowsUsed ∧ s.siteOf lc ∈ s.slices
      let fields (t : State) : Prop := t.rf (.pmuSctrl lc) 8 7 = fld w 8 7
        ∧ t.rf (.pmuSctrl lc) 32 16 = if 1 ≤ fld w 32 16 then fld w 32 16 else s.rf (.pmuSctrl lc) 32 16
      (ok → ∃ t, exec (.pmuSamplingEnable lc req w) s = .next t ∧ t = { s with regs := t.regs, pmus := t.pmus }
        ∧ OnlyReg s t (.pmuSctrl lc) ∧ t.rf (.pmuSctrl lc) 0 1 = 1 ∧ fields t
        ∧ t.pmu lc = { p with count := 0, ring := 0 })
      ∧ (¬ ok → ∃ t, exec (.pmuSamplingEnable lc req w) s = .next t ∧ t = { s with regs := t.regs }
        ∧ t.rf (.pmuSctrl lc) 0 1 = 0 ∧ t.rf (.pmuSstat lc) 15 1 = 1)
      ∧ (p.buf = [] → ∃ t, exec (.pmuSamplingDisable lc req w) s = .next t ∧ t = { s with regs := t.regs }
        ∧ OnlyReg s t (.pmuSctrl lc) ∧ t.rf (.pmuSctrl lc) 0 1 = 0 ∧ fields t)
      ∧ (s.windowOpen lc = true → ∃ t, exec (.pmuSamplingDisable lc req w) s = .next t ∧ t = { s with regs := t.regs }
        ∧ OnlyReg s t (.pmuSctrl lc) ∧ t.rf (.pmuSctrl lc) 0 1 = 0 ∧ fields t)
      ∧ (s.windowOpen lc = false → 1 ≤ p.buf.length → p.buf.length ≤ 128 →
        ∃ t, exec (.pmuSamplingDisable lc req w) s = .next t ∧ t.cores = s.cores ∧ t.rf (.pmuSctrl lc) 0 1 = 0
          ∧ Stores s t (hodKey (s.siteOf lc) (row + p.ring) 0) (p.buf.flatMap Sample.bytes) ∧ (t.pmu lc).buf = []
          ∧ t.rf (.pmuSstat lc) 32 32 = (s.rf (.pmuSstat lc) 32 32 + (p.buf.length + 7) / 8) % 2 ^ 32))
  ∧ (∀ (s : State) (lc : Nat), lc < 144 →
      let p := s.pmu lc
      (s.windowOpen lc = true → exec (.sampleSpill lc) s = .next s)
      ∧ (p.buf.length < 128 → (s.rf (.pmuSctrl lc) 0 1 = 1 ∨ p.buf = []) → exec (.sampleSpill lc) s = .next s)
      ∧ (s.windowOpen lc = false → (128 ≤ p.buf.length ∨ (p.buf ≠ [] ∧ s.rf (.pmuSctrl lc) 0 1 = 0)) →
        ∃ t, exec (.sampleSpill lc) s = .next t ∧ t.cores = s.cores
        ∧ t = { s with mem := t.mem, poison := t.poison, regs := t.regs, pmus := t.pmus }
        ∧ (∀ a, ¬ CountAddr lc a → ¬ LathCountAddr a → mapGet? t.regs a = mapGet? s.regs a)
        ∧ Stores s t (hodKey (s.siteOf lc) (s.rf (.pmuSpill lc) 0 16 + p.ring) 0) ((p.buf.take 128).flatMap Sample.bytes)
        ∧ t.pmu lc = { p with
            buf := p.buf.drop 128, ring := (if p.ring + 16 < s.rf (.pmuSpill lc) 32 16 then p.ring + 16 else 0) }
        ∧ t.rf (.pmuSstat lc) 32 32 = (s.rf (.pmuSstat lc) 32 32 + (min p.buf.length 128 + 7) / 8) % 2 ^ 32))
  ∧ ∀ (s : State) (lc : Nat) (w : Word), s.blockReached lc → s.loaded = true →
      (∀ k, exec (.pmuPermSave lc (.core k) w) s = .next s ∧ exec (.pmuPermLock lc (.core k) w) s = .next s)
      ∧ (∀ k, s.rf (.pmuPerm lc) 0 1 = 0 → s.sec.scopes % 4 = 0 → exec (.pmuMarkWrite lc (.core k) w) s = .next s
        ∧ exec (.pmuSamplingEnable lc (.core k) w) s = .next s ∧ exec (.pmuSamplingDisable lc (.core k) w) s = .next s)
      ∧ (s.rf (.pmuPerm lc) 1 1 = 0 → ∃ t, exec (.pmuPermSave lc .host w) s = .next t
        ∧ t = { s with regs := t.regs, flash := { s.flash with user := bitAt w 0 } } ∧ OnlyReg s t (.pmuPerm lc)
        ∧ t.rf (.pmuPerm lc) 0 1 = fld w 0 1 ∧ (t.rf (.pmuPerm lc) 1 1 = 1 ↔ bitAt w 1 = true))
      ∧ (s.rf (.pmuPerm lc) 1 1 = 1 → s.sec.scopes / 2 % 2 = 0 → ∃ t, exec (.pmuPermSave lc .host w) s = .next t
        ∧ t = { s with regs := t.regs } ∧ t.reg (.pmuPerm lc) = s.reg (.pmuPerm lc))
      ∧ (∃ t, exec (.pmuPermLock lc .host w) s = .next t ∧ OnlyReg s t (.pmuPerm lc) ∧ t.rf (.pmuPerm lc) 1 1 = 1)
      ∧ ∃ t, exec (.pmuPermLock lc .firmware w) s = .next t ∧ t.rf (.pmuPerm lc) 1 1 = s.rf (.pmuPerm lc) 1 1

/-- Firmware commands and their results, SPDM answers of each transport, debug requests, grants and their ends (R597,
R599, R601, R602, R604, R605, R606, R607, R608, R609, R610, R612). The order of firmware commands (log entry 41),
ERROR for an SPDM request out of order or of a slot that does not exist (76), which refusals count and what ENROL
answers (77) and the unlock log's record (9) are the model's choices. -/
def Obligations.FirmwareAttestationAndDebug : Prop :=
  (∀ (s : State) (cmd : Nat) (c : FwCtl) (i : Instr), FwCmd c cmd i → c.req = .host →
      (s.sec.fwCmd ≠ none → ∃ t, exec i s = .next t ∧ t = { s with regs := t.regs }
        ∧ OnlyReg s t .fwStatus ∧ t.rf .fwStatus 0 8 = 2 ∧ t.rf .fwStatus 8 1 = s.rf .fwStatus 8 1)
      ∧ (s.sec.fwCmd = none → ∃ t, exec i s = .next t
        ∧ t.sec.fwCmd = some ⟨cmd, c.panel, c.chunk.toNat, 0, 0⟩ ∧ t.rf .fwStatus 8 1 = 1 ∧ t.rf .fwStatus 0 8 = 0
        ∧ SameBanks s t ∧ t.mem = s.mem ∧ t.cores = s.cores
        ∧ (c.panel = false → t = { s with regs := t.regs, sec := t.sec })
        ∧ (c.panel = true → s.rf .klkIdent 45 1 = 0 → s.rf .klkIdent 0 4 = 0 →
          (∀ j, 1 ≤ j → j < s.rf .klkIdent 24 5 →
            Out.mgt j cmd c.chunk.toNat (if cmd = 2 then memGets s.sec.img 0 65536 else []) ∈ t.out ∧ setHas t.sec.mgtPend j = true)
          ∧ t.rf .fwStatus 48 16 = 0)))
  ∧ (∀ (s : State) (panel : Bool) (chunk : Nat), chunk < 256 →
      let run (cmd : Nat) : Prop := s.sec.fwCmd = some ⟨cmd, panel, chunk, 0, 0⟩
      let i := !s.sec.activeB
      let k := s.sec.bank i
      let good : Prop := k.valid = true ∧ imageCheck s.otp k.image = 1
      (run 1 → ∃ t, exec (.fwCommandComplete true) s = .next t ∧ FwEnds s t 1 ∧ t.sec.bank i = ⟨[], false⟩
        ∧ t.sec.fwStep = 1 ∧ t.sec.activeB = s.sec.activeB ∧ t.otp = s.otp)
      ∧ (run 2 → 1 ≤ s.sec.fwStep → ∃ t, exec (.fwCommandComplete true) s = .next t ∧ FwEnds s t 1
        ∧ imgPart (t.sec.bank i).image (chunk * 65536) 65536 = memGets s.sec.img 0 65536
        ∧ (t.sec.bank i).valid = k.valid ∧ t.sec.fwStep = 2 ∧ t.sec.activeB = s.sec.activeB ∧ t.otp = s.otp)
      ∧ (run 3 → s.sec.fwStep = 2 → ∃ t, exec (.fwCommandComplete true) s = .next t
        ∧ FwEnds s t (imageCheck s.otp k.image) ∧ (t.sec.bank i).image = k.image
        ∧ (t.sec.bank i).valid = (k.valid || decide (imageCheck s.otp k.image = 1)) ∧ t.otp = s.otp)
      ∧ (run 4 → good → ∃ t, exec (.fwCommandComplete true) s = .next t ∧ FwEnds s t 1
        ∧ t.sec.activeB = i ∧ t.sec.bankA = s.sec.bankA ∧ t.sec.bankB = s.sec.bankB ∧ t.otp = s.otp)
      ∧ (run 5 → s.sec.recovery = false → ∃ t, exec (.fwCommandComplete true) s = .next t ∧ FwEnds s t 1
        ∧ t.otp = { s.otp with rollback := max s.otp.rollback s.sec.runSvn } ∧ t.sec.activeB = s.sec.activeB)
      ∧ (run 6 → ∃ t, exec (.fwCommandComplete true) s = .next t ∧ FwEnds s t 1
        ∧ t.sec.bank i = { k with valid := false } ∧ t.otp = s.otp)
      ∧ ((run 2 ∧ s.sec.fwStep = 0 ∨ run 3 ∧ s.sec.fwStep ≠ 2 ∨ run 4 ∧ ¬ good ∨ run 5 ∧ s.sec.recovery = true) →
        ∃ t, exec (.fwCommandComplete true) s = .next t ∧ FwEnds s t 7 ∧ SameBanks s t)
      ∧ (run 2 → 1 ≤ s.sec.fwStep → ∃ t, exec (.fwCommandComplete false) s = .next t ∧ FwEnds s t 8 ∧ SameBanks s t))
  ∧ (∀ (s : State) (tr : Transport) (q : SpdmReq), s.answersOn tr →
      (∃ t, exec (.getVersion tr q) s = .next t ∧ SpdmSends s t tr "VERSION" [0x13] 1 0)
      ∧ (1 ≤ s.spdmAt tr → ∃ t, exec (.getCapabilities tr q) s = .next t
        ∧ SpdmSends s t tr "CAPABILITIES" [] (max 2 (s.spdmAt tr)) (s.spdmAlgs tr))
      ∧ (s.spdmAt tr = 0 → ∃ t, exec (.getCapabilities tr q) s = .next t ∧ SpdmSends s t tr "ERROR" [] 0 (s.spdmAlgs tr))
      ∧ (2 ≤ s.spdmAt tr → q.algs % 4 ≠ 0 → ∃ t, exec (.negotiateAlgorithms tr q) s = .next t
        ∧ SpdmSends s t tr "ALGORITHMS" [BitVec.ofNat 8 (q.algs % 4)] 3 (q.algs % 4))
      ∧ (s.spdmAt tr < 2 ∨ q.algs % 4 = 0 → ∃ t, exec (.negotiateAlgorithms tr q) s = .next t
        ∧ SpdmSends s t tr "ERROR" [] (s.spdmAt tr) (s.spdmAlgs tr))
      ∧ (∀ (c : Transport → SpdmReq → Instr) (name : String) (body : List Byte), SpdmAsks s tr c q name body →
        (3 ≤ s.spdmAt tr → ∃ t, exec (c tr q) s = .next t
          ∧ SpdmSends s t tr name body (s.spdmAt tr) (s.spdmAlgs tr))
        ∧ (s.spdmAt tr < 3 → ∃ t, exec (c tr q) s = .next t
          ∧ SpdmSends s t tr "ERROR" [] (s.spdmAt tr) (s.spdmAlgs tr)))
      ∧ ∀ c, (2 ≤ q.slot ∨ s.spdmAlgs tr / 2 ^ q.slot % 2 = 0) → (c = .challenge tr q ∨ c = .getMeasurements tr q ∧ q.sign = true) →
        ∃ t, exec c s = .next t ∧ SpdmSends s t tr "ERROR" [] (s.spdmAt tr) (s.spdmAlgs tr))
  ∧ (∀ (s : State) (q : SpdmReq), s.pins.i3c = none → exec (.getVersion .i3c q) s = .next s)
  ∧ (∀ (s : State) (cmd : Nat) (c : DbgCtl) (i : Instr), DbgCmd c cmd i → c.req = .host →
      (c.slot.toNat ≤ 3 ∨ c.slot.toNat = 15) →
      (s.sec.dbgCmd ≠ none → ∃ t, exec i s = .next t ∧ t = { s with regs := t.regs }
        ∧ OnlyReg s t .dbgCtrl ∧ t.rf .dbgCtrl 16 8 = 2)
      ∧ (s.sec.dbgCmd = none → ∃ t, exec i s = .next t ∧ OnlyReg s t .dbgCtrl
        ∧ t = { s with
            regs := t.regs, sec := { s.sec with dbgCmd := some ⟨cmd, false, 0, c.slot.toNat, c.scope.toNat⟩ } }
        ∧ t.rf .dbgCtrl 24 1 = 1 ∧ t.rf .dbgCtrl 16 8 = 0))
  ∧ (∀ (s : State) (slot scope : Nat), scope < 8 →
      let run (cmd : Nat) : Prop := s.sec.dbgCmd = some ⟨cmd, false, 0, slot, scope⟩
      let busy : Prop := scope / 4 % 2 = 1 ∧ s.launchesIn 1 ++ s.runningLaunches ≠ []
      (run 1 → s.sec.refused < 8 → ¬ busy → ∃ t n, exec .dbgCommandComplete s = .next t ∧ DbgEnds s t 1
        ∧ t.sec.nonce = some n ∧ n.length = 32 ∧ t.sec.nonceScope = scope ∧ t.sec.nonceSlot = slot
        ∧ t.sec.scopes = s.sec.scopes ∧ t.otp = s.otp)
      ∧ (run 1 → 8 ≤ s.sec.refused → ∃ t, exec .dbgCommandComplete s = .next t ∧ DbgEnds s t 10
        ∧ t.sec = { s.sec with dbgCmd := none } ∧ t.otp = s.otp)
      ∧ (run 1 → s.sec.refused < 8 → busy → ∃ t, exec .dbgCommandComplete s = .next t ∧ DbgEnds s t 2
        ∧ t.sec = { s.sec with dbgCmd := none } ∧ t.otp = s.otp)
      ∧ (run 2 → s.sec.nonce = none → ∃ t, exec .dbgCommandComplete s = .next t ∧ DbgEnds s t 9
        ∧ t.sec.scopes = s.sec.scopes ∧ t.sec.refused = s.sec.refused + 1 ∧ t.otp = s.otp)
      ∧ (∀ n, run 2 → s.sec.nonce = some n → ∃ t, exec .dbgCommandComplete s = .next t
        ∧ DbgEnds s t (s.submitCheck n) ∧ t.sec.nonce = none ∧ t.otp = s.otp
        ∧ t.sec.scopes = (if s.submitCheck n = 1 then s.sec.scopes ||| s.sec.nonceScope else s.sec.scopes)
        ∧ t.sec.grants = s.sec.grants
          ++ (if s.submitCheck n = 1 then [⟨s.sec.nonceScope, s.sec.nonceSlot, n⟩] else [])
        ∧ t.sec.refused = (if s.submitCheck n = 1 then s.sec.refused else s.sec.refused + 1)
        ∧ (s.sec.nonceSlot < 4 → 4 ≤ s.sec.nonceScope → s.submitCheck n = 4)
        ∧ (s.slotKeys s.sec.nonceSlot = none → s.submitCheck n = 4))
      ∧ (run 4 → ∃ t r, exec .dbgCommandComplete s = .next t ∧ DbgEnds s t r ∧ t.sec.scopes = s.sec.scopes
        ∧ (r ≠ 1 → t.otp = s.otp)
        ∧ (r = 1 → ∃ k o x, s.otp.ops[k]? = some o ∧ t.otp = { s.otp with ops := s.otp.ops.set k x } ∧ x.valid = true
          ∧ (o.valid = true → x = { o with revoked := true }))))
  ∧ (∀ (s : State) (c : DbgCtl), c.req = .host →
      (s.sec.scopes = 0 → s.sec.grants = [] → s.sec.dbgCmd = none → ∃ t, exec (.dbgRelock c) s = .next t ∧ OnlyReg s t .dbgCtrl
        ∧ t = { s with regs := t.regs } ∧ t.rf .dbgCtrl 16 8 = 1)
      ∧ (s.sec.scopes = 1 ∨ s.sec.scopes = 2 ∨ s.sec.scopes = 3 →
        ∃ t, exec (.dbgRelock c) s = .next t ∧ t.sec = { s.sec with scopes := 0, grants := [] }
          ∧ t.flash.unlock.length = s.flash.unlock.length + s.sec.grants.length ∧ t.mem = s.mem ∧ t.cores = s.cores
          ∧ ∀ (i : Nat) (g : Grant), s.sec.grants[i]? = some g → ∃ r, t.flash.unlock[s.flash.unlock.length + i]? = some r
            ∧ r.take 8 = leBytes 4 s.flash.starts ++ leBytes 1 g.scopes ++ leBytes 1 g.slot ++ [1, 0]
            ∧ (16 ≤ g.nonce.length → (r.drop 8).take 16 = g.nonce.take 16))
      ∧ (4 ≤ s.sec.scopes → s.sec.scopes < 8 → ∃ t, exec (.dbgRelock c) s = .next t ∧ ResetLeaves s t ∧ KeepsImages s t
        ∧ t.flash.unlock.length = s.flash.unlock.length + s.sec.grants.length))
  ∧ ∀ s : State, exec .nonceExpiry s = .next { s with sec := { s.sec with nonce := none } }

/-- What the machine holds at reset; values that the spec does not give are the model's (log entry 2) (R85, R94, R133,
R139, R453, R561, R588, R595). -/
def Obligations.ResetState : Prop :=
  State.reset.Sound ∧ State.reset.pending = [] ∧ step State.reset = .next State.reset
  ∧ (∀ k, memGet State.reset.mem k = 0 ∧ State.reset.poisoned k = false)
  ∧ (∀ lc, State.reset.core lc = Core.zero ∧ coreStatusWord (State.reset.core lc) = 0)
  ∧ (∀ (lc : Nat) (r : BitVec 5), (State.reset.core lc).rx r = 0)
  ∧ (∀ r : Reg, State.reset.reg r = r.resetWord)
  ∧ State.reset.ready = false ∧ State.reset.startsNow
  ∧ (∀ p, State.reset.portState p = 0 ∧ (State.reset.port p).credReq = 512 ∧ (State.reset.port p).credRsp = 512
      ∧ (State.reset.port p).credMgt = 64)
  ∧ State.reset.slots = [] ∧ State.reset.msix = [] ∧ State.reset.sec.scopes = 0 ∧ State.reset.sec.nonce = none
  ∧ State.reset.power.ratio = 64 ∧ State.reset.power.rail = 780 ∧ State.reset.otp.closed = true

/-- Every step goes on and keeps memory in its canonical form (R4, R10, R139, R160, R166). -/
def Obligations.StepKeepsSound : Prop :=
  (∀ s : State, ∃ t, step s = .next t) ∧ ∀ s t : State, s.Sound → step s = .next t → t.Sound

/-- Decoding the encoding of every well-formed Flikoush instruction gives it back; decoded words re-encode, but for the
fields that a DREG instruction does not use (R11, R40, R41, R42, R71, R162, R217, R277, R305, R335, R378, R434; that those
fields may hold anything is the model's reading of R57, log entry 88). -/
def Obligations.DecodeEncode : Prop :=
  (∀ i : Flik, i.wf = true → decode i.encode = some i)
  ∧ ∀ (w : BitVec 32) (i : Flik), decode w = some i →
      i.wf = true ∧ w &&& ~~~i.unused = i.encode ∧ (w.toNat / 2 ^ 25 ≠ 20 → i.unused = 0)
end

