-- ==== Sys2Proof/Laws/Bits.lean ====
section
/-!
SUPPORT. Laws of bit fields: a field read after it was written, and the other fields, which stay.
-/

namespace Sys2Proof.Machine

theorem fld_testBit {n : Nat} (w : BitVec n) (lo len i : Nat) :
    (fld w lo len).testBit i = (decide (i < len) && w.getLsbD (lo + i)) := by
  simp [fld, Nat.testBit_mod_two_pow, Nat.testBit_div_two_pow, BitVec.getLsbD, Nat.add_comm]

theorem fld_lt {n : Nat} (w : BitVec n) (lo len : Nat) : fld w lo len < 2 ^ len := Nat.mod_lt _ (Nat.two_pow_pos len)

theorem fldMask_getLsbD (n lo len i : Nat) :
    (fldMask n lo len).getLsbD i = (decide (i < n) && (decide (lo ≤ i) && decide (i < lo + len))) := by
  simp only [fldMask, BitVec.getLsbD_ofNat]
  congr 1
  rw [Nat.testBit_mul_two_pow, Nat.testBit_two_pow_sub_one]
  by_cases h : lo ≤ i <;> simp [h]
  omega

theorem setFld_getLsbD {n : Nat} (w : BitVec n) (lo len v i : Nat) :
    (setFld w lo len v).getLsbD i =
      (decide (i < n) && if lo ≤ i ∧ i < lo + len then v.testBit (i - lo) else w.getLsbD i) := by
  simp only [setFld, BitVec.getLsbD_or, BitVec.getLsbD_and, BitVec.getLsbD_not, fldMask_getLsbD, BitVec.getLsbD_ofNat,
    Nat.testBit_mul_two_pow, Nat.testBit_mod_two_pow]
  by_cases hn : i < n
  · by_cases h1 : lo ≤ i
    · by_cases h2 : i < lo + len
      · have h3 : i - lo < len := by omega
        simp [hn, h1, h2, h3]
      · have h3 : ¬ (i - lo < len) := by omega
        simp [hn, h1, h2, h3]
    · simp [hn, h1]
  · simp [hn, BitVec.getLsbD_of_ge w i (by omega)]

/-- A field read after it was written. -/
@[simp] theorem fld_setFld_self {n : Nat} (w : BitVec n) (lo len v : Nat) (h : lo + len ≤ n) :
    fld (setFld w lo len v) lo len = v % 2 ^ len := by
  apply Nat.eq_of_testBit_eq
  intro i
  rw [fld_testBit, setFld_getLsbD, Nat.testBit_mod_two_pow]
  by_cases hi : i < len
  · have h1 : lo + i < n := by omega
    simp [hi, h1]
  · simp [hi]

/-- A field that does not meet the one written. -/
theorem fld_setFld_ne {n : Nat} (w : BitVec n) (lo len v lo' len' : Nat) (h : lo' + len' ≤ lo ∨ lo + len ≤ lo') :
    fld (setFld w lo len v) lo' len' = fld w lo' len' := by
  apply Nat.eq_of_testBit_eq
  intro i
  rw [fld_testBit, fld_testBit, setFld_getLsbD]
  by_cases hi : i < len'
  · have h1 : ¬ (lo ≤ lo' + i ∧ lo' + i < lo + len) := by omega
    rw [if_neg h1]
    by_cases hn : lo' + i < n
    · simp [hi, hn]
    · simp [hi, hn, BitVec.getLsbD_of_ge w (lo' + i) (by omega)]
  · simp [hi]

/-- A field of a word cut to its width is itself. -/
theorem fld_zero_of_lt {n : Nat} (w : BitVec n) (len : Nat) (h : n ≤ len) : fld w 0 len = w.toNat := by
  simp only [fld, Nat.pow_zero, Nat.div_one]
  exact Nat.mod_eq_of_lt (lt_of_lt_of_le w.isLt (Nat.pow_le_pow_right (by decide) h))

@[simp] theorem leBytes_length (n v : Nat) : (leBytes n v).length = n := by
  induction n generalizing v with
  | zero => rfl
  | succ n ih => simp [leBytes, ih]

/-- The bytes of a number spell it again. -/
theorem leNat_leBytes (n v : Nat) : leNat (leBytes n v) = v % 2 ^ (8 * n) := by
  induction n generalizing v with
  | zero => simp [leBytes, leNat, Nat.mod_one]
  | succ n ih =>
    simp only [leBytes, leNat, ih, BitVec.toNat_ofNat]
    have h : 2 ^ (8 * (n + 1)) = 256 * 2 ^ (8 * n) := by
      rw [Nat.mul_succ, Nat.pow_add]; ring
    rw [h, Nat.mod_mul]

end Sys2Proof.Machine
end

