-- ==== Sys2Proof/Laws/Maps.lean ====
section
/-!
SUPPORT. Laws of the finite maps, the sets and the memory of Machine/Maps.lean: reads after writes, and the canonical form,
which every memory operation keeps.
-/

namespace Sys2Proof.Machine

variable {α : Type}

/-! ### Maps -/

@[simp] theorem mapGet?_nil (n : Nat) : mapGet? ([] : FMap α) n = none := rfl

@[simp] theorem mapGet_nil (n : Nat) (d : α) : mapGet ([] : FMap α) n d = d := rfl

@[simp] theorem mapGet?_set_self (m : FMap α) (n : Nat) (x : α) : mapGet? (mapSet m n x) n = some x := by
  induction m with
  | nil => simp [mapSet, mapGet?]
  | cons e m ih =>
    obtain ⟨k, v⟩ := e
    simp only [mapSet]
    split
    · simp [mapGet?]
    · split
      · simp [mapGet?]
      · rename_i h1 h2
        simp [mapGet?, ih]; omega

@[simp] theorem mapGet_set_self (m : FMap α) (n : Nat) (x d : α) : mapGet (mapSet m n x) n d = x := by
  simp [mapGet]

theorem mapGet?_set_ne (m : FMap α) {n k : Nat} (x : α) (h : k ≠ n) : mapGet? (mapSet m n x) k = mapGet? m k := by
  induction m with
  | nil => simp [mapSet, mapGet?, Ne.symm h]
  | cons e m ih =>
    obtain ⟨j, v⟩ := e
    simp only [mapSet]
    split
    · simp [mapGet?, Ne.symm h]
    · split
      · rename_i _ hn
        subst hn
        simp [mapGet?, Ne.symm h]
      · simp [mapGet?, ih]

theorem mapGet_set_ne (m : FMap α) {n k : Nat} (x d : α) (h : k ≠ n) : mapGet (mapSet m n x) k d = mapGet m k d := by
  simp [mapGet, mapGet?_set_ne m x h]

theorem mapGet_set (m : FMap α) (n k : Nat) (x d : α) :
    mapGet (mapSet m n x) k d = if k = n then x else mapGet m k d := by
  split
  · subst_vars; simp
  · exact mapGet_set_ne m x d ‹_›

/-- A bound below every key. -/
theorem mapSortedFrom_weaken {b c : Option Nat} {m : FMap α} (h : mapSortedFrom b m = true)
    (hc : ∀ x, c = some x → ∃ y, b = some y ∧ x ≤ y) : mapSortedFrom c m = true := by
  cases m with
  | nil => rfl
  | cons e m =>
    obtain ⟨k, v⟩ := e
    simp only [mapSortedFrom, Bool.and_eq_true] at h ⊢
    refine ⟨?_, h.2⟩
    cases c with
    | none => rfl
    | some x =>
      obtain ⟨y, rfl, hxy⟩ := hc x rfl
      simp only [decide_eq_true_eq] at h ⊢
      omega

theorem mapSortedFrom_none {b : Option Nat} {m : FMap α} (h : mapSortedFrom b m = true) :
    mapSortedFrom none m = true := mapSortedFrom_weaken h (by simp)

/-- No key at or below the bound is listed. -/
theorem mapGet?_of_sorted {x : Nat} {m : FMap α} (h : mapSortedFrom (some x) m = true) {n : Nat} (hn : n ≤ x) :
    mapGet? m n = none := by
  induction m generalizing x with
  | nil => rfl
  | cons e m ih =>
    obtain ⟨k, v⟩ := e
    simp only [mapSortedFrom, Bool.and_eq_true, decide_eq_true_eq] at h
    have hk : k ≠ n := by omega
    simp [mapGet?, hk, ih h.2 (by omega)]

theorem mapSortedFrom_set {b : Option Nat} {m : FMap α} (h : mapSortedFrom b m = true) (n : Nat) (x : α)
    (hb : ∀ y, b = some y → y < n) : mapSortedFrom b (mapSet m n x) = true := by
  induction m generalizing b with
  | nil =>
    cases b with
    | none => rfl
    | some y => simpa [mapSet, mapSortedFrom] using hb y rfl
  | cons e m ih =>
    obtain ⟨k, v⟩ := e
    simp only [mapSortedFrom, Bool.and_eq_true] at h
    simp only [mapSet]
    split
    · simp only [mapSortedFrom, Bool.and_eq_true]
      refine ⟨?_, by simpa using ‹n < k›, h.2⟩
      cases b with
      | none => rfl
      | some y => simpa using hb y rfl
    · split
      · subst_vars
        simp only [mapSortedFrom, Bool.and_eq_true]
        exact ⟨h.1, h.2⟩
      · simp only [mapSortedFrom, Bool.and_eq_true]
        exact ⟨h.1, ih h.2 (by intro y hy; cases hy; omega)⟩

theorem mapSorted_set {m : FMap α} (h : mapSorted m = true) (n : Nat) (x : α) : mapSorted (mapSet m n x) = true :=
  mapSortedFrom_set h n x (by simp)

theorem mapSortedFrom_erase {b : Option Nat} {m : FMap α} (h : mapSortedFrom b m = true) (n : Nat) :
    mapSortedFrom b (mapErase m n) = true := by
  induction m generalizing b with
  | nil => rfl
  | cons e m ih =>
    obtain ⟨k, v⟩ := e
    simp only [mapSortedFrom, Bool.and_eq_true] at h
    simp only [mapErase]
    split
    · refine ih (mapSortedFrom_weaken h.2 ?_)
      intro y hy
      subst hy
      have := h.1
      simp only [decide_eq_true_eq] at this
      exact ⟨k, rfl, by omega⟩
    · simp only [mapSortedFrom, Bool.and_eq_true]
      exact ⟨h.1, ih h.2⟩

theorem mapSortedFrom_filter {b : Option Nat} {m : FMap α} (h : mapSortedFrom b m = true) (p : Nat × α → Bool) :
    mapSortedFrom b (m.filter p) = true := by
  induction m generalizing b with
  | nil => rfl
  | cons e m ih =>
    obtain ⟨k, v⟩ := e
    simp only [mapSortedFrom, Bool.and_eq_true] at h
    simp only [List.filter_cons]
    split
    · simp only [mapSortedFrom, Bool.and_eq_true]
      exact ⟨h.1, ih h.2⟩
    · refine ih (mapSortedFrom_weaken h.2 ?_)
      intro y hy
      subst hy
      have := h.1
      simp only [decide_eq_true_eq] at this
      exact ⟨k, rfl, by omega⟩

@[simp] theorem mapGet?_erase_self (m : FMap α) (n : Nat) : mapGet? (mapErase m n) n = none := by
  induction m with
  | nil => rfl
  | cons e m ih =>
    obtain ⟨k, v⟩ := e
    simp only [mapErase]
    split
    · exact ih
    · simp [mapGet?, *]

theorem mapGet?_erase_ne (m : FMap α) {n k : Nat} (h : k ≠ n) : mapGet? (mapErase m n) k = mapGet? m k := by
  induction m with
  | nil => rfl
  | cons e m ih =>
    obtain ⟨j, v⟩ := e
    simp only [mapErase]
    split
    · subst_vars
      simp [mapGet?, Ne.symm h, ih]
    · simp [mapGet?, ih]

theorem mapGet_erase (m : FMap α) (n k : Nat) (d : α) :
    mapGet (mapErase m n) k d = if k = n then d else mapGet m k d := by
  unfold mapGet
  split
  · subst_vars; simp
  · rw [mapGet?_erase_ne m ‹_›]

/-! ### Sets -/

@[simp] theorem setHas_nil (n : Nat) : setHas [] n = false := rfl

@[simp] theorem setHas_add (s : NSet) (n k : Nat) : setHas (setAdd s n) k = (k == n || setHas s k) := by
  induction s with
  | nil => simp [setAdd, setHas, Bool.beq_comm]
  | cons j s ih =>
    simp only [setAdd]
    split
    · simp only [setHas]
      by_cases h : k = n
      · simp [h]
      · have : (n == k) = false := by simp; omega
        simp [h, this]
    · split
      · subst_vars
        simp only [setHas]
        by_cases h : k = j
        · simp [h]
        · have : (j == k) = false := by simp; omega
          simp [h, this]
      · simp only [setHas, ih]
        cases (j == k) <;> cases (k == n) <;> simp

@[simp] theorem setHas_del (s : NSet) (n k : Nat) : setHas (setDel s n) k = (k != n && setHas s k) := by
  induction s with
  | nil => simp [setDel]
  | cons j s ih =>
    simp only [setDel]
    split
    · subst_vars
      simp only [setHas, ih]
      by_cases h : k = j
      · simp [h]
      · have : (j == k) = false := by simp; omega
        simp [this]
    · simp only [setHas, ih]
      by_cases h : k = n
      · subst h
        have : (j == k) = false := by simpa using ‹¬ j = k›
        simp [this]
      · have : (k != n) = true := by simpa using h
        simp [this]

/-! ### Memory -/

@[simp] theorem memNoZero_nil : memNoZero [] = true := rfl

theorem memNoZero_set {m : Memory} (h : memNoZero m = true) (n : Nat) {b : Byte} (hb : b ≠ 0) :
    memNoZero (mapSet m n b) = true := by
  induction m with
  | nil => simpa [mapSet, memNoZero] using hb
  | cons e m ih =>
    obtain ⟨k, v⟩ := e
    simp only [memNoZero, Bool.and_eq_true] at h
    simp only [mapSet]
    split
    · simp only [memNoZero, Bool.and_eq_true]
      exact ⟨by simpa using hb, h.1, h.2⟩
    · split
      · simp only [memNoZero, Bool.and_eq_true]
        exact ⟨by simpa using hb, h.2⟩
      · simp only [memNoZero, Bool.and_eq_true]
        exact ⟨h.1, ih h.2⟩

theorem memNoZero_filter {m : Memory} (h : memNoZero m = true) (p : Nat × Byte → Bool) :
    memNoZero (m.filter p) = true := by
  induction m with
  | nil => rfl
  | cons e m ih =>
    obtain ⟨k, v⟩ := e
    simp only [memNoZero, Bool.and_eq_true] at h
    simp only [List.filter_cons]
    split
    · simp only [memNoZero, Bool.and_eq_true]
      exact ⟨h.1, ih h.2⟩
    · exact ih h.2

theorem memNoZero_erase {m : Memory} (h : memNoZero m = true) (n : Nat) : memNoZero (mapErase m n) = true := by
  induction m with
  | nil => rfl
  | cons e m ih =>
    obtain ⟨k, v⟩ := e
    simp only [memNoZero, Bool.and_eq_true] at h
    simp only [mapErase]
    split
    · exact ih h.2
    · simp only [memNoZero, Bool.and_eq_true]
      exact ⟨h.1, ih h.2⟩

theorem Memory.wf_iff (m : Memory) : Memory.wf m = true ↔ mapSorted m = true ∧ memNoZero m = true := by
  simp [Memory.wf]

@[simp] theorem Memory.wf_nil : Memory.wf [] = true := rfl

theorem Memory.wf_put {m : Memory} (h : Memory.wf m = true) (a : Nat) (b : Byte) : Memory.wf (memPut m a b) = true := by
  rw [Memory.wf_iff] at h ⊢
  unfold memPut
  split
  · exact ⟨mapSortedFrom_erase h.1 a, memNoZero_erase h.2 a⟩
  · exact ⟨mapSorted_set h.1 a b, memNoZero_set h.2 a ‹_›⟩

theorem Memory.wf_puts {m : Memory} (h : Memory.wf m = true) (a : Nat) (bs : List Byte) :
    Memory.wf (memPuts m a bs) = true := by
  induction bs generalizing m a with
  | nil => exact h
  | cons b bs ih => exact ih (Memory.wf_put h a b) (a + 1)

theorem Memory.wf_filter {m : Memory} (h : Memory.wf m = true) (p : Nat × Byte → Bool) :
    Memory.wf (m.filter p) = true := by
  rw [Memory.wf_iff] at h ⊢
  exact ⟨mapSortedFrom_filter h.1 p, memNoZero_filter h.2 p⟩

/-- A byte after a write of one byte. -/
theorem memGet_put (m : Memory) (a k : Nat) (b : Byte) :
    memGet (memPut m a b) k = if k = a then b else memGet m k := by
  unfold memGet memPut
  split
  · subst_vars
    split
    · subst_vars
      simp [mapGet]
    · simp [mapGet, mapGet?_erase_ne m ‹_›]
  · exact mapGet_set m a k b 0

/-- A byte after a write of consecutive bytes. -/
theorem memGet_puts (m : Memory) (a k : Nat) (bs : List Byte) :
    memGet (memPuts m a bs) k = if a ≤ k ∧ k < a + bs.length then bs.getD (k - a) 0 else memGet m k := by
  induction bs generalizing m a with
  | nil => simp [memPuts]
  | cons b bs ih =>
    rw [memPuts, ih, memGet_put]
    simp only [List.length_cons]
    by_cases hk : k = a
    · subst hk; simp
    · by_cases h1 : a ≤ k ∧ k < a + (bs.length + 1)
      · have h2 : a + 1 ≤ k ∧ k < a + 1 + bs.length := by omega
        obtain ⟨j, hj⟩ : ∃ j, k - a = j + 1 := ⟨k - a - 1, by omega⟩
        have h3 : k - (a + 1) = j := by omega
        rw [if_pos h2, if_pos h1, hj, h3]; rfl
      · have h2 : ¬ (a + 1 ≤ k ∧ k < a + 1 + bs.length) := by omega
        rw [if_neg h2, if_neg h1, if_neg hk]

@[simp] theorem memGets_length (m : Memory) (a n : Nat) : (memGets m a n).length = n := by
  induction n generalizing a with
  | zero => rfl
  | succ n ih => simp [memGets, ih]

theorem memGets_congr {m m' : Memory} {a n : Nat} (h : ∀ k, a ≤ k → k < a + n → memGet m k = memGet m' k) :
    memGets m a n = memGets m' a n := by
  induction n generalizing a with
  | zero => rfl
  | succ n ih =>
    simp only [memGets]
    rw [h a (le_refl _) (by omega), ih fun k h1 h2 => h k (by omega) (by omega)]

/-- Bytes read back after they were written. -/
theorem memGets_puts_self (m : Memory) (a : Nat) (bs : List Byte) :
    memGets (memPuts m a bs) a bs.length = bs := by
  induction bs generalizing m a with
  | nil => rfl
  | cons b bs ih =>
    simp only [List.length_cons, memGets, memPuts]
    rw [ih, memGet_puts, if_neg (by omega), memGet_put, if_pos rfl]

/-- Bytes that a write does not touch. -/
theorem memGets_puts_disjoint (m : Memory) (a : Nat) (bs : List Byte) (k n : Nat)
    (hd : k + n ≤ a ∨ a + bs.length ≤ k) : memGets (memPuts m a bs) k n = memGets m k n := by
  refine memGets_congr fun j h1 h2 => ?_
  rw [memGet_puts, if_neg (by omega)]

end Sys2Proof.Machine
end

