-- ==== Sys2Proof/Laws/State.lean ====
section
/-!
SUPPORT. Laws of State: one lemma per field per update, and what a register, a core or a site reads after a write.
-/

namespace Sys2Proof.Machine

/-! ### setReg -/

@[simp] theorem State.setReg_pending (s : State) (r : Reg) (w : Word) : (s.setReg r w).pending = s.pending := rfl
@[simp] theorem State.setReg_free (s : State) (r : Reg) (w : Word) : (s.setReg r w).free = s.free := rfl
@[simp] theorem State.setReg_out (s : State) (r : Reg) (w : Word) : (s.setReg r w).out = s.out := rfl
@[simp] theorem State.setReg_mem (s : State) (r : Reg) (w : Word) : (s.setReg r w).mem = s.mem := rfl
@[simp] theorem State.setReg_poison (s : State) (r : Reg) (w : Word) : (s.setReg r w).poison = s.poison := rfl
@[simp] theorem State.setReg_bad (s : State) (r : Reg) (w : Word) : (s.setReg r w).bad = s.bad := rfl
@[simp] theorem State.setReg_cores (s : State) (r : Reg) (w : Word) : (s.setReg r w).cores = s.cores := rfl
@[simp] theorem State.setReg_slices (s : State) (r : Reg) (w : Word) : (s.setReg r w).slices = s.slices := rfl
@[simp] theorem State.setReg_rcMib (s : State) (r : Reg) (w : Word) : (s.setReg r w).rcMib = s.rcMib := rfl
@[simp] theorem State.setReg_rc (s : State) (r : Reg) (w : Word) : (s.setReg r w).rc = s.rc := rfl
@[simp] theorem State.setReg_rcWait (s : State) (r : Reg) (w : Word) : (s.setReg r w).rcWait = s.rcWait := rfl
@[simp] theorem State.setReg_seen (s : State) (r : Reg) (w : Word) : (s.setReg r w).seen = s.seen := rfl
@[simp] theorem State.setReg_hodPatch (s : State) (r : Reg) (w : Word) : (s.setReg r w).hodPatch = s.hodPatch := rfl
@[simp] theorem State.setReg_rndPatch (s : State) (r : Reg) (w : Word) : (s.setReg r w).rndPatch = s.rndPatch := rfl
@[simp] theorem State.setReg_errlog (s : State) (r : Reg) (w : Word) : (s.setReg r w).errlog = s.errlog := rfl
@[simp] theorem State.setReg_rub (s : State) (r : Reg) (w : Word) : (s.setReg r w).rub = s.rub := rfl
@[simp] theorem State.setReg_vcs (s : State) (r : Reg) (w : Word) : (s.setReg r w).vcs = s.vcs := rfl
@[simp] theorem State.setReg_sites (s : State) (r : Reg) (w : Word) : (s.setReg r w).sites = s.sites := rfl
@[simp] theorem State.setReg_west (s : State) (r : Reg) (w : Word) : (s.setReg r w).west = s.west := rfl
@[simp] theorem State.setReg_east (s : State) (r : Reg) (w : Word) : (s.setReg r w).east = s.east := rfl
@[simp] theorem State.setReg_rollers (s : State) (r : Reg) (w : Word) : (s.setReg r w).rollers = s.rollers := rfl
@[simp] theorem State.setReg_seqs (s : State) (r : Reg) (w : Word) : (s.setReg r w).seqs = s.seqs := rfl
@[simp] theorem State.setReg_disarming (s : State) (r : Reg) (w : Word) : (s.setReg r w).disarming = s.disarming := rfl
@[simp] theorem State.setReg_rows (s : State) (r : Reg) (w : Word) : (s.setReg r w).rows = s.rows := rfl
@[simp] theorem State.setReg_refreshDue (s : State) (r : Reg) (w : Word) : (s.setReg r w).refreshDue = s.refreshDue := rfl
@[simp] theorem State.setReg_colls (s : State) (r : Reg) (w : Word) : (s.setReg r w).colls = s.colls := rfl
@[simp] theorem State.setReg_deferred (s : State) (r : Reg) (w : Word) : (s.setReg r w).deferred = s.deferred := rfl
@[simp] theorem State.setReg_ports (s : State) (r : Reg) (w : Word) : (s.setReg r w).ports = s.ports := rfl
@[simp] theorem State.setReg_tx (s : State) (r : Reg) (w : Word) : (s.setReg r w).tx = s.tx := rfl
@[simp] theorem State.setReg_rx (s : State) (r : Reg) (w : Word) : (s.setReg r w).rx = s.rx := rfl
@[simp] theorem State.setReg_slots (s : State) (r : Reg) (w : Word) : (s.setReg r w).slots = s.slots := rfl
@[simp] theorem State.setReg_fires (s : State) (r : Reg) (w : Word) : (s.setReg r w).fires = s.fires := rfl
@[simp] theorem State.setReg_orphans (s : State) (r : Reg) (w : Word) : (s.setReg r w).orphans = s.orphans := rfl
@[simp] theorem State.setReg_msix (s : State) (r : Reg) (w : Word) : (s.setReg r w).msix = s.msix := rfl
@[simp] theorem State.setReg_cfg (s : State) (r : Reg) (w : Word) : (s.setReg r w).cfg = s.cfg := rfl
@[simp] theorem State.setReg_aer (s : State) (r : Reg) (w : Word) : (s.setReg r w).aer = s.aer := rfl
@[simp] theorem State.setReg_pmus (s : State) (r : Reg) (w : Word) : (s.setReg r w).pmus = s.pmus := rfl
@[simp] theorem State.setReg_flash (s : State) (r : Reg) (w : Word) : (s.setReg r w).flash = s.flash := rfl
@[simp] theorem State.setReg_snagHeld (s : State) (r : Reg) (w : Word) : (s.setReg r w).snagHeld = s.snagHeld := rfl
@[simp] theorem State.setReg_retired (s : State) (r : Reg) (w : Word) : (s.setReg r w).retired = s.retired := rfl
@[simp] theorem State.setReg_repairs (s : State) (r : Reg) (w : Word) : (s.setReg r w).repairs = s.repairs := rfl
@[simp] theorem State.setReg_remaps (s : State) (r : Reg) (w : Word) : (s.setReg r w).remaps = s.remaps := rfl
@[simp] theorem State.setReg_otp (s : State) (r : Reg) (w : Word) : (s.setReg r w).otp = s.otp := rfl
@[simp] theorem State.setReg_sec (s : State) (r : Reg) (w : Word) : (s.setReg r w).sec = s.sec := rfl
@[simp] theorem State.setReg_power (s : State) (r : Reg) (w : Word) : (s.setReg r w).power = s.power := rfl
@[simp] theorem State.setReg_pins (s : State) (r : Reg) (w : Word) : (s.setReg r w).pins = s.pins := rfl
@[simp] theorem State.setReg_trip (s : State) (r : Reg) (w : Word) : (s.setReg r w).trip = s.trip := rfl

/-! ### setRf -/

@[simp] theorem State.setRf_pending (s : State) (r : Reg) (lo len v : Nat) : (s.setRf r lo len v).pending = s.pending := rfl
@[simp] theorem State.setRf_free (s : State) (r : Reg) (lo len v : Nat) : (s.setRf r lo len v).free = s.free := rfl
@[simp] theorem State.setRf_out (s : State) (r : Reg) (lo len v : Nat) : (s.setRf r lo len v).out = s.out := rfl
@[simp] theorem State.setRf_mem (s : State) (r : Reg) (lo len v : Nat) : (s.setRf r lo len v).mem = s.mem := rfl
@[simp] theorem State.setRf_poison (s : State) (r : Reg) (lo len v : Nat) : (s.setRf r lo len v).poison = s.poison := rfl
@[simp] theorem State.setRf_bad (s : State) (r : Reg) (lo len v : Nat) : (s.setRf r lo len v).bad = s.bad := rfl
@[simp] theorem State.setRf_cores (s : State) (r : Reg) (lo len v : Nat) : (s.setRf r lo len v).cores = s.cores := rfl
@[simp] theorem State.setRf_slices (s : State) (r : Reg) (lo len v : Nat) : (s.setRf r lo len v).slices = s.slices := rfl
@[simp] theorem State.setRf_rcMib (s : State) (r : Reg) (lo len v : Nat) : (s.setRf r lo len v).rcMib = s.rcMib := rfl
@[simp] theorem State.setRf_rc (s : State) (r : Reg) (lo len v : Nat) : (s.setRf r lo len v).rc = s.rc := rfl
@[simp] theorem State.setRf_rcWait (s : State) (r : Reg) (lo len v : Nat) : (s.setRf r lo len v).rcWait = s.rcWait := rfl
@[simp] theorem State.setRf_seen (s : State) (r : Reg) (lo len v : Nat) : (s.setRf r lo len v).seen = s.seen := rfl
@[simp] theorem State.setRf_hodPatch (s : State) (r : Reg) (lo len v : Nat) : (s.setRf r lo len v).hodPatch = s.hodPatch := rfl
@[simp] theorem State.setRf_rndPatch (s : State) (r : Reg) (lo len v : Nat) : (s.setRf r lo len v).rndPatch = s.rndPatch := rfl
@[simp] theorem State.setRf_errlog (s : State) (r : Reg) (lo len v : Nat) : (s.setRf r lo len v).errlog = s.errlog := rfl
@[simp] theorem State.setRf_rub (s : State) (r : Reg) (lo len v : Nat) : (s.setRf r lo len v).rub = s.rub := rfl
@[simp] theorem State.setRf_vcs (s : State) (r : Reg) (lo len v : Nat) : (s.setRf r lo len v).vcs = s.vcs := rfl
@[simp] theorem State.setRf_sites (s : State) (r : Reg) (lo len v : Nat) : (s.setRf r lo len v).sites = s.sites := rfl
@[simp] theorem State.setRf_west (s : State) (r : Reg) (lo len v : Nat) : (s.setRf r lo len v).west = s.west := rfl
@[simp] theorem State.setRf_east (s : State) (r : Reg) (lo len v : Nat) : (s.setRf r lo len v).east = s.east := rfl
@[simp] theorem State.setRf_rollers (s : State) (r : Reg) (lo len v : Nat) : (s.setRf r lo len v).rollers = s.rollers := rfl
@[simp] theorem State.setRf_seqs (s : State) (r : Reg) (lo len v : Nat) : (s.setRf r lo len v).seqs = s.seqs := rfl
@[simp] theorem State.setRf_disarming (s : State) (r : Reg) (lo len v : Nat) : (s.setRf r lo len v).disarming = s.disarming := rfl
@[simp] theorem State.setRf_rows (s : State) (r : Reg) (lo len v : Nat) : (s.setRf r lo len v).rows = s.rows := rfl
@[simp] theorem State.setRf_refreshDue (s : State) (r : Reg) (lo len v : Nat) : (s.setRf r lo len v).refreshDue = s.refreshDue := rfl
@[simp] theorem State.setRf_colls (s : State) (r : Reg) (lo len v : Nat) : (s.setRf r lo len v).colls = s.colls := rfl
@[simp] theorem State.setRf_deferred (s : State) (r : Reg) (lo len v : Nat) : (s.setRf r lo len v).deferred = s.deferred := rfl
@[simp] theorem State.setRf_ports (s : State) (r : Reg) (lo len v : Nat) : (s.setRf r lo len v).ports = s.ports := rfl
@[simp] theorem State.setRf_tx (s : State) (r : Reg) (lo len v : Nat) : (s.setRf r lo len v).tx = s.tx := rfl
@[simp] theorem State.setRf_rx (s : State) (r : Reg) (lo len v : Nat) : (s.setRf r lo len v).rx = s.rx := rfl
@[simp] theorem State.setRf_slots (s : State) (r : Reg) (lo len v : Nat) : (s.setRf r lo len v).slots = s.slots := rfl
@[simp] theorem State.setRf_fires (s : State) (r : Reg) (lo len v : Nat) : (s.setRf r lo len v).fires = s.fires := rfl
@[simp] theorem State.setRf_orphans (s : State) (r : Reg) (lo len v : Nat) : (s.setRf r lo len v).orphans = s.orphans := rfl
@[simp] theorem State.setRf_msix (s : State) (r : Reg) (lo len v : Nat) : (s.setRf r lo len v).msix = s.msix := rfl
@[simp] theorem State.setRf_cfg (s : State) (r : Reg) (lo len v : Nat) : (s.setRf r lo len v).cfg = s.cfg := rfl
@[simp] theorem State.setRf_aer (s : State) (r : Reg) (lo len v : Nat) : (s.setRf r lo len v).aer = s.aer := rfl
@[simp] theorem State.setRf_pmus (s : State) (r : Reg) (lo len v : Nat) : (s.setRf r lo len v).pmus = s.pmus := rfl
@[simp] theorem State.setRf_flash (s : State) (r : Reg) (lo len v : Nat) : (s.setRf r lo len v).flash = s.flash := rfl
@[simp] theorem State.setRf_snagHeld (s : State) (r : Reg) (lo len v : Nat) : (s.setRf r lo len v).snagHeld = s.snagHeld := rfl
@[simp] theorem State.setRf_retired (s : State) (r : Reg) (lo len v : Nat) : (s.setRf r lo len v).retired = s.retired := rfl
@[simp] theorem State.setRf_repairs (s : State) (r : Reg) (lo len v : Nat) : (s.setRf r lo len v).repairs = s.repairs := rfl
@[simp] theorem State.setRf_remaps (s : State) (r : Reg) (lo len v : Nat) : (s.setRf r lo len v).remaps = s.remaps := rfl
@[simp] theorem State.setRf_otp (s : State) (r : Reg) (lo len v : Nat) : (s.setRf r lo len v).otp = s.otp := rfl
@[simp] theorem State.setRf_sec (s : State) (r : Reg) (lo len v : Nat) : (s.setRf r lo len v).sec = s.sec := rfl
@[simp] theorem State.setRf_power (s : State) (r : Reg) (lo len v : Nat) : (s.setRf r lo len v).power = s.power := rfl
@[simp] theorem State.setRf_pins (s : State) (r : Reg) (lo len v : Nat) : (s.setRf r lo len v).pins = s.pins := rfl
@[simp] theorem State.setRf_trip (s : State) (r : Reg) (lo len v : Nat) : (s.setRf r lo len v).trip = s.trip := rfl

/-! ### incRf -/

@[simp] theorem State.incRf_pending (s : State) (r : Reg) (lo len k : Nat) : (s.incRf r lo len k).pending = s.pending := rfl
@[simp] theorem State.incRf_free (s : State) (r : Reg) (lo len k : Nat) : (s.incRf r lo len k).free = s.free := rfl
@[simp] theorem State.incRf_out (s : State) (r : Reg) (lo len k : Nat) : (s.incRf r lo len k).out = s.out := rfl
@[simp] theorem State.incRf_mem (s : State) (r : Reg) (lo len k : Nat) : (s.incRf r lo len k).mem = s.mem := rfl
@[simp] theorem State.incRf_poison (s : State) (r : Reg) (lo len k : Nat) : (s.incRf r lo len k).poison = s.poison := rfl
@[simp] theorem State.incRf_bad (s : State) (r : Reg) (lo len k : Nat) : (s.incRf r lo len k).bad = s.bad := rfl
@[simp] theorem State.incRf_cores (s : State) (r : Reg) (lo len k : Nat) : (s.incRf r lo len k).cores = s.cores := rfl
@[simp] theorem State.incRf_slices (s : State) (r : Reg) (lo len k : Nat) : (s.incRf r lo len k).slices = s.slices := rfl
@[simp] theorem State.incRf_rcMib (s : State) (r : Reg) (lo len k : Nat) : (s.incRf r lo len k).rcMib = s.rcMib := rfl
@[simp] theorem State.incRf_rc (s : State) (r : Reg) (lo len k : Nat) : (s.incRf r lo len k).rc = s.rc := rfl
@[simp] theorem State.incRf_rcWait (s : State) (r : Reg) (lo len k : Nat) : (s.incRf r lo len k).rcWait = s.rcWait := rfl
@[simp] theorem State.incRf_seen (s : State) (r : Reg) (lo len k : Nat) : (s.incRf r lo len k).seen = s.seen := rfl
@[simp] theorem State.incRf_hodPatch (s : State) (r : Reg) (lo len k : Nat) : (s.incRf r lo len k).hodPatch = s.hodPatch := rfl
@[simp] theorem State.incRf_rndPatch (s : State) (r : Reg) (lo len k : Nat) : (s.incRf r lo len k).rndPatch = s.rndPatch := rfl
@[simp] theorem State.incRf_errlog (s : State) (r : Reg) (lo len k : Nat) : (s.incRf r lo len k).errlog = s.errlog := rfl
@[simp] theorem State.incRf_rub (s : State) (r : Reg) (lo len k : Nat) : (s.incRf r lo len k).rub = s.rub := rfl
@[simp] theorem State.incRf_vcs (s : State) (r : Reg) (lo len k : Nat) : (s.incRf r lo len k).vcs = s.vcs := rfl
@[simp] theorem State.incRf_sites (s : State) (r : Reg) (lo len k : Nat) : (s.incRf r lo len k).sites = s.sites := rfl
@[simp] theorem State.incRf_west (s : State) (r : Reg) (lo len k : Nat) : (s.incRf r lo len k).west = s.west := rfl
@[simp] theorem State.incRf_east (s : State) (r : Reg) (lo len k : Nat) : (s.incRf r lo len k).east = s.east := rfl
@[simp] theorem State.incRf_rollers (s : State) (r : Reg) (lo len k : Nat) : (s.incRf r lo len k).rollers = s.rollers := rfl
@[simp] theorem State.incRf_seqs (s : State) (r : Reg) (lo len k : Nat) : (s.incRf r lo len k).seqs = s.seqs := rfl
@[simp] theorem State.incRf_disarming (s : State) (r : Reg) (lo len k : Nat) : (s.incRf r lo len k).disarming = s.disarming := rfl
@[simp] theorem State.incRf_rows (s : State) (r : Reg) (lo len k : Nat) : (s.incRf r lo len k).rows = s.rows := rfl
@[simp] theorem State.incRf_refreshDue (s : State) (r : Reg) (lo len k : Nat) : (s.incRf r lo len k).refreshDue = s.refreshDue := rfl
@[simp] theorem State.incRf_colls (s : State) (r : Reg) (lo len k : Nat) : (s.incRf r lo len k).colls = s.colls := rfl
@[simp] theorem State.incRf_deferred (s : State) (r : Reg) (lo len k : Nat) : (s.incRf r lo len k).deferred = s.deferred := rfl
@[simp] theorem State.incRf_ports (s : State) (r : Reg) (lo len k : Nat) : (s.incRf r lo len k).ports = s.ports := rfl
@[simp] theorem State.incRf_tx (s : State) (r : Reg) (lo len k : Nat) : (s.incRf r lo len k).tx = s.tx := rfl
@[simp] theorem State.incRf_rx (s : State) (r : Reg) (lo len k : Nat) : (s.incRf r lo len k).rx = s.rx := rfl
@[simp] theorem State.incRf_slots (s : State) (r : Reg) (lo len k : Nat) : (s.incRf r lo len k).slots = s.slots := rfl
@[simp] theorem State.incRf_fires (s : State) (r : Reg) (lo len k : Nat) : (s.incRf r lo len k).fires = s.fires := rfl
@[simp] theorem State.incRf_orphans (s : State) (r : Reg) (lo len k : Nat) : (s.incRf r lo len k).orphans = s.orphans := rfl
@[simp] theorem State.incRf_msix (s : State) (r : Reg) (lo len k : Nat) : (s.incRf r lo len k).msix = s.msix := rfl
@[simp] theorem State.incRf_cfg (s : State) (r : Reg) (lo len k : Nat) : (s.incRf r lo len k).cfg = s.cfg := rfl
@[simp] theorem State.incRf_aer (s : State) (r : Reg) (lo len k : Nat) : (s.incRf r lo len k).aer = s.aer := rfl
@[simp] theorem State.incRf_pmus (s : State) (r : Reg) (lo len k : Nat) : (s.incRf r lo len k).pmus = s.pmus := rfl
@[simp] theorem State.incRf_flash (s : State) (r : Reg) (lo len k : Nat) : (s.incRf r lo len k).flash = s.flash := rfl
@[simp] theorem State.incRf_snagHeld (s : State) (r : Reg) (lo len k : Nat) : (s.incRf r lo len k).snagHeld = s.snagHeld := rfl
@[simp] theorem State.incRf_retired (s : State) (r : Reg) (lo len k : Nat) : (s.incRf r lo len k).retired = s.retired := rfl
@[simp] theorem State.incRf_repairs (s : State) (r : Reg) (lo len k : Nat) : (s.incRf r lo len k).repairs = s.repairs := rfl
@[simp] theorem State.incRf_remaps (s : State) (r : Reg) (lo len k : Nat) : (s.incRf r lo len k).remaps = s.remaps := rfl
@[simp] theorem State.incRf_otp (s : State) (r : Reg) (lo len k : Nat) : (s.incRf r lo len k).otp = s.otp := rfl
@[simp] theorem State.incRf_sec (s : State) (r : Reg) (lo len k : Nat) : (s.incRf r lo len k).sec = s.sec := rfl
@[simp] theorem State.incRf_power (s : State) (r : Reg) (lo len k : Nat) : (s.incRf r lo len k).power = s.power := rfl
@[simp] theorem State.incRf_pins (s : State) (r : Reg) (lo len k : Nat) : (s.incRf r lo len k).pins = s.pins := rfl
@[simp] theorem State.incRf_trip (s : State) (r : Reg) (lo len k : Nat) : (s.incRf r lo len k).trip = s.trip := rfl

/-! ### setCore -/

@[simp] theorem State.setCore_pending (s : State) (lc : Nat) (c : Core) : (s.setCore lc c).pending = s.pending := rfl
@[simp] theorem State.setCore_regs (s : State) (lc : Nat) (c : Core) : (s.setCore lc c).regs = s.regs := rfl
@[simp] theorem State.setCore_free (s : State) (lc : Nat) (c : Core) : (s.setCore lc c).free = s.free := rfl
@[simp] theorem State.setCore_out (s : State) (lc : Nat) (c : Core) : (s.setCore lc c).out = s.out := rfl
@[simp] theorem State.setCore_mem (s : State) (lc : Nat) (c : Core) : (s.setCore lc c).mem = s.mem := rfl
@[simp] theorem State.setCore_poison (s : State) (lc : Nat) (c : Core) : (s.setCore lc c).poison = s.poison := rfl
@[simp] theorem State.setCore_bad (s : State) (lc : Nat) (c : Core) : (s.setCore lc c).bad = s.bad := rfl
@[simp] theorem State.setCore_slices (s : State) (lc : Nat) (c : Core) : (s.setCore lc c).slices = s.slices := rfl
@[simp] theorem State.setCore_rcMib (s : State) (lc : Nat) (c : Core) : (s.setCore lc c).rcMib = s.rcMib := rfl
@[simp] theorem State.setCore_rc (s : State) (lc : Nat) (c : Core) : (s.setCore lc c).rc = s.rc := rfl
@[simp] theorem State.setCore_rcWait (s : State) (lc : Nat) (c : Core) : (s.setCore lc c).rcWait = s.rcWait := rfl
@[simp] theorem State.setCore_seen (s : State) (lc : Nat) (c : Core) : (s.setCore lc c).seen = s.seen := rfl
@[simp] theorem State.setCore_hodPatch (s : State) (lc : Nat) (c : Core) : (s.setCore lc c).hodPatch = s.hodPatch := rfl
@[simp] theorem State.setCore_rndPatch (s : State) (lc : Nat) (c : Core) : (s.setCore lc c).rndPatch = s.rndPatch := rfl
@[simp] theorem State.setCore_errlog (s : State) (lc : Nat) (c : Core) : (s.setCore lc c).errlog = s.errlog := rfl
@[simp] theorem State.setCore_rub (s : State) (lc : Nat) (c : Core) : (s.setCore lc c).rub = s.rub := rfl
@[simp] theorem State.setCore_vcs (s : State) (lc : Nat) (c : Core) : (s.setCore lc c).vcs = s.vcs := rfl
@[simp] theorem State.setCore_sites (s : State) (lc : Nat) (c : Core) : (s.setCore lc c).sites = s.sites := rfl
@[simp] theorem State.setCore_west (s : State) (lc : Nat) (c : Core) : (s.setCore lc c).west = s.west := rfl
@[simp] theorem State.setCore_east (s : State) (lc : Nat) (c : Core) : (s.setCore lc c).east = s.east := rfl
@[simp] theorem State.setCore_rollers (s : State) (lc : Nat) (c : Core) : (s.setCore lc c).rollers = s.rollers := rfl
@[simp] theorem State.setCore_seqs (s : State) (lc : Nat) (c : Core) : (s.setCore lc c).seqs = s.seqs := rfl
@[simp] theorem State.setCore_disarming (s : State) (lc : Nat) (c : Core) : (s.setCore lc c).disarming = s.disarming := rfl
@[simp] theorem State.setCore_rows (s : State) (lc : Nat) (c : Core) : (s.setCore lc c).rows = s.rows := rfl
@[simp] theorem State.setCore_refreshDue (s : State) (lc : Nat) (c : Core) : (s.setCore lc c).refreshDue = s.refreshDue := rfl
@[simp] theorem State.setCore_colls (s : State) (lc : Nat) (c : Core) : (s.setCore lc c).colls = s.colls := rfl
@[simp] theorem State.setCore_deferred (s : State) (lc : Nat) (c : Core) : (s.setCore lc c).deferred = s.deferred := rfl
@[simp] theorem State.setCore_ports (s : State) (lc : Nat) (c : Core) : (s.setCore lc c).ports = s.ports := rfl
@[simp] theorem State.setCore_tx (s : State) (lc : Nat) (c : Core) : (s.setCore lc c).tx = s.tx := rfl
@[simp] theorem State.setCore_rx (s : State) (lc : Nat) (c : Core) : (s.setCore lc c).rx = s.rx := rfl
@[simp] theorem State.setCore_slots (s : State) (lc : Nat) (c : Core) : (s.setCore lc c).slots = s.slots := rfl
@[simp] theorem State.setCore_fires (s : State) (lc : Nat) (c : Core) : (s.setCore lc c).fires = s.fires := rfl
@[simp] theorem State.setCore_orphans (s : State) (lc : Nat) (c : Core) : (s.setCore lc c).orphans = s.orphans := rfl
@[simp] theorem State.setCore_msix (s : State) (lc : Nat) (c : Core) : (s.setCore lc c).msix = s.msix := rfl
@[simp] theorem State.setCore_cfg (s : State) (lc : Nat) (c : Core) : (s.setCore lc c).cfg = s.cfg := rfl
@[simp] theorem State.setCore_aer (s : State) (lc : Nat) (c : Core) : (s.setCore lc c).aer = s.aer := rfl
@[simp] theorem State.setCore_pmus (s : State) (lc : Nat) (c : Core) : (s.setCore lc c).pmus = s.pmus := rfl
@[simp] theorem State.setCore_flash (s : State) (lc : Nat) (c : Core) : (s.setCore lc c).flash = s.flash := rfl
@[simp] theorem State.setCore_snagHeld (s : State) (lc : Nat) (c : Core) : (s.setCore lc c).snagHeld = s.snagHeld := rfl
@[simp] theorem State.setCore_retired (s : State) (lc : Nat) (c : Core) : (s.setCore lc c).retired = s.retired := rfl
@[simp] theorem State.setCore_repairs (s : State) (lc : Nat) (c : Core) : (s.setCore lc c).repairs = s.repairs := rfl
@[simp] theorem State.setCore_remaps (s : State) (lc : Nat) (c : Core) : (s.setCore lc c).remaps = s.remaps := rfl
@[simp] theorem State.setCore_otp (s : State) (lc : Nat) (c : Core) : (s.setCore lc c).otp = s.otp := rfl
@[simp] theorem State.setCore_sec (s : State) (lc : Nat) (c : Core) : (s.setCore lc c).sec = s.sec := rfl
@[simp] theorem State.setCore_power (s : State) (lc : Nat) (c : Core) : (s.setCore lc c).power = s.power := rfl
@[simp] theorem State.setCore_pins (s : State) (lc : Nat) (c : Core) : (s.setCore lc c).pins = s.pins := rfl
@[simp] theorem State.setCore_trip (s : State) (lc : Nat) (c : Core) : (s.setCore lc c).trip = s.trip := rfl

/-! ### send -/

@[simp] theorem State.send_pending (s : State) (o : Out) : (s.send o).pending = s.pending := rfl
@[simp] theorem State.send_regs (s : State) (o : Out) : (s.send o).regs = s.regs := rfl
@[simp] theorem State.send_free (s : State) (o : Out) : (s.send o).free = s.free := rfl
@[simp] theorem State.send_mem (s : State) (o : Out) : (s.send o).mem = s.mem := rfl
@[simp] theorem State.send_poison (s : State) (o : Out) : (s.send o).poison = s.poison := rfl
@[simp] theorem State.send_bad (s : State) (o : Out) : (s.send o).bad = s.bad := rfl
@[simp] theorem State.send_cores (s : State) (o : Out) : (s.send o).cores = s.cores := rfl
@[simp] theorem State.send_slices (s : State) (o : Out) : (s.send o).slices = s.slices := rfl
@[simp] theorem State.send_rcMib (s : State) (o : Out) : (s.send o).rcMib = s.rcMib := rfl
@[simp] theorem State.send_rc (s : State) (o : Out) : (s.send o).rc = s.rc := rfl
@[simp] theorem State.send_rcWait (s : State) (o : Out) : (s.send o).rcWait = s.rcWait := rfl
@[simp] theorem State.send_seen (s : State) (o : Out) : (s.send o).seen = s.seen := rfl
@[simp] theorem State.send_hodPatch (s : State) (o : Out) : (s.send o).hodPatch = s.hodPatch := rfl
@[simp] theorem State.send_rndPatch (s : State) (o : Out) : (s.send o).rndPatch = s.rndPatch := rfl
@[simp] theorem State.send_errlog (s : State) (o : Out) : (s.send o).errlog = s.errlog := rfl
@[simp] theorem State.send_rub (s : State) (o : Out) : (s.send o).rub = s.rub := rfl
@[simp] theorem State.send_vcs (s : State) (o : Out) : (s.send o).vcs = s.vcs := rfl
@[simp] theorem State.send_sites (s : State) (o : Out) : (s.send o).sites = s.sites := rfl
@[simp] theorem State.send_west (s : State) (o : Out) : (s.send o).west = s.west := rfl
@[simp] theorem State.send_east (s : State) (o : Out) : (s.send o).east = s.east := rfl
@[simp] theorem State.send_rollers (s : State) (o : Out) : (s.send o).rollers = s.rollers := rfl
@[simp] theorem State.send_seqs (s : State) (o : Out) : (s.send o).seqs = s.seqs := rfl
@[simp] theorem State.send_disarming (s : State) (o : Out) : (s.send o).disarming = s.disarming := rfl
@[simp] theorem State.send_rows (s : State) (o : Out) : (s.send o).rows = s.rows := rfl
@[simp] theorem State.send_refreshDue (s : State) (o : Out) : (s.send o).refreshDue = s.refreshDue := rfl
@[simp] theorem State.send_colls (s : State) (o : Out) : (s.send o).colls = s.colls := rfl
@[simp] theorem State.send_deferred (s : State) (o : Out) : (s.send o).deferred = s.deferred := rfl
@[simp] theorem State.send_ports (s : State) (o : Out) : (s.send o).ports = s.ports := rfl
@[simp] theorem State.send_tx (s : State) (o : Out) : (s.send o).tx = s.tx := rfl
@[simp] theorem State.send_rx (s : State) (o : Out) : (s.send o).rx = s.rx := rfl
@[simp] theorem State.send_slots (s : State) (o : Out) : (s.send o).slots = s.slots := rfl
@[simp] theorem State.send_fires (s : State) (o : Out) : (s.send o).fires = s.fires := rfl
@[simp] theorem State.send_orphans (s : State) (o : Out) : (s.send o).orphans = s.orphans := rfl
@[simp] theorem State.send_msix (s : State) (o : Out) : (s.send o).msix = s.msix := rfl
@[simp] theorem State.send_cfg (s : State) (o : Out) : (s.send o).cfg = s.cfg := rfl
@[simp] theorem State.send_aer (s : State) (o : Out) : (s.send o).aer = s.aer := rfl
@[simp] theorem State.send_pmus (s : State) (o : Out) : (s.send o).pmus = s.pmus := rfl
@[simp] theorem State.send_flash (s : State) (o : Out) : (s.send o).flash = s.flash := rfl
@[simp] theorem State.send_snagHeld (s : State) (o : Out) : (s.send o).snagHeld = s.snagHeld := rfl
@[simp] theorem State.send_retired (s : State) (o : Out) : (s.send o).retired = s.retired := rfl
@[simp] theorem State.send_repairs (s : State) (o : Out) : (s.send o).repairs = s.repairs := rfl
@[simp] theorem State.send_remaps (s : State) (o : Out) : (s.send o).remaps = s.remaps := rfl
@[simp] theorem State.send_otp (s : State) (o : Out) : (s.send o).otp = s.otp := rfl
@[simp] theorem State.send_sec (s : State) (o : Out) : (s.send o).sec = s.sec := rfl
@[simp] theorem State.send_power (s : State) (o : Out) : (s.send o).power = s.power := rfl
@[simp] theorem State.send_pins (s : State) (o : Out) : (s.send o).pins = s.pins := rfl
@[simp] theorem State.send_trip (s : State) (o : Out) : (s.send o).trip = s.trip := rfl

/-! ### setSite -/

@[simp] theorem State.setSite_pending (s : State) (i : Nat) (x : Site) : (s.setSite i x).pending = s.pending := rfl
@[simp] theorem State.setSite_regs (s : State) (i : Nat) (x : Site) : (s.setSite i x).regs = s.regs := rfl
@[simp] theorem State.setSite_free (s : State) (i : Nat) (x : Site) : (s.setSite i x).free = s.free := rfl
@[simp] theorem State.setSite_out (s : State) (i : Nat) (x : Site) : (s.setSite i x).out = s.out := rfl
@[simp] theorem State.setSite_mem (s : State) (i : Nat) (x : Site) : (s.setSite i x).mem = s.mem := rfl
@[simp] theorem State.setSite_poison (s : State) (i : Nat) (x : Site) : (s.setSite i x).poison = s.poison := rfl
@[simp] theorem State.setSite_bad (s : State) (i : Nat) (x : Site) : (s.setSite i x).bad = s.bad := rfl
@[simp] theorem State.setSite_cores (s : State) (i : Nat) (x : Site) : (s.setSite i x).cores = s.cores := rfl
@[simp] theorem State.setSite_slices (s : State) (i : Nat) (x : Site) : (s.setSite i x).slices = s.slices := rfl
@[simp] theorem State.setSite_rcMib (s : State) (i : Nat) (x : Site) : (s.setSite i x).rcMib = s.rcMib := rfl
@[simp] theorem State.setSite_rc (s : State) (i : Nat) (x : Site) : (s.setSite i x).rc = s.rc := rfl
@[simp] theorem State.setSite_rcWait (s : State) (i : Nat) (x : Site) : (s.setSite i x).rcWait = s.rcWait := rfl
@[simp] theorem State.setSite_seen (s : State) (i : Nat) (x : Site) : (s.setSite i x).seen = s.seen := rfl
@[simp] theorem State.setSite_hodPatch (s : State) (i : Nat) (x : Site) : (s.setSite i x).hodPatch = s.hodPatch := rfl
@[simp] theorem State.setSite_rndPatch (s : State) (i : Nat) (x : Site) : (s.setSite i x).rndPatch = s.rndPatch := rfl
@[simp] theorem State.setSite_errlog (s : State) (i : Nat) (x : Site) : (s.setSite i x).errlog = s.errlog := rfl
@[simp] theorem State.setSite_rub (s : State) (i : Nat) (x : Site) : (s.setSite i x).rub = s.rub := rfl
@[simp] theorem State.setSite_vcs (s : State) (i : Nat) (x : Site) : (s.setSite i x).vcs = s.vcs := rfl
@[simp] theorem State.setSite_west (s : State) (i : Nat) (x : Site) : (s.setSite i x).west = s.west := rfl
@[simp] theorem State.setSite_east (s : State) (i : Nat) (x : Site) : (s.setSite i x).east = s.east := rfl
@[simp] theorem State.setSite_rollers (s : State) (i : Nat) (x : Site) : (s.setSite i x).rollers = s.rollers := rfl
@[simp] theorem State.setSite_seqs (s : State) (i : Nat) (x : Site) : (s.setSite i x).seqs = s.seqs := rfl
@[simp] theorem State.setSite_disarming (s : State) (i : Nat) (x : Site) : (s.setSite i x).disarming = s.disarming := rfl
@[simp] theorem State.setSite_rows (s : State) (i : Nat) (x : Site) : (s.setSite i x).rows = s.rows := rfl
@[simp] theorem State.setSite_refreshDue (s : State) (i : Nat) (x : Site) : (s.setSite i x).refreshDue = s.refreshDue := rfl
@[simp] theorem State.setSite_colls (s : State) (i : Nat) (x : Site) : (s.setSite i x).colls = s.colls := rfl
@[simp] theorem State.setSite_deferred (s : State) (i : Nat) (x : Site) : (s.setSite i x).deferred = s.deferred := rfl
@[simp] theorem State.setSite_ports (s : State) (i : Nat) (x : Site) : (s.setSite i x).ports = s.ports := rfl
@[simp] theorem State.setSite_tx (s : State) (i : Nat) (x : Site) : (s.setSite i x).tx = s.tx := rfl
@[simp] theorem State.setSite_rx (s : State) (i : Nat) (x : Site) : (s.setSite i x).rx = s.rx := rfl
@[simp] theorem State.setSite_slots (s : State) (i : Nat) (x : Site) : (s.setSite i x).slots = s.slots := rfl
@[simp] theorem State.setSite_fires (s : State) (i : Nat) (x : Site) : (s.setSite i x).fires = s.fires := rfl
@[simp] theorem State.setSite_orphans (s : State) (i : Nat) (x : Site) : (s.setSite i x).orphans = s.orphans := rfl
@[simp] theorem State.setSite_msix (s : State) (i : Nat) (x : Site) : (s.setSite i x).msix = s.msix := rfl
@[simp] theorem State.setSite_cfg (s : State) (i : Nat) (x : Site) : (s.setSite i x).cfg = s.cfg := rfl
@[simp] theorem State.setSite_aer (s : State) (i : Nat) (x : Site) : (s.setSite i x).aer = s.aer := rfl
@[simp] theorem State.setSite_pmus (s : State) (i : Nat) (x : Site) : (s.setSite i x).pmus = s.pmus := rfl
@[simp] theorem State.setSite_flash (s : State) (i : Nat) (x : Site) : (s.setSite i x).flash = s.flash := rfl
@[simp] theorem State.setSite_snagHeld (s : State) (i : Nat) (x : Site) : (s.setSite i x).snagHeld = s.snagHeld := rfl
@[simp] theorem State.setSite_retired (s : State) (i : Nat) (x : Site) : (s.setSite i x).retired = s.retired := rfl
@[simp] theorem State.setSite_repairs (s : State) (i : Nat) (x : Site) : (s.setSite i x).repairs = s.repairs := rfl
@[simp] theorem State.setSite_remaps (s : State) (i : Nat) (x : Site) : (s.setSite i x).remaps = s.remaps := rfl
@[simp] theorem State.setSite_otp (s : State) (i : Nat) (x : Site) : (s.setSite i x).otp = s.otp := rfl
@[simp] theorem State.setSite_sec (s : State) (i : Nat) (x : Site) : (s.setSite i x).sec = s.sec := rfl
@[simp] theorem State.setSite_power (s : State) (i : Nat) (x : Site) : (s.setSite i x).power = s.power := rfl
@[simp] theorem State.setSite_pins (s : State) (i : Nat) (x : Site) : (s.setSite i x).pins = s.pins := rfl
@[simp] theorem State.setSite_trip (s : State) (i : Nat) (x : Site) : (s.setSite i x).trip = s.trip := rfl

/-! ### setHalf -/

@[simp] theorem State.setHalf_pending (s : State) (h : Half) (x : HalfS) : (s.setHalf h x).pending = s.pending := by cases h <;> rfl
@[simp] theorem State.setHalf_regs (s : State) (h : Half) (x : HalfS) : (s.setHalf h x).regs = s.regs := by cases h <;> rfl
@[simp] theorem State.setHalf_free (s : State) (h : Half) (x : HalfS) : (s.setHalf h x).free = s.free := by cases h <;> rfl
@[simp] theorem State.setHalf_out (s : State) (h : Half) (x : HalfS) : (s.setHalf h x).out = s.out := by cases h <;> rfl
@[simp] theorem State.setHalf_mem (s : State) (h : Half) (x : HalfS) : (s.setHalf h x).mem = s.mem := by cases h <;> rfl
@[simp] theorem State.setHalf_poison (s : State) (h : Half) (x : HalfS) : (s.setHalf h x).poison = s.poison := by cases h <;> rfl
@[simp] theorem State.setHalf_bad (s : State) (h : Half) (x : HalfS) : (s.setHalf h x).bad = s.bad := by cases h <;> rfl
@[simp] theorem State.setHalf_cores (s : State) (h : Half) (x : HalfS) : (s.setHalf h x).cores = s.cores := by cases h <;> rfl
@[simp] theorem State.setHalf_slices (s : State) (h : Half) (x : HalfS) : (s.setHalf h x).slices = s.slices := by cases h <;> rfl
@[simp] theorem State.setHalf_rcMib (s : State) (h : Half) (x : HalfS) : (s.setHalf h x).rcMib = s.rcMib := by cases h <;> rfl
@[simp] theorem State.setHalf_rc (s : State) (h : Half) (x : HalfS) : (s.setHalf h x).rc = s.rc := by cases h <;> rfl
@[simp] theorem State.setHalf_rcWait (s : State) (h : Half) (x : HalfS) : (s.setHalf h x).rcWait = s.rcWait := by cases h <;> rfl
@[simp] theorem State.setHalf_seen (s : State) (h : Half) (x : HalfS) : (s.setHalf h x).seen = s.seen := by cases h <;> rfl
@[simp] theorem State.setHalf_hodPatch (s : State) (h : Half) (x : HalfS) : (s.setHalf h x).hodPatch = s.hodPatch := by cases h <;> rfl
@[simp] theorem State.setHalf_rndPatch (s : State) (h : Half) (x : HalfS) : (s.setHalf h x).rndPatch = s.rndPatch := by cases h <;> rfl
@[simp] theorem State.setHalf_errlog (s : State) (h : Half) (x : HalfS) : (s.setHalf h x).errlog = s.errlog := by cases h <;> rfl
@[simp] theorem State.setHalf_rub (s : State) (h : Half) (x : HalfS) : (s.setHalf h x).rub = s.rub := by cases h <;> rfl
@[simp] theorem State.setHalf_vcs (s : State) (h : Half) (x : HalfS) : (s.setHalf h x).vcs = s.vcs := by cases h <;> rfl
@[simp] theorem State.setHalf_sites (s : State) (h : Half) (x : HalfS) : (s.setHalf h x).sites = s.sites := by cases h <;> rfl
@[simp] theorem State.setHalf_rollers (s : State) (h : Half) (x : HalfS) : (s.setHalf h x).rollers = s.rollers := by cases h <;> rfl
@[simp] theorem State.setHalf_seqs (s : State) (h : Half) (x : HalfS) : (s.setHalf h x).seqs = s.seqs := by cases h <;> rfl
@[simp] theorem State.setHalf_disarming (s : State) (h : Half) (x : HalfS) : (s.setHalf h x).disarming = s.disarming := by cases h <;> rfl
@[simp] theorem State.setHalf_rows (s : State) (h : Half) (x : HalfS) : (s.setHalf h x).rows = s.rows := by cases h <;> rfl
@[simp] theorem State.setHalf_refreshDue (s : State) (h : Half) (x : HalfS) : (s.setHalf h x).refreshDue = s.refreshDue := by cases h <;> rfl
@[simp] theorem State.setHalf_colls (s : State) (h : Half) (x : HalfS) : (s.setHalf h x).colls = s.colls := by cases h <;> rfl
@[simp] theorem State.setHalf_deferred (s : State) (h : Half) (x : HalfS) : (s.setHalf h x).deferred = s.deferred := by cases h <;> rfl
@[simp] theorem State.setHalf_ports (s : State) (h : Half) (x : HalfS) : (s.setHalf h x).ports = s.ports := by cases h <;> rfl
@[simp] theorem State.setHalf_tx (s : State) (h : Half) (x : HalfS) : (s.setHalf h x).tx = s.tx := by cases h <;> rfl
@[simp] theorem State.setHalf_rx (s : State) (h : Half) (x : HalfS) : (s.setHalf h x).rx = s.rx := by cases h <;> rfl
@[simp] theorem State.setHalf_slots (s : State) (h : Half) (x : HalfS) : (s.setHalf h x).slots = s.slots := by cases h <;> rfl
@[simp] theorem State.setHalf_fires (s : State) (h : Half) (x : HalfS) : (s.setHalf h x).fires = s.fires := by cases h <;> rfl
@[simp] theorem State.setHalf_orphans (s : State) (h : Half) (x : HalfS) : (s.setHalf h x).orphans = s.orphans := by cases h <;> rfl
@[simp] theorem State.setHalf_msix (s : State) (h : Half) (x : HalfS) : (s.setHalf h x).msix = s.msix := by cases h <;> rfl
@[simp] theorem State.setHalf_cfg (s : State) (h : Half) (x : HalfS) : (s.setHalf h x).cfg = s.cfg := by cases h <;> rfl
@[simp] theorem State.setHalf_aer (s : State) (h : Half) (x : HalfS) : (s.setHalf h x).aer = s.aer := by cases h <;> rfl
@[simp] theorem State.setHalf_pmus (s : State) (h : Half) (x : HalfS) : (s.setHalf h x).pmus = s.pmus := by cases h <;> rfl
@[simp] theorem State.setHalf_flash (s : State) (h : Half) (x : HalfS) : (s.setHalf h x).flash = s.flash := by cases h <;> rfl
@[simp] theorem State.setHalf_snagHeld (s : State) (h : Half) (x : HalfS) : (s.setHalf h x).snagHeld = s.snagHeld := by cases h <;> rfl
@[simp] theorem State.setHalf_retired (s : State) (h : Half) (x : HalfS) : (s.setHalf h x).retired = s.retired := by cases h <;> rfl
@[simp] theorem State.setHalf_repairs (s : State) (h : Half) (x : HalfS) : (s.setHalf h x).repairs = s.repairs := by cases h <;> rfl
@[simp] theorem State.setHalf_remaps (s : State) (h : Half) (x : HalfS) : (s.setHalf h x).remaps = s.remaps := by cases h <;> rfl
@[simp] theorem State.setHalf_otp (s : State) (h : Half) (x : HalfS) : (s.setHalf h x).otp = s.otp := by cases h <;> rfl
@[simp] theorem State.setHalf_sec (s : State) (h : Half) (x : HalfS) : (s.setHalf h x).sec = s.sec := by cases h <;> rfl
@[simp] theorem State.setHalf_power (s : State) (h : Half) (x : HalfS) : (s.setHalf h x).power = s.power := by cases h <;> rfl
@[simp] theorem State.setHalf_pins (s : State) (h : Half) (x : HalfS) : (s.setHalf h x).pins = s.pins := by cases h <;> rfl
@[simp] theorem State.setHalf_trip (s : State) (h : Half) (x : HalfS) : (s.setHalf h x).trip = s.trip := by cases h <;> rfl

/-! ### Reads after writes -/

@[simp] theorem State.reg_setReg_self (s : State) (r : Reg) (w : Word) : (s.setReg r w).reg r = w := by
  simp [State.reg, State.setReg]

theorem State.reg_setReg_ne (s : State) {r q : Reg} (w : Word) (h : q.addr ≠ r.addr) :
    (s.setReg r w).reg q = s.reg q := by
  simp [State.reg, State.setReg, mapGet_set_ne _ _ _ h]

theorem State.rf_setReg_ne (s : State) {r q : Reg} (w : Word) (lo len : Nat) (h : q.addr ≠ r.addr) :
    (s.setReg r w).rf q lo len = s.rf q lo len := by
  simp [State.rf, s.reg_setReg_ne w h]

@[simp] theorem State.rf_setRf_self (s : State) (r : Reg) (lo len v : Nat) (h : lo + len ≤ 64) :
    (s.setRf r lo len v).rf r lo len = v % 2 ^ len := by
  simp [State.rf, State.setRf, h]

theorem State.rf_setRf_field (s : State) (r : Reg) (lo len v lo' len' : Nat)
    (h : lo' + len' ≤ lo ∨ lo + len ≤ lo') : (s.setRf r lo len v).rf r lo' len' = s.rf r lo' len' := by
  simp [State.rf, State.setRf, fld_setFld_ne _ _ _ _ _ _ h]

theorem State.rf_setRf_ne (s : State) {r q : Reg} (lo len v lo' len' : Nat) (h : q.addr ≠ r.addr) :
    (s.setRf r lo len v).rf q lo' len' = s.rf q lo' len' := by
  simp [State.rf, State.setRf, s.reg_setReg_ne _ h]

@[simp] theorem State.core_setCore_self (s : State) (lc : Nat) (c : Core) : (s.setCore lc c).core lc = c := by
  simp [State.core, State.setCore]

theorem State.core_setCore_ne (s : State) {lc n : Nat} (c : Core) (h : n ≠ lc) :
    (s.setCore lc c).core n = s.core n := by
  simp [State.core, State.setCore, mapGet_set_ne _ _ _ h]

@[simp] theorem State.core_setReg (s : State) (r : Reg) (w : Word) (n : Nat) : (s.setReg r w).core n = s.core n := rfl

@[simp] theorem State.core_setRf (s : State) (r : Reg) (lo len v n : Nat) : (s.setRf r lo len v).core n = s.core n := rfl

@[simp] theorem State.core_send (s : State) (o : Out) (n : Nat) : (s.send o).core n = s.core n := rfl

@[simp] theorem State.reg_setCore (s : State) (lc : Nat) (c : Core) (r : Reg) : (s.setCore lc c).reg r = s.reg r := rfl

@[simp] theorem State.rf_setCore (s : State) (lc : Nat) (c : Core) (r : Reg) (lo len : Nat) :
    (s.setCore lc c).rf r lo len = s.rf r lo len := rfl

@[simp] theorem State.reg_send (s : State) (o : Out) (r : Reg) : (s.send o).reg r = s.reg r := rfl

@[simp] theorem State.rf_send (s : State) (o : Out) (r : Reg) (lo len : Nat) :
    (s.send o).rf r lo len = s.rf r lo len := rfl

@[simp] theorem State.site_setSite_self (s : State) (i : Nat) (x : Site) : (s.setSite i x).site i = x := by
  simp [State.site, State.setSite]

@[simp] theorem State.half_setHalf_self (s : State) (h : Half) (x : HalfS) : (s.setHalf h x).half h = x := by
  cases h <;> rfl

@[simp] theorem State.siteOf_setCore (s : State) (lc : Nat) (c : Core) (n : Nat) :
    (s.setCore lc c).siteOf n = s.siteOf n := rfl

@[simp] theorem State.valid_setCore (s : State) (lc : Nat) (c : Core) (n : Nat) :
    (s.setCore lc c).valid n = s.valid n := rfl

@[simp] theorem State.failed_setCore (s : State) (lc : Nat) (c : Core) (n : Nat) :
    (s.setCore lc c).failed n = s.failed n := rfl

/-! ### Core registers and tickets -/

@[simp] theorem Core.rx_zero (c : Core) : c.rx 0 = 0 := rfl

@[simp] theorem Core.wx_zero (c : Core) (w : Word) : c.wx 0 w = c := rfl

/-- A scalar register after a write: x0 reads 0 and takes nothing (02 R30). -/
theorem Core.rx_wx (c : Core) (r q : BitVec 5) (w : Word) :
    (c.wx r w).rx q = if q = 0 then 0 else if q = r then w else c.rx q := by
  unfold Core.wx Core.rx
  by_cases hq : q = 0
  · rw [if_pos hq, if_pos hq]
  · rw [if_neg hq, if_neg hq]
    by_cases hr : r = 0
    · rw [if_pos hr, if_neg (fun e => hq (e.trans hr)), if_neg hq]
    · rw [if_neg hr, if_neg hq]
      by_cases h : q = r
      · subst h; simp
      · have hne : r.toNat ≠ q.toNat := fun e => h (BitVec.eq_of_toNat_eq e.symm)
        rw [if_neg h]
        exact Vector.getElem_set_ne r.isLt q.isLt hne

@[simp] theorem Core.tick_zero (c : Core) : c.tick 0 = 0 := rfl

@[simp] theorem Core.setTick_zero (c : Core) (v : Nat) : c.setTick 0 v = c := rfl

/-- A ticket after it was set: tk0 takes nothing (02 R35). -/
theorem Core.tick_setTick (c : Core) (n k : BitVec 6) (v : Nat) :
    (c.setTick n v).tick k = if k = 0 then 0 else if k = n then v % 65536 else c.tick k := by
  unfold Core.setTick Core.tick
  by_cases hk : k = 0
  · rw [if_pos hk, if_pos hk]
  · rw [if_neg hk, if_neg hk]
    by_cases hn : n = 0
    · rw [if_pos hn, if_neg (fun e => hk (e.trans hn)), if_neg hk]
    · rw [if_neg hn, if_neg hk]
      by_cases h : k = n
      · subst h; simp
      · have hne : n.toNat ≠ k.toNat := fun e => h (BitVec.eq_of_toNat_eq e.symm)
        rw [if_neg h]
        exact congrArg BitVec.toNat (Vector.getElem_set_ne n.isLt k.isLt hne)

end Sys2Proof.Machine
end

