-- ==== Sys2Proof/Laws/Memory.lean ====
section
/-!
SUPPORT. What the operations over memory can do: which fields a write, a poisoning, a count and an access of the render
cache change, what a write leaves in memory, and that each keeps memory in its canonical form.
-/

namespace Sys2Proof.Machine

/-! ### Counts and accesses change no memory -/

theorem foldl_keeps {α β : Type} (g : State → α) (f : State → β → State) (h : ∀ s x, g (f s x) = g s) :
    ∀ (l : List β) (s : State), g (l.foldl f s) = g s
  | [], _ => rfl
  | x :: l, s => (foldl_keeps g f h l (f s x)).trans (h s x)

theorem bump_frame (s : State) (c o : Reg) (i n : Nat) : bump s c o i n = { s with regs := (bump s c o i n).regs } := by
  unfold bump
  dsimp only
  split <;> rfl

/-- Events raise registers alone. -/
theorem event_regs (s : State) (lc code n : Nat) : s.event lc code n = { s with regs := (s.event lc code n).regs } := by
  by_cases hf : (s.failed lc && !routerEvent code) = true
  · simp [State.event, hf]
  have h := foldl_keeps (fun t : State => { t with regs := [] }) (fun t i =>
    if t.rf (.pmuCtrl lc) i 1 = 1 ∧ t.rf (.pmuEvsel lc i) 0 8 = code then bump t (.pmuCnt lc i) (.pmuOvf lc) i n
    else t) (fun t i => by
      split
      · rw [bump_frame]
      · rfl) (List.range 8) s
  have he : s.event lc code n = (List.range 8).foldl (fun t i =>
      if t.rf (.pmuCtrl lc) i 1 = 1 ∧ t.rf (.pmuEvsel lc i) 0 8 = code then bump t (.pmuCnt lc i) (.pmuOvf lc) i n
      else t) s := by
    unfold State.event
    rw [if_neg hf]
  rw [← he] at h
  generalize s.event lc code n = u at h
  exact congrArg (fun t : State => { t with regs := u.regs }) h

theorem lathEvent_regs (s : State) (b code n : Nat) :
    s.lathEvent b code n = { s with regs := (s.lathEvent b code n).regs } := by
  have h := foldl_keeps (fun t : State => { t with regs := [] }) (fun t i =>
    if t.rf (.lathCtrl b) i 1 = 1 ∧ t.rf (.lathEvsel b i) 0 8 = code then bump t (.lathCnt b i) (.lathOvf b) i n
    else t) (fun t i => by
      split
      · rw [bump_frame]
      · rfl) (List.range 8) s
  exact congrArg (fun t : State => { t with regs := (s.lathEvent b code n).regs }) h

@[simp] theorem event_mem (s : State) (lc code n : Nat) : (s.event lc code n).mem = s.mem := by rw [event_regs]
@[simp] theorem lathEvent_mem (s : State) (b code n : Nat) : (s.lathEvent b code n).mem = s.mem := by rw [lathEvent_regs]
@[simp] theorem lathEvent_cores (s : State) (b code n : Nat) : (s.lathEvent b code n).cores = s.cores := by
  rw [lathEvent_regs]

/-- A part that is roused is awake; nothing else changes. -/
theorem rouse_frame (s : State) (b p : Nat) : s.rouse b p = { s with power := (s.rouse b p).power } := by
  unfold State.rouse
  split <;> rfl

@[simp] theorem rouse_mem (s : State) (b p : Nat) : (s.rouse b p).mem = s.mem := by rw [rouse_frame]

/-- A request in a Roller's gap changes that Roller alone (R390). -/
theorem gapServe_frame (s : State) (p : Nat) : s.gapServe p = { s with rollers := (s.gapServe p).rollers } := by
  unfold State.gapServe
  dsimp only
  split
  · rfl
  · split
    · rfl
    · split
      · rfl
      · split <;> rfl

/-- An access of a render controller counts, opens a row, rouses its stack, and is served in a Roller's gap. -/
theorem rndAccess_changes (s : State) (p len code : Nat) :
    ∃ r w q l, s.rndAccess p len code = { s with regs := r, rows := w, power := q, rollers := l } := by
  unfold State.rndAccess State.openRow
  rw [rouse_frame]
  dsimp only
  rw [gapServe_frame]
  split
  · rw [lathEvent_regs]
    exact ⟨_, _, _, _, rfl⟩
  · rw [lathEvent_regs (State.lathEvent _ _ _ _), lathEvent_regs]
    exact ⟨_, _, _, _, rfl⟩

theorem rndAccess_frame (s : State) (p len code : Nat) :
    s.rndAccess p len code = { s with
      regs := (s.rndAccess p len code).regs, rows := (s.rndAccess p len code).rows
      power := (s.rndAccess p len code).power, rollers := (s.rndAccess p len code).rollers } := by
  obtain ⟨r, w, q, l, h⟩ := rndAccess_changes s p len code
  rw [h]

@[simp] theorem rndAccess_mem (s : State) (p len code : Nat) : (s.rndAccess p len code).mem = s.mem := by
  rw [rndAccess_frame]

@[simp] theorem hodAccess_mem (s : State) (k code : Nat) : (s.hodAccess k code).mem = s.mem := by
  simp [State.hodAccess]

@[simp] theorem poisonGran_mem (s : State) (k : Nat) : (s.poisonGran k).mem = s.mem := rfl

/-! ### A write of cells -/

/-- The monitor of one core may note that its flag was met; nothing else changes. -/
theorem evalWaitf_frame (s : State) (lc key len : Nat) :
    s.evalWaitf lc key len = { s with cores := (s.evalWaitf lc key len).cores } := by
  unfold State.evalWaitf
  dsimp only
  split
  · rfl
  · split <;> rfl

/-- A write of cells changes memory, poison and, through the WAITF monitors, cores; what memory holds then is memPuts. -/
theorem writeRun_frame (s : State) (key : Nat) (bs : List Byte) :
    s.writeRun key bs = { s with
      mem := memPuts s.mem key bs, poison := (s.writeRun key bs).poison, cores := (s.writeRun key bs).cores } := by
  unfold State.writeRun
  dsimp only
  split
  · split
    · rw [evalWaitf_frame]
    · rfl
  · rfl

@[simp] theorem writeRun_mem (s : State) (key : Nat) (bs : List Byte) :
    (s.writeRun key bs).mem = memPuts s.mem key bs := by rw [writeRun_frame]

@[simp] theorem writeRun_regs (s : State) (key : Nat) (bs : List Byte) : (s.writeRun key bs).regs = s.regs := by
  rw [writeRun_frame]

/-- Every cell outside the run reads as before; a cell of the run reads the byte written. -/
theorem writeRun_get (s : State) (key k : Nat) (bs : List Byte) :
    memGet (s.writeRun key bs).mem k = if key ≤ k ∧ k < key + bs.length then bs.getD (k - key) 0 else memGet s.mem k := by
  rw [writeRun_mem, memGet_puts]

theorem writeRun_sound {s : State} (h : s.Sound) (key : Nat) (bs : List Byte) : (s.writeRun key bs).Sound := by
  unfold State.Sound
  rw [writeRun_mem]
  exact Memory.wf_puts h key bs

@[simp] theorem hawkWrite_mem (s : State) (lc off : Nat) (bs : List Byte) :
    (s.hawkWrite lc off bs).mem = memPuts s.mem (hawkKey (s.siteOf lc) off) bs := writeRun_mem s _ bs

theorem hawkWrite_sound {s : State} (h : s.Sound) (lc off : Nat) (bs : List Byte) : (s.hawkWrite lc off bs).Sound :=
  writeRun_sound h _ bs

/-! ### Soundness depends on memory alone -/

theorem Sound.of_mem {s t : State} (h : s.Sound) (e : t.mem = s.mem) : t.Sound := by
  unfold State.Sound
  rw [e]
  exact h

theorem Sound.foldl {β : Type} (f : State → β → State) (h : ∀ s x, s.Sound → (f s x).Sound) :
    ∀ (l : List β) {s : State}, s.Sound → (l.foldl f s).Sound
  | [], _, hs => hs
  | x :: l, s, hs => Sound.foldl f h l (h s x hs)

theorem rcBack_sound {s : State} (h : s.Sound) (l : RcLine) : (s.rcBack l).Sound := by
  have key : ∀ (t : State) (p : Nat), t.Sound → ((List.range 4).foldl
      (fun t i => if l.poison.getLsbD i then State.poisonGran t (p + 64 * i) else t)
      ((t.rndAccess p 256 2).writeRun p l.data)).Sound := fun t p ht => by
    refine Sound.foldl _ (fun t i ht => ?_) _ (writeRun_sound (Sound.of_mem ht (rndAccess_mem ..)) _ _)
    split
    · exact Sound.of_mem ht (poisonGran_mem ..)
    · exact ht
  simp only [State.rcBack]
  exact key _ _ (Sound.of_mem h (lathEvent_mem ..))

theorem rcEvict_sound {s : State} (h : s.Sound) (l : RcLine) : (s.rcEvict l).Sound := by
  unfold State.rcEvict
  split
  · exact h
  · split
    · exact h
    · exact rcBack_sound h l

/-- A look-up in the render cache may write back a line that leaves; memory stays sound. -/
theorem rcLine_sound {s : State} (h : s.Sound) (g : Nat) : (s.rcLine g).1.Sound := by
  unfold State.rcLine
  dsimp only
  split
  · exact Sound.of_mem h (lathEvent_mem ..)
  · have h1 : ((s.rndAccess (ilvToPlumb (g * 256)) 256 1).lathEvent (s.slices.getD (g % s.sliceCount) 0) 4 1).Sound :=
      Sound.of_mem h ((lathEvent_mem ..).trans (rndAccess_mem ..))
    split
    · split
      · exact rcEvict_sound h1 _
      · exact h1
    · exact h1

theorem readBlock_sound {s : State} (h : s.Sound) (l : Loc) (len : Nat) : (s.readBlock l len).1.Sound := by
  unfold State.readBlock
  split
  · split
    · split
      · exact Sound.of_mem h (rndAccess_mem ..)
      · exact rcLine_sound h _
    · exact Sound.of_mem h (rndAccess_mem ..)
  · exact h
  · exact Sound.of_mem h (hodAccess_mem ..)
  · exact h

theorem writeBlock_sound {s : State} (h : s.Sound) (l : Loc) (bs : List Byte) : (s.writeBlock l bs).Sound := by
  unfold State.writeBlock
  split
  · split
    · split
      · exact writeRun_sound (Sound.of_mem h (rndAccess_mem ..)) _ _
      · exact rcLine_sound h _
    · exact writeRun_sound (Sound.of_mem h (rndAccess_mem ..)) _ _
  · exact writeRun_sound h _ _
  · exact writeRun_sound (Sound.of_mem h (hodAccess_mem ..)) _ _
  · exact h

theorem poisonLoc_sound {s : State} (h : s.Sound) (l : Loc) : (s.poisonLoc l).Sound := by
  unfold State.poisonLoc
  split
  · split
    · split
      · exact h
      · exact rcLine_sound h _
    · exact h
  · exact h
  · exact h
  · exact h

/-- Reading memory at local addresses keeps it sound, whatever the render cache does. -/
theorem readMem_sound {s : State} (h : s.Sound) (own : Option Nat) (a len : Nat) : (s.readMem own a len).1.Sound := by
  have key : ∀ (l : List (Nat × Nat)) (r : State × List Byte × Bool), r.1.Sound →
      (l.foldl (fun r b =>
        let (s, bs, p) := r.1.readBlock (r.1.resolve own b.1) b.2
        (s, r.2.1 ++ bs, r.2.2 || p)) r).1.Sound := by
    intro l
    induction l with
    | nil => exact fun r hr => hr
    | cons b l ih => exact fun r hr => ih _ (readBlock_sound hr _ _)
  exact key _ _ h

/-- Writing memory at local addresses keeps it sound. -/
theorem writeMem_sound {s : State} (h : s.Sound) (own : Option Nat) (a : Nat) (bs : List Byte) :
    (s.writeMem own a bs).Sound :=
  Sound.foldl _ (fun _ _ ht => writeBlock_sound ht _ _) _ h

theorem poisonMem_sound {s : State} (h : s.Sound) (own : Option Nat) (a len : Nat) : (s.poisonMem own a len).Sound :=
  Sound.foldl _ (fun _ _ ht => poisonLoc_sound ht _) _ h

theorem poisonGran_with (s : State) (k : Nat) (p : NSet) : { s.poisonGran k with poison := p } = { s with poison := p } :=
  rfl

theorem foldl_poison (key : State → Nat × Nat → Nat) (l : List (Nat × Nat)) (s : State) :
    ∃ p, l.foldl (fun s b => State.poisonGran s (key s b)) s = { s with poison := p } := by
  induction l generalizing s with
  | nil => exact ⟨s.poison, rfl⟩
  | cons b l ih =>
    obtain ⟨p, h⟩ := ih (s.poisonGran (key s b))
    exact ⟨p, h.trans (poisonGran_with s (key s b) p)⟩

/-- Poisoning a run of a hawk changes the poison marks alone. -/
theorem hawkPoison_frame (s : State) (lc off len : Nat) : ∃ p, s.hawkPoison lc off len = { s with poison := p } :=
  foldl_poison (fun s b => hawkKey (s.siteOf lc) b.1) (blocks 64 (len + 1) off len) s

end Sys2Proof.Machine
end

