-- ==== Sys2Proof/Laws/Channel.lean ====
section
/-!
SUPPORT. Laws of the vertical channels: a word's bits and lanes determine each other, repaired lanes keep their order, and
what a row that crosses can change.
-/

namespace Sys2Proof.Machine

/-- The lane of a code bit carries that bit, of that word of its group slot (R103). -/
theorem bitOfLane_laneOfBit (word bit : Nat) : bitOfLane (laneOfBit word bit) = (word % 4, bit) := by
  simp only [bitOfLane, laneOfBit, Prod.mk.injEq]; omega

/-- Every functional lane is the lane of the code bit that it carries (R103). -/
theorem laneOfBit_bitOfLane (lane : Nat) : laneOfBit (bitOfLane lane).1 (bitOfLane lane).2 = lane := by
  simp only [bitOfLane, laneOfBit]; omega

/-- The 72 bits of the four words of a slot stand on the 288 lanes of a data group (R102 R103). -/
theorem laneOfBit_lt {word bit : Nat} (h : bit < 72) : laneOfBit word bit < 288 := by
  simp only [laneOfBit]; omega

/-- Repairs keep the order of the lanes: two functional lanes never share a physical one (R124). -/
theorem physOf_lt {fails : List Nat} {a b : Nat} (h : a < b) : physOf fails a < physOf fails b := by
  have hs : ∀ l : List Nat, (l.filter fun f => decide (f ≤ a)).length ≤ (l.filter fun f => decide (f ≤ b)).length := by
    intro l
    induction l with
    | nil => simp
    | cons x l ih => simp only [List.filter_cons, decide_eq_true_eq]; split <;> split <;> (try simp only [List.length_cons]) <;> omega
  have := hs fails
  simp only [physOf]; omega

/-- What a message changes: it leaves, and is counted as a TLP, or its vector's pending bit is set (14 R501, 19 R623). -/
theorem State.msi_frame (s : State) (v : Nat) :
    s.msi v = { s with msix := (s.msi v).msix, out := (s.msi v).out, regs := (s.msi v).regs } := by
  unfold State.msi State.sendMsi
  simp only
  split
  · rfl
  · rw [lathEvent_regs]; rfl

/-- What a record of the error log can change (16 R555 R556). -/
theorem State.log_frame (s : State) (cls src : Nat) (loc addr : Word) : ∃ e f r p m o,
    s.log cls src loc addr = { s with errlog := e, flash := f, regs := r, pins := p, msix := m, out := o } := by
  unfold State.log
  simp only
  generalize ite (4 ≤ cls) _ s.flash = g
  split
  · rw [State.msi_frame]; exact ⟨_, _, _, _, _, _, rfl⟩
  · exact ⟨_, _, _, _, _, _, rfl⟩

/-- What the first record of a place can change. -/
theorem State.logFirst_frame (s : State) (place src : Nat) (loc addr : Word) : ∃ n e f r p m o,
    s.logFirst place src loc addr
      = { s with seen := n, errlog := e, flash := f, regs := r, pins := p, msix := m, out := o } := by
  unfold State.logFirst
  split
  · exact ⟨_, _, _, _, _, _, _, rfl⟩
  · obtain ⟨e, f, r, p, m, o, h⟩ := State.log_frame { s with seen := setAdd s.seen place } 1 src loc addr
    rw [h]; exact ⟨_, e, f, r, p, m, o, rfl⟩

/-- What a corrected bit can change: counts, records and what follows from them, never a byte, a mark or a core (R123
R130). -/
theorem State.correctFlip_frame (s : State) (site : Nat) (d : VcDir) (f : Flip) :
    (s.correctFlip site d f).mem = s.mem ∧ (s.correctFlip site d f).poison = s.poison
      ∧ (s.correctFlip site d f).cores = s.cores ∧ (s.correctFlip site d f).pending = s.pending := by
  unfold State.correctFlip
  simp only
  generalize hu : State.logFirst _ _ _ _ _ = u
  obtain ⟨n, e, g, r, p, m, o, h⟩ := State.logFirst_frame _ _ _ _ _
  rw [hu] at h
  subst h
  split <;> exact ⟨rfl, rfl, rfl, rfl⟩

/-- Rows that cross leave every byte, mark and core as they are (R105 R123 R130). -/
theorem State.cross_frame {s t : State} {site : Nat} {d : VcDir} {errs : List MemErr} (h : s.cross site d errs = some t) :
    t.mem = s.mem ∧ t.poison = s.poison ∧ t.cores = s.cores ∧ t.pending = s.pending := by
  have fold : ∀ (l : List (Nat × Flip)) (u : State),
      (l.foldl (fun s f => s.correctFlip site d f.2) u).mem = u.mem
        ∧ (l.foldl (fun s f => s.correctFlip site d f.2) u).poison = u.poison
        ∧ (l.foldl (fun s f => s.correctFlip site d f.2) u).cores = u.cores
        ∧ (l.foldl (fun s f => s.correctFlip site d f.2) u).pending = u.pending := by
    intro l
    induction l with
    | nil => intro u; exact ⟨rfl, rfl, rfl, rfl⟩
    | cons f l ih =>
      intro u
      obtain ⟨a, b, c, e⟩ := ih (u.correctFlip site d f.2)
      obtain ⟨a', b', c', e'⟩ := State.correctFlip_frame u site d f.2
      exact ⟨a.trans a', b.trans b', c.trans c', e.trans e'⟩
  unfold State.cross at h
  simp only at h
  split at h
  · cases h
  · obtain rfl := Option.some.inj h
    split
    · exact fold _ _
    · exact fold _ _

/-- A row waits exactly at a retired site, in a window, with the half's clock stopped, before a width change that is due,
or while it is replayed (R112 R120 R125-R127). -/
theorem State.cross_none {s : State} {site : Nat} {d : VcDir} {errs : List MemErr} :
    s.cross site d errs = none ↔ s.siteRetired site = true ∨ s.siteWindow site = true ∨ (s.half (halfOf site)).stopped = true
      ∨ (s.vc site d).widthDue = true ∨ tooMany (flipsOf site errs) = true := by
  unfold State.cross
  simp only [Bool.or_eq_true]
  split
  · simp_all [or_assoc]
  · simp_all

end Sys2Proof.Machine
end

