-- ==== Sys2Proof/Laws/Issue.lean ====
section
/-!
SUPPORT. What the operations of issue do: counting, sampling, and a scalar instruction on the core it issues on.
-/

namespace Sys2Proof.Machine

/-! ### The frame of one core -/

theorem CoreFrame.refl (lc : Nat) (s : State) : CoreFrame lc s s :=
  ⟨rfl, fun _ _ => rfl, fun _ _ => rfl, fun _ _ => rfl⟩

/-- The map entry of a core is none of the registers in which it counts. -/
theorem not_countAddr_mcLc (lc : Nat) : ¬ CountAddr lc (Reg.mcLc lc).addr := by
  have b : coreBase = 2130303778816 := by decide
  have l : lathBase = 2194728288256 := by decide
  rintro (e | e | e | ⟨i, hi, e⟩)
  · change lathBase + 0x1000 + 8 * lc = coreBase + lc * 0x100000 + 0x1100 at e
    omega
  · change lathBase + 0x1000 + 8 * lc = coreBase + lc * 0x100000 + 0x1110 at e
    omega
  · change lathBase + 0x1000 + 8 * lc = coreBase + lc * 0x100000 + 0x11B0 at e
    omega
  · change lathBase + 0x1000 + 8 * lc = coreBase + lc * 0x100000 + 0x1160 + 8 * i at e
    omega

theorem CoreFrame.siteOf {lc : Nat} {s t : State} (h : CoreFrame lc s t) : t.siteOf lc = s.siteOf lc := by
  have := h.regs _ (not_countAddr_mcLc lc)
  simp only [State.siteOf, State.rf, State.reg, mapGet, this]

theorem CoreFrame.trans {lc : Nat} {s t u : State} (h : CoreFrame lc s t) (g : CoreFrame lc t u) :
    CoreFrame lc s u where
  rest := by have a := h.rest; have b := g.rest; rw [b, a]
  cores k hk := (g.cores k hk).trans (h.cores k hk)
  samples k hk := (g.samples k (by rwa [h.siteOf])).trans (h.samples k hk)
  regs a ha := (g.regs a ha).trans (h.regs a ha)

theorem CoreFrame.free (lc : Nat) (s : State) (n : Nat) : CoreFrame lc s { s with free := n } :=
  ⟨rfl, fun _ _ => rfl, fun _ _ => rfl, fun _ _ => rfl⟩

theorem CoreFrame.setCore (lc : Nat) (s : State) (c : Core) : CoreFrame lc s (s.setCore lc c) where
  rest := rfl
  cores k hk := by simp [State.core, State.setCore, mapGet_set_ne _ _ _ hk]
  samples _ _ := rfl
  regs _ _ := rfl

theorem CoreFrame.setPmu (lc : Nat) (s : State) (p : Pmu) : CoreFrame lc s (s.setPmu lc p) where
  rest := rfl
  cores _ _ := rfl
  samples _ hk := mapGet?_set_ne _ _ hk
  regs _ _ := rfl

theorem CoreFrame.setReg {lc : Nat} (s : State) {r : Reg} (h : CountAddr lc r.addr) (w : Word) :
    CoreFrame lc s (s.setReg r w) where
  rest := rfl
  cores _ _ := rfl
  samples _ _ := rfl
  regs a ha := by
    have : a ≠ r.addr := fun e => ha (e ▸ h)
    simp [State.setReg, mapGet?_set_ne _ _ this]

theorem countAddr_cycle (lc : Nat) : CountAddr lc (Reg.pmuCycle lc).addr := .inl rfl
theorem countAddr_ovf (lc : Nat) : CountAddr lc (Reg.pmuOvf lc).addr := .inr (.inl rfl)
theorem countAddr_sstat (lc : Nat) : CountAddr lc (Reg.pmuSstat lc).addr := .inr (.inr (.inl rfl))
theorem countAddr_cnt (lc : Nat) {i : Nat} (h : i < 8) : CountAddr lc (Reg.pmuCnt lc i).addr :=
  .inr (.inr (.inr ⟨i, h, rfl⟩))

@[simp] theorem setCore_core (s : State) (lc : Nat) (c : Core) : (s.setCore lc c).core lc = c := by
  simp [State.core, State.setCore]

/-! ### Counting -/

/-- A fold whose every step keeps to a core's frame keeps to it. -/
theorem CoreFrame.foldl {lc : Nat} {β : Type} (f : State → β → State) :
    ∀ (l : List β) (s : State), (∀ x ∈ l, ∀ s, CoreFrame lc s (f s x)) → CoreFrame lc s (l.foldl f s)
  | [], s, _ => CoreFrame.refl lc s
  | x :: l, s, h =>
    (h x (.head _) s).trans (CoreFrame.foldl f l (f s x) fun y hy => h y (.tail _ hy))

theorem event_frame (lc : Nat) (s : State) (code n : Nat) : CoreFrame lc s (s.event lc code n) := by
  unfold State.event
  split
  · exact CoreFrame.refl lc s
  refine CoreFrame.foldl _ _ s fun i hi s => ?_
  have hi : i < 8 := List.mem_range.mp hi
  split
  · unfold bump
    dsimp only
    split
    · exact CoreFrame.setReg _ (countAddr_cnt lc hi) _
    · exact (CoreFrame.setReg _ (countAddr_cnt lc hi) _).trans (CoreFrame.setReg _ (countAddr_ovf lc) _)
  · exact CoreFrame.refl lc s

theorem tickCycle_frame (lc : Nat) (s : State) : CoreFrame lc s (s.tickCycle lc) :=
  (CoreFrame.setReg s (countAddr_cycle lc) _).trans (CoreFrame.free lc _ _)

theorem stalled_frame (lc : Nat) (s : State) (code : Nat) : CoreFrame lc s (s.stalled lc code) :=
  (tickCycle_frame lc s).trans (event_frame lc _ code _)

theorem foldl_cores {β : Type} (f : State → β → State) (h : ∀ s x, (f s x).cores = s.cores) :
    ∀ (l : List β) (s : State), (l.foldl f s).cores = s.cores
  | [], _ => rfl
  | x :: l, s => (foldl_cores f h l (f s x)).trans (h s x)

@[simp] theorem event_cores (s : State) (lc code n : Nat) : (s.event lc code n).cores = s.cores := by
  unfold State.event
  split
  · rfl
  refine foldl_cores _ (fun s i => ?_) _ s
  split
  · unfold bump
    dsimp only
    split <;> rfl
  · rfl

@[simp] theorem event_core (s : State) (lc code n k : Nat) : (s.event lc code n).core k = s.core k := by
  simp [State.core]

@[simp] theorem stalled_core (s : State) (lc code k : Nat) : (s.stalled lc code).core k = s.core k := by
  simp [State.stalled, State.tickCycle, State.core]

/-! ### Samples -/

theorem countSample_frame (s : State) (lc k : Nat) : CoreFrame lc s (s.countSample lc k).1 := by
  unfold State.countSample
  split
  · exact CoreFrame.setPmu lc s _
  · exact CoreFrame.refl lc s

@[simp] theorem countSample_core (s : State) (lc k j : Nat) : ((s.countSample lc k).1).core j = s.core j := by
  unfold State.countSample
  split <;> rfl

theorem sample_frame (lc : Nat) (s : State) (r : Sample) : CoreFrame lc s (s.sample lc r) := by
  unfold State.sample
  dsimp only
  by_cases h : (s.pmu lc).buf.length + (if (s.pmu lc).lost = 0 then 1 else 2) ≤ 256
  · rw [if_pos h]
    exact CoreFrame.setPmu lc s _
  · rw [if_neg h]
    exact ((CoreFrame.setPmu lc s _).trans (CoreFrame.setReg _ (countAddr_sstat lc) _)).trans (event_frame lc _ _ _)

@[simp] theorem sample_cores (s : State) (lc : Nat) (r : Sample) : (s.sample lc r).cores = s.cores := by
  unfold State.sample
  dsimp only
  by_cases h : (s.pmu lc).buf.length + (if (s.pmu lc).lost = 0 then 1 else 2) ≤ 256
  · rw [if_pos h]
    rfl
  · rw [if_neg h, event_cores]
    rfl

theorem sampleDone_frame (lc : Nat) (s : State) (i : Word) (pc : LAddr) (w : BitVec 32) (u f t st : Nat) :
    CoreFrame lc s (s.sampleDone lc i pc w u f t st) := sample_frame lc s _

@[simp] theorem sampleDone_core (s : State) (lc : Nat) (i : Word) (pc : LAddr) (w : BitVec 32) (u f t st j : Nat) :
    (s.sampleDone lc i pc w u f t st).core j = s.core j := by
  unfold State.sampleDone State.core
  rw [sample_cores]

/-! ### Issue -/

/-- A state keeps to the frame of a core, which itself keeps all but the results that are not known to be ready. -/
def OnlyLate (lc : Nat) (s t : State) : Prop :=
  CoreFrame lc s t ∧ ∃ l, t.core lc = { s.core lc with late := l }

theorem OnlyLate.of_core {lc : Nat} {s t : State} (h : CoreFrame lc s t) (e : t.core lc = s.core lc) : OnlyLate lc s t :=
  ⟨h, (s.core lc).late, e⟩

theorem OnlyLate.trans {lc : Nat} {s t u : State} (h : OnlyLate lc s t) (g : OnlyLate lc t u) : OnlyLate lc s u := by
  obtain ⟨hf, l, hl⟩ := h
  obtain ⟨gf, m, hm⟩ := g
  exact ⟨hf.trans gf, m, by rw [hm, hl]⟩

theorem OnlyLate.ite {lc : Nat} {s t u : State} {p : Prop} [Decidable p] (h : OnlyLate lc s t) (g : OnlyLate lc s u) :
    OnlyLate lc s (if p then t else u) := by
  split
  · exact h
  · exact g

theorem OnlyLate.setLate (lc : Nat) (s : State) (l : List Late) :
    OnlyLate lc s (s.setCore lc { s.core lc with late := l }) :=
  ⟨CoreFrame.setCore lc s _, l, setCore_core s lc _⟩

theorem onlyLate_free (lc : Nat) (s : State) (n : Nat) : OnlyLate lc s { s with free := n } :=
  .of_core (CoreFrame.free lc s n) rfl

theorem onlyLate_event (lc : Nat) (s : State) (code n : Nat) : OnlyLate lc s (s.event lc code n) :=
  .of_core (event_frame lc s code n) (event_core s lc code n lc)

theorem onlyLate_tick (lc : Nat) (s : State) : OnlyLate lc s (s.tickCycle lc) :=
  .of_core (tickCycle_frame lc s) rfl

theorem onlyLate_done (lc : Nat) (s : State) (l : Late) : OnlyLate lc s (s.lateDone lc l) := by
  unfold State.lateDone
  dsimp only
  split
  · exact (OnlyLate.setLate lc s _).trans (.of_core (sampleDone_frame lc _ _ _ _ _ _ _ _) (sampleDone_core _ _ _ _ _ _ _ _ _ _))
  · exact OnlyLate.setLate lc s _

theorem OnlyLate.foldl {lc : Nat} {β : Type} (f : State → β → State) (h : ∀ s x, OnlyLate lc s (f s x)) :
    ∀ (l : List β) (s : State), OnlyLate lc s (l.foldl f s)
  | [], s => .of_core (CoreFrame.refl lc s) rfl
  | x :: l, s => (h s x).trans (OnlyLate.foldl f h l (f s x))

theorem onlyLate_freeDone (lc : Nat) (s : State) (n : Nat) (l : Late) :
    OnlyLate lc s ({ s with free := n }.lateDone lc l) :=
  (onlyLate_free lc s n).trans (onlyLate_done lc _ l)

theorem onlyLate_freeEvent (lc : Nat) (s : State) (code : Nat) : OnlyLate lc s (s.freeEvent lc code) :=
  (onlyLate_free lc s _).trans (onlyLate_event lc _ code _)

/-- Settling the results that may be ready by now counts, records samples, and takes results off the core's list alone. -/
theorem settle_spec (lc : Nat) (s : State) : OnlyLate lc s (s.settle lc) := by
  refine OnlyLate.foldl _ (fun s l => ?_) _ s
  exact OnlyLate.ite ((onlyLate_freeEvent lc s 0x04).trans (onlyLate_done lc _ l))
    (OnlyLate.ite (onlyLate_freeDone lc s _ l) (onlyLate_free lc s _))

/-- Everything an issue does beside the instruction's own effect. -/
theorem noteIssue_spec (lc : Nat) (s : State) :
    CoreFrame lc s (s.noteIssue lc) ∧ ∃ l, (s.noteIssue lc).core lc = { s.core lc with late := l }.touch := by
  obtain ⟨hf, l, hl⟩ := ((onlyLate_tick lc s).trans (settle_spec lc _)).trans (onlyLate_event lc _ 0x01 1)
  exact ⟨hf.trans (CoreFrame.setCore lc _ _), l, by rw [← hl]; exact setCore_core _ lc _⟩

/-- Counting and recording a scalar instruction changes the core's list of results that come later alone. -/
theorem noteScalar_spec (lc : Nat) (s : State) (i : Flik) (c0 : Core) : OnlyLate lc s (s.noteScalar lc i c0) := by
  have h1 : OnlyLate lc s (s.countSample lc i.cls).1 :=
    .of_core (countSample_frame s lc _) (countSample_core s lc _ lc)
  unfold State.noteScalar
  dsimp only
  split
  · exact h1.trans (OnlyLate.setLate lc _ _)
  · split
    · exact (h1.trans (onlyLate_tick lc _)).trans
        (.of_core (sampleDone_frame lc _ _ _ _ _ _ _ _) (sampleDone_core _ _ _ _ _ _ _ _ _ _))
    · exact h1

/-- The loads that an instruction's destination takes from are those that it writes over. -/
@[simp] theorem retarget_loads (c : Core) (i : Flik) : (c.retarget i).loads = passed c.loads i.xdest i.ddest := by
  unfold Core.retarget passed
  refine List.map_congr_left fun l _ => ?_
  unfold Flik.writes
  cases l.dst <;> rfl

/-- Everything a scalar instruction does where it may issue. -/
theorem scalar_spec {s : State} {lc : Nat} {i : Flik} (f : Core → Core) (h : s.canIssue lc i = true) :
    CoreFrame lc s (s.scalar lc i f) ∧ ∃ l m,
      (s.scalar lc i f).core lc = { (f ({ s.core lc with late := l }.touch.retarget i)).next with late := m } := by
  obtain ⟨hf, l, hl⟩ := noteIssue_spec lc s
  obtain ⟨gf, m, hm⟩ := noteScalar_spec lc
    ((s.noteIssue lc).setCore lc (f (((s.noteIssue lc).core lc).retarget i)).next) i (s.core lc)
  unfold State.scalar
  rw [if_pos h]
  exact ⟨(hf.trans (CoreFrame.setCore lc _ _)).trans gf, l, m, by rw [← hl]; rw [setCore_core] at hm; exact hm⟩

/-- Where a scalar instruction may not issue, nothing happens. -/
theorem scalar_held {s : State} {lc : Nat} {i : Flik} (f : Core → Core) (h : s.canIssue lc i = false) :
    s.scalar lc i f = s := by
  simp [State.scalar, h]

@[simp] theorem touch_rx (c : Core) (r : BitVec 5) : c.touch.rx r = c.rx r := by
  unfold Core.touch
  split <;> rfl

@[simp] theorem late_rx (c : Core) (l : List Late) (r : BitVec 5) : { c with late := l }.rx r = c.rx r := rfl

@[simp] theorem late_touch (c : Core) (l : List Late) : { c with late := l }.touch = { c.touch with late := l } := by
  unfold Core.touch
  split <;> rename_i h <;> simp only at h <;> simp [h]

@[simp] theorem next_rx (c : Core) (r : BitVec 5) : c.next.rx r = c.rx r := rfl

@[simp] theorem touch_pc (c : Core) : c.touch.pc = c.pc := by
  unfold Core.touch
  split <;> rfl

@[simp] theorem touch_loads (c : Core) : c.touch.loads = c.loads := by
  unfold Core.touch
  split <;> rfl

@[simp] theorem retarget_rx (c : Core) (i : Flik) (r : BitVec 5) : (c.retarget i).rx r = c.rx r := rfl

@[simp] theorem retarget_pc (c : Core) (i : Flik) : (c.retarget i).pc = c.pc := rfl

/-- Everything a scalar instruction with a result does where it may issue. -/
theorem scalarX_spec {s : State} {lc : Nat} {i : Flik} {rd : BitVec 5} (v : Core → Word) (P : Word → Prop)
    (h : s.canIssue lc i = true) (hx : i.xdest = some rd) (hd : i.ddest = none)
    (hv : ∀ l, P (v ({ s.core lc with late := l }.touch.retarget i))) :
    CoreFrame lc s (s.scalarX lc i rd v) ∧ OnlyX (s.core lc) ((s.scalarX lc i rd v).core lc) rd ∧
      WritesX (s.core lc) ((s.scalarX lc i rd v).core lc) rd P := by
  obtain ⟨hf, l, m, hc⟩ := scalar_spec (fun c => c.wx rd (v c)) h
  refine ⟨hf, ?_, ?_⟩
  · unfold State.scalarX
    rw [hc]
    have hl := retarget_loads { (s.core lc).touch with late := l } i
    rw [hx, hd] at hl
    simp only [touch_loads] at hl
    rw [late_touch]
    unfold OnlyX Core.wx Core.next
    split <;> simp [← hl, Core.retarget]
  · unfold State.scalarX
    rw [hc]
    refine ⟨fun r hr => ?_, fun hn => ?_, by simp [Core.rx]⟩
    · rw [late_rx, next_rx, Core.rx_wx, if_neg hr, retarget_rx, touch_rx, late_rx]
      by_cases h0 : r = 0
      · rw [if_pos h0, h0, Core.rx_zero]
      · rw [if_neg h0]
    · rw [late_rx, next_rx, Core.rx_wx, if_neg hn, if_pos rfl]
      exact hv l

/-- The check of an address finds what the rule of R51 says. -/
theorem addrRule_iff (s : State) (lc : Nat) (a : Word) (size : Nat) (e : Option (Nat × Nat)) :
    AddrRule s lc a size e ↔ s.addrCheck lc a size = e := by
  unfold AddrRule State.addrCheck
  split
  · exact eq_comm
  · split
    · exact eq_comm
    · generalize s.resolve (some lc) a.toNat = l
      cases l <;> exact eq_comm

end Sys2Proof.Machine
end

