-- ==== Sys2Proof/Laws/Parts.lean ====
section
/-!
SUPPORT. Laws of the parts of State that are maps of their own: a direction of a vertical channel, a Roller, a stack's queue
and a Kerit port after one of them was set; every other field stays.
-/

namespace Sys2Proof.Machine

/-! ### setVc -/

@[simp] theorem State.setVc_pending (s : State) (site : Nat) (d : VcDir) (v : Vc) : (s.setVc site d v).pending = s.pending := rfl
@[simp] theorem State.setVc_regs (s : State) (site : Nat) (d : VcDir) (v : Vc) : (s.setVc site d v).regs = s.regs := rfl
@[simp] theorem State.setVc_free (s : State) (site : Nat) (d : VcDir) (v : Vc) : (s.setVc site d v).free = s.free := rfl
@[simp] theorem State.setVc_out (s : State) (site : Nat) (d : VcDir) (v : Vc) : (s.setVc site d v).out = s.out := rfl
@[simp] theorem State.setVc_mem (s : State) (site : Nat) (d : VcDir) (v : Vc) : (s.setVc site d v).mem = s.mem := rfl
@[simp] theorem State.setVc_poison (s : State) (site : Nat) (d : VcDir) (v : Vc) : (s.setVc site d v).poison = s.poison := rfl
@[simp] theorem State.setVc_bad (s : State) (site : Nat) (d : VcDir) (v : Vc) : (s.setVc site d v).bad = s.bad := rfl
@[simp] theorem State.setVc_cores (s : State) (site : Nat) (d : VcDir) (v : Vc) : (s.setVc site d v).cores = s.cores := rfl
@[simp] theorem State.setVc_slices (s : State) (site : Nat) (d : VcDir) (v : Vc) : (s.setVc site d v).slices = s.slices := rfl
@[simp] theorem State.setVc_rcMib (s : State) (site : Nat) (d : VcDir) (v : Vc) : (s.setVc site d v).rcMib = s.rcMib := rfl
@[simp] theorem State.setVc_rc (s : State) (site : Nat) (d : VcDir) (v : Vc) : (s.setVc site d v).rc = s.rc := rfl
@[simp] theorem State.setVc_rcWait (s : State) (site : Nat) (d : VcDir) (v : Vc) : (s.setVc site d v).rcWait = s.rcWait := rfl
@[simp] theorem State.setVc_seen (s : State) (site : Nat) (d : VcDir) (v : Vc) : (s.setVc site d v).seen = s.seen := rfl
@[simp] theorem State.setVc_hodPatch (s : State) (site : Nat) (d : VcDir) (v : Vc) : (s.setVc site d v).hodPatch = s.hodPatch := rfl
@[simp] theorem State.setVc_rndPatch (s : State) (site : Nat) (d : VcDir) (v : Vc) : (s.setVc site d v).rndPatch = s.rndPatch := rfl
@[simp] theorem State.setVc_errlog (s : State) (site : Nat) (d : VcDir) (v : Vc) : (s.setVc site d v).errlog = s.errlog := rfl
@[simp] theorem State.setVc_rub (s : State) (site : Nat) (d : VcDir) (v : Vc) : (s.setVc site d v).rub = s.rub := rfl
@[simp] theorem State.setVc_sites (s : State) (site : Nat) (d : VcDir) (v : Vc) : (s.setVc site d v).sites = s.sites := rfl
@[simp] theorem State.setVc_west (s : State) (site : Nat) (d : VcDir) (v : Vc) : (s.setVc site d v).west = s.west := rfl
@[simp] theorem State.setVc_east (s : State) (site : Nat) (d : VcDir) (v : Vc) : (s.setVc site d v).east = s.east := rfl
@[simp] theorem State.setVc_rollers (s : State) (site : Nat) (d : VcDir) (v : Vc) : (s.setVc site d v).rollers = s.rollers := rfl
@[simp] theorem State.setVc_seqs (s : State) (site : Nat) (d : VcDir) (v : Vc) : (s.setVc site d v).seqs = s.seqs := rfl
@[simp] theorem State.setVc_disarming (s : State) (site : Nat) (d : VcDir) (v : Vc) : (s.setVc site d v).disarming = s.disarming := rfl
@[simp] theorem State.setVc_rows (s : State) (site : Nat) (d : VcDir) (v : Vc) : (s.setVc site d v).rows = s.rows := rfl
@[simp] theorem State.setVc_refreshDue (s : State) (site : Nat) (d : VcDir) (v : Vc) : (s.setVc site d v).refreshDue = s.refreshDue := rfl
@[simp] theorem State.setVc_colls (s : State) (site : Nat) (d : VcDir) (v : Vc) : (s.setVc site d v).colls = s.colls := rfl
@[simp] theorem State.setVc_deferred (s : State) (site : Nat) (d : VcDir) (v : Vc) : (s.setVc site d v).deferred = s.deferred := rfl
@[simp] theorem State.setVc_ports (s : State) (site : Nat) (d : VcDir) (v : Vc) : (s.setVc site d v).ports = s.ports := rfl
@[simp] theorem State.setVc_tx (s : State) (site : Nat) (d : VcDir) (v : Vc) : (s.setVc site d v).tx = s.tx := rfl
@[simp] theorem State.setVc_rx (s : State) (site : Nat) (d : VcDir) (v : Vc) : (s.setVc site d v).rx = s.rx := rfl
@[simp] theorem State.setVc_slots (s : State) (site : Nat) (d : VcDir) (v : Vc) : (s.setVc site d v).slots = s.slots := rfl
@[simp] theorem State.setVc_fires (s : State) (site : Nat) (d : VcDir) (v : Vc) : (s.setVc site d v).fires = s.fires := rfl
@[simp] theorem State.setVc_orphans (s : State) (site : Nat) (d : VcDir) (v : Vc) : (s.setVc site d v).orphans = s.orphans := rfl
@[simp] theorem State.setVc_msix (s : State) (site : Nat) (d : VcDir) (v : Vc) : (s.setVc site d v).msix = s.msix := rfl
@[simp] theorem State.setVc_cfg (s : State) (site : Nat) (d : VcDir) (v : Vc) : (s.setVc site d v).cfg = s.cfg := rfl
@[simp] theorem State.setVc_aer (s : State) (site : Nat) (d : VcDir) (v : Vc) : (s.setVc site d v).aer = s.aer := rfl
@[simp] theorem State.setVc_pmus (s : State) (site : Nat) (d : VcDir) (v : Vc) : (s.setVc site d v).pmus = s.pmus := rfl
@[simp] theorem State.setVc_flash (s : State) (site : Nat) (d : VcDir) (v : Vc) : (s.setVc site d v).flash = s.flash := rfl
@[simp] theorem State.setVc_snagHeld (s : State) (site : Nat) (d : VcDir) (v : Vc) : (s.setVc site d v).snagHeld = s.snagHeld := rfl
@[simp] theorem State.setVc_retired (s : State) (site : Nat) (d : VcDir) (v : Vc) : (s.setVc site d v).retired = s.retired := rfl
@[simp] theorem State.setVc_repairs (s : State) (site : Nat) (d : VcDir) (v : Vc) : (s.setVc site d v).repairs = s.repairs := rfl
@[simp] theorem State.setVc_remaps (s : State) (site : Nat) (d : VcDir) (v : Vc) : (s.setVc site d v).remaps = s.remaps := rfl
@[simp] theorem State.setVc_otp (s : State) (site : Nat) (d : VcDir) (v : Vc) : (s.setVc site d v).otp = s.otp := rfl
@[simp] theorem State.setVc_sec (s : State) (site : Nat) (d : VcDir) (v : Vc) : (s.setVc site d v).sec = s.sec := rfl
@[simp] theorem State.setVc_power (s : State) (site : Nat) (d : VcDir) (v : Vc) : (s.setVc site d v).power = s.power := rfl
@[simp] theorem State.setVc_pins (s : State) (site : Nat) (d : VcDir) (v : Vc) : (s.setVc site d v).pins = s.pins := rfl
@[simp] theorem State.setVc_trip (s : State) (site : Nat) (d : VcDir) (v : Vc) : (s.setVc site d v).trip = s.trip := rfl

/-! ### setRoller -/

@[simp] theorem State.setRoller_pending (s : State) (x : Nat) (r : Roller) : (s.setRoller x r).pending = s.pending := rfl
@[simp] theorem State.setRoller_regs (s : State) (x : Nat) (r : Roller) : (s.setRoller x r).regs = s.regs := rfl
@[simp] theorem State.setRoller_free (s : State) (x : Nat) (r : Roller) : (s.setRoller x r).free = s.free := rfl
@[simp] theorem State.setRoller_out (s : State) (x : Nat) (r : Roller) : (s.setRoller x r).out = s.out := rfl
@[simp] theorem State.setRoller_mem (s : State) (x : Nat) (r : Roller) : (s.setRoller x r).mem = s.mem := rfl
@[simp] theorem State.setRoller_poison (s : State) (x : Nat) (r : Roller) : (s.setRoller x r).poison = s.poison := rfl
@[simp] theorem State.setRoller_bad (s : State) (x : Nat) (r : Roller) : (s.setRoller x r).bad = s.bad := rfl
@[simp] theorem State.setRoller_cores (s : State) (x : Nat) (r : Roller) : (s.setRoller x r).cores = s.cores := rfl
@[simp] theorem State.setRoller_slices (s : State) (x : Nat) (r : Roller) : (s.setRoller x r).slices = s.slices := rfl
@[simp] theorem State.setRoller_rcMib (s : State) (x : Nat) (r : Roller) : (s.setRoller x r).rcMib = s.rcMib := rfl
@[simp] theorem State.setRoller_rc (s : State) (x : Nat) (r : Roller) : (s.setRoller x r).rc = s.rc := rfl
@[simp] theorem State.setRoller_rcWait (s : State) (x : Nat) (r : Roller) : (s.setRoller x r).rcWait = s.rcWait := rfl
@[simp] theorem State.setRoller_seen (s : State) (x : Nat) (r : Roller) : (s.setRoller x r).seen = s.seen := rfl
@[simp] theorem State.setRoller_hodPatch (s : State) (x : Nat) (r : Roller) : (s.setRoller x r).hodPatch = s.hodPatch := rfl
@[simp] theorem State.setRoller_rndPatch (s : State) (x : Nat) (r : Roller) : (s.setRoller x r).rndPatch = s.rndPatch := rfl
@[simp] theorem State.setRoller_errlog (s : State) (x : Nat) (r : Roller) : (s.setRoller x r).errlog = s.errlog := rfl
@[simp] theorem State.setRoller_rub (s : State) (x : Nat) (r : Roller) : (s.setRoller x r).rub = s.rub := rfl
@[simp] theorem State.setRoller_vcs (s : State) (x : Nat) (r : Roller) : (s.setRoller x r).vcs = s.vcs := rfl
@[simp] theorem State.setRoller_sites (s : State) (x : Nat) (r : Roller) : (s.setRoller x r).sites = s.sites := rfl
@[simp] theorem State.setRoller_west (s : State) (x : Nat) (r : Roller) : (s.setRoller x r).west = s.west := rfl
@[simp] theorem State.setRoller_east (s : State) (x : Nat) (r : Roller) : (s.setRoller x r).east = s.east := rfl
@[simp] theorem State.setRoller_seqs (s : State) (x : Nat) (r : Roller) : (s.setRoller x r).seqs = s.seqs := rfl
@[simp] theorem State.setRoller_disarming (s : State) (x : Nat) (r : Roller) : (s.setRoller x r).disarming = s.disarming := rfl
@[simp] theorem State.setRoller_rows (s : State) (x : Nat) (r : Roller) : (s.setRoller x r).rows = s.rows := rfl
@[simp] theorem State.setRoller_refreshDue (s : State) (x : Nat) (r : Roller) : (s.setRoller x r).refreshDue = s.refreshDue := rfl
@[simp] theorem State.setRoller_colls (s : State) (x : Nat) (r : Roller) : (s.setRoller x r).colls = s.colls := rfl
@[simp] theorem State.setRoller_deferred (s : State) (x : Nat) (r : Roller) : (s.setRoller x r).deferred = s.deferred := rfl
@[simp] theorem State.setRoller_ports (s : State) (x : Nat) (r : Roller) : (s.setRoller x r).ports = s.ports := rfl
@[simp] theorem State.setRoller_tx (s : State) (x : Nat) (r : Roller) : (s.setRoller x r).tx = s.tx := rfl
@[simp] theorem State.setRoller_rx (s : State) (x : Nat) (r : Roller) : (s.setRoller x r).rx = s.rx := rfl
@[simp] theorem State.setRoller_slots (s : State) (x : Nat) (r : Roller) : (s.setRoller x r).slots = s.slots := rfl
@[simp] theorem State.setRoller_fires (s : State) (x : Nat) (r : Roller) : (s.setRoller x r).fires = s.fires := rfl
@[simp] theorem State.setRoller_orphans (s : State) (x : Nat) (r : Roller) : (s.setRoller x r).orphans = s.orphans := rfl
@[simp] theorem State.setRoller_msix (s : State) (x : Nat) (r : Roller) : (s.setRoller x r).msix = s.msix := rfl
@[simp] theorem State.setRoller_cfg (s : State) (x : Nat) (r : Roller) : (s.setRoller x r).cfg = s.cfg := rfl
@[simp] theorem State.setRoller_aer (s : State) (x : Nat) (r : Roller) : (s.setRoller x r).aer = s.aer := rfl
@[simp] theorem State.setRoller_pmus (s : State) (x : Nat) (r : Roller) : (s.setRoller x r).pmus = s.pmus := rfl
@[simp] theorem State.setRoller_flash (s : State) (x : Nat) (r : Roller) : (s.setRoller x r).flash = s.flash := rfl
@[simp] theorem State.setRoller_snagHeld (s : State) (x : Nat) (r : Roller) : (s.setRoller x r).snagHeld = s.snagHeld := rfl
@[simp] theorem State.setRoller_retired (s : State) (x : Nat) (r : Roller) : (s.setRoller x r).retired = s.retired := rfl
@[simp] theorem State.setRoller_repairs (s : State) (x : Nat) (r : Roller) : (s.setRoller x r).repairs = s.repairs := rfl
@[simp] theorem State.setRoller_remaps (s : State) (x : Nat) (r : Roller) : (s.setRoller x r).remaps = s.remaps := rfl
@[simp] theorem State.setRoller_otp (s : State) (x : Nat) (r : Roller) : (s.setRoller x r).otp = s.otp := rfl
@[simp] theorem State.setRoller_sec (s : State) (x : Nat) (r : Roller) : (s.setRoller x r).sec = s.sec := rfl
@[simp] theorem State.setRoller_power (s : State) (x : Nat) (r : Roller) : (s.setRoller x r).power = s.power := rfl
@[simp] theorem State.setRoller_pins (s : State) (x : Nat) (r : Roller) : (s.setRoller x r).pins = s.pins := rfl
@[simp] theorem State.setRoller_trip (s : State) (x : Nat) (r : Roller) : (s.setRoller x r).trip = s.trip := rfl

/-! ### setQueue -/

@[simp] theorem State.setQueue_pending (s : State) (st : Nat) (q : List RlrCmd) : (s.setQueue st q).pending = s.pending := rfl
@[simp] theorem State.setQueue_regs (s : State) (st : Nat) (q : List RlrCmd) : (s.setQueue st q).regs = s.regs := rfl
@[simp] theorem State.setQueue_free (s : State) (st : Nat) (q : List RlrCmd) : (s.setQueue st q).free = s.free := rfl
@[simp] theorem State.setQueue_out (s : State) (st : Nat) (q : List RlrCmd) : (s.setQueue st q).out = s.out := rfl
@[simp] theorem State.setQueue_mem (s : State) (st : Nat) (q : List RlrCmd) : (s.setQueue st q).mem = s.mem := rfl
@[simp] theorem State.setQueue_poison (s : State) (st : Nat) (q : List RlrCmd) : (s.setQueue st q).poison = s.poison := rfl
@[simp] theorem State.setQueue_bad (s : State) (st : Nat) (q : List RlrCmd) : (s.setQueue st q).bad = s.bad := rfl
@[simp] theorem State.setQueue_cores (s : State) (st : Nat) (q : List RlrCmd) : (s.setQueue st q).cores = s.cores := rfl
@[simp] theorem State.setQueue_slices (s : State) (st : Nat) (q : List RlrCmd) : (s.setQueue st q).slices = s.slices := rfl
@[simp] theorem State.setQueue_rcMib (s : State) (st : Nat) (q : List RlrCmd) : (s.setQueue st q).rcMib = s.rcMib := rfl
@[simp] theorem State.setQueue_rc (s : State) (st : Nat) (q : List RlrCmd) : (s.setQueue st q).rc = s.rc := rfl
@[simp] theorem State.setQueue_rcWait (s : State) (st : Nat) (q : List RlrCmd) : (s.setQueue st q).rcWait = s.rcWait := rfl
@[simp] theorem State.setQueue_seen (s : State) (st : Nat) (q : List RlrCmd) : (s.setQueue st q).seen = s.seen := rfl
@[simp] theorem State.setQueue_hodPatch (s : State) (st : Nat) (q : List RlrCmd) : (s.setQueue st q).hodPatch = s.hodPatch := rfl
@[simp] theorem State.setQueue_rndPatch (s : State) (st : Nat) (q : List RlrCmd) : (s.setQueue st q).rndPatch = s.rndPatch := rfl
@[simp] theorem State.setQueue_errlog (s : State) (st : Nat) (q : List RlrCmd) : (s.setQueue st q).errlog = s.errlog := rfl
@[simp] theorem State.setQueue_rub (s : State) (st : Nat) (q : List RlrCmd) : (s.setQueue st q).rub = s.rub := rfl
@[simp] theorem State.setQueue_vcs (s : State) (st : Nat) (q : List RlrCmd) : (s.setQueue st q).vcs = s.vcs := rfl
@[simp] theorem State.setQueue_sites (s : State) (st : Nat) (q : List RlrCmd) : (s.setQueue st q).sites = s.sites := rfl
@[simp] theorem State.setQueue_west (s : State) (st : Nat) (q : List RlrCmd) : (s.setQueue st q).west = s.west := rfl
@[simp] theorem State.setQueue_east (s : State) (st : Nat) (q : List RlrCmd) : (s.setQueue st q).east = s.east := rfl
@[simp] theorem State.setQueue_rollers (s : State) (st : Nat) (q : List RlrCmd) : (s.setQueue st q).rollers = s.rollers := rfl
@[simp] theorem State.setQueue_disarming (s : State) (st : Nat) (q : List RlrCmd) : (s.setQueue st q).disarming = s.disarming := rfl
@[simp] theorem State.setQueue_rows (s : State) (st : Nat) (q : List RlrCmd) : (s.setQueue st q).rows = s.rows := rfl
@[simp] theorem State.setQueue_refreshDue (s : State) (st : Nat) (q : List RlrCmd) : (s.setQueue st q).refreshDue = s.refreshDue := rfl
@[simp] theorem State.setQueue_colls (s : State) (st : Nat) (q : List RlrCmd) : (s.setQueue st q).colls = s.colls := rfl
@[simp] theorem State.setQueue_deferred (s : State) (st : Nat) (q : List RlrCmd) : (s.setQueue st q).deferred = s.deferred := rfl
@[simp] theorem State.setQueue_ports (s : State) (st : Nat) (q : List RlrCmd) : (s.setQueue st q).ports = s.ports := rfl
@[simp] theorem State.setQueue_tx (s : State) (st : Nat) (q : List RlrCmd) : (s.setQueue st q).tx = s.tx := rfl
@[simp] theorem State.setQueue_rx (s : State) (st : Nat) (q : List RlrCmd) : (s.setQueue st q).rx = s.rx := rfl
@[simp] theorem State.setQueue_slots (s : State) (st : Nat) (q : List RlrCmd) : (s.setQueue st q).slots = s.slots := rfl
@[simp] theorem State.setQueue_fires (s : State) (st : Nat) (q : List RlrCmd) : (s.setQueue st q).fires = s.fires := rfl
@[simp] theorem State.setQueue_orphans (s : State) (st : Nat) (q : List RlrCmd) : (s.setQueue st q).orphans = s.orphans := rfl
@[simp] theorem State.setQueue_msix (s : State) (st : Nat) (q : List RlrCmd) : (s.setQueue st q).msix = s.msix := rfl
@[simp] theorem State.setQueue_cfg (s : State) (st : Nat) (q : List RlrCmd) : (s.setQueue st q).cfg = s.cfg := rfl
@[simp] theorem State.setQueue_aer (s : State) (st : Nat) (q : List RlrCmd) : (s.setQueue st q).aer = s.aer := rfl
@[simp] theorem State.setQueue_pmus (s : State) (st : Nat) (q : List RlrCmd) : (s.setQueue st q).pmus = s.pmus := rfl
@[simp] theorem State.setQueue_flash (s : State) (st : Nat) (q : List RlrCmd) : (s.setQueue st q).flash = s.flash := rfl
@[simp] theorem State.setQueue_snagHeld (s : State) (st : Nat) (q : List RlrCmd) : (s.setQueue st q).snagHeld = s.snagHeld := rfl
@[simp] theorem State.setQueue_retired (s : State) (st : Nat) (q : List RlrCmd) : (s.setQueue st q).retired = s.retired := rfl
@[simp] theorem State.setQueue_repairs (s : State) (st : Nat) (q : List RlrCmd) : (s.setQueue st q).repairs = s.repairs := rfl
@[simp] theorem State.setQueue_remaps (s : State) (st : Nat) (q : List RlrCmd) : (s.setQueue st q).remaps = s.remaps := rfl
@[simp] theorem State.setQueue_otp (s : State) (st : Nat) (q : List RlrCmd) : (s.setQueue st q).otp = s.otp := rfl
@[simp] theorem State.setQueue_sec (s : State) (st : Nat) (q : List RlrCmd) : (s.setQueue st q).sec = s.sec := rfl
@[simp] theorem State.setQueue_power (s : State) (st : Nat) (q : List RlrCmd) : (s.setQueue st q).power = s.power := rfl
@[simp] theorem State.setQueue_pins (s : State) (st : Nat) (q : List RlrCmd) : (s.setQueue st q).pins = s.pins := rfl
@[simp] theorem State.setQueue_trip (s : State) (st : Nat) (q : List RlrCmd) : (s.setQueue st q).trip = s.trip := rfl

/-! ### setPort -/

@[simp] theorem State.setPort_pending (s : State) (p : Nat) (x : Port) : (s.setPort p x).pending = s.pending := rfl
@[simp] theorem State.setPort_regs (s : State) (p : Nat) (x : Port) : (s.setPort p x).regs = s.regs := rfl
@[simp] theorem State.setPort_free (s : State) (p : Nat) (x : Port) : (s.setPort p x).free = s.free := rfl
@[simp] theorem State.setPort_out (s : State) (p : Nat) (x : Port) : (s.setPort p x).out = s.out := rfl
@[simp] theorem State.setPort_mem (s : State) (p : Nat) (x : Port) : (s.setPort p x).mem = s.mem := rfl
@[simp] theorem State.setPort_poison (s : State) (p : Nat) (x : Port) : (s.setPort p x).poison = s.poison := rfl
@[simp] theorem State.setPort_bad (s : State) (p : Nat) (x : Port) : (s.setPort p x).bad = s.bad := rfl
@[simp] theorem State.setPort_cores (s : State) (p : Nat) (x : Port) : (s.setPort p x).cores = s.cores := rfl
@[simp] theorem State.setPort_slices (s : State) (p : Nat) (x : Port) : (s.setPort p x).slices = s.slices := rfl
@[simp] theorem State.setPort_rcMib (s : State) (p : Nat) (x : Port) : (s.setPort p x).rcMib = s.rcMib := rfl
@[simp] theorem State.setPort_rc (s : State) (p : Nat) (x : Port) : (s.setPort p x).rc = s.rc := rfl
@[simp] theorem State.setPort_rcWait (s : State) (p : Nat) (x : Port) : (s.setPort p x).rcWait = s.rcWait := rfl
@[simp] theorem State.setPort_seen (s : State) (p : Nat) (x : Port) : (s.setPort p x).seen = s.seen := rfl
@[simp] theorem State.setPort_hodPatch (s : State) (p : Nat) (x : Port) : (s.setPort p x).hodPatch = s.hodPatch := rfl
@[simp] theorem State.setPort_rndPatch (s : State) (p : Nat) (x : Port) : (s.setPort p x).rndPatch = s.rndPatch := rfl
@[simp] theorem State.setPort_errlog (s : State) (p : Nat) (x : Port) : (s.setPort p x).errlog = s.errlog := rfl
@[simp] theorem State.setPort_rub (s : State) (p : Nat) (x : Port) : (s.setPort p x).rub = s.rub := rfl
@[simp] theorem State.setPort_vcs (s : State) (p : Nat) (x : Port) : (s.setPort p x).vcs = s.vcs := rfl
@[simp] theorem State.setPort_sites (s : State) (p : Nat) (x : Port) : (s.setPort p x).sites = s.sites := rfl
@[simp] theorem State.setPort_west (s : State) (p : Nat) (x : Port) : (s.setPort p x).west = s.west := rfl
@[simp] theorem State.setPort_east (s : State) (p : Nat) (x : Port) : (s.setPort p x).east = s.east := rfl
@[simp] theorem State.setPort_rollers (s : State) (p : Nat) (x : Port) : (s.setPort p x).rollers = s.rollers := rfl
@[simp] theorem State.setPort_seqs (s : State) (p : Nat) (x : Port) : (s.setPort p x).seqs = s.seqs := rfl
@[simp] theorem State.setPort_disarming (s : State) (p : Nat) (x : Port) : (s.setPort p x).disarming = s.disarming := rfl
@[simp] theorem State.setPort_rows (s : State) (p : Nat) (x : Port) : (s.setPort p x).rows = s.rows := rfl
@[simp] theorem State.setPort_refreshDue (s : State) (p : Nat) (x : Port) : (s.setPort p x).refreshDue = s.refreshDue := rfl
@[simp] theorem State.setPort_colls (s : State) (p : Nat) (x : Port) : (s.setPort p x).colls = s.colls := rfl
@[simp] theorem State.setPort_deferred (s : State) (p : Nat) (x : Port) : (s.setPort p x).deferred = s.deferred := rfl
@[simp] theorem State.setPort_tx (s : State) (p : Nat) (x : Port) : (s.setPort p x).tx = s.tx := rfl
@[simp] theorem State.setPort_rx (s : State) (p : Nat) (x : Port) : (s.setPort p x).rx = s.rx := rfl
@[simp] theorem State.setPort_slots (s : State) (p : Nat) (x : Port) : (s.setPort p x).slots = s.slots := rfl
@[simp] theorem State.setPort_fires (s : State) (p : Nat) (x : Port) : (s.setPort p x).fires = s.fires := rfl
@[simp] theorem State.setPort_orphans (s : State) (p : Nat) (x : Port) : (s.setPort p x).orphans = s.orphans := rfl
@[simp] theorem State.setPort_msix (s : State) (p : Nat) (x : Port) : (s.setPort p x).msix = s.msix := rfl
@[simp] theorem State.setPort_cfg (s : State) (p : Nat) (x : Port) : (s.setPort p x).cfg = s.cfg := rfl
@[simp] theorem State.setPort_aer (s : State) (p : Nat) (x : Port) : (s.setPort p x).aer = s.aer := rfl
@[simp] theorem State.setPort_pmus (s : State) (p : Nat) (x : Port) : (s.setPort p x).pmus = s.pmus := rfl
@[simp] theorem State.setPort_flash (s : State) (p : Nat) (x : Port) : (s.setPort p x).flash = s.flash := rfl
@[simp] theorem State.setPort_snagHeld (s : State) (p : Nat) (x : Port) : (s.setPort p x).snagHeld = s.snagHeld := rfl
@[simp] theorem State.setPort_retired (s : State) (p : Nat) (x : Port) : (s.setPort p x).retired = s.retired := rfl
@[simp] theorem State.setPort_repairs (s : State) (p : Nat) (x : Port) : (s.setPort p x).repairs = s.repairs := rfl
@[simp] theorem State.setPort_remaps (s : State) (p : Nat) (x : Port) : (s.setPort p x).remaps = s.remaps := rfl
@[simp] theorem State.setPort_otp (s : State) (p : Nat) (x : Port) : (s.setPort p x).otp = s.otp := rfl
@[simp] theorem State.setPort_sec (s : State) (p : Nat) (x : Port) : (s.setPort p x).sec = s.sec := rfl
@[simp] theorem State.setPort_power (s : State) (p : Nat) (x : Port) : (s.setPort p x).power = s.power := rfl
@[simp] theorem State.setPort_pins (s : State) (p : Nat) (x : Port) : (s.setPort p x).pins = s.pins := rfl
@[simp] theorem State.setPort_trip (s : State) (p : Nat) (x : Port) : (s.setPort p x).trip = s.trip := rfl

/-! ### Reads after writes -/

@[simp] theorem State.vc_setVc_self (s : State) (i : Nat) (d : VcDir) (v : Vc) : (s.setVc i d v).vc i d = v := by
  simp [State.vc, State.setVc]

theorem State.vc_setVc_ne (s : State) {i j : Nat} {d e : VcDir} (v : Vc) (h : vcKey j e ≠ vcKey i d) :
    (s.setVc i d v).vc j e = s.vc j e := by
  simp only [State.vc, State.setVc]; exact mapGet_set_ne _ _ _ h

@[simp] theorem State.roller_setRoller_self (s : State) (x : Nat) (r : Roller) : (s.setRoller x r).roller x = r := by
  simp [State.roller, State.setRoller]

theorem State.roller_setRoller_ne (s : State) {x y : Nat} (r : Roller) (h : y ≠ x) :
    (s.setRoller x r).roller y = s.roller y := by
  simp only [State.roller, State.setRoller]; exact mapGet_set_ne _ _ _ h

@[simp] theorem State.queueAt_setQueue_self (s : State) (st : Nat) (q : List RlrCmd) : (s.setQueue st q).queueAt st = q := by
  simp [State.queueAt, State.setQueue]

theorem State.queueAt_setQueue_ne (s : State) {st k : Nat} (q : List RlrCmd) (h : k ≠ st) :
    (s.setQueue st q).queueAt k = s.queueAt k := by
  simp only [State.queueAt, State.setQueue]; exact mapGet_set_ne _ _ _ h

@[simp] theorem State.port_setPort_self (s : State) (p : Nat) (x : Port) : (s.setPort p x).port p = x := by
  simp [State.port, State.setPort]

theorem State.port_setPort_ne (s : State) {p k : Nat} (x : Port) (h : k ≠ p) : (s.setPort p x).port k = s.port k := by
  simp only [State.port, State.setPort]; exact mapGet_set_ne _ _ _ h

end Sys2Proof.Machine
end

