-- ==== Sys2Proof/Laws/PerInstr.lean ====
section
/-!
SUPPORT. A well-formed command names a core that the device has, command by command.
-/

namespace Sys2Proof.Laws.WellFormed

/-- A well-formed command that names a core names one of the 144 (01 R15). -/
def Statement (i : Instr) : Prop := i.wf = true → ∀ n, i.coreOf = some n → n < 144

theorem add a b c d : Statement (.add a b c d) :=
  fun h _ e => Option.some.inj e ▸ of_decide_eq_true h
theorem sub a b c d : Statement (.sub a b c d) :=
  fun h _ e => Option.some.inj e ▸ of_decide_eq_true h
theorem and a b c d : Statement (.and a b c d) :=
  fun h _ e => Option.some.inj e ▸ of_decide_eq_true h
theorem or a b c d : Statement (.or a b c d) :=
  fun h _ e => Option.some.inj e ▸ of_decide_eq_true h
theorem xor a b c d : Statement (.xor a b c d) :=
  fun h _ e => Option.some.inj e ▸ of_decide_eq_true h
theorem sll a b c d : Statement (.sll a b c d) :=
  fun h _ e => Option.some.inj e ▸ of_decide_eq_true h
theorem srl a b c d : Statement (.srl a b c d) :=
  fun h _ e => Option.some.inj e ▸ of_decide_eq_true h
theorem sra a b c d : Statement (.sra a b c d) :=
  fun h _ e => Option.some.inj e ▸ of_decide_eq_true h
theorem slt a b c d : Statement (.slt a b c d) :=
  fun h _ e => Option.some.inj e ▸ of_decide_eq_true h
theorem sltu a b c d : Statement (.sltu a b c d) :=
  fun h _ e => Option.some.inj e ▸ of_decide_eq_true h
theorem min a b c d : Statement (.min a b c d) :=
  fun h _ e => Option.some.inj e ▸ of_decide_eq_true h
theorem max a b c d : Statement (.max a b c d) :=
  fun h _ e => Option.some.inj e ▸ of_decide_eq_true h
theorem minu a b c d : Statement (.minu a b c d) :=
  fun h _ e => Option.some.inj e ▸ of_decide_eq_true h
theorem maxu a b c d : Statement (.maxu a b c d) :=
  fun h _ e => Option.some.inj e ▸ of_decide_eq_true h
theorem mul a b c d : Statement (.mul a b c d) :=
  fun h _ e => Option.some.inj e ▸ of_decide_eq_true h
theorem mulh a b c d : Statement (.mulh a b c d) :=
  fun h _ e => Option.some.inj e ▸ of_decide_eq_true h
theorem mulhu a b c d : Statement (.mulhu a b c d) :=
  fun h _ e => Option.some.inj e ▸ of_decide_eq_true h
theorem div a b c d : Statement (.div a b c d) :=
  fun h _ e => Option.some.inj e ▸ of_decide_eq_true h
theorem divu a b c d : Statement (.divu a b c d) :=
  fun h _ e => Option.some.inj e ▸ of_decide_eq_true h
theorem rem a b c d : Statement (.rem a b c d) :=
  fun h _ e => Option.some.inj e ▸ of_decide_eq_true h
theorem remu a b c d : Statement (.remu a b c d) :=
  fun h _ e => Option.some.inj e ▸ of_decide_eq_true h
theorem fadd a b c d : Statement (.fadd a b c d) :=
  fun h _ e => Option.some.inj e ▸ of_decide_eq_true h
theorem fsub a b c d : Statement (.fsub a b c d) :=
  fun h _ e => Option.some.inj e ▸ of_decide_eq_true h
theorem fmul a b c d : Statement (.fmul a b c d) :=
  fun h _ e => Option.some.inj e ▸ of_decide_eq_true h
theorem fmin a b c d : Statement (.fmin a b c d) :=
  fun h _ e => Option.some.inj e ▸ of_decide_eq_true h
theorem fmax a b c d : Statement (.fmax a b c d) :=
  fun h _ e => Option.some.inj e ▸ of_decide_eq_true h
theorem feq a b c d : Statement (.feq a b c d) :=
  fun h _ e => Option.some.inj e ▸ of_decide_eq_true h
theorem flt a b c d : Statement (.flt a b c d) :=
  fun h _ e => Option.some.inj e ▸ of_decide_eq_true h
theorem fle a b c d : Statement (.fle a b c d) :=
  fun h _ e => Option.some.inj e ▸ of_decide_eq_true h
theorem fcvtSL a b c : Statement (.fcvtSL a b c) :=
  fun h _ e => Option.some.inj e ▸ of_decide_eq_true h
theorem fcvtLS a b c : Statement (.fcvtLS a b c) :=
  fun h _ e => Option.some.inj e ▸ of_decide_eq_true h
theorem addi a b c d : Statement (.addi a b c d) :=
  fun h _ e => Option.some.inj e ▸ of_decide_eq_true h
theorem andi a b c d : Statement (.andi a b c d) :=
  fun h _ e => Option.some.inj e ▸ of_decide_eq_true h
theorem ori a b c d : Statement (.ori a b c d) :=
  fun h _ e => Option.some.inj e ▸ of_decide_eq_true h
theorem xori a b c d : Statement (.xori a b c d) :=
  fun h _ e => Option.some.inj e ▸ of_decide_eq_true h
theorem slti a b c d : Statement (.slti a b c d) :=
  fun h _ e => Option.some.inj e ▸ of_decide_eq_true h
theorem slli a b c d : Statement (.slli a b c d) :=
  fun h _ e => Option.some.inj e ▸ of_decide_eq_true h
theorem srli a b c d : Statement (.srli a b c d) :=
  fun h _ e => Option.some.inj e ▸ of_decide_eq_true h
theorem srai a b c d : Statement (.srai a b c d) :=
  fun h _ e => Option.some.inj e ▸ of_decide_eq_true h
theorem lui a b c : Statement (.lui a b c) :=
  fun h _ e => Option.some.inj e ▸ of_decide_eq_true h
theorem lb a b c d : Statement (.lb a b c d) :=
  fun h _ e => Option.some.inj e ▸ of_decide_eq_true h
theorem lh a b c d : Statement (.lh a b c d) :=
  fun h _ e => Option.some.inj e ▸ of_decide_eq_true h
theorem lw a b c d : Statement (.lw a b c d) :=
  fun h _ e => Option.some.inj e ▸ of_decide_eq_true h
theorem ld a b c d : Statement (.ld a b c d) :=
  fun h _ e => Option.some.inj e ▸ of_decide_eq_true h
theorem lbu a b c d : Statement (.lbu a b c d) :=
  fun h _ e => Option.some.inj e ▸ of_decide_eq_true h
theorem lhu a b c d : Statement (.lhu a b c d) :=
  fun h _ e => Option.some.inj e ▸ of_decide_eq_true h
theorem lwu a b c d : Statement (.lwu a b c d) :=
  fun h _ e => Option.some.inj e ▸ of_decide_eq_true h
theorem sb a b c d : Statement (.sb a b c d) :=
  fun h _ e => Option.some.inj e ▸ of_decide_eq_true h
theorem sh a b c d : Statement (.sh a b c d) :=
  fun h _ e => Option.some.inj e ▸ of_decide_eq_true h
theorem sw a b c d : Statement (.sw a b c d) :=
  fun h _ e => Option.some.inj e ▸ of_decide_eq_true h
theorem st a b c d : Statement (.st a b c d) :=
  fun h _ e => Option.some.inj e ▸ of_decide_eq_true h
theorem stRel a b c d : Statement (.stRel a b c d) :=
  fun h _ e => Option.some.inj e ▸ of_decide_eq_true h
theorem brEq a b c d : Statement (.brEq a b c d) :=
  fun h _ e => Option.some.inj e ▸ of_decide_eq_true h
theorem brNe a b c d : Statement (.brNe a b c d) :=
  fun h _ e => Option.some.inj e ▸ of_decide_eq_true h
theorem brLt a b c d : Statement (.brLt a b c d) :=
  fun h _ e => Option.some.inj e ▸ of_decide_eq_true h
theorem brGe a b c d : Statement (.brGe a b c d) :=
  fun h _ e => Option.some.inj e ▸ of_decide_eq_true h
theorem brLtu a b c d : Statement (.brLtu a b c d) :=
  fun h _ e => Option.some.inj e ▸ of_decide_eq_true h
theorem brGeu a b c d : Statement (.brGeu a b c d) :=
  fun h _ e => Option.some.inj e ▸ of_decide_eq_true h
theorem jal a b c : Statement (.jal a b c) :=
  fun h _ e => Option.some.inj e ▸ of_decide_eq_true h
theorem jalr a b c d : Statement (.jalr a b c d) :=
  fun h _ e => Option.some.inj e ▸ of_decide_eq_true h
theorem tks a b c : Statement (.tks a b c) :=
  fun h _ e => Option.some.inj e ▸ of_decide_eq_true h
theorem tkw a b c : Statement (.tkw a b c) :=
  fun h _ e => Option.some.inj e ▸ of_decide_eq_true h
theorem tkrd a b c : Statement (.tkrd a b c) :=
  fun h _ e => Option.some.inj e ▸ of_decide_eq_true h
theorem tkset a b c : Statement (.tkset a b c) :=
  fun h _ e => Option.some.inj e ▸ of_decide_eq_true h
theorem dld a b c d : Statement (.dld a b c d) :=
  fun h _ e => Option.some.inj e ▸ of_decide_eq_true h
theorem dst a b c d : Statement (.dst a b c d) :=
  fun h _ e => Option.some.inj e ▸ of_decide_eq_true h
theorem dset a b c d : Statement (.dset a b c d) :=
  fun h _ e => Option.some.inj e ▸ of_decide_eq_true h
theorem dget a b c d : Statement (.dget a b c d) :=
  fun h _ e => Option.some.inj e ▸ of_decide_eq_true h
theorem dcpy a b c : Statement (.dcpy a b c) :=
  fun h _ e => Option.some.inj e ▸ of_decide_eq_true h
theorem dzero a b : Statement (.dzero a b) :=
  fun h _ e => Option.some.inj e ▸ of_decide_eq_true h
theorem sumrd a b c d : Statement (.sumrd a b c d) :=
  fun h _ e => Option.some.inj e ▸ of_decide_eq_true h
theorem fence a : Statement (.fence a) :=
  fun h _ e => Option.some.inj e ▸ of_decide_eq_true h
theorem icinv a : Statement (.icinv a) :=
  fun h _ e => Option.some.inj e ▸ of_decide_eq_true h
theorem seed a b : Statement (.seed a b) :=
  fun h _ e => Option.some.inj e ▸ of_decide_eq_true h
theorem brk a b : Statement (.brk a b) :=
  fun h _ e => Option.some.inj e ▸ of_decide_eq_true h
theorem halt a b : Statement (.halt a b) :=
  fun h _ e => Option.some.inj e ▸ of_decide_eq_true h
theorem waitf a b c d e f g : Statement (.waitf a b c d e f g) :=
  fun h _ e => Option.some.inj e ▸ of_decide_eq_true (Bool.and_eq_true_iff.mp h).1
theorem waitfWake a : Statement (.waitfWake a) :=
  fun h _ e => Option.some.inj e ▸ of_decide_eq_true h
theorem waitfTimeout a : Statement (.waitfTimeout a) :=
  fun h _ e => Option.some.inj e ▸ of_decide_eq_true h
theorem tkwSatisfied a : Statement (.tkwSatisfied a) :=
  fun h _ e => Option.some.inj e ▸ of_decide_eq_true h
theorem loadDataReturn a b : Statement (.loadDataReturn a b) :=
  fun h _ e => Option.some.inj e ▸ of_decide_eq_true h
theorem storePerformed a b : Statement (.storePerformed a b) :=
  fun h _ e => Option.some.inj e ▸ of_decide_eq_true h
theorem unitInstructionStart a b : Statement (.unitInstructionStart a b) :=
  fun h _ e => Option.some.inj e ▸ of_decide_eq_true h
theorem unitInstructionComplete a b : Statement (.unitInstructionComplete a b) :=
  fun h _ e => Option.some.inj e ▸ of_decide_eq_true h
theorem ticketDeadlock a : Statement (.ticketDeadlock a) :=
  fun h _ e => Option.some.inj e ▸ of_decide_eq_true h
theorem coreDrainComplete a : Statement (.coreDrainComplete a) :=
  fun h _ e => Option.some.inj e ▸ of_decide_eq_true h
theorem icacheMissFill a b : Statement (.icacheMissFill a b) :=
  fun h _ e => Option.some.inj e ▸ of_decide_eq_true h
theorem icacheParityError a b : Statement (.icacheParityError a b) :=
  fun h _ e => Option.some.inj e ▸ of_decide_eq_true h
theorem controlPathParityError a : Statement (.controlPathParityError a) :=
  fun h _ e => Option.some.inj e ▸ of_decide_eq_true h
theorem coreLaunchEntry a : Statement (.coreLaunchEntry a) :=
  fun h _ e => Option.some.inj e ▸ of_decide_eq_true h
theorem coreCtrlStop a : Statement (.coreCtrlStop a) :=
  fun h _ e => Option.some.inj e ▸ of_decide_eq_true h
theorem movRowUp a b : Statement (.movRowUp a b) :=
  fun h _ e => Option.some.inj e ▸ of_decide_eq_true h
theorem movRowDn a b : Statement (.movRowDn a b) :=
  fun h _ e => Option.some.inj e ▸ of_decide_eq_true h
theorem movBlk a b : Statement (.movBlk a b) :=
  fun h _ e => Option.some.inj e ▸ of_decide_eq_true h
theorem movRcflWb a b : Statement (.movRcflWb a b) :=
  fun h _ e => Option.some.inj e ▸ of_decide_eq_true h
theorem movRcflWbinv a b : Statement (.movRcflWbinv a b) :=
  fun h _ e => Option.some.inj e ▸ of_decide_eq_true h
theorem movPutf a b : Statement (.movPutf a b) :=
  fun h _ e => Option.some.inj e ▸ of_decide_eq_true h
theorem trwMma a b : Statement (.trwMma a b) :=
  fun h _ e => Option.some.inj e ▸ of_decide_eq_true h
theorem trwDrain a b : Statement (.trwDrain a b) :=
  fun h _ e => Option.some.inj e ▸ of_decide_eq_true h
theorem trwLdacc a b : Statement (.trwLdacc a b) :=
  fun h _ e => Option.some.inj e ▸ of_decide_eq_true h
theorem trwClr a b : Statement (.trwClr a b) :=
  fun h _ e => Option.some.inj e ▸ of_decide_eq_true h
theorem trwAccumulatorParityError a b c d : Statement (.trwAccumulatorParityError a b c d) :=
  fun h _ e => Option.some.inj e ▸ of_decide_eq_true (Bool.and_eq_true_iff.mp (Bool.and_eq_true_iff.mp h).1).1
theorem brsLdp a b : Statement (.brsLdp a b) :=
  fun h _ e => Option.some.inj e ▸ of_decide_eq_true h
theorem brsRun a b : Statement (.brsRun a b) :=
  fun h _ e => Option.some.inj e ▸ of_decide_eq_true h
theorem stcFwd a b : Statement (.stcFwd a b) :=
  fun h _ e => Option.some.inj e ▸ of_decide_eq_true h
theorem stcBwd a b : Statement (.stcBwd a b) :=
  fun h _ e => Option.some.inj e ▸ of_decide_eq_true h
theorem stcPteditInit a b : Statement (.stcPteditInit a b) :=
  fun h _ e => Option.some.inj e ▸ of_decide_eq_true h
theorem stcPteditAppend a b : Statement (.stcPteditAppend a b) :=
  fun h _ e => Option.some.inj e ▸ of_decide_eq_true h
theorem stcPteditExtend a b : Statement (.stcPteditExtend a b) :=
  fun h _ e => Option.some.inj e ▸ of_decide_eq_true h
theorem stcPteditDrop a b : Statement (.stcPteditDrop a b) :=
  fun h _ e => Option.some.inj e ▸ of_decide_eq_true h
theorem stcPteditReplace a b : Statement (.stcPteditReplace a b) :=
  fun h _ e => Option.some.inj e ▸ of_decide_eq_true h
theorem stcPteditTrunc a b : Statement (.stcPteditTrunc a b) :=
  fun h _ e => Option.some.inj e ▸ of_decide_eq_true h
theorem stcPteditFree a b : Statement (.stcPteditFree a b) :=
  fun h _ e => Option.some.inj e ▸ of_decide_eq_true h
theorem stcBucket a b : Statement (.stcBucket a b) :=
  fun h _ e => Option.some.inj e ▸ of_decide_eq_true h
theorem stcDec a b : Statement (.stcDec a b) :=
  fun h _ e => Option.some.inj e ▸ of_decide_eq_true h
theorem holdAcquire a : Statement (.holdAcquire a) :=
  fun h _ e => Option.some.inj e ▸ of_decide_eq_true h
theorem holdRelease a : Statement (.holdRelease a) :=
  fun h _ e => Option.some.inj e ▸ of_decide_eq_true h
theorem deferredEditApply a : Statement (.deferredEditApply a) := fun _ _ e => nomatch e
theorem mcHoldRelease a : Statement (.mcHoldRelease a) :=
  fun h _ e => Option.some.inj e ▸ of_decide_eq_true h
theorem kvTableEnable a b : Statement (.kvTableEnable a b) := fun _ _ e => nomatch e
theorem kvTableDisable a b : Statement (.kvTableDisable a b) := fun _ _ e => nomatch e
theorem rlrVld a b : Statement (.rlrVld a b) :=
  fun h _ e => Option.some.inj e ▸ of_decide_eq_true h
theorem rlrMv a b : Statement (.rlrMv a b) :=
  fun h _ e => Option.some.inj e ▸ of_decide_eq_true h
theorem rlrRd a b : Statement (.rlrRd a b) :=
  fun h _ e => Option.some.inj e ▸ of_decide_eq_true h
theorem rlrWr a b : Statement (.rlrWr a b) :=
  fun h _ e => Option.some.inj e ▸ of_decide_eq_true h
theorem rollerCommandArrival a b c : Statement (.rollerCommandArrival a b c) :=
  fun h _ e => Option.some.inj e ▸ of_decide_eq_true (Bool.and_eq_true_iff.mp h).1
theorem rollerStackReport a : Statement (.rollerStackReport a) := fun _ _ e => nomatch e
theorem rollerPassEnd a : Statement (.rollerPassEnd a) := fun _ _ e => nomatch e
theorem channelRefresh a : Statement (.channelRefresh a) := fun _ _ e => nomatch e
theorem rollerDisarmComplete a : Statement (.rollerDisarmComplete a) := fun _ _ e => nomatch e
theorem scrMcast a b : Statement (.scrMcast a b) :=
  fun h _ e => Option.some.inj e ▸ of_decide_eq_true h
theorem scrRed a b : Statement (.scrRed a b) :=
  fun h _ e => Option.some.inj e ▸ of_decide_eq_true h
theorem scrBar a b : Statement (.scrBar a b) :=
  fun h _ e => Option.some.inj e ▸ of_decide_eq_true h
theorem scrFlagSet a b : Statement (.scrFlagSet a b) :=
  fun h _ e => Option.some.inj e ▸ of_decide_eq_true h
theorem scrFlagAdd a b : Statement (.scrFlagAdd a b) :=
  fun h _ e => Option.some.inj e ▸ of_decide_eq_true h
theorem scrFlagOr a b : Statement (.scrFlagOr a b) :=
  fun h _ e => Option.some.inj e ▸ of_decide_eq_true h
theorem scrFlagMaxu a b : Statement (.scrFlagMaxu a b) :=
  fun h _ e => Option.some.inj e ▸ of_decide_eq_true h
theorem mcastCopyDelivered a b : Statement (.mcastCopyDelivered a b) :=
  fun h _ e => Option.some.inj e ▸ of_decide_eq_true (Bool.and_eq_true_iff.mp h).1
theorem redContributionArrival a : Statement (.redContributionArrival a) :=
  fun h _ e => Option.some.inj e ▸ of_decide_eq_true h
theorem barrierArrival a : Statement (.barrierArrival a) :=
  fun h _ e => Option.some.inj e ▸ of_decide_eq_true h
theorem barrierReleaseDelivered a : Statement (.barrierReleaseDelivered a) :=
  fun h _ e => Option.some.inj e ▸ of_decide_eq_true h
theorem collTimeout a : Statement (.collTimeout a) :=
  fun h _ e => Option.some.inj e ▸ of_decide_eq_true h
theorem hawkRemoteWrite a b : Statement (.hawkRemoteWrite a b) :=
  fun h _ e => Option.some.inj e ▸ of_decide_eq_true h
theorem hawkRemoteReadRequest a b c : Statement (.hawkRemoteReadRequest a b c) :=
  fun h _ e => Option.some.inj e ▸ of_decide_eq_true h
theorem seamRouterWake a : Statement (.seamRouterWake a) := fun _ _ e => nomatch e
theorem seamRouterWakeComplete a : Statement (.seamRouterWakeComplete a) := fun _ _ e => nomatch e
theorem scrimLinkParityError a b c d : Statement (.scrimLinkParityError a b c d) := fun _ _ e => nomatch e
theorem vcRowCommit a b c d : Statement (.vcRowCommit a b c d) := fun _ _ e => nomatch e
theorem vcRowReplay a b c d e : Statement (.vcRowReplay a b c d e) := fun _ _ e => nomatch e
theorem vcLaneFailed a b c d : Statement (.vcLaneFailed a b c d) := fun _ _ e => nomatch e
theorem vcLaneRepair a b c d : Statement (.vcLaneRepair a b c d) := fun _ _ e => nomatch e
theorem vcWidthChange a b : Statement (.vcWidthChange a b) := fun _ _ e => nomatch e
theorem probeMeasurement a b c d e : Statement (.probeMeasurement a b c d e) := fun _ _ e => nomatch e
theorem retuneWindowDue a b : Statement (.retuneWindowDue a b) := fun _ _ e => nomatch e
theorem retuneWindowOpen a : Statement (.retuneWindowOpen a) := fun _ _ e => nomatch e
theorem retuneWindowEnd a b : Statement (.retuneWindowEnd a b) := fun _ _ e => nomatch e
theorem retuneWindowForced a b : Statement (.retuneWindowForced a b) := fun _ _ e => nomatch e
theorem pllLockComplete a : Statement (.pllLockComplete a) := fun _ _ e => nomatch e
theorem halfClockResume a : Statement (.halfClockResume a) := fun _ _ e => nomatch e
theorem railRampComplete : Statement .railRampComplete := fun _ _ e => nomatch e
theorem fullLathReset : Statement .fullLathReset := fun _ _ e => nomatch e
theorem keritPortReset a : Statement (.keritPortReset a) := fun _ _ e => nomatch e
theorem keritPortResetEnd a : Statement (.keritPortResetEnd a) := fun _ _ e => nomatch e
theorem renderControllerReset a : Statement (.renderControllerReset a) := fun _ _ e => nomatch e
theorem renderControllerResetEnd a : Statement (.renderControllerResetEnd a) := fun _ _ e => nomatch e
theorem barRead a b c d : Statement (.barRead a b c d) := fun _ _ e => nomatch e
theorem barWrite a b c d : Statement (.barWrite a b c d) := fun _ _ e => nomatch e
theorem registerWrite a b c : Statement (.registerWrite a b c) := fun _ _ e => nomatch e
theorem launchSlotWrite a b c : Statement (.launchSlotWrite a b c) := fun _ _ e => nomatch e
theorem launchStart a : Statement (.launchStart a) := fun _ _ e => nomatch e
theorem launchEnd a : Statement (.launchEnd a) := fun _ _ e => nomatch e
theorem msixVectorUnmask a : Statement (.msixVectorUnmask a) := fun _ _ e => nomatch e
theorem functionLevelReset : Statement .functionLevelReset := fun _ _ e => nomatch e
theorem hotReset : Statement .hotReset := fun _ _ e => nomatch e
theorem pcieConfigRequest a : Statement (.pcieConfigRequest a) := fun _ _ e => nomatch e
theorem hostReadCompletion a b c d : Statement (.hostReadCompletion a b c d) :=
  fun h _ e => Option.some.inj e ▸ of_decide_eq_true h
theorem d3hotEntry : Statement .d3hotEntry := fun _ _ e => nomatch e
theorem d0Return : Statement .d0Return := fun _ _ e => nomatch e
theorem asleepWakeComplete : Statement .asleepWakeComplete := fun _ _ e => nomatch e
theorem dataFrame a b : Statement (.dataFrame a b) := fun _ _ e => nomatch e
theorem nakFrame a b c : Statement (.nakFrame a b c) := fun _ _ e => nomatch e
theorem idleFrame a b c : Statement (.idleFrame a b c) := fun _ _ e => nomatch e
theorem ackTimeoutReplay a : Statement (.ackTimeoutReplay a) := fun _ _ e => nomatch e
theorem codewordLockLoss a : Statement (.codewordLockLoss a) := fun _ _ e => nomatch e
theorem portTrainingComplete a b : Statement (.portTrainingComplete a b) := fun _ _ e => nomatch e
theorem portRetrainRetry a : Statement (.portRetrainRetry a) := fun _ _ e => nomatch e
theorem put a : Statement (.put a) := fun _ _ e => nomatch e
theorem flag a : Statement (.flag a) := fun _ _ e => nomatch e
theorem read a b : Statement (.read a b) := fun _ _ e => nomatch e
theorem readData a : Statement (.readData a) := fun _ _ e => nomatch e
theorem pack a : Statement (.pack a) := fun _ _ e => nomatch e
theorem flowFailover a : Statement (.flowFailover a) := fun _ _ e => nomatch e
theorem flowReturnHome a : Statement (.flowReturnHome a) := fun _ _ e => nomatch e
theorem e2eTimeout a b : Statement (.e2eTimeout a b) :=
  fun h _ e => Option.some.inj e ▸ of_decide_eq_true h
theorem quietEntry a : Statement (.quietEntry a) := fun _ _ e => nomatch e
theorem quietExit a : Statement (.quietExit a) := fun _ _ e => nomatch e
theorem fullWidthResume a : Statement (.fullWidthResume a) := fun _ _ e => nomatch e
theorem keritCoefficientStore a b : Statement (.keritCoefficientStore a b) := fun _ _ e => nomatch e
theorem mgtImageReceive a b : Statement (.mgtImageReceive a b) := fun _ _ e => nomatch e
theorem memberReport a b : Statement (.memberReport a b) := fun _ _ e => nomatch e
theorem memberReportTimeout a : Statement (.memberReportTimeout a) := fun _ _ e => nomatch e
theorem klkCtrlEn a b : Statement (.klkCtrlEn a b) := fun _ _ e => nomatch e
theorem klkLockSet : Statement .klkLockSet := fun _ _ e => nomatch e
theorem lathVcPolicyLock a b : Statement (.lathVcPolicyLock a b) := fun _ _ e => nomatch e
theorem scrCfgLock a b : Statement (.scrCfgLock a b) := fun _ _ e => nomatch e
theorem start a : Statement (.start a) := fun _ _ e => nomatch e
theorem snagAppend a : Statement (.snagAppend a) := fun _ _ e => nomatch e
theorem mcRemapGo a b : Statement (.mcRemapGo a b) := fun _ _ e => nomatch e
theorem remapComplete : Statement .remapComplete := fun _ _ e => nomatch e
theorem rubDownGo a b : Statement (.rubDownGo a b) := fun _ _ e => nomatch e
theorem rubDownStop a b c : Statement (.rubDownStop a b c) := fun _ _ e => nomatch e
theorem rubDownComplete a : Statement (.rubDownComplete a) := fun _ _ e => nomatch e
theorem mcErrStatusClear a b : Statement (.mcErrStatusClear a b) := fun _ _ e => nomatch e
theorem finishRequest a b : Statement (.finishRequest a b) := fun _ _ e => nomatch e
theorem finishChangeAccept : Statement .finishChangeAccept := fun _ _ e => nomatch e
theorem powerStateEntry a : Statement (.powerStateEntry a) := fun _ _ e => nomatch e
theorem powerStateWake a : Statement (.powerStateWake a) := fun _ _ e => nomatch e
theorem powerSample a b c d e : Statement (.powerSample a b c d e) := fun _ _ e => nomatch e
theorem thermalSample a b c : Statement (.thermalSample a b c) := fun _ _ e => nomatch e
theorem thermalEstimateStore : Statement .thermalEstimateStore := fun _ _ e => nomatch e
theorem hotSpotFall a b : Statement (.hotSpotFall a b) := fun _ _ e => nomatch e
theorem hotSpotRise a b : Statement (.hotSpotRise a b) := fun _ _ e => nomatch e
theorem hotSpotCapStep a b : Statement (.hotSpotCapStep a b) := fun _ _ e => nomatch e
theorem thermalTrip a : Statement (.thermalTrip a) := fun _ _ e => nomatch e
theorem rainflowSample a : Statement (.rainflowSample a) := fun _ _ e => nomatch e
theorem lifeRecompute : Statement .lifeRecompute := fun _ _ e => nomatch e
theorem floorHoldExpiry : Statement .floorHoldExpiry := fun _ _ e => nomatch e
theorem brakeNAssert : Statement .brakeNAssert := fun _ _ e => nomatch e
theorem brakeNDeassert : Statement .brakeNDeassert := fun _ _ e => nomatch e
theorem auxApply : Statement .auxApply := fun _ _ e => nomatch e
theorem auxLoss : Statement .auxLoss := fun _ _ e => nomatch e
theorem stageStart a : Statement (.stageStart a) := fun _ _ e => nomatch e
theorem stageStop a : Statement (.stageStop a) := fun _ _ e => nomatch e
theorem perstAssert : Statement .perstAssert := fun _ _ e => nomatch e
theorem perstDeassert : Statement .perstDeassert := fun _ _ e => nomatch e
theorem mcWatchdogExpiry : Statement .mcWatchdogExpiry := fun _ _ e => nomatch e
theorem i3cEntdaa a : Statement (.i3cEntdaa a) := fun _ _ e => nomatch e
theorem getVersion a b : Statement (.getVersion a b) := fun _ _ e => nomatch e
theorem getCapabilities a b : Statement (.getCapabilities a b) := fun _ _ e => nomatch e
theorem negotiateAlgorithms a b : Statement (.negotiateAlgorithms a b) := fun _ _ e => nomatch e
theorem getDigests a b : Statement (.getDigests a b) := fun _ _ e => nomatch e
theorem getCertificate a b : Statement (.getCertificate a b) := fun _ _ e => nomatch e
theorem challenge a b : Statement (.challenge a b) := fun _ _ e => nomatch e
theorem getMeasurements a b : Statement (.getMeasurements a b) := fun _ _ e => nomatch e
theorem fwBegin a : Statement (.fwBegin a) := fun _ _ e => nomatch e
theorem fwWrite a : Statement (.fwWrite a) := fun _ _ e => nomatch e
theorem fwFinish a : Statement (.fwFinish a) := fun _ _ e => nomatch e
theorem fwActivate a : Statement (.fwActivate a) := fun _ _ e => nomatch e
theorem fwCommit a : Statement (.fwCommit a) := fun _ _ e => nomatch e
theorem fwAbort a : Statement (.fwAbort a) := fun _ _ e => nomatch e
theorem fwCommandComplete a : Statement (.fwCommandComplete a) := fun _ _ e => nomatch e
theorem dbgRequest a : Statement (.dbgRequest a) := fun _ _ e => nomatch e
theorem dbgSubmit a : Statement (.dbgSubmit a) := fun _ _ e => nomatch e
theorem dbgRelock a : Statement (.dbgRelock a) := fun _ _ e => nomatch e
theorem dbgEnrol a : Statement (.dbgEnrol a) := fun _ _ e => nomatch e
theorem dbgCommandComplete : Statement .dbgCommandComplete := fun _ _ e => nomatch e
theorem nonceExpiry : Statement .nonceExpiry := fun _ _ e => nomatch e
theorem pmuMarkWrite a b c : Statement (.pmuMarkWrite a b c) :=
  fun h _ e => Option.some.inj e ▸ of_decide_eq_true h
theorem pmuSamplingEnable a b c : Statement (.pmuSamplingEnable a b c) :=
  fun h _ e => Option.some.inj e ▸ of_decide_eq_true h
theorem pmuSamplingDisable a b c : Statement (.pmuSamplingDisable a b c) :=
  fun h _ e => Option.some.inj e ▸ of_decide_eq_true h
theorem sampleSpill a : Statement (.sampleSpill a) :=
  fun h _ e => Option.some.inj e ▸ of_decide_eq_true h
theorem pmuPermSave a b c : Statement (.pmuPermSave a b c) :=
  fun h _ e => Option.some.inj e ▸ of_decide_eq_true h
theorem pmuPermLock a b c : Statement (.pmuPermLock a b c) :=
  fun h _ e => Option.some.inj e ▸ of_decide_eq_true h
theorem illegalInstruction a b : Statement (.illegalInstruction a b) :=
  fun h _ e => Option.some.inj e ▸ of_decide_eq_true h
theorem dramRowClose a b : Statement (.dramRowClose a b) := fun _ _ e => nomatch e
theorem inletTemperatureChange a : Statement (.inletTemperatureChange a) := fun _ _ e => nomatch e
theorem snagListClear a : Statement (.snagListClear a) := fun _ _ e => nomatch e

end Sys2Proof.Laws.WellFormed
end

