-- ==== Sys2Proof/Laws/Security.lean ====
section
/-!
SUPPORT. The image that the device ships with passes the checks of R597.
-/

namespace Sys2Proof.Machine

theorem length_vendorEdKey : vendorEdKey.length = 32 := by simp [vendorEdKey]

theorem length_vendorMlKey : vendorMlKey.length = 1952 := by simp [vendorMlKey]

theorem length_edSig (key msg : List Byte) : (edSig key msg).length = 64 := by simp [edSig]

theorem length_mlSig (key msg : List Byte) : (mlSig key msg).length = 3309 := by simp [mlSig]

theorem take_three (a b c : List Byte) (n : Nat) (h : a.length = n) : (a ++ b ++ c).take n = a := by
  rw [List.append_assoc]
  exact List.take_left' h

theorem drop_three (a b c : List Byte) (n : Nat) (h : a.length = n) : (a ++ b ++ c).drop n = b ++ c := by
  rw [List.append_assoc]
  exact List.drop_left' h

/-- Bytes 0 to 2,047 of the shipped image. -/
theorem take_factoryImage : factoryImage.take 2048 = [0x57, 0x59, 0x52, 0x4B] ++ List.replicate 12 0 ++ vendorEdKey
    ++ vendorMlKey ++ List.replicate 48 0 := by
  unfold factoryImage
  exact take_three _ _ _ 2048 (by simp [length_vendorEdKey, length_vendorMlKey])

/-- Its bytes from 2,048 on. -/
theorem drop_factoryImage : factoryImage.drop 2048 = edSig vendorEdKey (Config.sha384 (factoryImage.take 2048))
    ++ mlSig vendorMlKey (Config.sha384 (factoryImage.take 2048)) := by
  rw [take_factoryImage]
  unfold factoryImage
  exact drop_three _ _ _ 2048 (by simp [length_vendorEdKey, length_vendorMlKey])

theorem imageCheck_factoryImage : imageCheck Otp.zero factoryImage = 1 := by
  have e0 : imgPart factoryImage 0 4 = [0x57, 0x59, 0x52, 0x4B] := rfl
  have e4 : imgSvn factoryImage = 0 := rfl
  have e12 : bodyLen factoryImage = 0 := rfl
  have ek : imgPart factoryImage 16 32 = vendorEdKey := by
    simp [imgPart, factoryImage, length_vendorEdKey]
  have em : imgPart factoryImage 48 1952 = vendorMlKey := by
    simp [imgPart, factoryImage, length_vendorEdKey, length_vendorMlKey]
  have ez : imgPart factoryImage 2000 48 = List.replicate 48 0 := by
    simp [imgPart, factoryImage, List.drop_append, List.take_append, length_vendorEdKey, length_vendorMlKey]
  have es : imgPart factoryImage (2048 + 0) 64 = edSig vendorEdKey (Config.sha384 (factoryImage.take (2048 + 0))) := by
    rw [Nat.add_zero, imgPart, drop_factoryImage]
    exact List.take_left' (length_edSig _ _)
  have el : imgPart factoryImage (2112 + 0) 3309 = mlSig vendorMlKey (Config.sha384 (factoryImage.take (2048 + 0))) := by
    have h : factoryImage.drop 2112 = (factoryImage.drop 2048).drop 64 := by rw [List.drop_drop]
    rw [Nat.add_zero, Nat.add_zero, imgPart, h, drop_factoryImage, List.drop_left' (length_edSig _ _)]
    exact List.take_of_length_le (Nat.le_of_eq (length_mlSig _ _))
  have hn : factoryImage.length = 5421 := by
    simp [factoryImage, length_vendorEdKey, length_vendorMlKey, length_edSig, length_mlSig]
  unfold imageCheck imgM
  simp only [e0, e4, e12, ek, em, ez, es, el, hn, edOk, mlOk]
  simp [Otp.zero]

/-- The device as shipped runs bank A. -/
theorem pickBank_reset : State.reset.pickBank = some false := by
  have h : State.reset.bankRuns ⟨factoryImage, true⟩ = true := by
    unfold State.bankRuns FwBank.ok
    rw [show State.reset.otp = Otp.zero from rfl, imageCheck_factoryImage]
    rfl
  unfold State.pickBank
  exact if_pos h

end Sys2Proof.Machine
end

