-- ==== Sys2Proof/Laws/Units.lean ====
section
/-!
SUPPORT. What the operations of units do: the queues of a core, the entry that a unit works on, an entry's end, and an
exception taken.
-/

namespace Sys2Proof.Machine

/-! ### Queues -/

@[simp] theorem Core.setQ_q (c : Core) (u : UnitId) (l : List UEntry) : (c.setQ u l).q u = l := by cases u <;> rfl

theorem Core.setQ_q_ne (c : Core) {u v : UnitId} (h : v ≠ u) (l : List UEntry) : (c.setQ u l).q v = c.q v := by
  cases u <;> cases v <;> first | rfl | exact absurd rfl h

@[simp] theorem Core.setQ_setQ (c : Core) (u : UnitId) (l m : List UEntry) : (c.setQ u l).setQ u m = c.setQ u m := by
  cases u <;> rfl

@[simp] theorem Core.setQ_self (c : Core) (u : UnitId) : c.setQ u (c.q u) = c := by cases u <;> rfl

theorem findEntry_head {p : UEntry → Bool} {e : UEntry} {l : List UEntry} (h : p e = true) :
    findEntry p (e :: l) = some (0, e) := if_pos h

/-- An entry that a search finds stands at its place and passes the test; those before it do not. -/
theorem findEntry_spec {p : UEntry → Bool} {l : List UEntry} {i : Nat} {e : UEntry} (h : findEntry p l = some (i, e)) :
    l[i]? = some e ∧ p e = true ∧ ∀ j x, j < i → l[j]? = some x → p x = false := by
  induction l generalizing i with
  | nil => cases h
  | cons a l ih =>
    unfold findEntry at h
    split at h
    · cases h
      exact ⟨rfl, ‹_›, fun _ _ hj => absurd hj (Nat.not_lt_zero _)⟩
    · obtain ⟨⟨k, x⟩, hx, hk⟩ := Option.map_eq_some_iff.mp h
      cases hk
      obtain ⟨h1, h2, h3⟩ := ih hx
      refine ⟨h1, h2, fun j y hj hy => ?_⟩
      cases j with
      | zero => cases hy; exact Bool.eq_false_iff.mpr ‹_›
      | succ j => exact h3 j y (Nat.lt_of_succ_lt_succ hj) hy

/-! ### The work of a unit -/

/-- The oldest entry of a queue, started and not ended, is the one that its unit works on. -/
theorem State.work_front {s : State} {lc : Nat} {u : UnitId} {e : UEntry} (h : AtFront s lc u e)
    {group mine : UOp → Bool} (g : group e.op = true) (m : mine e.op = true) (f : State → Nat → UEntry → State) :
    s.work lc u group mine f = f s 0 e := by
  obtain ⟨-, hc, rest, hq, hs, -, hf⟩ := h
  unfold State.work
  rw [hc, hq, findEntry_head (by simp [hs, hf, g])]
  exact if_pos m

/-- A unit with nothing started that has not ended does nothing. -/
theorem State.work_none {s : State} {lc : Nat} {u : UnitId} {group mine : UOp → Bool} (f : State → Nat → UEntry → State)
    (h : findEntry (fun e => e.started && e.fin.isNone && group e.op) ((s.core lc).q u) = none) :
    s.work lc u group mine f = s := by
  unfold State.work
  rw [h]
  exact ite_self s

/-- The entry with a status and a summary. -/
def UEntry.ended (e : UEntry) (st : BitVec 8) (v : SumV) : UEntry :=
  { e with fin := some ⟨st, v⟩, begun := true, poi := e.poi || st == stPoisoned }

/-- The oldest entry of a queue ends: its core's queue, and nothing else, changes. -/
theorem State.finish_front {s : State} {lc : Nat} {u : UnitId} {e : UEntry} {rest : List UEntry}
    (h : (s.core lc).q u = e :: rest) (st : BitVec 8) (v : SumV) :
    s.finish lc u 0 st v = s.setCore lc ((s.core lc).setQ u (e.ended st v :: rest)) := by
  unfold State.finish State.setEntry
  rw [h]
  rfl

theorem State.finish_ends {s : State} {lc : Nat} {u : UnitId} {e : UEntry} {rest : List UEntry}
    (h : (s.core lc).q u = e :: rest) (st : BitVec 8) (v : SumV) : EndsWith s (s.finish lc u 0 st v) lc u st v :=
  ⟨e, rest, e.ended st v, h, by rw [State.finish_front h]; simp, rfl, rfl, rfl, rfl⟩

/-- An entry's end changes cores only. -/
theorem State.finish_frame (s : State) (lc : Nat) (u : UnitId) (i : Nat) (st : BitVec 8) (v : SumV) :
    s.finish lc u i st v = { s with cores := (s.finish lc u i st v).cores } := by
  unfold State.finish
  split <;> rfl

theorem State.finish_core_ne (s : State) {lc k : Nat} (h : k ≠ lc) (u : UnitId) (i : Nat) (st : BitVec 8) (v : SumV) :
    (s.finish lc u i st v).core k = s.core k := by
  unfold State.finish
  split
  · exact mapGet_set_ne _ _ _ h
  · rfl

/-! ### Exceptions -/

/-- A core in a launch takes an exception. -/
theorem Core.takeExc_spec (c : Core) {cause : Word} {addr : Word} {insn : BitVec 32}
    (h : c.st = .running ∨ c.st = .sleeping ∨ c.st = .draining) :
    TakesExc c (c.takeExc cause addr insn) (fld cause 0 8) (fld cause 8 8) c.pc addr insn := by
  have key : c.takeExc cause addr insn =
      { (if fld c.excCause 0 8 = 0 then
          { c with excCause := cause, excPc := c.pc, excAddr := addr, excInsn := insn } else c) with
        st := .draining, stall := .none, waitf := none, exit := none
        trwQ := c.trwQ.filter (·.started), brsQ := c.brsQ.filter (·.started), stcQ := c.stcQ.filter (·.started)
        movQ := c.movQ.filter (·.started), scrQ := c.scrQ.filter (·.started) } := by
    unfold Core.takeExc
    obtain h | h | h := h <;> rw [h] <;> (dsimp only; split <;> rfl)
  rw [key]
  constructor
  · rfl
  · intro u; cases u <;> rfl
  · intro z; simp [z]
  · intro z; simp [z]
  · split <;> exact ⟨rfl, rfl, rfl, rfl, rfl, rfl, rfl⟩

/-- A core that is in no launch takes none. -/
theorem Core.takeExc_none (c : Core) {cause : Word} {addr : Word} {insn : BitVec 32}
    (h : c.st = .idle ∨ c.st = .done ∨ c.st = .faulted) : c.takeExc cause addr insn = c := by
  unfold Core.takeExc
  obtain h | h | h := h <;> rw [h]

/-- An exception changes its core, the core's power gate and the counter of free values only. -/
theorem State.takeAt_frame (s : State) (lc : Nat) (cause : Word) (addr : Word) :
    s.takeAt lc cause addr = { s with
      cores := (s.takeAt lc cause addr).cores, free := (s.takeAt lc cause addr).free
      power := { s.power with pgated := setDel s.power.pgated lc } } := by
  unfold State.takeAt
  dsimp only
  split <;> rfl

theorem State.takeAt_core_ne (s : State) {lc k : Nat} (h : k ≠ lc) (cause : Word) (addr : Word) :
    (s.takeAt lc cause addr).core k = s.core k := by
  unfold State.takeAt
  dsimp only
  split <;> exact mapGet_set_ne _ _ _ h

end Sys2Proof.Machine
end

