-- ==== Sys2Proof/Tests/Slice0.lean ====
section
/-!
SUPPORT. Tests: words and checks worked out from the spec, and for every statement a state and operands that meet its
hypotheses.
-/

open Sys2Proof Sys2Proof.Machine

namespace Sys2Proof.Tests

set_option Elab.async false

/-! ### Small states -/

/-- Two cores in force, LC0 at site 0 and LC1 at site 1, with given registers and cores beside. -/
def dev (cs : FMap Core) (rs : List (Reg × Word) := []) : State :=
  (([(Reg.mcMap, 2), (Reg.mcLc 0, 1), (Reg.mcLc 1, 0x101)] : List (Reg × Word)) ++ rs).foldl
    (fun s e => s.setReg e.1 e.2) { State.reset with cores := cs }

/-- A running core whose instruction at the PC 0x1000 is i, with its first scalar registers. -/
def coreAt (i : Flik) (xs : List Word := []) : Core :=
  { Core.zero with
    st := .running, pc := 0x1000, ic := [⟨0x10, i.encode.setWidth 2048, 0⟩]
    x := Vector.ofFn fun n => xs.getD n 0 }

/-- LC0 is about to issue i. -/
def at0 (i : Flik) (xs : List Word := []) : State := dev [(0, coreAt i xs)]

/-- LC0 changed. -/
def with0 (s : State) (f : Core → Core) : State := s.setCore 0 (f (s.core 0))

/-- A unit instruction in its queue. -/
def entry (u : UOp) (ds : List Desc := []) (started : Bool := true) (fin : Option Sys2Proof.Machine.Fin := none) : UEntry :=
  ⟨u, (Flik.unit u).encode, 0x1000, ds, 0, 0, 0, 0, 0, 0, false, false, false, started, false, 0, 0, false, none, [], [], false,
    [], fin⟩

/-- Every field 1 of a UnitF. -/
def fullF : UnitF := ⟨63, 63, 15, true, 7⟩

/-! ### Every statement's hypotheses are met -/

theorem wit_StepRunsFrontCommand : (at0 .fence).pending = [] ∧ ({ at0 .fence with pending := [.fence 0] } : State).pending ≠ [] := by
  decide +kernel

theorem wit_IntegerResults : (at0 (.op .mulh 31 1 2) [0, 5, 7]).canIssue 0 (.op .mulh 31 1 2) = true
    ∧ (at0 (.op .add 0 1 2) [0, 5, 7]).canIssue 0 (.op .add 0 1 2) = true := by decide +kernel

theorem wit_ImmediateResults : (at0 (.opi .slti 31 1 0x7FFF)).canIssue 0 (.opi .slti 31 1 0x7FFF) = true
    ∧ (at0 (.shi .srai 31 1 63)).canIssue 0 (.shi .srai 31 1 63) = true
    ∧ (at0 (.lui 31 0xFFFFF)).canIssue 0 (.lui 31 0xFFFFF) = true := by decide +kernel

theorem wit_FloatResults : (at0 (.opf .fle 31 1 2)).canIssue 0 (.opf .fle 31 1 2) = true
    ∧ (at0 (.fcvtSL 31 1)).canIssue 0 (.fcvtSL 31 1) = true
    ∧ (at0 (.fcvtLS 31 1)).canIssue 0 (.fcvtLS 31 1) = true := by decide +kernel

theorem wit_BranchesAndJumps : (at0 (.br .geu 1 2 0xFFF)).canIssue 0 (.br .geu 1 2 0xFFF) = true
    ∧ (at0 (.jal 31 0x80000)).canIssue 0 (.jal 31 0x80000) = true
    ∧ (let s := at0 (.jalr 31 1 0x7FFC) [0, 0x1004];
      s.canIssue 0 (.jalr 31 1 0x7FFC) = true
        ∧ ((s.core 0).rx 1 + BitVec.ofInt 64 (0x7FFC#15).toInt).toNat % 4 = 0) := by decide +kernel

theorem wit_TicketInstructions :
    (let s := with0 (at0 (.tks 63 1)) (fun c => c.setTick 63 65534);
      s.canIssue 0 (.tks 63 1) = true ∧ (s.core 0).tick 63 + 1 = 65535)
    ∧ (let s := with0 (at0 (.tks 63 1)) (fun c => c.setTick 63 65535);
      s.canIssue 0 (.tks 63 1) = true ∧ 65535 < (s.core 0).tick 63 + 1)
    ∧ (let s := with0 (at0 (.tkw 63 2047)) (fun c => c.setTick 63 2047);
      s.canIssue 0 (.tkw 63 2047) = true ∧ 2047 + (s.core 0).asking 63 ≤ (s.core 0).tick 63)
    ∧ (let s := with0 (at0 (.tkw 63 2047)) (fun c => c.setTick 63 2046);
      s.canIssue 0 (.tkw 63 2047) = true ∧ (s.core 0).tick 63 < 2047 + (s.core 0).asking 63)
    ∧ (let s := with0 (at0 (.tkw 63 2047)) (fun c => { c.setTick 63 2047 with movQ := [entry (.movBlk fullF) [0] false] });
      s.canIssue 0 (.tkw 63 2047) = true ∧ (s.core 0).tick 63 < 2047 + (s.core 0).asking 63)
    ∧ (at0 (.tkrd 31 63)).canIssue 0 (.tkrd 31 63) = true ∧ (at0 (.tkset 63 1)).canIssue 0 (.tkset 63 1) = true
    ∧ (let s := with0 (at0 (.tkw 63 1)) (fun c => { c.setTick 63 1 with stall := .tkw 63 1 });
      (s.core 0).stall = .tkw 63 1 ∧ (s.core 0).st = .running ∧ s.clocked 0 = true
        ∧ 1 + (s.core 0).asking 63 ≤ (s.core 0).tick 63) := by decide +kernel

/-- A posted store of LC0 to LC1's hawk. -/
def store1 : PStore := ⟨0, 0x10100400000, [1, 2, 3, 4], 0x1000, 0, none, false⟩

theorem wit_DescriptorAndSystemInstructions : (at0 (.dset 15 7 1)).canIssue 0 (.dset 15 7 1) = true
    ∧ (at0 (.dget 31 15 7)).canIssue 0 (.dget 31 15 7) = true ∧ (at0 (.dcpy 15 15)).canIssue 0 (.dcpy 15 15) = true
    ∧ (at0 (.dzero 15)).canIssue 0 (.dzero 15) = true ∧ (at0 (.sumrd 31 7 7)).canIssue 0 (.sumrd 31 7 7) = true
    ∧ (at0 (.seed 31)).canIssue 0 (.seed 31) = true ∧ (at0 .icinv).canIssue 0 .icinv = true
    ∧ (at0 .fence).canIssue 0 .fence = true ∧ ((at0 .fence).core 0).stores = []
    ∧ (let s := with0 (at0 .fence) (fun c => { c with stores := [store1] });
      s.canIssue 0 .fence = true ∧ (s.core 0).stores ≠ []) := by decide +kernel

/-- An address that LC0 may access, or the exception it raises. -/
theorem addr_of {s : State} {a : Word} {size : Nat} {e : Option (Nat × Nat)} (h : s.addrCheck 0 a size = e) :
    AddrRule s 0 a size e := (addrRule_iff s 0 a size e).mpr h

theorem wit_LoadsIssue :
    (let s := at0 (.load .ld 31 1 0xFF8) [0, 0x10100200000];
      s.canIssue 0 (.load .ld 31 1 0xFF8) = true ∧ (s.core 0).loads.length < 4
        ∧ AddrRule s 0 ((s.core 0).rx 1 + BitVec.ofInt 64 (0xFF8#12).toInt) 8 none)
    ∧ (let s := at0 (.dld 15 1 0xFFFF) [0, 0x10100200000];
      s.canIssue 0 (.dld 15 1 0xFFFF) = true ∧ (s.core 0).loads.length < 4
        ∧ AddrRule s 0 ((s.core 0).rx 1 + BitVec.ofInt 64 ((0xFFFF#16).toInt * 64)) 64 none) :=
  ⟨⟨by decide +kernel, by decide +kernel, addr_of (by decide +kernel)⟩,
    ⟨by decide +kernel, by decide +kernel, addr_of (by decide +kernel)⟩⟩

/-- Rows cross now, as a test. -/
def free (s : State) (site : Nat) (d : VcDir) : Bool :=
  !s.siteRetired site && !s.siteWindow site && !(s.half (halfOf site)).stopped && !(s.vc site d).widthDue

/-- An access is made now, as a test. -/
def goes (s : State) (lc : Nat) (l : Loc) (d : VcDir) : Bool := s.reaches lc l && (!l.beyond || free s (s.siteOf lc) d)

theorem free_of {s : State} {site : Nat} {d : VcDir} (h : free s site d = true) : ChannelFree s site d := by
  simpa [free, ChannelFree, and_assoc] using h

theorem crosses_of {s : State} {lc : Nat} {l : Loc} {d : VcDir} (h : goes s lc l d = true) : Crosses s lc l d := by
  simp only [goes, Bool.and_eq_true, Bool.or_eq_true, Bool.not_eq_true'] at h
  exact ⟨h.1, fun b => free_of (h.2.resolve_left (by simp [b]))⟩

/-- LC0 with one outstanding load of a local address; the slice of site 0 stands in the list. -/
def loading (a : Nat) (dst : LoadDst := .d 15) (stale : Bool := false) : State :=
  { with0 (at0 .fence) (fun c => { c with loads := [⟨dst, stale, 0x1000, 0, a, 0, none, false, none⟩] }) with slices := [0] }

/-- The load of that state may return. -/
def loadReady (s : State) (n : Nat) : Bool :=
  match (s.core 0).loads with
  | [l] => l.data.isNone && !s.loadBlocked 0 0 l && (s.core 0).stall == .none && goes s 0 (s.resolve (some 0) l.addr) .up
      && l.addr % 256 + l.dst.size ≤ 256 && l.dst.size == n && (s.core 0).st == .running && s.slices.all (· < 168)
  | _ => false

/-- The render memory's first line in the cache, its first granule poisoned. -/
def cachedLine (s : State) : State := { s with rcMib := 1, rc := [(0, [⟨0, List.replicate 256 7, true, 1⟩])] }

theorem wit_LoadDataReturns :
    (let s := loading 0x101001FFFF8 (.x 31 .ld);
      loadReady s 8 = true ∧ s.resolve (some 0) 0x101001FFFF8 = .hawk 0 (hawkKey 0 0x1FFFF8)
        ∧ s.found (.hawk 0 (hawkKey 0 0x1FFFF8)) 8 = some (memGets s.mem (hawkKey 0 0x1FFFF8) 8, false)
        ∧ s.plainCell (.hawk 0 (hawkKey 0 0x1FFFF8)) = some (hawkKey 0 0x1FFFF8))
    ∧ (let s := loading 0x10100400000 (.d 15) true;
      loadReady s 64 = true ∧ s.resolve (some 0) 0x10100400000 = .hawk 1 (hawkKey 1 0) ∧ s.runPoisoned (hawkKey 1 0) 64 = false)
    ∧ (let s := (loading 0x10100000000).poisonGran (hawkKey 0 0);
      loadReady s 64 = true ∧ (s.found (.hawk 0 (hawkKey 0 0)) 64).map Prod.snd = some true)
    ∧ (let s := loading 0x10000000000;
      loadReady s 64 = true ∧ s.resolve (some 0) 0x10000000000 = .hod (hodKey 0 0 0) ∧ s.runPoisoned (hodKey 0 0 0) 64 = false)
    ∧ (let s := loading 0x8000000000 (.x 31 .lb);
      loadReady s 1 = true ∧ s.resolve (some 0) 0x8000000000 = .render 0 none ∧ s.chanReset (.render 0 none) = false
        ∧ s.plainCell (.render 0 none) = some 0)
    ∧ (let s := loading 0;
      loadReady s 64 = true ∧ s.resolve (some 0) 0 = .render 0 (some 0) ∧ s.chanReset (.render 0 (some 0)) = false
        ∧ s.plainCell (.render 0 (some 0)) = some 0)
    ∧ (let s := cachedLine (loading 0x40);
      loadReady s 64 = true ∧ s.resolve (some 0) 0x40 = .render 0x40 (some 0x40) ∧ s.chanReset (.render 0x40 (some 0x40)) = false
        ∧ s.found (.render 0x40 (some 0x40)) 64 = some (List.replicate 64 7, false)
        ∧ s.plainCell (.render 0x40 (some 0x40)) = none)
    ∧ (let s := cachedLine (loading 0x30 (.x 31 .ld));
      loadReady s 8 = true ∧ (s.found (.render 0x30 (some 0x30)) 8).map Prod.snd = some true)
    ∧ (let s := loading (Reg.pmuCycle 0).addr (.x 31 .lw);
      loadReady s 4 = true ∧ s.resolve (some 0) (Reg.pmuCycle 0).addr = .reg (Reg.pmuCycle 0).addr
        ∧ (s.resolve (some 0) (Reg.pmuCycle 0).addr).coreOf = some 0 ∧ (Reg.pmuCycle 0).addr % 8 + 4 ≤ 8)
    ∧ (let s := loading Reg.mcMap.addr (.x 31 .ld);
      loadReady s 8 = true ∧ s.resolve (some 0) Reg.mcMap.addr = .reg Reg.mcMap.addr
        ∧ (s.resolve (some 0) Reg.mcMap.addr).coreOf = none ∧ Reg.mcMap.addr % 8 + 8 ≤ 8) := by decide +kernel

/-- The errors of the read of a word that a store merges into. -/
theorem corrected1 : Corrected [⟨hawkKey 0 0x1FFFF8, .soft⟩] := by
  intro e he
  rw [List.mem_singleton.mp he]
  decide

theorem wit_StoresToOwnHawk :
    (let s := at0 (.store .stRel 2 1 0xFF8) [0, 0x10100200000, 5];
      let a := (s.core 0).rx 1 + BitVec.ofInt 64 (0xFF8#12).toInt;
      Memory.wf s.mem = true ∧ s.canIssue 0 (.store .stRel 2 1 0xFF8) = true ∧ a.toNat % 8 = 0
        ∧ s.resolve (some 0) a.toNat = .hawk 0 (hawkKey 0 0x1FFFF8)
        ∧ s.storeBlocked 0 (s.core 0).storeSeq a.toNat 8 = false ∧ (s.core 0).stores = []
        ∧ s.orphaned 0 = false ∧ setHas (s.core 0).lost 5 = false)
    ∧ (let s := at0 (.store .sb 2 1 0xFF8) [0, 0x10100200001, 5];
      let a := (s.core 0).rx 1 + BitVec.ofInt 64 (0xFF8#12).toInt;
      Memory.wf s.mem = true ∧ s.canIssue 0 (.store .sb 2 1 0xFF8) = true ∧ a.toNat % 1 = 0
        ∧ s.resolve (some 0) a.toNat = .hawk 0 (hawkKey 0 0x1FFFF9)
        ∧ s.storeBlocked 0 (s.core 0).storeSeq a.toNat 1 = false)
    ∧ (let s := at0 (.dst 15 1 0xFFFF) [0, 0x10100200000];
      let a := (s.core 0).rx 1 + BitVec.ofInt 64 ((0xFFFF#16).toInt * 64);
      Memory.wf s.mem = true ∧ s.canIssue 0 (.dst 15 1 0xFFFF) = true ∧ a.toNat % 64 = 0
        ∧ s.resolve (some 0) a.toNat = .hawk 0 (hawkKey 0 0x1FFFC0)
        ∧ s.storeBlocked 0 (s.core 0).storeSeq a.toNat 64 = false) := by decide +kernel

/-- LC0 with one posted store to a local address. -/
def storing (a : Nat) (bs : List Byte) : State :=
  { with0 (at0 .fence) (fun c => { c with stores := [⟨0, a, bs, 0x1000, 0, none, false⟩] }) with slices := [0] }

/-- The store of that state may be performed. -/
def storeReady (s : State) : Bool :=
  match (s.core 0).stores with
  | [p] => Memory.wf s.mem && !s.storeBlocked 0 p.id p.addr p.bytes.length && (s.core 0).stall == .none
      && goes s 0 (s.resolve (some 0) p.addr) .down && p.addr % 256 + p.bytes.length ≤ 256
  | _ => false

theorem wit_PostedStores :
    (let s := at0 (.store .stRel 2 1 0) [0, 0x10100400000, 5];
      s.canIssue 0 (.store .stRel 2 1 0) = true
        ∧ AddrRule s 0 ((s.core 0).rx 1 + BitVec.ofInt 64 (0#12).toInt) 8 none
        ∧ s.atOnce 0 0x10100400000 = false ∧ (s.core 0).stores.length < 16 ∧ (s.core 0).stores = []
        ∧ s.orphaned 0 = false ∧ setHas (s.core 0).lost 5 = false)
    ∧ (let s := with0 (at0 (.dst 15 1 0) [0, 0x10100400000, 5]) (fun c => { c with stores := List.replicate 15 store1 });
      s.canIssue 0 (.dst 15 1 0) = true
        ∧ AddrRule s 0 ((s.core 0).rx 1 + BitVec.ofInt 64 ((0#16).toInt * 64)) 64 none
        ∧ s.atOnce 0 0x10100400000 = false ∧ (s.core 0).stores.length < 16)
    ∧ ((let s := storing 0x10100400000 [1, 2, 3, 4];
        storeReady s = true ∧ s.resolve (some 0) 0x10100400000 = .hawk 1 (hawkKey 1 0))
      ∧ (let s := storing 0x10000000000 (List.replicate 64 9);
        storeReady s = true ∧ s.resolve (some 0) 0x10000000000 = .hod (hodKey 0 0 0))
      ∧ (let s := storing 0x80000000FF [1];
        storeReady s = true ∧ s.resolve (some 0) 0x80000000FF = .render 0xFF none ∧ s.chanReset (.render 0xFF none) = false)
      ∧ (let s := cachedLine (storing 0x40 (List.replicate 64 9));
        storeReady s = true ∧ s.resolve (some 0) 0x40 = .render 0x40 (some 0x40) ∧ s.rcMib ≠ 0
          ∧ s.chanReset (.render 0x40 (some 0x40)) = false
          ∧ (s.rc.all fun x => x.2.all fun y => y.data.length == 256) = true)
      ∧ (let s := (storing 0x8000000000 [1]).setReg (.rndCh 0) 1;
        storeReady s = true ∧ s.chanReset (s.resolve (some 0) 0x8000000000) = true)
      ∧ (let s := (storing Reg.pciWake.addr [1, 2, 3, 4, 5, 6, 7, 8]).setReg .mcStart 0x100000000;
        storeReady s = true ∧ s.resolve (some 0) Reg.pciWake.addr = .reg Reg.pciWake.addr
          ∧ (Loc.reg Reg.pciWake.addr).coreOf = none ∧ s.mayWrite (.core 0) .pciWake = true)
      ∧ (let s := ((storing (Reg.lathEvsel 0 0).addr [1, 2, 3, 4, 5, 6, 7, 8]).setReg .mcStart 0x100000000).setReg .lperm 1;
        storeReady s = true ∧ s.resolve (some 0) (Reg.lathEvsel 0 0).addr = .reg (Reg.lathEvsel 0 0).addr
          ∧ (Loc.reg (Reg.lathEvsel 0 0).addr).coreOf = none ∧ s.mayWrite (.core 0) (.lathEvsel 0 0) = true)) :=
  ⟨⟨by decide +kernel, addr_of (by decide +kernel), by decide +kernel⟩,
    ⟨by decide +kernel, addr_of (by decide +kernel), by decide +kernel⟩, by decide +kernel⟩

theorem wit_AddressExceptionsInOrder :
    (let s := at0 (.load .ld 31 1 0) [0, 0x10100000004];
      s.canIssue 0 (.load .ld 31 1 0) = true ∧ AddrRule s 0 ((s.core 0).rx 1 + BitVec.ofInt 64 (0#12).toInt) 8 (some (3, 0)))
    ∧ (let s := at0 (.store .sb 2 1 0) [0, 0x100000000000];
      s.canIssue 0 (.store .sb 2 1 0) = true
        ∧ AddrRule s 0 ((s.core 0).rx 1 + BitVec.ofInt 64 (0#12).toInt) 1 (some (2, 3)))
    ∧ (let s := at0 (.dld 15 1 0) [0, 0x10100200000];
      s.canIssue 0 (.dld 15 1 0) = true
        ∧ AddrRule s 0 ((s.core 0).rx 1 + BitVec.ofInt 64 ((0#16).toInt * 64)) 64 (some (2, 1)))
    ∧ (let s := dev [(0, coreAt (.dst 15 1 0) [0, 0x10100400000])] [(.mcLc 1, 0x10101)];
      s.canIssue 0 (.dst 15 1 0) = true
        ∧ AddrRule s 0 ((s.core 0).rx 1 + BitVec.ofInt 64 ((0#16).toInt * 64)) 64 (some (2, 2))) :=
  ⟨⟨by decide +kernel, addr_of (by decide +kernel)⟩, ⟨by decide +kernel, addr_of (by decide +kernel)⟩,
    ⟨by decide +kernel, addr_of (by decide +kernel)⟩, ⟨by decide +kernel, addr_of (by decide +kernel)⟩⟩

/-- LC0 at a word that is no instruction. -/
def illegal0 : State := with0 (at0 .fence) (fun c => { c with ic := [⟨0x10, 0xFFFFFFFF, 0⟩] })

theorem wit_ExceptionEntries :
    (at0 (.brk 0x7FFF)).canIssue 0 (.brk 0x7FFF) = true
    ∧ (let s := at0 (.jalr 31 1 1) [0, 0x1001];
      s.canIssue 0 (.jalr 31 1 1) = true ∧ ((s.core 0).rx 1 + BitVec.ofInt 64 (1#15).toInt).toNat % 4 ≠ 0)
    ∧ (illegal0.valid 0 = true ∧ illegal0.failed 0 = false ∧ (illegal0.core 0).st = .running
      ∧ (illegal0.core 0).stall = .none ∧ (illegal0.core 0).icWord (illegal0.core 0).pc = some 0xFFFFFFFF
      ∧ decode 0xFFFFFFFF = none ∧ illegal0.clocked 0 = true)
    ∧ (let s := at0 .fence;
      s.valid 0 = true ∧ (s.core 0).st = .running ∧ (s.core 0).icWord (s.core 0).pc = some (Flik.fence).encode
        ∧ s.failed 0 = false ∧ (s.site (s.siteOf 0)).parity = 0)
    ∧ (let s := with0 (at0 (.tkw 63 1)) (fun c => { c with stall := .tkw 63 1 });
      (s.core 0).st = .running ∧ (s.core 0).stall = .tkw 63 1 ∧ (s.core 0).tick 63 < 1 + (s.core 0).asking 63
        ∧ (allUnits.all fun u => ((s.core 0).q u).isEmpty) = true
        ∧ (s.core 0).icWord (s.core 0).pc = some (Flik.tkw 63 1).encode) := by decide +kernel

/-- A sleeping WAITF of LC0. -/
def asleep (met : Bool) : State := with0 (at0 (.waitf 31 1 2 0 true 1)) (fun c =>
  { c with st := .sleeping, waitf := some ⟨31, 0x1FFFF8, 5, 0, true, 1, met⟩ })

theorem wit_WaitfSleepsAndWakes :
    (let s := at0 (.waitf 31 1 2 6 true 31) [0, 0x101001FFFF8, 5];
      s.canIssue 0 (.waitf 31 1 2 6 true 31) = true ∧ ((s.core 0).rx 1).toNat = 0x10100000000 + 0 * 0x400000 + 0x1FFFF8)
    ∧ ((asleep true).core 0).waitf.isSome = true ∧ ((asleep true).core 0).st = .sleeping
    ∧ (asleep true).windowOpen 0 = false ∧ (asleep true).clocked 0 = true ∧ (asleep false).clocked 0 = true
    ∧ ((asleep false).core 0).waitf = some ⟨31, 0x1FFFF8, 5, 0, true, 1, false⟩
    ∧ ((asleep false).core 0).st = .sleeping := by decide +kernel

/-- LC0 drains. -/
def draining (x : Option Word) : State := with0 (at0 .fence) (fun c => { c with st := .draining, exit := x })

theorem wit_HaltAndDrain : (at0 (.halt 31)).canIssue 0 (.halt 31) = true
    ∧ ((draining (some 7)).core 0).st = .draining ∧ ((draining (some 7)).core 0).drained = true
    ∧ ((draining (some 7)).core 0).loads = [] ∧ ((draining (some 7)).core 0).stores = []
    ∧ ((draining (some 7)).core 0).exit = some 7
    ∧ ((draining none).core 0).st = .draining ∧ ((draining none).core 0).drained = true
    ∧ ((draining none).core 0).loads = [] ∧ ((draining none).core 0).stores = []
    ∧ ((draining none).core 0).exit = none := by decide +kernel

/-- LC0 at an address with no cached line. -/
def missing (pc : LAddr) : State := with0 (at0 .fence) (fun c => { c with pc := pc, ic := [] })

theorem wit_InstructionCacheFills :
    (let s := missing 0x8000001004;
      s.valid 0 = true ∧ s.failed 0 = false ∧ (s.core 0).st = .running ∧ (s.core 0).stall = .none ∧ (s.core 0).ic = []
        ∧ free s 0 .up = true ∧ s.clocked 0 = true ∧ (s.core 0).pc.toNat % 4 = 0
        ∧ (s.fetched 0 ((s.core 0).pc.toNat / 256)).map (fun f => f.2 0) = some false)
    ∧ (let s := (missing 0x80000010FC).poisonGran 0x10C0;
      (s.core 0).pc.toNat % 256 / 64 = 3 ∧ (s.fetched 0 ((s.core 0).pc.toNat / 256)).map (fun f => f.2 3) = some true)
    ∧ (let s := (missing 0x8000001004).setReg (.rndCh 0) 1;
      (s.fetched 0 ((s.core 0).pc.toNat / 256)).map (fun f => f.2 0) = some true ∧ free s 0 .up = true)
    ∧ (let s := missing 0x10100000000;
      (s.fetched 0 ((s.core 0).pc.toNat / 256)).isNone = true ∧ fld (s.core 0).excCause 0 8 = 0
        ∧ free s 0 .up = true ∧ s.clocked 0 = true ∧ s.valid 0 = true ∧ (s.core 0).st = .running)
    ∧ (let s := with0 (at0 .fence) (fun c => { c with ic := [⟨0x80000010, 0, 0⟩] });
      ((s.core 0).ic.any fun l => l.tag == 0x80000010) = true
        ∧ (s.fetched 0 0x80000010).isSome = true ∧ free s 0 .up = true
        ∧ (s.setSite 0 { Site.zero with win := .forced }).windowOpen 0 = true
        ∧ (s.fetched 0 0x101000000).isNone = true ∧ ({ s with west := { s.west with stopped := true } } : State).clocked 0 = false) := by
  decide +kernel

theorem wit_UnitInstructionsDispatch :
    Dispatches (.scrFlagMaxu 0 (.issue fullF)) 0 (.scrFlag fullF)
    ∧ (let s := at0 (.unit (.scrFlag fullF));
      s.canIssue 0 (.unit (.scrFlag fullF)) = true ∧ ((s.core 0).q (UOp.scrFlag fullF).unit).length < 16)
    ∧ (let s := with0 (at0 (.unit (.scrFlag fullF))) (fun c =>
        { c with scrQ := List.replicate 16 (entry (.scrFlag fullF) [0]) });
      s.canIssue 0 (.unit (.scrFlag fullF)) = true ∧ 16 ≤ ((s.core 0).q (UOp.scrFlag fullF).unit).length) :=
  ⟨.row (.scrFlagMaxu, .scrFlag) (by simp [unitRows]) 0 fullF, by decide +kernel⟩

/-- The oldest instruction of a unit of LC0 may start: its wait ticket holds one count beyond the units before it. -/
def starts (s : State) (u : UnitId) : Bool :=
  let c := s.core 0
  match c.headOf u with
  | some (_, e) => e.op.tickets.1 != 0 && !e.started && c.unitGate u e && s.clocked 0 && !s.spillWaits 0
      && c.tick e.op.tickets.1 == 1 + ((unitsBefore u).filter fun v => c.asks v (c.unitGate v) e.op.tickets.1).length
  | none => false

/-- LC0's units have instructions, none started, that wait on ticket 63, which has n counts. -/
def waitingUnits (n : Nat) : State := with0 (at0 .fence) fun c =>
  { c.setTick 63 n with
    trwQ := [entry (.trwMma ⟨63, 63, 7, 15, false, true⟩) [0, 0, 0] false], brsQ := [entry (.brsLdp ⟨63, 63, 15, 7⟩) [0] false]
    movQ := [entry (.movBlk fullF) [0] false], scrQ := [entry (.scrFlag fullF) [0] false] }

/-- The same of the Stencil, with an instruction that takes the Trowel and the Brush where own is true. -/
def waitingStencil (own : Bool) : State := with0 (at0 .fence) fun c =>
  { c.setTick 63 1 with stcQ := [entry (if own then .stcFwd fullF else .stcPtedit fullF) [0] false] }

theorem wit_UnitInstructionsStartAndComplete :
    (starts (waitingUnits 1) .trowel = true ∧ starts (waitingUnits 2) .brush = true ∧ starts (waitingUnits 3) .mover = true
      ∧ starts (waitingUnits 4) .scrim = true ∧ starts (waitingStencil true) .stencil = true
      ∧ starts (waitingStencil false) .stencil = true)
    ∧ ([waitingUnits 1, waitingStencil true].all fun s => !(s.core 0).stcOwns
      && allUnits.all fun v => ((s.core 0).q v).all fun x => !x.started) = true
    ∧ (let e := entry (.movBlk fullF) [0] false;
      let s := with0 (at0 .fence) (fun c => { c with movQ := [e] });
      (s.core 0).headOf .mover = some (0, e) ∧ e.op.tickets.1 ≠ 0 ∧ (s.core 0).tick e.op.tickets.1 = 0)
    ∧ (let e := entry (.movBlk fullF) [0] true (some ⟨0, {}⟩);
      let s := with0 (at0 .fence) (fun c => { c.setTick 63 65534 with movQ := [e] });
      (s.core 0).held = [] ∧ s.clocked 0 = true ∧ (s.core 0).q .mover = e :: [] ∧ e.started = true ∧ e.fin = some ⟨0, {}⟩ ∧ UOp.owns e.op = false
        ∧ (s.core 0).tick e.op.tickets.2 < 65535 ∧ e.op.slot = some 7) := by decide +kernel

/-- A descriptor of given words, w0 first. -/
def desc (ws : List Word) : Desc := BitVec.ofNat 512 (ws.foldr (fun w n => w.toNat + 2 ^ 64 * n) 0)

/-- A launch descriptor: entry 0x8000000000, argument 7, the rectangle of LC0 and LC1. -/
def launch2 : List Byte := leBytes 8 0x8000000000 ++ leBytes 8 7 ++ leBytes 8 0x100000 ++ List.replicate 232 0

/-- Launch 31 runs on LC0 and LC1, which have not entered it. -/
def launched : State := { dev [(0, Core.zero)] [(.pciSlot 31, 0x200000001)] with
  slots := [(31, { Slot.zero with launch := some launch2 })] }

theorem wit_LaunchEntryState : launched.launchOf 0 = some (31, launch2, [0, 1]) ∧ free launched 0 .up = true
    ∧ launched.halfOff (halfOf (launched.siteOf 0)) = false ∧ launched.failed 0 = false ∧ (launched.core 0).st = .idle
    ∧ ((at0 .fence).core 0).st = .running := by decide +kernel

/-- Eight corrected errors of lane 287 of group 7, the oldest 1,000 microseconds before the newest. -/
def errs8 : State := (at0 .fence).setVc 0 .up { Vc.zero with errs := [(laneKey 7 287, [2000, 1900, 1900, 1900, 1900, 1900, 1900, 1000])] }

/-- The same with both spares of the group in use. -/
def spent : State := (errs8.setRf (.vcGroup 0 .up 7) 9 1 1).setRf (.vcGroup 0 .up 7) 21 1 1

theorem errs8_eight : EightErrors errs8 0 .up 7 287 ∧ EightErrors spent 0 .up 7 287 := by
  constructor <;> exact ⟨by decide +kernel, by decide +kernel⟩

/-- A row of MOV.ROW crosses up, on group 7 when its words 28 to 31 do. -/
def rowUp (n : Nat) : State := with0 (errs8.setVc 0 .up { Vc.zero with
    errs := [(laneKey 7 287, [1900])], attempt := n, replay := [0] }) (fun c =>
  { c with movQ := [{ entry (.movRow false fullF) [desc [0, 1]] with begun := true }] })

theorem rowUp_fails : FailsOn (rowUp 0) 0 .up 7 [31] 0 ∧ FailsOn (rowUp 1) 0 .up 7 [31] 0
    ∧ FailsOn (rowUp 2) 0 .up 7 [31] 0 := by
  refine ⟨⟨?_, ?_, 31, List.mem_singleton.mpr rfl, ?_⟩, ⟨?_, ?_, 31, List.mem_singleton.mpr rfl, ?_⟩,
    ⟨?_, ?_, 31, List.mem_singleton.mpr rfl, ?_⟩⟩ <;> decide +kernel

theorem wit_VerticalChannelFailures :
    (errs8.vcRetired 0 .up = false
      ∧ errs8.groupDead 0 .up 7 = false ∧ (errs8.vc 0 .up).failed.contains (laneKey 7 287) = false
      ∧ errs8.sparesUsed 0 .up 7 + (errs8.vc 0 .up).waiting 7 < 2)
    ∧ (spent.vcRetired 0 .up = false
      ∧ spent.groupDead 0 .up 7 = false ∧ (spent.vc 0 .up).failed = [] ∧ spent.sparesUsed 0 .up 7 = 2
      ∧ 2 ≤ spent.healthy 0 .up)
    ∧ (let s := (errs8.setVc 0 .up { errs8.vc 0 .up with failed := [laneKey 7 287] }).setRf (.vcGroup 0 .up 7) 9 1 1
      s.vcRetired 0 .up = false ∧ (s.vc 0 .up).failed.contains (laneKey 7 287) = true ∧ s.sparesUsed 0 .up 7 < 2)
    ∧ (let s := errs8.setVc 0 .up { errs8.vc 0 .up with failed := [laneKey 7 287] }
      s.sparesUsed 0 .up 7 = 0 ∧ (s.vc 0 .up).failed.contains (laneKey 7 287) = true)
    ∧ ((rowUp 0).vc 0 .up).attempt = 0
    ∧ (((rowUp 1).vc 0 .up).attempt = 1 ∧ ((rowUp 1).vc 0 .up).replay.getLast? = some 0 ∧ (rowUp 1).vcRetired 0 .up = false
      ∧ ((rowUp 1).vc 0 .up).failed = [] ∧ (rowUp 1).sparesUsed 0 .up 7 = 0
      ∧ ((List.range 288).all fun l => decide (((rowUp 1).carrier 0 .up (31 / 4) = 7 ∧ 31 % 4 = l % 4)
          ∧ ∃ m ∈ mapGet ((rowUp 1).vc 0 .up).errs (laneKey 7 l) [], m ≤ 2900 ∧ 2900 ≤ m + 1000) == (l == 287)) = true)
    ∧ (((rowUp 2).vc 0 .up).attempt = 2 ∧ ((rowUp 2).vc 0 .up).replay.getLast? = some 0 ∧ 2 ≤ (rowUp 2).healthy 0 .up)
    ∧ (let due (n : Nat) : State := (List.range n).foldl (fun s g => s.setRf (.vcGroup 0 .up g) 36 1 1)
        (errs8.setVc 0 .up { Vc.zero with widthDue := true });
      ((due 7).vc 0 .up).widthDue = true ∧ (due 7).vcRetired 0 .up = false ∧ (due 0).healthy 0 .up = 8
        ∧ (due 4).healthy 0 .up = 4 ∧ (due 6).healthy 0 .up = 2 ∧ (due 7).healthy 0 .up = 1) := by decide +kernel

/-- A window is due at site 0, whose core sleeps. -/
def windowDue : State := (asleep false).setSite 0 { Site.zero with win := .due (.temp 5) }

theorem wit_RetuneWindowsAndProbes :
    (errs8.groupDead 0 .up 7 = false ∧ errs8.vcRetired 0 .up = false ∧ errs8.probeless 0 .up 7 = false)
    ∧ (spent.needsWindow 0 = true ∧ (spent.site 0).win = .none ∧ spent.rf .vcPolicy 0 16 ≤ 65535
      ∧ spent.rf .vcPolicy 16 8 ≤ 5 ∧ (spent.setSite 0 { Site.zero with corr := true }).needsWindow 0 = true
      ∧ ((spent.setSite 0 { Site.zero with corr := true }).site 0).corr = true)
    ∧ ((windowDue.site 0).win = .due (.temp 5) ∧ windowDue.lcAt 0 = some 0 ∧ (windowDue.core 0).st = .sleeping
      ∧ (windowDue.cores.all fun p => p.2.movQ.all fun e => !e.started) = true)
    ∧ windowDue.rf .vcPolicy 32 8 ≤ 0
    ∧ ((windowDue.setSite 0 { Site.zero with win := .forced }).site 0).win = .forced
    ∧ ((windowDue.setSite 0 { Site.zero with win := .open }).site 0).win = .open := by decide +kernel

theorem wit_FullLathResetState : Memory.wf (at0 .fence).mem = true := by decide +kernel

theorem wit_PortAndControllerResets : (at0 .fence).tx = []
    ∧ (dev [] [(.klkStatus 15, 4)]).portState 15 = 4 ∧ (at0 .fence).rf .rubCtrl 40 8 ≠ 1 ∧ (at0 .fence).queueAt 7 = []
    ∧ (dev [] [(.rndCh 127, 1)]).rf (.rndCh 127) 0 1 = 1 ∧ (dev [] [(.rndCh 127, 1)]).rcWait = [] := by decide +kernel

/-- The Mover of LC0 has started an instruction with a descriptor; the slice of site 0 stands in the list. -/
def moving (u : UOp) (d : Desc) : State :=
  { with0 (at0 .fence) (fun c => { c with movQ := [entry u [d]] }) with slices := [0] }

/-- The clock of a core's half runs in a state with the registers and halves of another. -/
theorem clocked_like {s t : State} {lc : Nat} (h : t.clocked lc = true) (r : s.regs = t.regs) (w : s.west = t.west)
    (e : s.east = t.east) : s.clocked lc = true := by
  rw [← h]
  simp only [State.clocked, State.siteOf, State.rf, State.reg, State.half, r, w, e]

theorem at0_clocked : (at0 .fence).clocked 0 = true := by decide +kernel

theorem clocked0 {s : State} (r : s.regs = (at0 .fence).regs) (w : s.west = (at0 .fence).west)
    (e : s.east = (at0 .fence).east) : s.clocked 0 = true := clocked_like at0_clocked r w e

theorem moving_front (u : UOp) (d : Desc) : AtFront (moving u d) 0 .mover (entry u [d]) :=
  ⟨by decide, clocked0 rfl rfl rfl, [], rfl, rfl, rfl, rfl⟩

/-- A MOV.ROW from row 49,151 to the last hawk row. -/
def lastRow : Desc := desc [0x1FFF + 49151 * 2 ^ 16, 1]

theorem wit_RowMoves :
    AtFront (moving (.movRow true fullF) lastRow) 0 .mover (entry (.movRow true fullF) [lastRow])
    ∧ ((moving (.movRow true fullF) lastRow).siteRetired 0 = false
      ∧ (moving (.movRow true fullF) lastRow).slices.contains 0 = true
      ∧ 49151 < (moving (.movRow true fullF) lastRow).rowsUsed
      ∧ fld (dword lastRow 0) 0 13 = 8191 ∧ fld (dword lastRow 0) 16 16 = 49151 ∧ fld (dword lastRow 1) 0 14 = 1)
    ∧ fld (dword (desc [0, 8193]) 1) 0 14 = 8193
    ∧ 49151 ≥ { moving (.movRow true fullF) lastRow with rcMib := 4 }.rowsUsed
    ∧ (let e := { entry (.movRow true fullF) [lastRow] with begun := true };
      let s := with0 (moving (.movRow true fullF) lastRow) (fun c => { c with movQ := [e] });
      Memory.wf s.mem = true ∧ s.lcAt 0 = some 0 ∧ (s.core 0).movQ = e :: [] ∧ free s 0 .down = true
        ∧ s.runPoisoned (hawkKey 0 (8191 * 256)) 256 = false
        ∧ tooMany (flipsOf 0 [⟨hawkKey 0 0, .transit 0 5⟩, ⟨hawkKey 0 0, .transit 71 5⟩]) = true
        ∧ tooMany (flipsOf 0 [⟨hawkKey 0 0, .transit 71 5⟩]) = false) :=
  ⟨moving_front _ _, by decide +kernel⟩

/-- A MOV.PUTF of eight bytes from LC0's hawk to LC1's, with a flag in LC1's hawk. -/
def putOne : Desc := desc [0x10100000000, 0x10100400000, 1 + 2 ^ 32 + 2 ^ 48, 0, 0, 0, 0, 0x101005FFFF8]

theorem wit_BlockCopies :
    AtFront (moving (.movPutf fullF) putOne) 0 .mover (entry (.movPutf fullF) [putOne])
    ∧ (let s := moving (.movPutf fullF) putOne;
      Memory.wf s.mem = true ∧ s.blkCheck 0 putOne true = none ∧ bitAt (dword putOne 0) 63 = false
        ∧ bitAt (dword putOne 1) 63 = false ∧ bitAt (dword putOne 7) 63 = false
        ∧ fld (dword putOne 2) 0 22 * 8 = 8 ∧ fld (dword putOne 2) 32 16 = 1 ∧ fld (dword putOne 2) 48 16 = 1
        ∧ s.hawkCell 0 0x10100000007 = some (hawkKey 0 7) ∧ s.runPoisoned (hawkKey 0 0) 64 = false
        ∧ (s.hawkCell 0 0x10100400007).isSome = true ∧ (s.core 0).stores = [] ∧ s.orphaned 0 = false
        ∧ s.copyReaches 0 putOne = true ∧ s.resolve (some 0) (fld (dword putOne 7) 0 56) = .hawk 1 (hawkKey 1 0x1FFFF8)
        ∧ s.reaches 0 (.hawk 1 (hawkKey 1 0x1FFFF8)) = true ∧ setHas (s.core 0).lost (unitNum .mover) = false
        ∧ s.hawkCell 0 (fld (dword putOne 7) 0 56) = some (hawkKey 1 0x1FFFF8))
    ∧ (let e := { entry (.movPutf fullF) [putOne] with lost := true };
      AtFront (with0 (moving (.movPutf fullF) putOne) fun c => { c with movQ := [e] }) 0 .mover e)
    ∧ (let s := with0 (moving (.movPutf fullF) putOne) fun c => { c with lost := [unitNum .mover] };
      AtFront s 0 .mover (entry (.movPutf fullF) [putOne]) ∧ setHas (s.core 0).lost (unitNum .mover) = true
        ∧ s.orphaned 0 = false ∧ s.blkCheck 0 putOne true = none ∧ s.copyReaches 0 putOne = true) :=
  ⟨moving_front _ _, by decide +kernel, ⟨by decide, clocked0 rfl rfl rfl, [], rfl, rfl, rfl, rfl⟩,
    ⟨by decide, clocked0 rfl rfl rfl, [], rfl, rfl, rfl, rfl⟩, by decide +kernel⟩

/-- A MOV.RCFL of the whole render memory. -/
def flushAll : Desc := desc [0, 2 ^ 39]

/-- The same with a cache of 1 MiB per slice that holds a dirty line. -/
def flushing : State := { moving (.movRcfl true fullF) flushAll with
  rcMib := 1, rc := [(0, [⟨0, List.replicate 256 7, true, 0⟩])] }

theorem wit_RenderCacheFlush :
    AtFront flushing 0 .mover (entry (.movRcfl true fullF) [flushAll])
    ∧ (Memory.wf flushing.mem = true ∧ flushing.rcflCheck flushAll = none ∧ flushing.rcWait = []
      ∧ ((List.range 128).all fun c => flushing.rf (.rndCh c) 0 1 == 0) = true
      ∧ ((List.range 512).all fun x => !(flushing.roller x).pass) = true
      ∧ ((flushing.rc.flatMap Prod.snd).map RcLine.tag).Nodup
      ∧ ((flushing.rc.flatMap Prod.snd).all fun l => l.data.length == 256 && l.poison == 0) = true)
    ∧ (fld (dword (desc [0, 2 ^ 40]) 1) 40 24 = 1 ∧ fld (dword (desc [255, 256]) 0) 0 44 % 256 ≠ 0
      ∧ 2 ^ 39 < fld (dword (desc [256, 2 ^ 39]) 0) 0 44 + fld (dword (desc [256, 2 ^ 39]) 1) 0 40
      ∧ fld (dword flushAll 0) 0 44 + fld (dword flushAll 1) 0 40 ≤ 2 ^ 39
      ∧ (moving (.movRcfl true fullF) flushAll).rcMib = 0) :=
  ⟨⟨by decide, clocked0 rfl rfl rfl, [], rfl, rfl, rfl, rfl⟩, by decide +kernel⟩

/-- The Trowel of LC0 has started an instruction with descriptors. -/
def feeding (u : UOp) (ds : List Desc) : State := with0 (at0 .fence) (fun c => { c with trwQ := [entry u ds] })

theorem feeding_front (u : UOp) (ds : List Desc) : AtFront (feeding u ds) 0 .trowel (entry u ds) :=
  ⟨by decide, clocked0 rfl rfl rfl, [], rfl, rfl, rfl, rfl⟩

/-- TRW.MMA into bank A. -/
def mmaF : MmaF := ⟨63, 63, 7, 15, false, true⟩

/-- One row, one column, K of 1, BF16 with BF16. -/
def mmaOne : List Desc := [0, 0, desc [1, 1, 1 + 2 ^ 24 + 2 ^ 28]]

/-- What a check of TRW.MMA gives, as a test of the tile it accepts. -/
def mmaGives (b : Bank) (init : Bool) (ds : List Desc) (p : Mma → Bool) : Bool :=
  match mmaCheck b init (ds.getD 0 0) (ds.getD 1 0) (ds.getD 2 0) with
  | .ok m => p m
  | .error _ => false

theorem wit_MatrixMultiply :
    AtFront (feeding (.trwMma mmaF) mmaOne) 0 .trowel (entry (.trwMma mmaF) mmaOne)
    ∧ mmaGives (((feeding (.trwMma mmaF) mmaOne).core 0).bank false) true mmaOne
      (fun m => m.rows != 0 && m.cols != 0 && m.klen == 1) = true :=
  ⟨feeding_front _ _, by decide +kernel⟩

theorem wit_TrowelChecksAndClear :
    AtFront (feeding (.trwClr ⟨63, 63, true, true, true⟩) []) 0 .trowel (entry (.trwClr ⟨63, 63, true, true, true⟩) [])
    ∧ AtFront (feeding (.trwMma mmaF) [0, 0, desc [1, 1, 1048577]]) 0 .trowel
      (entry (.trwMma mmaF) [0, 0, desc [1, 1, 1048577]])
    ∧ 1048576 < fld (dword (desc [1, 1, 1048577]) 2) 0 21
    ∧ fmtOf (fld (dword (desc [1, 1, 1 + 10 * 2 ^ 24]) 2) 24 4) = none
    ∧ fld (dword (desc [1, 1, 2 ^ 21]) 2) 21 3 ≠ 0 ∧ fld (dword (desc [1, 1, 2 ^ 36]) 2) 36 28 ≠ 0
    ∧ dword (desc [1, 1, 1, 0, 0, 0, 0, 1]) 7 ≠ 0
    ∧ (bitAt (dword (desc [1, 2 ^ 16, 2 ^ 35]) 2) 35 = true ∧ 2 ^ 16 ≤ (dword (desc [1, 2 ^ 16, 2 ^ 35]) 1).toNat)
    ∧ (let f : MmaF := ⟨63, 63, 7, 15, false, false⟩;
      let s := with0 (feeding (.trwMma f) mmaOne) (fun c => { c with bankA := { Bank.zero with int := true } });
      AtFront s 0 .trowel (entry (.trwMma f) mmaOne) ∧ mmaGives Bank.zero false mmaOne (fun m => !m.int) = true
        ∧ ((s.core 0).bank false).int = true)
    ∧ ((at0 .fence).valid 0 = true ∧ (usedLines ((at0 .fence).reg (.trwRepair 0)) 0).contains 63 = true
      ∧ (usedLines ((at0 .fence).reg (.trwRepair 0)) 16).contains 0 = true) :=
  ⟨feeding_front _ _, feeding_front _ _, by decide +kernel, by decide +kernel, by decide +kernel, by decide +kernel,
    by decide +kernel, by decide +kernel, ⟨⟨by decide, clocked0 rfl rfl rfl, [], rfl, rfl, rfl, rfl⟩, by decide +kernel⟩, by decide +kernel⟩

/-- What a check of a drain or a load gives, as a test of what it accepts. -/
def drainGives (d : Desc) (thin ld : Bool) (p : DrainD → Bool) : Bool :=
  match drainCheck d thin ld with
  | .ok m => p m
  | .error _ => false

/-- A drain of one FP32 cell to the last 8-byte word of the hawk. -/
def drainOne : Desc := desc [0x1FFFF8, 0, 2 ^ 16 + 2 ^ 24]

/-- A drain of a row of 32 INT8 with its scale. -/
def drainScaled : Desc := desc [0, 0x1FFFF8, 3 + 2 ^ 4 + 2 ^ 16 + 32 * 2 ^ 24]

theorem wit_DrainsAndLoads :
    (let f : DrainF := ⟨63, 63, 15, true, true, 7, true⟩;
      AtFront (feeding (.trwDrain f) [drainOne]) 0 .trowel (entry (.trwDrain f) [drainOne])
        ∧ Memory.wf (feeding (.trwDrain f) [drainOne]).mem = true
        ∧ drainGives drainOne false false (fun d => d.rows == 1 && !d.oscale) = true
        ∧ drainGives drainScaled false false (fun d => d.rows == 1 && d.oscale) = true
        ∧ (((feeding (.trwDrain f) [drainOne]).core 0).bank true).poison = false)
    ∧ (let f : LdaccF := ⟨63, 63, 15, true⟩;
      AtFront (feeding (.trwLdacc f) [drainOne]) 0 .trowel (entry (.trwLdacc f) [drainOne])
        ∧ drainGives drainOne false true (fun d => d.rows == 1) = true) :=
  ⟨⟨feeding_front _ _, by decide +kernel⟩, feeding_front _ _, by decide +kernel⟩

/-- The Brush of LC0 has started an instruction with descriptors and holds a program. -/
def brushing (u : UOp) (ds : List Desc) (p : List (BitVec 32)) : State :=
  with0 (at0 .fence) (fun c => { c with brsQ := [entry u ds], prog := [(7, p)] })

theorem brushing_front (u : UOp) (ds : List Desc) (p : List (BitVec 32)) :
    AtFront (brushing u ds p) 0 .brush (entry u ds) := ⟨by decide, clocked0 rfl rfl rfl, [], rfl, rfl, rfl, rfl⟩

/-- A program of one word: OUT takes I0. -/
def progOne : List (BitVec 32) := [BitVec.ofNat 32 (2 ^ 26 + 8 * 2 ^ 22 + 0x10 * 2 ^ 17)]

/-- The last 4 bytes of a hawk that hold progOne. -/
def progMem (s : State) : State := s.hawkWrite 0 0x1FFFFC (leBytes 4 (progOne.headD 0).toNat)

theorem wit_ProgramLoads :
    (let f : LdpF := ⟨63, 63, 15, 7⟩;
      let d := desc [0x1FFFFC + 2 ^ 24];
      let s := progMem (brushing (.brsLdp f) [d] progOne);
      AtFront s 0 .brush (entry (.brsLdp f) [d]) ∧ mapSorted (s.core 0).prog = true
        ∧ fld (dword d 0) 21 3 = 0 ∧ fld (dword d 0) 30 34 = 0 ∧ fld (dword d 0) 24 6 = 1
        ∧ s.runPoisoned (hawkKey 0 0x1FFFFC) 4 = false
        ∧ ewOk (BitVec.ofNat 32 (leNat (memGets s.mem (hawkKey 0 0x1FFFFC) 4))) = true
        ∧ ewOk (BitVec.ofNat 32 (leNat (memGets (brushing (.brsLdp f) [d] progOne).mem (hawkKey 0 0x1FFFFC) 4))) = false
        ∧ (s.poisonGran (hawkKey 0 0x1FFFFC)).runPoisoned (hawkKey 0 0x1FFFFC) 4 = true)
    ∧ fld (dword (desc [33 * 2 ^ 24]) 0) 24 6 = 33
    ∧ fld (dword (desc [2 + 2 ^ 24]) 0) 0 21 % 4 ≠ 0
    ∧ 0x200000 < fld (dword (desc [0x1FFFFC + 2 * 2 ^ 24]) 0) 0 21 + 4 * fld (dword (desc [0x1FFFFC + 2 * 2 ^ 24]) 0) 24 6 :=
  ⟨⟨⟨by decide, clocked0 rfl rfl rfl, [], rfl, rfl, rfl, rfl⟩, by decide +kernel⟩, by decide +kernel⟩

/-- A RUN of one position of slot 7: I0 at 0 in FP32; OUT in a format at 0x100; a reduction into RA at 0x1FFFFC. -/
def runOne (scaled red : Bool) : List Desc :=
  [desc [BitVec.ofNat 64 (1 + 2 ^ 16 + 7 * 2 ^ 32 + (if red then 2 ^ 40 else 0)), 0, 0,
      if scaled then BitVec.ofNat 64 (0x300 + 2 ^ 42) else 0],
    desc [2 ^ 26, 0, 0, 0, 0, if scaled then BitVec.ofNat 64 (0x100 + 3 * 2 ^ 21 + 2 ^ 26 + 2 ^ 48) else 0x4000100,
      if red then BitVec.ofNat 64 (0x1FFFFC + 2 ^ 26) else 0]]

theorem wit_ElementRuns :
    (let f : RunF := ⟨63, 63, 7, true, 7⟩;
      ∀ sc rd : Bool, AtFront (brushing (.brsRun f) (runOne sc rd) progOne) 0 .brush (entry (.brsRun f) (runOne sc rd)))
    ∧ (let s := brushing (.brsRun ⟨63, 63, 7, true, 7⟩) (runOne false true) progOne;
      Memory.wf s.mem = true ∧ s.poison = []
        ∧ mapGet (s.core 0).prog (brunOf ((runOne false true).getD 0 0) ((runOne false true).getD 1 0)).pslot [] = progOne)
    ∧ (let b (sc rd : Bool) := brunOf ((runOne sc rd).getD 0 0) ((runOne sc rd).getD 1 0);
      (b false true).check progOne = none ∧ (b true false).check progOne = none ∧ (b true false).oscale = true
        ∧ ((b false true).redn 0).1 = 1 ∧ ((b false true).redn 0).2.2 = false
        ∧ (b false true).rows = 1 ∧ (b false true).cols = 1) :=
  ⟨fun _ _ => brushing_front _ _ _, by decide +kernel⟩

/-- The Stencil of LC0 has started an instruction with descriptors. -/
def attending (u : UOp) (ds : List Desc) : State := with0 (at0 .fence) (fun c => { c with stcQ := [entry u ds] })

theorem attending_front (u : UOp) (ds : List Desc) : AtFront (attending u ds) 0 .stencil (entry u ds) :=
  ⟨by decide, clocked0 rfl rfl rfl, [], rfl, rfl, rfl, rfl⟩

/-- A feed of FP8 rows of 32 elements: base, lanes, lane stride. -/
def rowsOf (base lanes stride : Nat) : Desc :=
  desc [BitVec.ofNat 64 base, BitVec.ofNat 64 (32 + 2 ^ 16), BitVec.ofNat 64 (lanes + stride * 2 ^ 16 + 2 ^ 60)]

/-- A header of one row and one key in FP8 E4M3 with D 32 and SCALE 1. -/
def headOne (out : Nat) (fo : Nat) : Desc :=
  desc [BitVec.ofNat 64 (1 + 32 * 2 ^ 24 + 2 ^ 33 + 3 * 2 ^ 42 + 3 * 2 ^ 46 + 3 * 2 ^ 50 + 3 * 2 ^ 54 + out * 2 ^ 58),
    BitVec.ofNat 64 (fo * 2 ^ 8 + 0x3F800000 * 2 ^ 32)]

/-- STC.FWD of one row and one key. -/
def fwdOne : List Desc :=
  [headOne 1 0, desc [0x3000 + 64 * 2 ^ 32, 0x4000 + 0x4100 * 2 ^ 21, 0x10000], rowsOf 0 1 0, rowsOf 0x1000 64 32,
    rowsOf 0x2000 64 32]

/-- Fields of a UnitF from D0 on. -/
def lowF : UnitF := ⟨63, 63, 0, true, 7⟩

/-- What the checks of an STC.FWD without pages find. -/
def fwdFinds (ds : List Desc) : Option (BitVec 8) :=
  let y := fwdParts (entry (.stcFwd lowF) ds)
  y.1.fwdCheck y.2.1 y.2.2.1 y.2.2.2.1 y.2.2.2.2 0

theorem wit_AttentionForward :
    AtFront (attending (.stcFwd lowF) [0]) 0 .stencil (entry (.stcFwd lowF) [0])
    ∧ ((fwdParts (entry (.stcFwd lowF) [0])).1.paged = false ∧ fwdFinds [0] = some 0x44)
    ∧ AtFront (attending (.stcFwd lowF) fwdOne) 0 .stencil (entry (.stcFwd lowF) fwdOne)
    ∧ (attending (.stcFwd lowF) fwdOne).hawkClean 0
    ∧ (let y := fwdParts (entry (.stcFwd lowF) fwdOne);
      Memory.wf (attending (.stcFwd lowF) fwdOne).mem = true ∧ y.1.paged = false ∧ fwdFinds fwdOne = none
        ∧ y.1.rows = 1 ∧ (y.2.1.ranges y.1).Pairwise (fun a b => rangesMeet a b = false)) :=
  ⟨attending_front _ _, by decide +kernel, attending_front _ _, fun _ _ => rfl, by decide +kernel⟩

/-- STC.BWD of one row and one key. -/
def bwdOne : List Desc :=
  [headOne 1 3, desc [0x3000, 0x4000, 0x5000, 0x6000 + 0x6100 * 2 ^ 21, 0x6200, 0x10000], rowsOf 0 1 0, rowsOf 0x1000 64 32,
    rowsOf 0x2000 64 32, rowsOf 0x7000 1 0]

/-- What the checks of an STC.BWD find. -/
def bwdFinds (ds : List Desc) : Option (BitVec 8) :=
  let y := bwdParts (entry (.stcBwd lowF) ds)
  y.1.bwdCheck y.2.1 y.2.2.1 y.2.2.2.1 y.2.2.2.2.1 y.2.2.2.2.2 0

theorem wit_AttentionBackward :
    AtFront (attending (.stcBwd lowF) [0]) 0 .stencil (entry (.stcBwd lowF) [0]) ∧ bwdFinds [0] = some 0x44
    ∧ AtFront (attending (.stcBwd lowF) bwdOne) 0 .stencil (entry (.stcBwd lowF) bwdOne)
    ∧ (attending (.stcBwd lowF) bwdOne).hawkClean 0
    ∧ (let y := bwdParts (entry (.stcBwd lowF) bwdOne);
      Memory.wf (attending (.stcBwd lowF) bwdOne).mem = true ∧ bwdFinds bwdOne = none ∧ y.1.nk = 1 ∧ y.1.dim = 32
        ∧ (y.2.1.accs y.1).Pairwise (fun a b => rangesMeet a b = false)
        ∧ ((y.2.1.accs y.1).all fun r => (y.2.2.1.ranges ++ y.2.2.2.2.2.ranges ++ y.1.maskRanges
          ++ ((List.range y.1.nblocks).flatMap fun b => (y.1.blockFeeds y.2.2.2.1 y.2.2.2.2.1 b).1.ranges
            ++ (y.1.blockFeeds y.2.2.2.1 y.2.2.2.2.1 b).2.ranges)).all fun w => !rangesMeet r w) = true) :=
  ⟨attending_front _ _, by decide +kernel, attending_front _ _, fun _ _ => rfl, by decide +kernel⟩

/-- A table of 6 MiB at the first hod address, region 0 valid (512 tokens to a page of 16 KiB), one slice. -/
def kvDev (c : Core) (m : Memory := []) : State :=
  { dev [(0, c)] [(.kvConfig, 0x10000000001), (.kvRegion 0, 14 + 32 * 2 ^ 8)] with slices := [0], mem := m }

theorem kvDev_mapped (c : Core) (m : Memory) : KvMapped (kvDev c m) := by
  have hg : (kvDev c m).regs = (kvDev Core.zero []).regs := rfl
  have hf : ∀ r lo len, (kvDev c m).rf r lo len = (kvDev Core.zero []).rf r lo len := fun r lo len => by
    unfold State.rf State.reg
    rw [hg]
  refine ⟨?_, ?_, ?_, fun o h => ⟨hodKey 0 (o / 256) (o % 256), ?_⟩⟩
  · unfold State.kvOn
    rw [hf]
    decide +kernel
  · show ([0] : List Nat).Nodup; decide
  · show ∀ x ∈ ([0] : List Nat), x < 168; decide
  · have hb : (kvDev c m).kvBase = 0x10000000000 := by
      unfold State.kvBase
      rw [hf]
      decide +kernel
    have hn : (kvDev c m).sliceCount = 1 := rfl
    have hr : (kvDev c m).rowsUsed = 49152 := rfl
    have hs : (kvDev c m).slices = [0] := rfl
    rw [hb]
    unfold State.resolve State.hodView
    rw [if_neg (by omega), if_neg (by omega), if_pos (by omega), hn, hr, hs]
    have e : 0x10000000000 + o - 0x10000000000 = o := by omega
    simp only [e, Nat.mod_one, Nat.div_one, one_mul]
    rw [if_pos ⟨by omega, by omega⟩]
    rfl

/-- The memory of a table with sequence descriptors. -/
def seqMem (l : List (Nat × SeqD)) : Memory := (l.foldl (fun s x => s.putSeq x.1 x.2) (kvDev Core.zero)).mem

/-- An active sequence of one page in region 0, block 16,383. -/
def seqOne : SeqD := ⟨16383, 0, true, 0, 16383, 1, 0, 0, 0⟩

theorem kv_clocked : (kvDev Core.zero []).clocked 0 = true := by decide +kernel

/-- LC0's Stencil has started an instruction, over a table. -/
def editing (u : UOp) (ds : List Desc) (l : List (Nat × SeqD)) : State :=
  kvDev { coreAt .fence with stcQ := [entry u ds] } (seqMem l)

theorem editing_front (u : UOp) (ds : List Desc) (l : List (Nat × SeqD)) :
    AtFront (editing u ds l) 0 .stencil (entry u ds) := ⟨by decide, clocked_like kv_clocked rfl rfl rfl, [], rfl, rfl, rfl, rfl⟩

/-- INIT of sequence 65,535 in region 0 at block 16,383. -/
def initD : Desc := desc [0xFFFF00000000, 0x3FFF00000000]

/-- DROP, TRUNC or EXTEND (op) of sequence 65,535 with an argument. -/
def dropD (op arg : Nat) : Desc := desc [BitVec.ofNat 64 (op + 0xFFFF00000000), BitVec.ofNat 64 arg]

/-- The descriptor of sequence 65,535. -/
def lastSeq (s : State) : SeqD := (s.seqD 65535).1

theorem wit_PageTableEdits :
    (∀ d l, KvMapped (editing (.stcPtedit lowF) [d] l) ∧ AtFront (editing (.stcPtedit lowF) [d] l) 0 .stencil
      (entry (.stcPtedit lowF) [d]))
    ∧ (let s := editing (.stcPtedit lowF) [initD] [];
      Memory.wf s.mem = true ∧ editInvalid initD = false ∧ (editOf initD).seq = 65535 ∧ (s.seqD 65535).2 = false
        ∧ (lastSeq s).holds = 0 ∧ (lastSeq s).defer = 0 ∧ s.deferred = [] ∧ s.editPoison (editOf initD) (lastSeq s) = false
        ∧ s.editFault (editOf initD) (lastSeq s) = none)
    ∧ (let s := editing (.stcPtedit lowF) [initD] [(65535, seqOne)];
      Memory.wf s.mem = true ∧ (s.seqD 65535).2 = false ∧ lastSeq s = seqOne
        ∧ s.editPoison (editOf initD) seqOne = false ∧ s.editFault (editOf initD) seqOne = some 0x61)
    ∧ (editInvalid (dropD 3 1) = false ∧ seqOne.npages ≤ (editOf (dropD 3 1)).arg
      ∧ editInvalid (dropD 5 2) = false ∧ seqOne.npages < (editOf (dropD 5 2)).arg
      ∧ editInvalid (dropD 2 513) = false
      ∧ seqOne.npages * ((editing (.stcPtedit lowF) [dropD 2 513] []).region 0).tpp < seqOne.len + 513)
    ∧ ((lastSeq (editing (.stcPtedit lowF) [dropD 3 0] [(65535, { seqOne with holds := 1, defer := 15 })])).defer = 15
      ∧ (lastSeq (editing (.stcPtedit lowF) [dropD 3 0] [(65535, { seqOne with holds := 1, defer := 16 })])).defer = 16)
    ∧ (let e := { entry (.stcPtedit lowF) [dropD 3 0] with begun := true };
      let s := { kvDev { coreAt .fence with stcQ := [e] } (seqMem [(65535, { seqOne with defer := 1 })]) with
        deferred := [⟨0, 65535, dropD 3 0⟩] };
      Memory.wf s.mem = true ∧ s.deferred.filter (fun y => y.seq == 65535) = [⟨0, 65535, dropD 3 0⟩]
        ∧ (s.seqD 65535).2 = false ∧ (lastSeq s).holds = 0 ∧ (lastSeq s).defer = 1 ∧ (s.core 0).stcQ = e :: []
        ∧ s.editFault (editOf (dropD 3 0)) (lastSeq s) = none ∧ s.editPoison (editOf (dropD 3 0)) (lastSeq s) = false) :=
  ⟨fun _ _ => ⟨kvDev_mapped _ _, editing_front _ _ _⟩, by decide +kernel⟩

/-- STC.DEC of two entries: queries in E4M3, keys in E2M1, one query row, list, ring, workspace, NIDX 1, region 0. -/
def decOne : List Desc :=
  [desc [BitVec.ofNat 64 (2 + 2 ^ 16 + 3 * 2 ^ 27 + 7 * 2 ^ 31 + 3 * 2 ^ 35 + 2 ^ 39), 0x3F80000000000000,
      BitVec.ofNat 64 (0x1000 + 0x20000 * 2 ^ 21), BitVec.ofNat 64 (0x10000 + 2 ^ 32)],
    desc [0x2000, 0x3000, BitVec.ofNat 64 (0x4000 + 0x4100 * 2 ^ 21), 0x5000]]

/-- The header of decOne. -/
def decHead : DHead := dheadOf (decOne.getD 0 0) (decOne.getD 1 0)

/-- An STC.DEC of LC0 that has begun, with holds, over sequence 0. -/
def decoding (q : SeqD) (hs : List Held) : State :=
  kvDev { coreAt .fence with stcQ := [{ entry (.stcDec lowF) decOne with begun := true }], held := hs } (seqMem [(0, q)])

/-- Sequence 0 with no tokens. -/
def seqNone : SeqD := { seqOne with head := 0, tail := 0, npages := 0 }

theorem wit_HoldsAndTableEnable :
    (∀ q hs, KvMapped (decoding q hs))
    ∧ (let s := decoding seqNone [];
      Memory.wf s.mem = true ∧ (s.core 0).stcQ = [{ entry (.stcDec lowF) decOne with begun := true }] ∧ 0 < decHead.count
        ∧ (s.listEntry 0 decHead 0).2.1 < decHead.nidx ∧ (s.listEntry 0 decHead 0).1 = 0 ∧ (s.core 0).held.length < 3
        ∧ (s.seqD 0).2 = false ∧ (s.seqD 0).1.active = true ∧ s.editsDue 0 = false)
    ∧ (let h : Held := ⟨0, 0, 1, 0⟩;
      let s := with0 (decoding { seqNone with holds := 1 } [h]) (fun c => { c with stcQ := [
        { entry (.stcDec lowF) decOne true (some ⟨0, {}⟩) with begun := true, prog := 2, nnz := 2 }] });
      (s.core 0).held = h :: [] ∧ (s.core 0).holdDone h = true ∧ (s.seqD 0).2 = false ∧ 1 ≤ (s.seqD 0).1.holds)
    ∧ (let h : Held := ⟨0, 0, 1, 0⟩;
      let s := (decoding { seqNone with holds := 1 } [h]).setReg (.mcLc 0) 0x10001;
      s.failed 0 = true ∧ (s.core 0).held = [h] ∧ 1 ≤ (s.seqD 0).1.holds)
    ∧ (let s := { (at0 .fence).setReg .kvConfig 0x10000000000 with slices := [0] };
      s.sec.recovery = false ∧ bitAt (0x10000000001 : Word) 0 = true ∧ bitAt (s.reg .kvConfig) 0 = false
        ∧ s.rf .kvConfig 20 24 * 2 ^ 20 = 0x10000000000 ∧ 0x10000000000 + 0x5FFFFF ≤ s.hodTop ∧ s.kvOn = false)
    ∧ (bitAt ((decoding seqNone []).reg .kvConfig) 0 = true ∧ (decoding seqNone []).holdsNow = 0) :=
  ⟨fun _ _ => kvDev_mapped _ _, by decide +kernel⟩

/-- An STC.DEC of LC0 that has not begun. -/
def decAsked (ds : List Desc) : State := kvDev { coreAt .fence with stcQ := [entry (.stcDec lowF) ds] } (seqMem [(0, seqNone)])

/-- STC.BUCKET of one sequence with one edge. -/
def bucketOne : Desc := desc [0x100000000, 0x2000100, 0x60000200]

/-- STC.FWD over pages: a ring at 0x80000. -/
def fwdPaged : List Desc :=
  [headOne 1 0 + desc [2 ^ 23, 0, 0, 0, 0, 0x80000], desc [0x3000 + 64 * 2 ^ 32, 0x4000 + 0x4100 * 2 ^ 21, 0x10000],
    rowsOf 0 1 0, rowsOf 0 64 32, rowsOf 0 64 32]

/-- Sequence 0 with one page, which is LIVE at 2^39 in E2M1. -/
def decLive (hs : List Held) : State :=
  let s := decoding { seqOne with len := 1, holds := 1 } hs
  s.putEntry 16383 0 (BitVec.ofNat 64 (2 ^ 63 + 2 ^ 61 + 7 * 2 ^ 57 + 127 * 2 ^ 49 + 2 ^ 39))

/-- The page of decLive. -/
def livePage : List (Nat × KPage) := [(0, ⟨2 ^ 39, 127⟩)]

/-- A walk's pages. -/
def walkGives (s : State) (h : DHead) (len : Nat) : Option (List (Nat × KPage)) :=
  match s.walk (s.seqD 0).1 (s.region h.region) (fld (dword h.raw 0) 31 4) h.head len 0 ((len - 1) / 64) with
  | (ps, none) => some ps
  | _ => none

theorem wit_DecodeAndBuckets :
    (AtFront (decAsked decOne) 0 .stencil (entry (.stcDec lowF) decOne) ∧ (decAsked decOne).decCheck decHead 0 = none
      ∧ AtFront (decAsked []) 0 .stencil (entry (.stcDec lowF) []) ∧ (decAsked []).decCheck (dheadOf 0 0) 0 = some 0x44)
    ∧ (let s := (decoding seqNone []).hawkWrite 0 0x1000 [0, 0, 1, 0];
      Memory.wf s.mem = true ∧ (s.core 0).stcQ = [{ entry (.stcDec lowF) decOne with begun := true }]
        ∧ s.kvOn = true ∧ s.clocked 0 = true ∧ (s.setReg .kvConfig 0).kvOn = false ∧ 1 < decHead.count ∧ (s.listEntry 0 decHead 0).2.2 = false ∧ decHead.nidx ≤ (s.listEntry 0 decHead 0).2.1
        ∧ decHead.base 3 + (s.listEntry 0 decHead 0).2.1 * 8 + 8 ≤ 0x200000)
    ∧ (let h : Held := ⟨0, 0, 1, 0⟩;
      let s := decoding { seqNone with holds := 1 } [h];
      Memory.wf s.mem = true ∧ s.decCheck decHead 0 = none ∧ (s.listEntry 0 decHead 0).2.2 = false
        ∧ (s.listEntry 0 decHead 0).2.1 < decHead.nidx ∧ (s.seqD 0).2 = false ∧ (s.seqD 0).1.active = true
        ∧ (s.core 0).held.find? (fun x => x.entry == 0) = some h ∧ (s.seqD 0).1.region = decHead.region ∧ h.len = 0
        ∧ s.clocked 0 = true ∧ (s.decWalk 0 decHead (s.region decHead.region) [] 0 h.len (daccOf []).chunks 0).2.poi = false)
    ∧ (let h : Held := ⟨0, 0, 1, 1⟩;
      let s := decLive [h];
      Memory.wf s.mem = true ∧ s.decCheck decHead 0 = none ∧ (s.listEntry 0 decHead 0).2.2 = false
        ∧ (s.seqD 0).2 = false ∧ (s.seqD 0).1.active = true
        ∧ (s.core 0).held.find? (fun x => x.entry == 0) = some h ∧ (s.seqD 0).1.region = decHead.region ∧ h.len ≠ 0
        ∧ decHead.window = 0 ∧ walkGives s decHead h.len = some livePage
        ∧ s.framesReach 0 (s.region decHead.region) decHead.head livePage [0] = true
        ∧ (s.cross 0 .up []).map (fun u =>
          (u.decWalk 0 decHead (s.region decHead.region) livePage 0 h.len (daccOf []).chunks 1).2.poi) = some false)
    ∧ (let s := kvDev { coreAt .fence with stcQ := [entry (.stcBucket lowF) [bucketOne]] } (seqMem [(0, seqNone)]);
      AtFront s 0 .stencil (entry (.stcBucket lowF) [bucketOne]) ∧ Memory.wf s.mem = true
        ∧ s.bucketCheck bucketOne = none ∧ (s.seqD 0).2 = false
        ∧ leNat (memGets s.mem (hawkKey 0 0) 2) = 0)
    ∧ (AtFront (attending (.stcFwd lowF) fwdPaged) 0 .stencil (entry (.stcFwd lowF) fwdPaged)
      ∧ (fwdParts (entry (.stcFwd lowF) fwdPaged)).1.paged = true ∧ fwdFinds fwdPaged = none
      ∧ (attending (.stcFwd lowF) fwdPaged).kvOn = false) :=
  ⟨⟨⟨by decide, clocked_like kv_clocked rfl rfl rfl, [], rfl, rfl, rfl, rfl⟩, by decide +kernel, ⟨by decide, clocked_like kv_clocked rfl rfl rfl, [], rfl, rfl, rfl, rfl⟩, by decide +kernel⟩,
    by decide +kernel, by decide +kernel, by decide +kernel,
    ⟨⟨by decide, clocked_like kv_clocked rfl rfl rfl, [], rfl, rfl, rfl, rfl⟩, by decide +kernel⟩, attending_front _ _, by decide +kernel⟩

/-- Hawks without poison. -/
theorem wit_BucketsClean (c : Core) (m : Memory) (lc : Nat) : (kvDev c m).hawkClean lc := fun _ _ => rfl

/-- The Scrim port of LC0 has started an instruction with a descriptor; the Rollers are armed. -/
def armed (u : UOp) (d : Desc) (on : Bool := true) (gone : Bool := false) : State :=
  dev [(0, { coreAt .fence with scrQ := [entry u [d]] })]
    [(.rlrState, if on then 1 else 0), (.rlrRetired 7, if gone then 2 ^ 63 else 0)]

theorem armed_clocked : ∀ on gone, (armed (.scrFlag fullF) 0 on gone).clocked 0 = true := by decide +kernel

theorem armed_front (u : UOp) (d : Desc) (on gone : Bool) : AtFront (armed u d on gone) 0 .scrim (entry u [d]) :=
  ⟨by decide, clocked_like (armed_clocked on gone) rfl rfl rfl, [], rfl, rfl, rfl, rfl⟩

/-- Roller 3 of channel 15 of stack 7 (Roller 511), with banks. -/
def sel511 (banks : Nat) : Nat := 2 ^ 7 + 2 ^ 15 * 2 ^ 16 + 8 * 2 ^ 32 + banks * 2 ^ 48

/-- RLR.MV of one row of LEN elements: its weight format, the first row byte, the first vector element. -/
def mvD (wf off voff len : Nat) : Desc :=
  desc [BitVec.ofNat 64 (sel511 1), BitVec.ofNat 64 (wf * 2 ^ 4 + 2 * 2 ^ 8 + len * 2 ^ 16 + 2 ^ 32 + 2 ^ 48),
    BitVec.ofNat 64 off, 0, BitVec.ofNat 64 voff, 4095]

/-- RLR.VLD of the last 8 bytes of the hawk to the end of the vector buffer. -/
def vldD : Desc := desc [BitVec.ofNat 64 (sel511 0), 0x1001FFFF8, 0x1FFF8]

/-- RLR.RD of the last accumulator to the last 64-byte block of the hawk. -/
def rdD : Desc := desc [BitVec.ofNat 64 (sel511 0), BitVec.ofNat 64 (0x1FFFC0 + 64 * 2 ^ 32), 0x1000010FFF]

/-- RLR.WR of 16 accumulators to the last 64 bytes of bank 15. -/
def wrD : Desc := desc [BitVec.ofNat 64 (sel511 (2 ^ 15)), 0x3FFFFC0, 0x1000100FF0]

theorem wit_RollerCommandsSent :
    (∀ u d on gone, AtFront (armed u d on gone) 0 .scrim (entry u [d]))
    ∧ ([.rlrVld fullF, .rlrMv fullF, .rlrRd fullF, .rlrWr fullF].map fun u => (rlrCmd 0 u).isSome) = [true, true, true, true]
    ∧ (rselOf 0).rollers = [] ∧ rlrInvalid (.rlrMv fullF) (mvD 2 0 0 0) = true
    ∧ (rlrInvalid (.rlrMv fullF) (mvD 2 1 0 1) = false ∧ rlrMisaligned (.rlrMv fullF) (mvD 2 1 0 1) = true)
    ∧ (let d := mvD 2 0x3FFFFC0 32767 1;
      rlrInvalid (.rlrMv fullF) d = false ∧ rlrMisaligned (.rlrMv fullF) d = false
        ∧ (armed (.rlrMv fullF) d false).rf .rlrState 0 1 = 0
        ∧ (511 ∈ (rselOf d).rollers ∧ (armed (.rlrMv fullF) d true true).rf (.rlrRetired 7) 63 1 = 1)
        ∧ (armed (.rlrMv fullF) d).rlrCheck (.rlrMv fullF) d = none
        ∧ (∀ st ∈ (rselOf d).stackList, (armed (.rlrMv fullF) d).seqLen st + (armed (.rlrMv fullF) d).onWay st < 16)
        ∧ 16 ≤ { armed (.rlrMv fullF) d with
          seqs := [(7, List.replicate 16 ⟨1, .rlrMv fullF, d, true, [], false, 0, 0, 0, false, []⟩)] }.seqLen 7)
    ∧ (let d := mvD 0 0 0 1;
      rlrInvalid (.rlrMv fullF) d = false ∧ rlrMisaligned (.rlrMv fullF) d = false ∧ rlrFormat (.rlrMv fullF) d = true)
    ∧ (let d := mvD 2 0x3FFFFC0 0 33;
      rlrFormat (.rlrMv fullF) d = false ∧ rlrInvalid (.rlrMv fullF) d = false ∧ rlrMisaligned (.rlrMv fullF) d = false
        ∧ 2 ^ 26 ≤ (rmvOf d).rowAt 0 0 + 65 ∧ 65 < (rmvOf d).rowBytes)
    ∧ (let d := mvD 2 0 32767 2;
      rlrFormat (.rlrMv fullF) d = false ∧ rlrInvalid (.rlrMv fullF) d = false ∧ rlrMisaligned (.rlrMv fullF) d = false
        ∧ rlrBank (.rlrMv fullF) d = false ∧ 65536 ≤ (rmvOf d).vecAt 0 0 0 1 * ((rmvOf d).vfmt.bits / 8))
    ∧ ((armed (.rlrVld fullF) vldD).rlrCheck (.rlrVld fullF) vldD = none
      ∧ free (armed (.rlrVld fullF) vldD) 0 .down = true
      ∧ ((armed (.rlrVld fullF) vldD).setReg (.vcStatus 0 .down) 0x40000).siteRetired 0 = true
      ∧ ((armed (.rlrVld fullF) vldD).setSite 0 { Site.zero with win := .forced }).siteWindow 0 = true)
    ∧ (armed (.rlrRd fullF) rdD).rlrCheck (.rlrRd fullF) rdD = none
    ∧ (armed (.rlrWr fullF) wrD).rlrCheck (.rlrWr fullF) wrD = none := by
  refine ⟨armed_front, ?_⟩; decide +kernel

/-- A Roller instruction that has left for stack 7. -/
def going (u : UOp) (d : Desc) : UEntry := { entry u [d] with begun := true, await := [toArrive 7] }

/-- A command on its way to stack 7, its Rollers armed. -/
def onItsWay (u : UOp) (d : Desc) (off : Bool := false) (asleep : Bool := false) : State :=
  dev [(0, { coreAt .fence with scrQ := [going u d] })]
    [(.rlrState, if asleep then 0x800001 else 1), (.rndCh 127, if off then 1 else 0)]

theorem onItsWay_arrives (u : UOp) (d : Desc) (off asleep : Bool) : Arriving (onItsWay u d off asleep) 0 7 (going u d) [] :=
  ⟨by decide, rfl, rfl, rfl, List.mem_singleton.mpr rfl⟩

/-- A command whose turn has come at stack 7. -/
def running (u : UOp) (d : Desc) : RlrCmd := ⟨0, u, d, true, [], false, 0, 0, 0, false, []⟩

/-- An RLR.MV of three rows of one element of Roller 511. -/
def mv3 : Desc := desc [BitVec.ofNat 64 (sel511 1), BitVec.ofNat 64 (2 * 2 ^ 4 + 2 * 2 ^ 8 + 2 ^ 16 + 3 * 2 ^ 32 + 2 ^ 48),
  0, 64, 0, 0]

/-- Roller 511 in the first pass of its walk, or in its gap; the registers of a start. -/
def walkingAt (d : Desc) (pass : Bool) (gap : Option Nat := none) : State :=
  { armed (.rlrMv fullF) d with
    seqs := [(7, [running (.rlrMv fullF) d])]
    rollers := [(511, { Roller.zero with pass := pass, walk := some ⟨0, [], (rselOf d).banks, gap⟩ })] }

theorem walkingAt_first : WalksFirst (walkingAt mv3 true) 511 (running (.rlrMv fullF) mv3) :=
  ⟨by decide, rfl, rfl, rfl, rfl, ⟨_, rfl⟩, by decide +kernel⟩

theorem wit_RollerProducts :
    (∀ u d off asleep, Arriving (onItsWay u d off asleep) 0 7 (going u d) [])
    ∧ WalksFirst (walkingAt mv3 true) 511 (running (.rlrMv fullF) mv3)
    ∧ ((rmvOf mv3).steps (bitsOf 16 (rselOf mv3).banks) ≤ 3 ∧ 2 < (rmvOf mv3).steps (bitsOf 16 (rselOf mv3).banks))
    ∧ (let d := mvD 2 0x3FFFFC0 32767 1;
      let s := onItsWay (.rlrMv fullF) d;
      s.rf .rlrState (16 + 7) 1 = 0 ∧ s.rlrCheck (.rlrMv fullF) d = none
        ∧ s.chanOff d 7 = false ∧ 511 ∈ (rselOf d).rollers ∧ 511 / 64 = 7
        ∧ mapGet s.seqs 7 [] = [] ∧ s.walking 7 = false ∧ (walkingAt d true).walking 7 = true
        ∧ (onItsWay (.rlrMv fullF) d true).chanOff d 7 = true ∧ (onItsWay (.rlrMv fullF) d true).walking 7 = false
        ∧ (onItsWay (.rlrMv fullF) d false true).rf .rlrState (16 + 7) 1 = 1
        ∧ setHas (onItsWay (.rlrMv fullF) d false true).power.awake (168 + 7) = false) := by
  refine ⟨onItsWay_arrives, walkingAt_first, ?_⟩; decide +kernel

theorem wit_RollerTransfers :
    [(.rlrVld fullF, vldD), (.rlrRd fullF, rdD), (.rlrWr fullF, wrD)].all (fun x : UOp × Desc =>
      let s := onItsWay x.1 x.2;
      (rlrCmd 0 x.1).isSome && s.rf .rlrState (16 + 7) 1 == 0 && (s.rlrCheck x.1 x.2).isNone
        && (mapGet s.seqs 7 []).isEmpty && !s.walking 7 && free s 0 .up
        && !s.chanOff x.2 7 && (rselOf x.2).rollers == [511]) = true := by decide +kernel

/-- LC0's command ran at stack 7, which has still to report it. -/
def reporting (pass : Bool) : State :=
  { dev [(0, { coreAt .fence with scrQ := [{ going (.rlrMv fullF) (mvD 2 0 0 1) with await := [toReport 7] }] })] with
    seqs := [(7, [running (.rlrMv fullF) (mvD 2 0 0 1)])]
    rollers := [(511, { Roller.zero with pass := pass })] }

theorem wit_RollerReportsAndRefresh :
    (mapGet (reporting false).seqs 7 [] = [running (.rlrMv fullF) (mvD 2 0 0 1)]
      ∧ ((reporting false).core 0).scrQ = [{ going (.rlrMv fullF) (mvD 2 0 0 1) with await := [toReport 7] }]
      ∧ (reporting false).walking 7 = false ∧ (walkingAt mv3 false).walking 7 = true
      ∧ (reporting true).rcWait = [] ∧ (walkingAt mv3 true).rcWait = []
      ∧ ((reporting true).roller 511).pass = true ∧ ((reporting false).roller 511).pass = false
      ∧ ((mapGet (reporting true).seqs (511 / 64) []).all fun c => c.ran) = true)
    ∧ setHas { reporting true with refreshDue := setAdd [] 127 }.refreshDue (511 / 4) = true
    ∧ (((walkingAt mv3 false (some 63)).roller 511).pass = false
      ∧ ((walkingAt mv3 false (some 63)).roller 511).walk = some ⟨0, [], (rselOf mv3).banks, some 63⟩
      ∧ setHas (walkingAt mv3 false).refreshDue (511 / 4) = false ∧ (walkingAt mv3 false).pins.brake = false
      ∧ (let s : State := { walkingAt mv3 false with
          rollers := [(510, { Roller.zero with walk := some ⟨0, [], 1, some 0⟩ })] };
        (s.roller 511).pass = false ∧ 510 / 4 = 511 / 4 ∧ ∃ w, (s.roller 510).walk = some w ∧ w.gap ≠ none))
    ∧ (let s := { at0 .fence with disarming := setAdd [] 7 };
      setHas s.disarming 7 = true ∧ s.seqLen 7 = 0 ∧ s.onWay 7 = 0) :=
  ⟨by decide +kernel, by decide +kernel, ⟨by decide +kernel, by decide +kernel, by decide +kernel, by decide +kernel,
    by decide +kernel, by decide, _, rfl, by decide⟩, by decide +kernel⟩

/-- The Scrim port of LC0 has started an instruction with a descriptor; further cores, registers, contexts. -/
def sending (e : UEntry) (cs : FMap Core := []) (rs : List (Reg × Word) := []) (ks : List Coll := []) : State :=
  { dev ([(0, { coreAt .fence with scrQ := [e] })] ++ cs) rs with colls := ks }

theorem sending_front (u : UOp) (d : Desc) (cs : FMap Core) : AtFront (sending (entry u [d]) cs) 0 .scrim (entry u [d]) :=
  ⟨by decide, clocked0 rfl rfl rfl, [], rfl, rfl, rfl, rfl⟩

/-- A write of LC0 that no instruction awaits any more has not been acknowledged. -/
def strayFlow : FMap TxFlow :=
  [(0, ⟨18, 0, 0, 3, none, 1, [⟨⟨17, 18, 0, 3, 0, 0, 1, 0x10100400000, 0, [7]⟩, 0, some .mover, 0⟩], [], []⟩)]

/-- The same state with that write. -/
def stray (s : State) : State := { s with tx := strayFlow }

/-- The same state with a store of LC0 under way, and with a covered write of a unit of LC0 ended with PORT_RESET. -/
def stored (s : State) : State := with0 s fun c => { c with stores := [store1] }
def losing (s : State) (u : UnitId) : State := with0 s fun c => { c with lost := [unitNum u] }

/-- SCR.MCAST to LC1 (or LC0 and LC1) of the last 8 bytes of the hawk, a flag there; its LEN, its FLAGOFF. -/
def mcD (set len foff : Nat) : Desc :=
  desc [1, BitVec.ofNat 64 set, 0, 0, BitVec.ofNat 64 (0x1FFFF8 + 0x1FFFF8 * 2 ^ 21), BitVec.ofNat 64 len,
    BitVec.ofNat 64 (foff + 2 ^ 21)]

/-- A multicast that owes LC1 its copy, and the other targets it awaits. -/
def owing (fen : Bool) (also : List Nat) : UEntry :=
  { entry (.scrMcast fullF) [if fen then mcD 2 1 0x1FFFF0 else desc [1, 2, 0, 0, 0, 1]] with
    begun := true, await := 1 :: also, buf := (List.range 8).map fun n => (2 * n, 7) }

/-- Its state, LC1 failed or not. -/
def owed (fen : Bool) (also : List Nat) (gone : Bool := false) : State :=
  sending (owing fen also) [] [(.mcLc 1, if gone then 0x10101 else 0x101)]

theorem owed_owes (fen : Bool) (also : List Nat) (gone : Bool)
    (h : (owed fen also gone).clocked 0 = true
      ∧ (owed fen also gone).scrimOpen ((owed fen also gone).siteOf 0) ((owed fen also gone).siteOf 1) = true
      ∧ ((owed fen also gone).failed 1 = false → (owed fen also gone).accepts 1 = true)) :
    Owes (owed fen also gone) 0 1 fullF (owing fen also) [] :=
  ⟨by decide, rfl, rfl, rfl, rfl, List.mem_cons_self, by decide, h⟩

theorem wit_MulticastCopies :
    ((at0 .fence).descSet (mcD 3 1 0) = some [0, 1])
    ∧ ((∀ d cs, AtFront (sending (entry (.scrMcast fullF) [d]) cs) 0 .scrim (entry (.scrMcast fullF) [d]))
      ∧ (let s := sending (entry (.scrMcast fullF) [mcD 2 1 0]);
        s.descSet (mcD 2 1 0) = some [1] ∧ fld (dword (mcD 2 0 0) 5) 0 19 = 0 ∧ fld (dword (mcD 2 262145 0) 5) 0 19 = 262145
          ∧ s.descSet (mcD 3 1 0) = some [0, 1] ∧ (mcastOf (mcD 2 1 4)).foff % 8 ≠ 0
          ∧ s.descSet (mcD 4 1 0) = none ∧ 2 ^ 21 < (mcastOf (mcD 2 2 0)).src + (mcastOf (mcD 2 2 0)).len
          ∧ (mcastOf (mcD 2 1 0)).src + (mcastOf (mcD 2 1 0)).len ≤ 2 ^ 21
          ∧ (mcastOf (mcD 2 262144 0)).len = 2 ^ 21))
    ∧ (Owes (owed false []) 0 1 fullF (owing false []) [] ∧ (owed false []).failed 1 = false
      ∧ (owing false []).payload.length = (mcastOf ((owing false []).ds.headD 0)).len
      ∧ (mcastOf ((owing false []).ds.headD 0)).fen = false
      ∧ Owes (owed true [0]) 0 1 fullF (owing true [0]) [] ∧ 1 < (owed true [0]).inForce
      ∧ ((owed true [0]).core 0).stores = [] ∧ (owed true [0]).orphaned 0 = false ∧ (owing true [0]).lost = false
      ∧ setHas ((owed true [0]).core 0).lost (unitNum .scrim) = false ∧ (mcastOf ((owing true [0]).ds.headD 0)).fen = true
      ∧ (Owes (losing (owed true [0]) .scrim) 0 1 fullF (owing true [0]) []
        ∧ setHas ((losing (owed true [0]) .scrim).core 0).lost (unitNum .scrim) = true
        ∧ (losing (owed true [0]) .scrim).failed 1 = false)
      ∧ (let e := { owing true [] with lost := true };
        Owes (sending e) 0 1 fullF e [] ∧ (sending e).failed 1 = false ∧ e.payload.length = (mcastOf (e.ds.headD 0)).len))
    ∧ (Owes (owed true [0] true) 0 1 fullF (owing true [0]) []
      ∧ (owed true [0] true).failed 1 = true ∧ (owing true [0]).poi = false) :=
  ⟨by decide +kernel, ⟨sending_front _, by decide +kernel⟩,
    ⟨owed_owes _ _ _ (by decide +kernel), by decide +kernel, by decide +kernel, by decide +kernel,
      owed_owes _ _ _ (by decide +kernel), by decide +kernel, by decide +kernel, by decide +kernel, by decide +kernel,
      by decide +kernel, by decide +kernel,
      ⟨⟨by decide, rfl, rfl, rfl, rfl, List.mem_cons_self, by decide, by decide +kernel⟩, by decide +kernel⟩,
      ⟨by decide, rfl, rfl, rfl, rfl, List.mem_cons_self, by decide, by decide +kernel⟩, by decide +kernel⟩,
    owed_owes _ _ _ (by decide +kernel), by decide +kernel, by decide +kernel⟩

/-- SCR.RED of LC0 and LC1 toward LC0: RID 63, a format, LEN, SRCOFF. -/
def redD (fmt len src : Nat) : Desc :=
  desc [1, 3, 0, 0, BitVec.ofNat 64 (63 * 2 ^ 8 + fmt * 2 ^ 16 + len * 2 ^ 32), BitVec.ofNat 64 (src + 0x1000 * 2 ^ 21)]

/-- LC0's contribution on its way. -/
def redGoing : UEntry := { entry (.scrRed fullF) [redD 0 2 0x1FFFF8] with begun := true }

/-- LC1's contribution of two elements has arrived. -/
def redOther : Coll := { redColl (redOf (redD 0 2 0)) [0, 1] with arrived := [1], terms := [(1, [(0, false), (1, false)])] }

theorem wit_ReductionTree :
    ((∀ d cs, AtFront (sending (entry (.scrRed fullF) [d]) cs) 0 .scrim (entry (.scrRed fullF) [d]))
      ∧ (redOf (redD 3 2 0)).fmt = 3 ∧ (redOf (redD 0 65537 0)).len = 65537 ∧ (redOf (redD 0 2 4)).src % 8 ≠ 0
      ∧ (redOf (redD 1 4 0)).len * (redOf (redD 1 4 0)).size % 8 = 0 ∧ (redOf (redD 0 1 0)).len * 4 % 8 ≠ 0
      ∧ (sending redGoing).descSet (desc [1, 2]) = some [1]
      ∧ (sending redGoing).redCheck 0 (redD 0 2 0x1FFFF8) = none ∧ (sending redGoing).coll 0 63 = none
      ∧ (let s := sending redGoing [] [] [{ redOther with mismatch := true }];
        s.coll 0 63 = some { redOther with mismatch := true }))
    ∧ (OnItsWay (sending redGoing) 0 redGoing [] ∧ (sending redGoing).scrimOpen 0 0 = true
      ∧ (sending redGoing).siteOf 0 = 0
      ∧ Reaches (sending redGoing) 0 (redColl (redOf (redD 0 2 0x1FFFF8)) [0, 1]) (redColl (redOf (redD 0 2 0x1FFFF8)) [0, 1])
      ∧ (sending redGoing).descSet (redD 0 2 0x1FFFF8) = some [0, 1] ∧ (sending redGoing).failed 1 = false)
    ∧ (OnItsWay (sending redGoing [] [] [redOther]) 0 redGoing []
      ∧ Reaches (sending redGoing [] [] [redOther]) 0 (redColl (redOf (redD 0 2 0x1FFFF8)) [0, 1]) redOther
      ∧ (∀ n ∈ redOther.set, n ≠ 0 → (sending redGoing [] [] [redOther]).failed n = false ∧ n ∈ redOther.arrived)
      ∧ (sending redGoing [] [] [redOther]).redCheck 0 (redD 0 2 0x1FFFF8) = none ∧ redOther.terms.lookup 0 = none
      ∧ (sending redGoing [] [] [redOther]).accepts 0 = true)
    ∧ (let k := { redOther with fmt := 1 };
      OnItsWay (sending redGoing [] [] [k]) 0 redGoing [] ∧ (sending redGoing [] [] [k]).coll 0 63 = some k
        ∧ k.dest = 0 ∧ k.rid = 63 ∧ k.mismatch = false ∧ k.dead = false ∧ k.fmt ≠ (redOf (redD 0 2 0)).fmt
        ∧ (sending redGoing [] [] [k]).scrimOpen ((sending redGoing [] [] [k]).siteOf 0) 0 = true) :=
  ⟨⟨sending_front _, by decide +kernel⟩,
    ⟨⟨rfl, rfl, rfl, rfl, by decide +kernel, by decide, by decide +kernel⟩, by decide +kernel, by decide +kernel,
      ⟨.inr (by decide +kernel), by decide +kernel⟩, by decide +kernel, by decide +kernel⟩,
    ⟨⟨rfl, rfl, rfl, rfl, by decide +kernel, by decide, by decide +kernel⟩, ⟨.inl (by decide +kernel), by decide +kernel⟩,
      by decide +kernel, by decide +kernel, by decide +kernel⟩,
    ⟨rfl, rfl, rfl, rfl, by decide +kernel, by decide, by decide +kernel⟩, by decide +kernel⟩

/-- SCR.BAR of LC0 and LC1 with RID 63. -/
def barD : Desc := desc [1, 3, 0, 0, 0x3F00]

/-- LC0's arrival on its way, behind a store. -/
def barGoing : UEntry := { entry (.scrBar fullF) [barD] with begun := true, storeMark := 1 }

/-- The barrier released. -/
def barOpen : Coll := { barColl [0, 1] 63 with arrived := [1, 0], released := true }

theorem wit_BarriersAndTimeouts :
    ((∀ d cs, AtFront (sending (entry (.scrBar fullF) [d]) cs) 0 .scrim (entry (.scrBar fullF) [d]))
      ∧ fld (dword (desc [1, 3, 0, 0, 1]) 4) 0 8 ≠ 0 ∧ fld (dword (desc [1, 3, 0, 0, 0x4000]) 4) 14 50 ≠ 0
      ∧ (sending barGoing).descSet (desc [1, 2]) = some [1]
      ∧ (sending barGoing).descSet barD = some [0, 1] ∧ (sending barGoing).coll 0 63 = none
      ∧ (let k := { barColl [0, 1] 63 with mismatch := true };
        let b := { barGoing with storeMark := 0 };
        (sending b [(1, { Core.zero with scrQ := [b] })] [] [k]).coll 0 63 = some k
          ∧ k.mismatch = true))
    ∧ (OnItsWay (sending barGoing) 0 barGoing [] ∧ Reaches (sending barGoing) 0 (barColl [0, 1] 63) (barColl [0, 1] 63)
      ∧ (sending barGoing).scrimOpen ((sending barGoing).siteOf 0) ((sending barGoing).siteOf 0) = true
      ∧ ((sending barGoing).core 0).stores = [] ∧ (sending barGoing).failed 1 = false
      ∧ (setHas ((sending barGoing).core 0).lost (unitNum .scrim) = false ∧ barGoing.lost = false
        ∧ (sending barGoing).orphaned 0 = false)
      ∧ setHas ((losing (sending barGoing) .scrim).core 0).lost (unitNum .scrim) = true
      ∧ OnItsWay (losing (sending barGoing) .scrim) 0 barGoing []
      ∧ OnItsWay (sending { barGoing with lost := true }) 0 { barGoing with lost := true } []
      ∧ OnItsWay (stray (sending barGoing)) 0 barGoing [] ∧ (stray (sending barGoing)).orphaned 0 = true
      ∧ ∃ p ∈ ((with0 (sending barGoing) fun c => { c with stores := [store1] }).core 0).stores, p.id < barGoing.storeMark)
    ∧ (let s := sending barGoing [] [] [barOpen];
      s.colls.find? (fun c => c.released && c.arrived.contains 0 && !(c.terms.map fun t => t.1).contains 0) = some barOpen
        ∧ (s.core 0).scrQ = [barGoing] ∧ s.ofColl barOpen.dest barOpen.rid barGoing = true ∧ s.windowOpen 0 = false
        ∧ s.scrimOpen 0 0 = true ∧ s.clocked 0 = true ∧ (s.setSite 0 { Site.zero with win := .open }).windowOpen 0 = true)
    ∧ (let s := sending redGoing;
      s.collKey redGoing = some (0, 63, false) ∧ s.collKey barGoing = some (0, 63, true) ∧ 1 < (redOf (redD 0 2 0)).len) :=
  ⟨⟨sending_front _, by decide +kernel⟩,
    ⟨⟨rfl, rfl, rfl, rfl, by decide +kernel, by decide, by decide +kernel⟩, ⟨.inr (by decide +kernel), by decide +kernel⟩,
      by decide +kernel, rfl, by decide +kernel, by decide +kernel, by decide +kernel,
      ⟨rfl, rfl, rfl, rfl, by decide +kernel, by decide, by decide +kernel⟩,
      ⟨rfl, rfl, rfl, rfl, by decide +kernel, by decide, by decide +kernel⟩,
      ⟨rfl, rfl, rfl, rfl, by decide +kernel, by decide, by decide +kernel⟩, by decide +kernel,
      ⟨store1, List.mem_singleton.mpr rfl, by decide⟩⟩, by decide +kernel,
    by decide +kernel⟩

/-- SCR.FLAG on a word: an operation and a release. -/
def flagD (addr opRel : Nat) : Desc := desc [BitVec.ofNat 64 addr, 5, BitVec.ofNat 64 opRel]

/-- SCR.FLAG on a word of a device's local address, in the global form. -/
def flagG (dev addr opRel : Nat) : Desc := flagD (2 ^ 63 + dev * 2 ^ 44 + addr) opRel

/-- LC0's flag operation at the front of its port, Kerit traffic enabled or not, device 17 of 4,096, the state of port 3. -/
def flagging (e : UEntry) (en : Bool := true) (port : Nat := 2) : State :=
  sending e [] [(.klkCtrl, if en then 1 else 0), (.klkIdent, BitVec.ofNat 64 (17 + 4 * 2 ^ 24 + 4096 * 2 ^ 32 + 2 ^ 45)),
    (.klkStatus 15, BitVec.ofNat 64 port)]

theorem flagging_front (e : UEntry) (en : Bool) (port : Nat) (h : (flagging e en port).clocked 0 = true)
    (x : e.started = true ∧ e.begun = false ∧ e.fin = none) : AtFront (flagging e en port) 0 .scrim e :=
  ⟨by decide, h, [], rfl, x⟩

/-- The release of a flag toward device 18. -/
def relG : UEntry := { entry (.scrFlag fullF) [flagG 18 0x101005FFFF8 5] with storeMark := 1 }

theorem wit_FlagsRemoteAccessesAndSeam :
    (∀ d cs, AtFront (sending (entry (.scrFlag fullF) [d]) cs) 0 .scrim (entry (.scrFlag fullF) [d]))
    ∧ (∀ op, op < 4 → fld (dword (flagD 0x101005FFFF8 (op + 4)) 2) 0 2 = op
      ∧ fld (dword (flagD 0x101005FFFF8 (op + 4)) 0) 44 20 = 0 ∧ fld (dword (flagD 0x101005FFFF8 (op + 4)) 2) 3 61 = 0
      ∧ bitAt (dword (flagD 0x101005FFFF8 (op + 4)) 2) 2 = true)
    ∧ (fld (dword (flagD 0x101005FFFF8 0) 0) 0 56 = 0x10100000000 + 1 * 0x400000 + 0x1FFFF8
      ∧ fld (dword (flagD 0x101005FFFFC 0) 0) 0 56 % 8 ≠ 0 ∧ (sending redGoing).failed 1 = false
      ∧ 1 < (sending redGoing).inForce ∧ (sending redGoing).reaches 0 (.hawk 1 0) = true ∧ (sending redGoing).orphaned 0 = false
      ∧ setHas ((sending redGoing).core 0).lost (unitNum .scrim) = false ∧ redGoing.lost = false
      ∧ ∃ p ∈ ((stored (sending redGoing)).core 0).stores, p.id < 1)
    ∧ ((sending redGoing).inForce ≤ 2 ∧ ((sending redGoing [] [(.mcLc 1, 0x10101)]).failed 1 = true)
      ∧ setHas ((losing (sending redGoing) .scrim).core 0).lost (unitNum .scrim) = true
      ∧ (stray (sending redGoing)).orphaned 0 = true
      ∧ (let d := flagG 17 0x101005FFFF8 1;
        bitAt (dword d 0) 63 = true ∧ fld (dword d 0) 44 12 = (flagging (entry (.scrFlag fullF) [d])).devnum
          ∧ fld (dword d 0) 0 44 = 0x10100000000 + 1 * 0x400000 + 0x1FFFF8))
    ∧ (AtFront (flagging relG) 0 .scrim relG ∧ AtFront (flagging relG false) 0 .scrim relG
      ∧ AtFront (flagging relG true 4) 0 .scrim relG ∧ AtFront (flagging { relG with lost := true }) 0 .scrim { relG with lost := true })
    ∧ (let d := flagG 18 0x101005FFFF8 5;
      relG.ds.headD 0 = d ∧ fld (dword d 0) 56 7 = 0 ∧ fld (dword d 2) 3 61 = 0 ∧ bitAt (dword d 0) 63 = true
        ∧ fld (dword d 0) 44 12 = 18 ∧ (flagging relG).devnum = 17 ∧ fld (dword d 2) 0 2 = 1 ∧ bitAt (dword d 2) 2 = true
        ∧ (flagging relG).rf .klkCtrl 0 1 = 1 ∧ devOk ((flagging relG).reg .klkIdent) 18 = true
        ∧ (flagging relG false).rf .klkCtrl 0 1 = 0
        ∧ fld (dword d 0) 0 44 = 0x10100000000 + 1 * 0x400000 + 0x1FFFF8 ∧ fld (dword (flagG 18 0x101005FFFFC 5) 0) 0 44 % 8 ≠ 0
        ∧ ((flagging relG).core 0).stores = [] ∧ (flagging relG).orphaned 0 = false
        ∧ setHas ((flagging relG).core 0).lost (unitNum .scrim) = false ∧ relG.lost = false
        ∧ setHas ((losing (flagging relG) .scrim).core 0).lost (unitNum .scrim) = true
        ∧ (stray (flagging relG)).orphaned 0 = true ∧ store1.id < relG.storeMark
        ∧ ((stored (flagging relG)).core 0).stores = [store1]
        ∧ (flagging relG).portDown 18 0 (fld (dword d 0) 0 44) = false
        ∧ (flagging relG true 4).portDown 18 0 (fld (dword d 0) 0 44) = true)
    ∧ (let l : Load := ⟨.x 31 .ld, false, 0x1000, 0, 0x101005FFFF8, 0, none, false, none⟩;
      let s := with0 (at0 .fence) (fun c => { c with loads := [l] });
      (s.core 0).loads[0]? = some l ∧ l.data = none ∧ s.resolve (some 0) l.addr = .hawk 1 (hawkKey 1 0x1FFFF8)
        ∧ (l.addr % 256) + l.dst.size ≤ 256 ∧ s.loadBlocked 0 0 l = false
        ∧ s.reaches 0 (.hawk 1 (hawkKey 1 0x1FFFF8)) = true)
    ∧ (let s := stored (at0 .fence);
      (s.core 0).stores[0]? = some store1 ∧ s.reaches 0 (.hawk 1 (hawkKey 1 0)) = true ∧ (s.core 0).stall = .none
        ∧ s.resolve (some 0) store1.addr = .hawk 1 (hawkKey 1 0)
        ∧ s.storeBlocked 0 store1.id store1.addr store1.bytes.length = false)
    ∧ (let h : HalfS := ⟨none, true, true, false, false, 0⟩;
      ((at0 .fence).setHalf .east { h with routers := false }).half .east = { h with routers := false }
        ∧ (((at0 .fence).setHalf .west { h with stopped := true }).half .west).stopped = true
        ∧ ((at0 .fence).setHalf .west { h with waiting := true, stopped := false }).half .west = { h with waiting := true, stopped := false }
        ∧ (at0 .fence).rcMib = 0)
    ∧ ((at0 .fence).resolve none (0x101005FFF00 + 255) = .hawk 1 (hawkKey 1 0x1FFFFF)) :=
  ⟨sending_front _, by decide +kernel, ⟨by decide +kernel, by decide +kernel, by decide +kernel, by decide +kernel,
    by decide +kernel, by decide +kernel, by decide +kernel, by decide +kernel, ⟨store1, List.mem_singleton.mpr rfl, by decide⟩⟩,
    by decide +kernel,
    ⟨flagging_front _ _ _ (by decide +kernel) (by decide), flagging_front _ _ _ (by decide +kernel) (by decide),
      flagging_front _ _ _ (by decide +kernel) (by decide), flagging_front _ _ _ (by decide +kernel) (by decide)⟩,
    by decide +kernel, by decide +kernel, by decide +kernel, by decide +kernel, by decide +kernel⟩

/-- Kerit traffic enabled and locked: KLK_IDENT, the state of every listed port, further fields. -/
def linked (ident : Word) (ps : List (Nat × Nat × Port)) (tx : FMap TxFlow := []) (rx : FMap RxFlow := [])
    (cs : FMap Core := []) : State :=
  let s := dev cs ([(.klkCtrl, 0x10001), (.klkIdent, ident), (.klkCfg, 0xFFFF08000064)]
    ++ ps.map fun x => (.klkStatus x.1, BitVec.ofNat 64 (x.2.1 + 0xFF * 2 ^ 16)));
  { s with ports := ps.map fun x => (x.1, x.2.2), tx := tx, rx := rx }

/-- KLK_IDENT of device 17 in panels of 4, 4,096 devices; and of device 17 in a cabled module. -/
def panel4 : Word := BitVec.ofNat 64 (17 + 4 * 2 ^ 24 + 4096 * 2 ^ 32)
def cabled : Word := BitVec.ofNat 64 (17 + 4 * 2 ^ 24 + 4096 * 2 ^ 32 + 2 ^ 45)

/-- A PUT of one byte from device 18 to LC1's hawk, at FSEQ 5 of epoch 0. -/
def putP (addr : Nat) : Packet := ⟨18, 17, 0, 3, 0, 5, 1, BitVec.ofNat 64 addr, 0, [7]⟩

/-- A frame with its CRC. -/
def withCrc (f : Frame) : Frame := { f with crc := Frame.crcOf f }

theorem withCrc_good (f : Frame) : (withCrc f).crc = Frame.crcOf (withCrc f) := by
  simp only [withCrc, Frame.crcOf, Frame.header]

/-- A frame of a type: PSEQ 65,535, ACK 9, 3 uncorrectable codewords, a margin of 20. -/
def frameOf (typ : BitVec 4) (flit : List Byte) : Frame := withCrc ⟨65535, 9, 1, 1, 1, typ, 0, true, true, flit, 0, false, 3, 20⟩

/-- The DATA frame of the PUT. -/
def putFrame : Frame := frameOf 1 ((putP 0x10100400000).bytes ++ List.replicate 223 0)

/-- A message for the MC of device 17 at FSEQ n of its channel, and its DATA frame. -/
def mgtP (n : BitVec 32) : Packet := ⟨18, 17, 0, 3, 0, n, 1, 0, 0, [7]⟩
def mgtFrame (n : BitVec 32) : Frame :=
  withCrc ⟨65535, 9, 1, 1, 1, 1, 2, true, true, (mgtP n).bytes ++ List.replicate 223 0, 0, false, 3, 20⟩

/-- A port with frames sent and not acknowledged. -/
def waitingPort (replays : Nat) : Port := { Port.zero with replay := [putFrame, { putFrame with pseq := 0 }], replays := replays }

theorem wit_KeritFrames :
    (putFrame.crc = Frame.crcOf putFrame ∧ (frameOf 2 []).crc = Frame.crcOf (frameOf 2 [])
      ∧ (withCrc { frameOf 0 [] with ack := 0 }).crc = Frame.crcOf (withCrc { frameOf 0 [] with ack := 0 }))
    ∧ (let s := linked cabled [(15, 2, { Port.zero with expect := 65535 })];
      FrameCmd 15 putFrame (.dataFrame 15 putFrame) ∧ FrameCmd 15 (frameOf 2 []) (.nakFrame 15 (frameOf 2 []) 0)
        ∧ FrameCmd 15 (frameOf 0 []) (.idleFrame 15 (frameOf 0 []) none) ∧
      s.carries 15 = true ∧ putFrame.typ = 1 ∧ putFrame.flit.length = 256 ∧ putFrame.marked = false
        ∧ putFrame.pseq = (s.port 15).expect ∧ (s.port 15).sendQ = [] ∧ s.tx = []
        ∧ (linked cabled [(15, 2, Port.zero)]).carries 15 = true ∧ putFrame.pseq ≠ Port.zero.expect
        ∧ ({ putFrame with marked := true } : Frame).marked ≠ false
        ∧ putFrame.sop = true ∧ putFrame.eop = true ∧ putFrame.vc = 0 ∧ Packet.okForm (packetOf putFrame.flit) = true
        ∧ packetOf putFrame.flit = putP 0x10100400000 ∧ (putP 0).op.toNat < 3 ∧ 32 + (putP 0).data.length ≤ 256)
    ∧ (let s := linked cabled [(15, 2, { Port.zero with expect := 65535 })] [] [(flowKey 18 2 3, ⟨0, 5⟩)];
      s.carries 15 = true ∧ (mgtP 5).dstDev.toNat = s.devnum ∧ (mapGet s.rx (flowKey 18 2 3) ⟨0, 0⟩).expect = (mgtP 5).fseq.toNat
        ∧ (mapGet s.rx (flowKey 18 2 3) ⟨0, 0⟩).expect ≠ (mgtP 4).fseq.toNat
        ∧ ∀ n, n = 4 ∨ n = 5 → let f := mgtFrame n;
          f.flit.length = 256 ∧ f.pseq = (s.port 15).expect ∧ packetOf f.flit = mgtP n ∧ Packet.okForm (mgtP n) = true
            ∧ f.sop = true ∧ f.eop = true ∧ f.vc = 2 ∧ f.crc = Frame.crcOf f)
    ∧ (let s := linked cabled [(15, 2, { waitingPort 6 with expect := 65535 })];
      let f := frameOf 2 [];
      s.carries 15 = true ∧ f.typ = 2 ∧ f.marked = false ∧ f.pseq = (s.port 15).expect
        ∧ (∀ g ∈ (s.port 15).replay, g.pseq ≠ f.ack)
        ∧ (s.port 15).replay.findIdx? (fun g => g.pseq.toNat == 65535) = some 0
        ∧ (s.port 15).replays + 1 < s.rf .klkCfg 24 8
        ∧ (s.port 15).replay.findIdx? (fun g => g.pseq.toNat == 0) = some 1
        ∧ 8 ≤ ((linked cabled [(15, 2, waitingPort 7)]).port 15).replays + 1)
    ∧ (let s := linked cabled [(15, 2, { waitingPort 0 with expect := 65535 })];
      let f := withCrc { frameOf 0 [] with ack := 0 };
      s.portState 15 = 2 ∧ f.typ = 0 ∧ f.marked = false ∧ f.pseq = (s.port 15).expect ∧ (s.port 15).sendQ = [] ∧ s.tx = []
        ∧ (s.port 15).replay.findIdx? (fun g => g.pseq == f.ack) = some 1) :=
  ⟨⟨withCrc_good _, withCrc_good _, withCrc_good _⟩, ⟨.inl ⟨rfl, rfl, by decide +kernel⟩, .inr (.inl ⟨⟨_, rfl⟩, rfl⟩),
    .inr (.inr ⟨⟨_, rfl⟩, rfl⟩), by decide +kernel⟩, ⟨by decide +kernel, by decide +kernel, by decide +kernel, by decide +kernel, by
      rintro n (rfl | rfl) <;> exact ⟨by decide +kernel, by decide +kernel, by decide +kernel, by decide +kernel, rfl, rfl, rfl,
        withCrc_good _⟩⟩, by decide +kernel, by decide +kernel⟩

/-- A snag-list entry of port 15, as a whole or one lane. -/
def snagOf (lane : Nat) (whole : Bool) : Snag :=
  let e : Snag := ⟨9, 1, 0, locPort 15 lane whole, 0, 0, 0⟩
  { e with crc := crc32 (e.bytes.take 28) }

/-- A state whose snag list holds an entry. -/
def snagList (s : State) (e : Snag) : State := { s with flash := { s.flash with snag := [e], starts := 2 } }

theorem wit_KeritTraining :
    (let s := linked panel4 [(0, 1, Port.zero)];
      s.portState 0 = 1 ∧ s.rf .klkCfg (32 + 0) 1 = 1 ∧ 2 ≤ s.rf .klkIdent 24 5
        ∧ (0 < 15 / 3 * 3 ∧ (18 : BitVec 12).toNat = 17 / 16 * 16 + (17 % 16 + 0 % 3 + 1) % 4
          ∧ (2 : BitVec 4).toNat = 0 / 3 * 3 + (4 - 2 - 0 % 3)) ∧ (s.port 0).peer = none ∧ s.portGone 0 = false ∧ s.portGood 0 = 0xFF)
    ∧ (snagList (linked panel4 [(15, 1, Port.zero)]) (snagOf 7 false)).portGood 15 = 0x7F
    ∧ (snagList (linked panel4 [(15, 1, Port.zero)]) (snagOf 0 true)).portGone 15 = true
    ∧ (linked panel4 [(15, 3, Port.zero)]).portState 15 = 3
    ∧ ((linked panel4 [(15, 1, { Port.zero with peer := some (1, 1) })]).port 15).peer = some (1, 1)
    ∧ (let s := ((linked panel4 [(15, 2, waitingPort 0)]).setReg .klkCtrl 0).setReg .mcStart 0x100000000;
      s.loaded = true ∧ s.sec.recovery = false
        ∧ s.rf .klkCtrl 16 1 = 0 ∧ s.portState 15 ≠ 0 ∧ bitAt (0x7FFF08000064 : Word) (32 + 15) = false
        ∧ bitAt (0xFFFF08000064 : Word) (32 + 15) = true)
    ∧ ((linked panel4 [(0, 3, { Port.zero with peer := some (18, 2) })]).portState 0 = 3)
    ∧ (let s := (linked panel4 [(15, 1, Port.zero)]).setReg .klkCfg 0x7FFF08000064;
      s.portState 15 = 1 ∧ s.rf .klkCfg (32 + 15) 1 = 0)
    ∧ ((linked panel4 [(15, 2, { Port.zero with peer := some (1, 1) })]).portState 15 = 2)
    ∧ (let s := dev [] [(.klkIdent, panel4), (.mcStart, 0x100)];
      s.sec.recovery = false ∧ s.rf .klkCtrl 0 1 = 0 ∧ s.rf .mcStart 8 1 = 1 ∧ s.rf .pwrState 12 1 = 0
        ∧ (s.setReg .pwrState 0x1000).rf .pwrState 12 1 = 1 ∧ fld panel4 0 12 < fld panel4 32 13
        ∧ fld panel4 0 12 % 16 < fld panel4 24 5)
    ∧ (let s := dev [] [(.klkCtrl, 1)];
      s.rf .klkCtrl 0 1 = 1 ∧ s.rf .klkCtrl 16 1 = 0)
    ∧ (let s := linked cabled [(15, 2, Port.zero)];
      s.portState 15 = 2 ∧ s.rf (.klkStatus 15) 16 8 = 0xFF ∧ (s.port 15).sendQ = [] ∧ (s.port 15).replay = []
        ∧ (s.port 15).quiet = false ∧ s.rf .finish 4 2 ≠ 2 ∧ (s.setReg .finish 0x20).rf .finish 4 2 = 2)
    ∧ (let s := linked cabled [(15, 2, { Port.zero with quiet := true, sendQ := [putFrame] })];
      (s.port 15).quiet = true ∧ (s.port 15).waking = false ∧ (s.port 15).sendQ ≠ [])
    ∧ (let s := linked cabled [(15, 2, { Port.zero with quiet := true, waking := true })];
      (s.port 15).quiet = true ∧ (s.port 15).waking = true) := by decide +kernel

/-- A packet has arrived at port 15; receive flow 18 of its virtual channel stands at FSEQ n. -/
def took (p : Packet) (n : Nat) (tx : FMap TxFlow := []) (cs : FMap Core := []) : State :=
  linked cabled [(15, 2, { Port.zero with arrived := [p] })] tx [(flowKey 18 (Packet.vc p) 3, ⟨0, n⟩)] cs

/-- A flow toward device 18 that holds one packet. -/
def flow18 (u : Unacked) : TxFlow := ⟨18, 0, 3, 3, none, 1, [u], [], []⟩

/-- A FLAG of LC0's Scrim port, unacknowledged at FSEQ 0. -/
def sentFlag : Unacked := ⟨⟨17, 18, 1, 3, 0, 0, 0, 0x10100400000, 1, []⟩, 0, some .scrim, 0⟩

/-- A READ of 8 bytes of LC0's Mover. -/
def sentRead : Unacked := ⟨⟨17, 18, 2, 3, 0, 0, 8, 0x10100400000, 0, []⟩, 0, some .mover, 0⟩

/-- The entry that awaits it. -/
def awaiting (u : UOp) (more : List Nat := []) (prog : Nat := 0) : UEntry :=
  { entry u [0] with begun := true, await := awaitKey (flowKey 18 0 3) 0 :: more, prog := prog }

theorem wit_RemotePackets :
    ([(putP 0x10100400000, 4), (putP 0x10100400000, 5), (putP 0x10100400000, 6), (putP 0x30000000000, 5)].all (fun x : Packet × Nat =>
      (took x.1 x.2).rf .klkCtrl 0 1 == 1 && ((took x.1 x.2).port 15).arrived == [x.1]
        && x.1.dstDev.toNat == (took x.1 x.2).devnum && x.1.okForm) = true)
    ∧ ((took (putP 0x10100400000) 5).resolve none (fld (putP 0x10100400000).addr 0 44) = .hawk 1 (hawkKey 1 0)
      ∧ free (took (putP 0x10100400000) 5) ((took (putP 0x10100400000) 5).siteOf 1) .up = true
      ∧ free (took (putP 0x10100400000) 5) ((took (putP 0x10100400000) 5).siteOf 1) .down = true
      ∧ (took (putP 0x10100400000) 5).rf .pwrState 12 1 = 0
      ∧ ((took (putP 0x10100400000) 5).setSite 1 { Site.zero with win := .open }).siteWindow ((took (putP 0) 5).siteOf 1) = true
      ∧ (took (putP 0x30000000000) 5).resolve none (fld (putP 0x30000000000).addr 0 44) = .unmapped
      ∧ (took (putP 0) 5).rxEntry (putP 0) = ⟨(putP 0).epoch, (putP 0).fseq.toNat⟩
      ∧ (putP 0).fseq.toNat < ((took (putP 0) 6).rxEntry (putP 0)).expect
      ∧ ((took (putP 0) 4).rxEntry (putP 0)).expect < (putP 0).fseq.toNat)
    ∧ [(1, []), (2, [])].all (fun x : BitVec 8 × List Byte =>
      let p : Packet := { putP 0x10100400000 with op := x.1, data := x.2, len := 8 };
      (took p 5).rf .klkCtrl 0 1 == 1 && ((took p 5).port 15).arrived == [p] && p.dstDev.toNat == (took p 5).devnum
        && p.okForm && (took p 5).rxEntry p == ⟨p.epoch, p.fseq.toNat⟩ && (took p 5).poison == []
        && (took p 5).resolve none (fld p.addr 0 44) == .hawk 1 (hawkKey 1 0)) = true
    ∧ (let p : Packet := { putP 0 with op := 4, len := 0, data := [] };
      let e := awaiting (.scrFlag fullF);
      let s := took p 5 [(flowKey 18 0 3, flow18 sentFlag)] [(0, { coreAt .fence with scrQ := [e] })];
      s.rf .klkCtrl 0 1 = 1 ∧ (s.port 15).arrived = [p] ∧ p.dstDev.toNat = s.devnum ∧ p.okForm = true
        ∧ s.rxEntry p = ⟨p.epoch, p.fseq.toNat⟩ ∧ s.tx.all (fun x => x.2.held.isEmpty) = true ∧ fld p.aux 32 8 = 0
        ∧ mapGet? s.tx (flowKey p.srcDev.toNat 0 p.stripe.toNat) = some (flow18 sentFlag) ∧ fld p.aux 0 32 = 0
        ∧ (s.core 0).scrQ = [e] ∧ e.await = [awaitKey (flowKey p.srcDev.toNat 0 p.stripe.toNat) 0])
    ∧ (let p : Packet := { putP 0 with op := 3, len := 8, data := [1, 2, 3, 4, 5, 6, 7, 8] };
      let e := awaiting (.movBlk fullF) [1];
      let s := took p 5 [(flowKey 18 0 3, flow18 sentRead)] [(0, { coreAt .fence with movQ := [e] })];
      s.rf .klkCtrl 0 1 = 1 ∧ (s.port 15).arrived = [p] ∧ p.dstDev.toNat = s.devnum ∧ p.okForm = true
        ∧ s.rxEntry p = ⟨p.epoch, p.fseq.toNat⟩ ∧ p.len = sentRead.pkt.len ∧ (s.core 0).movQ = [e]
        ∧ e.await = [awaitKey (flowKey p.srcDev.toNat 0 p.stripe.toNat) 0, 1]
        ∧ e.started = true ∧ e.begun = true ∧ bitAt p.aux 63 = false ∧ fld p.aux 32 8 = 0 ∧ (s.core 0).stall = .none
        ∧ awaitKey (flowKey p.srcDev.toNat 0 p.stripe.toNat) 0 ∉ [1]) :=
  ⟨by decide +kernel, by decide +kernel, by decide +kernel, by decide +kernel, by decide +kernel⟩

theorem wit_KeritFailoverAndBroadcast :
    (let s := linked cabled [(3, 3, Port.zero), (4, 2, Port.zero)] [(7, flow18 sentFlag)];
      mapGet? s.tx 7 = some (flow18 sentFlag) ∧ s.rf .klkIdent 45 1 = 1 ∧ s.portState 3 = 3 ∧ s.portState 4 = 2)
    ∧ (let s := linked cabled [(3, 3, Port.zero)] [(flowKey 18 0 3, flow18 sentFlag)] []
        [(0, { coreAt .fence with scrQ := [awaiting (.scrFlag fullF)] })];
      (∀ p, p < 16 → p ≠ 3 → s.portState p ≠ 2) ∧ (flow18 sentFlag).held = [] ∧ s.tx.length = 1
        ∧ (s.core 0).scrQ = [awaiting (.scrFlag fullF)])
    ∧ (let f : TxFlow := { flow18 sentFlag with port := 4, unacked := [] };
      let s := linked cabled [(3, 2, Port.zero)] [(7, f)];
      mapGet? s.tx 7 = some f ∧ f.port ≠ f.stripe ∧ s.portState f.stripe = 2)
    ∧ (let s := linked cabled [(3, 2, Port.zero)] [(flowKey 18 0 3, flow18 sentFlag)] []
        [(0, { coreAt .fence with scrQ := [awaiting (.scrFlag fullF)] })];
      (flowKey 18 0 3, flow18 sentFlag) ∈ s.tx ∧ s.portState 3 = 2 ∧ sentFlag ∈ (flow18 sentFlag).unacked
        ∧ flowKey 18 0 3 < 2 ^ 20 ∧ (s.core 0).q .scrim = [awaiting (.scrFlag fullF)])
    ∧ (let s := linked cabled [(3, 2, Port.zero)] [(flowKey 18 0 3, flow18 sentRead)] []
        [(0, { coreAt .fence with movQ := [awaiting (.movBlk fullF) [] 2] })];
      (flowKey 18 0 3, flow18 sentRead) ∈ s.tx ∧ (s.core 0).q .mover = [awaiting (.movBlk fullF) [] 2])
    ∧ (panel4.toNat % 16 ≠ 0 ∧ (linked panel4 []).rf .klkIdent 45 1 = 0 ∧ (linked panel4 []).rf .klkIdent 0 4 ≠ 0
      ∧ (linked panel4 []).sec.fwCmd = none ∧ (linked panel4 []).sec.recovery = false
      ∧ (let s := { linked panel4 [] with sec := { Sec.zero with fwCmd := some ⟨1, false, 0, 0, 0⟩ } };
        s.sec.fwCmd ≠ none ∧ s.rf .klkIdent 45 1 = 0))
    ∧ (let x : Sec := { Sec.zero with bankB := ⟨factoryImage, true⟩, fwStep := 2 };
      (x.bank (!x.activeB)).valid = true ∧ (x.bank (!x.activeB)).image = factoryImage ∧ x.fwStep = 2)
    ∧ imageCheck (linked panel4 []).otp factoryImage = 1
    ∧ imageCheck (linked panel4 []).otp [] ≠ 1
    ∧ setHas (setAdd [] 15) 15 = true :=
  ⟨by decide +kernel, by decide +kernel, by decide +kernel, by decide +kernel, by decide +kernel, by decide +kernel,
    ⟨rfl, rfl, rfl⟩, imageCheck_factoryImage, by decide +kernel, by decide +kernel⟩

/-- A READY device with registers. -/
def ready (rs : List (Reg × Word) := []) (cs : FMap Core := []) : State := dev cs ([(.mcStart, 0x100000100)] ++ rs)

theorem wit_HostReadsAndWrites :
    (let s := ready;
      s.barsOpen = true ∧ (2 ^ 31 + 0x5FFFF8) % 64 + 8 ≤ 64
        ∧ s.resolve none (0x10100000000 + (2 ^ 31 + 0x5FFFF8 - 2 ^ 31)) = .hawk 1 (hawkKey 1 0x1FFFF8)
        ∧ s.runPoisoned (hawkKey 1 0x1FFFF8 / 64 * 64) 64 = false
        ∧ (s.poisonGran (hawkKey 1 0x1FFFF8)).runPoisoned (hawkKey 1 0x1FFFF8 / 64 * 64) 64 = true
        ∧ free s (s.siteOf 1) .down = true ∧ free s (s.siteOf 1) .up = true ∧ s.accepts 1 = true)
    ∧ (let s : State := { ready with slices := [0] };
      s.barsOpen = true ∧ (0x2FFFF8 : Nat) % 64 + 8 ≤ 64 ∧ s.resolve none (0x10000000000 + 0x2FFFF8) = .hod (hodKey 0 12287 248)
        ∧ s.runPoisoned (hodKey 0 12287 248 / 64 * 64) 64 = false
        ∧ (s.poisonGran (hodKey 0 12287 248)).runPoisoned (hodKey 0 12287 248 / 64 * 64) 64 = true)
    ∧ (let s := ready;
      let p := ilvToPlumb (s.rf .pciBar2 0 39 / s.bar2Size * s.bar2Size + (2 ^ 30 - 64));
      s.rcMib = 0 ∧ 2 ^ 30 - 64 < s.bar2Size ∧ (2 ^ 30 - 64) % 64 + 64 ≤ 64 ∧ s.rf (.rndCh (chanOf p)) 0 1 = 0
        ∧ s.bankHeld p = false ∧ s.poisoned p = false)
    ∧ (regAt (lathBase + 0x800) = some .klkIdent ∧ (ready).sec.recovery = false
      ∧ (List.range 313).all (fun b => lathBase + 0x800 != (Reg.lathOvf b).addr
        && (List.range 8).all fun i => lathBase + 0x800 != (Reg.lathCnt b i).addr) = true)
    ∧ (let s := ready [(.mcLc 1, 0x10101)];
      (0x203FFF8 - 0x2000000) / 0x20000 = 1 ∧ 1 < s.inForce ∧ s.failed 1 = true ∧ 0x203FFF8 % 64 + 8 ≤ 64
        ∧ 0x203FFF8 % 0x20000 + 8 ≤ 0x20000)
    ∧ (dev []).barsOpen = false
    ∧ (regAt (Reg.errMask).addr = some .errMask ∧ (ready).mayWrite .host .errMask = true
      ∧ (ready).resolve none (Reg.errMask).addr = .reg (Reg.errMask).addr ∧ Loc.coreOf (.reg (Reg.errMask).addr) = none)
    ∧ ((ready).accepts 1 = true ∧ Loc.coreOf (.reg (Reg.pmuEvsel 1 7).addr) = some 1
      ∧ (ready).mayWrite .host (.pmuEvsel 1 7) = true
      ∧ (ready).resolve none (Reg.pmuEvsel 1 7).addr = .reg (Reg.pmuEvsel 1 7).addr) := by decide +kernel

theorem wit_PlainReg : PlainReg .errMask := ⟨by decide +kernel, trivial⟩

/-- Launch2 with SEQ 1 and its CHK. -/
def launchBytes : List Byte :=
  let d := launch2.take 248 ++ leBytes 4 1
  let x := (List.range 63).foldl (fun c k => c ^^^ BitVec.ofNat 32 (leNat ((d.drop (4 * k)).take 4))) 0#32
  d ++ leBytes 4 (2 ^ 32 - 1 - x.toNat)

/-- Slot 31 in a state, with a launch; core states, registers. -/
def slotted (st : Nat) (cs : List (Nat × CState)) (rs : List (Reg × Word) := []) : State :=
  { ready ([(.pciSlot 31, BitVec.ofNat 64 (1 + st * 2 ^ 32))] ++ rs)
      (cs.map fun x => (x.1, { Core.zero with st := x.2, exit := some 7 })) with
    slots := [(30, { Slot.zero with launch := some launch2, order := 0 }),
      (31, { Slot.zero with launch := some launch2, order := 1, entered := setAdd (setAdd [] 0) 1 })] }

theorem wit_LaunchSlots :
    ({ ready with sec := { (ready).sec with recovery := true } } : State).sec.recovery = true ∧ (ready).sec.recovery = false
    ∧ (let s := ready [(.pciSlot 31, 1)];
      (s.slotOf 31).written.length + 8 < 256 ∧ ((s.slotOf 31).after 0 launchBytes) = launchBytes
        ∧ s.current 31 launchBytes ∧ ¬ s.current 31 (List.replicate 256 0) ∧ s.rf (.pciSlot 31) 32 2 = 0
        ∧ (ready [(.pciSlot 31, 0x300000001)]).rf (.pciSlot 31) 32 2 ≠ 0
        ∧ s.launchSet launchBytes = some [0, 1] ∧ s.failed 0 = false ∧ s.failed 1 = false
        ∧ (ready [(.mcLc 1, 0x10101)]).launchSet launchBytes = some [0, 1]
        ∧ (ready [(.mcLc 1, 0x10101)]).failed 1 = true ∧ s.launchSet (leBytes 8 0 ++ leBytes 8 0 ++ leBytes 8 1) = none)
    ∧ (let s := slotted 1 [(0, .done)];
      (s.slotOf 31).launch = some launch2 ∧ s.launchSet launch2 = some [0, 1] ∧ s.rf (.pciSlot 31) 32 2 = 1
        ∧ (s.core 0).st = .done ∧ (s.core 1).st = .idle ∧ (s.launchOf 0).isNone = true ∧ (s.launchOf 1).isNone = true ∧ s.failed 0 = false ∧ s.failed 1 = false
        ∧ (∀ j, j < 32 → s.rf (.pciSlot j) 32 2 = 1 → ¬ (s.slotOf j).order < (s.slotOf 31).order)
        ∧ ((slotted 1 [(0, .running)]).core 0).st = .running
        ∧ (slotted 1 [] [(.pciSlot 30, 0x100000001)]).rf (.pciSlot 30) 32 2 = 1
        ∧ ((slotted 1 []).slotOf 30).order < ((slotted 1 []).slotOf 31).order
        ∧ (slotted 1 [] [(.mcLc 1, 0x10101)]).failed 1 = true ∧ (s.slotOf 31).written.length < 256
        ∧ (∀ n, n < 2 → s.halfOff (halfOf (s.siteOf n)) = false ∧ s.rf .pwrState 12 1 = 0 ∧ setHas s.power.pgated n = false)
        ∧ setHas { s with power := { s.power with pgated := setAdd [] 1 } }.power.pgated 1 = true
        ∧ (s.setReg .pwrState 0x1000).rf .pwrState 12 1 = 1)
    ∧ (let s := slotted 2 [(0, .done), (1, .faulted)];
      s.rf (.pciSlot 31) 32 2 = 2 ∧ s.launchSet launch2 = some (0 :: [1]) ∧ (s.core 0).st = .done
        ∧ (s.core 1).st = .faulted ∧ setHas (s.slotOf 31).entered 0 = true ∧ setHas (s.slotOf 31).entered 1 = true
        ∧ ((slotted 2 [(0, .done), (1, .done)]).core 1).st = .done
        ∧ ((slotted 2 [(0, .done), (1, .draining)]).core 1).st = .draining) := by
  unfold State.current
  decide +kernel

theorem wit_FunctionAndModuleResets :
    (at0 .fence).cores.all (fun x => x.2.movQ.isEmpty) = true ∧ (∀ o, o < 12 → mapGet? (at0 .fence).cfg o = none)
    ∧ (let e := { entry (.movBlk fullF) [0] with begun := true, await := [hostKey 0x1FFF 8 64, 5] };
      let s := with0 (at0 .fence) (fun c => { c with movQ := [e] });
      (s.core 0).movQ = [e] ∧ e.started = true ∧ e.fin = none ∧ 0x1FC0 ≤ 0x1FFF ∧ 0x1FFF + 64 ≤ 0x1FC0 + 127
        ∧ ∀ k ∈ [5], ¬ 2 ^ 200 ≤ k)
    ∧ ((at0 .fence).rf .pwrState 12 1 = 0 ∧ (dev [] [(.pwrState, 0x1000)]).rf .pwrState 12 1 = 1
      ∧ (dev [] [(.pwrState, 0x1000)]).power.waking = false
      ∧ { (dev [] [(.pwrState, 0x1000)]).power with waking := true }.waking = true
      ∧ ∀ i, i < 32 → ((at0 .fence).slotOf i).written.length < 256)
    ∧ ((at0 .fence).pins.stage = true ∧ (at0 .fence).pins.aux = true ∧ (at0 .fence).pins.perst = false
      ∧ (at0 .fence).sec.fwCmd = none
      ∧ ({ at0 .fence with pins := { (at0 .fence).pins with aux := false } } : State).pins.aux = false
      ∧ ({ at0 .fence with sec := { Sec.zero with fwCmd := some ⟨4, false, 0, 0, 0⟩ } } : State).sec.fwCmd.isSome = true)
    ∧ ({ at0 .fence with pins := { (at0 .fence).pins with stage := false } } : State).pins.stage = false
    ∧ Memory.wf (at0 .fence).mem = true := by decide +kernel

/-- A spare at site 167. -/
def spare (rs : List (Reg × Word)) (cs : FMap Core := []) : State :=
  ready ([(.vcStatus 167 .up, 0x800), (.vcStatus 167 .down, 0x800)] ++ rs) cs

/-- A snag-list entry of port 15. -/
def snagged : Snag :=
  let e : Snag := ⟨9, 1, 0, locPort 15 0 true, 0, 0, 0⟩
  { e with crc := crc32 (e.bytes.take 28) }

theorem wit_StartsAndRemaps :
    (State.reset.ports = [] ∧ State.reset.startsNow ∧ State.reset.kindOf ≠ 2 ∧ State.reset.snags = [] ∧ ¬ (ready).startsNow)
    ∧ State.reset.pickBank = some false
    ∧ (let s := { State.reset with sec := { State.reset.sec with bankA := ⟨[], false⟩ } };
      s.pickBank = none ∧ s.pins.stage = true)
    ∧ (let s := { State.reset with flash := { State.reset.flash with starts := 1, vcStored := true } };
      s.kindOf = 2)
    ∧ (let f : FoundFault := ⟨9, locPort 15 0 true, 0, true, true⟩;
      (ready).hasSnag f.typ f.loc = false ∧ (ready).flash.snag.length + (ready).flash.badCrc + b2n f.torn < 4096
        ∧ ({ ready with flash := { (ready).flash with snag := [snagged] } } : State).hasSnag f.typ f.loc = true)
    ∧ (let f : FoundFault := ⟨1, locSite 1 5, 0, true, false⟩;
      let s := ready [] [(1, { Core.zero with st := .running })];
      fld f.loc 0 3 ≤ 5 ∧ s.lcAt (fld f.loc 8 8) = some 1 ∧ s.failed 1 = false ∧ (s.core 1).st = .running)
    ∧ ((at0 .fence).sec.scopes / 2 % 4 = 0 ∧ ((3 : Nat) / 2 % 4 ≠ 0) ∧ (ready).sec.recovery = false
      ∧ (ready).ready = true ∧ (dev []).ready = false
      ∧ (ready).rf .pwrState 12 1 = 0 ∧ (ready [(.pwrState, 0x1000)]).rf .pwrState 12 1 = 1)
    ∧ (let s := { spare [(.mcLc 1, 0x10101)] with remaps := [1] };
      s.remaps = 1 :: [] ∧ s.ready = true ∧ s.valid 1 = true ∧ s.failed 1 = true ∧ s.launchNames 1 = false
        ∧ s.freeSites = [167] ∧ (ready [(.mcLc 1, 0x10101)]).freeSites = [] ∧ (ready).failed 1 = false
        ∧ (slotted 1 []).launchNames 1 = true
        ∧ ({ dev [] with remaps := [1] } : State).ready = false) := by
  refine ⟨?_, pickBank_reset, ?_⟩
  · unfold State.startsNow; decide +kernel
  · decide +kernel

/-- A rub-down of the first two hod granules, its summary for LC0's hawk. -/
def rubbing (st : Nat) (len : Nat := 128) : State :=
  { ready [(.rubBase, 0x10000000000), (.rubLen, BitVec.ofNat 64 len), (.rubDest, BitVec.ofNat 64 (0x10100000000 + 2 ^ 48)),
      (.rubCtrl, BitVec.ofNat 64 (st * 2 ^ 40))] with
    slices := [0], rub := { Rub.zero with total := 2, space := 2 } }

theorem rubbing_quiet : (rubbing 1).rubQuiet 0 (hawkKey 0 0) := ⟨rfl, rfl, rfl, by decide +kernel, by decide +kernel⟩

theorem wit_RubDownsAndErrors :
    ((rubbing 0).mayWrite .host .rubCtrl = true ∧ (rubbing 1).rf .rubCtrl 40 8 = 1 ∧ (rubbing 0).rf .rubCtrl 40 8 ≠ 1
      ∧ (rubbing 0).rubRange 2 ((rubbing 0).rf .rubBase 0 44) ((rubbing 0).rf .rubLen 0 44) = some 2
      ∧ (rubbing 0 63).rubRange 2 ((rubbing 0 63).rf .rubBase 0 44) ((rubbing 0 63).rf .rubLen 0 44) = none
      ∧ (rubbing 0 63).rf .rubDest 0 44 % 64 = 0
      ∧ (rubbing 0 63).resolve none ((rubbing 0 63).rf .rubDest 0 44) = .hawk 0 (hawkKey 0 0))
    ∧ (rubbing 1).rubQuiet 0 (hawkKey 0 0) ∧ (rubbing 1).rub.space ≠ 4
    ∧ ((rubbing 1).rubAddr 2 (hodKey 0 0 64) = some 0x10000000040 ∧ 2 ^ 46 ≤ hodKey 0 0 64 ∧ hodKey 0 0 64 < 2 ^ 47
      ∧ (rubbing 1).rubStart + 64 * 0 ≤ 0x10000000040 ∧ 0x10000000040 < (rubbing 1).rubStart + 64 * 2
      ∧ 0 < (rubbing 1).rf .rubDest 48 16 ∧ (rubbing 1).hodPatch = [] ∧ (rubbing 1).rub.pos ≤ (rubbing 1).rub.total)
    ∧ ((ready).mayWrite .host .errStatus = true ∧ (ready).pins.aux = true
      ∧ ({ (ready).pins with aux := false } : Pins).aux = false) :=
  ⟨by decide +kernel, rubbing_quiet, by decide, by decide +kernel, by decide +kernel⟩

/-- MC_FINISH with REQ, CUR and BUSY; the power state; the halves. -/
def finishing (req cur busy : Nat) (p : Power → Power) (h : HalfS := ⟨none, true, false, true, false, 1⟩) : State :=
  let s := ready [(.finish, BitVec.ofNat 64 (req + cur * 2 ^ 4 + busy * 2 ^ 8))]
  { s with power := p s.power, west := h, east := h }

theorem wit_FinishChangesAndPowerStates :
    ((finishing 2 1 0 fun p => { p with reqWaits := true }).power.reqWaits = true
      ∧ (finishing 2 1 0 id).rf .finish 8 1 = 0 ∧ (finishing 2 1 0 id).rf .finish 4 2 = 1
      ∧ (finishing 1 1 0 id).rf .finish 0 2 = 1 ∧ (finishing 0 2 0 id).rf .finish 4 2 = 2
      ∧ (finishing 2 1 1 id).rf .finish 8 1 = 1 ∧ (dev []).ready = false ∧ (ready).sec.recovery = false
      ∧ (ready).loaded = true)
    ∧ (let s := finishing 2 1 1 (fun p => { p with target := 2, step := .lock }) ⟨some 2, false, false, true, false, 1⟩;
      (s.half .west).pll = some 2 ∧ (s.half .west).locked = false ∧ s.rf .finish 4 2 < s.power.target
        ∧ ((s.setHalf .east { s.half .east with locked := true }).half .east).locked = true
        ∧ ¬ (finishing 0 2 1 fun p => { p with target := 0 }).rf .finish 4 2 < 0
        ∧ { s with disarming := List.range 8 }.disarming ≠ [])
    ∧ ((finishing 2 1 1 fun p => { p with target := 2, step := .ramp }).power.step = .ramp
      ∧ (finishing 2 1 1 id).west.locked = true
      ∧ (finishing 0 1 1 fun p => { p with target := 2, step := .rampDown }).power.target ≤ 2)
    ∧ (let s := finishing 2 1 1 (fun p => { p with target := 2, step := .west }) ⟨some 2, true, true, true, false, 1⟩;
      s.west.pll = some 2 ∧ s.west.stopped = true ∧ s.halfOff .west = false ∧ s.halfOff .east = false
        ∧ s.rf .finish 4 2 < s.power.target
        ∧ (finishing 0 1 1 fun p => { p with target := 0 }).power.target ≤ (finishing 0 1 1 id).rf .finish 4 2)
    ∧ (let s := ready [(.pciWake, 3)];
      s.valid 0 = true ∧ (s.core 0).st = .idle ∧ (s.core 0).trwQ = [] ∧ 3 ≤ s.coreTol 0 ∧ s.rf .power 32 1 = 0
        ∧ s.halfOff (halfOf (s.siteOf 0)) = false ∧ (ready).coreTol 0 < 3)
    ∧ (let s := ready [(.pciWake, 60)];
      s.halfOff .west = false ∧ 60 ≤ s.tolerance ∧ s.rf .power 32 1 = 0 ∧ (s.half .west).stopped = false
        ∧ (∀ n, n < 144 → s.valid n = true → (s.core n).st = .idle ∧ s.launchNames n = false)
        ∧ (ready).tolerance < 60)
    ∧ (let s := ready [(.pwrState, 0x100)];
      s.halfOff .west = true ∧ s.rf .pwrState 12 1 = 0 ∧ s.power.step = .none ∧ s.west.stopped = false
        ∧ s.halfOff .east = false)
    ∧ (let s := ready [(.pwrState, 0xF00), (.pciWake, 250000)];
      s.halfOff .west = true ∧ s.halfOff .east = true ∧ 2000 ≤ s.tolerance ∧ s.rf .pwrState 10 1 = 1
        ∧ 8000 ≤ s.tolerance ∧ s.rf .pwrState 11 1 = 1 ∧ s.rf .pwrState 12 1 = 0 ∧ 250000 ≤ s.tolerance
        ∧ ({ s.power with d3 := true } : Power).d3 = true ∧ s.rcWait = [] ∧ s.rc = []) := by decide +kernel

theorem wit_FinishChangesAndPowerStates_asleep :
    let s := ready [(.pwrState, 3840), (.pciWake, 250000)];
    let t : State := { s with sec := { s.sec with scopes := 4 } };
    s.sec.scopes < 4 ∧ 4 ≤ t.sec.scopes ∧ t.sec.scopes < 8 ∧ t.rf .pwrState 11 1 = 1 ∧ t.rf .pwrState 12 1 = 0
      ∧ 250000 ≤ t.tolerance ∧ t.rcWait = [] ∧ t.rc = []
      ∧ ({ s.pins with i3c := some 8 } : Pins).aux = true ∧ ({ s.pins with i3c := some 8 } : Pins).i3c ≠ none := by decide +kernel

theorem wit_PowerAndHeat :
    (at0 .fence).sites = [] ∧ (600 : Int) ∈ ([-5, 600] : List Int) ∧ (500 ≤ 600 ∧ ((600 : Nat) - 600) * 100 ≤ 5 * 600)
    ∧ (0 ≤ (63 * 24000 * 600 + (80 - 25) * 1000000 : Int) ∧ (63 * 24000 * 600 + (80 - 25) * 1000000 : Int) < 65535 * 64 * 600)
    ∧ (25 : Int) ≠ (at0 .fence).power.lastTin
    ∧ (let s := (at0 .fence).setSite 167 { Site.zero with ratio := 4, stuck := true };
      (s.site 167).ratio = 4 ∧ (s.site 167).stuck = true ∧ (s.sites.any fun x => x.2.stuck) = true
        ∧ { s.power with cut := 50 }.cut = 50 ∧ ((at0 .fence).site 167).ratio ≠ 4)
    ∧ ((30 : Int) < 50 ∧ (40 : Int) < 50 ∧ ((50 : Int) - 30).natAbs < ((30 : Int) - 60).natAbs
      ∧ ((30 : Int) - 45).natAbs ≤ ((50 : Int) - 30).natAbs ∧ 5 ≤ ((30 : Int) - 45).natAbs)
    ∧ (dev [] [(.power, 0x100000000)]).rf .power 32 1 = 1 ∧ (at0 .fence).rcWait = []
    ∧ ((walkingAt mv3 false).roller 511).goesOn = true
    ∧ setHas { at0 .fence with refreshDue := setAdd [] 127 }.refreshDue 127 = true
    ∧ (let s := dev [] [(.tcyc 7, 0x100000001)]; s.rf (.tcyc 7) 32 32 = 1 ∧ 500 * 1 < 2 ^ 32 - 1) := by decide +kernel

/-- Counting and sampling of LC0 over registers, with records held. -/
def counting (rs : List (Reg × Word)) (n lost : Nat) : State :=
  { ready rs [(0, coreAt .fence)] with
    slices := [0], pmus := [(0, { Pmu.zero with buf := List.replicate n ⟨0, 0, 0, 0, 0⟩, lost := lost })] }

theorem wit_LocksCountersAndSamples :
    ((ready).sec.recovery = false ∧ (ready).loaded = true ∧ (ready).rf .vcPolicy 63 1 = 0
      ∧ (ready [(.vcPolicy, 0x8000000000000000)]).rf .vcPolicy 63 1 = 1 ∧ (ready).sec.scopes / 2 % 2 = 0
      ∧ (ready).rf .scrCfg 0 1 = 0 ∧ (ready [(.scrCfg, 1)]).rf .scrCfg 0 1 = 1)
    ∧ ((counting [] 0 0).pmuOpen .host (.pmuMark 0) = true ∧ (counting [(.pmuSctrl 0, 1)] 255 0).rf (.pmuSctrl 0) 0 1 = 1
      ∧ ((counting [] 255 0).pmu 0).buf.length < 256 ∧ ((counting [] 254 3).pmu 0).lost ≠ 0
      ∧ ((counting [] 254 3).pmu 0).buf.length < 255 ∧ 256 ≤ ((counting [] 256 0).pmu 0).buf.length
      ∧ (counting [] 0 0).rf (.pmuSctrl 0) 0 1 = 0)
    ∧ (let s := counting [(.pmuSpill 0, BitVec.ofNat 64 (49136 + 16 * 2 ^ 32))] 128 0;
      let row := s.rf (.pmuSpill 0) 0 16;
      let rows := s.rf (.pmuSpill 0) 32 16;
      row % 16 = 0 ∧ rows % 16 = 0 ∧ 16 ≤ rows ∧ row + rows ≤ s.rowsUsed ∧ s.siteOf 0 ∈ s.slices
        ∧ 1 ≤ (s.pmu 0).buf.length ∧ (s.pmu 0).buf.length ≤ 128
        ∧ ¬ 16 ≤ (counting [] 0 0).rf (.pmuSpill 0) 32 16 ∧ ((counting [] 0 0).pmu 0).buf = []
        ∧ s.windowOpen 0 = false ∧ ((counting [] 1 0).setSite 0 { Site.zero with win := .open }).windowOpen 0 = true
        ∧ ((counting [] 127 0).pmu 0).buf ≠ [] ∧ (counting [] 127 0).windowOpen 0 = false)
    ∧ ((0 < (ready).inForce ∧ (ready).failed 0 = false ∧ (ready).sec.recovery = false ∧ (ready).accepts 0 = true)
      ∧ (ready [(.pmuPerm 0, 0)]).rf (.pmuPerm 0) 0 1 = 0 ∧ (ready).sec.scopes % 4 = 0
      ∧ (ready [(.pmuPerm 0, 0)]).rf (.pmuPerm 0) 1 1 = 0 ∧ (ready [(.pmuPerm 0, 2)]).rf (.pmuPerm 0) 1 1 = 1) := by
  decide +kernel

/-- Wyrok with a firmware command or a debug command running. -/
def secure (f : Sec → Sec) : State := { ready with sec := f (ready).sec }

/-- A firmware command that runs. -/
def fwRuns (cmd step : Nat) (valid recov : Bool) : State :=
  secure fun x => { x with fwCmd := some ⟨cmd, false, 255, 0, 0⟩, fwStep := step, bankB := ⟨[], valid⟩, recovery := recov }

/-- 18 R600: a power loss during BEGIN leaves the inactive bank without a valid mark, one during COMMIT keeps it. -/
theorem test_power_loss_cuts_begin :
    (fwRuns 1 0 true false).lose48.sec.bankB.valid = false ∧ (fwRuns 5 0 true false).lose48.sec.bankB.valid = true
      ∧ (fwRuns 1 0 true false).sec.fwCmd.map (·.cmd) = some 1 := by decide +kernel

/-- A debug command that runs. -/
def dbgRuns (cmd slot scope refused : Nat) (nonce : Option (List Byte)) : State :=
  secure fun x => { x with
    dbgCmd := some ⟨cmd, false, 0, slot, scope⟩, refused := refused, nonce := nonce, nonceSlot := slot, nonceScope := scope }

/-- An SPDM request. -/
def askOf : SpdmReq := ⟨1, [], 6, true, 0, 16, 3⟩

/-- Algorithms are negotiated over PCI Express. -/
def agreed (a : Nat) : State := secure fun x => { x with spdmPcie := 3, algsPcie := a }

/-- Bank B holds the image that the device ships with, and ACTIVATE runs. -/
def goodBank : State := secure fun x => { x with fwCmd := some ⟨4, false, 255, 0, 0⟩, bankB := ⟨factoryImage, true⟩ }

theorem goodBank_ok : (goodBank.sec.bank (!goodBank.sec.activeB)).valid = true
    ∧ imageCheck goodBank.otp (goodBank.sec.bank (!goodBank.sec.activeB)).image = 1 :=
  ⟨rfl, imageCheck_factoryImage⟩

theorem wit_FirmwareAttestationAndDebug :
    ((ready).sec.fwCmd = none ∧ (fwRuns 1 0 false false).sec.fwCmd ≠ none
      ∧ (linked (panel4 - 1) []).rf .klkIdent 45 1 = 0 ∧ (linked (panel4 - 1) []).rf .klkIdent 0 4 = 0)
    ∧ ((fwRuns 2 1 false false).sec.fwCmd = some ⟨2, false, 255, 0, 0⟩ ∧ 1 ≤ (fwRuns 2 1 false false).sec.fwStep
      ∧ (fwRuns 3 2 false false).sec.fwStep = 2
      ∧ goodBank.sec.fwCmd = some ⟨4, false, 255, 0, 0⟩
      ∧ ((fwRuns 4 0 false false).sec.bank (!(fwRuns 4 0 false false).sec.activeB)).valid = false
      ∧ (fwRuns 5 0 false false).sec.recovery = false ∧ (fwRuns 5 0 false true).sec.recovery = true)
    ∧ ((ready).pins.aux = true ∧ ({ (ready).pins with i3c := some 8 } : Pins).i3c ≠ none ∧ (ready).pins.i3c = none
      ∧ (ready).spdmAt .pcie = 0 ∧ (agreed 3).spdmAt .pcie = 3 ∧ askOf.algs % 4 ≠ 0 ∧ (agreed 1).spdmAlgs .pcie / 2 ^ askOf.slot % 2 = 0)
    ∧ ((ready).sec.dbgCmd = none ∧ (dbgRuns 1 3 7 0 none).sec.dbgCmd = some ⟨1, false, 0, 3, 7⟩
      ∧ (dbgRuns 1 3 4 0 none).launchesIn 1 ++ (dbgRuns 1 3 4 0 none).runningLaunches = []
      ∧ (slotted 1 []).launchesIn 1 ≠ [] ∧ 8 ≤ (dbgRuns 1 3 0 8 none).sec.refused
      ∧ (dbgRuns 2 3 7 0 none).sec.nonce = none ∧ (dbgRuns 2 3 7 0 (some [1])).sec.nonce = some [1]
      ∧ (dbgRuns 2 3 7 0 (some [1])).sec.nonceSlot < 4 ∧ 4 ≤ (dbgRuns 2 3 7 0 (some [1])).sec.nonceScope
      ∧ (dbgRuns 2 3 7 0 (some [1])).slotKeys 3 = none ∧ (dbgRuns 4 3 7 0 none).sec.dbgCmd = some ⟨4, false, 0, 3, 7⟩)
    ∧ ((secure fun x => { x with scopes := 3, grants := [⟨1, 3, List.replicate 32 7⟩, ⟨2, 15, []⟩] }).sec.scopes = 3
      ∧ (secure fun x => { x with scopes := 7 }).sec.scopes = 7 ∧ (ready).sec.scopes = 0 ∧ (ready).sec.grants = [])
    ∧ ((goodBank.sec.bank (!goodBank.sec.activeB)).valid = true
      ∧ imageCheck goodBank.otp (goodBank.sec.bank (!goodBank.sec.activeB)).image = 1)
    ∧ (SpdmAsks (agreed 3) .pcie .challenge askOf "CHALLENGE_AUTH"
        (Config.sha384 (Config.certChain 1) ++ Config.sign 1 (agreed 3).otp.seeds (Config.sha384 (Config.certChain 1) ++ []))
      ∧ SpdmAsks (agreed 3) .pcie .getMeasurements askOf "MEASUREMENTS"
        ((agreed 3).measurement 6 ++ Config.sign 1 (agreed 3).otp.seeds ((agreed 3).measurement 6 ++ [])))
    ∧ SpdmAsks (ready) .pcie .getDigests askOf "DIGESTS" (Config.sha384 (Config.certChain 0) ++ Config.sha384 (Config.certChain 1))
    ∧ FwCmd ⟨.host, true, 255⟩ 2 (.fwWrite ⟨.host, true, 255⟩) ∧ DbgCmd ⟨.host, 15, 7⟩ 4 (.dbgEnrol ⟨.host, 15, 7⟩) := by
  refine ⟨?_, ?_, ?_, ?_, ?_, goodBank_ok, ⟨.challenge askOf (by decide) (by decide +kernel),
    .signed askOf (by decide) rfl (by decide) (by decide +kernel)⟩, .digests _, .write, .enrol⟩ <;> decide +kernel

theorem wit_StepKeepsSound : Memory.wf ({ at0 .fence with pending := [.fence 0] } : State).mem = true
    ∧ ({ at0 .fence with pending := [.fence 0] } : State).pending ≠ [] := by decide +kernel

theorem wit_DecodeEncode : (Flik.unit (.movBlk fullF)).wf = true ∧ (decode 0x0652FFC0).isSome = true := by decide +kernel

/-! ### Ill-formed commands -/

/-- What a port may train to. -/
def fullWidth : Training := ⟨0xFF, 0, 0, 0⟩

theorem test_illFormed : ([.add 144 0 0 0, .fence 256, .waitf ⟨0, []⟩ 1 2 3 7 false 0, .waitf ⟨144, []⟩ 1 2 3 0 false 0,
    .sb ⟨144, []⟩ 0 0 0, .storePerformed 144 ⟨0, []⟩, .hawkRemoteWrite 144 ⟨0, []⟩,
    .icacheParityError 144 ⟨0, []⟩, .coreLaunchEntry ⟨144, []⟩,
    .trwAccumulatorParityError 0 false 66 0, .trwAccumulatorParityError 0 false 0 66, .deferredEditApply ⟨65536, []⟩,
    .rollerCommandArrival 0 8 [], .rollerStackReport 8, .rollerPassEnd ⟨512, 0, false, []⟩, .rollerPassEnd ⟨0, 1601, false, []⟩,
    .channelRefresh 128, .rollerDisarmComplete 8,
    .mcastCopyDelivered 0 ⟨144, []⟩, .scrimLinkParityError 168 false false ⟨0, 256⟩, .scrimLinkParityError 0 false false ⟨0, 257⟩,
    .vcRowCommit 168 .up [] [],
    .vcRowReplay 168 .up 0 1 ⟨[0], 0⟩, .vcRowReplay 0 .up 8 1 ⟨[0], 0⟩, .vcRowReplay 0 .up 0 4 ⟨[0], 0⟩,
    .vcRowReplay 0 .up 0 0 ⟨[0], 0⟩, .vcRowReplay 0 .up 0 1 ⟨[32], 0⟩, .vcLaneFailed 0 .up 9 0,
    .vcLaneFailed 0 .up 0 288, .vcLaneFailed 0 .up 8 22, .vcLaneRepair 168 .up 0 0, .vcWidthChange 168 .down,
    .probeMeasurement 0 .up 0 129 0, .retuneWindowDue 168 .corrected, .thermalSample [] 25 0,
    .probeMeasurement 0 .up 0 0 128, .retuneWindowOpen 168, .keritPortReset 16, .renderControllerReset 128,
    .barRead 1 0 8 [], .barWrite 3 0 [] ⟨false, []⟩, .launchSlotWrite 32 0 [], .launchSlotWrite 0 256 [none], .launchStart 32,
    .launchEnd 32, .msixVectorUnmask 64, .portTrainingComplete 16 fullWidth, .put ⟨16, []⟩, .flag ⟨16, []⟩, .quietEntry 16,
    .mgtImageReceive 16 (.image []), .memberReport 16 true, .hotSpotRise 168 0, .sampleSpill 144, .dramRowClose 128 0,
    .dramRowClose 0 64, .hostReadCompletion 144 0 [] false] : List Instr).all (fun c => !c.wf) = true := by decide +kernel

theorem test_wellFormed : ([.add 143 31 31 31, .waitf ⟨143, []⟩ 1 2 3 6 false 31, .rollerPassEnd ⟨511, 1600, true, []⟩,
    .vcRowReplay 167 .down 7 3 ⟨[31], 0⟩, .vcLaneFailed 167 .up 8 21, .barRead 4 0 8 [], .launchSlotWrite 31 255 [none],
    .msixVectorUnmask 63, .put ⟨15, []⟩, .deferredEditApply ⟨65535, []⟩, .scrimLinkParityError 167 true true ⟨0, 256⟩,
    .dramRowClose 127 63] : List Instr).all Instr.wf = true := by
  decide +kernel

/-! ### Words that the spec's worked examples spell out (02, 04, 06, 09, 10, 11) -/

theorem test_word_addi : decode 0x0652FFC0 = some (.opi .addi 5 5 0x7FC0) := by decide +kernel
theorem test_word_brNe : decode 0x18501FFC = some (.br .ne 5 0 0xFFC) := by decide +kernel
theorem test_word_tkw : decode 0x1E420001 = some (.tkw 2 1) := by decide +kernel
theorem test_word_movRowUp : decode 0xB0108690 = some (.unit (.movRow false ⟨2, 4, 3, true, 1⟩)) := by decide +kernel
theorem test_word_trwMma : decode 0x80084510 = some (.unit (.trwMma ⟨1, 2, 1, 4, false, true⟩)) := by decide +kernel
theorem test_word_trwDrain : decode 0x82006A80 = some (.unit (.trwDrain ⟨0, 3, 5, false, true, 0, false⟩)) := by decide +kernel
theorem test_word_stcFwd : decode 0xA0085100 = some (.unit (.stcFwd ⟨1, 2, 8, true, 0⟩)) := by decide +kernel
theorem test_word_stcDec : decode 0xA830E960 = some (.unit (.stcDec ⟨6, 7, 4, true, 3⟩)) := by decide +kernel
theorem test_word_rlrMv : decode 0xD2188D40 = some (.unit (.rlrMv ⟨3, 4, 6, true, 2⟩)) := by decide +kernel

/-- The all-zero word is reserved (R42). -/
theorem test_word_zero : decode 0 = none := by decide +kernel

/-! ### Addresses -/

/-- LC50's hawk at 4,160 of the worked example of 01, and the unmapped byte beside it. -/
theorem test_address_hawk :
    (let s := dev [] [(.mcMap, 144), (.mcLc 50, 0x5701)];
      s.resolve none 0x1010C801040 = .hawk 50 (hawkKey 77 4160) ∧ s.resolve none 0x1010CA00000 = .unmapped) := by
  decide +kernel

/-- The two slices removed, 2 MiB of every slice for the render cache: row 7,187 of site 5 (worked example of 04). -/
theorem test_address_hod :
    (let s := { dev [(0, Core.zero)] [(.mcLc 0, 0x501)] with
      slices := (List.range 168).filter (fun i => i != 1 && i != 77), rcMib := 2 };
      s.hodTop = 0x10067BFFFFF ∧ s.sliceCount = 166 ∧ s.resolve none 0x10012345600 = .hod (hodKey 5 7187 0)
        ∧ s.resolve (some 0) 0x100801C1300 = .hod (hodKey 5 7187 0)) := by decide +kernel

/-- One address in both views (worked example of 11), and the next granule in channel 7. -/
theorem test_address_views : ilvToPlumb 0x1234567ABC = 0x6B091A2BC ∧ plumbToIlv 0x6B091A2BC = 0x1234567ABC
    ∧ chanOf (ilvToPlumb 0x1234567BBC) = 7 := by decide +kernel

/-! ### Values -/

/-- The block quantised in the worked example of 05: 13.7, -2.9, 0.3, 0.74 as FP32 codes. -/
theorem test_quantise : (quantise .e2m1 (fun _ => .rne) 2 0
    ([0x415B3333, 0xC039999A, 0x3E99999A, 0x3F3D70A4].map fp32 ++ List.replicate 28 (.zero false))).1 = [0x80]
    ∧ (quantise .e2m1 (fun _ => .rne) 2 0
      ([0x415B3333, 0xC039999A, 0x3E99999A, 0x3F3D70A4].map fp32 ++ List.replicate 28 (.zero false))).2.1.take 4
      = [7, 0xB, 0, 1] := by decide +kernel

/-- The cell cycle of the same example: one rounding of 2^24 + 3 - 1. -/
theorem test_cellCycle : toFp32 (Num.sum [fp32 0x4B800000, .fin false 3 0, .fin true 1 0]) = 0x4B800001 := by decide +kernel

/-- Integer corners (R43 R44): -2^63 over -1, a division by zero, MULH. -/
theorem test_aluCorners : (exec (.div 0 3 1 2) (at0 (.op .div 3 1 2) [0, 0x8000000000000000, 0xFFFFFFFFFFFFFFFF])).casesOn
      (fun t => (t.core 0).rx 3 == 0x8000000000000000) (fun _ => false) (fun _ => false) = true
    ∧ (exec (.divu 0 3 1 2) (at0 (.op .divu 3 1 2) [0, 7, 0])).casesOn
      (fun t => (t.core 0).rx 3 == 0xFFFFFFFFFFFFFFFF) (fun _ => false) (fun _ => false) = true
    ∧ (exec (.mulh 0 3 1 2) (at0 (.op .mulh 3 1 2) [0, 0xFFFFFFFFFFFFFFFF, 1])).casesOn
      (fun t => (t.core 0).rx 3 == 0xFFFFFFFFFFFFFFFF) (fun _ => false) (fun _ => false) = true := by decide +kernel

/-- The CHK of the worked example of 14, as the slot waits for it. -/
theorem test_launchCheck :
    (let d := leBytes 8 0x40000000 ++ leBytes 8 0x40100000 ++ leBytes 8 0xB0B000 ++ List.replicate 24 0
        ++ leBytes 8 0x1020304000 ++ leBytes 8 0x102 ++ List.replicate 184 0 ++ leBytes 4 7 ++ leBytes 4 0xDF6F0EEA;
      d.length = 256 ∧ (ready [(.pciSlot 5, 7)]).current 5 d) := by
  unfold State.current
  decide +kernel

/-- The check values of the CRC-64 of R449 and of the CRC-32 of R517: both of the bytes "123456789". -/
theorem test_crcs : crc64 [0x31, 0x32, 0x33, 0x34, 0x35, 0x36, 0x37, 0x38, 0x39] = 0x6C40DF5F0B497347
    ∧ crc32 [0x31, 0x32, 0x33, 0x34, 0x35, 0x36, 0x37, 0x38, 0x39] = 0xCBF43926 := by decide +kernel

/-- The lane of a bit of a word of a row and back (03 R103), and the group of slot 7 at two groups in use (03 R107). -/
theorem test_lanes : bitOfLane 287 = (3, 71) ∧ laneOfBit 31 71 = 287 ∧ laneOfBit 30 0 = 2
    ∧ (let s := [2, 3, 4, 5, 6].foldl (fun s g => s.setRf (.vcGroup 0 .up g) 36 1 1) (dev [])
      s.healthyGroups 0 .up = [0, 1, 7] ∧ s.inUse 0 .up = [0, 1] ∧ s.carrier 0 .up 7 = 1) := by decide +kernel

/-- The integer that an FP32 value is: the 3 infinities of the worked example of 09. -/
theorem test_infCount : (fp32 0x40400000).toInt = 3 ∧ (fp32 0xC0400000).toInt = -3 := by decide +kernel

/-! ### Single steps -/

/-- A taken branch of the worked example of 02: 16 bytes back. -/
theorem test_branch : (exec (.brNe 0 5 0 0xFFC) (at0 (.br .ne 5 0 0xFFC) [0, 0, 0, 0, 0, 1])).casesOn
      (fun t => (t.core 0).pc == 0xFF0) (fun _ => false) (fun _ => false) = true := by decide +kernel

/-- A command at the front of the queue is taken; an idle block stays. -/
theorem test_step : (step ({ at0 .fence with pending := [.fence 0, .icinv 0] } : State)).casesOn
      (fun t => t.pending == [.icinv 0]) (fun _ => false) (fun _ => false) = true := by decide +kernel

end Sys2Proof.Tests
end

