-- ==== Sys2Proof/Proofs/SoundCore.lean ====
section
/-!
SUPPORT (O59). What each function of the state does to memory, in the order of the definitions: it leaves memory alone
(`_mem`), or keeps it in its canonical form (`_wf`). This part: registers, power, loads and stores, the mover and the
render cache.

A proof about a function that writes memory is stated of `State.Sound` and not of the projection `.mem`: the kernel
unfolds a projection of a computed state at once, and would evaluate the addresses that the function computes.
-/

namespace Sys2Proof.Machine

@[simp] theorem State.mem_ite (c : Prop) [Decidable c] (s t : State) :
    (if c then s else t).mem = if c then s.mem else t.mem := apply_ite State.mem c s t

@[simp] theorem foldl_mem {β : Type} (f : State → β → State) (l : List β) (s : State)
    (h : ∀ s x, (f s x).mem = s.mem) : (l.foldl f s).mem = s.mem := foldl_keeps State.mem f h l s

@[simp] theorem ite_wf (c : Prop) [Decidable c] (m n : Memory) :
    Memory.wf (if c then m else n) = true ↔ if c then Memory.wf m = true else Memory.wf n = true := by
  split <;> rfl

theorem Sound.ite {c : Prop} [Decidable c] {t u : State} (ht : c → t.Sound) (hu : ¬c → u.Sound) :
    (if c then t else u).Sound := by
  split
  · exact ht ‹c›
  · exact hu ‹¬c›

theorem Sound.intro {s : State} (h : s.mem.wf = true) : s.Sound := h

/-- A fold that carries a state beside other values leaves memory alone where each step does. -/
theorem foldl_fst_mem {α β : Type} (f : State × α → β → State × α) (h : ∀ r x, (f r x).1.mem = r.1.mem) :
    ∀ (l : List β) (r : State × α), (l.foldl f r).1.mem = r.1.mem
  | [], _ => rfl
  | x :: l, r => (foldl_fst_mem f h l (f r x)).trans (h r x)

theorem Sound.foldl_fst {α β : Type} (f : State × α → β → State × α) (h : ∀ r x, r.1.Sound → (f r x).1.Sound) :
    ∀ (l : List β) {r : State × α}, r.1.Sound → (l.foldl f r).1.Sound
  | [], _, hr => hr
  | x :: l, r, hr => Sound.foldl_fst f h l (h r x hr)

@[simp] theorem writeRun_wf {s : State} (h : s.mem.wf = true) (key : Nat) (bs : List Byte) :
    (s.writeRun key bs).mem.wf = true := writeRun_sound h key bs

@[simp] theorem hawkWrite_wf {s : State} (h : s.mem.wf = true) (lc off : Nat) (bs : List Byte) :
    (s.hawkWrite lc off bs).mem.wf = true := hawkWrite_sound h lc off bs

@[simp] theorem rcBack_wf {s : State} (h : s.mem.wf = true) (l : RcLine) : (s.rcBack l).mem.wf = true :=
  rcBack_sound h l

@[simp] theorem rcEvict_wf {s : State} (h : s.mem.wf = true) (l : RcLine) : (s.rcEvict l).mem.wf = true :=
  rcEvict_sound h l

@[simp] theorem rcLine_wf {s : State} (h : s.mem.wf = true) (g : Nat) : (s.rcLine g).1.mem.wf = true :=
  rcLine_sound h g

@[simp] theorem readBlock_wf {s : State} (h : s.mem.wf = true) (l : Loc) (len : Nat) :
    (s.readBlock l len).1.mem.wf = true := readBlock_sound h l len

@[simp] theorem writeBlock_wf {s : State} (h : s.mem.wf = true) (l : Loc) (bs : List Byte) :
    (s.writeBlock l bs).mem.wf = true := writeBlock_sound h l bs

@[simp] theorem poisonLoc_wf {s : State} (h : s.mem.wf = true) (l : Loc) : (s.poisonLoc l).mem.wf = true :=
  poisonLoc_sound h l

@[simp] theorem readMem_wf {s : State} (h : s.mem.wf = true) (own : Option Nat) (a len : Nat) :
    (s.readMem own a len).1.mem.wf = true := readMem_sound h own a len

@[simp] theorem writeMem_wf {s : State} (h : s.mem.wf = true) (own : Option Nat) (a : Nat) (bs : List Byte) :
    (s.writeMem own a bs).mem.wf = true := writeMem_sound h own a bs

@[simp] theorem poisonMem_wf {s : State} (h : s.mem.wf = true) (own : Option Nat) (a len : Nat) :
    (s.poisonMem own a len).mem.wf = true := poisonMem_sound h own a len

@[simp] theorem bump_mem (s : State) (cnt ovf : Reg) (i n : Nat) : (bump s cnt ovf i n).mem = s.mem := by
  simp [bump]

@[simp] theorem tickCycle_mem (s : State) (lc : Nat) : (s.tickCycle lc).mem = s.mem := by
  simp [State.tickCycle]

@[simp] theorem stalled_mem (s : State) (lc code : Nat) : (s.stalled lc code).mem = s.mem := by
  simp [State.stalled]

@[simp] theorem freeEvent_mem (s : State) (lc code : Nat) : (s.freeEvent lc code).mem = s.mem := by
  simp [State.freeEvent]

@[simp] theorem evalWaitf_mem (s : State) (lc key len : Nat) : (s.evalWaitf lc key len).mem = s.mem := by
  unfold State.evalWaitf
  dsimp only
  split <;> simp

@[simp] theorem openRow_mem (s : State) (p : Nat) : (s.openRow p).mem = s.mem := by
  simp [State.openRow]

@[simp] theorem gapServe_mem (s : State) (p : Nat) : (s.gapServe p).mem = s.mem := by
  unfold State.gapServe
  dsimp only
  repeat' split
  all_goals simp

/-- Lines that wait are written back, or wait again. -/
@[simp] theorem rcDrain_wf {s : State} (h0 : s.mem.wf = true) : s.rcDrain.mem.wf = true := by
  show State.Sound _
  unfold State.rcDrain
  refine Sound.foldl _ (fun t l ht => ?_) _ h0
  split
  · exact ht
  · exact rcBack_sound ht l

@[simp] theorem rcPut_mem (s : State) (l : RcLine) : (s.rcPut l).mem = s.mem := by
  simp [State.rcPut]

@[simp] theorem takeAt_mem (s : State) (lc : Nat) (cause : Word) (addr : Word) :
    (s.takeAt lc cause addr).mem = s.mem := by
  unfold State.takeAt
  dsimp only
  split <;> simp

@[simp] theorem raise_mem (s : State) (lc cause sub : Nat) (addr : Word) : (s.raise lc cause sub addr).mem = s.mem := by
  simp [State.raise]

@[simp] theorem raiseUnit_mem (s : State) (lc : Nat) (u : UnitId) (status : BitVec 8) :
    (s.raiseUnit lc u status).mem = s.mem := by
  simp [State.raiseUnit]

@[simp] theorem hawkPoison_mem (s : State) (lc off len : Nat) : (s.hawkPoison lc off len).mem = s.mem := by
  obtain ⟨p, h⟩ := hawkPoison_frame s lc off len
  rw [h]

@[simp] theorem idleOut_mem (s : State) (p : Nat) : (s.idleOut p).mem = s.mem := by
  simp [State.idleOut]

@[simp] theorem pumpPort_mem (s : State) (p : Nat) (report : Bool) : (s.pumpPort p report).mem = s.mem := by
  simp [State.pumpPort]

@[simp] theorem transmit_mem (s : State) (port vc : Nat) (p : Packet) : (s.transmit port vc p).mem = s.mem := by
  simp [State.transmit]

@[simp] theorem sendPacket_mem (s : State) (dst vc : Nat) (op : BitVec 8) (stripe len : Nat) (addr aux : Word)
    (data : List Byte) (lc : Nat) (unit : Option UnitId) (back : Nat) :
    (s.sendPacket dst vc op stripe len addr aux data lc unit back).1.mem = s.mem := by
  unfold State.sendPacket
  dsimp only
  repeat' split
  all_goals simp

@[simp] theorem fillStore_mem (s : State) : s.fillStore.mem = s.mem := by
  simp [State.fillStore]

@[simp] theorem sendMgt_mem (s : State) (member : Nat) (bs : List Byte) : (s.sendMgt member bs).mem = s.mem := by
  simp [State.sendMgt]

@[simp] theorem reportMgt_mem (s : State) (ok : Bool) : (s.reportMgt ok).mem = s.mem := by
  simp [State.reportMgt]

@[simp] theorem sendMsi_mem (s : State) (v : Nat) (m : Msix) : (s.sendMsi v m).mem = s.mem := by
  simp [State.sendMsi]

@[simp] theorem msi_mem (s : State) (v : Nat) : (s.msi v).mem = s.mem := by
  simp [State.msi]

@[simp] theorem alertNow_mem (s : State) : s.alertNow.mem = s.mem := by
  simp [State.alertNow]

@[simp] theorem log_mem (s : State) (cls src : Nat) (loc addr : Word) : (s.log cls src loc addr).mem = s.mem := by
  simp [State.log]

@[simp] theorem health_mem (s : State) : s.health.mem = s.mem := by
  simp [State.health]

@[simp] theorem snag_mem (s : State) (f : FoundFault) : (s.snag f).mem = s.mem := by
  simp [State.snag]

@[simp] theorem snagIn_mem (s : State) (typ : Nat) (loc : Word) : (s.snagIn typ loc).mem = s.mem := by
  simp [State.snagIn]

@[simp] theorem stopCore_mem (s : State) (lc : Nat) : (s.stopCore lc).mem = s.mem := by
  unfold State.stopCore
  split <;> simp

@[simp] theorem failCore_mem (s : State) (lc : Nat) : (s.failCore lc).mem = s.mem := by
  simp [State.failCore]

@[simp] theorem failBlock_mem (s : State) (site blk : Nat) : (s.failBlock site blk).mem = s.mem := by
  unfold State.failBlock
  dsimp only
  split <;> simp

@[simp] theorem logFirst_mem (s : State) (place src : Nat) (loc addr : Word) :
    (s.logFirst place src loc addr).mem = s.mem := by
  simp [State.logFirst]

@[simp] theorem loseRow_mem (s : State) (site row : Nat) : (s.loseRow site row).mem = s.mem := by
  simp [State.loseRow]

@[simp] theorem patchRow_mem (s : State) (site row : Nat) (fails : Bool) : (s.patchRow site row fails).mem = s.mem := by
  simp [State.patchRow]

@[simp] theorem patchGran_mem (s : State) (p : Nat) : (s.patchGran p).mem = s.mem := by
  simp [State.patchGran]

@[simp] theorem meetHawk_mem (s : State) (k : ErrKind) (key : Nat) : (s.meetHawk k key).mem = s.mem := by
  unfold State.meetHawk
  dsimp only
  repeat' split
  all_goals simp

@[simp] theorem meetHod_mem (s : State) (k : ErrKind) (key : Nat) : (s.meetHod k key).mem = s.mem := by
  unfold State.meetHod
  dsimp only
  split <;> simp

@[simp] theorem meetRender_mem (s : State) (k : ErrKind) (key : Nat) : (s.meetRender k key).mem = s.mem := by
  unfold State.meetRender
  dsimp only
  split <;> simp

@[simp] theorem cacheLost_mem (s : State) (a : Nat) : (s.cacheLost a).mem = s.mem := by
  simp [State.cacheLost]

@[simp] theorem meetCache_mem (s : State) (k : ErrKind) (a : Nat) : (s.meetCache k a).mem = s.mem := by
  unfold State.meetCache
  dsimp only
  split <;> simp

@[simp] theorem meetBuffer_mem (s : State) (k : Nat) : (s.meetBuffer k).mem = s.mem := by
  simp [State.meetBuffer]

@[simp] theorem meetErr_mem (s : State) (e : MemErr) : (s.meetErr e).mem = s.mem := by
  simp [State.meetErr]

@[simp] theorem meet_mem (s : State) (errs : List MemErr) : (s.meet errs).mem = s.mem := by
  simp [State.meet]

@[simp] theorem unlockRec_mem (s : State) (scopes slot result : Nat) (nonce : List Byte) :
    (s.unlockRec scopes slot result nonce).mem = s.mem := by
  simp [State.unlockRec]

@[simp] theorem unlockLog_mem (s : State) (scopes slot result : Nat) :
    (s.unlockLog scopes slot result).mem = s.mem := by
  simp [State.unlockLog]

@[simp] theorem endGrants_mem (s : State) (result : Nat) : (s.endGrants result).mem = s.mem := by
  simp [State.endGrants]

@[simp] theorem voidNonce_mem (s : State) : s.voidNonce.mem = s.mem := by
  simp [State.voidNonce]

@[simp] theorem endScopes_mem (s : State) : s.endScopes.mem = s.mem := by
  simp [State.endScopes]

/-- A full Lath reset keeps the cells of render memory alone. -/
@[simp] theorem fullReset_wf {s : State} (h0 : s.mem.wf = true) : s.fullReset.mem.wf = true := by
  unfold State.fullReset
  exact Memory.wf_filter (by simpa using h0) _

@[simp] theorem coldReset_wf {s : State} (h0 : s.mem.wf = true) : s.coldReset.mem.wf = true := fullReset_wf h0

@[simp] theorem cutFw_mem (s : State) : s.cutFw.mem = s.mem := by
  unfold State.cutFw
  dsimp only
  split <;> simp

@[simp] theorem lose48_wf (s : State) : s.lose48.mem.wf = true := by
  show State.Sound _
  unfold State.lose48
  dsimp only
  simp -implicitDefEqProofs [State.Sound]

@[simp] theorem setPmu_mem (s : State) (lc : Nat) (p : Pmu) : (s.setPmu lc p).mem = s.mem := by
  simp [State.setPmu]

@[simp] theorem sample_mem (s : State) (lc : Nat) (r : Sample) : (s.sample lc r).mem = s.mem := by
  simp [State.sample]

@[simp] theorem spill_wf {s : State} (h0 : s.mem.wf = true) (lc n : Nat) : (s.spill lc n).mem.wf = true := by
  show State.Sound _
  unfold State.spill
  dsimp only
  simp -implicitDefEqProofs [State.Sound, Memory.wf_puts h0]

@[simp] theorem writeSctrl_wf {s : State} (h0 : s.mem.wf = true) (lc : Nat) (w : Word) (en : Bool) :
    (s.writeSctrl lc w en).mem.wf = true := by
  have spills {t : State} (ht : t.Sound) : (if t.spillDue lc then t.spill lc 128 else t).Sound := by
    split
    · exact spill_wf ht lc 128
    · exact ht
  show State.Sound _
  unfold State.writeSctrl
  dsimp only
  split
  · split
    · split <;> simp -implicitDefEqProofs [State.Sound, h0]
    · exact spills (spills h0)
  · exact h0

@[simp] theorem mark_mem (s : State) (lc : Nat) (v : Word) : (s.mark lc v).mem = s.mem := by
  simp [State.mark]

@[simp] theorem writeKv_mem (s : State) (w : Word) (en : Bool) : (s.writeKv w en).mem = s.mem := by
  simp [State.writeKv]

@[simp] theorem klkEnable_mem (s : State) : s.klkEnable.mem = s.mem := by
  simp [State.klkEnable]

@[simp] theorem rubSummary_wf {s : State} (h0 : s.mem.wf = true) (status : Nat) : (s.rubSummary status).mem.wf = true :=
  writeMem_wf (writeMem_wf (writeMem_wf h0 _ _ _) _ _ _) _ _ _

@[simp] theorem rubEnd_wf {s : State} (h0 : s.mem.wf = true) (status : Nat) : (s.rubEnd status).mem.wf = true := by
  simpa [State.rubEnd] using rubSummary_wf h0 status

theorem rubMeets_mem (y : RubRead) (a : Nat) (e : MemErr) : (y.meets a e).s.mem = y.s.mem := by
  unfold RubRead.meets
  dsimp only
  split <;> simp

theorem rubMeets_foldl_mem (a : Nat) (l : List MemErr) (y : RubRead) :
    (l.foldl (fun y e => y.meets a e) y).s.mem = y.s.mem := by
  induction l generalizing y with
  | nil => rfl
  | cons e l ih => exact (ih _).trans (rubMeets_mem y a e)

@[simp] theorem rubGranule_mem (s : State) (a : Nat) (errs : List MemErr) : (s.rubGranule a errs).mem = s.mem :=
  rubMeets_foldl_mem a _ _

@[simp] theorem rubScan_mem (s : State) (n : Nat) (errs : List MemErr) : (s.rubScan n errs).mem = s.mem := by
  simp [State.rubScan]

@[simp] theorem rubCut_wf {s : State} (h0 : s.mem.wf = true) (errs : List MemErr) (status : Nat) :
    (s.rubCut errs status).mem.wf = true := rubEnd_wf (by simpa using h0) status

@[simp] theorem rubGo_wf {s : State} (h0 : s.mem.wf = true) : s.rubGo.mem.wf = true := by
  unfold State.rubGo
  dsimp only
  split
  · simpa using h0
  · exact rubEnd_wf (by simpa using h0) 4

@[simp] theorem writeRub_wf {s : State} (h0 : s.mem.wf = true) (w : Word) (go stop : Bool) :
    (s.writeRub w go stop).mem.wf = true := by
  unfold State.writeRub
  dsimp only
  split
  · exact rubGo_wf (by simpa using h0)
  · split
    · exact rubCut_wf (by simpa using h0) _ _
    · simpa using h0

@[simp] theorem writeRemap_mem (s : State) (w : Word) (go : Bool) : (s.writeRemap w go).mem = s.mem := by
  simp [State.writeRemap]

@[simp] theorem writePerm_mem (s : State) (r : Reg) (w : Word) (save : Bool) : (s.writePerm r w save).mem = s.mem := by
  simp [State.writePerm]

@[simp] theorem forwardFw_mem (s : State) (cmd chunk : Nat) : (s.forwardFw cmd chunk).mem = s.mem := by
  simp [State.forwardFw]

@[simp] theorem writeFw_mem (s : State) (w : Word) (cmd : Nat) : (s.writeFw w cmd).mem = s.mem := by
  simp [State.writeFw]

@[simp] theorem relock_wf {s : State} (h0 : s.mem.wf = true) : s.relock.mem.wf = true := by
  unfold State.relock
  split
  · exact fullReset_wf h0
  · simpa using h0

@[simp] theorem writeDbg_wf {s : State} (h0 : s.mem.wf = true) (w : Word) (cmd : Nat) :
    (s.writeDbg w cmd).mem.wf = true := by
  unfold State.writeDbg
  split
  · exact relock_wf (by simpa using h0)
  · simpa using h0

@[simp] theorem writeKlkCfg_mem (s : State) (w : Word) : (s.writeKlkCfg w).mem = s.mem := by
  simp [State.writeKlkCfg]

@[simp] theorem applyReg_wf {s : State} (h0 : s.mem.wf = true) (r : Reg) (data : Word) (mask : Nat) :
    (s.applyReg r data mask).mem.wf = true := by
  unfold State.applyReg
  cases r
  case pmuSctrl n => exact writeSctrl_wf h0 ..
  case rubCtrl => exact writeRub_wf h0 ..
  case dbgCtrl => exact writeDbg_wf h0 ..
  all_goals simp [h0]

@[simp] theorem writeRegs_wf {s : State} (h0 : s.mem.wf = true) (req : Requester) (a : Nat) (bs : List Byte) :
    (s.writeRegs req a bs).mem.wf = true := by
  show State.Sound _
  unfold State.writeRegs
  dsimp only
  iterate 3 (split; exact h0)
  split
  · split
    · exact applyReg_wf h0 ..
    · exact h0
  · exact h0

@[simp] theorem writeReg8_wf {s : State} (h0 : s.mem.wf = true) (req : Requester) (r : Reg) (data : Word) :
    (s.writeReg8 req r data).mem.wf = true := by
  unfold State.writeReg8
  split
  · exact writeRegs_wf h0 ..
  · exact h0

@[simp] theorem vcNote_mem (s : State) (site : Nat) (d : VcDir) : (s.vcNote site d).mem = s.mem := by
  simp [State.vcNote]

@[simp] theorem correctFlip_mem (s : State) (site : Nat) (d : VcDir) (f : Flip) :
    (s.correctFlip site d f).mem = s.mem := by
  unfold State.correctFlip
  dsimp only
  split <;> simp

theorem cross_mem {s t : State} {site : Nat} {d : VcDir} {errs : List MemErr} (h : s.cross site d errs = some t) :
    t.mem = s.mem := (State.cross_frame h).1

theorem crossAll_mem {s t : State} {cs : List (Nat × VcDir)} {errs : List MemErr}
    (h : s.crossAll cs errs = some t) : t.mem = s.mem := by
  unfold State.crossAll at h
  induction cs generalizing s with
  | nil => cases h; rfl
  | cons c cs ih =>
    rw [List.foldl_cons, Option.bind_some] at h
    cases hc : s.cross c.1 c.2 errs with
    | none =>
      have stays : cs.foldl (fun r c => r.bind fun s => s.cross c.1 c.2 errs) (none : Option State) = none := by
        clear h ih
        induction cs with
        | nil => rfl
        | cons _ _ ih => exact ih
      rw [hc, stays] at h
      cases h
    | some u =>
      rw [hc] at h
      exact (ih h).trans (cross_mem hc)

theorem crossTo_mem {s t : State} {lc : Nat} {l : Loc} {d : VcDir} {errs : List MemErr}
    (h : s.crossTo lc l d errs = some t) : t.mem = s.mem := by
  unfold State.crossTo at h
  split at h
  · exact cross_mem h
  · cases h; rfl

@[simp] theorem retune_mem (s : State) (site : Nat) (d : VcDir) (g v : Nat) : (s.retune site d g v).mem = s.mem := by
  simp [State.retune]

@[simp] theorem noteEye_mem (s : State) (site : Nat) (d : VcDir) (g eye : Nat) :
    (s.noteEye site d g eye).mem = s.mem := by
  simp [State.noteEye]

@[simp] theorem loadSettings_mem (s : State) (h : Half) (old new : Nat) : (s.loadSettings h old new).mem = s.mem := by
  simp [State.loadSettings]

@[simp] theorem takePoint_mem (s : State) (h : Half) (p : Nat) : (s.takePoint h p).mem = s.mem := by
  simp [State.takePoint]

@[simp] theorem wakeRender_mem (s : State) : s.wakeRender.mem = s.mem := by
  simp [State.wakeRender]

@[simp] theorem routersRun_mem (s : State) (h : Half) : (s.routersRun h).mem = s.mem := by
  simp [State.routersRun]

@[simp] theorem wakeHalf_mem (s : State) (h : Half) : (s.wakeHalf h).mem = s.mem := by
  simp [State.wakeHalf]

@[simp] theorem wakePlace_mem (s : State) (l : Loc) : (s.wakePlace l).mem = s.mem := by
  unfold State.wakePlace
  dsimp only
  split <;> simp

/-- Parts that an access wakes, rows that cross and errors that they meet change no cell. -/
theorem letIn_mem {s t : State} {ls : List Loc} {d : VcDir} {errs : List MemErr} (h : s.letIn ls d errs = some t) :
    t.mem = s.mem := by
  unfold State.letIn at h
  dsimp only at h
  split at h
  · obtain ⟨u, hu, rfl⟩ := Option.map_eq_some_iff.mp h
    rw [meet_mem, crossAll_mem hu, foldl_mem _ _ _ wakePlace_mem]
  · cases h

@[simp] theorem seamNote_mem (s : State) (a b : Nat) : (s.seamNote a b).mem = s.mem := by
  simp [State.seamNote]

@[simp] theorem flitsTo_mem (s : State) (lc n : Nat) : (s.flitsTo lc n).mem = s.mem := by
  simp [State.flitsTo]

@[simp] theorem carried_mem (s : State) (lc n : Nat) : (s.carried lc n).mem = s.mem := by
  simp [State.carried]

@[simp] theorem reached_mem (s : State) (lc : Nat) (l : Loc) : (s.reached lc l).mem = s.mem := by
  unfold State.reached
  split <;> simp

@[simp] theorem countSample_mem (s : State) (lc k : Nat) : (s.countSample lc k).1.mem = s.mem := by
  unfold State.countSample
  dsimp only
  split <;> simp

@[simp] theorem sampleDone_mem (s : State) (lc : Nat) (issued : Word) (pc : LAddr) (word : BitVec 32)
    (unit : Nat) (flags : Nat) (tkwait : Nat) (status : Nat) :
    (s.sampleDone lc issued pc word unit flags tkwait status).mem = s.mem := by
  simp [State.sampleDone]

@[simp] theorem lateDone_mem (s : State) (lc : Nat) (l : Late) : (s.lateDone lc l).mem = s.mem := by
  unfold State.lateDone
  dsimp only
  split <;> simp

@[simp] theorem settle_mem (s : State) (lc : Nat) : (s.settle lc).mem = s.mem := by
  simp [State.settle]

@[simp] theorem noteIssue_mem (s : State) (lc : Nat) : (s.noteIssue lc).mem = s.mem := by
  simp [State.noteIssue]

@[simp] theorem noteScalar_mem (s : State) (lc : Nat) (i : Flik) (c0 : Core) : (s.noteScalar lc i c0).mem = s.mem := by
  simp [State.noteScalar]

@[simp] theorem scalar_mem (s : State) (lc : Nat) (i : Flik) (f : Core → Core) : (s.scalar lc i f).mem = s.mem := by
  simp [State.scalar]

@[simp] theorem scalarX_mem (s : State) (lc : Nat) (i : Flik) (rd : BitVec 5) (v : Core → Word) :
    (s.scalarX lc i rd v).mem = s.mem := scalar_mem ..

@[simp] theorem excAt_mem (s : State) (lc : Nat) (i : Flik) (cause sub : Nat) (addr : Word) :
    (s.excAt lc i cause sub addr).mem = s.mem := by
  simp [State.excAt]

@[simp] theorem dispatch_mem (s : State) (lc : Nat) (u : UOp) (srUse : Bool) : (s.dispatch lc u srUse).mem = s.mem := by
  simp [State.dispatch]

@[simp] theorem readLocal_wf {s : State} (h0 : s.mem.wf = true) (lc : Nat) (req : Requester) (a len : Nat) :
    (s.readLocal lc req a len).1.mem.wf = true := by
  show State.Sound _
  unfold State.readLocal
  split <;> simp -implicitDefEqProofs [State.Sound, h0]

@[simp] theorem writeLocal_wf {s : State} (h0 : s.mem.wf = true) (lc : Nat) (req : Requester) (a : Nat)
    (bs : List Byte) :
    (s.writeLocal lc req a bs).mem.wf = true := by
  unfold State.writeLocal
  split
  case h_1 => exact writeRegs_wf h0 ..
  case h_5 => exact writeMem_wf h0 ..
  all_goals exact h0

@[simp] theorem issueLoad_mem (s : State) (lc : Nat) (i : Flik) (dst : LoadDst) (a : Core → Word) :
    (s.issueLoad lc i dst a).mem = s.mem := by
  unfold State.issueLoad
  dsimp only
  split
  · split
    · simp
    · split <;> simp
  · rfl

@[simp] theorem issueStore_wf {s : State} (h0 : s.mem.wf = true) (lc : Nat) (i : Flik) (size : Nat) (a : Core → Word)
    (bs : Core → List Byte) (errs : List MemErr) : (s.issueStore lc i size a bs errs).mem.wf = true := by
  unfold State.issueStore
  dsimp only
  split
  · split
    · simpa using h0
    · split
      · split
        · exact h0
        · have hw (b : List Byte) := writeLocal_wf
            (s := ((((s.noteIssue lc).event lc 0x03 1).countSample lc 0).1.meet errs)) (by simpa using h0) lc (.core lc)
            (a (s.core lc)).toNat b
          simpa using hw _
      · split <;> simp [h0]
  · exact h0

@[simp] theorem setEntry_mem (s : State) (lc : Nat) (u : UnitId) (i : Nat) (e : UEntry) :
    (s.setEntry lc u i e).mem = s.mem := by
  simp [State.setEntry]

@[simp] theorem finish_mem (s : State) (lc : Nat) (u : UnitId) (i : Nat) (st : BitVec 8) (v : SumV) :
    (s.finish lc u i st v).mem = s.mem := by
  unfold State.finish
  split <;> simp

theorem work_mem {s : State} {lc : Nat} {u : UnitId} {group mine : UOp → Bool} {f : State → Nat → UEntry → State}
    (hf : ∀ i e, (f s i e).mem = s.mem) : (s.work lc u group mine f).mem = s.mem := by
  unfold State.work
  split
  · rfl
  · split
    · split
      · exact hf _ _
      · rfl
    · rfl

/-- The work of a unit is the work of the entry that it works on, or nothing. -/
theorem work_sound {s : State} (h0 : s.Sound) {lc : Nat} {u : UnitId} {group mine : UOp → Bool}
    {f : State → Nat → UEntry → State} (hf : ∀ i e, (f s i e).Sound) : (s.work lc u group mine f).Sound := by
  unfold State.work
  split
  · exact h0
  · split
    · split
      · exact hf _ _
      · exact h0
    · exact h0

@[simp] theorem unitSample_mem (s : State) (lc : Nat) (u : UnitId) (e : UEntry) (st : BitVec 8) :
    (s.unitSample lc u e st).mem = s.mem := by
  simp [State.unitSample]

@[simp] theorem complete_mem (s : State) (lc : Nat) (u : UnitId) (e : UEntry) (rest : List UEntry) (r : Fin) :
    (s.complete lc u e rest r).mem = s.mem := by
  simp [State.complete]

theorem trowel_mem {s : State} {lc : Nat} {engine mine : UOp → Bool} {errs : List MemErr}
    {f : State → Nat → UEntry → State} (hf : ∀ (t : State) i e, (f t i e).mem = t.mem) :
    (s.trowel lc engine mine errs f).mem = s.mem := by
  refine work_mem fun i e => ?_
  split
  · exact (hf ..).trans (meet_mem ..)
  · rfl

theorem trowel_sound {s : State} (h0 : s.Sound) {lc : Nat} {engine mine : UOp → Bool} {errs : List MemErr}
    {f : State → Nat → UEntry → State} (hf : ∀ (t : State) i e, t.Sound → (f t i e).Sound) :
    (s.trowel lc engine mine errs f).Sound := by
  refine work_sound h0 fun i e => ?_
  split
  · exact hf _ _ _ (Sound.of_mem h0 (meet_mem ..))
  · exact h0

@[simp] theorem doMma_mem (s : State) (lc i : Nat) (e : UEntry) (bankB init : Bool) :
    (s.doMma lc i e bankB init).mem = s.mem := by
  unfold State.doMma
  dsimp only
  split <;> simp

@[simp] theorem doDrain_wf {s : State} (h0 : s.mem.wf = true) (lc i : Nat) (e : UEntry) (f : DrainF) :
    (s.doDrain lc i e f).mem.wf = true := by
  have piece {t : State} (ht : t.Sound) (o n : Nat) (bs : List Byte) (p : Bool) :
      (if p then (t.hawkWrite lc o bs).hawkPoison lc o n else t.hawkWrite lc o bs).Sound := by
    split
    · exact Sound.of_mem (hawkWrite_sound ht ..) (hawkPoison_mem ..)
    · exact hawkWrite_sound ht ..
  show State.Sound _
  unfold State.doDrain
  dsimp only
  split
  · exact Sound.of_mem h0 (finish_mem ..)
  · simp only [State.Sound, finish_mem, State.mem_ite, State.setCore_mem, ite_self]
    refine Sound.foldl _ (fun t r ht => ?_) _ (Sound.of_mem h0 (event_mem ..))
    split
    · exact piece ht ..
    · exact piece (piece ht ..) ..

@[simp] theorem doLdacc_mem (s : State) (lc i : Nat) (e : UEntry) (bankB : Bool) :
    (s.doLdacc lc i e bankB).mem = s.mem := by
  unfold State.doLdacc
  split
  · exact finish_mem ..
  · exact (finish_mem ..).trans (State.setCore_mem ..)

@[simp] theorem writeView_wf {s : State} (h0 : s.mem.wf = true) (lc : Nat) (m : FMap Byte) (poison : List Nat) :
    (s.writeView lc m poison).mem.wf = true := by
  show State.Sound _
  unfold State.writeView
  exact Sound.foldl _ (fun t o ht => Sound.of_mem ht (hawkPoison_mem ..)) _
    (Sound.foldl _ (fun t x ht => hawkWrite_sound ht ..) _ h0)

@[simp] theorem writeOut_wf {s : State} (h0 : s.mem.wf = true) (lc : Nat) (b : BRun) (outs : List BOut) :
    (s.writeOut lc b outs).mem.wf = true := by
  show State.Sound _
  unfold State.writeOut
  exact writeView_wf h0 ..

@[simp] theorem writeReds_wf {s : State} (h0 : s.mem.wf = true) (lc : Nat) (v : BView) (rs : List BRed) :
    (s.writeReds lc v rs).mem.wf = true := by
  show State.Sound _
  unfold State.writeReds
  exact writeView_wf h0 ..

@[simp] theorem doRun_wf {s : State} (h0 : s.mem.wf = true) (lc i : Nat) (e : UEntry) :
    (s.doRun lc i e).mem.wf = true := by
  show State.Sound _
  unfold State.doRun
  dsimp only
  split
  · exact Sound.of_mem h0 (finish_mem ..)
  · refine Sound.of_mem (writeReds_wf (writeReds_wf ?_ ..) ..) (finish_mem ..)
    split
    · exact writeOut_wf (Sound.of_mem h0 ((event_mem ..).trans (event_mem ..))) ..
    · exact Sound.of_mem h0 ((event_mem ..).trans (event_mem ..))

@[simp] theorem doLdp_mem (s : State) (lc i : Nat) (e : UEntry) (slot : Nat) : (s.doLdp lc i e slot).mem = s.mem := by
  simp [State.doLdp]

@[simp] theorem endMismatches_mem (s : State) (u : UnitId) : (s.endMismatches u).mem = s.mem := by
  simp [State.endMismatches]

@[simp] theorem sampleLoad_wf {s : State} (h0 : s.mem.wf = true) (lc k : Nat) (l : Load) (errs : List MemErr) :
    (s.sampleLoad lc k l errs).1.mem.wf = true := by
  unfold State.sampleLoad
  dsimp only
  split
  · exact h0
  · split
    · exact h0
    · split
      · exact h0
      · split
        · exact h0
        · rename_i t ht
          exact readLocal_wf (by simpa [crossTo_mem ht] using h0) ..

@[simp] theorem loadPoison_mem (s : State) (lc : Nat) (l : Load) : (s.loadPoison lc l).mem = s.mem := by
  simp [State.loadPoison]

@[simp] theorem storesDone_wf {s : State} (h0 : s.mem.wf = true) (lc : Nat) : (s.storesDone lc).mem.wf = true := by
  unfold State.storesDone
  dsimp only
  split
  · exact h0
  · split
    · simpa using h0
    · rename_i a d _
      have hw := writeLocal_wf (s := (s.noteIssue lc).event lc 0x03 1) (by simpa using h0) lc (.core lc) a.toNat
        (leBytes 8 d.toNat)
      repeat' split
      all_goals simp [h0, hw]
    · exact h0

@[simp] theorem performStore_wf {s : State} (h0 : s.mem.wf = true) (lc : Nat) (m : Met Nat) :
    (s.performStore lc m).mem.wf = true := by
  unfold State.performStore
  dsimp only
  split
  · exact h0
  · split
    · exact h0
    · split
      · exact h0
      · rename_i t ht
        have h1 : t.mem.wf = true := by simpa [crossTo_mem ht] using h0
        refine storesDone_wf ?_ lc
        have hw (x : State) (hx : x.mem.wf = true) (a : Nat) (bs : List Byte) := writeLocal_wf hx lc (.core lc) a bs
        split <;> split <;> simp [h1, hw]

end Sys2Proof.Machine
end

