-- ==== Sys2Proof/Proofs/SoundUnits.lean ====
section
/-!
SUPPORT (O59). Memory through the Trowel, the Brush, the Rollers, the Scrim, the links and the vertical channels.
-/

namespace Sys2Proof.Machine

@[simp] theorem readLine_wf {s : State} (h0 : s.mem.wf = true) (lc tag : Nat) :
    (s.readLine lc tag).1.mem.wf = true := by
  show State.Sound _
  unfold State.readLine
  dsimp only
  split
  · exact h0
  · split
    · split
      · exact Sound.of_mem h0 (rndAccess_mem ..)
      · exact rcLine_sound h0 _
    · exact Sound.of_mem h0 (rndAccess_mem ..)
    · exact Sound.of_mem h0 (hodAccess_mem ..)
    · exact h0

@[simp] theorem fetchFault_mem (s : State) (lc : Nat) (poison : Bool) : (s.fetchFault lc poison).mem = s.mem := by
  simp [State.fetchFault]

@[simp] theorem preload_wf {s : State} (h0 : s.mem.wf = true) (lc : Nat) (pc : LAddr) :
    (s.preload lc pc).mem.wf = true := by
  show State.Sound _
  unfold State.preload
  refine Sound.foldl _ (fun t k ht => ?_) _ h0
  have hr : (t.readLine lc (pc.toNat / 256 + k)).1.Sound := readLine_wf ht lc _
  split
  · rename_i u l hu
    rw [hu] at hr
    exact Sound.of_mem hr (State.setCore_mem ..)
  · rename_i u hu
    rw [hu] at hr
    exact hr

@[simp] theorem noteEntry_mem (s : State) (lc i : Nat) (d : List Byte) : (s.noteEntry lc i d).mem = s.mem := by
  simp [State.noteEntry]

@[simp] theorem awaited_mem (s : State) (lc : Nat) (u : UnitId) (key : Nat) (st : Option (BitVec 8)) (n : Nat) :
    (s.awaited lc u key st n).mem = s.mem := by
  unfold State.awaited
  split <;> simp

@[simp] theorem beginRow_mem (s : State) (lc i : Nat) (e : UEntry) : (s.beginRow lc i e).mem = s.mem := by
  unfold State.beginRow
  repeat' split
  all_goals simp

@[simp] theorem copyRow_wf {s : State} (h0 : s.mem.wf = true) (src dst : Nat) :
    (s.copyRow src dst).1.mem.wf = true := by
  show State.Sound _
  unfold State.copyRow
  refine Sound.foldl _ (fun t g ht => ?_) _ (writeRun_sound h0 _ _)
  split
  · exact Sound.of_mem ht (poisonGran_mem ..)
  · exact ht

@[simp] theorem commitRow_wf {s : State} (h0 : s.mem.wf = true) (lc i : Nat) (e : UEntry) (dn : Bool) :
    (s.commitRow lc i e dn).mem.wf = true := by
  show State.Sound _
  unfold State.commitRow
  split <;> simp -implicitDefEqProofs [State.Sound, h0]

@[simp] theorem fetchPart_wf {s : State} (h0 : s.mem.wf = true) (lc pos a n : Nat) (f : Fetch) :
    (s.fetchPart lc pos a n f).1.mem.wf = true := by
  show State.Sound _
  unfold State.fetchPart
  dsimp only
  repeat' split
  all_goals simp -implicitDefEqProofs [State.Sound, h0]

@[simp] theorem fetchRemote_mem (s : State) (lc : Nat) (u : UnitId) (pos dev a len : Nat) (f : Fetch) :
    (s.fetchRemote lc u pos dev a len f).1.mem = s.mem := by
  unfold State.fetchRemote
  refine foldl_fst_mem _ (fun r b => ?_) _ _
  dsimp only
  split
  · rfl
  · exact sendPacket_mem ..

@[simp] theorem fetchRuns_wf {s : State} (h0 : s.mem.wf = true) (lc : Nat) (p : Place) (ds : List Int) (len : Nat) :
    (s.fetchRuns lc p ds len).1.mem.wf = true := by
  show State.Sound _
  unfold State.fetchRuns
  refine Sound.foldl_fst _ (fun r i hr => ?_) _ h0
  dsimp only
  split
  · exact Sound.foldl_fst _ (fun r x hr => fetchPart_wf hr ..) _ hr
  · exact Sound.of_mem hr (fetchRemote_mem ..)
  · exact hr

@[simp] theorem writePart_wf {s : State} (h0 : s.mem.wf = true) (lc a : Nat) (bs : List SByte) :
    (s.writePart lc a bs).mem.wf = true := by
  show State.Sound _
  unfold State.writePart
  split
  · exact writeBlock_sound h0 ..
  · refine Sound.foldl _ (fun t j ht => ?_) _ h0
    split
    · exact writeBlock_sound ht ..
    · exact ht

@[simp] theorem storePart_wf {s : State} (h0 : s.mem.wf = true) (lc : Nat) (bar : NSet) (a : Nat) (bs : List SByte)
    (t : Store) : (s.storePart lc bar a bs t).1.mem.wf = true := by
  show State.Sound _
  unfold State.storePart
  dsimp only
  split
  · split
    · exact Sound.of_mem h0 (lathEvent_mem ..)
    · exact h0
  · exact h0
  · exact Sound.foldl _ (fun t b ht => Sound.intro (writeRegs_wf ht ..)) _ (Sound.of_mem h0 (reached_mem ..))
  · split
    · exact Sound.of_mem h0 (reached_mem ..)
    · exact writePart_wf (by simpa using h0) ..

@[simp] theorem storeRemote_mem (s : State) (lc : Nat) (u : UnitId) (bar : NSet) (dev a : Nat) (bs : List SByte)
    (t : Store) : (s.storeRemote lc u bar dev a bs t).1.mem = s.mem := by
  unfold State.storeRemote
  refine foldl_fst_mem _ (fun r b => ?_) _ _
  dsimp only
  split
  · rfl
  · exact sendPacket_mem ..

@[simp] theorem storeRuns_wf {s : State} (h0 : s.mem.wf = true) (lc : Nat) (bar : NSet) (p : Place) (ds : List Int)
    (len : Nat) (str : List SByte) : (s.storeRuns lc bar p ds len str).1.mem.wf = true := by
  show State.Sound _
  unfold State.storeRuns
  refine Sound.foldl_fst _ (fun r i hr => ?_) _ h0
  dsimp only
  split
  · exact Sound.foldl _ (fun t g ht => poisonLoc_sound ht _) _
      (Sound.foldl_fst _ (fun r x hr => Sound.intro (storePart_wf hr ..)) _ hr)
  · exact Sound.of_mem hr (storeRemote_mem ..)
  · exact hr

@[simp] theorem flagAt_wf {s : State} (h0 : s.mem.wf = true) (a op : Nat) (v : Word) :
    (s.flagAt a op v).mem.wf = true := by
  show State.Sound _
  unfold State.flagAt
  split
  · exact writeRun_sound h0 ..
  · exact h0

@[simp] theorem flagRemote_mem (s : State) (lc : Nat) (u : UnitId) (dev a op : Nat) (rel : Bool) (v : Word) :
    (s.flagRemote lc u dev a op rel v).1.mem = s.mem := by
  simp [State.flagRemote]

@[simp] theorem afterStore_wf {s : State} (h0 : s.mem.wf = true) (lc i : Nat) (e : UEntry) (putf : Bool) :
    (s.afterStore lc i e putf).mem.wf = true := by
  have ends (st : BitVec 8) (v : SumV) : (s.finish lc .mover i st v).Sound := Sound.of_mem h0 (finish_mem ..)
  show State.Sound _
  unfold State.afterStore
  dsimp only
  iterate 3 (split; exact ends ..)
  split
  · exact h0
  · split
    · split
      · exact ends ..
      · split
        · exact Sound.of_mem (flagAt_wf (by simpa using h0) ..) (finish_mem ..)
        · exact h0
    · split
      · exact ends ..
      · exact Sound.of_mem h0 ((setEntry_mem ..).trans (flagRemote_mem ..))
    · exact ends ..

@[simp] theorem afterFetch_wf {s : State} (h0 : s.mem.wf = true) (lc i : Nat) (e : UEntry) (putf : Bool)
    (errs : List MemErr) : (s.afterFetch lc i e putf errs).mem.wf = true := by
  show State.Sound _
  unfold State.afterFetch
  dsimp only
  split
  · exact h0
  · rename_i t ht
    have h1 : t.Sound := Sound.of_mem h0 (crossAll_mem ht)
    have h2 (p : Place) (ds : List Int) (n : Nat) (str : List SByte) := storeRuns_wf h1 lc e.barred p ds n str
    split
    · exact afterStore_wf (by simpa using h2 ..) ..
    · exact Sound.of_mem (h2 ..) ((setEntry_mem ..).trans (event_mem ..))

@[simp] theorem moverOn_wf {s : State} (h0 : s.mem.wf = true) (lc : Nat) (errs : List MemErr) :
    (s.moverOn lc errs).mem.wf = true := by
  show State.Sound _
  unfold State.moverOn
  split <;> simp -implicitDefEqProofs [State.Sound, h0]

@[simp] theorem beginBlk_wf {s : State} (h0 : s.mem.wf = true) (lc i : Nat) (e : UEntry) (errs : List MemErr)
    (putf : Bool) : (s.beginBlk lc i e errs putf).mem.wf = true := by
  show State.Sound _
  unfold State.beginBlk
  dsimp only
  split
  · exact moverOn_wf h0 ..
  split
  · exact h0
  split
  · exact Sound.of_mem h0 (finish_mem ..)
  split
  · exact Sound.of_mem h0 (finish_mem ..)
  split
  · exact h0
  split
  · exact h0
  rename_i t ht
  have h1 : (t.meet errs).Sound := Sound.of_mem h0 ((meet_mem ..).trans (crossAll_mem ht))
  split
  · exact Sound.of_mem h1 (finish_mem ..)
  have h2 (p : Place) (ds : List Int) (n : Nat) := fetchRuns_wf h1 lc p ds n
  split
  · exact afterFetch_wf (by simpa using h2 ..) ..
  · exact Sound.of_mem (h2 ..) (setEntry_mem ..)

@[simp] theorem doRcfl_wf {s : State} (h0 : s.mem.wf = true) (lc i : Nat) (e : UEntry) (inv : Bool) :
    (s.doRcfl lc i e inv).mem.wf = true := by
  show State.Sound _
  unfold State.doRcfl
  dsimp only
  split
  · exact h0
  split
  · exact Sound.of_mem h0 (finish_mem ..)
  split
  · exact h0
  · refine Sound.of_mem (Sound.foldl _ (fun t l ht => rcBack_sound ht l) _ h0) (finish_mem ..)

@[simp] theorem movRow_mem (s : State) (lc : Nat) (dn : Bool) (step : UStep UnitF) :
    (s.movRow lc dn step).mem = s.mem := by
  unfold State.movRow
  split
  · exact dispatch_mem ..
  · exact work_mem fun i e => (beginRow_mem ..).trans (meet_mem ..)

@[simp] theorem movRcfl_wf {s : State} (h0 : s.mem.wf = true) (lc : Nat) (inv : Bool) (step : UStep UnitF) :
    (s.movRcfl lc inv step).mem.wf = true := by
  show State.Sound _
  unfold State.movRcfl
  split
  · exact Sound.of_mem h0 (dispatch_mem ..)
  · exact work_sound h0 fun i e => Sound.intro (doRcfl_wf (by simpa using h0) ..)

@[simp] theorem sendRlr_mem (s : State) (lc i : Nat) (e : UEntry) (errs : List MemErr) :
    (s.sendRlr lc i e errs).mem = s.mem := by
  unfold State.sendRlr
  extract_lets d vld
  split
  · exact finish_mem ..
  split
  · rfl
  split
  · rfl
  · rename_i t ht
    exact (setEntry_mem ..).trans (crossAll_mem ht)

@[simp] theorem rlrPerform_mem (s : State) (lc : Nat) (mine : UOp → Bool) (errs : List MemErr) :
    (s.rlrPerform lc mine errs).mem = s.mem := by
  unfold State.rlrPerform
  split
  · split
    · exact (sendRlr_mem ..).trans (meet_mem ..)
    · rfl
  · rfl

theorem rdLands_mem {s t : State} {st i : Nat} {c : RlrCmd} {errs : List MemErr} (h : s.rdLands st i c errs = some t) :
    t.mem = s.mem := by
  unfold State.rdLands at h
  dsimp only at h
  split at h
  · cases h; rfl
  split at h
  · split at h
    · cases h
    · exact cross_mem h
  · exact cross_mem h

/-- What one Roller does of a command keeps memory sound. -/
theorem rollerRun_sound {a : RDone} (h0 : a.s.Sound) (c : RlrCmd) (x rank : Nat) : (rollerRun c x rank a).s.Sound := by
  unfold rollerRun
  dsimp only
  split
  · exact h0
  · exact h0
  · exact Sound.of_mem (Sound.foldl _ (fun t _ ht => Sound.of_mem ht (hawkPoison_mem ..)) _ (hawkWrite_sound h0 ..))
      (State.setRoller_mem ..)
  · refine Sound.of_mem (Sound.foldl _ (fun t q ht => ?_) _ h0) (State.setRoller_mem ..)
    exact Sound.foldl _ (fun t _ ht => Sound.of_mem ht (poisonGran_mem ..)) _
      (writeRun_sound (Sound.foldl _ (fun t _ ht => Sound.of_mem ht (openRow_mem ..)) _ ht) ..)

theorem rollerRun_foldl_sound (c : RlrCmd) (f : RDone → Nat → RDone) (hf : ∀ a k, a.s.Sound → (f a k).s.Sound) :
    ∀ (l : List Nat) {a : RDone}, a.s.Sound → (l.foldl f a).s.Sound
  | [], _, h => h
  | k :: l, a, h => rollerRun_foldl_sound c f hf l (hf a k h)

theorem stackRun_sound {s : State} (h0 : s.Sound) (st : Nat) (c : RlrCmd) : (s.stackRun st c).s.Sound := by
  unfold State.stackRun
  refine rollerRun_foldl_sound c _ (fun a k ha => ?_) _ h0
  dsimp only
  split
  · exact rollerRun_sound ha ..
  · exact ha

@[simp] theorem seqStep_wf {s : State} (h0 : s.mem.wf = true) (st : Nat) (errs : List MemErr) :
    (s.seqStep st errs).mem.wf = true := by
  have done {t : State} (ht : t.Sound) (c : RlrCmd) (q : List RlrCmd) :
      ((t.stackRun st c).s.setQueue st q).Sound := Sound.of_mem (stackRun_sound ht st c) (State.setQueue_mem ..)
  show State.Sound _
  unfold State.seqStep
  dsimp only
  split
  · exact h0
  split
  · exact h0
  rename_i t ht
  refine done ?_ ..
  split at ht
  · cases ht
  split at ht
  · exact Sound.of_mem h0 (rdLands_mem ht)
  · cases ht; exact h0

@[simp] theorem seqOn_wf {s : State} (h0 : s.mem.wf = true) (st : Nat) (errs : List MemErr) :
    (s.seqOn st errs).mem.wf = true := by
  show State.Sound _
  unfold State.seqOn
  exact Sound.foldl _ (fun t _ ht => Sound.intro (seqStep_wf ht ..)) _ h0

@[simp] theorem report_mem (s : State) (lc i : Nat) (e : UEntry) (c : RlrCmd) : (s.report lc i e c).mem = s.mem := by
  simp [State.report]

@[simp] theorem closeRows_mem (s : State) (chan : Nat) : (s.closeRows chan).mem = s.mem := by
  simp [State.closeRows]

@[simp] theorem gapRefresh_mem (s : State) (ch : Nat) : (s.gapRefresh ch).mem = s.mem := by
  simp [State.gapRefresh]

@[simp] theorem gapEnd_mem (s : State) (ch : Nat) : (s.gapEnd ch).mem = s.mem := by
  simp [State.gapEnd]

@[simp] theorem setGap_mem (s : State) (x : Nat) (g : Option Nat) : (s.setGap x g).mem = s.mem := by
  simp [State.setGap]

@[simp] theorem gapClose_mem (s : State) (x : Nat) : (s.gapClose x).mem = s.mem := by
  simp [State.gapClose]

@[simp] theorem passEnd_mem (s : State) (x n : Nat) (errs : List MemErr) : (s.passEnd x n errs).mem = s.mem := by
  unfold State.passEnd
  dsimp only
  split <;> simp

@[simp] theorem loseRoller_mem (s : State) (c : RlrCmd) (x : Nat) : (s.loseRoller c x).mem = s.mem := by
  unfold State.loseRoller
  dsimp only
  split
  · exact hawkPoison_mem ..
  · exact foldl_mem _ _ _ fun t q => foldl_mem _ _ _ fun t g => poisonGran_mem ..
  · rfl

@[simp] theorem resetRollers_wf {s : State} (h0 : s.mem.wf = true) (chan : Nat) :
    (s.resetRollers chan).mem.wf = true := by
  show State.Sound _
  unfold State.resetRollers
  refine seqOn_wf (rcDrain_wf ?_) _ _
  rw [gapRefresh_mem]
  refine Sound.foldl _ (fun t i ht => ?_) _ h0
  split
  · exact ht
  dsimp only
  split
  · exact ht
  · have h1 (xs : List Nat) (c : RlrCmd) : (xs.foldl (fun t x => t.loseRoller c x) t).Sound :=
      Sound.of_mem ht (foldl_mem _ _ _ fun _ _ => loseRoller_mem ..)
    split
    · exact Sound.of_mem (h1 ..) (State.setQueue_mem ..)
    · exact Sound.of_mem (h1 ..) ((State.incRf_mem ..).trans (State.setQueue_mem ..))

theorem scrimPerform_mem {s : State} {lc : Nat} {mine : UOp → Bool} {f : State → Nat → UEntry → State}
    (hf : ∀ i e, (f s i e).mem = s.mem) : (s.scrimPerform lc mine f).mem = s.mem := by
  unfold State.scrimPerform
  split
  · split
    · exact hf ..
    · rfl
  · rfl

theorem scrimPerform_sound {s : State} (h0 : s.Sound) {lc : Nat} {mine : UOp → Bool}
    {f : State → Nat → UEntry → State} (hf : ∀ i e, (f s i e).Sound) : (s.scrimPerform lc mine f).Sound := by
  unfold State.scrimPerform
  split
  · split
    · exact hf ..
    · exact h0
  · exact h0

@[simp] theorem beginMcast_mem (s : State) (lc i : Nat) (e : UEntry) : (s.beginMcast lc i e).mem = s.mem := by
  unfold State.beginMcast
  dsimp only
  split
  · exact finish_mem ..
  split
  · rfl
  · exact (setEntry_mem ..).trans (freeEvent_mem ..)

@[simp] theorem mcastDone_mem (s : State) (lc i : Nat) (e : UEntry) : (s.mcastDone lc i e).mem = s.mem := by
  simp [State.mcastDone]

@[simp] theorem mcastFlag_wf {s : State} (h0 : s.mem.wf = true) (lc i n : Nat) (e : UEntry) (errs : List MemErr) :
    (s.mcastFlag lc i n e errs).mem.wf = true := by
  show State.Sound _
  unfold State.mcastFlag
  dsimp only
  simp -implicitDefEqProofs [State.Sound, h0]

@[simp] theorem setColl_mem (s : State) (k : Coll) : (s.setColl k).mem = s.mem := by
  simp [State.setColl]

@[simp] theorem dropColl_mem (s : State) (dest rid : Nat) : (s.dropColl dest rid).mem = s.mem := by
  simp [State.dropColl]

@[simp] theorem endColl_mem (s : State) (k : Coll) (st : BitVec 8) : (s.endColl k st).mem = s.mem := by
  unfold State.endColl
  refine foldl_mem _ _ _ fun t lc => foldl_mem _ _ _ fun t i => ?_
  split
  · split
    · exact finish_mem ..
    · rfl
  · rfl

@[simp] theorem mismatch_mem (s : State) (k : Coll) : (s.mismatch k).mem = s.mem := by
  simp [State.mismatch]

@[simp] theorem joinColl_mem (s : State) (lc i : Nat) (e : UEntry) (dest rid : Nat) :
    (s.joinColl lc i e dest rid).mem = s.mem := by
  unfold State.joinColl
  dsimp only
  split <;> simp

@[simp] theorem writeRed_wf {s : State} (h0 : s.mem.wf = true) (lc i : Nat) (e : UEntry) (k : Coll) :
    (s.writeRed lc i e k).mem.wf = true := by
  show State.Sound _
  unfold State.writeRed
  extract_lets r int f dead res codes bs poi t u fl
  have ht : t.Sound := hawkWrite_sound h0 ..
  have hu : u.Sound := by
    dsimp only [u]
    split
    · exact Sound.of_mem ht (hawkPoison_mem ..)
    · refine Sound.foldl _ (fun v j hv => ?_) _ ht
      split
      · exact Sound.of_mem hv (hawkPoison_mem ..)
      · exact hv
  exact Sound.of_mem hu ((finish_mem ..).trans (dropColl_mem ..))

@[simp] theorem collOn_wf {s : State} (h0 : s.mem.wf = true) (dest rid : Nat) :
    (s.collOn dest rid).mem.wf = true := by
  show State.Sound _
  unfold State.collOn
  repeat' split
  all_goals simp -implicitDefEqProofs [State.Sound, h0]

theorem reachColl_sound {s : State} (h0 : s.Sound) {lc : Nat} {new : Coll} {f : State → Coll → State}
    (hf : ∀ (t : State) k, t.Sound → (f t k).Sound) : (s.reachColl lc new f).Sound := by
  unfold State.reachColl
  split
  · split
    · exact hf _ _ (Sound.of_mem h0 (dropColl_mem ..))
    · exact h0
  split
  · exact Sound.of_mem h0 (endColl_mem ..)
  split
  · exact hf _ _ h0
  split
  · exact Sound.of_mem h0 (mismatch_mem ..)
  · exact hf _ _ h0

@[simp] theorem collsOf_wf {s : State} (h0 : s.mem.wf = true) (lc : Nat) : (s.collsOf lc).mem.wf = true := by
  show State.Sound _
  unfold State.collsOf
  exact Sound.foldl _ (fun t k ht => Sound.intro (collOn_wf ht ..)) _ h0

@[simp] theorem doFlag_wf {s : State} (h0 : s.mem.wf = true) (lc i : Nat) (e : UEntry) :
    (s.doFlag lc i e).mem.wf = true := by
  show State.Sound _
  unfold State.doFlag
  dsimp only
  repeat' split
  all_goals simp -implicitDefEqProofs [State.Sound, h0]

@[simp] theorem flagRow_wf {s : State} (h0 : s.mem.wf = true) (lc k : Nat) (step : UStep UnitF) :
    (s.flagRow lc k step).mem.wf = true := by
  show State.Sound _
  unfold State.flagRow
  split
  · exact Sound.of_mem h0 (dispatch_mem ..)
  · refine scrimPerform_sound h0 fun i e => ?_
    split
    · exact Sound.intro (doFlag_wf (by simpa using h0) ..)
    · exact h0

@[simp] theorem scrimOn_mem (s : State) (lc : Nat) : (s.scrimOn lc).mem = s.mem := by
  unfold State.scrimOn
  split <;> simp

@[simp] theorem unitOn_wf {s : State} (h0 : s.mem.wf = true) (lc : Nat) (u : UnitId) :
    (s.unitOn lc u).mem.wf = true := by
  cases u with
  | mover => exact moverOn_wf h0 ..
  | scrim => exact Sound.of_mem h0 (scrimOn_mem ..)
  | trowel | brush | stencil => exact h0

@[simp] theorem fillMissing_mem (s : State) (key : Nat) (u : Unacked) (unit : UnitId) (poi : Bool) :
    (s.fillMissing key u unit poi).mem = s.mem := by
  unfold State.fillMissing
  repeat' split
  all_goals simp

@[simp] theorem endPacket_wf {s : State} (h0 : s.mem.wf = true) (fkey : Nat) (u : Unacked) (st : Option (BitVec 8))
    (n : Nat) : (s.endPacket fkey u st n).mem.wf = true := by
  show State.Sound _
  unfold State.endPacket
  split
  · dsimp only
    refine storesDone_wf (unitOn_wf ?_ ..) _
    rw [awaited_mem]
    split
    · exact h0
    · exact h0
  · exact h0

@[simp] theorem endFlow_wf {s : State} (h0 : s.mem.wf = true) (fkey : Nat) : (s.endFlow fkey).mem.wf = true := by
  show State.Sound _
  unfold State.endFlow
  split
  · exact h0
  · refine Sound.foldl _ (fun t u ht => endPacket_wf ?_ ..) _ h0
    split
    · exact Sound.of_mem ht (fillMissing_mem ..)
    · exact ht

@[simp] theorem resetPort_wf {s : State} (h0 : s.mem.wf = true) (p : Nat) : (s.resetPort p).mem.wf = true := by
  show State.Sound _
  unfold State.resetPort
  exact Sound.foldl _ (fun t e ht => Sound.intro (endFlow_wf ht _)) _ h0

@[simp] theorem failPort_mem (s : State) (p : Nat) : (s.failPort p).mem = s.mem := by
  simp [State.failPort]

@[simp] theorem ackAnswers_mem (s : State) (p : Nat) : (s.ackAnswers p).mem = s.mem := by
  simp [State.ackAnswers]

@[simp] theorem afterFrame_mem (s : State) (p : Nat) (f : Frame) (report : Bool) :
    (s.afterFrame p f report).mem = s.mem := by
  simp [State.afterFrame]

@[simp] theorem nakFrame_mem (s : State) (p : Nat) : (s.nakFrame p).mem = s.mem := by
  simp [State.nakFrame]

@[simp] theorem badFrame_mem (s : State) (p : Nat) : (s.badFrame p).mem = s.mem := by
  simp [State.badFrame]

@[simp] theorem noteFrame_mem (s : State) (p : Nat) (f : Frame) : (s.noteFrame p f).mem = s.mem := by
  simp [State.noteFrame]

theorem frameIn_ok_mem {s t : State} {p : Nat} {f : Frame} (h : s.frameIn p f = .ok t) : t.mem = s.mem := by
  unfold State.frameIn at h
  dsimp only at h
  split at h
  · cases h
  split at h
  · cases h
  · cases h; exact noteFrame_mem ..

theorem frameIn_error_mem {s t : State} {p : Nat} {f : Frame} (h : s.frameIn p f = .error t) : t.mem = s.mem := by
  unfold State.frameIn at h
  dsimp only at h
  split at h
  · cases h; simp
  split at h
  · cases h; simp
  · cases h

@[simp] theorem rxJudge_mem (s : State) (vc : Nat) (p : Packet) : (s.rxJudge vc p).1.mem = s.mem := by
  unfold State.rxJudge
  extract_lets key e n
  split
  · rfl
  split
  · rfl
  split <;> rfl

@[simp] theorem relayOn_mem (s : State) (vc : Nat) (p : Packet) : (s.relayOn vc p).mem = s.mem := by
  simp [State.relayOn]

@[simp] theorem onMgt_mem (s : State) (p : Packet) : (s.onMgt p).mem = s.mem := by
  simp [State.onMgt]

@[simp] theorem replayFrom_mem (s : State) (p i : Nat) : (s.replayFrom p i).mem = s.mem := by
  unfold State.replayFrom
  dsimp only
  repeat' split
  all_goals simp

@[simp] theorem laneSnag_mem (s : State) (p lane : Nat) (whole : Bool) : (s.laneSnag p lane whole).mem = s.mem := by
  simp [State.laneSnag]

@[simp] theorem noteLanes_mem (s : State) (p : Nat) (l : BitVec 8) : (s.noteLanes p l).mem = s.mem := by
  simp [State.noteLanes]

@[simp] theorem portTrained_mem (s : State) (port : Nat) (t : Training) : (s.portTrained port t).mem = s.mem := by
  simp [State.portTrained]

theorem takePacket_mem {s t : State} {port op : Nat} {p : Packet} (h : s.takePacket port op = some (t, p)) :
    t.mem = s.mem := by
  unfold State.takePacket at h
  dsimp only at h
  split at h
  · split at h
    · cases h; simp
    · cases h
  · cases h

/-- A packet that a port takes is relayed, dropped, or served; what serves it keeps memory sound. -/
theorem onPacket_sound {s : State} (h0 : s.Sound) {port op : Nat} {f : State → Packet → Bool → Option State}
    (hf : ∀ (t u : State) p b, t.Sound → f t p b = some u → u.Sound) : (s.onPacket port op f).Sound := by
  have served {t : State} (ht : t.Sound) (p : Packet) (b : Bool) : ((f t p b).getD s).Sound := by
    cases hu : f t p b with
    | none => exact h0
    | some u => exact hf t u p b ht hu
  unfold State.onPacket
  split
  · exact h0
  rename_i t p ht
  have h1 : t.Sound := Sound.of_mem h0 (takePacket_mem ht)
  have h2 : (t.rxJudge p.vc p).1.Sound := Sound.of_mem h1 (rxJudge_mem ..)
  split
  · exact Sound.of_mem h1 (relayOn_mem ..)
  split <;> rename_i hj <;> rw [hj] at h2
  · exact served h2 ..
  · exact served h2 ..
  · exact h2

@[simp] theorem putPart_wf {s : State} (h0 : s.mem.wf = true) (dev a : Nat) (bs : List Byte) (poi : Bool)
    (w : Option (BitVec 8)) : (s.putPart dev a bs poi w).1.mem.wf = true := by
  show State.Sound _
  unfold State.putPart
  dsimp only
  split
  · exact Sound.foldl _ (fun t b ht => Sound.intro (writeRegs_wf ht ..)) _ h0
  split
  · exact poisonLoc_sound h0 _
  dsimp only
  split
  · exact poisonLoc_sound (writeBlock_sound h0 ..) _
  · exact writeBlock_sound h0 ..

@[simp] theorem answer_mem (s : State) (p : Packet) (op : BitVec 8) (st : BitVec 8) (poi : Bool) (data : List Byte) :
    (s.answer p op st poi data).mem = s.mem := by
  simp [State.answer]

@[simp] theorem readPart_wf {s : State} (h0 : s.mem.wf = true) (dev a n : Nat) (r : List Byte × Bool × Option
    (BitVec 8)) :
    (s.readPart dev a n r).1.mem.wf = true := by
  show State.Sound _
  unfold State.readPart
  dsimp only
  repeat' split
  all_goals simp -implicitDefEqProofs [State.Sound, h0]

@[simp] theorem resend_mem (s : State) (f : TxFlow) : (s.resend f).mem = s.mem := by
  simp [State.resend]

@[simp] theorem rubLoses_wf {s : State} (h0 : s.mem.wf = true) (chan lc : Option Nat) :
    (s.rubLoses chan lc).mem.wf = true := by
  show State.Sound _
  unfold State.rubLoses
  dsimp only
  simp -implicitDefEqProofs [State.Sound, h0]

@[simp] theorem endOnChannel_mem (s : State) (site : Nat) : (s.endOnChannel site).mem = s.mem := by
  simp [State.endOnChannel]

@[simp] theorem retireSite_wf {s : State} (h0 : s.mem.wf = true) (site : Nat) :
    (s.retireSite site).mem.wf = true := by
  show State.Sound _
  unfold State.retireSite
  dsimp only
  split <;> simp -implicitDefEqProofs [State.Sound, h0]

@[simp] theorem killGroup_wf {s : State} (h0 : s.mem.wf = true) (site : Nat) (d : VcDir) (g : Nat) :
    (s.killGroup site d g).mem.wf = true := by
  show State.Sound _
  unfold State.killGroup
  dsimp only
  simp -implicitDefEqProofs [State.Sound, h0]

@[simp] theorem declareLane_wf {s : State} (h0 : s.mem.wf = true) (site : Nat) (d : VcDir) (g lane : Nat) :
    (s.declareLane site d g lane).mem.wf = true := by
  show State.Sound _
  unfold State.declareLane
  dsimp only
  simp -implicitDefEqProofs [State.Sound, h0]

@[simp] theorem repairLane_mem (s : State) (site : Nat) (d : VcDir) (g lane : Nat) :
    (s.repairLane site d g lane).mem = s.mem := by
  unfold State.repairLane
  dsimp only
  split
  · rfl
  · simp -implicitDefEqProofs

@[simp] theorem measured_wf {s : State} (h0 : s.mem.wf = true) (site : Nat) (d : VcDir) (g eye : Nat) :
    (s.measured site d g eye).mem.wf = true := by
  show State.Sound _
  unfold State.measured
  dsimp only
  simp -implicitDefEqProofs [State.Sound, h0]

@[simp] theorem openWindow_mem (s : State) (site : Nat) (w : Window) (forced : Nat) :
    (s.openWindow site w forced).mem = s.mem := by
  simp [State.openWindow]

@[simp] theorem barCopies_mem (s : State) (code : Nat) (hit : Nat → BlkMove → Bool) :
    (s.barCopies code hit).mem = s.mem := rfl

end Sys2Proof.Machine
end

