-- ==== Sys2Proof/Proofs/SoundControl.lean ====
section
/-!
SUPPORT (O59). Memory through host accesses, register writes, rub-downs, resets and firmware.
-/

namespace Sys2Proof.Machine

@[simp] theorem stopHalf_mem (s : State) (h : Half) : (s.stopHalf h).mem = s.mem := by
  simp [State.stopHalf]

@[simp] theorem startWest_mem (s : State) : s.startWest.mem = s.mem := by
  simp [State.startWest]

@[simp] theorem finishDone_mem (s : State) : s.finishDone.mem = s.mem := by
  simp [State.finishDone]

@[simp] theorem loseHalf_wf {s : State} (h0 : s.mem.wf = true) (h : Half) : (s.loseHalf h).mem.wf = true := by
  show State.Sound _
  unfold State.loseHalf
  exact Memory.wf_filter h0 _

@[simp] theorem flushCache_wf {s : State} (h0 : s.mem.wf = true) : s.flushCache.mem.wf = true := by
  show State.Sound _
  unfold State.flushCache
  exact Sound.foldl _ (fun t l ht => rcEvict_sound ht l) _ h0

@[simp] theorem asleep_wf {s : State} (h0 : s.mem.wf = true) : s.asleep.mem.wf = true := by
  show State.Sound _
  unfold State.asleep
  refine Memory.wf_filter ?_ _
  rw [foldl_mem _ _ _ fun _ _ => State.setReg_mem .., endScopes_mem]
  exact h0

@[simp] theorem recap_mem (s : State) : s.recap.mem = s.mem := by
  simp [State.recap]

@[simp] theorem countSwing_mem (s : State) (k n : Nat) : (s.countSwing k n).mem = s.mem := by
  unfold State.countSwing
  split <;> simp

@[simp] theorem rainflow_mem (fuel : Nat) (l : List Int) (s : State) : (rainflow fuel l s).2.mem = s.mem := by
  induction fuel, l, s using rainflow.induct with
  | case1 l s => rfl
  | case2 fuel x y z r s a b h => simp [rainflow, a, b, h]
  | case3 fuel x y z s a b h ih => simpa [rainflow, a, b, h] using ih
  | case4 fuel x y z r s a b h hr ih => simpa [rainflow, a, b, h] using ih
  | case5 fuel l s h => simp [rainflow]

@[simp] theorem lifePpm_mem (s : State) : s.lifePpm.mem = s.mem := by
  simp [State.lifePpm]

@[simp] theorem addJoules_mem (s : State) (r : Reg) (uj : Nat) : (s.addJoules r uj).1.mem = s.mem := by
  simp [State.addJoules]

@[simp] theorem tlp_mem (s : State) (code : Nat) : (s.tlp code).mem = s.mem := by
  simp [State.tlp]

@[simp] theorem unmask_mem (s : State) (v : Nat) : (s.unmask v).mem = s.mem := by
  simp [State.unmask]

@[simp] theorem writeVectors_mem (s : State) (o : Nat) (bs : List Byte) : (s.writeVectors o bs).mem = s.mem := by
  simp [State.writeVectors]

@[simp] theorem record_mem (s : State) (i : Nat) (d : List Byte) (status nfault : Nat) (exit : Word)
    (first cause : Nat) :
    (s.record i d status nfault exit first cause).mem = s.mem := by
  simp [State.record]

@[simp] theorem recordBad_mem (s : State) (i : Nat) (d : List Byte) (status : Nat) :
    (s.recordBad i d status).mem = s.mem := by
  simp [State.recordBad]

@[simp] theorem evalSlot_mem (s : State) (i : Nat) : (s.evalSlot i).mem = s.mem := by
  unfold State.evalSlot
  dsimp only
  repeat' split
  all_goals simp

@[simp] theorem freeSlot_mem (s : State) (i : Nat) : (s.freeSlot i).mem = s.mem := by
  simp [State.freeSlot]

@[simp] theorem recordSlot_mem (s : State) (i off : Nat) (bytes : List (Option Byte)) :
    (s.recordSlot i off bytes).mem = s.mem := by
  simp [State.recordSlot]

@[simp] theorem writeSlot_mem (s : State) (i off : Nat) (bytes : List (Option Byte)) :
    (s.writeSlot i off bytes).mem = s.mem := by
  simp [State.writeSlot]

@[simp] theorem logPoison_mem (s : State) (l : Loc) : (s.logPoison l).mem = s.mem := by
  unfold State.logPoison
  split <;> simp

@[simp] theorem barReadPart_wf {s : State} (h0 : s.mem.wf = true) (bar off n : Nat) (r : BarRead) :
    (s.barReadPart bar off n r).1.mem.wf = true := by
  show State.Sound _
  unfold State.barReadPart
  dsimp only
  split
  · split
    · exact h0
    · exact h0
    · exact h0
    · exact h0
    · split
      · exact h0
      dsimp only
      split
      · exact Sound.of_mem (readBlock_sound h0 ..) (logPoison_mem ..)
      · exact readBlock_sound h0 ..
  all_goals exact h0

@[simp] theorem barWritePart_wf {s : State} (h0 : s.mem.wf = true) (l : Loc) (bs : List Byte) (ep : Bool) :
    (s.barWritePart l bs ep).mem.wf = true := by
  show State.Sound _
  unfold State.barWritePart
  dsimp only
  split <;> simp -implicitDefEqProofs [State.Sound, h0]

@[simp] theorem barWriteRun_wf {s : State} (h0 : s.mem.wf = true) (bar off : Nat) (bs : List Byte) (ep : Bool) :
    (s.barWriteRun bar off bs ep).mem.wf = true := by
  show State.Sound _
  unfold State.barWriteRun
  split
  · split
    · exact writeRegs_wf h0 ..
    · refine Sound.foldl _ (fun t b ht => ?_) _ h0
      split
      · exact barWritePart_wf ht ..
      · exact ht
  · exact Sound.of_mem h0 (foldl_mem _ _ _ fun _ _ => recordSlot_mem ..)
  · exact Sound.of_mem h0 (writeVectors_mem ..)
  all_goals exact h0

@[simp] theorem followBme_mem (s : State) : s.followBme.mem = s.mem := by
  simp [State.followBme]

@[simp] theorem endHost_wf {s : State} (h0 : s.mem.wf = true) : s.endHost.mem.wf = true := by
  show State.Sound _
  unfold State.endHost
  refine Sound.foldl _ (fun t c ht => ?_) _ (Sound.of_mem h0 (barCopies_mem ..))
  split
  · exact ht
  · exact moverOn_wf (Sound.of_mem ht (setEntry_mem ..)) ..

@[simp] theorem clearSlots_mem (s : State) : s.clearSlots.mem = s.mem := by
  unfold State.clearSlots
  dsimp only
  exact foldl_mem _ _ _ fun _ _ => State.setReg_mem ..

@[simp] theorem resetFunction_wf {s : State} (h0 : s.mem.wf = true) :
    s.resetFunction.mem.wf = true := by
  show State.Sound _
  unfold State.resetFunction
  dsimp only
  simp -implicitDefEqProofs [State.Sound, h0]

@[simp] theorem clearPmu_mem (s : State) : s.clearPmu.mem = s.mem := by
  simp [State.clearPmu]

@[simp] theorem trainPorts_mem (s : State) : s.trainPorts.mem = s.mem := by
  unfold State.trainPorts
  exact foldl_mem _ _ _ fun _ _ => State.setReg_mem ..

@[simp] theorem advance_mem (s : State) (r : Reg) : (s.advance r).mem = s.mem := by
  simp [State.advance]

@[simp] theorem tick_mem (s : State) : s.tick.mem = s.mem := by
  simp [State.tick]

@[simp] theorem writeCore_wf {s : State} (h0 : s.mem.wf = true) (req : Requester) (r : Reg) (data : Word) :
    (s.writeCore req r data).mem.wf = true := by
  show State.Sound _
  unfold State.writeCore
  simp -implicitDefEqProofs [State.Sound, h0]

@[simp] theorem fwWriteCmd_wf {s : State} (h0 : s.mem.wf = true) (cmd : Nat) (c : FwCtl) :
    (s.fwWriteCmd cmd c).mem.wf = true := by
  show State.Sound _
  unfold State.fwWriteCmd
  simp -implicitDefEqProofs [State.Sound, h0]

@[simp] theorem runForwarded_mem (s : State) (cmd chunk : Nat) (bytes : List Byte) (flashOk : Bool) :
    (s.runForwarded cmd chunk bytes flashOk).1.mem = s.mem := by
  unfold State.runForwarded
  dsimp only
  split <;> simp

@[simp] theorem setSpdm_mem (s : State) (t : Transport) (n : Nat) : (s.setSpdm t n).mem = s.mem := by
  unfold State.setSpdm
  dsimp only
  split <;> simp

@[simp] theorem spdmSend_mem (s : State) (t : Transport) (name : String) (body : List Byte) :
    (s.spdmSend t name body).mem = s.mem := by
  simp [State.spdmSend]

@[simp] theorem spdmAnswer_mem (s : State) (t : Transport) (need : Nat) (ok : Bool) (name : String)
    (body : List Byte) :
    (s.spdmAnswer t need ok name body).mem = s.mem := by
  simp [State.spdmAnswer]

@[simp] theorem setAlgs_mem (s : State) (t : Transport) (n : Nat) : (s.setAlgs t n).mem = s.mem := by
  unfold State.setAlgs
  dsimp only
  split <;> simp

@[simp] theorem dbgRequest_mem (s : State) (c : SecCmd) : (s.dbgRequest c).1.mem = s.mem := by
  unfold State.dbgRequest
  dsimp only
  repeat' split
  all_goals simp

@[simp] theorem dbgSubmit_mem (s : State) : (s.dbgSubmit).1.mem = s.mem := by
  unfold State.dbgSubmit
  dsimp only
  repeat' split
  all_goals simp

@[simp] theorem dbgEnrol_mem (s : State) : s.dbgEnrol.1.mem = s.mem := by
  unfold State.dbgEnrol
  extract_lets buf k rev part msg
  split
  · exact unlockLog_mem ..
  extract_lets r t
  have ht : t.mem = s.mem := unlockLog_mem ..
  split
  · exact ht
  · exact ht

@[simp] theorem dbgWriteCmd_wf {s : State} (h0 : s.mem.wf = true) (cmd : Nat) (c : DbgCtl) :
    (s.dbgWriteCmd cmd c).mem.wf = true := by
  show State.Sound _
  unfold State.dbgWriteCmd
  simp -implicitDefEqProofs [State.Sound, h0]

@[simp] theorem noteRetired_mem (s : State) (site : Nat) : (s.noteRetired site).mem = s.mem := by
  simp [State.noteRetired]

@[simp] theorem deadGroup_mem (s : State) (site : Nat) (d : VcDir) (g : Nat) : (s.deadGroup site d g).mem = s.mem := by
  simp [State.deadGroup]

@[simp] theorem useSpare_mem (s : State) (site : Nat) (d : VcDir) (g lane ins : Nat) :
    (s.useSpare site d g lane ins).mem = s.mem := by
  simp [State.useSpare]

@[simp] theorem loadLane_mem (s : State) (e : Snag) : (s.loadLane e).mem = s.mem := by
  simp [State.loadLane]

@[simp] theorem loadTrim_mem (s : State) : s.loadTrim.mem = s.mem := by
  simp [State.loadTrim]

@[simp] theorem swept_mem (s : State) (site : Nat) (d : VcDir) (g p : Nat) (e : Nat × Nat) :
    (s.swept site d g p e).mem = s.mem := by
  simp [State.swept]

@[simp] theorem trainOne_mem (s : State) (tr : List VcTrain) (site : Nat) (d : VcDir) (g : Nat) :
    (s.trainOne tr site d g).mem = s.mem := by
  simp [State.trainOne]

@[simp] theorem loadChannel_mem (s : State) (site : Nat) (d : VcDir) : (s.loadChannel site d).mem = s.mem := by
  unfold State.loadChannel
  exact foldl_mem _ _ _ fun _ _ => (State.setRf_mem ..).trans (State.setRf_mem ..)

@[simp] theorem closeChannel_mem (s : State) (site : Nat) (d : VcDir) : (s.closeChannel site d).mem = s.mem := by
  unfold State.closeChannel
  refine (State.setRf_mem ..).trans ((vcNote_mem ..).trans ?_)
  split
  · exact noteRetired_mem ..
  · rfl

@[simp] theorem loadChannels_mem (s : State) (tr : List VcTrain) : (s.loadChannels tr).mem = s.mem := by
  simp [State.loadChannels]

@[simp] theorem copyGran_mem (s : State) (errs : List MemErr) (p : Nat) : (s.copyGran errs p).mem = s.mem := by
  simp [State.copyGran]

@[simp] theorem loadRender_mem (s : State) (errs : List MemErr) : (s.loadRender errs).mem = s.mem := by
  simp [State.loadRender]

@[simp] theorem storeMap_mem (s : State) (lost : List Nat) : (s.storeMap lost).mem = s.mem := by
  simp [State.storeMap]

@[simp] theorem buildMap_mem (s : State) (lost : List Nat) (errs : List MemErr) :
    (s.buildMap lost errs).mem = s.mem := by
  unfold State.buildMap
  refine (State.setReg_mem ..).trans ((storeMap_mem ..).trans ?_)
  rw [foldl_mem _ _ _ fun _ _ => (State.setReg_mem ..).trans (State.setReg_mem ..),
    foldl_mem _ _ _ fun _ _ => State.setReg_mem .., loadRender_mem]

@[simp] theorem openStart_mem (s : State) (rot : List Nat) : (s.openStart rot).mem = s.mem := by
  simp [State.openStart]

@[simp] theorem loadFw_mem (s : State) : s.loadFw.mem = s.mem := by
  unfold State.loadFw
  simp -implicitDefEqProofs

@[simp] theorem linkUp_mem (s : State) (i : StartIn) : (s.linkUp i).mem = s.mem := by
  simp [State.linkUp]

@[simp] theorem firstHealth_mem (s : State) : s.firstHealth.mem = s.mem := by
  simp [State.firstHealth]

@[simp] theorem runStart_wf {s : State} (h0 : s.mem.wf = true) (i : StartIn) :
    (s.runStart i).mem.wf = true := by
  show State.Sound _
  unfold State.runStart
  dsimp only
  simp -implicitDefEqProofs [State.Sound, h0]

@[simp] theorem moveCore_wf {s : State} (h0 : s.mem.wf = true) (lc site : Nat) :
    (s.moveCore lc site).mem.wf = true := by
  show State.Sound _
  unfold State.moveCore
  dsimp only
  unfold State.Sound
  rw [State.incRf_mem, State.setRf_mem, State.setReg_mem, State.setReg_mem, State.setReg_mem]
  exact Memory.wf_filter h0 _

@[simp] theorem branch_mem (s : State) (lc : Nat) (k : Cond) (rs1 rs2 : BitVec 5) (off : BitVec 12) :
    (s.branch lc k rs1 rs2 off).mem = s.mem := by
  simp [State.branch]

/-- A write of the KV table stores its bytes in the hod, or nothing where the table does not lie there. The definition is
opened by `delta`: the kernel would work out the table's address to open it by its equation. -/
theorem kvWrite_cases (s : State) (o : Nat) (bs : List Byte) :
    s.kvWrite o bs = s ∨ ∃ k, s.resolve none (s.kvBase + o) = .hod k ∧ s.kvWrite o bs = s.writeRun k bs := by
  have e := @rfl _ @State.kvWrite
  conv_rhs at e => delta State.kvWrite
  rw [e]
  beta_reduce
  generalize s.resolve none (s.kvBase + o) = l
  cases l
  case hod k => exact .inr ⟨k, rfl, rfl⟩
  all_goals exact .inl rfl

@[simp] theorem kvWrite_wf {s : State} (h0 : s.mem.wf = true) (o : Nat) (bs : List Byte) :
    (s.kvWrite o bs).mem.wf = true := by
  obtain h | ⟨k, -, h⟩ := kvWrite_cases s o bs <;> rw [h]
  · exact h0
  · exact writeRun_wf h0 ..

@[simp] theorem putEntry_wf {s : State} (h0 : s.mem.wf = true) (b e : Nat) (w : Word) :
    (s.putEntry b e w).mem.wf = true := by
  show State.Sound _
  unfold State.putEntry
  simp -implicitDefEqProofs [State.Sound, h0]

end Sys2Proof.Machine
end

