-- ==== Sys2Proof/Proofs/SoundStencil.lean ====
section
/-!
SUPPORT (O59). Memory through the KV tables, STC.FWD, STC.BWD and STC.DEC.
-/

namespace Sys2Proof.Machine

@[simp] theorem putSeq_wf {s : State} (h0 : s.mem.wf = true) (n : Nat) (d : SeqD) :
    (s.putSeq n d).mem.wf = true := by
  show State.Sound _
  unfold State.putSeq
  simp -implicitDefEqProofs [State.Sound, h0]

@[simp] theorem fetchFrame_wf {s : State} (h0 : s.mem.wf = true) (lc a len : Nat) :
    (s.fetchFrame lc a len).1.mem.wf = true := by
  show State.Sound _
  unfold State.fetchFrame
  refine Sound.foldl_fst _ (fun r b hr => ?_) _ ?_
  · exact readBlock_sound hr ..
  · exact h0

@[simp] theorem stageRun_wf {s : State} (h0 : s.mem.wf = true) (lc src len dst : Nat) :
    (s.stageRun lc src len dst).mem.wf = true := by
  show State.Sound _
  unfold State.stageRun
  refine Sound.foldl _ (fun t g ht => ?_) _ (hawkWrite_sound (fetchFrame_wf h0 ..) ..)
  split
  · exact Sound.of_mem ht (hawkPoison_mem ..)
  · exact ht

@[simp] theorem stage_wf {s : State} (h0 : s.mem.wf = true) (lc : Nat) (r : RegionD) (head : Nat)
    (ps : List (Nat × KPage)) (nb slot : Nat) (bs : List Nat) : (s.stage lc r head ps nb slot bs).mem.wf = true := by
  show State.Sound _
  unfold State.stage
  refine Sound.foldl _ (fun t b ht => ?_) _ h0
  split
  · exact ht
  · exact stageRun_wf (stageRun_wf ht ..) ..

@[simp] theorem countStop_mem (s : State) : s.countStop.mem = s.mem := by
  simp [State.countStop]

@[simp] theorem takeHold_wf {s : State} (h0 : s.mem.wf = true) (lc seq entry : Nat) :
    (s.takeHold lc seq entry).mem.wf = true := by
  show State.Sound _
  unfold State.takeHold
  dsimp only
  simp -implicitDefEqProofs [State.Sound, h0]

@[simp] theorem dropHold_wf {s : State} (h0 : s.mem.wf = true) (lc : Nat) (h : Held) :
    (s.dropHold lc h).mem.wf = true := by
  have e := @rfl _ @State.dropHold
  conv_rhs at e => delta State.dropHold
  rw [e]
  show State.Sound _
  beta_reduce
  extract_lets c t
  have ht : t.Sound := Sound.of_mem h0 (State.setCore_mem ..)
  generalize t.seqD h.seq = x
  obtain ⟨q, p⟩ := x
  dsimp only
  split
  · exact ht
  · exact putSeq_wf ht ..

@[simp] theorem edit_wf {s : State} (h0 : s.mem.wf = true) (e : Edit) (q : SeqD) : (s.edit e q).1.mem.wf = true := by
  have cleared (ps : List (Nat × Nat)) : (ps.foldl (fun s p => s.putEntry p.1 p.2 0) s).Sound :=
    Sound.foldl _ (fun t p ht => Sound.intro (putEntry_wf ht ..)) _ h0
  show State.Sound _
  unfold State.edit
  dsimp only
  split
  · exact putSeq_wf h0 ..
  · split
    · exact putSeq_wf (putEntry_wf (putEntry_wf h0 ..) ..) ..
    · exact putSeq_wf (putEntry_wf h0 ..) ..
  · exact putSeq_wf h0 ..
  · exact putEntry_wf h0 ..
  · exact putEntry_wf h0 ..
  · exact putSeq_wf (cleared _) ..
  · exact putSeq_wf (cleared _) ..

@[simp] theorem applyEdit_wf {s : State} (h0 : s.mem.wf = true) (d : Desc) (ok : BitVec 8) :
    (s.applyEdit d ok).1.mem.wf = true := by
  have hx (q : SeqD) : (s.edit (editOf d) q).1.Sound := edit_wf h0 ..
  have e := @rfl _ @State.applyEdit
  conv_rhs at e => delta State.applyEdit
  generalize hr : s.applyEdit d ok = r
  rw [e] at hr
  beta_reduce at hr
  extract_lets x at hr
  split at hr
  rename_i q p _
  split at hr
  · subst hr; exact h0
  split at hr
  · subst hr; exact h0
  split at hr
  · subst hr; exact h0
  split at hr
  rename_i t n ht
  have h1 := hx q
  rw [ht] at h1
  subst hr
  exact h1

@[simp] theorem doEdit_wf {s : State} (h0 : s.mem.wf = true) (lc i : Nat) (e : UEntry) :
    (s.doEdit lc i e).mem.wf = true := by
  have ends {t : State} (ht : t.Sound) (st : BitVec 8) (v : SumV) : (t.finish lc .stencil i st v).Sound :=
    Sound.of_mem ht (finish_mem ..)
  have puts (n : Nat) (q : SeqD) : (s.putSeq n q).Sound := putSeq_wf h0 ..
  show (s.doEdit lc i e).Sound
  have e' := @rfl _ @State.doEdit
  conv_rhs at e' => delta State.doEdit
  rw [e']
  clear e'
  -- seqD and putSeq under names without values: else the kernel would evaluate the reads of the tables
  obtain ⟨seqD, hseqD⟩ := exists_eq (a' := @State.seqD)
  obtain ⟨putSeq, hputSeq⟩ := exists_eq (a' := @State.putSeq)
  rw [← hputSeq] at puts ⊢
  rw [← hseqD]
  beta_reduce
  extract_lets d op x
  refine Sound.ite (fun _ => h0) fun _ => Sound.ite (fun _ => ends h0 ..) fun _ =>
    Sound.ite (fun _ => ends h0 ..) fun _ => ?_
  generalize seqD s x.seq = y
  obtain ⟨q, p⟩ := y
  refine Sound.ite (fun _ => h0) fun _ => Sound.ite (fun _ => Sound.ite (fun _ => ends h0 ..) fun _ => ?_) fun _ => ?_
  · extract_lets u v
    have hv : v.Sound := puts x.seq _
    exact Sound.of_mem hv ((setEntry_mem ..).trans (State.incRf_mem ..))
  · have ht : (s.applyEdit d stOk).1.Sound := applyEdit_wf h0 ..
    generalize s.applyEdit d stOk = y at ht ⊢
    obtain ⟨t, st, n⟩ := y
    exact ends ht ..

@[simp] theorem ptedit_wf {s : State} (h0 : s.mem.wf = true) (lc k : Nat) (step : UStep UnitF) :
    (s.ptedit lc k step).mem.wf = true := by
  show State.Sound _
  unfold State.ptedit
  split
  · exact Sound.of_mem h0 (dispatch_mem ..)
  · refine work_sound h0 fun i e => ?_
    dsimp only
    split
    · exact doEdit_wf (by simpa using h0) ..
    · exact h0

@[simp] theorem applyDeferred_wf {s : State} (h0 : s.mem.wf = true) (d : Deferred) :
    (s.applyDeferred d).mem.wf = true := by
  have hx : (s.applyEdit d.desc stDeferred).1.Sound := applyEdit_wf h0 ..
  show (s.applyDeferred d).Sound
  have e := @rfl _ @State.applyDeferred
  conv_rhs at e => delta State.applyDeferred
  rw [e]
  clear e
  -- seqD under a name without a value: else the kernel would evaluate the reads of the tables
  obtain ⟨seqD, hseqD⟩ := exists_eq (a' := @State.seqD)
  rw [← hseqD]
  beta_reduce
  generalize s.applyEdit d.desc stDeferred = y at hx ⊢
  obtain ⟨t, st, n⟩ := y
  dsimp -zeta only
  extract_lets u
  have hu : u.Sound := Sound.ite (fun _ => hx) fun _ => putSeq_wf hx ..
  split
  · exact Sound.of_mem hu (finish_mem ..)
  · exact hu

@[simp] theorem doBucket_wf {s : State} (h0 : s.mem.wf = true) (lc i : Nat) (e : UEntry) :
    (s.doBucket lc i e).mem.wf = true := by
  show State.Sound _
  unfold State.doBucket
  extract_lets d
  split
  · exact Sound.of_mem h0 (finish_mem ..)
  split
  split
  extract_lets seqs edges ds all placed left out counts poi ob cb t u ps
  have ht : t.Sound := hawkWrite_sound (hawkWrite_sound h0 ..) ..
  have hu : u.Sound := by
    dsimp only [u]
    split
    · exact Sound.of_mem ht ((hawkPoison_mem ..).trans (hawkPoison_mem ..))
    · exact ht
  exact Sound.of_mem hu (finish_mem ..)

@[simp] theorem scramble_wf {s : State} (h0 : s.mem.wf = true) (lc : Nat) (on : List Nat) (off len : Nat) :
    (s.scramble lc on off len).mem.wf = true := hawkWrite_wf h0 ..

@[simp] theorem hawkHeal_mem (s : State) (lc off len : Nat) : (s.hawkHeal lc off len).mem = s.mem := by
  simp [State.hawkHeal]

@[simp] theorem putChunk_wf {s : State} (h0 : s.mem.wf = true) (lc n chunk dim ws : Nat) (p : Fmt) (on : List Nat)
    (par : Nat) (crs : List CRow) : (s.putChunk lc n chunk dim ws p on par crs).mem.wf = true := by
  show State.Sound _
  unfold State.putChunk
  exact hawkWrite_sound (hawkWrite_sound (hawkWrite_sound h0 ..) ..) ..

@[simp] theorem putRows_wf {s : State} (h0 : s.mem.wf = true) (lc n chunk dim ws : Nat) (p : Fmt)
    (rows : List ARow) : (s.putRows lc n chunk dim ws p rows).mem.wf = true := by
  show State.Sound _
  unfold State.putRows
  exact hawkWrite_sound (hawkWrite_sound (hawkWrite_sound h0 ..) ..) ..

@[simp] theorem countNan_mem (s : State) (lc n : Nat) : (s.countNan lc n).mem = s.mem := by
  simp [State.countNan]

theorem putChunk_sound {s : State} (h0 : s.Sound) (lc w at' dim ws : Nat) (f : Fmt) (on : List Nat) (par : Nat)
    (l : List CRow) : (s.putChunk lc w at' dim ws f on par l).Sound := putChunk_wf h0 ..

theorem putRows_sound {s : State} (h0 : s.Sound) (lc w at' dim ws : Nat) (f : Fmt) (l : List ARow) :
    (s.putRows lc w at' dim ws f l).Sound := putRows_wf h0 ..

@[simp] theorem fwdWorkspace_wf {s : State} (h0 : s.mem.wf = true) (lc : Nat) (h : SHead) (ws : Nat) (on : List Nat)
    (r : FRun) : (s.fwdWorkspace lc h ws on r).mem.wf = true := by
  show State.Sound _
  unfold State.fwdWorkspace
  extract_lets one
  have h1 (t : State) (par : Nat) (crs : Option (List CRow)) (ht : t.Sound) : (one t par crs).Sound := by
    cases crs with
    | none => exact ht
    | some l => exact putChunk_sound ht ..
  clear_value one
  exact putRows_sound (h1 _ _ _ (h1 _ _ _ h0)) ..

@[simp] theorem fwdOutputs_wf {s : State} (h0 : s.mem.wf = true) (lc : Nat) (h : SHead) (x : FOut) (r : FRun) :
    (s.fwdOutputs lc h x r).mem.wf = true := by
  show State.Sound _
  unfold State.fwdOutputs
  extract_lets out n len t u info
  have ht : t.Sound := Sound.foldl _ (fun t i ht => hawkWrite_sound ht ..) _ h0
  have hu : u.Sound := hawkWrite_sound ht ..
  split
  · have hp (l : List Nat) : (l.foldl (fun s i => s.hawkPoison lc (x.o + i * x.ostr) len) u).Sound :=
      Sound.of_mem hu (foldl_mem _ _ _ fun _ _ => hawkPoison_mem ..)
    exact Sound.of_mem (hawkWrite_sound (Sound.of_mem (hp _) (hawkPoison_mem ..)) ..) (hawkHeal_mem ..)
  · exact hawkWrite_sound hu ..

@[simp] theorem fwdEnd_wf {s : State} (h0 : s.mem.wf = true) (lc i : Nat) (h : SHead) (x : FOut) (on : List Nat)
    (own : List MemErr) (r : FRun) : (s.fwdEnd lc i h x on own r).mem.wf = true := by
  show State.Sound _
  unfold State.fwdEnd
  extract_lets t r' v n u w
  have ht : t.Sound := Sound.of_mem (fwdWorkspace_wf h0 ..) (meet_mem ..)
  have hu : u.Sound := fwdOutputs_wf ht ..
  have hw : w.Sound := Sound.of_mem hu ((countNan_mem ..).trans ((freeEvent_mem ..).trans (event_mem ..)))
  exact Sound.of_mem hw (finish_mem ..)

@[simp] theorem doFwd_wf {s : State} (h0 : s.mem.wf = true) (lc i : Nat) (e : UEntry) (errs : List MemErr) :
    (s.doFwd lc i e errs).mem.wf = true := by
  have e' := @rfl _ @State.doFwd
  conv_rhs at e' => delta State.doFwd
  rw [e']
  show State.Sound _
  beta_reduce
  generalize fwdParts e = y
  obtain ⟨h, x, q, k, v⟩ := y
  dsimp only
  split
  · exact Sound.of_mem h0 (finish_mem ..)
  · exact fwdEnd_wf (Sound.of_mem h0 (meet_mem ..)) ..

@[simp] theorem fwdStopped_wf {s : State} (h0 : s.mem.wf = true) (lc i : Nat) (h : SHead) (x : FOut)
    (on read : List Nat) (w : WStop) :
    (s.fwdStopped lc i h x on read w).mem.wf = true := by
  show State.Sound _
  unfold State.fwdStopped
  dsimp only
  simp -implicitDefEqProofs [State.Sound, h0]

@[simp] theorem doPaged_wf {s : State} (h0 : s.mem.wf = true) (lc i : Nat) (e : UEntry) (errs : List MemErr) :
    (s.doPaged lc i e errs).mem.wf = true := by
  have e' := @rfl _ @State.doPaged
  conv_rhs at e' => delta State.doPaged
  rw [e']
  show State.Sound _
  beta_reduce
  generalize fwdParts e = y
  obtain ⟨h, x, q, k, v⟩ := y
  dsimp -zeta only
  split
  · exact Sound.of_mem h0 (finish_mem ..)
  · exact fwdStopped_wf h0 ..
  split
  · exact h0
  rename_i hd _
  generalize s.splitErrs lc (h.own x) errs = y
  obtain ⟨own, others⟩ := y
  dsimp -zeta only
  extract_lets d r
  split
  · exact Sound.of_mem h0 (finish_mem ..)
  split
  · exact fwdStopped_wf (Sound.of_mem h0 (meet_mem ..)) ..
  split
  · exact h0
  split
  · exact h0
  rename_i t ht
  extract_lets u
  have hu : u.Sound := Sound.of_mem h0 ((meet_mem ..).trans (cross_mem ht))
  exact fwdEnd_wf (Sound.foldl_fst _ (fun r c hr => Sound.intro (stage_wf hr ..)) _ hu) ..

@[simp] theorem accumulate_wf {s : State} (h0 : s.mem.wf = true) (lc off : Nat) (vs : List (BitVec 32)) :
    (s.accumulate lc off vs).1.mem.wf = true := by
  show State.Sound _
  unfold State.accumulate
  exact hawkWrite_sound h0 ..

@[simp] theorem accRows_wf {s : State} (h0 : s.mem.wf = true) (lc base stride : Nat)
    (rows : List (Option (List (BitVec 32)))) (dim : Nat) (a : BAcc) :
    (s.accRows lc base stride rows dim a).1.mem.wf = true := by
  show State.Sound _
  unfold State.accRows
  refine Sound.foldl_fst _ (fun r i hr => ?_) _ h0
  dsimp only
  split
  · exact accumulate_wf hr ..
  · exact hr

@[simp] theorem bwdBlock_wf {s : State} (h0 : s.mem.wf = true) (lc : Nat) (h : SHead) (x : BOutD) (k v : Feed)
    (rows : List BRow) (a : BAcc) (b : Nat) : (s.bwdBlock lc h x k v rows a b).1.mem.wf = true := by
  show State.Sound _
  unfold State.bwdBlock
  extract_lets n f kr vr kv vv g cell poi flags ri di col dv dk dq ps ds pb dr dc t u
  have ht : t.Sound := Sound.foldl _ (fun t i ht => hawkWrite_sound (hawkWrite_sound ht ..) ..) _ h0
  have hu : u.Sound := Sound.foldl _ (fun t i ht => hawkWrite_sound ht ..) _ ht
  exact accRows_wf (accRows_wf (accRows_wf hu ..) ..) ..

theorem scramble_sound {s : State} (h0 : s.Sound) (lc : Nat) (on : List Nat) (off len : Nat) :
    (s.scramble lc on off len).Sound := scramble_wf h0 ..

theorem bwdBlock_sound {r : State × BAcc} (h0 : r.1.Sound) (lc : Nat) (h : SHead) (x : BOutD) (k v : Feed)
    (rows : List BRow) (b : Nat) : (r.1.bwdBlock lc h x k v rows r.2 b).1.Sound := bwdBlock_wf h0 ..

/-- The blocks of STC.BWD folded one after another. -/
theorem bwdBlocks_sound {s : State} (h0 : s.Sound) (lc : Nat) (h : SHead) (x : BOutD) (k v : Feed) (rows : List BRow)
    (a : BAcc) (l : List Nat) :
    (l.foldl (fun (y : State × BAcc) b => y.1.bwdBlock lc h x k v rows y.2 b) (s, a)).1.Sound := by
  refine Sound.foldl_fst _ (fun r b hr => ?_) _ ?_
  · exact bwdBlock_sound hr ..
  · exact h0

@[simp] theorem doBwd_wf {s : State} (h0 : s.mem.wf = true) (lc i : Nat) (e : UEntry) (errs : List MemErr) :
    (s.doBwd lc i e errs).mem.wf = true := by
  have e' := @rfl _ @State.doBwd
  conv_rhs at e' => delta State.doBwd
  rw [e']
  show State.Sound _
  beta_reduce
  split
  rename_i h x q k v o _
  split
  · exact Sound.of_mem h0 (finish_mem ..)
  split
  rename_i own others _
  extract_lets t rs rows u a0 nan
  have hu : u.Sound := scramble_sound (Sound.of_mem h0 (meet_mem ..)) ..
  have hv := bwdBlocks_sound hu lc h x k v rows a0 (List.range h.nblocks)
  split
  rename_i v' a hy
  rw [hy] at hv
  extract_lets w a' p p' st z
  have hp : p.Sound := Sound.foldl _ (fun t j ht => hawkWrite_sound ht ..) _ (Sound.of_mem hv (meet_mem ..))
  have hp' : p'.Sound := by
    dsimp only [p']
    split
    · exact Sound.of_mem hp (foldl_mem _ _ _ fun _ _ => hawkPoison_mem ..)
    · exact hp
  exact Sound.of_mem hp' ((finish_mem ..).trans ((countNan_mem ..).trans ((freeEvent_mem ..).trans (event_mem ..))))

@[simp] theorem decKeys_wf {s : State} (h0 : s.mem.wf = true) (lc : Nat) (h : DHead) (r : RegionD) (ps : List
    (Nat × KPage)) (lo len n c : Nat) :
    (s.decKeys lc h r ps lo len n c).1.mem.wf = true := by
  show State.Sound _
  unfold State.decKeys
  dsimp only
  simp -implicitDefEqProofs [State.Sound, h0]

@[simp] theorem decWalk_wf {s : State} (h0 : s.mem.wf = true) (lc : Nat) (h : DHead) (r : RegionD)
    (ps : List (Nat × KPage)) (idx len n k : Nat) : (s.decWalk lc h r ps idx len n k).1.mem.wf = true := by
  show State.Sound _
  unfold State.decWalk
  extract_lets qs c0 y0
  exact Sound.foldl_fst _ (fun y i hy => Sound.intro (putRows_wf (putChunk_wf (decKeys_wf hy ..) ..) ..)) _ h0

@[simp] theorem estat_wf {s : State} (h0 : s.mem.wf = true) (lc : Nat) (h : DHead)
    (idx step first last reason : Nat) (more : Bool) : (s.estat lc h idx step first last reason more).mem.wf = true := by
  show State.Sound _
  unfold State.estat
  dsimp only
  split
  · exact hawkWrite_sound h0 ..
  · exact h0

@[simp] theorem decStop_wf {s : State} (h0 : s.mem.wf = true) (lc : Nat) (h : DHead) (pos idx step : Nat)
    (w : WStop) (a : DAcc) :
    (s.decStop lc h pos idx step w a).1.mem.wf = true := by
  show State.Sound _
  unfold State.decStop
  dsimp only
  simp -implicitDefEqProofs [State.Sound, h0]

@[simp] theorem decDone_wf {s : State} (h0 : s.mem.wf = true) (lc : Nat) (h : DHead) (d pos idx step : Nat)
    (rows : List ARow) (poi : Bool) : (s.decDone lc h d pos idx step rows poi).mem.wf = true := by
  show State.Sound _
  unfold State.decDone
  extract_lets sz n out o la ra t u info w x
  have ht : t.Sound := Sound.foldl _ (fun t g ht => hawkWrite_sound ht ..) _ h0
  have hu : u.Sound := hawkWrite_sound ht ..
  have hw : w.Sound := Sound.of_mem hu (foldl_mem _ _ _ fun _ _ => hawkPoison_mem ..)
  have hx : x.Sound := by
    dsimp only [x]
    split
    · exact Sound.of_mem (hawkWrite_sound (Sound.of_mem hw (hawkPoison_mem ..)) ..) (hawkHeal_mem ..)
    · exact hawkWrite_sound hu ..
  exact estat_wf hx ..

@[simp] theorem decEnd_mem (s : State) (lc i : Nat) (poi : Bool) (a : DAcc) : (s.decEnd lc i poi a).mem = s.mem := by
  simp [State.decEnd]

@[simp] theorem decNext_mem (s : State) (lc i : Nat) (e : UEntry) (h : DHead) (poi : Bool) (a : DAcc) :
    (s.decNext lc i e h poi a).mem = s.mem := by
  simp [State.decNext]

@[simp] theorem decHeld_wf {s : State} (h0 : s.mem.wf = true) (lc i : Nat) (e : UEntry) (h : DHead) (hd : Held)
    (idx : Nat) (pl : Bool) (errs : List MemErr) : (s.decHeld lc i e h hd idx pl errs).mem.wf = true := by
  show State.Sound _
  have e' := @rfl _ @State.decHeld
  conv_rhs at e' => delta State.decHeld
  rw [e']
  clear e'
  -- seqD under a name without a value: else the kernel would evaluate the reads of the tables
  obtain ⟨seqD, hseqD⟩ := exists_eq (a' := @State.seqD)
  rw [← hseqD]
  beta_reduce
  extract_lets r q acc
  split
  rename_i c0 n _
  split
  rename_i ps stop _
  extract_lets k last bs acc'
  split
  · exact h0
  split
  · exact h0
  rename_i t ht
  have h1 : t.Sound := by
    split at ht
    · cases ht; exact h0
    · exact Sound.of_mem h0 (cross_mem ht)
  split
  rename_i own others _
  have h2 := decWalk_wf (s := t.meet others) (Sound.of_mem h1 (meet_mem ..)) lc h r ps idx hd.len acc.chunks k
  split
  rename_i u y hy
  rw [hy] at h2
  extract_lets w poi
  have hw : w.Sound := Sound.of_mem h2 (meet_mem ..)
  split
  · rename_i v _ _
    have h3 := decStop_wf hw lc h e.nnz idx hd.step v acc'
    split
    rename_i x a hx
    rw [hx] at h3
    exact Sound.of_mem h3 (decNext_mem ..)
  · exact Sound.of_mem (decDone_wf hw ..) (decNext_mem ..)

@[simp] theorem decOne_wf {s : State} (h0 : s.mem.wf = true) (lc i : Nat) (e : UEntry) (h : DHead)
    (errs : List MemErr) : (s.decOne lc i e h errs).mem.wf = true := by
  show State.Sound _
  unfold State.decOne
  dsimp only
  split
  · exact h0
  split
  · exact Sound.of_mem (decStop_wf (Sound.of_mem h0 (meet_mem ..)) ..) (decNext_mem ..)
  split
  · exact h0
  · exact decHeld_wf h0 ..

@[simp] theorem doDec_wf {s : State} (h0 : s.mem.wf = true) (lc i : Nat) (e : UEntry) (errs : List MemErr) :
    (s.doDec lc i e errs).mem.wf = true := by
  show State.Sound _
  unfold State.doDec
  dsimp only
  repeat' split
  all_goals simp -implicitDefEqProofs [State.Sound, h0]

@[simp] theorem waitfEnd_mem (s : State) (lc : Nat) (rd : BitVec 5) (v : Word) (pc : LAddr) :
    (s.waitfEnd lc rd v pc).mem = s.mem := by
  unfold State.waitfEnd
  dsimp only
  split <;> simp

end Sys2Proof.Machine
end

