-- ==== Sys2Proof/Proofs/StepSound.lean ====
section
/-!
O59. Every command goes on to a next state and keeps memory sound: one lemma for each command whose meaning is more
than one function of the state, and the step.
-/

namespace Sys2Proof.Machine

/-- The outcome goes on to a next state, which is sound where the state before is. -/
def GoesSound (s : State) (o : Host.Outcome State Fault Refusal) : Prop :=
  ∃ t, o = .next t ∧ (s.Sound → t.Sound)

theorem GoesSound.next {s t : State} (h : s.Sound → t.Sound) : GoesSound s (.next t) := ⟨t, rfl, h⟩

theorem GoesSound.mem {s t : State} (h : t.mem = s.mem) : GoesSound s (.next t) := .next fun h0 => Sound.of_mem h0 h

theorem GoesSound.same (s : State) : GoesSound s (.next s) := .next id

theorem GoesSound.ite {s : State} {c : Prop} [Decidable c] {o p : Host.Outcome State Fault Refusal}
    (ho : c → GoesSound s o) (hp : ¬c → GoesSound s p) : GoesSound s (if c then o else p) := by
  split
  · exact ho ‹c›
  · exact hp ‹¬c›

/-- An outcome that goes on from a state reached soundly. -/
theorem GoesSound.after {s u : State} {o : Host.Outcome State Fault Refusal} (hu : s.Sound → u.Sound)
    (ho : GoesSound u o) :
    GoesSound s o :=
  let ⟨t, ht, h⟩ := ho
  ⟨t, ht, fun h0 => h (hu h0)⟩

theorem execStRel_goes (lc : Nat) (rs2 rs1 : BitVec 5) (imm : BitVec 12) (s : State) :
    GoesSound s (execStRel lc rs2 rs1 imm s) := by
  refine .ite (fun _ => .mem (State.setCore_mem ..)) fun _ => .ite (fun _ => .mem (scalar_mem ..)) fun _ => ?_
  exact .next fun h => issueStore_wf h ..

theorem execJalr_goes (lc : Nat) (rd rs1 : BitVec 5) (imm : BitVec 15) (s : State) :
    GoesSound s (execJalr lc rd rs1 imm s) := by
  unfold execJalr
  dsimp only
  repeat' split
  all_goals exact GoesSound.mem (by simp)

theorem execTks_goes (lc : Nat) (tk : BitVec 6) (imm : BitVec 11) (s : State) :
    GoesSound s (execTks lc tk imm s) := by
  unfold execTks
  dsimp only
  repeat' split
  all_goals exact GoesSound.mem (by simp)

theorem execTkw_goes (lc : Nat) (tk : BitVec 6) (imm : BitVec 11) (s : State) :
    GoesSound s (execTkw lc tk imm s) := by
  unfold execTkw
  dsimp only
  repeat' split
  all_goals exact GoesSound.mem (by simp)

theorem execFence_goes (lc : Nat) (s : State) :
    GoesSound s (execFence lc s) := by
  unfold execFence
  dsimp only
  repeat' split
  all_goals exact GoesSound.mem (by simp)

theorem execBrk_goes (lc : Nat) (imm : BitVec 15) (s : State) :
    GoesSound s (execBrk lc imm s) := by
  unfold execBrk
  repeat' split
  all_goals exact GoesSound.mem (by simp)

theorem execHalt_goes (lc : Nat) (xs : BitVec 5) (s : State) :
    GoesSound s (execHalt lc xs s) := by
  unfold execHalt
  refine .ite (fun _ => ?_) fun _ => .same s
  extract_lets t
  have ht : (t.countSample lc 0).1.mem = s.mem := (countSample_mem ..).trans (noteIssue_mem ..)
  split
  rename_i u smp hu
  rw [hu] at ht
  exact .mem ((by simp : _ = u.mem).trans ht)

theorem execWaitf_goes (m : Met Nat) (rd rs1 rs2 : BitVec 5) (cond : BitVec 3) (acq : Bool) (tmo : BitVec 5)
    (s : State) :
    GoesSound s (execWaitf m rd rs1 rs2 cond acq tmo s) := by
  unfold execWaitf
  dsimp only
  repeat' split
  all_goals exact GoesSound.mem (by simp)

theorem execWaitfWake_goes (lc : Nat) (s : State) :
    GoesSound s (execWaitfWake lc s) := by
  unfold execWaitfWake
  dsimp only
  repeat' split
  all_goals exact GoesSound.mem (by simp)

theorem execWaitfTimeout_goes (lc : Nat) (s : State) :
    GoesSound s (execWaitfTimeout lc s) := by
  unfold execWaitfTimeout
  dsimp only
  repeat' split
  all_goals exact GoesSound.mem (by simp)

theorem execTkwSatisfied_goes (lc : Nat) (s : State) :
    GoesSound s (execTkwSatisfied lc s) := by
  unfold execTkwSatisfied
  dsimp only
  repeat' split
  all_goals exact GoesSound.mem (by simp)

theorem execLoadDataReturn_goes (lc : Nat) (errs : List MemErr) (s : State) :
    GoesSound s (execLoadDataReturn lc errs s) := by
  unfold execLoadDataReturn
  split
  · exact .same s
  rename_i l rest _
  have ht : s.Sound → (s.sampleLoad lc 0 l errs).1.Sound := fun h => sampleLoad_wf h ..
  split
  rename_i t k hk
  rw [hk] at ht
  split
  · exact .same s
  refine .ite (fun _ => .same s) fun _ => .after ht ?_
  extract_lets u c c' v w
  have hu : u.mem = t.mem := by simp [u]
  have hv : v.mem = t.mem := (State.setCore_mem ..).trans hu
  have hw : w.mem = t.mem := by simp [w, hv]
  refine .next fun h => storesDone_wf ?_ lc
  split
  · exact Sound.of_mem h ((sampleDone_mem ..).trans hw)
  · exact Sound.of_mem h hw

theorem execUnitInstructionStart_goes (lc : Nat) (u : UnitId) (s : State) :
    GoesSound s (execUnitInstructionStart lc u s) := by
  unfold execUnitInstructionStart
  dsimp only
  repeat' split
  all_goals exact GoesSound.mem (by simp)

theorem execUnitInstructionComplete_goes (lc : Nat) (u : UnitId) (s : State) :
    GoesSound s (execUnitInstructionComplete lc u s) := by
  unfold execUnitInstructionComplete
  repeat' split
  all_goals exact GoesSound.mem (by simp)

theorem execTicketDeadlock_goes (lc : Nat) (s : State) :
    GoesSound s (execTicketDeadlock lc s) := by
  unfold execTicketDeadlock
  dsimp only
  repeat' split
  all_goals exact GoesSound.mem (by simp)

theorem execCoreDrainComplete_goes (lc : Nat) (s : State) :
    GoesSound s (execCoreDrainComplete lc s) := by
  unfold execCoreDrainComplete
  dsimp only
  repeat' split
  all_goals exact GoesSound.mem (by simp)

theorem execIcacheMissFill_goes (lc : Nat) (errs : List MemErr) (s : State) :
    GoesSound s (execIcacheMissFill lc errs s) := by
  unfold execIcacheMissFill
  extract_lets c tag
  refine .ite (fun _ => .ite (fun _ => .mem (fetchFault_mem ..)) fun _ => ?_) fun _ => .same s
  split
  · exact .same s
  rename_i t ht
  extract_lets u
  have hu : s.Sound → ((u.meet errs).readLine lc tag).1.Sound := fun h =>
    readLine_wf (Sound.of_mem h (by simp [u, cross_mem ht])) ..
  split
  · rename_i v hv
    rw [hv] at hu
    exact .after hu (.mem (fetchFault_mem ..))
  · rename_i v l hv
    rw [hv] at hu
    exact .after hu (.ite (fun _ => .mem (by simp)) fun _ => .mem (State.setCore_mem ..))

theorem execIcacheParityError_goes (lc : Nat) (f : LineFetch) (s : State) :
    GoesSound s (execIcacheParityError lc f s) := by
  unfold execIcacheParityError
  extract_lets c line t u
  have hu : u.mem = s.mem := by simp [u, t]
  refine .ite (fun _ => ?_) fun _ => .same s
  split
  · exact .mem hu
  rename_i v hv
  have hm : v.mem = s.mem := by
    split at hv
    · exact (cross_mem hv).trans hu
    · cases hv
  have hw : s.Sound → ((v.meet f.errs).readLine lc line).1.Sound := fun h =>
    readLine_wf (Sound.of_mem h ((meet_mem ..).trans hm)) ..
  split
  · rename_i w l hr
    rw [hr] at hw
    exact .after hw (.mem (State.setCore_mem ..))
  · rename_i w hr
    rw [hr] at hw
    exact .next hw

theorem execControlPathParityError_goes (lc : Nat) (s : State) :
    GoesSound s (execControlPathParityError lc s) := by
  unfold execControlPathParityError
  dsimp only
  repeat' split
  all_goals exact GoesSound.mem (by simp)

theorem execCoreLaunchEntry_goes (e : CoreEntry) (s : State) :
    GoesSound s (execCoreLaunchEntry e s) := by
  unfold execCoreLaunchEntry
  extract_lets lc
  split
  · exact .same s
  refine .ite (fun _ => .same s) fun _ => ?_
  split
  · exact .same s
  rename_i t ht
  extract_lets u p u' pc xs v w
  have hu : u'.mem = s.mem := (tickCycle_mem t lc).trans (cross_mem ht)
  have hw : w.mem = s.mem := by simp [w, v, hu]
  exact .next fun h => preload_wf (Sound.of_mem h ((meet_mem ..).trans hw)) ..

theorem execCoreCtrlStop_goes (lc : Nat) (s : State) :
    GoesSound s (execCoreCtrlStop lc s) := by
  unfold execCoreCtrlStop
  repeat' split
  all_goals exact GoesSound.mem (by simp)

theorem execMovBlk_goes (lc : Nat) (step : UStep UnitF) (s : State) :
    GoesSound s (execMovBlk lc step s) := by
  cases step with
  | issue f => exact .mem (dispatch_mem ..)
  | perform errs => exact .next fun h => work_sound h fun _ _ => beginBlk_wf h ..

theorem execMovPutf_goes (lc : Nat) (step : UStep UnitF) (s : State) :
    GoesSound s (execMovPutf lc step s) := by
  cases step with
  | issue f => exact .mem (dispatch_mem ..)
  | perform errs => exact .next fun h => work_sound h fun _ _ => beginBlk_wf h ..

theorem execTrwMma_goes (lc : Nat) (step : UStep MmaF) (s : State) :
    GoesSound s (execTrwMma lc step s) := by
  cases step with
  | issue f => exact .mem (dispatch_mem ..)
  | perform errs =>
    refine .mem (trowel_mem fun t i e => ?_)
    split
    · exact doMma_mem ..
    · rfl

theorem execTrwDrain_goes (lc : Nat) (step : UStep DrainF) (s : State) :
    GoesSound s (execTrwDrain lc step s) := by
  cases step with
  | issue f => exact .mem (dispatch_mem ..)
  | perform errs =>
    refine .next fun h => trowel_sound h fun t i e ht => ?_
    split
    · exact doDrain_wf ht ..
    · exact ht

theorem execTrwLdacc_goes (lc : Nat) (step : UStep LdaccF) (s : State) :
    GoesSound s (execTrwLdacc lc step s) := by
  cases step with
  | issue f => exact .mem (dispatch_mem ..)
  | perform errs =>
    refine .mem (trowel_mem fun t i e => ?_)
    split
    · exact doLdacc_mem ..
    · rfl

theorem execTrwClr_goes (lc : Nat) (step : UStep ClrF) (s : State) :
    GoesSound s (execTrwClr lc step s) := by
  cases step with
  | issue f => exact .mem (dispatch_mem ..)
  | perform errs =>
    refine .mem (trowel_mem fun t i e => ?_)
    split
    · exact (finish_mem ..).trans (State.setCore_mem ..)
    · rfl

theorem execTrwAccumulatorParityError_goes (lc : Nat) (bankB : Bool) (row col : Nat) (s : State) :
    GoesSound s (execTrwAccumulatorParityError lc bankB row col s) := by
  unfold execTrwAccumulatorParityError
  dsimp only
  repeat' split
  all_goals exact GoesSound.mem (by simp)

theorem execBrsLdp_goes (lc : Nat) (step : UStep LdpF) (s : State) :
    GoesSound s (execBrsLdp lc step s) := by
  cases step with
  | issue f => exact .mem (dispatch_mem ..)
  | perform errs =>
    refine .mem (work_mem fun i e => ?_)
    split
    · exact (doLdp_mem ..).trans (meet_mem ..)
    · rfl

theorem execBrsRun_goes (lc : Nat) (step : UStep RunF) (s : State) :
    GoesSound s (execBrsRun lc step s) := by
  cases step with
  | issue f => exact .mem (dispatch_mem ..)
  | perform errs => exact .next fun h => work_sound h fun _ _ => doRun_wf (Sound.of_mem h (meet_mem ..)) ..

theorem execStcFwd_goes (lc : Nat) (step : UStep UnitF) (s : State) :
    GoesSound s (execStcFwd lc step s) := by
  cases step with
  | issue f => exact .mem (dispatch_mem ..)
  | perform errs =>
    exact .next fun h => work_sound h fun _ _ => Sound.ite (fun _ => doPaged_wf h ..) fun _ => doFwd_wf h ..

theorem execStcBwd_goes (lc : Nat) (step : UStep UnitF) (s : State) :
    GoesSound s (execStcBwd lc step s) := by
  cases step with
  | issue f => exact .mem (dispatch_mem ..)
  | perform errs => exact .next fun h => work_sound h fun _ _ => doBwd_wf h ..

theorem execStcBucket_goes (lc : Nat) (step : UStep UnitF) (s : State) :
    GoesSound s (execStcBucket lc step s) := by
  cases step with
  | issue f => exact .mem (dispatch_mem ..)
  | perform errs => exact .next fun h => work_sound h fun _ _ => doBucket_wf (Sound.of_mem h (meet_mem ..)) ..

theorem execStcDec_goes (lc : Nat) (step : UStep UnitF) (s : State) :
    GoesSound s (execStcDec lc step s) := by
  cases step with
  | issue f => exact .mem (dispatch_mem ..)
  | perform errs => exact .next fun h => work_sound h fun _ _ => doDec_wf h ..

theorem execHoldAcquire_goes (lc : Nat) (s : State) :
    GoesSound s (execHoldAcquire lc s) := by
  unfold execHoldAcquire
  split
  · exact .same s
  · exact .ite (fun _ => .same s) fun _ => .next fun h => takeHold_wf (Sound.of_mem h (setEntry_mem ..)) ..

theorem execHoldRelease_goes (lc : Nat) (s : State) :
    GoesSound s (execHoldRelease lc s) := by
  unfold execHoldRelease
  extract_lets c
  split
  · exact .same s
  · exact .ite (fun _ => .next fun h => dropHold_wf h ..) fun _ => .same s

theorem execDeferredEditApply_goes (m : Met Nat) (s : State) :
    GoesSound s (execDeferredEditApply m s) := by
  unfold execDeferredEditApply
  extract_lets seq t ds u
  have hu : u.mem = s.mem := meet_mem ..
  exact .ite (fun _ => .next fun h => Sound.foldl _ (fun t d ht => applyDeferred_wf ht d) _ (Sound.of_mem h hu)) fun _ =>
    .same s

theorem execMcHoldRelease_goes (lc : Nat) (s : State) :
    GoesSound s (execMcHoldRelease lc s) := by
  unfold execMcHoldRelease
  extract_lets c t
  have ht : s.Sound → t.Sound := Sound.foldl _ (fun t d ht => Sound.intro (dropHold_wf ht ..)) _
  exact .ite (fun _ => .after ht (.mem (State.setCore_mem ..))) fun _ => .same s

theorem execKvTableEnable_goes (req : Requester) (data : BitVec 64) (s : State) :
    GoesSound s (execKvTableEnable req data s) :=
  GoesSound.next fun h => Sound.ite (fun _ => writeRegs_wf h ..) fun _ => h

theorem execKvTableDisable_goes (req : Requester) (data : BitVec 64) (s : State) :
    GoesSound s (execKvTableDisable req data s) :=
  GoesSound.next fun h => Sound.ite (fun _ => h) fun _ => writeRegs_wf h ..

theorem execRlrVld_goes (lc : Nat) (step : UStep UnitF) (s : State) :
    GoesSound s (execRlrVld lc step s) := by
  unfold execRlrVld
  repeat' split
  all_goals exact GoesSound.mem (by simp)

theorem execRlrMv_goes (lc : Nat) (step : UStep UnitF) (s : State) :
    GoesSound s (execRlrMv lc step s) := by
  unfold execRlrMv
  repeat' split
  all_goals exact GoesSound.mem (by simp)

theorem execRlrRd_goes (lc : Nat) (step : UStep UnitF) (s : State) :
    GoesSound s (execRlrRd lc step s) := by
  unfold execRlrRd
  repeat' split
  all_goals exact GoesSound.mem (by simp)

theorem execRlrWr_goes (lc : Nat) (step : UStep UnitF) (s : State) :
    GoesSound s (execRlrWr lc step s) := by
  unfold execRlrWr
  repeat' split
  all_goals exact GoesSound.mem (by simp)

theorem execRollerCommandArrival_goes (lc stack : Nat) (errs : List MemErr) (s : State) :
    GoesSound s (execRollerCommandArrival lc stack errs s) := by
  unfold execRollerCommandArrival
  refine .ite (fun _ => .same s) fun _ => ?_
  split
  · exact .next fun h => seqOn_wf (Sound.of_mem h (meet_mem ..)) ..
  extract_lets d c t u
  refine .ite (fun _ => .mem (by simp [t])) fun _ => ?_
  exact .next fun h => seqOn_wf (Sound.of_mem h (by simp [u, t])) ..

theorem execRollerStackReport_goes (stack : Nat) (s : State) :
    GoesSound s (execRollerStackReport stack s) := by
  unfold execRollerStackReport
  split
  · exact .same s
  extract_lets mv t
  refine .ite (fun _ => .same s) fun _ => ?_
  split
  · exact .mem (State.setQueue_mem ..)
  · exact .next fun h => seqOn_wf (Sound.of_mem h (by simp [t])) ..

theorem execRollerPassEnd_goes (p : PassEnd) (s : State) :
    GoesSound s (execRollerPassEnd p s) := by
  unfold execRollerPassEnd
  extract_lets ch t u v
  refine .ite (fun _ => ?_) fun _ => .mem (by simp)
  have hv : s.Sound → v.Sound := fun h => rcDrain_wf (Sound.of_mem h (by simp [u, t]))
  refine .after hv (.next fun h => seqOn_wf ?_ ..)
  exact Sound.ite (fun _ => h) fun _ => Sound.of_mem h (gapClose_mem ..)

theorem execChannelRefresh_goes (chan : Nat) (s : State) :
    GoesSound s (execChannelRefresh chan s) := by
  unfold execChannelRefresh
  dsimp only
  repeat' split
  all_goals exact GoesSound.mem (by simp)

theorem execRollerDisarmComplete_goes (stack : Nat) (s : State) :
    GoesSound s (execRollerDisarmComplete stack s) := by
  unfold execRollerDisarmComplete
  repeat' split
  all_goals exact GoesSound.mem (by simp)

theorem execScrMcast_goes (lc : Nat) (step : UStep UnitF) (s : State) :
    GoesSound s (execScrMcast lc step s) := by
  cases step with
  | issue f => exact .mem (dispatch_mem ..)
  | perform errs =>
    exact .mem (scrimPerform_mem fun _ _ => (beginMcast_mem ..).trans (meet_mem ..))

theorem execScrRed_goes (lc : Nat) (step : UStep UnitF) (s : State) :
    GoesSound s (execScrRed lc step s) := by
  cases step with
  | issue f => exact .mem (dispatch_mem ..)
  | perform errs =>
    refine .mem (scrimPerform_mem fun i e => ?_)
    extract_lets t d
    split
    · exact (finish_mem ..).trans (meet_mem ..)
    · exact (joinColl_mem ..).trans (meet_mem ..)

theorem execScrBar_goes (lc : Nat) (step : UStep UnitF) (s : State) :
    GoesSound s (execScrBar lc step s) := by
  cases step with
  | issue f => exact .mem (dispatch_mem ..)
  | perform errs =>
    refine .mem (scrimPerform_mem fun i e => ?_)
    extract_lets t d
    split
    · exact (finish_mem ..).trans (meet_mem ..)
    · exact (joinColl_mem ..).trans (meet_mem ..)

theorem execMcastCopyDelivered_goes (lc : Nat) (m : Met Nat) (s : State) :
    GoesSound s (execMcastCopyDelivered lc m s) := by
  unfold execMcastCopyDelivered
  extract_lets target open? errs
  split
  · exact .same s
  extract_lets rest m t u v e'
  have ht : s.Sound → t.Sound := fun h => hawkWrite_sound h ..
  have hu : u.mem = t.mem := foldl_mem _ _ _ fun _ _ => hawkPoison_mem ..
  have hv : v.mem = u.mem := (flitsTo_mem ..).trans ((seamNote_mem ..).trans (freeEvent_mem ..))
  have hs : s.Sound → v.Sound := fun h => Sound.of_mem (ht h) (hv.trans hu)
  clear_value v
  refine .ite (fun _ => .same s) fun _ => .ite (fun _ => .next fun h => mcastFlag_wf h ..) fun _ =>
    .ite (fun _ => .mem (mcastDone_mem ..)) fun _ => .after hs (.ite (fun _ => .next fun h => ?_) fun _ =>
      .mem (mcastDone_mem ..))
  exact mcastFlag_wf (Sound.of_mem h (setEntry_mem ..)) ..

theorem execRedContributionArrival_goes (lc : Nat) (s : State) :
    GoesSound s (execRedContributionArrival lc s) := by
  unfold execRedContributionArrival
  split
  · exact .next fun h => collsOf_wf h ..
  extract_lets d r flits new
  refine .ite (fun _ => .next fun h => collsOf_wf h ..) fun _ => .next fun h => reachColl_sound h fun t k ht => ?_
  extract_lets k' u v w
  exact collOn_wf (Sound.of_mem ht (by simp [w, v, u])) ..

theorem execBarrierArrival_goes (lc : Nat) (s : State) :
    GoesSound s (execBarrierArrival lc s) := by
  unfold execBarrierArrival
  split
  · exact .next fun h => collsOf_wf h ..
  extract_lets d ns root rid
  refine .ite (fun _ => .next fun h => collsOf_wf h ..) fun _ => .ite (fun _ => .mem (finish_mem ..)) fun _ =>
    .ite (fun _ => .same s) fun _ => .next fun h => reachColl_sound h fun t k ht => ?_
  extract_lets k' u
  exact collOn_wf (Sound.of_mem ht (by simp [u])) ..

theorem execBarrierReleaseDelivered_goes (lc : Nat) (s : State) :
    GoesSound s (execBarrierReleaseDelivered lc s) := by
  unfold execBarrierReleaseDelivered
  dsimp only
  repeat' split
  all_goals exact GoesSound.mem (by simp)

theorem execCollTimeout_goes (lc : Nat) (s : State) :
    GoesSound s (execCollTimeout lc s) := by
  unfold execCollTimeout
  split
  · exact .same s
  split
  · exact .same s
  extract_lets d r t k u
  have hu : u.mem = s.mem := by simp [u, t]
  exact .next fun h => collOn_wf (Sound.of_mem h ((finish_mem ..).trans hu)) ..

theorem execHawkRemoteWrite_goes (lc : Nat) (m : Met Nat) (s : State) :
    GoesSound s (execHawkRemoteWrite lc m s) := by
  unfold execHawkRemoteWrite
  split
  · exact .same s
  · exact .next fun h => Sound.ite (fun _ => performStore_wf h ..) fun _ => h

theorem execHawkRemoteReadRequest_goes (lc idx : Nat) (errs : List MemErr) (s : State) :
    GoesSound s (execHawkRemoteReadRequest lc idx errs s) := by
  unfold execHawkRemoteReadRequest
  split
  · exact .same s
  rename_i l _
  refine .ite (fun _ => ?_) fun _ => .same s
  have ht : s.Sound → (s.sampleLoad lc idx l errs).1.Sound := fun h => sampleLoad_wf h ..
  exact .after ht (.mem (State.setCore_mem ..))

theorem execSeamRouterWake_goes (half : Half) (s : State) :
    GoesSound s (execSeamRouterWake half s) := by
  unfold execSeamRouterWake
  dsimp only
  repeat' split
  all_goals exact GoesSound.mem (by simp)

theorem execSeamRouterWakeComplete_goes (half : Half) (s : State) :
    GoesSound s (execSeamRouterWakeComplete half s) := by
  unfold execSeamRouterWakeComplete
  dsimp only
  repeat' split
  all_goals exact GoesSound.mem (by simp)

theorem execScrimLinkParityError_goes (site : Nat) (lower again : Bool) (c : Carried) (s : State) :
    GoesSound s (execScrimLinkParityError site lower again c s) := by
  unfold execScrimLinkParityError
  extract_lets t u
  refine .ite (fun _ => .ite (fun _ => ?_) fun _ => .mem (log_mem ..)) fun _ => .same s
  exact .next fun h => Sound.of_mem (poisonMem_sound (Sound.of_mem h (log_mem ..)) ..) (snagIn_mem ..)

theorem execVcRowCommit_goes (site : Nat) (dir : VcDir) (struck errs : List MemErr) (s : State) :
    GoesSound s (execVcRowCommit site dir struck errs s) := by
  unfold execVcRowCommit
  split
  · exact .same s
  extract_lets dn
  split
  · extract_lets mine
    refine .ite (fun _ => ?_) fun _ => .same s
    split
    · exact .same s
    rename_i t ht
    extract_lets v u
    have hu : u.mem = s.mem := (by simp [u] : u.mem = t.mem).trans (cross_mem ht)
    exact .next fun h => commitRow_wf (Sound.of_mem h ((meet_mem ..).trans hu)) ..
  · exact .same s

theorem execVcRowReplay_goes (site : Nat) (dir : VcDir) (group attempt : Nat) (f : FailedRow) (s : State) :
    GoesSound s (execVcRowReplay site dir group attempt f s) := by
  unfold execVcRowReplay
  extract_lets v t
  split
  · exact .same s
  extract_lets v'
  have ht : t.mem = s.mem := (State.incRf_mem ..).trans (State.setVc_mem ..)
  refine .ite (fun _ => .same s) fun _ => .ite (fun _ => .mem (by simp)) fun _ => .ite (fun _ => .same s) fun _ =>
    .ite (fun _ => .next fun h => Sound.foldl _ (fun u l hu => ?_) _ (Sound.of_mem h ht)) fun _ =>
      .next fun h => killGroup_wf (Sound.of_mem h (State.setVc_mem ..)) ..
  exact Sound.of_mem (declareLane_wf hu ..) (repairLane_mem ..)

theorem execVcLaneFailed_goes (site : Nat) (dir : VcDir) (group lane : Nat) (s : State) :
    GoesSound s (execVcLaneFailed site dir group lane s) :=
  .next fun h => Sound.ite (fun _ => h) fun _ => Sound.ite (fun _ => declareLane_wf h ..) fun _ => h

theorem execVcLaneRepair_goes (site : Nat) (dir : VcDir) (group lane : Nat) (s : State) :
    GoesSound s (execVcLaneRepair site dir group lane s) := by
  unfold execVcLaneRepair
  exact GoesSound.mem (by simp)

theorem execVcWidthChange_goes (site : Nat) (dir : VcDir) (s : State) :
    GoesSound s (execVcWidthChange site dir s) := by
  unfold execVcWidthChange
  dsimp only
  repeat' split
  all_goals exact GoesSound.mem (by simp)

theorem execProbeMeasurement_goes (site : Nat) (dir : VcDir) (group eye centre : Nat) (s : State) :
    GoesSound s (execProbeMeasurement site dir group eye centre s) := by
  unfold execProbeMeasurement
  extract_lets v t
  have ht : t.mem = s.mem := by simp [t]
  exact .ite (fun _ => .same s) fun _ => .next fun h => measured_wf (Sound.of_mem h ht) ..

theorem execRetuneWindowDue_goes (site : Nat) (cause : RetuneCause) (s : State) :
    GoesSound s (execRetuneWindowDue site cause s) := by
  unfold execRetuneWindowDue
  exact GoesSound.mem (by simp)

theorem execRetuneWindowOpen_goes (site : Nat) (s : State) :
    GoesSound s (execRetuneWindowOpen site s) := by
  unfold execRetuneWindowOpen
  dsimp only
  repeat' split
  all_goals exact GoesSound.mem (by simp)

theorem execRetuneWindowEnd_goes (site : Nat) (found : List GroupTune) (s : State) :
    GoesSound s (execRetuneWindowEnd site found s) := by
  unfold execRetuneWindowEnd
  extract_lets x
  refine .ite (fun _ => .next fun h => Sound.foldl _ (fun t g ht => ?_) _ (Sound.of_mem h (State.setSite_mem ..))) fun _ =>
    .same s
  exact Sound.ite (fun _ => measured_wf (Sound.of_mem ht (retune_mem ..)) ..) fun _ => ht

theorem execRetuneWindowForced_goes (site msDue : Nat) (s : State) :
    GoesSound s (execRetuneWindowForced site msDue s) := by
  unfold execRetuneWindowForced
  dsimp only
  repeat' split
  all_goals exact GoesSound.mem (by simp)

theorem execPllLockComplete_goes (half : Half) (s : State) :
    GoesSound s (execPllLockComplete half s) := by
  unfold execPllLockComplete
  dsimp only
  repeat' split
  all_goals exact GoesSound.mem (by simp)

theorem execHalfClockResume_goes (half : Half) (s : State) :
    GoesSound s (execHalfClockResume half s) := by
  unfold execHalfClockResume
  dsimp only
  repeat' split
  all_goals exact GoesSound.mem (by simp)

theorem execRailRampComplete_goes (s : State) :
    GoesSound s (execRailRampComplete s) := by
  unfold execRailRampComplete
  repeat' split
  all_goals exact GoesSound.mem (by simp)

theorem execKeritPortReset_goes (port : Nat) (s : State) :
    GoesSound s (execKeritPortReset port s) := by
  unfold execKeritPortReset
  extract_lets t
  have ht : t.mem = s.mem := barCopies_mem ..
  exact .ite (fun _ => .next fun h => Sound.of_mem (resetPort_wf (Sound.of_mem h ht) port) (voidNonce_mem _)) fun _ =>
    .same s

theorem execKeritPortResetEnd_goes (port : Nat) (s : State) :
    GoesSound s (execKeritPortResetEnd port s) := by
  unfold execKeritPortResetEnd
  exact GoesSound.mem (by simp)

theorem execRenderControllerReset_goes (chan : Nat) (s : State) :
    GoesSound s (execRenderControllerReset chan s) := by
  unfold execRenderControllerReset
  extract_lets t
  have ht : t.mem = s.mem := barCopies_mem ..
  refine .ite (fun _ => .next fun h => ?_) fun _ => .same s
  exact Sound.of_mem (rubLoses_wf (resetRollers_wf (Sound.of_mem h ht) chan) ..)
    ((voidNonce_mem _).trans (State.setRf_mem ..))

theorem execRenderControllerResetEnd_goes (chan : Nat) (s : State) :
    GoesSound s (execRenderControllerResetEnd chan s) :=
  .ite (fun _ => .next fun h => rcDrain_wf (Sound.of_mem h (State.setRf_mem ..))) fun _ => .same s

theorem execBarRead_goes (bar off len : Nat) (errs : List MemErr) (s : State) :
    GoesSound s (execBarRead bar off len errs s) := by
  unfold execBarRead
  split
  · exact .same s
  rename_i t ht
  have hu : s.Sound → ((blocks 64 (len + 1) off len).foldl
      (fun (t : State × BarRead) (b : Nat × Nat) => t.1.barReadPart bar b.1 b.2 t.2) (t, ⟨[], false, false⟩)).1.Sound := by
    intro h
    refine Sound.foldl_fst _ (fun r b hr => ?_) _ ?_
    · exact barReadPart_wf hr ..
    · exact Sound.of_mem h ((letIn_mem ht).trans (tlp_mem ..))
  split
  rename_i u r hr
  rw [hr] at hu
  extract_lets v w
  have hv : v.mem = u.mem := tlp_mem ..
  have hw : w.mem = u.mem := (State.send_mem ..).trans hv
  exact .after hu (.mem (by split <;> simp [hw, hv]))

theorem execBarWrite_goes (bar off : Nat) (bytes : List (Option Byte)) (ep : Met Bool) (s : State) :
    GoesSound s (execBarWrite bar off bytes ep s) := by
  unfold execBarWrite
  extract_lets rs
  split
  · exact .same s
  rename_i t ht
  extract_lets u
  have hu : s.Sound → u.Sound := fun h =>
    Sound.foldl _ (fun t r ht => barWriteRun_wf ht ..) _ (Sound.of_mem h ((letIn_mem ht).trans (tlp_mem ..)))
  exact .after hu (.mem (foldl_mem _ _ _ fun _ _ => evalSlot_mem ..))

theorem execRegisterWrite_goes (req : Requester) (addr : Nat) (bytes : List Byte) (s : State) :
    GoesSound s (execRegisterWrite req addr bytes s) := by
  refine .next fun h => ?_
  split
  · split
    · rename_i t ht
      exact writeRegs_wf (Sound.of_mem h (letIn_mem ht)) ..
    · exact h
  · exact h

theorem execLaunchSlotWrite_goes (slot off : Nat) (bytes : List (Option Byte)) (s : State) :
    GoesSound s (execLaunchSlotWrite slot off bytes s) := by
  unfold execLaunchSlotWrite
  exact GoesSound.mem (by simp)

theorem execLaunchStart_goes (slot : Nat) (s : State) :
    GoesSound s (execLaunchStart slot s) := by
  unfold execLaunchStart
  repeat' split
  all_goals exact GoesSound.mem (by simp)

theorem execLaunchEnd_goes (slot : Nat) (s : State) :
    GoesSound s (execLaunchEnd slot s) := by
  unfold execLaunchEnd
  dsimp only
  repeat' split
  all_goals exact GoesSound.mem (by simp)

theorem execMsixVectorUnmask_goes (vec : Nat) (s : State) :
    GoesSound s (execMsixVectorUnmask vec s) := by
  unfold execMsixVectorUnmask
  exact GoesSound.mem (by simp)

theorem execPcieConfigRequest_goes (r : CfgReq) (s : State) :
    GoesSound s (execPcieConfigRequest r s) := by
  unfold execPcieConfigRequest
  repeat' split
  all_goals exact GoesSound.mem (by simp)

theorem execHostReadCompletion_goes (lc addr : Nat) (bytes : List Byte) (ep : Bool) (s : State) :
    GoesSound s (execHostReadCompletion lc addr bytes ep s) := by
  unfold execHostReadCompletion
  split
  · exact .same s
  extract_lets got ks buf
  exact .ite (fun _ => .same s) fun _ =>
    .next fun h => moverOn_wf (Sound.of_mem h ((setEntry_mem ..).trans (tlp_mem ..))) ..

theorem execD3hotEntry_goes (s : State) :
    GoesSound s (execD3hotEntry s) := by
  unfold execD3hotEntry
  exact GoesSound.mem (by simp)

theorem execD0Return_goes (s : State) :
    GoesSound s (execD0Return s) := by
  unfold execD0Return
  dsimp only
  repeat' split
  all_goals exact GoesSound.mem (by simp)

theorem execAsleepWakeComplete_goes (s : State) :
    GoesSound s (execAsleepWakeComplete s) := by
  unfold execAsleepWakeComplete
  repeat' split
  all_goals exact GoesSound.mem (by simp)

theorem execDataFrame_goes (port : Nat) (f : Frame) (s : State) :
    GoesSound s (execDataFrame port f s) := by
  unfold execDataFrame
  refine .ite (fun _ => ?_) fun _ => .same s
  split
  · rename_i t ht
    exact .mem (frameIn_error_mem ht)
  rename_i t ht
  extract_lets x u x' y
  have hu : u.mem = t.mem := by
    dsimp only [u]
    split
    · exact onMgt_mem ..
    · rfl
  exact .mem (by simp [hu, frameIn_ok_mem ht])

theorem execNakFrame_goes (port : Nat) (f : Frame) (want : Nat) (s : State) :
    GoesSound s (execNakFrame port f want s) := by
  unfold execNakFrame
  refine .ite (fun _ => ?_) fun _ => .same s
  split
  · rename_i t ht
    exact .mem (frameIn_error_mem ht)
  rename_i t ht
  extract_lets u
  have hu : u.mem = s.mem := (State.setPort_mem ..).trans (frameIn_ok_mem ht)
  split
  · exact .mem (by simp [hu])
  · exact .mem (by simp [hu])

theorem execIdleFrame_goes (port : Nat) (f : Frame) (eq : Option (List Byte)) (s : State) :
    GoesSound s (execIdleFrame port f eq s) := by
  unfold execIdleFrame
  refine .ite (fun _ => ?_) fun _ => .same s
  split
  · rename_i t ht
    exact .mem (frameIn_error_mem ht)
  rename_i t ht
  extract_lets x u
  have hu : u.mem = t.mem := by
    dsimp only [u]
    split
    · simp
    · rfl
  exact .mem ((afterFrame_mem ..).trans (hu.trans (frameIn_ok_mem ht)))

theorem execAckTimeoutReplay_goes (port : Nat) (s : State) :
    GoesSound s (execAckTimeoutReplay port s) := by
  unfold execAckTimeoutReplay
  exact GoesSound.mem (by simp)

theorem execCodewordLockLoss_goes (port : Nat) (s : State) :
    GoesSound s (execCodewordLockLoss port s) := by
  unfold execCodewordLockLoss
  exact GoesSound.mem (by simp)

theorem execPortRetrainRetry_goes (port : Nat) (s : State) :
    GoesSound s (execPortRetrainRetry port s) := by
  unfold execPortRetrainRetry
  exact GoesSound.mem (by simp)

theorem execPut_goes (m : Met Nat) (s : State) :
    GoesSound s (execPut m s) := by
  refine .next fun h => onPacket_sound h fun t u p dup ht hu => ?_
  extract_lets a at hu
  split at hu
  · cases hu; exact Sound.of_mem ht (answer_mem ..)
  split at hu
  · cases hu; exact Sound.of_mem ht (answer_mem ..)
  split at hu
  · cases hu
  rename_i v hv
  have hv : v.Sound := Sound.of_mem ht (letIn_mem hv)
  split at hu
  · cases hu; exact Sound.of_mem hv (answer_mem ..)
  cases hu
  refine Sound.of_mem (Sound.foldl_fst _ (fun r x hr => ?_) _ ?_) (answer_mem ..)
  · exact putPart_wf hr ..
  · exact hv

theorem execFlag_goes (m : Met Nat) (s : State) :
    GoesSound s (execFlag m s) := by
  refine .next fun h => onPacket_sound h fun t u p dup ht hu => ?_
  extract_lets a at hu
  split at hu
  · cases hu; exact Sound.of_mem ht (answer_mem ..)
  split at hu
  · cases hu; exact Sound.of_mem ht (answer_mem ..)
  split at hu
  · cases hu
  rename_i v hv
  have hv : v.Sound := Sound.of_mem ht (letIn_mem hv)
  split at hu
  · cases hu; exact Sound.of_mem hv (answer_mem ..)
  · cases hu; exact Sound.of_mem (flagAt_wf hv ..) (answer_mem ..)

theorem execRead_goes (port : Nat) (errs : List MemErr) (s : State) :
    GoesSound s (execRead port errs s) := by
  refine .next fun h => onPacket_sound h fun t u p dup ht hu => ?_
  extract_lets a at hu
  split at hu
  · cases hu; exact Sound.of_mem ht (answer_mem ..)
  split at hu
  · cases hu
  rename_i v hv
  have hv : v.Sound := Sound.of_mem ht (letIn_mem hv)
  split at hu
  · cases hu; exact Sound.of_mem hv (answer_mem ..)
  have hw : ((blocks 64 (p.len + 1) a p.len).foldl
      (fun (r : State × List Byte × Bool × Option (BitVec 8)) (x : Nat × Nat) =>
        r.1.readPart p.srcDev.toNat x.1 x.2 r.2) (v, [], false, none)).1.Sound := by
    refine Sound.foldl_fst _ (fun r x hr => ?_) _ ?_
    · exact readPart_wf hr ..
    · exact hv
  split at hu
  rename_i w bs poi o hr
  rw [hr] at hw
  split at hu
  · cases hu; exact Sound.of_mem hw (answer_mem ..)
  · cases hu; exact Sound.of_mem hw (answer_mem ..)

theorem execReadData_goes (port : Nat) (s : State) :
    GoesSound s (execReadData port s) := by
  refine .next fun h => onPacket_sound h fun t u p dup ht hu => ?_
  extract_lets key n st k at hu
  cases hu
  split
  · split
    · refine Sound.ite (fun _ => ht) fun _ => ?_
      extract_lets v unit w
      have hv : v.mem = t.mem := rfl
      have hw : w.mem = t.mem := by
        dsimp only [w]
        split
        · exact (fillMissing_mem ..).trans hv
        · split
          · exact (setEntry_mem ..).trans hv
          · exact hv
      exact Sound.of_mem (endPacket_wf (Sound.of_mem ht hw) ..) (fillStore_mem _)
    · exact ht
  · exact ht

theorem execPack_goes (port : Nat) (s : State) :
    GoesSound s (execPack port s) := by
  refine .next fun h => onPacket_sound h fun t u p dup ht hu => ?_
  extract_lets key n st at hu
  cases hu
  refine Sound.ite (fun _ => ht) fun _ => ?_
  split
  · extract_lets v
    have hv : v.Sound := ht
    exact Sound.of_mem (Sound.foldl _ (fun _ _ hr => Sound.intro (endPacket_wf hr ..)) _ hv) (fillStore_mem _)
  · exact ht

theorem execFlowFailover_goes (flow : Nat) (s : State) :
    GoesSound s (execFlowFailover flow s) := by
  unfold execFlowFailover
  split
  · exact .same s
  refine .ite (fun _ => ?_) fun _ => .same s
  extract_lets g
  split
  · exact .mem (by simp)
  · exact .next fun h => endFlow_wf (resetPort_wf h _) _

theorem execFlowReturnHome_goes (flow : Nat) (s : State) :
    GoesSound s (execFlowReturnHome flow s) := by
  unfold execFlowReturnHome
  dsimp only
  repeat' split
  all_goals exact GoesSound.mem (by simp)

theorem execE2eTimeout_goes (lc : Nat) (u : UnitId) (s : State) :
    GoesSound s (execE2eTimeout lc u s) := by
  unfold execE2eTimeout
  split
  all_goals try exact .same s
  all_goals
    split
    · exact .same s
    extract_lets st us
    refine .ite (fun _ => .same s) fun _ => .next fun h => unitOn_wf (Sound.of_mem h (foldl_mem _ _ _ fun _ _ => ?_)) ..
    exact (awaited_mem ..).trans (fillMissing_mem ..)

theorem execQuietEntry_goes (port : Nat) (s : State) :
    GoesSound s (execQuietEntry port s) := by
  unfold execQuietEntry
  exact GoesSound.mem (by simp)

theorem execQuietExit_goes (port : Nat) (s : State) :
    GoesSound s (execQuietExit port s) := by
  unfold execQuietExit
  exact GoesSound.mem (by simp)

theorem execFullWidthResume_goes (port : Nat) (s : State) :
    GoesSound s (execFullWidthResume port s) := by
  unfold execFullWidthResume
  exact GoesSound.mem (by simp)

theorem execKeritCoefficientStore_goes (port : Nat) (coef : List Byte) (s : State) :
    GoesSound s (execKeritCoefficientStore port coef s) := by
  unfold execKeritCoefficientStore
  repeat' split
  all_goals exact GoesSound.mem (by simp)

theorem execMgtImageReceive_goes (srcPos : Nat) (m : MgtIn) (s : State) :
    GoesSound s (execMgtImageReceive srcPos m s) := by
  unfold execMgtImageReceive
  dsimp only
  repeat' split
  all_goals exact GoesSound.mem (by simp)

theorem execMemberReport_goes (pos : Nat) (ok : Bool) (s : State) :
    GoesSound s (execMemberReport pos ok s) := by
  unfold execMemberReport
  repeat' split
  all_goals exact GoesSound.mem (by simp)

theorem execMemberReportTimeout_goes (pos : Nat) (s : State) :
    GoesSound s (execMemberReportTimeout pos s) := by
  unfold execMemberReportTimeout
  exact GoesSound.mem (by simp)

theorem execKlkLockSet_goes (s : State) :
    GoesSound s (execKlkLockSet s) := by
  unfold execKlkLockSet
  repeat' split
  all_goals exact GoesSound.mem (by simp)

theorem execStart_goes (i : StartIn) (s : State) :
    GoesSound s (execStart i s) := by
  unfold execStart
  refine .ite (fun _ => .same s) fun _ => ?_
  extract_lets t r u
  have hu : u.mem = s.mem := endScopes_mem s
  split
  · exact .mem ((linkUp_mem ..).trans hu)
  · have starts (v : State) (hv : v.mem = s.mem) : GoesSound s (.next (v.runStart i)) :=
      .next fun h => runStart_wf (Sound.of_mem h hv) i
    exact starts _ hu

theorem execSnagAppend_goes (f : FoundFault) (s : State) :
    GoesSound s (execSnagAppend f s) := by
  unfold execSnagAppend
  dsimp only
  repeat' split
  all_goals exact GoesSound.mem (by simp)

theorem execRemapComplete_goes (s : State) :
    GoesSound s (execRemapComplete s) := by
  unfold execRemapComplete
  split
  · exact .same s
  extract_lets st t u v
  have hu : s.Sound → u.Sound := fun h => by
    dsimp only [u]
    split
    · split
      · exact moveCore_wf (s := t) h ..
      · exact h
    · exact h
  have hv : v.mem = u.mem := by simp [v]
  exact .after hu (.mem (by simp [hv]))

theorem execRubDownStop_goes (req : Requester) (data : Word) (errs : List MemErr) (s : State) :
    GoesSound s (execRubDownStop req data errs s) := by
  have ht : s.Sound → (s.writeReg8 req .rubCtrl (setFld (setFld data 0 1 0) 1 1 0)).Sound := fun h => writeReg8_wf h ..
  exact .next fun h => Sound.ite (fun _ => rubCut_wf (ht h) ..) fun _ => ht h

theorem execRubDownComplete_goes (errs : List MemErr) (s : State) :
    GoesSound s (execRubDownComplete errs s) :=
  .next fun h => Sound.ite (fun _ => rubEnd_wf (Sound.of_mem h (rubScan_mem ..)) _) fun _ => h

theorem execFinishChangeAccept_goes (s : State) :
    GoesSound s (execFinishChangeAccept s) := by
  unfold execFinishChangeAccept
  dsimp only
  repeat' split
  all_goals exact GoesSound.mem (by simp)

theorem execPowerStateEntry_goes (scope : PowerScope) (s : State) :
    GoesSound s (execPowerStateEntry scope s) := by
  cases scope with
  | coreClock _ => exact .same s
  | core lc => exact .next fun h => Sound.ite (fun _ => h) fun _ => h
  | half x =>
    refine .next fun h => Sound.ite (fun _ => ?_) fun _ => h
    exact Sound.of_mem (loseHalf_wf h x) (by simp)
  | hod => exact .next fun h => Sound.ite (fun _ => Sound.of_mem h (State.setRf_mem s .pwrState 10 1 1)) fun _ => h
  | render =>
    exact .next fun h => Sound.ite (fun _ => Sound.of_mem h (by simp)) fun _ => h
  | module =>
    refine .ite (fun _ => .after flushCache_wf (.next fun h => ?_)) fun _ => .same s
    exact Sound.ite (fun _ => h) fun _ => Sound.ite (fun _ => relock_wf h) fun _ => asleep_wf h

theorem execPowerStateWake_goes (scope : PowerScope) (s : State) :
    GoesSound s (execPowerStateWake scope s) := by
  unfold execPowerStateWake
  repeat' split
  all_goals exact GoesSound.mem (by simp)

theorem execPowerSample_goes (p v48 vaux uj fillUj : Nat) (s : State) :
    GoesSound s (execPowerSample p v48 vaux uj fillUj s) := by
  unfold execPowerSample
  exact GoesSound.mem (by simp)

theorem execThermalSample_goes (temps : List Int) (tin : Int) (p : Nat) (s : State) :
    GoesSound s (execThermalSample temps tin p s) := by
  unfold execThermalSample
  exact GoesSound.mem (by simp)

theorem execThermalEstimateStore_goes (s : State) :
    GoesSound s (execThermalEstimateStore s) := by
  unfold execThermalEstimateStore
  exact GoesSound.mem (by simp)

theorem execHotSpotFall_goes (site : Nat) (temp : Int) (s : State) :
    GoesSound s (execHotSpotFall site temp s) := by
  unfold execHotSpotFall
  exact GoesSound.mem (by simp)

theorem execHotSpotRise_goes (site : Nat) (temp : Int) (s : State) :
    GoesSound s (execHotSpotRise site temp s) := by
  unfold execHotSpotRise
  exact GoesSound.mem (by simp)

theorem execHotSpotCapStep_goes (site : Nat) (temp : Int) (s : State) :
    GoesSound s (execHotSpotCapStep site temp s) := by
  unfold execHotSpotCapStep
  dsimp only
  repeat' split
  all_goals exact GoesSound.mem (by simp)

theorem execThermalTrip_goes (temp : Int) (s : State) :
    GoesSound s (execThermalTrip temp s) :=
  .next fun h => Sound.ite (fun _ => coldReset_wf h) fun _ => h

theorem execRainflowSample_goes (temp : Int) (s : State) :
    GoesSound s (execRainflowSample temp s) := by
  unfold execRainflowSample
  extract_lets put
  have hp (l : List Int) (t : State) : (put l t).mem = t.mem := rfl
  split
  · exact .mem (hp ..)
  · exact .mem (by simp [hp])
  · rename_i b a r _
    refine .ite (fun _ => .same s) fun _ => .ite (fun _ => .mem (hp ..)) fun _ => ?_
    split
    rename_i l t ht
    have hm := rainflow_mem (r.length + 3) (b :: a :: r) s
    rw [ht] at hm
    exact .mem ((hp ..).trans hm)

theorem execLifeRecompute_goes (s : State) :
    GoesSound s (execLifeRecompute s) := by
  unfold execLifeRecompute
  exact GoesSound.mem (by simp)

theorem execFloorHoldExpiry_goes (s : State) :
    GoesSound s (execFloorHoldExpiry s) := by
  unfold execFloorHoldExpiry
  repeat' split
  all_goals exact GoesSound.mem (by simp)

theorem execBrakeNAssert_goes (s : State) :
    GoesSound s (execBrakeNAssert s) := by
  unfold execBrakeNAssert
  extract_lets held t
  have ht : t.mem = s.mem := State.setRf_mem ..
  exact .next fun h => rcDrain_wf (Sound.of_mem h ((foldl_mem _ _ _ fun _ _ => gapRefresh_mem ..).trans ht))

theorem execBrakeNDeassert_goes (s : State) :
    GoesSound s (execBrakeNDeassert s) := by
  unfold execBrakeNDeassert
  exact GoesSound.mem (by simp)

theorem execAuxApply_goes (s : State) :
    GoesSound s (execAuxApply s) := by
  unfold execAuxApply
  exact GoesSound.mem (by simp)

theorem execAuxLoss_goes (s : State) :
    GoesSound s (execAuxLoss s) := by
  have ht : s.Sound → (if s.pins.aux && s.pins.stage then s.lose48 else s).Sound := fun h =>
    Sound.ite (fun _ => lose48_wf s) fun _ => h
  exact .next ht

theorem execStageStart_goes (v : Supply) (s : State) :
    GoesSound s (execStageStart v s) := by
  unfold execStageStart
  exact GoesSound.mem (by simp)

theorem execStageStop_goes (mv : Nat) (s : State) :
    GoesSound s (execStageStop mv s) :=
  .ite (fun _ => .next fun _ => lose48_wf s) fun _ => .same s

theorem execPerstAssert_goes (s : State) :
    GoesSound s (execPerstAssert s) := by
  have ht : s.Sound → (if s.pins.stage && !s.pins.perst then s.fullReset else s).Sound := fun h =>
    Sound.ite (fun _ => fullReset_wf h) fun _ => h
  exact .next ht

theorem execPerstDeassert_goes (s : State) :
    GoesSound s (execPerstDeassert s) := by
  unfold execPerstDeassert
  exact GoesSound.mem (by simp)

theorem execMcWatchdogExpiry_goes (s : State) :
    GoesSound s (execMcWatchdogExpiry s) :=
  .next fun h => Sound.ite (fun _ => fullReset_wf h) fun _ => h

theorem execI3cEntdaa_goes (addr : BitVec 7) (s : State) :
    GoesSound s (execI3cEntdaa addr s) := by
  unfold execI3cEntdaa
  exact GoesSound.mem (by simp)

theorem execGetVersion_goes (tr : Transport) (_q : SpdmReq) (s : State) :
    GoesSound s (execGetVersion tr _q s) := by
  unfold execGetVersion
  exact GoesSound.mem (by simp)

theorem execGetCapabilities_goes (tr : Transport) (_q : SpdmReq) (s : State) :
    GoesSound s (execGetCapabilities tr _q s) := by
  unfold execGetCapabilities
  exact GoesSound.mem (by simp)

theorem execNegotiateAlgorithms_goes (tr : Transport) (q : SpdmReq) (s : State) :
    GoesSound s (execNegotiateAlgorithms tr q s) := by
  unfold execNegotiateAlgorithms
  exact GoesSound.mem (by simp)

theorem execChallenge_goes (tr : Transport) (q : SpdmReq) (s : State) :
    GoesSound s (execChallenge tr q s) := by
  unfold execChallenge
  exact GoesSound.mem (by simp)

theorem execGetMeasurements_goes (tr : Transport) (q : SpdmReq) (s : State) :
    GoesSound s (execGetMeasurements tr q s) := by
  unfold execGetMeasurements
  exact GoesSound.mem (by simp)

theorem execFwCommandComplete_goes (flashOk : Bool) (s : State) :
    GoesSound s (execFwCommandComplete flashOk s) := by
  unfold execFwCommandComplete
  repeat' split
  all_goals exact GoesSound.mem (by simp)

theorem execDbgCommandComplete_goes (s : State) :
    GoesSound s (execDbgCommandComplete s) := by
  unfold execDbgCommandComplete
  split
  · exact .same s
  rename_i c _
  split
  rename_i t r ht
  have hm : t.mem = s.mem := by
    split at ht
    · simpa [ht] using dbgRequest_mem s c
    · simpa [ht] using dbgSubmit_mem s
    · simpa [ht] using dbgEnrol_mem s
  exact .mem ((State.setRf_mem ..).trans ((State.setRf_mem ..).trans hm))

theorem execSampleSpill_goes (lc : Nat) (s : State) :
    GoesSound s (execSampleSpill lc s) :=
  .next fun h => Sound.ite (fun _ => spill_wf h ..) fun _ => h

theorem execIllegalInstruction_goes (lc : Nat) (word : BitVec 32) (s : State) :
    GoesSound s (execIllegalInstruction lc word s) := by
  unfold execIllegalInstruction
  dsimp only
  repeat' split
  all_goals exact GoesSound.mem (by simp)

theorem execDramRowClose_goes (chan bank : Nat) (s : State) :
    GoesSound s (execDramRowClose chan bank s) := by
  unfold execDramRowClose
  exact GoesSound.mem (by simp)

theorem execInletTemperatureChange_goes (tin : Int) (s : State) :
    GoesSound s (execInletTemperatureChange tin s) := by
  unfold execInletTemperatureChange
  dsimp only
  repeat' split
  all_goals exact GoesSound.mem (by simp)

theorem execSnagListClear_goes (idx : List Nat) (s : State) :
    GoesSound s (execSnagListClear idx s) := by
  unfold execSnagListClear
  repeat' split
  all_goals exact GoesSound.mem (by simp)

/-- Every command goes on, and keeps memory sound. -/
theorem exec_goes (i : Instr) (s : State) : GoesSound s (exec i s) := by
  cases i with
  | add | sub | and | or | xor | sll | srl | sra | slt | sltu | min | max | minu | maxu | mul | mulh
  | mulhu | div | divu | rem | remu | fadd | fsub | fmul | fmin | fmax | feq | flt | fle | fcvtSL | fcvtLS
  | addi | andi | ori | xori | slti | slli | srli | srai | lui | tkrd | dget | sumrd => exact .mem (scalarX_mem ..)
  | lb | lh | lw | ld | lbu | lhu | lwu | dld => exact .mem (issueLoad_mem ..)
  | sb | sh | sw | st | dst => exact .next fun h => issueStore_wf h ..
  | stRel => exact execStRel_goes ..
  | brEq | brNe | brLt | brGe | brLtu | brGeu => exact .mem (branch_mem ..)
  | jal | tkset | dset | dcpy | dzero | icinv | seed => exact .mem (scalar_mem ..)
  | jalr => exact execJalr_goes ..
  | tks => exact execTks_goes ..
  | tkw => exact execTkw_goes ..
  | fence => exact execFence_goes ..
  | brk => exact execBrk_goes ..
  | halt => exact execHalt_goes ..
  | waitf => exact execWaitf_goes ..
  | waitfWake => exact execWaitfWake_goes ..
  | waitfTimeout => exact execWaitfTimeout_goes ..
  | tkwSatisfied => exact execTkwSatisfied_goes ..
  | loadDataReturn => exact execLoadDataReturn_goes ..
  | storePerformed => exact .next fun h => performStore_wf h ..
  | unitInstructionStart => exact execUnitInstructionStart_goes ..
  | unitInstructionComplete => exact execUnitInstructionComplete_goes ..
  | ticketDeadlock => exact execTicketDeadlock_goes ..
  | coreDrainComplete => exact execCoreDrainComplete_goes ..
  | icacheMissFill => exact execIcacheMissFill_goes ..
  | icacheParityError => exact execIcacheParityError_goes ..
  | controlPathParityError => exact execControlPathParityError_goes ..
  | coreLaunchEntry => exact execCoreLaunchEntry_goes ..
  | coreCtrlStop => exact execCoreCtrlStop_goes ..
  | movRowUp | movRowDn => exact .mem (movRow_mem ..)
  | movBlk => exact execMovBlk_goes ..
  | movRcflWb | movRcflWbinv => exact .next fun h => movRcfl_wf h ..
  | movPutf => exact execMovPutf_goes ..
  | trwMma => exact execTrwMma_goes ..
  | trwDrain => exact execTrwDrain_goes ..
  | trwLdacc => exact execTrwLdacc_goes ..
  | trwClr => exact execTrwClr_goes ..
  | trwAccumulatorParityError => exact execTrwAccumulatorParityError_goes ..
  | brsLdp => exact execBrsLdp_goes ..
  | brsRun => exact execBrsRun_goes ..
  | stcFwd => exact execStcFwd_goes ..
  | stcBwd => exact execStcBwd_goes ..
  | stcPteditInit | stcPteditAppend | stcPteditExtend | stcPteditDrop | stcPteditReplace | stcPteditTrunc
  | stcPteditFree => exact .next fun h => ptedit_wf h ..
  | stcBucket => exact execStcBucket_goes ..
  | stcDec => exact execStcDec_goes ..
  | holdAcquire => exact execHoldAcquire_goes ..
  | holdRelease => exact execHoldRelease_goes ..
  | deferredEditApply => exact execDeferredEditApply_goes ..
  | mcHoldRelease => exact execMcHoldRelease_goes ..
  | kvTableEnable => exact execKvTableEnable_goes ..
  | kvTableDisable => exact execKvTableDisable_goes ..
  | rlrVld => exact execRlrVld_goes ..
  | rlrMv => exact execRlrMv_goes ..
  | rlrRd => exact execRlrRd_goes ..
  | rlrWr => exact execRlrWr_goes ..
  | rollerCommandArrival => exact execRollerCommandArrival_goes ..
  | rollerStackReport => exact execRollerStackReport_goes ..
  | rollerPassEnd => exact execRollerPassEnd_goes ..
  | channelRefresh => exact execChannelRefresh_goes ..
  | rollerDisarmComplete => exact execRollerDisarmComplete_goes ..
  | scrMcast => exact execScrMcast_goes ..
  | scrRed => exact execScrRed_goes ..
  | scrBar => exact execScrBar_goes ..
  | scrFlagSet | scrFlagAdd | scrFlagOr | scrFlagMaxu => exact .next fun h => flagRow_wf h ..
  | mcastCopyDelivered => exact execMcastCopyDelivered_goes ..
  | redContributionArrival => exact execRedContributionArrival_goes ..
  | barrierArrival => exact execBarrierArrival_goes ..
  | barrierReleaseDelivered => exact execBarrierReleaseDelivered_goes ..
  | collTimeout => exact execCollTimeout_goes ..
  | hawkRemoteWrite => exact execHawkRemoteWrite_goes ..
  | hawkRemoteReadRequest => exact execHawkRemoteReadRequest_goes ..
  | seamRouterWake => exact execSeamRouterWake_goes ..
  | seamRouterWakeComplete => exact execSeamRouterWakeComplete_goes ..
  | scrimLinkParityError => exact execScrimLinkParityError_goes ..
  | vcRowCommit => exact execVcRowCommit_goes ..
  | vcRowReplay => exact execVcRowReplay_goes ..
  | vcLaneFailed => exact execVcLaneFailed_goes ..
  | vcLaneRepair => exact execVcLaneRepair_goes ..
  | vcWidthChange => exact execVcWidthChange_goes ..
  | probeMeasurement => exact execProbeMeasurement_goes ..
  | retuneWindowDue => exact execRetuneWindowDue_goes ..
  | retuneWindowOpen => exact execRetuneWindowOpen_goes ..
  | retuneWindowEnd => exact execRetuneWindowEnd_goes ..
  | retuneWindowForced => exact execRetuneWindowForced_goes ..
  | pllLockComplete => exact execPllLockComplete_goes ..
  | halfClockResume => exact execHalfClockResume_goes ..
  | railRampComplete => exact execRailRampComplete_goes ..
  | fullLathReset => exact .next fun h => fullReset_wf h ..
  | keritPortReset => exact execKeritPortReset_goes ..
  | keritPortResetEnd => exact execKeritPortResetEnd_goes ..
  | renderControllerReset => exact execRenderControllerReset_goes ..
  | renderControllerResetEnd => exact execRenderControllerResetEnd_goes ..
  | barRead => exact execBarRead_goes ..
  | barWrite => exact execBarWrite_goes ..
  | registerWrite => exact execRegisterWrite_goes ..
  | launchSlotWrite => exact execLaunchSlotWrite_goes ..
  | launchStart => exact execLaunchStart_goes ..
  | launchEnd => exact execLaunchEnd_goes ..
  | msixVectorUnmask => exact execMsixVectorUnmask_goes ..
  | functionLevelReset | hotReset => exact .next fun h => resetFunction_wf h ..
  | pcieConfigRequest => exact execPcieConfigRequest_goes ..
  | hostReadCompletion => exact execHostReadCompletion_goes ..
  | d3hotEntry => exact execD3hotEntry_goes ..
  | d0Return => exact execD0Return_goes ..
  | asleepWakeComplete => exact execAsleepWakeComplete_goes ..
  | dataFrame => exact execDataFrame_goes ..
  | nakFrame => exact execNakFrame_goes ..
  | idleFrame => exact execIdleFrame_goes ..
  | ackTimeoutReplay => exact execAckTimeoutReplay_goes ..
  | codewordLockLoss => exact execCodewordLockLoss_goes ..
  | portTrainingComplete => exact .mem (portTrained_mem ..)
  | portRetrainRetry => exact execPortRetrainRetry_goes ..
  | put => exact execPut_goes ..
  | flag => exact execFlag_goes ..
  | read => exact execRead_goes ..
  | readData => exact execReadData_goes ..
  | pack => exact execPack_goes ..
  | flowFailover => exact execFlowFailover_goes ..
  | flowReturnHome => exact execFlowReturnHome_goes ..
  | e2eTimeout => exact execE2eTimeout_goes ..
  | quietEntry => exact execQuietEntry_goes ..
  | quietExit => exact execQuietExit_goes ..
  | fullWidthResume => exact execFullWidthResume_goes ..
  | keritCoefficientStore => exact execKeritCoefficientStore_goes ..
  | mgtImageReceive => exact execMgtImageReceive_goes ..
  | memberReport => exact execMemberReport_goes ..
  | memberReportTimeout => exact execMemberReportTimeout_goes ..
  | klkCtrlEn | lathVcPolicyLock | scrCfgLock | mcRemapGo | rubDownGo | mcErrStatusClear | finishRequest =>
    exact .next fun h => writeReg8_wf h ..
  | klkLockSet => exact execKlkLockSet_goes ..
  | start => exact execStart_goes ..
  | snagAppend => exact execSnagAppend_goes ..
  | remapComplete => exact execRemapComplete_goes ..
  | rubDownStop => exact execRubDownStop_goes ..
  | rubDownComplete => exact execRubDownComplete_goes ..
  | finishChangeAccept => exact execFinishChangeAccept_goes ..
  | powerStateEntry => exact execPowerStateEntry_goes ..
  | powerStateWake => exact execPowerStateWake_goes ..
  | powerSample => exact execPowerSample_goes ..
  | thermalSample => exact execThermalSample_goes ..
  | thermalEstimateStore => exact execThermalEstimateStore_goes ..
  | hotSpotFall => exact execHotSpotFall_goes ..
  | hotSpotRise => exact execHotSpotRise_goes ..
  | hotSpotCapStep => exact execHotSpotCapStep_goes ..
  | thermalTrip => exact execThermalTrip_goes ..
  | rainflowSample => exact execRainflowSample_goes ..
  | lifeRecompute => exact execLifeRecompute_goes ..
  | floorHoldExpiry => exact execFloorHoldExpiry_goes ..
  | brakeNAssert => exact execBrakeNAssert_goes ..
  | brakeNDeassert => exact execBrakeNDeassert_goes ..
  | auxApply => exact execAuxApply_goes ..
  | auxLoss => exact execAuxLoss_goes ..
  | stageStart => exact execStageStart_goes ..
  | stageStop => exact execStageStop_goes ..
  | perstAssert => exact execPerstAssert_goes ..
  | perstDeassert => exact execPerstDeassert_goes ..
  | mcWatchdogExpiry => exact execMcWatchdogExpiry_goes ..
  | i3cEntdaa => exact execI3cEntdaa_goes ..
  | getVersion tr q => exact execGetVersion_goes tr q s
  | getCapabilities tr q => exact execGetCapabilities_goes tr q s
  | negotiateAlgorithms => exact execNegotiateAlgorithms_goes ..
  | getDigests | getCertificate => exact .mem (spdmAnswer_mem ..)
  | challenge => exact execChallenge_goes ..
  | getMeasurements => exact execGetMeasurements_goes ..
  | fwBegin | fwWrite | fwFinish | fwActivate | fwCommit | fwAbort => exact .next fun h => fwWriteCmd_wf h ..
  | fwCommandComplete => exact execFwCommandComplete_goes ..
  | dbgRequest | dbgSubmit | dbgRelock | dbgEnrol => exact .next fun h => dbgWriteCmd_wf h ..
  | dbgCommandComplete => exact execDbgCommandComplete_goes ..
  | nonceExpiry => exact .mem (voidNonce_mem ..)
  | pmuMarkWrite | pmuSamplingEnable | pmuSamplingDisable | pmuPermSave | pmuPermLock =>
    exact .next fun h => writeCore_wf h ..
  | sampleSpill => exact execSampleSpill_goes ..
  | illegalInstruction => exact execIllegalInstruction_goes ..
  | dramRowClose => exact execDramRowClose_goes ..
  | inletTemperatureChange => exact execInletTemperatureChange_goes ..
  | snagListClear => exact execSnagListClear_goes ..

theorem step_goes (s : State) : GoesSound s (step s) := by
  unfold step
  split
  · exact .mem (tick_mem s)
  · rename_i c rest _
    exact .after (u := { s with pending := rest }) id (exec_goes c _)

/-- Settles O59: every command of the table goes on, and where memory is sound it leaves it sound, command by command. -/
theorem stepKeepsSound : Obligations.StepKeepsSound := by
  refine ⟨fun s => ?_, fun s t hs ht => ?_⟩
  · obtain ⟨t, ht, _⟩ := step_goes s
    exact ⟨t, ht⟩
  · obtain ⟨u, hu, hsu⟩ := step_goes s
    cases ht.symm.trans hu
    exact hsu hs

end Sys2Proof.Machine
end

