-- ==== Sys2Proof/Proofs/DecodeEncode.lean ====
section
/-!
O60. The words of the Flikoush instructions: what the fields of an encoded word are, format by format, the shape that the
decoder gives a word of each major, and that decoding an encoding gives its instruction back.
-/

namespace Sys2Proof

/-! ### Fields of numbers -/

theorem cut_eq {w lo n : Nat} {x : BitVec n} (h : w / 2 ^ lo % 2 ^ n = x.toNat) : cut w lo n = x :=
  BitVec.eq_of_toNat_eq (by rw [cut, BitVec.toNat_ofNat, h])

theorem bitNat_lt (b : Bool) : bitNat b < 2 := by cases b <;> decide

theorem bitOf_eq {w lo : Nat} {b : Bool} (h : w / 2 ^ lo % 2 = bitNat b) : bitOf w lo = b := by
  rw [bitOf, h]
  cases b <;> rfl

/-- A number without bits where a mask has them. -/
theorem and_mask_eq_zero {n a b : Nat} (h : n / 2 ^ b % 2 ^ a = 0) : n &&& (2 ^ a - 1) * 2 ^ b = 0 := by
  have hlow : (n &&& (2 ^ a - 1) * 2 ^ b) % 2 ^ b = 0 := by
    rw [Nat.and_mod_two_pow, Nat.mul_mod_left, Nat.and_zero]
  have hhigh : (n &&& (2 ^ a - 1) * 2 ^ b) / 2 ^ b = 0 := by
    rw [Nat.and_div_two_pow, Nat.mul_div_cancel _ (Nat.two_pow_pos b), Nat.and_two_pow_sub_one_eq_mod, h]
  rw [← Nat.div_add_mod (n &&& _) (2 ^ b), hlow, hhigh, Nat.mul_zero]

/-! ### The code tables -/

theorem AluOp.code_lt (f : AluOp) : f.code < 2 ^ 10 := by cases f <;> decide
theorem FpOp.code_lt (f : FpOp) : f.code < 16 := by cases f <;> decide
theorem ImmOp.major_lt (f : ImmOp) : f.major < 8 := by cases f <;> decide
theorem ShOp.code_lt (f : ShOp) : f.code < 4 := by cases f <;> decide
theorem LoadW.code_lt (f : LoadW) : f.code < 8 := by cases f <;> decide
theorem StoreW.code_lt (f : StoreW) : f.code < 8 := by cases f <;> decide
theorem Cond.code_lt (f : Cond) : f.code < 8 := by cases f <;> decide

@[simp] theorem AluOp.ofCode_code (f : AluOp) : AluOp.ofCode f.code = some f := by cases f <;> rfl
@[simp] theorem FpOp.ofCode_code (f : FpOp) : FpOp.ofCode f.code = some f := by cases f <;> rfl
@[simp] theorem ShOp.ofCode_code (f : ShOp) : ShOp.ofCode f.code = some f := by cases f <;> rfl
@[simp] theorem LoadW.ofCode_code (f : LoadW) : LoadW.ofCode f.code = some f := by cases f <;> rfl
@[simp] theorem StoreW.ofCode_code (f : StoreW) : StoreW.ofCode f.code = some f := by cases f <;> rfl
@[simp] theorem Cond.ofCode_code (f : Cond) : Cond.ofCode f.code = some f := by cases f <;> rfl

/-! ### The formats -/

section s3
variable {m c : Nat} {rd rs1 rs2 : BitVec 5} (hc : c < 2 ^ 10)
include hc

theorem s3Nat_major : s3Nat m rd rs1 rs2 c / 2 ^ 25 = m := by unfold s3Nat; omega
theorem s3Nat_func : s3Nat m rd rs1 rs2 c % 2 ^ 10 = c := by unfold s3Nat; omega
theorem s3Nat_rd : cut (s3Nat m rd rs1 rs2 c) 20 5 = rd := cut_eq (by unfold s3Nat; omega)
theorem s3Nat_rs1 : cut (s3Nat m rd rs1 rs2 c) 15 5 = rs1 := cut_eq (by unfold s3Nat; omega)
theorem s3Nat_rs2 : cut (s3Nat m rd rs1 rs2 c) 10 5 = rs2 := cut_eq (by unfold s3Nat; omega)

end s3

section si
variable {m l : Nat} {a b : BitVec 5} (hl : l < 2 ^ 15)
include hl

theorem siNat_major : siNat m a b l / 2 ^ 25 = m := by unfold siNat; omega
theorem siNat_a : cut (siNat m a b l) 20 5 = a := cut_eq (by unfold siNat; omega)
theorem siNat_b : cut (siNat m a b l) 15 5 = b := cut_eq (by unfold siNat; omega)

end si

theorem siNat_imm {m : Nat} {a b : BitVec 5} {imm : BitVec 15} : cut (siNat m a b imm.toNat) 0 15 = imm :=
  cut_eq (by unfold siNat; omega)

section code
variable {m c : Nat} {a b : BitVec 5} {imm : BitVec 12} (hc : c < 8)
include hc

theorem siCode_lt (imm : BitVec 12) : c * 2 ^ 12 + imm.toNat < 2 ^ 15 := by omega

theorem siNat_code : siNat m a b (c * 2 ^ 12 + imm.toNat) / 2 ^ 12 % 8 = c := by unfold siNat; omega

end code

theorem siNat_imm12 {m c : Nat} {a b : BitVec 5} {imm : BitVec 12} :
    cut (siNat m a b (c * 2 ^ 12 + imm.toNat)) 0 12 = imm :=
  cut_eq (by unfold siNat; omega)

theorem unitNat_major {m x : Nat} {tw ts : BitVec 6} (hx : x < 2 ^ 13) : unitNat m tw ts x / 2 ^ 25 = m := by
  unfold unitNat
  omega

theorem movField_lt (f : UnitF) (d : Bool) : movField f d < 2 ^ 13 := by
  have := bitNat_lt d
  have := bitNat_lt f.se
  unfold movField; omega

theorem stcField_lt (f : UnitF) : stcField f < 2 ^ 13 := by
  have := bitNat_lt f.se
  unfold stcField; omega

theorem movF_unitNat (m : Nat) (f : UnitF) (d : Bool) : movF (unitNat m f.tw f.ts (movField f d)) = f := by
  have hd := bitNat_lt d
  have hs := bitNat_lt f.se
  obtain ⟨tw, ts, desc, se, slot⟩ := f
  unfold movF
  congr 1 <;> [skip; skip; skip; refine bitOf_eq ?_; skip] <;> try refine cut_eq ?_
  all_goals unfold unitNat movField; dsimp only at *; omega

theorem stcF_unitNat (m : Nat) (f : UnitF) : stcF (unitNat m f.tw f.ts (stcField f)) = f := by
  have hs := bitNat_lt f.se
  obtain ⟨tw, ts, desc, se, slot⟩ := f
  unfold stcF
  congr 1 <;> [skip; skip; skip; refine bitOf_eq ?_; skip] <;> try refine cut_eq ?_
  all_goals unfold unitNat stcField; dsimp only at *; omega

theorem bitOf_movField (m : Nat) (f : UnitF) (d : Bool) : bitOf (unitNat m f.tw f.ts (movField f d)) 8 = d := by
  have hd := bitNat_lt d
  have hs := bitNat_lt f.se
  refine bitOf_eq ?_
  unfold unitNat movField
  omega

/-! ### The shape of a word by its major -/

section major
variable {w : Nat}

theorem shape_op (h : w / 2 ^ 25 = 1) :
    shape w = (AluOp.ofCode (w % 2 ^ 10)).map fun f => .op f (cut w 20 5) (cut w 15 5) (cut w 10 5) := by
  unfold shape
  rw [h]
  rfl

theorem shape_opf (h : w / 2 ^ 25 = 2) :
    shape w = if w % 2 ^ 10 = 0x010 then some (.fcvtSL (cut w 20 5) (cut w 15 5))
      else if w % 2 ^ 10 = 0x011 then some (.fcvtLS (cut w 20 5) (cut w 15 5))
      else (FpOp.ofCode (w % 2 ^ 10)).map fun f => .opf f (cut w 20 5) (cut w 15 5) (cut w 10 5) := by
  unfold shape
  rw [h]
  rfl

theorem shape_shi (h : w / 2 ^ 25 = 8) :
    shape w = (ShOp.ofCode (w / 2 ^ 13 % 4)).map fun f => .shi f (cut w 20 5) (cut w 15 5) (cut w 0 6) := by
  unfold shape
  rw [h]
  rfl

theorem shape_lui (h : w / 2 ^ 25 = 9) :
    shape w = some (.lui (cut w 20 5) (cut w 0 20)) := by
  unfold shape
  rw [h]
  rfl

theorem shape_load (h : w / 2 ^ 25 = 10) :
    shape w = (LoadW.ofCode (w / 2 ^ 12 % 8)).map fun f => .load f (cut w 20 5) (cut w 15 5) (cut w 0 12) := by
  unfold shape
  rw [h]
  rfl

theorem shape_store (h : w / 2 ^ 25 = 11) :
    shape w = (StoreW.ofCode (w / 2 ^ 12 % 8)).map fun f => .store f (cut w 20 5) (cut w 15 5) (cut w 0 12) := by
  unfold shape
  rw [h]
  rfl

theorem shape_br (h : w / 2 ^ 25 = 12) :
    shape w = (Cond.ofCode (w / 2 ^ 12 % 8)).map fun f => .br f (cut w 20 5) (cut w 15 5) (cut w 0 12) := by
  unfold shape
  rw [h]
  rfl

theorem shape_jal (h : w / 2 ^ 25 = 13) :
    shape w = some (.jal (cut w 20 5) (cut w 0 20)) := by
  unfold shape
  rw [h]
  rfl

theorem shape_jalr (h : w / 2 ^ 25 = 14) :
    shape w = some (.jalr (cut w 20 5) (cut w 15 5) (cut w 0 15)) := by
  unfold shape
  rw [h]
  rfl

theorem shape_waitf (h : w / 2 ^ 25 = 16) :
    shape w = some (.waitf (cut w 20 5) (cut w 15 5) (cut w 10 5) (cut w 7 3) (bitOf w 6) (cut w 1 5)) := by
  unfold shape
  rw [h]
  rfl

theorem shape_sumrd (h : w / 2 ^ 25 = 17) :
    shape w = some (.sumrd (cut w 20 5) (cut w 17 3) (cut w 14 3)) := by
  unfold shape
  rw [h]
  rfl

theorem shape_dld (h : w / 2 ^ 25 = 18) :
    shape w = some (.dld (cut w 21 4) (cut w 16 5) (cut w 0 16)) := by
  unfold shape
  rw [h]
  rfl

theorem shape_dst (h : w / 2 ^ 25 = 19) :
    shape w = some (.dst (cut w 21 4) (cut w 16 5) (cut w 0 16)) := by
  unfold shape
  rw [h]
  rfl

theorem shape_opi (f : ImmOp) (h : w / 2 ^ 25 = f.major) :
    shape w = some (.opi f (cut w 20 5) (cut w 15 5) (cut w 0 15)) := by
  unfold shape
  rw [h]
  cases f <;> rfl

theorem shape_tks (h : w / 2 ^ 25 = 15) (hf : w / 2 ^ 22 % 8 = 0) :
    shape w = some (.tks (cut w 16 6) (cut w 0 11)) := by
  unfold shape
  rw [h, hf]
  rfl

theorem shape_tkw (h : w / 2 ^ 25 = 15) (hf : w / 2 ^ 22 % 8 = 1) :
    shape w = some (.tkw (cut w 16 6) (cut w 0 11)) := by
  unfold shape
  rw [h, hf]
  rfl

theorem shape_tkrd (h : w / 2 ^ 25 = 15) (hf : w / 2 ^ 22 % 8 = 2) :
    shape w = some (.tkrd (cut w 11 5) (cut w 16 6)) := by
  unfold shape
  rw [h, hf]
  rfl

theorem shape_tkset (h : w / 2 ^ 25 = 15) (hf : w / 2 ^ 22 % 8 = 3) :
    shape w = some (.tkset (cut w 16 6) (cut w 11 5)) := by
  unfold shape
  rw [h, hf]
  rfl

theorem shape_dset (h : w / 2 ^ 25 = 20) (hf : w / 2 ^ 22 % 8 = 0) :
    shape w = some (.dset (cut w 18 4) (cut w 11 3) (cut w 6 5)) := by
  unfold shape
  rw [h, hf]
  rfl

theorem shape_dget (h : w / 2 ^ 25 = 20) (hf : w / 2 ^ 22 % 8 = 1) :
    shape w = some (.dget (cut w 6 5) (cut w 18 4) (cut w 11 3)) := by
  unfold shape
  rw [h, hf]
  rfl

theorem shape_dcpy (h : w / 2 ^ 25 = 20) (hf : w / 2 ^ 22 % 8 = 2) :
    shape w = some (.dcpy (cut w 18 4) (cut w 14 4)) := by
  unfold shape
  rw [h, hf]
  rfl

theorem shape_dzero (h : w / 2 ^ 25 = 20) (hf : w / 2 ^ 22 % 8 = 3) : shape w = some (.dzero (cut w 18 4)) := by
  unfold shape
  rw [h, hf]
  rfl

theorem shape_fence (h : w / 2 ^ 25 = 21) (hf : w / 2 ^ 20 % 32 = 0) : shape w = some .fence := by
  unfold shape
  rw [h, hf]
  rfl

theorem shape_icinv (h : w / 2 ^ 25 = 21) (hf : w / 2 ^ 20 % 32 = 1) : shape w = some .icinv := by
  unfold shape
  rw [h, hf]
  rfl

theorem shape_seed (h : w / 2 ^ 25 = 21) (hf : w / 2 ^ 20 % 32 = 2) : shape w = some (.seed (cut w 15 5)) := by
  unfold shape
  rw [h, hf]
  rfl

theorem shape_brk (h : w / 2 ^ 25 = 21) (hf : w / 2 ^ 20 % 32 = 3) : shape w = some (.brk (cut w 0 15)) := by
  unfold shape
  rw [h, hf]
  rfl

theorem shape_halt (h : w / 2 ^ 25 = 21) (hf : w / 2 ^ 20 % 32 = 4) : shape w = some (.halt (cut w 15 5)) := by
  unfold shape
  rw [h, hf]
  rfl

theorem shape_unit (h : 22 ≤ w / 2 ^ 25) : shape w = (unitShape w).map .unit := by
  unfold shape
  dsimp only
  split
  case h_22 => rfl
  all_goals omega

end major

/-! ### Decoding what was encoded -/

theorem UOp.unitShape_nat (u : UOp) : unitShape u.nat = some u := by
  cases u with
  | movRow d f =>
    have hm : (UOp.movRow d f).nat / 2 ^ 25 = 88 := unitNat_major (movField_lt f _)
    unfold unitShape
    rw [hm]
    simp only [UOp.nat, movF_unitNat, bitOf_movField]
  | movBlk f =>
    have hm : (UOp.movBlk f).nat / 2 ^ 25 = 89 := unitNat_major (movField_lt f _)
    unfold unitShape
    rw [hm]
    simp only [UOp.nat, movF_unitNat]
  | movRcfl d f =>
    have hm : (UOp.movRcfl d f).nat / 2 ^ 25 = 90 := unitNat_major (movField_lt f _)
    unfold unitShape
    rw [hm]
    simp only [UOp.nat, movF_unitNat, bitOf_movField]
  | movPutf f =>
    have hm : (UOp.movPutf f).nat / 2 ^ 25 = 91 := unitNat_major (movField_lt f _)
    unfold unitShape
    rw [hm]
    simp only [UOp.nat, movF_unitNat]
  | stcFwd f =>
    have hm : (UOp.stcFwd f).nat / 2 ^ 25 = 80 := unitNat_major (stcField_lt f)
    unfold unitShape
    rw [hm]
    simp only [UOp.nat, stcF_unitNat]
  | stcBwd f =>
    have hm : (UOp.stcBwd f).nat / 2 ^ 25 = 81 := unitNat_major (stcField_lt f)
    unfold unitShape
    rw [hm]
    simp only [UOp.nat, stcF_unitNat]
  | stcPtedit f =>
    have hm : (UOp.stcPtedit f).nat / 2 ^ 25 = 82 := unitNat_major (stcField_lt f)
    unfold unitShape
    rw [hm]
    simp only [UOp.nat, stcF_unitNat]
  | stcBucket f =>
    have hm : (UOp.stcBucket f).nat / 2 ^ 25 = 83 := unitNat_major (stcField_lt f)
    unfold unitShape
    rw [hm]
    simp only [UOp.nat, stcF_unitNat]
  | stcDec f =>
    have hm : (UOp.stcDec f).nat / 2 ^ 25 = 84 := unitNat_major (stcField_lt f)
    unfold unitShape
    rw [hm]
    simp only [UOp.nat, stcF_unitNat]
  | scrMcast f =>
    have hm : (UOp.scrMcast f).nat / 2 ^ 25 = 96 := unitNat_major (stcField_lt f)
    unfold unitShape
    rw [hm]
    simp only [UOp.nat, stcF_unitNat]
  | scrRed f =>
    have hm : (UOp.scrRed f).nat / 2 ^ 25 = 97 := unitNat_major (stcField_lt f)
    unfold unitShape
    rw [hm]
    simp only [UOp.nat, stcF_unitNat]
  | scrBar f =>
    have hm : (UOp.scrBar f).nat / 2 ^ 25 = 98 := unitNat_major (stcField_lt f)
    unfold unitShape
    rw [hm]
    simp only [UOp.nat, stcF_unitNat]
  | scrFlag f =>
    have hm : (UOp.scrFlag f).nat / 2 ^ 25 = 99 := unitNat_major (stcField_lt f)
    unfold unitShape
    rw [hm]
    simp only [UOp.nat, stcF_unitNat]
  | rlrVld f =>
    have hm : (UOp.rlrVld f).nat / 2 ^ 25 = 104 := unitNat_major (stcField_lt f)
    unfold unitShape
    rw [hm]
    simp only [UOp.nat, stcF_unitNat]
  | rlrMv f =>
    have hm : (UOp.rlrMv f).nat / 2 ^ 25 = 105 := unitNat_major (stcField_lt f)
    unfold unitShape
    rw [hm]
    simp only [UOp.nat, stcF_unitNat]
  | rlrRd f =>
    have hm : (UOp.rlrRd f).nat / 2 ^ 25 = 106 := unitNat_major (stcField_lt f)
    unfold unitShape
    rw [hm]
    simp only [UOp.nat, stcF_unitNat]
  | rlrWr f =>
    have hm : (UOp.rlrWr f).nat / 2 ^ 25 = 107 := unitNat_major (stcField_lt f)
    unfold unitShape
    rw [hm]
    simp only [UOp.nat, stcF_unitNat]
  | trwMma f =>
    obtain ⟨tw, ts, p, dt, bankB, init⟩ := f
    have := bitNat_lt bankB
    have := bitNat_lt init
    have hm : (UOp.trwMma ⟨tw, ts, p, dt, bankB, init⟩).nat / 2 ^ 25 = 64 := unitNat_major (by dsimp only; omega)
    unfold unitShape
    rw [hm]
    simp only [Option.some.injEq, UOp.trwMma.injEq, MmaF.mk.injEq]
    refine ⟨cut_eq ?_, cut_eq ?_, cut_eq ?_, cut_eq ?_, bitOf_eq ?_, bitOf_eq ?_⟩
    all_goals simp only [UOp.nat, unitNat]
    all_goals omega
  | trwDrain f =>
    obtain ⟨tw, ts, dd, bankB, se, slot, clr⟩ := f
    have := bitNat_lt bankB
    have := bitNat_lt se
    have := bitNat_lt clr
    have hm : (UOp.trwDrain ⟨tw, ts, dd, bankB, se, slot, clr⟩).nat / 2 ^ 25 = 65 := unitNat_major (by dsimp only; omega)
    unfold unitShape
    rw [hm]
    simp only [Option.some.injEq, UOp.trwDrain.injEq, DrainF.mk.injEq]
    refine ⟨cut_eq ?_, cut_eq ?_, cut_eq ?_, bitOf_eq ?_, bitOf_eq ?_, cut_eq ?_, bitOf_eq ?_⟩
    all_goals simp only [UOp.nat, unitNat]
    all_goals omega
  | trwLdacc f =>
    obtain ⟨tw, ts, dd, bankB⟩ := f
    have := bitNat_lt bankB
    have hm : (UOp.trwLdacc ⟨tw, ts, dd, bankB⟩).nat / 2 ^ 25 = 66 := unitNat_major (by dsimp only; omega)
    unfold unitShape
    rw [hm]
    simp only [Option.some.injEq, UOp.trwLdacc.injEq, LdaccF.mk.injEq]
    refine ⟨cut_eq ?_, cut_eq ?_, cut_eq ?_, bitOf_eq ?_⟩
    all_goals simp only [UOp.nat, unitNat]
    all_goals omega
  | trwClr f =>
    obtain ⟨tw, ts, bankB, ty, th⟩ := f
    have := bitNat_lt bankB
    have := bitNat_lt ty
    have := bitNat_lt th
    have hm : (UOp.trwClr ⟨tw, ts, bankB, ty, th⟩).nat / 2 ^ 25 = 67 := unitNat_major (by dsimp only; omega)
    unfold unitShape
    rw [hm]
    simp only [Option.some.injEq, UOp.trwClr.injEq, ClrF.mk.injEq]
    refine ⟨cut_eq ?_, cut_eq ?_, bitOf_eq ?_, bitOf_eq ?_, bitOf_eq ?_⟩
    all_goals simp only [UOp.nat, unitNat]
    all_goals omega
  | brsLdp f =>
    obtain ⟨tw, ts, desc, pslot⟩ := f
    have hm : (UOp.brsLdp ⟨tw, ts, desc, pslot⟩).nat / 2 ^ 25 = 72 := unitNat_major (by dsimp only; omega)
    unfold unitShape
    rw [hm]
    simp only [Option.some.injEq, UOp.brsLdp.injEq, LdpF.mk.injEq]
    refine ⟨cut_eq ?_, cut_eq ?_, cut_eq ?_, cut_eq ?_⟩
    all_goals simp only [UOp.nat, unitNat]
    all_goals omega
  | brsRun f =>
    obtain ⟨tw, ts, p, se, slot⟩ := f
    have := bitNat_lt se
    have hm : (UOp.brsRun ⟨tw, ts, p, se, slot⟩).nat / 2 ^ 25 = 73 := unitNat_major (by dsimp only; omega)
    unfold unitShape
    rw [hm]
    simp only [Option.some.injEq, UOp.brsRun.injEq, RunF.mk.injEq]
    refine ⟨cut_eq ?_, cut_eq ?_, cut_eq ?_, bitOf_eq ?_, cut_eq ?_⟩
    all_goals simp only [UOp.nat, unitNat]
    all_goals omega

theorem UOp.major_ge (u : UOp) : 22 ≤ u.nat / 2 ^ 25 := by
  cases u <;> simp only [UOp.nat, unitNat] <;> omega

theorem Flik.shape_nat (i : Flik) : shape i.nat = some i := by
  cases i with
  | op f rd rs1 rs2 =>
    have hc := f.code_lt
    rw [Flik.nat, shape_op (s3Nat_major hc), s3Nat_func hc, s3Nat_rd hc, s3Nat_rs1 hc, s3Nat_rs2 hc,
      AluOp.ofCode_code, Option.map_some]
  | opf f rd rs1 rs2 =>
    have h16 := f.code_lt
    have hc : f.code < 2 ^ 10 := by omega
    rw [Flik.nat, shape_opf (s3Nat_major hc), s3Nat_func hc, if_neg (by omega), if_neg (by omega), s3Nat_rd hc,
      s3Nat_rs1 hc, s3Nat_rs2 hc, FpOp.ofCode_code, Option.map_some]
  | fcvtSL rd rs1 =>
    have hc : 0x010 < 2 ^ 10 := by decide
    rw [Flik.nat, shape_opf (s3Nat_major hc), s3Nat_func hc, if_pos rfl, s3Nat_rd hc, s3Nat_rs1 hc]
  | fcvtLS rd rs1 =>
    have hc : 0x011 < 2 ^ 10 := by decide
    rw [Flik.nat, shape_opf (s3Nat_major hc), s3Nat_func hc, if_neg (by decide), if_pos rfl, s3Nat_rd hc, s3Nat_rs1 hc]
  | opi f rd rs1 imm =>
    have hl : imm.toNat < 2 ^ 15 := imm.isLt
    rw [Flik.nat, shape_opi f (siNat_major hl), siNat_a hl, siNat_b hl, siNat_imm]
  | shi f rd rs1 sh =>
    have hf := f.code_lt
    have hl : f.code * 2 ^ 13 + sh.toNat < 2 ^ 15 := by omega
    have hk : siNat 8 rd rs1 (f.code * 2 ^ 13 + sh.toNat) / 2 ^ 13 % 4 = f.code := by unfold siNat; omega
    have hs : cut (siNat 8 rd rs1 (f.code * 2 ^ 13 + sh.toNat)) 0 6 = sh := cut_eq (by unfold siNat; omega)
    rw [Flik.nat, shape_shi (siNat_major hl), siNat_a hl, siNat_b hl, hk, hs, ShOp.ofCode_code, Option.map_some]
  | lui rd imm =>
    rw [Flik.nat, shape_lui (by omega), cut_eq (x := rd) (by omega), cut_eq (x := imm) (by omega)]
  | load f rd rs1 imm =>
    have hl := siCode_lt f.code_lt imm
    rw [Flik.nat, shape_load (siNat_major hl), siNat_a hl, siNat_b hl, siNat_code f.code_lt, siNat_imm12,
      LoadW.ofCode_code, Option.map_some]
  | store f rs2 rs1 imm =>
    have hl := siCode_lt f.code_lt imm
    rw [Flik.nat, shape_store (siNat_major hl), siNat_a hl, siNat_b hl, siNat_code f.code_lt, siNat_imm12,
      StoreW.ofCode_code, Option.map_some]
  | br f rs1 rs2 off =>
    have hl := siCode_lt f.code_lt off
    rw [Flik.nat, shape_br (siNat_major hl), siNat_a hl, siNat_b hl, siNat_code f.code_lt, siNat_imm12,
      Cond.ofCode_code, Option.map_some]
  | jal rd off =>
    rw [Flik.nat, shape_jal (by omega), cut_eq (x := rd) (by omega), cut_eq (x := off) (by omega)]
  | jalr rd rs1 imm =>
    have hl : imm.toNat < 2 ^ 15 := imm.isLt
    rw [Flik.nat, shape_jalr (siNat_major hl), siNat_a hl, siNat_b hl, siNat_imm]
  | tks tk imm =>
    rw [Flik.nat, shape_tks (by omega) (by omega), cut_eq (x := tk) (by omega), cut_eq (x := imm) (by omega)]
  | tkw tk imm =>
    rw [Flik.nat, shape_tkw (by omega) (by omega), cut_eq (x := tk) (by omega), cut_eq (x := imm) (by omega)]
  | tkrd xd tk =>
    rw [Flik.nat, shape_tkrd (by omega) (by omega), cut_eq (x := xd) (by omega), cut_eq (x := tk) (by omega)]
  | tkset tk xs =>
    rw [Flik.nat, shape_tkset (by omega) (by omega), cut_eq (x := tk) (by omega), cut_eq (x := xs) (by omega)]
  | waitf rd rs1 rs2 cond acq tmo =>
    have ha := bitNat_lt acq
    rw [Flik.nat, shape_waitf (by omega), cut_eq (x := rd) (by omega), cut_eq (x := rs1) (by omega),
      cut_eq (x := rs2) (by omega), cut_eq (x := cond) (by omega), bitOf_eq (b := acq) (by omega),
      cut_eq (x := tmo) (by omega)]
  | sumrd xd slot field =>
    rw [Flik.nat, shape_sumrd (by omega), cut_eq (x := xd) (by omega), cut_eq (x := slot) (by omega),
      cut_eq (x := field) (by omega)]
  | dld dn xs imm =>
    rw [Flik.nat, shape_dld (by omega), cut_eq (x := dn) (by omega), cut_eq (x := xs) (by omega),
      cut_eq (x := imm) (by omega)]
  | dst dn xs imm =>
    rw [Flik.nat, shape_dst (by omega), cut_eq (x := dn) (by omega), cut_eq (x := xs) (by omega),
      cut_eq (x := imm) (by omega)]
  | dset dn x xs =>
    rw [Flik.nat, shape_dset (by omega) (by omega), cut_eq (x := dn) (by omega), cut_eq (x := x) (by omega),
      cut_eq (x := xs) (by omega)]
  | dget xd dn x =>
    rw [Flik.nat, shape_dget (by omega) (by omega), cut_eq (x := xd) (by omega), cut_eq (x := dn) (by omega),
      cut_eq (x := x) (by omega)]
  | dcpy dn dm =>
    rw [Flik.nat, shape_dcpy (by omega) (by omega), cut_eq (x := dn) (by omega), cut_eq (x := dm) (by omega)]
  | dzero dn => rw [Flik.nat, shape_dzero (by omega) (by omega), cut_eq (x := dn) (by omega)]
  | fence => rfl
  | icinv => rfl
  | seed xs => rw [Flik.nat, shape_seed (by omega) (by omega), cut_eq (x := xs) (by omega)]
  | brk imm => rw [Flik.nat, shape_brk (by omega) (by omega), cut_eq (x := imm) (by omega)]
  | halt xs => rw [Flik.nat, shape_halt (by omega) (by omega), cut_eq (x := xs) (by omega)]
  | unit u => rw [Flik.nat, shape_unit (UOp.major_ge u), UOp.unitShape_nat, Option.map_some]

/-! ### Words and numbers -/

theorem UOp.nat_lt (u : UOp) : u.nat < 2 ^ 32 := by
  have hs (f : UnitF) : stcField f < 2 ^ 13 := stcField_lt f
  have hm (f : UnitF) (d : Bool) : movField f d < 2 ^ 13 := movField_lt f d
  cases u with
  | movRow d f | movRcfl d f => have := hm f d; simp only [UOp.nat, unitNat]; omega
  | movBlk f | movPutf f => have := hm f false; simp only [UOp.nat, unitNat]; omega
  | trwMma f =>
    have := bitNat_lt f.bankB
    have := bitNat_lt f.init
    simp only [UOp.nat, unitNat]; omega
  | trwDrain f =>
    have := bitNat_lt f.bankB
    have := bitNat_lt f.se
    have := bitNat_lt f.clr
    simp only [UOp.nat, unitNat]; omega
  | trwLdacc f => have := bitNat_lt f.bankB; simp only [UOp.nat, unitNat]; omega
  | trwClr f =>
    have := bitNat_lt f.bankB
    have := bitNat_lt f.ty
    have := bitNat_lt f.th
    simp only [UOp.nat, unitNat]; omega
  | brsLdp f => simp only [UOp.nat, unitNat]; omega
  | brsRun f => have := bitNat_lt f.se; simp only [UOp.nat, unitNat]; omega
  | _ f => have := hs f; simp only [UOp.nat, unitNat]; omega

theorem Flik.nat_lt (i : Flik) : i.nat < 2 ^ 32 := by
  cases i with
  | op f _ _ _ => have := f.code_lt; simp only [Flik.nat, s3Nat]; omega
  | opf f _ _ _ => have := f.code_lt; simp only [Flik.nat, s3Nat]; omega
  | opi f _ _ _ => have := f.major_lt; simp only [Flik.nat, siNat]; omega
  | shi f _ _ _ => have := f.code_lt; simp only [Flik.nat, siNat]; omega
  | load f _ _ _ => have := f.code_lt; simp only [Flik.nat, siNat]; omega
  | store f _ _ _ => have := f.code_lt; simp only [Flik.nat, siNat]; omega
  | br f _ _ _ => have := f.code_lt; simp only [Flik.nat, siNat]; omega
  | waitf _ _ _ _ acq _ => have := bitNat_lt acq; simp only [Flik.nat]; omega
  | unit u => exact UOp.nat_lt u
  | _ => simp only [Flik.nat, s3Nat, siNat]; omega

theorem Flik.encode_toNat (i : Flik) : i.encode.toNat = i.nat := by
  rw [Flik.encode, BitVec.toNat_ofNat, Nat.mod_eq_of_lt (Flik.nat_lt i)]

/-! ### The unused fields of DREG words -/

theorem Flik.encode_and_mask {i : Flik} {m : BitVec 32} {a b : Nat} (hm : m.toNat = (2 ^ a - 1) * 2 ^ b)
    (hi : i.nat / 2 ^ b % 2 ^ a = 0) : i.encode &&& m = 0 :=
  BitVec.eq_of_toNat_eq (by rw [BitVec.toNat_and, Flik.encode_toNat, hm, and_mask_eq_zero hi]; rfl)

/-- The encoding leaves the unused fields zero. -/
theorem Flik.encode_and_unused (i : Flik) : i.encode &&& i.unused = 0 := by
  cases i with
  | dset dn x xs => exact Flik.encode_and_mask (a := 4) (b := 14) rfl (by simp only [Flik.nat]; omega)
  | dget xd dn x => exact Flik.encode_and_mask (a := 4) (b := 14) rfl (by simp only [Flik.nat]; omega)
  | dcpy dn dm => exact Flik.encode_and_mask (a := 8) (b := 6) rfl (by simp only [Flik.nat]; omega)
  | dzero dn => exact Flik.encode_and_mask (a := 12) (b := 6) rfl (by simp only [Flik.nat]; omega)
  | _ => exact BitVec.and_zero

theorem Flik.unused_lt (i : Flik) : i.unused.toNat < 2 ^ 25 := by
  cases i <;> simp only [Flik.unused] <;> decide

/-- Only the DREG instructions leave fields unused. -/
theorem Flik.unused_eq_zero {i : Flik} (h : i.nat / 2 ^ 25 ≠ 20) : i.unused = 0 := by
  cases i with
  | dset dn x xs => exact absurd (by simp only [Flik.nat]; omega) h
  | dget xd dn x => exact absurd (by simp only [Flik.nat]; omega) h
  | dcpy dn dm => exact absurd (by simp only [Flik.nat]; omega) h
  | dzero dn => exact absurd (by simp only [Flik.nat]; omega) h
  | _ => rfl

/-! ### Words that agree beside the unused fields -/

/-- Two words that agree beside a mask agree when its bits are cleared. -/
theorem and_not_eq_of_or_eq {n : Nat} {e w u : BitVec n} (h : e ||| u = w ||| u) (he : e &&& u = 0#n) :
    w &&& ~~~u = e := by
  ext j hj
  have hor := congrArg (·.getLsbD j) h
  have hand := congrArg (·.getLsbD j) he
  simp only [BitVec.getLsbD_or, BitVec.getLsbD_and, BitVec.getLsbD_zero] at hor hand
  simp only [← BitVec.getLsbD_eq_getElem, BitVec.getLsbD_and, BitVec.getLsbD_not, hj, decide_true, Bool.true_and]
  generalize e.getLsbD j = x at *
  generalize w.getLsbD j = y at *
  generalize u.getLsbD j = z at *
  revert x y z
  decide

theorem major_eq_of_or_eq {e w u : BitVec 32} (h : e ||| u = w ||| u) (hu : u.toNat < 2 ^ 25) :
    e.toNat / 2 ^ 25 = w.toNat / 2 ^ 25 := by
  have hn := congrArg (fun x => x.toNat / 2 ^ 25) h
  simpa only [BitVec.toNat_or, Nat.or_div_two_pow, Nat.div_eq_of_lt hu, Nat.or_zero] using hn

theorem decode_eq_some {w : BitVec 32} {i : Flik} (h : decode w = some i) :
    i.wf = true ∧ i.encode ||| i.unused = w ||| i.unused := by
  obtain ⟨_, hi⟩ := Option.filter_eq_some_iff.mp h
  simpa using hi

theorem decode_encode {i : Flik} (hi : i.wf = true) : decode i.encode = some i := by
  rw [decode, Flik.encode_toNat, Flik.shape_nat, Option.filter_some, if_pos (by simp [hi])]

/-- Settles O60: each format's fields are the digits of its word's number, so that the shape of an encoded word is its
instruction; a decoded word agrees with the encoding beside the unused fields, which the encoding leaves zero. -/
theorem decodeEncode : Obligations.DecodeEncode := by
  refine ⟨fun i hi => decode_encode hi, fun w i h => ?_⟩
  obtain ⟨hwf, hor⟩ := decode_eq_some h
  refine ⟨hwf, and_not_eq_of_or_eq hor (Flik.encode_and_unused i), fun hw => Flik.unused_eq_zero ?_⟩
  rw [← Flik.encode_toNat, major_eq_of_or_eq hor (Flik.unused_lt i)]
  exact hw

end Sys2Proof
end

