-- ==== Sys2Proof/Proofs/RegisterWrites.lean ====
section
/-!
SUPPORT for O56. What a register write makes of the register's word, field by field and bit by bit, which registers
stand where, and what a write of a whole register comes to.
-/

namespace Sys2Proof.Machine

/-! ### The fields of a register -/

/-- Two writable fields share no bit. -/
def WFld.Apart (f g : WFld) : Prop := f.lo + f.len ≤ g.lo ∨ g.lo + g.len ≤ f.lo

theorem wflds_apart (r : Reg) : r.wflds.Pairwise WFld.Apart := by
  cases r <;> simp [Reg.wflds, WFld.Apart]

theorem wflds_le {r : Reg} {f : WFld} (h : f ∈ r.wflds) : f.lo + f.len ≤ 64 := by
  have all : ∀ g ∈ r.wflds, g.lo + g.len ≤ 64 := by cases r <;> simp [Reg.wflds]
  exact all f h

theorem wfldNew_lt (old data : Word) (mask : Nat) (locked : Bool) (f : WFld) :
    wfldNew old data mask locked f < 2 ^ f.len := by
  have ho := fld_lt old f.lo f.len
  have hd : fld data f.lo f.len &&& mask / 2 ^ f.lo % 2 ^ f.len < 2 ^ f.len :=
    lt_of_le_of_lt Nat.and_le_left (fld_lt data f.lo f.len)
  have hv (x : Nat) : fld old f.lo f.len &&& x < 2 ^ f.len := lt_of_le_of_lt Nat.and_le_left ho
  unfold wfldNew
  cases f.acc with
  | wo => exact ho
  | w1c => exact hv _
  | w1s => exact Nat.or_lt_two_pow ho hd
  | rw =>
    dsimp only
    split
    · exact Nat.or_lt_two_pow (hv _) hd
    · exact ho
  | rwl =>
    dsimp only
    split
    · exact ho
    · split
      · exact Nat.or_lt_two_pow (hv _) hd
      · exact ho

/-- Writing fields leaves a field that they do not meet. -/
theorem fld_foldl_setFld_ne (v : WFld → Nat) (fs : List WFld) (w : Word) (lo len : Nat)
    (h : ∀ g ∈ fs, lo + len ≤ g.lo ∨ g.lo + g.len ≤ lo) :
    fld (fs.foldl (fun w f => setFld w f.lo f.len (v f)) w) lo len = fld w lo len := by
  induction fs generalizing w with
  | nil => rfl
  | cons g fs ih =>
    rw [List.foldl_cons, ih _ fun x hx => h x (List.mem_cons_of_mem g hx),
      fld_setFld_ne _ _ _ _ _ _ (h g List.mem_cons_self)]

/-- Of fields that lie apart each takes its value. -/
theorem fld_foldl_setFld (v : WFld → Nat) (fs : List WFld) (w : Word) (ha : fs.Pairwise WFld.Apart) {f : WFld}
    (hf : f ∈ fs) (hle : f.lo + f.len ≤ 64) :
    fld (fs.foldl (fun w f => setFld w f.lo f.len (v f)) w) f.lo f.len = v f % 2 ^ f.len := by
  induction fs generalizing w with
  | nil => cases hf
  | cons g fs ih =>
    obtain ⟨hg, ha⟩ := List.pairwise_cons.mp ha
    rw [List.foldl_cons]
    obtain rfl | hf := List.mem_cons.mp hf
    · rw [fld_foldl_setFld_ne _ _ _ _ _ hg, fld_setFld_self _ _ _ _ hle]
    · exact ih _ ha hf

/-- A bit keeps its value where every field written over it gives it that value. -/
theorem getLsbD_foldl_setFld (v : WFld → Nat) (fs : List WFld) (w : Word) {i : Nat} (hi : i < 64) {b : Bool}
    (h : ∀ f ∈ fs, f.lo ≤ i → i < f.lo + f.len → (v f).testBit (i - f.lo) = b) (hw : w.getLsbD i = b) :
    (fs.foldl (fun w f => setFld w f.lo f.len (v f)) w).getLsbD i = b := by
  induction fs generalizing w with
  | nil => exact hw
  | cons g fs ih =>
    refine ih _ (fun f hf => h f (List.mem_cons_of_mem g hf)) ?_
    rw [setFld_getLsbD, decide_eq_true hi, Bool.true_and]
    split
    case isTrue hin => exact h g List.mem_cons_self hin.1 hin.2
    case isFalse => exact hw

theorem fld_regNew {r : Reg} {f : WFld} (hf : f ∈ r.wflds) (old data : Word) (mask : Nat) (locked : Bool) :
    fld (regNew r old data mask locked) f.lo f.len = wfldNew old data mask locked f := by
  rw [regNew, fld_foldl_setFld _ _ _ (wflds_apart r) hf (wflds_le hf), Nat.mod_eq_of_lt (wfldNew_lt ..)]

theorem bitAt_regNew {r : Reg} {i : Nat} (hi : i < 64) (old data : Word) (mask : Nat) (locked : Bool)
    (h : ∀ f ∈ r.wflds, f.lo ≤ i → i < f.lo + f.len →
      (wfldNew old data mask locked f).testBit (i - f.lo) = bitAt old i) :
    bitAt (regNew r old data mask locked) i = bitAt old i :=
  getLsbD_foldl_setFld _ _ _ hi h rfl

/-- A word whose fields all keep their values is kept. -/
theorem regNew_eq_self {r : Reg} {old data : Word} {mask : Nat} {locked : Bool}
    (h : ∀ f ∈ r.wflds, wfldNew old data mask locked f = fld old f.lo f.len) : regNew r old data mask locked = old := by
  refine BitVec.eq_of_getLsbD_eq fun i hi => bitAt_regNew hi old data mask locked fun f hf hlo hhi => ?_
  rw [h f hf, fld_testBit, decide_eq_true (by omega), Bool.true_and, Nat.add_sub_cancel' hlo, bitAt]

/-! ### One field under a mask -/

/-- A bit of a field that the mask leaves out keeps its value, whatever the access code. -/
theorem wfldNew_testBit {old data : Word} {mask i : Nat} {locked : Bool} {f : WFld} (hlo : f.lo ≤ i)
    (hhi : i < f.lo + f.len) (hm : mask.testBit i = false) :
    (wfldNew old data mask locked f).testBit (i - f.lo) = bitAt old i := by
  have hlen : i - f.lo < f.len := by omega
  have hbit : (fld old f.lo f.len).testBit (i - f.lo) = bitAt old i := by
    rw [fld_testBit, decide_eq_true hlen, Bool.true_and, Nat.add_sub_cancel' hlo, bitAt]
  have hmask : (mask / 2 ^ f.lo % 2 ^ f.len).testBit (i - f.lo) = false := by
    rw [Nat.testBit_mod_two_pow, Nat.testBit_div_two_pow, Nat.sub_add_cancel hlo, hm, Bool.and_false]
  have hdata : (fld data f.lo f.len &&& mask / 2 ^ f.lo % 2 ^ f.len).testBit (i - f.lo) = false := by
    rw [Nat.testBit_and, hmask, Bool.and_false]
  have hrest {m : Nat} (hlt : m < 2 ^ f.len) (h : m.testBit (i - f.lo) = false) :
      (2 ^ f.len - 1 - m).testBit (i - f.lo) = true := by
    rw [Nat.sub_sub, Nat.add_comm 1 m, Nat.testBit_two_pow_sub_succ hlt, decide_eq_true hlen, h]
    rfl
  have hv : ((fld old f.lo f.len &&& 2 ^ f.len - 1 - mask / 2 ^ f.lo % 2 ^ f.len)
      ||| fld data f.lo f.len &&& mask / 2 ^ f.lo % 2 ^ f.len).testBit (i - f.lo) = bitAt old i := by
    rw [Nat.testBit_or, Nat.testBit_and, hrest (Nat.mod_lt _ (Nat.two_pow_pos _)) hmask, hdata, Bool.and_true,
      Bool.or_false, hbit]
  unfold wfldNew
  cases f.acc with
  | wo => exact hbit
  | w1c =>
    dsimp only
    rw [Nat.testBit_and, hrest (lt_of_le_of_lt Nat.and_le_left (fld_lt ..)) hdata, Bool.and_true, hbit]
  | w1s =>
    dsimp only
    rw [Nat.testBit_or, hdata, Bool.or_false, hbit]
  | rw =>
    dsimp only
    split
    · exact hv
    · exact hbit
  | rwl =>
    dsimp only
    split
    · exact hbit
    · split
      · exact hv
      · exact hbit

theorem bitAt_regNew_unmasked (r : Reg) {mask i : Nat} (hi : i < 64) (hm : mask.testBit i = false) (old data : Word)
    (locked : Bool) : bitAt (regNew r old data mask locked) i = bitAt old i :=
  bitAt_regNew hi old data mask locked fun _ _ hlo hhi => wfldNew_testBit hlo hhi hm

/-- The mask of a write of eight bytes. -/
abbrev fullMask : Nat := 2 ^ 64 - 1

theorem fullMask_cut {lo len : Nat} (h : lo + len ≤ 64) : fullMask / 2 ^ lo % 2 ^ len = 2 ^ len - 1 := by
  refine Nat.eq_of_testBit_eq fun i => ?_
  rw [Nat.testBit_mod_two_pow, Nat.testBit_div_two_pow, Nat.testBit_two_pow_sub_one, Nat.testBit_two_pow_sub_one]
  by_cases hi : i < len
  · rw [decide_eq_true hi, decide_eq_true (by omega)]
    rfl
  · rw [decide_eq_false hi]
    rfl

section full
variable {old data : Word} {locked : Bool} {f : WFld} (hle : f.lo + f.len ≤ 64)
include hle

theorem fld_and_fullMask : fld data f.lo f.len &&& fullMask / 2 ^ f.lo % 2 ^ f.len = fld data f.lo f.len := by
  rw [fullMask_cut hle, Nat.and_two_pow_sub_one_eq_mod, Nat.mod_eq_of_lt (fld_lt ..)]

theorem wfldNew_rw (ha : f.acc = .rw) : wfldNew old data fullMask locked f =
    if f.ok (fld data f.lo f.len) = true then fld data f.lo f.len else fld old f.lo f.len := by
  unfold wfldNew
  rw [ha]
  dsimp only
  rw [fld_and_fullMask hle, fullMask_cut hle, Nat.sub_self, Nat.and_zero, Nat.zero_or]

theorem wfldNew_rwl (ha : f.acc = .rwl) : wfldNew old data fullMask locked f =
    if locked = true then fld old f.lo f.len
    else if f.ok (fld data f.lo f.len) = true then fld data f.lo f.len else fld old f.lo f.len := by
  unfold wfldNew
  rw [ha]
  dsimp only
  rw [fld_and_fullMask hle, fullMask_cut hle, Nat.sub_self, Nat.and_zero, Nat.zero_or]

theorem wfldNew_w1s (ha : f.acc = .w1s) :
    wfldNew old data fullMask locked f = fld old f.lo f.len ||| fld data f.lo f.len := by
  unfold wfldNew
  rw [ha]
  dsimp only
  rw [fld_and_fullMask hle]

end full

theorem wfldNew_wo {old data : Word} {mask : Nat} {locked : Bool} {f : WFld} (ha : f.acc = .wo) :
    wfldNew old data mask locked f = fld old f.lo f.len := by
  unfold wfldNew
  rw [ha]

theorem wfldNew_rwl_locked {old data : Word} {mask : Nat} {f : WFld} (ha : f.acc = .rwl) :
    wfldNew old data mask true f = fld old f.lo f.len := by
  unfold wfldNew
  rw [ha]
  rfl

theorem fld_one {w : Word} {i : Nat} : fld w i 1 = if bitAt w i = true then 1 else 0 := by
  refine Nat.eq_of_testBit_eq fun j => ?_
  rw [fld_testBit, bitAt]
  cases j with
  | zero => cases w.getLsbD i <;> simp
  | succ j => cases w.getLsbD i <;> simp [Nat.testBit_succ]

theorem fld_one_eq_one {w : Word} {i : Nat} : fld w i 1 = 1 ↔ bitAt w i = true := by
  rw [fld_one]
  split <;> simp_all

theorem fld_one_or_eq_one {v w : Word} {i : Nat} : fld v i 1 ||| fld w i 1 = 1 ↔ bitAt w i = true ∨ fld v i 1 = 1 := by
  rw [fld_one, fld_one]
  cases bitAt v i <;> cases bitAt w i <;> decide

/-! ### Which register stands where -/

/-- A register's address is a multiple of 8 outside the two buffers of the Lath range, below the host window. -/
theorem regAt_range {a : Nat} {r : Reg} (h : regAt a = some r) :
    a % 8 = 0 ∧ coreBase ≤ a ∧ a < 0x1FF80000000 ∧ ¬ (lathBase + 0x100000 ≤ a ∧ a < lathBase + 0x1000000) := by
  rw [regAt] at h
  by_cases h8 : a % 8 ≠ 0
  · rw [if_pos h8] at h
    cases h
  rw [if_neg h8] at h
  refine ⟨not_not.mp h8, ?_⟩
  by_cases hcore : coreBase ≤ a ∧ a < coreBase + 144 * 0x100000
  · clear h
    unfold coreBase lathBase at *
    omega
  rw [if_neg hcore] at h
  by_cases hlath : lathBase ≤ a
  case neg =>
    rw [if_neg hlath] at h
    cases h
  rw [if_pos hlath] at h
  clear hcore
  suffices hin : a - lathBase < 0x1000000 + 0x1000 * 168 ∧ ¬ (0x100000 ≤ a - lathBase ∧ a - lathBase < 0x1000000) by
    clear h
    unfold coreBase lathBase at *
    omega
  by_contra hout
  generalize a - lathBase = o at h hout
  dsimp only at h
  rw [if_neg (by omega), if_neg (by omega), if_neg (by omega), if_neg (by omega), if_neg (by omega), if_neg (by omega),
    if_neg (by omega), if_neg (by omega), if_neg (by omega), if_neg (by omega)] at h
  cases h

/-- An address of the Lath range. -/
theorem resolve_lath (s : State) {a : Nat} (h : lathBase ≤ a) (h' : a < 0x1FF80000000) (own : Option Nat) :
    s.resolve own a = .reg a := by
  unfold State.resolve
  rw [if_neg (by unfold lathBase at h; omega), if_neg (by unfold lathBase at h; omega),
    if_neg (by unfold lathBase at h; omega), if_neg (by unfold lathBase at h; omega),
    if_neg (by unfold lathBase at h; omega), if_neg (by unfold lathBase at h; unfold coreBase; omega), if_pos ⟨h, h'⟩]

/-- An address of a core's block. -/
theorem resolve_core (s : State) {lc o : Nat} (ho : o < 0x100000) (hlc : lc < 144) (hin : lc < s.inForce)
    (hf : s.failed lc = false) (own : Option Nat) :
    s.resolve own (coreBase + lc * 0x100000 + o) = .reg (coreBase + lc * 0x100000 + o) := by
  have hn : (coreBase + lc * 0x100000 + o - coreBase) / 0x100000 = lc := by omega
  unfold State.resolve
  rw [if_neg (by unfold coreBase; omega), if_neg (by unfold coreBase; omega), if_neg (by unfold coreBase; omega),
    if_neg (by unfold coreBase; omega), if_neg (by unfold coreBase; omega), if_pos (by omega)]
  dsimp only
  rw [hn, if_neg (by omega), hf]
  rfl

/-! ### Writes of whole registers -/

theorem writeReg8_eq (s : State) (req : Requester) {r : Reg} (data : Word) (hr : regAt r.addr = some r)
    (hl : s.resolve none r.addr = .reg r.addr) :
    s.writeReg8 req r data
      = if s.mayWrite req r = true then s.applyReg r data (fullMask - (fullMask &&& lockBits req r)) else s := by
  obtain ⟨h8, -, -, hbuf⟩ := regAt_range hr
  have hword : BitVec.ofNat 64 (leNat (leBytes 8 data.toNat)) = data := by
    rw [leNat_leBytes, Nat.mod_eq_of_lt (by have := data.isLt; omega), BitVec.ofNat_toNat, BitVec.setWidth_eq]
  have himg : ¬ (lathBase + 0x100000 ≤ r.addr ∧ r.addr + 8 ≤ lathBase + 0x110000) := by
    unfold lathBase at *
    omega
  have hrsp : ¬ (lathBase + 0x110000 ≤ r.addr ∧ r.addr + 8 ≤ lathBase + 0x112000) := by
    unfold lathBase at *
    omega
  unfold State.writeReg8
  rw [hl]
  dsimp only
  unfold State.writeRegs
  rw [leBytes_length, if_neg himg, if_neg hrsp, if_neg (not_not.mpr (.inl ⟨rfl, h8⟩)),
    Nat.div_mul_cancel (Nat.dvd_of_mod_eq_zero h8), hr]
  dsimp only
  rw [h8, Nat.mul_zero, Nat.pow_zero, Nat.mul_one, Nat.mul_one, hword]

/-- A write of the host, or of a register without a LOCK bit. -/
theorem writeReg8_full {s : State} {req : Requester} {r : Reg} (data : Word) (hr : regAt r.addr = some r)
    (hl : s.resolve none r.addr = .reg r.addr) (hm : s.mayWrite req r = true) (hk : lockBits req r = 0) :
    s.writeReg8 req r data = s.applyReg r data fullMask := by
  rw [writeReg8_eq s req data hr hl, hm, hk, Nat.and_zero, Nat.sub_zero]
  rfl

theorem setReg_onlyReg (s : State) (r : Reg) (w : Word) : OnlyReg s (s.setReg r w) r := fun _ ha =>
  mapGet?_set_ne _ _ ha

end Sys2Proof.Machine
end

