-- ==== Sys2Proof/Proofs/CounterFrames.lean ====
section
/-!
SUPPORT for O56. Which registers the counters of a core and of a Lath block reach, and that the others keep their words.
-/

namespace Sys2Proof.Machine

/-! ### Registers that keep their words -/

theorem reg_congr {s t : State} {r : Reg} (h : mapGet? t.regs r.addr = mapGet? s.regs r.addr) : t.reg r = s.reg r := by
  unfold State.reg mapGet
  rw [h]

theorem rf_congr {s t : State} {r : Reg} (h : mapGet? t.regs r.addr = mapGet? s.regs r.addr) (lo len : Nat) :
    t.rf r lo len = s.rf r lo len := by
  unfold State.rf
  rw [reg_congr h]

theorem siteOf_congr {s t : State} {lc : Nat}
    (h : mapGet? t.regs (Reg.mcLc lc).addr = mapGet? s.regs (Reg.mcLc lc).addr) : t.siteOf lc = s.siteOf lc := by
  unfold State.siteOf
  rw [rf_congr h, rf_congr h]

theorem siteOf_lt (s : State) (lc : Nat) : s.siteOf lc < 226 := by
  have hrow : s.rf (.mcLc lc) 12 4 < 16 := fld_lt ..
  have hcol : s.rf (.mcLc lc) 8 4 < 16 := fld_lt ..
  unfold State.siteOf
  omega

@[simp] theorem setReg_regs_self (s : State) (r : Reg) (w : Word) : mapGet? (s.setReg r w).regs r.addr = some w :=
  mapGet?_set_self ..

theorem setReg_regs_ne (s : State) {r : Reg} (w : Word) {a : Nat} (h : a ≠ r.addr) :
    mapGet? (s.setReg r w).regs a = mapGet? s.regs a := mapGet?_set_ne _ _ h

theorem setRf_regs_ne (s : State) {r : Reg} (lo len v : Nat) {a : Nat} (h : a ≠ r.addr) :
    mapGet? (s.setRf r lo len v).regs a = mapGet? s.regs a := mapGet?_set_ne _ _ h

/-! ### The counters of Lath blocks -/

theorem not_lathCountAddr_of_lt {a : Nat} (h : a < lathBase + 0x50000) : ¬ LathCountAddr a := by
  rintro ⟨b, -, rfl | ⟨i, -, rfl⟩⟩
  all_goals
    unfold Reg.addr at h
    dsimp only at h
    unfold lathBase at h
    omega

theorem not_lathCountAddr_core {lc o : Nat} (hlc : lc < 144) (ho : o < 0x100000) :
    ¬ LathCountAddr (coreBase + lc * 0x100000 + o) :=
  not_lathCountAddr_of_lt (by unfold coreBase lathBase; omega)

theorem bump_regs_ne (s : State) {c o : Reg} (i n : Nat) {a : Nat} (hc : a ≠ c.addr) (ho : a ≠ o.addr) :
    mapGet? (bump s c o i n).regs a = mapGet? s.regs a := by
  unfold bump
  dsimp only
  split
  · exact setRf_regs_ne _ _ _ _ hc
  · exact (setRf_regs_ne _ _ _ _ ho).trans (setRf_regs_ne _ _ _ _ hc)

/-- Registers that no step of a fold changes. -/
theorem foldl_regs_eq {β : Type} {a : Nat} (f : State → β → State) (l : List β) (s : State)
    (h : ∀ x ∈ l, ∀ u, mapGet? (f u x).regs a = mapGet? u.regs a) :
    mapGet? (l.foldl f s).regs a = mapGet? s.regs a := by
  induction l generalizing s with
  | nil => rfl
  | cons x l ih =>
    rw [List.foldl_cons, ih _ fun y hy => h y (List.mem_cons_of_mem x hy), h x List.mem_cons_self]

theorem lathEvent_lathFrame (s : State) {b : Nat} (hb : b < 313) (code n : Nat) :
    LathFrame s (s.lathEvent b code n) := by
  intro a ha
  refine foldl_regs_eq _ _ _ fun i hi u => ?_
  split
  · exact bump_regs_ne _ _ _ (fun e => ha ⟨b, hb, .inr ⟨i, List.mem_range.mp hi, e⟩⟩) fun e => ha ⟨b, hb, .inl e⟩
  · rfl

/-! ### The counters of a core -/

theorem event_regs_ne (s : State) (lc code n : Nat) {a : Nat} (ho : a ≠ (Reg.pmuOvf lc).addr)
    (hc : ∀ i, i < 8 → a ≠ (Reg.pmuCnt lc i).addr) : mapGet? (s.event lc code n).regs a = mapGet? s.regs a := by
  unfold State.event
  split
  · rfl
  refine foldl_regs_eq _ _ _ fun i hi u => ?_
  split
  · exact bump_regs_ne _ _ _ (hc i (List.mem_range.mp hi)) ho
  · rfl

theorem event_sstat (s : State) (lc code n : Nat) :
    mapGet? (s.event lc code n).regs (Reg.pmuSstat lc).addr = mapGet? s.regs (Reg.pmuSstat lc).addr := by
  refine event_regs_ne _ _ _ _ ?_ fun i hi => ?_
  · unfold Reg.addr
    dsimp only
    omega
  · unfold Reg.addr
    dsimp only
    omega

theorem not_countAddr_offset {lc o : Nat} (ho : o ≠ 0x1100 ∧ o ≠ 0x1110 ∧ o ≠ 0x11B0 ∧ (o < 0x1160 ∨ 0x11A0 ≤ o)) :
    ¬ CountAddr lc (coreBase + lc * 0x100000 + o) := by
  rintro (h | h | h | ⟨i, hi, h⟩)
  all_goals
    unfold Reg.addr at h
    dsimp only at h
    unfold coreBase at h
    omega

end Sys2Proof.Machine
end

