-- ==== Sys2Proof/Proofs/LocksCountersAndSamples.lean ====
section
/-!
O56. Writes of registers with a LOCK bit and of the sampling registers of a core, and what a spill of sample records
changes.
-/

namespace Sys2Proof.Machine

/-! ### Who may write -/

theorem mayWrite_host {s : State} (hrec : s.sec.recovery = false) (hl : s.loaded = true) (r : Reg) :
    s.mayWrite .host r = true := by
  simp [State.mayWrite, hrec, hl]

theorem mayWrite_firmware {s : State} (hrec : s.sec.recovery = false) (r : Reg) : s.mayWrite .firmware r = true := by
  simp [State.mayWrite, hrec]

theorem mayWrite_pmuPerm_core (s : State) (lc k : Nat) : s.mayWrite (.core k) (.pmuPerm lc) = false := by
  simp [State.mayWrite]

section
variable {s : State} {lc : Nat} {req : Requester} (hrec : s.sec.recovery = false) (hb : req ≠ .bmc)
include hrec hb

theorem mayWrite_pmuMark (hopen : s.pmuOpen req (.pmuMark lc) = true) : s.mayWrite req (.pmuMark lc) = true := by
  cases req with
  | bmc => exact absurd rfl hb
  | host => simp [State.mayWrite, hrec, Reg.fw]
  | firmware => simp [State.mayWrite, hrec]
  | core n => simp [State.mayWrite, hrec, hopen, Reg.fw]
  | remote n => simp [State.mayWrite, hrec, hopen, Reg.fw]

theorem mayWrite_pmuSctrl (hopen : s.pmuOpen req (.pmuSctrl lc) = true) : s.mayWrite req (.pmuSctrl lc) = true := by
  cases req with
  | bmc => exact absurd rfl hb
  | host => simp [State.mayWrite, hrec, Reg.fw]
  | firmware => simp [State.mayWrite, hrec]
  | core n => simp [State.mayWrite, hrec, hopen, Reg.fw]
  | remote n => simp [State.mayWrite, hrec, hopen, Reg.fw]

end

/-- While USER is 0 and no debug scope is granted, programs write no counting register. -/
theorem mayWrite_pmu_core {s : State} {lc k : Nat} (hu : s.rf (.pmuPerm lc) 0 1 = 0) (hs : s.sec.scopes % 4 = 0) :
    s.mayWrite (.core k) (.pmuMark lc) = false ∧ s.mayWrite (.core k) (.pmuSctrl lc) = false := by
  simp [State.mayWrite, State.pmuOpen, hu, hs]

/-! ### A register's new word -/

/-- The state after a write that only makes a new word of the register. -/
def State.written (s : State) (r : Reg) (data : Word) (mask : Nat) : State :=
  s.setReg r (regNew r (s.reg r) data mask (s.locked r))

theorem written_frame (s : State) (r : Reg) (data : Word) (mask : Nat) :
    s.written r data mask = { s with regs := (s.written r data mask).regs } := rfl

theorem written_onlyReg (s : State) (r : Reg) (data : Word) (mask : Nat) : OnlyReg s (s.written r data mask) r :=
  setReg_onlyReg _ _ _

theorem written_reg (s : State) (r : Reg) (data : Word) (mask : Nat) :
    (s.written r data mask).reg r = regNew r (s.reg r) data mask (s.locked r) := State.reg_setReg_self ..

section
variable {s : State} {r : Reg} {data : Word} {lo len : Nat} {ok : Nat → Bool}

theorem written_rwl (hf : ⟨lo, len, .rwl, ok⟩ ∈ r.wflds) (hl : s.locked r = false) :
    (s.written r data fullMask).rf r lo len =
      if ok (fld data lo len) = true then fld data lo len else s.rf r lo len := by
  rw [State.rf, written_reg, hl]
  exact (fld_regNew hf ..).trans (wfldNew_rwl (wflds_le hf) rfl)

theorem written_w1s (hf : ⟨lo, 1, .w1s, ok⟩ ∈ r.wflds) :
    (s.written r data fullMask).rf r lo 1 = 1 ↔ bitAt data lo = true ∨ s.rf r lo 1 = 1 := by
  rw [State.rf, written_reg, fld_regNew hf, wfldNew_w1s (wflds_le hf) rfl]
  exact fld_one_or_eq_one

/-- A bit that the write leaves out. -/
theorem written_unmasked {mask i : Nat} (hi : i < 64) (hm : mask.testBit i = false) :
    (s.written r data mask).rf r i 1 = s.rf r i 1 := by
  rw [State.rf, written_reg, State.rf, fld_one, fld_one, bitAt_regNew_unmasked r hi hm]

end

/-- A set LOCK bit takes a 1 or a 0 alike. -/
theorem fld_one_or_self {v w : Word} {i : Nat} (h : fld v i 1 = 1) : fld v i 1 ||| fld w i 1 = fld v i 1 := by
  have hw := fld_lt w i 1
  rw [h]
  interval_cases fld w i 1 <;> rfl

/-- A locked register of RWL fields and its LOCK bit keeps its word. -/
theorem regNew_of_locked {r : Reg} {old data : Word}
    (h : ∀ f ∈ r.wflds, f.acc = .rwl ∨ f.acc = .wo ∨ f.acc = .w1s ∧ f.len = 1 ∧ fld old f.lo 1 = 1) :
    regNew r old data fullMask true = old := by
  refine regNew_eq_self fun f hf => ?_
  obtain hacc | hacc | ⟨hacc, hlen, hset⟩ := h f hf
  · exact wfldNew_rwl_locked hacc
  · exact wfldNew_wo hacc
  · rw [wfldNew_w1s (wflds_le hf) hacc, hlen]
    exact fld_one_or_self hset

theorem written_of_locked {s : State} {r : Reg} {data : Word} (hl : s.locked r = true)
    (h : ∀ f ∈ r.wflds, f.acc = .rwl ∨ f.acc = .wo ∨ f.acc = .w1s ∧ f.len = 1 ∧ s.rf r f.lo 1 = 1) :
    (s.written r data fullMask).reg r = s.reg r := by
  rw [written_reg, hl]
  exact regNew_of_locked h

/-! ### LATH_VC_POLICY and SCR_CFG -/

theorem resolve_vcPolicy (s : State) : s.resolve none (Reg.vcPolicy).addr = .reg (Reg.vcPolicy).addr :=
  resolve_lath s (by decide) (by decide) none

theorem resolve_scrCfg (s : State) : s.resolve none (Reg.scrCfg).addr = .reg (Reg.scrCfg).addr :=
  resolve_lath s (by decide) (by decide) none

section
variable {s : State} (hrec : s.sec.recovery = false)
include hrec

theorem exec_vcPolicy_host (hl : s.loaded = true) (w : Word) :
    exec (.lathVcPolicyLock .host w) s = .next (s.written .vcPolicy w fullMask) :=
  congrArg _ (writeReg8_full w rfl (resolve_vcPolicy s) (mayWrite_host hrec hl _) rfl)

theorem exec_scrCfg_host (hl : s.loaded = true) (w : Word) :
    exec (.scrCfgLock .host w) s = .next (s.written .scrCfg w fullMask) :=
  congrArg _ (writeReg8_full w rfl (resolve_scrCfg s) (mayWrite_host hrec hl _) rfl)

theorem exec_vcPolicy_firmware (w : Word) :
    exec (.lathVcPolicyLock .firmware w) s = .next (s.written .vcPolicy w (fullMask - (fullMask &&& 2 ^ 63))) := by
  refine congrArg _ ((writeReg8_eq s .firmware w rfl (resolve_vcPolicy s)).trans ?_)
  rw [mayWrite_firmware hrec]
  rfl

theorem exec_scrCfg_firmware (w : Word) :
    exec (.scrCfgLock .firmware w) s = .next (s.written .scrCfg w (fullMask - (fullMask &&& 1))) := by
  refine congrArg _ ((writeReg8_eq s .firmware w rfl (resolve_scrCfg s)).trans ?_)
  rw [mayWrite_firmware hrec]
  rfl

end

theorem between_iff {a b v : Nat} : between a b v = true ↔ a ≤ v ∧ v ≤ b := by simp [between]

theorem locked_vcPolicy_of_zero {s : State} (h : s.rf .vcPolicy 63 1 = 0) : s.locked .vcPolicy = false := by
  simp [State.locked, h]

theorem locked_scrCfg_of_zero {s : State} (h : s.rf .scrCfg 0 1 = 0) : s.locked .scrCfg = false := by
  simp [State.locked, h]

theorem vcPolicy_host (s : State) (w : Word) :
    let t := s.written .vcPolicy w fullMask
    (t.rf .vcPolicy 63 1 = 1 ↔ bitAt w 63 = true ∨ s.rf .vcPolicy 63 1 = 1)
    ∧ (s.rf .vcPolicy 63 1 = 0 →
      t.rf .vcPolicy 0 16 = (if 10 ≤ fld w 0 16 ∧ fld w 0 16 ≤ 1000 then fld w 0 16 else s.rf .vcPolicy 0 16)
      ∧ t.rf .vcPolicy 16 8 = (if 2 ≤ fld w 16 8 ∧ fld w 16 8 ≤ 20 then fld w 16 8 else s.rf .vcPolicy 16 8)
      ∧ t.rf .vcPolicy 32 8 = (if 1 ≤ fld w 32 8 ∧ fld w 32 8 ≤ 200 then fld w 32 8 else s.rf .vcPolicy 32 8))
    ∧ (s.rf .vcPolicy 63 1 = 1 → s.sec.scopes / 2 % 2 = 0 → t.reg .vcPolicy = s.reg .vcPolicy) := by
  refine ⟨written_w1s (ok := fun _ => true) (by simp [Reg.wflds]), fun h0 => ?_, fun h1 hs => ?_⟩
  · have hl := locked_vcPolicy_of_zero h0
    simp only [← between_iff]
    exact ⟨written_rwl (by simp [Reg.wflds]) hl, written_rwl (by simp [Reg.wflds]) hl,
      written_rwl (by simp [Reg.wflds]) hl⟩
  · exact written_of_locked (by simp [State.locked, h1, hs]) (by simp [Reg.wflds, h1])

theorem scrCfg_host (s : State) (w : Word) :
    let t := s.written .scrCfg w fullMask
    (t.rf .scrCfg 0 1 = 1 ↔ bitAt w 0 = true ∨ s.rf .scrCfg 0 1 = 1)
    ∧ (s.rf .scrCfg 0 1 = 0 → t.rf .scrCfg 16 16
      = if 1 ≤ fld w 16 16 ∧ fld w 16 16 ≤ 60000 then fld w 16 16 else s.rf .scrCfg 16 16)
    ∧ (s.rf .scrCfg 0 1 = 1 → s.sec.scopes / 2 % 2 = 0 → t.reg .scrCfg = s.reg .scrCfg) := by
  refine ⟨written_w1s (ok := fun _ => true) (by simp [Reg.wflds]), fun h0 => ?_, fun h1 hs => ?_⟩
  · simp only [← between_iff]
    exact written_rwl (by simp [Reg.wflds]) (locked_scrCfg_of_zero h0)
  · exact written_of_locked (by simp [State.locked, h1, hs]) (by simp [Reg.wflds, h1])

/-! ### The registers of a core's block -/

theorem setDel_of_not_has {m : NSet} {n : Nat} (h : setHas m n = false) : setDel m n = m := by
  induction m with
  | nil => rfl
  | cons k m ih =>
    obtain ⟨hk, hm⟩ := Bool.or_eq_false_iff.mp h
    rw [setDel, if_neg (beq_eq_false_iff_ne.mp hk), ih hm]

theorem regAt_core {lc o : Nat} (hlc : lc < 144) (ho : o < 0x100000) (h8 : o % 8 = 0) :
    regAt (coreBase + lc * 0x100000 + o) = coreReg lc o := by
  have hn : (coreBase + lc * 0x100000 + o - coreBase) / 0x100000 = lc := by omega
  have hm : (coreBase + lc * 0x100000 + o - coreBase) % 0x100000 = o := by omega
  have hmul : ¬ (coreBase + lc * 0x100000 + o) % 8 ≠ 0 := by
    unfold coreBase
    omega
  have hin : coreBase ≤ coreBase + lc * 0x100000 + o ∧ coreBase + lc * 0x100000 + o < coreBase + 144 * 0x100000 := by
    omega
  rw [regAt, if_neg hmul, if_pos hin, hn, hm]

theorem coreOf_block {lc o : Nat} (hlc : lc < 144) (ho : o < 0x100000) :
    Loc.coreOf (.reg (coreBase + lc * 0x100000 + o)) = some lc := by
  have hn : (coreBase + lc * 0x100000 + o - coreBase) / 0x100000 = lc := by omega
  have hin : coreBase ≤ coreBase + lc * 0x100000 + o ∧ coreBase + lc * 0x100000 + o < lathBase := by
    unfold coreBase lathBase
    omega
  exact (if_pos hin).trans (congrArg some hn)

/-- A core that takes accesses is reached without a wake. -/
theorem wakePlace_of_accepts {s : State} {l : Loc} {n : Nat} (hl : l.coreOf = some n) (h : s.accepts n = true) :
    s.wakePlace l = s := by
  simp only [State.accepts, Bool.and_eq_true, Bool.not_eq_true'] at h
  obtain ⟨⟨-, hoff⟩, hgated⟩ := h
  have hawake : s.wakeHalf (halfOf (s.siteOf n)) = s := by simp [State.wakeHalf, hoff]
  unfold State.wakePlace
  rw [hl]
  dsimp only
  rw [hawake, setDel_of_not_has hgated]

section
variable {s : State} {lc : Nat} (h : s.blockReached lc)
include h

theorem wakePlace_block {o : Nat} (ho : o < 0x100000) : s.wakePlace (.reg (coreBase + lc * 0x100000 + o)) = s := by
  obtain ⟨hlc, -, -, -, hacc⟩ := h
  exact wakePlace_of_accepts (coreOf_block hlc ho) hacc

theorem resolve_block {o : Nat} (ho : o < 0x100000) :
    s.resolve none (coreBase + lc * 0x100000 + o) = .reg (coreBase + lc * 0x100000 + o) := by
  obtain ⟨hlc, hin, hf, -, -⟩ := h
  exact resolve_core s ho hlc hin hf none

/-- A write of eight bytes to a register of a core's block, by one who may. -/
theorem writeCore_block {req : Requester} {r : Reg} {o : Nat} (hr : r.addr = coreBase + lc * 0x100000 + o)
    (ho : o < 0x100000) (h8 : o % 8 = 0) (hat : coreReg lc o = some r) (data : Word) :
    s.writeCore req r data
      = if s.mayWrite req r = true then s.applyReg r data (fullMask - (fullMask &&& lockBits req r)) else s := by
  have hlc : lc < 144 := h.1
  have hl : s.resolve none r.addr = .reg r.addr := by rw [hr, resolve_block h ho]
  have hat' : regAt r.addr = some r := by rw [hr, regAt_core hlc ho h8, hat]
  rw [State.writeCore, hl, hr, wakePlace_block h ho]
  exact writeReg8_eq s req data hat' hl

theorem writeCore_pmuMark {req : Requester} (data : Word) : s.writeCore req (.pmuMark lc) data
    = if s.mayWrite req (.pmuMark lc) = true then s.mark lc data else s := by
  have hk : lockBits req (.pmuMark lc) = 0 := by
    unfold lockBits
    split <;> rfl
  rw [writeCore_block h (o := 0x11B8) rfl (by decide) (by decide) rfl, hk]
  have hand : data &&& BitVec.ofNat 64 (fullMask - (fullMask &&& 0)) = data := BitVec.and_allOnes
  rw [State.applyReg, hand]

theorem writeCore_pmuSctrl {req : Requester} (data : Word) : s.writeCore req (.pmuSctrl lc) data
    = if s.mayWrite req (.pmuSctrl lc) = true then
        s.writeSctrl lc (regNew (.pmuSctrl lc) (s.reg (.pmuSctrl lc)) data fullMask (s.locked (.pmuSctrl lc))) true
      else s := by
  have hk : lockBits req (.pmuSctrl lc) = 0 := by
    unfold lockBits
    split <;> rfl
  rw [writeCore_block h (o := 0x11A0) rfl (by decide) (by decide) rfl, hk]
  rfl

theorem writeCore_pmuPerm {req : Requester} (data : Word) (hm : s.mayWrite req (.pmuPerm lc) = true) :
    s.writeCore req (.pmuPerm lc) data
      = s.applyReg (.pmuPerm lc) data (fullMask - (fullMask &&& lockBits req (.pmuPerm lc))) := by
  rw [writeCore_block h (o := 0x1118) rfl (by decide) (by decide) rfl, hm]
  rfl

theorem writeCore_pmuPerm_core {k : Nat} (data : Word) : s.writeCore (.core k) (.pmuPerm lc) data = s := by
  rw [writeCore_block h (o := 0x1118) rfl (by decide) (by decide) rfl, mayWrite_pmuPerm_core]
  rfl

end

/-! ### MARK records -/

@[simp] theorem pmu_setPmu_self (s : State) (lc : Nat) (p : Pmu) : (s.setPmu lc p).pmu lc = p := mapGet_set_self ..

section
variable {s : State} {lc : Nat}

theorem sample_fits (r : Sample) (hl : (s.pmu lc).lost = 0) (hn : (s.pmu lc).buf.length < 256) :
    s.sample lc r = s.setPmu lc { s.pmu lc with buf := (s.pmu lc).buf ++ [r] } := by
  have hp : { s.pmu lc with buf := (s.pmu lc).buf ++ [r], lost := 0 }
      = { s.pmu lc with buf := (s.pmu lc).buf ++ [r] } := by rw [← hl]
  unfold State.sample
  dsimp only
  rw [if_pos hl, if_pos (by omega), if_pos hl, hp]

theorem sample_after_lost (r : Sample) (hl : (s.pmu lc).lost ≠ 0) (hn : (s.pmu lc).buf.length < 255) :
    s.sample lc r
      = s.setPmu lc { s.pmu lc with buf := (s.pmu lc).buf ++ [lostRec r.cycle (s.pmu lc).lost, r], lost := 0 } := by
  unfold State.sample
  dsimp only
  rw [if_neg hl, if_pos (by omega), if_neg hl]

theorem sample_dropped (r : Sample) (hn : 256 ≤ (s.pmu lc).buf.length) :
    let t := s.sample lc r
    t = { s with regs := t.regs, pmus := t.pmus } ∧ t.pmu lc = { s.pmu lc with lost := (s.pmu lc).lost + 1 }
      ∧ (∀ a, ¬ CountAddr lc a → mapGet? t.regs a = mapGet? s.regs a)
      ∧ t.rf (.pmuSstat lc) 16 16 = min (s.rf (.pmuSstat lc) 16 16 + 1) 65535 := by
  have hneed : ¬ (s.pmu lc).buf.length + (if (s.pmu lc).lost = 0 then 1 else 2) ≤ 256 := by
    split <;> omega
  have ht : s.sample lc r
      = ((s.setPmu lc { s.pmu lc with lost := (s.pmu lc).lost + 1 }).incRf (.pmuSstat lc) 16 16 1).event lc 0x41 1 := by
    unfold State.sample
    dsimp only
    rw [if_neg hneed]
  refine ⟨?_, ?_, (sample_frame lc s r).regs, ?_⟩
  · rw [ht, event_regs]
    rfl
  · unfold State.pmu
    rw [(sample_frame lc s r).siteOf, ht, event_regs]
    exact mapGet_set_self ..
  · rw [ht, rf_congr (event_sstat ..)]
    have hlt : min (s.rf (.pmuSstat lc) 16 16 + 1) (2 ^ 16 - 1) < 2 ^ 16 := by omega
    rw [State.incRf, State.rf, State.reg_setReg_self, satFld, fld_setFld_self _ _ _ _ (by decide)]
    exact Nat.mod_eq_of_lt hlt

theorem mark_off (v : Word) (h : s.rf (.pmuSctrl lc) 0 1 = 0) : s.mark lc v = s := if_neg (by omega)

theorem mark_on (v : Word) (h : s.rf (.pmuSctrl lc) 0 1 = 1) : s.mark lc v = s.sample lc ⟨s.reg (.pmuCycle lc),
    BitVec.ofNat 64 ((s.core lc).pc.toNat + 7 * 2 ^ 48 + 1 * 2 ^ 52), 0, 0, v⟩ := by
  rw [Nat.one_mul]
  exact if_pos h

end

theorem exec_pmuMarkWrite_eq (s : State) (lc : Nat) (req : Requester) (w : Word) :
    exec (.pmuMarkWrite lc req w) s = .next (s.writeCore req (.pmuMark lc) w) := rfl

theorem exec_pmuMarkWrite {s : State} {lc : Nat} {req : Requester} (h : s.blockReached lc) (hb : req ≠ .bmc)
    (hopen : s.pmuOpen req (.pmuMark lc) = true) (w : Word) :
    exec (.pmuMarkWrite lc req w) s = .next (s.mark lc w) := by
  obtain ⟨-, -, -, hrec, -⟩ := id h
  rw [exec_pmuMarkWrite_eq, writeCore_pmuMark h, mayWrite_pmuMark hrec hb hopen]
  rfl

/-! ### Spills of sample records -/

/-- A write outside the hawks reaches no WAITF monitor. -/
theorem writeRun_outside_hawks (s : State) {key : Nat} (bs : List Byte) (h : ¬ (2 ^ 45 ≤ key ∧ key < 2 ^ 46)) :
    (s.writeRun key bs).cores = s.cores := by
  unfold State.writeRun
  dsimp only
  rw [if_neg h]

theorem hodKey_outside_hawks (site row byte : Nat) :
    ¬ (2 ^ 45 ≤ hodKey site row byte ∧ hodKey site row byte < 2 ^ 46) := fun h =>
  absurd h.2 (Nat.not_lt.mpr
    ((Nat.le_add_right (2 ^ 46) _).trans ((Nat.le_add_right _ _).trans (Nat.le_add_right _ _))))

/-- Counting leaves what a write of memory and poison left. -/
theorem counted_frame {s u v w : State} {m : Memory}
    (hu : u = { s with mem := m, poison := u.poison, cores := s.cores })
    (hv : v = { u with regs := v.regs }) (hw : w = { v with regs := w.regs }) :
    w = { s with mem := m, poison := w.poison, regs := w.regs } := by
  rw [hw, hv, hu]

/-- The rows of a spill written and counted. -/
def State.spillRows (s : State) (lc row : Nat) (bs : List Byte) (granules rows : Nat) : State :=
  ((s.writeRun (hodKey (s.siteOf lc) row 0) bs).event lc 0x28 granules).lathEvent (s.siteOf lc) 2 rows

section
variable (s : State) (lc row : Nat) (bs : List Byte) (granules rows : Nat)

theorem spillRows_frame : s.spillRows lc row bs granules rows = { s with
    mem := memPuts s.mem (hodKey (s.siteOf lc) row 0) bs, poison := (s.spillRows lc row bs granules rows).poison
    regs := (s.spillRows lc row bs granules rows).regs } := by
  have hu := writeRun_frame s (hodKey (s.siteOf lc) row 0) bs
  rw [writeRun_outside_hawks s bs (hodKey_outside_hawks _ _ _)] at hu
  exact counted_frame hu (event_regs ..) (lathEvent_regs ..)

theorem spillRows_regs_lath {a : Nat} (ha : ¬ LathCountAddr a) : mapGet? (s.spillRows lc row bs granules rows).regs a
    = mapGet? ((s.writeRun (hodKey (s.siteOf lc) row 0) bs).event lc 0x28 granules).regs a :=
  lathEvent_lathFrame _ (by have := siteOf_lt s lc; omega) _ _ a ha

theorem spillRows_regs {a : Nat} (hc : ¬ CountAddr lc a) (hl : ¬ LathCountAddr a) :
    mapGet? (s.spillRows lc row bs granules rows).regs a = mapGet? s.regs a := by
  rw [spillRows_regs_lath s lc row bs granules rows hl, (event_frame lc _ _ _).regs a hc, writeRun_regs]

theorem spillRows_sstat (hlc : lc < 144) : mapGet? (s.spillRows lc row bs granules rows).regs (Reg.pmuSstat lc).addr
    = mapGet? s.regs (Reg.pmuSstat lc).addr := by
  have hl : ¬ LathCountAddr (Reg.pmuSstat lc).addr := not_lathCountAddr_core hlc (o := 0x11B0) (by decide)
  rw [spillRows_regs_lath s lc row bs granules rows hl, event_sstat, writeRun_regs]

end

/-- The first part of a list, up to a length that a bound cuts. -/
theorem take_min_length {α : Type} (n : Nat) (l : List α) : l.take (min n l.length) = l.take n := by
  rcases Nat.le_total n l.length with h | h
  · rw [Nat.min_eq_left h]
  · rw [Nat.min_eq_right h, List.take_length, List.take_of_length_le h]

theorem drop_min_length {α : Type} (n : Nat) (l : List α) : l.drop (min n l.length) = l.drop n := by
  rcases Nat.le_total n l.length with h | h
  · rw [Nat.min_eq_left h]
  · rw [Nat.min_eq_right h, List.drop_length, List.drop_of_length_le h]

theorem mcLc_ne_sstat (lc : Nat) : (Reg.mcLc lc).addr ≠ (Reg.pmuSstat lc).addr := fun h =>
  not_countAddr_mcLc lc (h ▸ countAddr_sstat lc)

/-- What a spill of up to 128 records changes. -/
structure Spilled (s t : State) (lc : Nat) : Prop where
  only : t = { s with mem := t.mem, poison := t.poison, regs := t.regs, pmus := t.pmus }
  regs : ∀ a, ¬ CountAddr lc a → ¬ LathCountAddr a → mapGet? t.regs a = mapGet? s.regs a
  stores : Stores s t (hodKey (s.siteOf lc) (s.rf (.pmuSpill lc) 0 16 + (s.pmu lc).ring) 0)
    (((s.pmu lc).buf.take 128).flatMap Sample.bytes)
  pmu : t.pmu lc = { s.pmu lc with
    buf := (s.pmu lc).buf.drop 128
    ring := if (s.pmu lc).ring + 16 < s.rf (.pmuSpill lc) 32 16 then (s.pmu lc).ring + 16 else 0 }
  count : t.rf (.pmuSstat lc) 32 32
    = (s.rf (.pmuSstat lc) 32 32 + (min (s.pmu lc).buf.length 128 + 7) / 8) % 2 ^ 32

/-- A spill, from what is left once its rows are written and counted. -/
theorem spilled_of_rows {s u : State} {lc k : Nat} {m : Memory} {q : Pmu}
    (hu : u = { s with mem := m, poison := u.poison, regs := u.regs })
    (hregs : ∀ a, ¬ CountAddr lc a → ¬ LathCountAddr a → mapGet? u.regs a = mapGet? s.regs a)
    (hstat : u.rf (.pmuSstat lc) 32 32 = s.rf (.pmuSstat lc) 32 32)
    (hm : m = memPuts s.mem (hodKey (s.siteOf lc) (s.rf (.pmuSpill lc) 0 16 + (s.pmu lc).ring) 0)
      (((s.pmu lc).buf.take 128).flatMap Sample.bytes))
    (hq : q = { s.pmu lc with
      buf := (s.pmu lc).buf.drop 128
      ring := if (s.pmu lc).ring + 16 < s.rf (.pmuSpill lc) 32 16 then (s.pmu lc).ring + 16 else 0 })
    (hk : k = min (s.pmu lc).buf.length 128) :
    Spilled s ((u.setPmu lc q).setRf (.pmuSstat lc) 32 32 ((u.setPmu lc q).rf (.pmuSstat lc) 32 32 + (k + 7) / 8))
      lc := by
  rw [show (u.setPmu lc q).rf (.pmuSstat lc) 32 32 = u.rf (.pmuSstat lc) 32 32 from rfl]
  have hmem : u.mem = m := by rw [hu]
  refine ⟨?_, fun a hc hl => ?_, fun x => ?_, ?_, ?_⟩
  · rw [hu]
    rfl
  · refine (setRf_regs_ne _ _ _ _ fun e => hc (by rw [e]; exact countAddr_sstat lc)).trans ?_
    exact hregs a hc hl
  · rw [State.setRf_mem, setPmu_mem, hmem, hm, memGet_puts]
  · unfold State.pmu
    rw [siteOf_congr (setRf_regs_ne _ _ _ _ (mcLc_ne_sstat lc))]
    exact (mapGet_set_self ..).trans hq
  · rw [State.rf_setRf_self _ _ _ _ _ (by decide), hstat, hk]

theorem spill_eq (s : State) (lc : Nat) : s.spill lc 128 =
    let p := s.pmu lc
    let k := min p.buf.length 128
    let u := s.spillRows lc (s.rf (.pmuSpill lc) 0 16 + p.ring) ((p.buf.take 128).flatMap Sample.bytes) ((k + 1) / 2)
      ((k + 7) / 8)
    let v := u.setPmu lc { p with
      buf := p.buf.drop 128, ring := if p.ring + 16 < s.rf (.pmuSpill lc) 32 16 then p.ring + 16 else 0 }
    v.setRf (.pmuSstat lc) 32 32 (v.rf (.pmuSstat lc) 32 32 + (k + 7) / 8) := by
  have hk := Nat.min_comm (s.pmu lc).buf.length 128
  unfold State.spill State.spillRows
  dsimp only
  rw [Nat.min_self, take_min_length, drop_min_length, hk]

theorem spill_spilled (s : State) {lc : Nat} (hlc : lc < 144) : Spilled s (s.spill lc 128) lc := by
  rw [spill_eq]
  exact spilled_of_rows (spillRows_frame ..) (fun _ hc hl => spillRows_regs _ _ _ _ _ _ hc hl)
    (rf_congr (spillRows_sstat _ _ _ _ _ _ hlc) _ _) rfl rfl rfl

theorem spillDue_iff {s : State} {lc : Nat} : s.spillDue lc = true ↔
    (128 ≤ (s.pmu lc).buf.length ∨ 0 < (s.pmu lc).buf.length ∧ s.rf (.pmuSctrl lc) 0 1 = 0)
      ∧ s.windowOpen lc = false := by
  simp [State.spillDue, State.spillWaits]

theorem exec_sampleSpill_eq (s : State) (lc : Nat) :
    exec (.sampleSpill lc) s = .next (if s.spillDue lc = true then s.spill lc 128 else s) := rfl

theorem exec_sampleSpill_due {s : State} {lc : Nat} (h : s.spillDue lc = true) :
    exec (.sampleSpill lc) s = .next (s.spill lc 128) := by
  rw [exec_sampleSpill_eq, if_pos h]

theorem exec_sampleSpill_not_due {s : State} {lc : Nat} (h : ¬ s.spillDue lc = true) :
    exec (.sampleSpill lc) s = .next s := by
  rw [exec_sampleSpill_eq, if_neg h]

theorem Spilled.cores {s t : State} {lc : Nat} (h : Spilled s t lc) : t.cores = s.cores := by rw [h.only]

/-! ### Sampling on and off -/

/-- The word that a write of a word gives PMU_SCTRL. -/
def State.sctrlWord (s : State) (lc : Nat) (data : Word) : Word :=
  regNew (.pmuSctrl lc) (s.reg (.pmuSctrl lc)) data fullMask (s.locked (.pmuSctrl lc))

section
variable (s : State) (lc : Nat) (w : Word) (v : Nat)

theorem sctrlWord_en : fld (s.sctrlWord lc (setFld w 0 1 v)) 0 1 = v % 2 := by
  have hf : (⟨0, 1, .rw, fun _ => true⟩ : WFld) ∈ (Reg.pmuSctrl lc).wflds := by simp [Reg.wflds]
  have h := fld_setFld_self w 0 1 v (by decide)
  exact ((fld_regNew hf ..).trans ((wfldNew_rw (wflds_le hf) rfl).trans (if_pos rfl))).trans h

theorem sctrlWord_trig : fld (s.sctrlWord lc (setFld w 0 1 v)) 8 7 = fld w 8 7 := by
  have hf : (⟨8, 7, .rw, fun _ => true⟩ : WFld) ∈ (Reg.pmuSctrl lc).wflds := by simp [Reg.wflds]
  have h := fld_setFld_ne w 0 1 v 8 7 (by decide)
  exact ((fld_regNew hf ..).trans ((wfldNew_rw (wflds_le hf) rfl).trans (if_pos rfl))).trans h

theorem sctrlWord_period : fld (s.sctrlWord lc (setFld w 0 1 v)) 32 16
    = if 1 ≤ fld w 32 16 then fld w 32 16 else s.rf (.pmuSctrl lc) 32 16 := by
  have hf : (⟨32, 16, .rw, between 1 65535⟩ : WFld) ∈ (Reg.pmuSctrl lc).wflds := by simp [Reg.wflds]
  have h := fld_setFld_ne w 0 1 v 32 16 (by decide)
  have hlt : fld w 32 16 < 2 ^ 16 := fld_lt ..
  have hok : between 1 65535 (fld w 32 16) = true ↔ 1 ≤ fld w 32 16 := by
    rw [between_iff]
    omega
  refine (fld_regNew hf ..).trans ((wfldNew_rw (wflds_le hf) rfl).trans ?_)
  dsimp only
  rw [h, ← State.rf]
  simp only [hok]

end

theorem exec_samplingEnable_eq (s : State) (lc : Nat) (req : Requester) (w : Word) :
    exec (.pmuSamplingEnable lc req w) s = .next (s.writeCore req (.pmuSctrl lc) (setFld w 0 1 1)) := rfl

theorem exec_samplingDisable_eq (s : State) (lc : Nat) (req : Requester) (w : Word) :
    exec (.pmuSamplingDisable lc req w) s = .next (s.writeCore req (.pmuSctrl lc) (setFld w 0 1 0)) := rfl

theorem writeCore_pmuSctrl_open {s : State} {lc : Nat} {req : Requester} (h : s.blockReached lc) (hb : req ≠ .bmc)
    (hopen : s.pmuOpen req (.pmuSctrl lc) = true) (data : Word) :
    s.writeCore req (.pmuSctrl lc) data = s.writeSctrl lc (s.sctrlWord lc data) true := by
  obtain ⟨-, -, -, hrec, -⟩ := id h
  rw [writeCore_pmuSctrl h, mayWrite_pmuSctrl hrec hb hopen]
  rfl

theorem ringOk_iff {s : State} {lc : Nat} : s.ringOk lc (s.reg (.pmuSpill lc)) = true ↔
    s.rf (.pmuSpill lc) 0 16 % 16 = 0 ∧ s.rf (.pmuSpill lc) 32 16 % 16 = 0 ∧ 16 ≤ s.rf (.pmuSpill lc) 32 16
      ∧ s.rf (.pmuSpill lc) 0 16 + s.rf (.pmuSpill lc) 32 16 ≤ s.rowsUsed ∧ s.siteOf lc ∈ s.slices := by
  simp [State.ringOk, State.rf, and_assoc]

section
variable {s : State} {lc : Nat} {w : Word}

theorem writeSctrl_starts (hw : bitAt w 0 = true) (hok : s.ringOk lc (s.reg (.pmuSpill lc)) = true) :
    s.writeSctrl lc w true = (s.setReg (.pmuSctrl lc) w).setPmu lc { s.pmu lc with count := 0, ring := 0 } := by
  unfold State.writeSctrl
  rw [if_pos rfl, if_pos hw, if_pos hok]

theorem writeSctrl_bad_ring (hw : bitAt w 0 = true) (hok : ¬ s.ringOk lc (s.reg (.pmuSpill lc)) = true) :
    s.writeSctrl lc w true = (s.setReg (.pmuSctrl lc) (setFld w 0 1 0)).setRf (.pmuSstat lc) 15 1 1 := by
  unfold State.writeSctrl
  rw [if_pos rfl, if_pos hw, if_neg hok]

theorem writeSctrl_stops (hw : bitAt w 0 = false) : s.writeSctrl lc w true =
    let t := s.setReg (.pmuSctrl lc) w
    let t := if t.spillDue lc = true then t.spill lc 128 else t
    if t.spillDue lc = true then t.spill lc 128 else t := by
  unfold State.writeSctrl
  rw [if_pos rfl, hw]
  rfl

end

theorem mcLc_ne_sctrl (lc : Nat) : (Reg.mcLc lc).addr ≠ (Reg.pmuSctrl lc).addr := by
  unfold Reg.addr
  dsimp only
  unfold coreBase lathBase
  omega

theorem sctrl_ne_sstat (lc : Nat) : (Reg.pmuSctrl lc).addr ≠ (Reg.pmuSstat lc).addr := by
  unfold Reg.addr
  dsimp only
  omega

theorem spill_ne_sctrl (lc : Nat) : (Reg.pmuSpill lc).addr ≠ (Reg.pmuSctrl lc).addr := by
  unfold Reg.addr
  dsimp only
  omega

section
variable (s : State) (lc : Nat) (w : Word)

theorem siteOf_setSctrl : (s.setReg (.pmuSctrl lc) w).siteOf lc = s.siteOf lc :=
  siteOf_congr (setReg_regs_ne _ _ (mcLc_ne_sctrl lc))

theorem pmu_setSctrl : (s.setReg (.pmuSctrl lc) w).pmu lc = s.pmu lc := by
  unfold State.pmu
  rw [siteOf_setSctrl]
  rfl

theorem windowOpen_setSctrl : (s.setReg (.pmuSctrl lc) w).windowOpen lc = s.windowOpen lc := by
  unfold State.windowOpen
  rw [siteOf_setSctrl]
  rfl

end

/-- Sampling ends without a spill: no record is held, or a retune window is open. -/
theorem writeSctrl_stops_no_spill {s : State} {lc : Nat} {w : Word} (hw : bitAt w 0 = false)
    (h : (s.pmu lc).buf = [] ∨ s.windowOpen lc = true) : s.writeSctrl lc w true = s.setReg (.pmuSctrl lc) w := by
  have hdue : ¬ (s.setReg (.pmuSctrl lc) w).spillDue lc = true := by
    rw [spillDue_iff, pmu_setSctrl, windowOpen_setSctrl]
    rcases h with h | h <;> simp [h]
  rw [writeSctrl_stops hw]
  dsimp only
  rw [if_neg hdue, if_neg hdue]

/-- Sampling ends with one spill of all the records held. -/
theorem writeSctrl_stops_spill {s : State} {lc : Nat} {w : Word} (hlc : lc < 144) (hw : bitAt w 0 = false)
    (hwin : s.windowOpen lc = false) (h1 : 1 ≤ (s.pmu lc).buf.length) (h128 : (s.pmu lc).buf.length ≤ 128) :
    s.writeSctrl lc w true = (s.setReg (.pmuSctrl lc) w).spill lc 128 := by
  have hen : (s.setReg (.pmuSctrl lc) w).rf (.pmuSctrl lc) 0 1 = 0 := by
    rw [State.rf, State.reg_setReg_self, fld_one, hw]
    rfl
  have hdue : (s.setReg (.pmuSctrl lc) w).spillDue lc = true := by
    rw [spillDue_iff, pmu_setSctrl, windowOpen_setSctrl]
    exact ⟨.inr ⟨h1, hen⟩, hwin⟩
  have hempty : (((s.setReg (.pmuSctrl lc) w).spill lc 128).pmu lc).buf = [] := by
    rw [(spill_spilled _ hlc).pmu, pmu_setSctrl]
    exact List.drop_of_length_le h128
  have hdone : ¬ ((s.setReg (.pmuSctrl lc) w).spill lc 128).spillDue lc = true := by
    rw [spillDue_iff, hempty]
    simp
  rw [writeSctrl_stops hw]
  dsimp only
  rw [if_pos hdue, if_neg hdone]

/-! ### PMU_PERM -/

theorem exec_permSave_eq (s : State) (lc : Nat) (req : Requester) (w : Word) :
    exec (.pmuPermSave lc req w) s = .next (s.writeCore req (.pmuPerm lc) (setFld w 2 1 1)) := rfl

theorem exec_permLock_eq (s : State) (lc : Nat) (req : Requester) (w : Word) :
    exec (.pmuPermLock lc req w) s = .next (s.writeCore req (.pmuPerm lc) (setFld w 1 1 1)) := rfl

theorem writePerm_regs (s : State) (r : Reg) (w : Word) (save : Bool) :
    (s.writePerm r w save).regs = (s.setReg r w).regs := by
  unfold State.writePerm
  dsimp only
  split <;> rfl

theorem writePerm_reg (s : State) (r : Reg) (w : Word) (save : Bool) : (s.writePerm r w save).reg r = w :=
  (reg_congr (by rw [writePerm_regs])).trans (State.reg_setReg_self s r w)

section
variable {s : State} {lc : Nat} (h : s.blockReached lc)
include h

theorem permHost (hl : s.loaded = true) (data : Word) : s.writeCore .host (.pmuPerm lc) data
    = s.writePerm (.pmuPerm lc)
      (regNew (.pmuPerm lc) (s.reg (.pmuPerm lc)) data fullMask (s.locked (.pmuPerm lc))) (bitAt data 2) := by
  obtain ⟨-, -, -, hrec, -⟩ := id h
  have hset : decide ((fullMask - (fullMask &&& 0)) / 2 ^ 2 % 2 = 1) = true := by decide
  rw [writeCore_pmuPerm h data (mayWrite_host hrec hl _), lockBits, if_pos rfl, State.applyReg]
  dsimp only
  rw [hset]
  rfl

theorem permFirmware (data : Word) : ∃ save, s.writeCore .firmware (.pmuPerm lc) data
    = s.writePerm (.pmuPerm lc) (regNew (.pmuPerm lc) (s.reg (.pmuPerm lc)) data
      (fullMask - (fullMask &&& lockBits .firmware (.pmuPerm lc))) (s.locked (.pmuPerm lc))) save := by
  obtain ⟨-, -, -, hrec, -⟩ := id h
  exact ⟨_, writeCore_pmuPerm h data (mayWrite_firmware hrec _)⟩

end

theorem bitAt_setFld_self {w : Word} {i : Nat} (hi : i < 64) : bitAt (setFld w i 1 1) i = true := by
  rw [← fld_one_eq_one, fld_setFld_self _ _ _ _ (by omega)]
  rfl

theorem locked_pmuPerm_of_zero {s : State} {lc : Nat} (h : s.rf (.pmuPerm lc) 1 1 = 0) :
    s.locked (.pmuPerm lc) = false := by
  simp [State.locked, h]

section
variable (s : State) (lc : Nat) (data : Word)

theorem permWord_user (h : s.locked (.pmuPerm lc) = false) :
    fld (regNew (.pmuPerm lc) (s.reg (.pmuPerm lc)) data fullMask (s.locked (.pmuPerm lc))) 0 1 = fld data 0 1 := by
  have hf : (⟨0, 1, .rwl, fun _ => true⟩ : WFld) ∈ (Reg.pmuPerm lc).wflds := by simp [Reg.wflds]
  rw [h]
  exact (fld_regNew hf ..).trans ((wfldNew_rwl (wflds_le hf) rfl).trans rfl)

theorem permWord_lock :
    fld (regNew (.pmuPerm lc) (s.reg (.pmuPerm lc)) data fullMask (s.locked (.pmuPerm lc))) 1 1 = 1
      ↔ bitAt data 1 = true ∨ s.rf (.pmuPerm lc) 1 1 = 1 := by
  have hf : (⟨1, 1, .w1s, fun _ => true⟩ : WFld) ∈ (Reg.pmuPerm lc).wflds := by simp [Reg.wflds]
  rw [fld_regNew hf, wfldNew_w1s (wflds_le hf) rfl]
  exact fld_one_or_eq_one

theorem permWord_locked (h1 : s.rf (.pmuPerm lc) 1 1 = 1) (hs : s.sec.scopes / 2 % 2 = 0) :
    regNew (.pmuPerm lc) (s.reg (.pmuPerm lc)) data fullMask (s.locked (.pmuPerm lc)) = s.reg (.pmuPerm lc) := by
  have hl : s.locked (.pmuPerm lc) = true := by simp [State.locked, h1, hs]
  have hset : fld (s.reg (.pmuPerm lc)) 1 1 = 1 := h1
  rw [hl]
  exact regNew_of_locked (by simp [Reg.wflds, hset])

end

/-! ### The obligation's parts -/

section
variable {s : State} {lc : Nat} {req : Requester} (h : s.blockReached lc) (hb : req ≠ .bmc)
  (hopen : s.pmuOpen req (.pmuSctrl lc) = true) (w : Word)
include h hb hopen

theorem exec_samplingEnable :
    exec (.pmuSamplingEnable lc req w) s = .next (s.writeSctrl lc (s.sctrlWord lc (setFld w 0 1 1)) true) := by
  rw [exec_samplingEnable_eq, writeCore_pmuSctrl_open h hb hopen]

theorem exec_samplingDisable :
    exec (.pmuSamplingDisable lc req w) s = .next (s.writeSctrl lc (s.sctrlWord lc (setFld w 0 1 0)) true) := by
  rw [exec_samplingDisable_eq, writeCore_pmuSctrl_open h hb hopen]

end

theorem sctrlWord_on (s : State) (lc : Nat) (w : Word) : bitAt (s.sctrlWord lc (setFld w 0 1 1)) 0 = true :=
  fld_one_eq_one.mp (sctrlWord_en s lc w 1)

theorem sctrlWord_off (s : State) (lc : Nat) (w : Word) : bitAt (s.sctrlWord lc (setFld w 0 1 0)) 0 = false := by
  have h0 := sctrlWord_en s lc w 0
  rw [fld_one] at h0
  exact Bool.eq_false_iff.mpr fun h1 => by simp [h1] at h0

/-- The fields of PMU_SCTRL once its new word stands in it. -/
theorem setSctrl_fields {s t : State} {lc v : Nat} {w : Word}
    (ht : mapGet? t.regs (Reg.pmuSctrl lc).addr = some (s.sctrlWord lc (setFld w 0 1 v))) :
    t.rf (.pmuSctrl lc) 0 1 = v % 2 ∧ t.rf (.pmuSctrl lc) 8 7 = fld w 8 7
      ∧ t.rf (.pmuSctrl lc) 32 16 = if 1 ≤ fld w 32 16 then fld w 32 16 else s.rf (.pmuSctrl lc) 32 16 := by
  have hr : t.reg (.pmuSctrl lc) = s.sctrlWord lc (setFld w 0 1 v) := by
    unfold State.reg mapGet
    rw [ht]
    rfl
  simp only [State.rf, hr]
  exact ⟨sctrlWord_en .., sctrlWord_trig .., sctrlWord_period ..⟩

theorem samplingOff_no_spill {s : State} {lc : Nat} {req : Requester} (h : s.blockReached lc) (hb : req ≠ .bmc)
    (hopen : s.pmuOpen req (.pmuSctrl lc) = true) (w : Word) (hno : (s.pmu lc).buf = [] ∨ s.windowOpen lc = true) :
    ∃ t, exec (.pmuSamplingDisable lc req w) s = .next t ∧ t = { s with regs := t.regs }
      ∧ OnlyReg s t (.pmuSctrl lc) ∧ t.rf (.pmuSctrl lc) 0 1 = 0 ∧ t.rf (.pmuSctrl lc) 8 7 = fld w 8 7
      ∧ t.rf (.pmuSctrl lc) 32 16 = if 1 ≤ fld w 32 16 then fld w 32 16 else s.rf (.pmuSctrl lc) 32 16 := by
  refine ⟨s.setReg (.pmuSctrl lc) (s.sctrlWord lc (setFld w 0 1 0)), ?_, rfl, setReg_onlyReg _ _ _,
    setSctrl_fields (v := 0) (setReg_regs_self ..)⟩
  rw [exec_samplingDisable h hb hopen, writeSctrl_stops_no_spill (sctrlWord_off s lc w) hno]

theorem samplingOff_spill {s : State} {lc : Nat} {req : Requester} (h : s.blockReached lc) (hb : req ≠ .bmc)
    (hopen : s.pmuOpen req (.pmuSctrl lc) = true) (w : Word) (hwin : s.windowOpen lc = false)
    (h1 : 1 ≤ (s.pmu lc).buf.length) (h128 : (s.pmu lc).buf.length ≤ 128) :
    ∃ t, exec (.pmuSamplingDisable lc req w) s = .next t ∧ t.cores = s.cores ∧ t.rf (.pmuSctrl lc) 0 1 = 0
      ∧ Stores s t (hodKey (s.siteOf lc) (s.rf (.pmuSpill lc) 0 16 + (s.pmu lc).ring) 0)
        ((s.pmu lc).buf.flatMap Sample.bytes)
      ∧ (t.pmu lc).buf = []
      ∧ t.rf (.pmuSstat lc) 32 32 = (s.rf (.pmuSstat lc) 32 32 + ((s.pmu lc).buf.length + 7) / 8) % 2 ^ 32 := by
  obtain ⟨hlc, -, -, -, -⟩ := id h
  let u := s.setReg (.pmuSctrl lc) (s.sctrlWord lc (setFld w 0 1 0))
  have hsp : Spilled u (u.spill lc 128) lc := spill_spilled u hlc
  have hpmu : u.pmu lc = s.pmu lc := pmu_setSctrl ..
  have hsite : u.siteOf lc = s.siteOf lc := siteOf_setSctrl ..
  have hrow : u.rf (.pmuSpill lc) 0 16 = s.rf (.pmuSpill lc) 0 16 := State.rf_setReg_ne _ _ _ _ (spill_ne_sctrl lc)
  have hstat : u.rf (.pmuSstat lc) 32 32 = s.rf (.pmuSstat lc) 32 32 :=
    State.rf_setReg_ne _ _ _ _ (sctrl_ne_sstat lc).symm
  have hen : u.rf (.pmuSctrl lc) 0 1 = 0 := (setSctrl_fields (v := 0) (setReg_regs_self ..)).1
  have hctl : mapGet? (u.spill lc 128).regs (Reg.pmuSctrl lc).addr = mapGet? u.regs (Reg.pmuSctrl lc).addr :=
    hsp.regs _ (not_countAddr_offset (o := 0x11A0) (by decide)) (not_lathCountAddr_core hlc (o := 0x11A0) (by decide))
  refine ⟨u.spill lc 128, ?_, hsp.cores, (rf_congr hctl _ _).trans hen, ?_, ?_, ?_⟩
  · rw [exec_samplingDisable h hb hopen, writeSctrl_stops_spill hlc (sctrlWord_off s lc w) hwin h1 h128]
  · have hst := hsp.stores
    rw [hpmu, hsite, hrow, List.take_of_length_le h128] at hst
    exact hst
  · rw [hsp.pmu, hpmu]
    exact List.drop_of_length_le h128
  · rw [hsp.count, hpmu, hstat, Nat.min_eq_left h128]

theorem samplingOn_ok {s : State} {lc : Nat} {req : Requester} (h : s.blockReached lc) (hb : req ≠ .bmc)
    (hopen : s.pmuOpen req (.pmuSctrl lc) = true) (w : Word) (hok : s.ringOk lc (s.reg (.pmuSpill lc)) = true) :
    ∃ t, exec (.pmuSamplingEnable lc req w) s = .next t ∧ t = { s with regs := t.regs, pmus := t.pmus }
      ∧ OnlyReg s t (.pmuSctrl lc) ∧ t.rf (.pmuSctrl lc) 0 1 = 1
      ∧ (t.rf (.pmuSctrl lc) 8 7 = fld w 8 7
        ∧ t.rf (.pmuSctrl lc) 32 16 = if 1 ≤ fld w 32 16 then fld w 32 16 else s.rf (.pmuSctrl lc) 32 16)
      ∧ t.pmu lc = { s.pmu lc with count := 0, ring := 0 } := by
  obtain ⟨hen, hfields⟩ := setSctrl_fields (v := 1)
    (setReg_regs_self s (.pmuSctrl lc) (s.sctrlWord lc (setFld w 0 1 1)))
  refine ⟨(s.setReg (.pmuSctrl lc) (s.sctrlWord lc (setFld w 0 1 1))).setPmu lc { s.pmu lc with count := 0, ring := 0 },
    ?_, rfl, setReg_onlyReg _ _ _, hen, hfields, pmu_setPmu_self ..⟩
  rw [exec_samplingEnable h hb hopen, writeSctrl_starts (sctrlWord_on s lc w) hok]

theorem samplingOn_bad_ring {s : State} {lc : Nat} {req : Requester} (h : s.blockReached lc) (hb : req ≠ .bmc)
    (hopen : s.pmuOpen req (.pmuSctrl lc) = true) (w : Word) (hok : ¬ s.ringOk lc (s.reg (.pmuSpill lc)) = true) :
    ∃ t, exec (.pmuSamplingEnable lc req w) s = .next t ∧ t = { s with regs := t.regs }
      ∧ t.rf (.pmuSctrl lc) 0 1 = 0 ∧ t.rf (.pmuSstat lc) 15 1 = 1 := by
  refine ⟨(s.setReg (.pmuSctrl lc) (setFld (s.sctrlWord lc (setFld w 0 1 1)) 0 1 0)).setRf (.pmuSstat lc) 15 1 1,
    ?_, rfl, ?_, State.rf_setRf_self _ _ _ _ _ (by decide)⟩
  · rw [exec_samplingEnable h hb hopen, writeSctrl_bad_ring (sctrlWord_on s lc w) hok]
  · rw [State.rf_setRf_ne _ _ _ _ _ _ (sctrl_ne_sstat lc), State.rf, State.reg_setReg_self,
      fld_setFld_self _ _ _ _ (by decide)]
    rfl

theorem sampleSpill_part {s : State} {lc : Nat} (hlc : lc < 144) :
    (s.windowOpen lc = true → exec (.sampleSpill lc) s = .next s)
    ∧ ((s.pmu lc).buf.length < 128 → (s.rf (.pmuSctrl lc) 0 1 = 1 ∨ (s.pmu lc).buf = []) →
      exec (.sampleSpill lc) s = .next s)
    ∧ (s.windowOpen lc = false →
      (128 ≤ (s.pmu lc).buf.length ∨ ((s.pmu lc).buf ≠ [] ∧ s.rf (.pmuSctrl lc) 0 1 = 0)) →
      ∃ t, exec (.sampleSpill lc) s = .next t ∧ Spilled s t lc) := by
  refine ⟨fun hwin => exec_sampleSpill_not_due ?_, fun hlt hheld => exec_sampleSpill_not_due ?_, fun hwin hdue => ?_⟩
  · rw [spillDue_iff, hwin]
    simp
  · rw [spillDue_iff]
    rintro ⟨h128 | ⟨hpos, hoff⟩, -⟩
    · omega
    · rcases hheld with hon | hnil
      · omega
      · simp [hnil] at hpos
  · refine ⟨_, exec_sampleSpill_due (spillDue_iff.mpr ⟨?_, hwin⟩), spill_spilled s hlc⟩
    exact hdue.imp id fun ⟨hne, hoff⟩ => ⟨List.length_pos_of_ne_nil hne, hoff⟩

section
variable {s : State} {lc : Nat} (h : s.blockReached lc) (w : Word)
include h

theorem perm_core (k : Nat) :
    exec (.pmuPermSave lc (.core k) w) s = .next s ∧ exec (.pmuPermLock lc (.core k) w) s = .next s := by
  rw [exec_permSave_eq, exec_permLock_eq, writeCore_pmuPerm_core h, writeCore_pmuPerm_core h]
  exact ⟨rfl, rfl⟩

theorem pmu_core_closed (k : Nat) (hu : s.rf (.pmuPerm lc) 0 1 = 0) (hs : s.sec.scopes % 4 = 0) :
    exec (.pmuMarkWrite lc (.core k) w) s = .next s ∧ exec (.pmuSamplingEnable lc (.core k) w) s = .next s
      ∧ exec (.pmuSamplingDisable lc (.core k) w) s = .next s := by
  obtain ⟨hmark, hsctrl⟩ := mayWrite_pmu_core (k := k) hu hs
  rw [exec_pmuMarkWrite_eq, exec_samplingEnable_eq, exec_samplingDisable_eq, writeCore_pmuMark h, writeCore_pmuSctrl h,
    writeCore_pmuSctrl h, hmark, hsctrl]
  exact ⟨rfl, rfl, rfl⟩

theorem permSave_open (hl : s.loaded = true) (h0 : s.rf (.pmuPerm lc) 1 1 = 0) :
    ∃ t, exec (.pmuPermSave lc .host w) s = .next t
      ∧ t = { s with regs := t.regs, flash := { s.flash with user := bitAt w 0 } } ∧ OnlyReg s t (.pmuPerm lc)
      ∧ t.rf (.pmuPerm lc) 0 1 = fld w 0 1 ∧ (t.rf (.pmuPerm lc) 1 1 = 1 ↔ bitAt w 1 = true) := by
  let data := setFld w 2 1 1
  let v := regNew (.pmuPerm lc) (s.reg (.pmuPerm lc)) data fullMask (s.locked (.pmuPerm lc))
  have hlow (i : Nat) (hi : i < 2) : fld data i 1 = fld w i 1 := fld_setFld_ne _ _ _ _ _ _ (by omega)
  have huser : fld v 0 1 = fld w 0 1 := (permWord_user s lc data (locked_pmuPerm_of_zero h0)).trans (hlow 0 (by decide))
  have hlock : fld v 1 1 = 1 ↔ bitAt w 1 = true := by
    rw [permWord_lock, ← fld_one_eq_one, hlow 1 (by decide), fld_one_eq_one, h0]
    simp
  have hbit : bitAt v 0 = bitAt w 0 := by rw [Bool.eq_iff_iff, ← fld_one_eq_one, huser, fld_one_eq_one]
  have ht : s.writePerm (.pmuPerm lc) v true
      = { s.setReg (.pmuPerm lc) v with flash := { s.flash with user := bitAt w 0 } } := by
    unfold State.writePerm
    rw [h0, ← hbit]
    rfl
  refine ⟨s.writePerm (.pmuPerm lc) v true, ?_, ?_, fun a ha => ?_, ?_, ?_⟩
  · rw [exec_permSave_eq, permHost h hl, bitAt_setFld_self (by decide)]
  · rw [ht]
    rfl
  · rw [writePerm_regs]
    exact setReg_onlyReg s _ _ a ha
  · rw [State.rf, writePerm_reg, huser]
  · rw [State.rf, writePerm_reg, hlock]

theorem permSave_locked (hl : s.loaded = true) (h1 : s.rf (.pmuPerm lc) 1 1 = 1) (hs : s.sec.scopes / 2 % 2 = 0) :
    ∃ t, exec (.pmuPermSave lc .host w) s = .next t ∧ t = { s with regs := t.regs }
      ∧ t.reg (.pmuPerm lc) = s.reg (.pmuPerm lc) := by
  refine ⟨s.writePerm (.pmuPerm lc) (s.reg (.pmuPerm lc)) true, ?_, ?_, writePerm_reg ..⟩
  · rw [exec_permSave_eq, permHost h hl, bitAt_setFld_self (by decide), permWord_locked s lc _ h1 hs]
  · unfold State.writePerm
    rw [h1]
    rfl

theorem permLock_host (hl : s.loaded = true) : ∃ t, exec (.pmuPermLock lc .host w) s = .next t
    ∧ OnlyReg s t (.pmuPerm lc) ∧ t.rf (.pmuPerm lc) 1 1 = 1 := by
  refine ⟨_, (exec_permLock_eq ..).trans (congrArg _ (permHost h hl _)), fun a ha => ?_, ?_⟩
  · rw [writePerm_regs]
    exact setReg_onlyReg s _ _ a ha
  · rw [State.rf, writePerm_reg, permWord_lock]
    exact .inl (bitAt_setFld_self (by decide))

theorem permLock_firmware : ∃ t, exec (.pmuPermLock lc .firmware w) s = .next t
    ∧ t.rf (.pmuPerm lc) 1 1 = s.rf (.pmuPerm lc) 1 1 := by
  obtain ⟨save, hw⟩ := permFirmware h (setFld w 1 1 1)
  refine ⟨_, (exec_permLock_eq ..).trans (congrArg _ hw), ?_⟩
  have hmask : (fullMask - (fullMask &&& lockBits .firmware (.pmuPerm lc))).testBit 1 = false := by
    rw [show lockBits .firmware (.pmuPerm lc) = 2 from rfl]
    decide
  rw [State.rf, writePerm_reg, State.rf, fld_one, fld_one, bitAt_regNew_unmasked _ (by decide) hmask]

end

/-- Settles O56: a locked register keeps its fields because each of them is RWL or its LOCK bit, and every spill is one
that `Spilled` describes. -/
theorem locksCountersAndSamples : Obligations.LocksCountersAndSamples := by
  unfold Obligations.LocksCountersAndSamples
  refine ⟨fun s w hrec hl => ?_, fun s lc req w h hb hopen => ?_, fun s lc req w h hb hopen => ?_, fun s lc hlc => ?_,
    fun s lc w h hl => ?_⟩
  · exact ⟨⟨_, exec_vcPolicy_host hrec hl w, written_frame .., written_onlyReg _ _ _ _, vcPolicy_host s w⟩,
      ⟨_, exec_vcPolicy_firmware hrec w, written_unmasked (by decide) (by decide)⟩,
      ⟨_, exec_scrCfg_host hrec hl w, written_frame .., written_onlyReg _ _ _ _, scrCfg_host s w⟩,
      ⟨_, exec_scrCfg_firmware hrec w, written_unmasked (by decide) (by decide)⟩⟩
  · refine ⟨fun hoff => ?_, fun hon hl hn => ?_, fun hon hl hn => ?_, fun hon hn => ?_⟩
    · rw [exec_pmuMarkWrite h hb hopen, mark_off w hoff]
    · rw [exec_pmuMarkWrite h hb hopen, mark_on w hon, sample_fits _ hl hn]
    · rw [exec_pmuMarkWrite h hb hopen, mark_on w hon, sample_after_lost _ hl hn]
      rfl
    · exact ⟨_, exec_pmuMarkWrite h hb hopen w, by rw [mark_on w hon]; exact sample_dropped _ hn⟩
  · exact ⟨fun hok => samplingOn_ok h hb hopen w (ringOk_iff.mpr hok),
      fun hok => samplingOn_bad_ring h hb hopen w (mt ringOk_iff.mp hok),
      fun hnil => samplingOff_no_spill h hb hopen w (.inl hnil),
      fun hwin => samplingOff_no_spill h hb hopen w (.inr hwin),
      fun hwin h1 h128 => samplingOff_spill h hb hopen w hwin h1 h128⟩
  · obtain ⟨hopenWin, hwaits, hdue⟩ := sampleSpill_part (s := s) hlc
    refine ⟨hopenWin, hwaits, fun hwin hd => ?_⟩
    obtain ⟨t, ht, hsp⟩ := hdue hwin hd
    exact ⟨t, ht, hsp.cores, hsp.only, hsp.regs, hsp.stores, hsp.pmu, hsp.count⟩
  · exact ⟨perm_core h w, pmu_core_closed h w, permSave_open h w hl, permSave_locked h w hl, permLock_host h w hl,
      permLock_firmware h w⟩

end Sys2Proof.Machine
end

