-- ==== Sys2Proof/Proofs/HostReadsAndWrites.lean ====
section
/-!
O49. The statement speaks of every state, also of one whose list of slices names a site beyond the 313 Lath blocks: a host read
of a row of that slice counts in a register that no Lath block has, so its frame fails.
-/

namespace Sys2Proof.Machine

/-- A started device whose only slice is named as site 400, where a counter is enabled and selects the rows read. -/
def strayed : State := { State.reset with
  slices := [400]
  regs := mapSet (mapSet (mapSet [] (Reg.mcStart).addr 0x100) (Reg.lathCtrl 400).addr 1) (Reg.lathEvsel 400 0).addr 1 }

theorem strayed_barsOpen : strayed.barsOpen = true := by decide +kernel

theorem strayed_resolve : strayed.resolve none (0x10000000000 + 0) = .hod (hodKey 400 0 0) := by decide +kernel

theorem strayed_unpoisoned : strayed.runPoisoned (hodKey 400 0 0 / 64 * 64) 64 = false := by decide +kernel

/-- The counter of site 400 after a step that goes on. -/
def strayCount : Host.Outcome State Fault Refusal → Option Word
  | .next t => mapGet? t.regs (Reg.lathCnt 400 0).addr
  | _ => none

theorem strayed_before : strayCount (.next strayed) = none := by decide +kernel

/-- The read of eight bytes of the hod is counted at site 400. -/
theorem strayed_counts : strayCount (exec (.barRead 4 0 8 []) strayed) = some 1 := by decide +kernel

/-- Site 400 stands behind the 313 Lath blocks. -/
theorem not_lathCountAddr_400 : ¬ LathCountAddr (Reg.lathCnt 400 0).addr := by
  rintro ⟨b, hb, h | ⟨i, hi, h⟩⟩
  all_goals
    unfold Reg.addr at h
    dsimp only at h
    omega

/-- Refutes O49: of the state `strayed`, a read of the hod raises a register outside the counters of the Lath blocks, which
LathFrame says keeps its word. -/
theorem not_hostReadsAndWrites : ¬ Obligations.HostReadsAndWrites := by
  unfold Obligations.HostReadsAndWrites
  rintro ⟨-, hod, -⟩
  obtain ⟨hread, -⟩ := hod strayed 0 8 (hodKey 400 0 0) strayed_barsOpen (by decide) (by decide) (by decide) strayed_resolve
  obtain ⟨t, ht, -, -, -, -, hclean, -⟩ := hread false strayed_unpoisoned
  obtain ⟨-, hframe⟩ := hclean rfl
  have hkept : strayCount (.next t) = strayCount (.next strayed) := hframe _ not_lathCountAddr_400
  rw [← ht, strayed_counts, strayed_before] at hkept
  cases hkept

end Sys2Proof.Machine
end

