-- ==== Sys2Proof/Proofs/IssuedCore.lean ====
section
/-!
SUPPORT for O2 to O17. The core that an instruction acts on once its issue has been noted: the core before, but for the results
that come later and the order of its instruction-cache lines.
-/

namespace Sys2Proof.Machine

/-- A core whose issue has been noted: which results come later is settled, and the line of the PC is the most recently
used. -/
def Core.issued (c : Core) (l : List Late) : Core := { c with late := l }.touch

/-- An issue changes the list of late results and the instruction cache alone. -/
theorem issued_eq (c : Core) (l : List Late) : c.issued l = { c with late := l, ic := (c.issued l).ic } := by
  unfold Core.issued Core.touch
  split <;> rfl

theorem issued_touch (c : Core) (l : List Late) : c.issued l = { c.touch with late := l } := late_touch c l

section fields
variable (c : Core) (l : List Late)

@[simp] theorem issued_rx (r : BitVec 5) : (c.issued l).rx r = c.rx r := touch_rx _ r
@[simp] theorem issued_rd (n : BitVec 4) : (c.issued l).rd n = c.rd n := by rw [issued_eq]; rfl
@[simp] theorem issued_tick (n : BitVec 6) : (c.issued l).tick n = c.tick n := by rw [issued_eq]; rfl
@[simp] theorem issued_q (u : UnitId) : (c.issued l).q u = c.q u := by rw [issued_eq]; cases u <;> rfl
@[simp] theorem issued_x : (c.issued l).x = c.x := by rw [issued_eq]
@[simp] theorem issued_d : (c.issued l).d = c.d := by rw [issued_eq]
@[simp] theorem issued_tk : (c.issued l).tk = c.tk := by rw [issued_eq]
@[simp] theorem issued_sum : (c.issued l).sum = c.sum := by rw [issued_eq]
@[simp] theorem issued_seed : (c.issued l).seed = c.seed := by rw [issued_eq]
@[simp] theorem issued_ord : (c.issued l).ord = c.ord := by rw [issued_eq]
@[simp] theorem issued_pc : (c.issued l).pc = c.pc := by rw [issued_eq]
@[simp] theorem issued_st : (c.issued l).st = c.st := by rw [issued_eq]
@[simp] theorem issued_stall : (c.issued l).stall = c.stall := by rw [issued_eq]
@[simp] theorem issued_loads : (c.issued l).loads = c.loads := by rw [issued_eq]
@[simp] theorem issued_stores : (c.issued l).stores = c.stores := by rw [issued_eq]
@[simp] theorem issued_lost : (c.issued l).lost = c.lost := by rw [issued_eq]
@[simp] theorem issued_excCause : (c.issued l).excCause = c.excCause := by rw [issued_eq]
@[simp] theorem issued_bankA : (c.issued l).bankA = c.bankA := by rw [issued_eq]
@[simp] theorem issued_bankB : (c.issued l).bankB = c.bankB := by rw [issued_eq]
@[simp] theorem issued_late : (c.issued l).late = l := by rw [issued_eq]

@[simp] theorem retarget_rd (i : Flik) (n : BitVec 4) : (c.retarget i).rd n = c.rd n := rfl
@[simp] theorem retarget_tick (i : Flik) (n : BitVec 6) : (c.retarget i).tick n = c.tick n := rfl
@[simp] theorem retarget_sum (i : Flik) : (c.retarget i).sum = c.sum := rfl

end fields

/-- An instruction that writes nothing that a load would write passes no load. -/
@[simp] theorem passed_none (ls : List Load) : passed ls none none = ls := by
  unfold passed
  conv_rhs => rw [← List.map_id ls]
  refine List.map_congr_left fun l _ => ?_
  cases l.dst <;> rfl

/-- An instruction's destination is taken from the loads before it, and nothing else of the core changes. -/
theorem retarget_eq (c : Core) (i : Flik) : c.retarget i = { c with loads := passed c.loads i.xdest i.ddest } := by
  rw [← retarget_loads]
  rfl

theorem retarget_eq_self {c : Core} {i : Flik} (hx : i.xdest = none) (hd : i.ddest = none) : c.retarget i = c := by
  rw [retarget_eq, hx, hd, passed_none]

/-- Where an instruction may issue, its core is in force, runs and waits for nothing. -/
theorem canIssue_spec {s : State} {lc : Nat} {i : Flik} (h : s.canIssue lc i = true) :
    s.valid lc = true ∧ s.failed lc = false ∧ s.clocked lc = true ∧ (s.core lc).st = .running ∧
      (s.core lc).stall = .none ∧ ((s.core lc).icWord (s.core lc).pc).bind decode = some i := by
  simp only [State.canIssue, Bool.and_eq_true, Bool.not_eq_true', decide_eq_true_iff] at h
  obtain ⟨⟨⟨⟨⟨⟨hval, hfail⟩, hclk⟩, hrun⟩, hstall⟩, hdec⟩, -⟩ := h
  exact ⟨hval, hfail, hclk, hrun, hstall, hdec⟩

theorem canIssue_running {s : State} {lc : Nat} {i : Flik} (h : s.canIssue lc i = true) : (s.core lc).st = .running := by
  obtain ⟨-, -, -, hrun, -⟩ := canIssue_spec h
  exact hrun

/-- Everything the issue of an instruction does beside its own effect. -/
theorem noteIssue_issued (lc : Nat) (s : State) :
    CoreFrame lc s (s.noteIssue lc) ∧ ∃ l, (s.noteIssue lc).core lc = (s.core lc).issued l := noteIssue_spec lc s

/-- Everything a scalar instruction does where it may issue. -/
theorem scalar_issued {s : State} {lc : Nat} {i : Flik} (f : Core → Core) (h : s.canIssue lc i = true) :
    CoreFrame lc s (s.scalar lc i f) ∧ ∃ l m,
      (s.scalar lc i f).core lc = { (f (((s.core lc).issued l).retarget i)).next with late := m } := scalar_spec f h

/-- Everything a scalar instruction with a result does where it may issue. -/
theorem scalarX_issued {s : State} {lc : Nat} {i : Flik} {rd : BitVec 5} (v : Core → Word) (P : Word → Prop)
    (h : s.canIssue lc i = true) (hx : i.xdest = some rd) (hd : i.ddest = none)
    (hv : ∀ l, P (v (((s.core lc).issued l).retarget i))) :
    CoreFrame lc s (s.scalarX lc i rd v) ∧ OnlyX (s.core lc) ((s.scalarX lc i rd v).core lc) rd ∧
      WritesX (s.core lc) ((s.scalarX lc i rd v).core lc) rd P := scalarX_spec v P h hx hd hv

end Sys2Proof.Machine
end

