-- ==== Sys2Proof/Proofs/IntegerResults.lean ====
section
/-!
O2, O3. The results of the integer instructions: what the operations on words compute, as numbers.
-/

namespace Sys2Proof.Machine

/-! ### The command of an instruction is that instruction with its operation -/

theorem exec_opCmd (s : State) (lc : Nat) (f : AluOp) (rd rs1 rs2 : BitVec 5) :
    exec (opCmd f lc rd rs1 rs2) s
      = .next (s.scalarX lc (.op f rd rs1 rs2) rd fun c => alu f (c.rx rs1) (c.rx rs2)) := by
  cases f <;> rfl

theorem exec_immCmd (s : State) (lc : Nat) (f : ImmOp) (rd rs1 : BitVec 5) (imm : BitVec 15) :
    exec (immCmd f lc rd rs1 imm) s = .next (s.scalarX lc (.opi f rd rs1 imm) rd fun c => aluImm f (c.rx rs1) imm) := by
  cases f <;> rfl

theorem exec_shCmd (s : State) (lc : Nat) (f : ShOp) (rd rs1 : BitVec 5) (sh : BitVec 6) :
    exec (shCmd f lc rd rs1 sh) s = .next (s.scalarX lc (.shi f rd rs1 sh) rd fun c => shiftImm f (c.rx rs1) sh) := by
  cases f <;> rfl

/-! ### Comparisons, shifts and products as numbers -/

theorem flag_eq (b : Bool) : flag b = if b = true then 1 else 0 := rfl

theorem toInt_sshiftRight_div (a : Word) (n : Nat) : (a.sshiftRight n).toInt = a.toInt / 2 ^ n := by
  rw [BitVec.toInt_sshiftRight, Int.shiftRight_eq_div_pow, Nat.cast_pow, Nat.cast_ofNat]

/-- The upper half of a number of 128 bits, read as signed. -/
theorem toInt_upperHalf (x : BitVec 128) : (x.extractLsb' 64 64).toInt = x.toInt / 2 ^ 64 := by
  have hx := x.isLt
  rw [BitVec.toInt_eq_toNat_cond, BitVec.toInt_eq_toNat_cond, BitVec.extractLsb'_toNat, Nat.shiftRight_eq_div_pow]
  split <;> split <;> omega

/-- A product of two words fits in 128 bits. -/
theorem toInt_mul_signExtend (a b : Word) : (a.signExtend 128 * b.signExtend 128).toInt = a.toInt * b.toInt := by
  rw [BitVec.toInt_mul, BitVec.toInt_signExtend_of_le (by decide), BitVec.toInt_signExtend_of_le (by decide)]
  have ha : |a.toInt| ≤ 2 ^ 63 := abs_le.mpr ⟨by have := a.le_toInt; omega, by have := a.toInt_lt; omega⟩
  have hb : |b.toInt| ≤ 2 ^ 63 := abs_le.mpr ⟨by have := b.le_toInt; omega, by have := b.toInt_lt; omega⟩
  have hab : |a.toInt * b.toInt| ≤ 2 ^ 63 * 2 ^ 63 := by
    rw [abs_mul]
    exact mul_le_mul ha hb (abs_nonneg _) (by decide)
  obtain ⟨hlo, hhi⟩ := abs_le.mp hab
  exact Int.bmod_eq_of_le (by omega) (by omega)

theorem mulhu_toNat (a b : Word) :
    ((a.setWidth 128 * b.setWidth 128).extractLsb' 64 64).toNat = a.toNat * b.toNat / 2 ^ 64 := by
  have hab : a.toNat * b.toNat < 2 ^ 64 * 2 ^ 64 := Nat.mul_lt_mul'' a.isLt b.isLt
  rw [BitVec.extractLsb'_toNat, BitVec.toNat_mul, BitVec.toNat_setWidth_of_le (by decide),
    BitVec.toNat_setWidth_of_le (by decide), Nat.shiftRight_eq_div_pow, Nat.mod_eq_of_lt (by omega),
    Nat.mod_eq_of_lt (by omega)]

theorem sdiv_eq_ofInt (a b : Word) : a.sdiv b = BitVec.ofInt 64 (a.toInt.tdiv b.toInt) :=
  BitVec.eq_of_toInt_eq (by rw [BitVec.toInt_sdiv, BitVec.toInt_ofInt])

theorem srem_eq_ofInt (a b : Word) : a.srem b = BitVec.ofInt 64 (a.toInt.tmod b.toInt) := by
  rw [← BitVec.toInt_srem, BitVec.ofInt_toInt]

/-! ### The operations mean what the table says -/

/-- Every OP function computes what the table of R43 and R44 says. -/
theorem alu_means (f : AluOp) (a b : Word) : AluMeans f a b (alu f a b) := by
  cases f with
  | add => exact BitVec.toNat_add a b
  | sub => exact (BitVec.toNat_sub a b).trans (by rw [Nat.add_comm])
  | and => exact fun i => BitVec.getLsbD_and
  | or => exact fun i => BitVec.getLsbD_or
  | xor => exact fun i => BitVec.getLsbD_xor
  | sll => exact (BitVec.toNat_shiftLeft ..).trans (by rw [Nat.shiftLeft_eq])
  | srl => exact (BitVec.toNat_ushiftRight ..).trans (Nat.shiftRight_eq_div_pow ..)
  | sra => exact toInt_sshiftRight_div ..
  | slt => simp [AluMeans, alu, flag_eq, BitVec.slt_iff_toInt_lt]
  | sltu => simp [AluMeans, alu, flag_eq, BitVec.ult_iff_toNat_lt]
  | min =>
    simp only [AluMeans, alu, BitVec.sle_iff_toInt_le]
    split <;> omega
  | max =>
    simp only [AluMeans, alu, BitVec.sle_iff_toInt_le]
    split <;> omega
  | minu =>
    simp only [AluMeans, alu, BitVec.ule_iff_toNat_le]
    split <;> omega
  | maxu =>
    simp only [AluMeans, alu, BitVec.ule_iff_toNat_le]
    split <;> omega
  | mul => exact BitVec.toNat_mul a b
  | mulh => exact (toInt_upperHalf _).trans (by rw [toInt_mul_signExtend])
  | mulhu => exact mulhu_toNat a b
  | div =>
    simp only [AluMeans, alu]
    split
    · rfl
    · exact sdiv_eq_ofInt a b
  | divu =>
    simp only [AluMeans, alu]
    split
    · rfl
    · exact BitVec.toNat_udiv
  | rem =>
    simp only [AluMeans, alu]
    split
    · rfl
    · exact srem_eq_ofInt a b
  | remu =>
    simp only [AluMeans, alu]
    split
    · rfl
    · exact BitVec.toNat_umod

/-- A sign-extended immediate is its signed value. -/
theorem sext_eq_ofInt {n : Nat} (v : BitVec n) : sext v = BitVec.ofInt 64 v.toInt := rfl

/-- An immediate form combines as the OP instruction of R46. -/
theorem aluImm_eq (f : ImmOp) (a : Word) (imm : BitVec 15) :
    aluImm f a imm = alu (immAlu f) a (BitVec.ofInt 64 imm.toInt) := by
  cases f <;> rfl

/-- A shift by an amount below 64 is the shift of R47 by a word that holds it. -/
theorem shiftImm_eq (f : ShOp) (a : Word) (sh : BitVec 6) :
    shiftImm f a sh = alu (shAlu f) a (BitVec.ofNat 64 sh.toNat) := by
  have hsh : (BitVec.ofNat 64 sh.toNat).toNat % 64 = sh.toNat := by
    rw [BitVec.toNat_ofNat]
    have := sh.isLt
    omega
  cases f <;> simp only [shiftImm, shAlu, alu, hsh]

/-- LUI's value fits in a word. -/
theorem lui_toInt (imm : BitVec 20) : (sext imm <<< 12).toInt = imm.toInt * 2 ^ 12 := by
  have hlo := imm.le_toInt
  have hhi := imm.toInt_lt
  have hpow : (BitVec.twoPow 64 12).toInt = 2 ^ 12 := by decide
  rw [BitVec.shiftLeft_eq_mul_twoPow, BitVec.toInt_mul, hpow, sext, BitVec.toInt_signExtend_of_le (by decide)]
  exact Int.bmod_eq_of_le (by omega) (by omega)

/-! ### The obligations -/

/-- Settles O2: every OP instruction writes its operation's result. -/
theorem integerResults : Obligations.IntegerResults := by
  unfold Obligations.IntegerResults
  intro s lc f rd rs1 rs2 h
  refine ⟨_, exec_opCmd .., scalarX_issued _ _ h rfl rfl fun l => ?_⟩
  simpa using alu_means f ((s.core lc).rx rs1) ((s.core lc).rx rs2)

/-- Settles O3: immediate forms and shifts are OP instructions on their immediates; LUI writes a constant. -/
theorem immediateResults : Obligations.ImmediateResults := by
  unfold Obligations.ImmediateResults
  refine ⟨fun s lc f rd rs1 imm h => ?_, fun s lc f rd rs1 sh h => ?_, fun s lc rd imm h => ?_⟩
  · refine ⟨_, exec_immCmd .., scalarX_issued _ _ h rfl rfl fun l => ?_⟩
    simpa [aluImm_eq] using alu_means (immAlu f) ((s.core lc).rx rs1) (BitVec.ofInt 64 imm.toInt)
  · refine ⟨_, exec_shCmd .., scalarX_issued _ _ h rfl rfl fun l => ?_⟩
    simpa [shiftImm_eq] using alu_means (shAlu f) ((s.core lc).rx rs1) (BitVec.ofNat 64 sh.toNat)
  · exact ⟨_, rfl, scalarX_issued _ _ h rfl rfl fun _ => lui_toInt imm⟩

end Sys2Proof.Machine
end

