-- ==== Sys2Proof/Proofs/FloatResults.lean ====
section
/-!
O4. The floating-point instructions: the order of FP32 values is the order of their codes with the sign taken into account,
and what the conversion to an integer gives.
-/

namespace Sys2Proof.Machine

/-! ### Commands -/

theorem exec_opfCmd (s : State) (lc : Nat) (f : FpOp) (rd rs1 rs2 : BitVec 5) :
    exec (opfCmd f lc rd rs1 rs2) s
      = .next (s.scalarX lc (.opf f rd rs1 rs2) rd fun c => falu f (c.rx rs1) (c.rx rs2)) := by
  cases f <;> rfl

/-! ### The order of FP32 values -/

/-- The sign of an FP32 code. -/
def fpNeg (w : BitVec 32) : Bool := w.getLsbD 31

/-- The magnitude code of an FP32 code. -/
def fpMag (w : BitVec 32) : Nat := w.toNat % 2 ^ 31

/-- The finite value of a magnitude code, counted in units of 2^-149. -/
def fpUnits (k : Nat) : Nat := if k / 2 ^ 23 = 0 then k else (2 ^ 23 + k % 2 ^ 23) * 2 ^ (k / 2 ^ 23 - 1)

/-- A larger magnitude code has a larger value. -/
theorem fpUnits_strictMono : StrictMono fpUnits := by
  refine strictMono_nat_of_lt_succ fun k => ?_
  unfold fpUnits
  by_cases hlast : k % 2 ^ 23 = 2 ^ 23 - 1
  · have hdiv : (k + 1) / 2 ^ 23 = k / 2 ^ 23 + 1 := by omega
    have hmod : (k + 1) % 2 ^ 23 = 0 := by omega
    rw [hdiv, hmod, if_neg (Nat.succ_ne_zero _), Nat.add_sub_cancel]
    split
    case isTrue h0 => rw [h0]; omega
    case isFalse h0 =>
      obtain ⟨e, he⟩ := Nat.exists_eq_succ_of_ne_zero h0
      rw [he, hlast, Nat.succ_sub_one, Nat.pow_succ]
      have := Nat.two_pow_pos e
      omega
  · have hdiv : (k + 1) / 2 ^ 23 = k / 2 ^ 23 := by omega
    have hmod : (k + 1) % 2 ^ 23 = k % 2 ^ 23 + 1 := by omega
    rw [hdiv, hmod]
    split
    · omega
    · exact Nat.mul_lt_mul_of_pos_right (by omega) (Nat.two_pow_pos _)

theorem fpNeg_iff (w : BitVec 32) : (w.toNat / 2 ^ 31 % 2 = 1) ↔ fpNeg w = true := by
  rw [fpNeg, BitVec.getLsbD, Nat.testBit_eq_decide_div_mod_eq, decide_eq_true_iff]

/-- A code is its sign over its magnitude. -/
theorem toNat_eq_fpMag (w : BitVec 32) : w.toNat = (if fpNeg w = true then 2 ^ 31 else 0) + fpMag w := by
  have h := w.isLt
  have hn := fpNeg_iff w
  unfold fpMag
  split <;> simp_all <;> omega

/-- What an FP32 code encodes: a finite value of so many units of 2^-149, an infinity, or NaN (05 R178 R179). -/
inductive Fp32Is (w : BitVec 32) : Num → Prop
  | fin (m : Nat) (e : Int) (hm : fpMag w < 0x7F800000) (he : -149 ≤ e)
      (hu : fpUnits (fpMag w) = m * 2 ^ (e + 149).toNat) : Fp32Is w (.fin (fpNeg w) m e)
  | inf (hm : fpMag w = 0x7F800000) : Fp32Is w (.inf (fpNeg w))
  | nan (hm : 0x7F800000 < fpMag w) : Fp32Is w .nan

/-- The value of an FP32 code by its sign and its magnitude code. -/
theorem fp32_eq (w : BitVec 32) :
    fp32 w = if fpMag w ≤ 0x7F7FFFFF then
        if fpMag w / 2 ^ 23 = 0 then .fin (fpNeg w) (fpMag w % 2 ^ 23) (-149)
        else .fin (fpNeg w) (2 ^ 23 + fpMag w % 2 ^ 23) (((fpMag w / 2 ^ 23 : Nat) : Int) - 127 - 23)
      else if fpMag w = 0x7F800000 then .inf (fpNeg w) else .nan := by
  have hneg : decide (w.toNat / 2 ^ 31 % 2 = 1) = fpNeg w := Bool.eq_iff_iff.mpr (decide_eq_true_iff.trans (fpNeg_iff w))
  rw [← hneg]
  change (if fpMag w ≤ 0x7F7FFFFF then _ else if some 0x7F800000 = some (fpMag w) then _ else _) = _
  simp only [Option.some.injEq, eq_comm (a := 0x7F800000)]
  rfl

theorem fp32_is (w : BitVec 32) : Fp32Is w (fp32 w) := by
  rw [fp32_eq]
  split
  case isTrue hfin =>
    split
    case isTrue hsub =>
      refine .fin _ _ (by omega) (by omega) ?_
      rw [fpUnits, if_pos hsub]
      simp only [Int.reduceNeg, Int.reduceAdd, Int.toNat_zero, Nat.pow_zero, Nat.mul_one]
      omega
    case isFalse hnorm =>
      refine .fin _ _ (by omega) (by omega) ?_
      rw [fpUnits, if_neg hnorm]
      congr 2
      omega
  case isFalse hfin =>
    split
    case isTrue hinf => exact .inf hinf
    case isFalse hnan => exact .nan (by omega)

/-- A number with a sign. -/
def signedNat (neg : Bool) (k : Nat) : Int := if neg = true then -(k : Int) else k

/-- A map that keeps 0 and the order of numbers keeps the order of numbers with signs. -/
theorem signedNat_lt_iff {f : Nat → Nat} (hf : StrictMono f) (h0 : f 0 = 0) (a b : Bool) (k l : Nat) :
    signedNat a (f k) < signedNat b (f l) ↔ signedNat a k < signedNat b l := by
  have hkl := hf.lt_iff_lt (a := k) (b := l)
  have hlk := hf.lt_iff_lt (a := l) (b := k)
  have hk := hf.lt_iff_lt (a := 0) (b := k)
  have hl := hf.lt_iff_lt (a := 0) (b := l)
  rw [h0] at hk hl
  cases a <;> cases b <;> simp only [signedNat, if_true, if_false, Bool.false_eq_true] <;> omega

/-- The comparison key of a code is its magnitude code under its sign. -/
theorem cmpKey_eq (w : BitVec 32) : cmpKey w = signedNat (fpNeg w) (fpMag w) := by
  have h := toNat_eq_fpMag w
  change (if fpNeg w = true then -((fpMag w : Nat) : Int) else (w.toNat : Int)) = if fpNeg w = true then _ else _
  split
  case isTrue => rfl
  case isFalse hpos => rw [h, if_neg hpos, Nat.zero_add]

theorem fpKey_eq (w : BitVec 32) : fpKey w = cmpKey w - if fpNeg w = true then 1 else 0 := by
  change (if fpNeg w = true then _ else _) = (if fpNeg w = true then _ else _) - _
  split
  case isTrue => rfl
  case isFalse => exact (Int.sub_zero _).symm

/-- A mantissa brought to a lower exponent, in units of 2^-149. -/
theorem scaleTo_units {neg : Bool} {m : Nat} {e q : Int} (hq : -149 ≤ q) (he : q ≤ e) :
    scaleTo neg m e q * 2 ^ (q + 149).toNat = signedNat neg (m * 2 ^ (e + 149).toNat) := by
  have hexp : (e + 149).toNat = (e - q).toNat + (q + 149).toNat := by omega
  rw [hexp, Nat.pow_add, ← Nat.mul_assoc]
  unfold scaleTo signedNat
  cases neg <;> simp

/-- Two values that are not NaN compare as their keys do. -/
theorem fp32_lt_iff {x y : BitVec 32} (hx : (fp32 x).isNan = false) (hy : (fp32 y).isNan = false) :
    (fp32 x).lt (fp32 y) = true ↔ cmpKey x < cmpKey y := by
  have ix := fp32_is x
  have iy := fp32_is y
  rw [cmpKey_eq, cmpKey_eq]
  generalize fp32 x = v at ix hx
  generalize fp32 y = u at iy hy
  cases ix with
  | nan => cases hx
  | inf hmx =>
    cases iy with
    | nan => cases hy
    | inf hmy => rw [hmx, hmy]; cases fpNeg x <;> cases fpNeg y <;> decide
    | fin n f hmy => 
      rw [hmx]
      unfold Num.lt signedNat
      cases fpNeg x <;> cases fpNeg y <;> simp <;> omega
  | fin m e hmx hex hux =>
    cases iy with
    | nan => cases hy
    | inf hmy =>
      rw [hmy]
      unfold Num.lt signedNat
      cases fpNeg x <;> cases fpNeg y <;> simp <;> omega
    | fin n f hmy hey huy =>
      have hq : -149 ≤ min e f := le_min hex hey
      rw [← signedNat_lt_iff fpUnits_strictMono rfl, hux, huy, ← scaleTo_units hq (min_le_left e f),
        ← scaleTo_units hq (min_le_right e f), Num.lt, decide_eq_true_iff]
      exact (Int.mul_lt_mul_right (by positivity)).symm

/-- The sign of a finite value is that of its code. -/
theorem fpNeg_of_fin {w : BitVec 32} {neg : Bool} {m : Nat} {e : Int} (h : fp32 w = .fin neg m e) : fpNeg w = neg := by
  have hw := fp32_is w
  rw [h] at hw
  cases hw
  rfl

/-- The order of keys: -0 stands below +0, and every other pair of values stands as it compares. -/
theorem fpKey_lt_of_cmpKey {x y : BitVec 32}
    (h : cmpKey x < cmpKey y ∨ fpNeg x = true ∧ fpNeg y = false) : fpKey x < fpKey y := by
  rw [fpKey_eq, fpKey_eq]
  rw [cmpKey_eq, cmpKey_eq] at h ⊢
  cases hx : fpNeg x <;> cases hy : fpNeg y <;> simp [hx, hy, signedNat] at h ⊢ <;> omega

/-- A value below another has the lower key. -/
theorem fpKey_lt_of_below {x y : BitVec 32} (hx : (fp32 x).isNan = false) (hy : (fp32 y).isNan = false)
    (h : (fp32 x).below (fp32 y) = true) : fpKey x < fpKey y := by
  refine fpKey_lt_of_cmpKey ?_
  unfold Num.below at h
  rcases (Bool.or_eq_true _ _).mp h with hlt | hzero
  · exact .inl ((fp32_lt_iff hx hy).mp hlt)
  · split at hzero
    case h_1 hfx hfy => exact .inr ⟨fpNeg_of_fin hfx, fpNeg_of_fin hfy⟩
    case h_2 => cases hzero

theorem not_below_of_fpKey {x y : BitVec 32} (hx : (fp32 x).isNan = false) (hy : (fp32 y).isNan = false)
    (h : fpKey y ≤ fpKey x) : (fp32 x).below (fp32 y) = false := by
  refine Bool.eq_false_iff.mpr fun hb => ?_
  exact absurd (fpKey_lt_of_below hx hy hb) (Int.not_lt.mpr h)

/-! ### The operations mean what the rules say -/

/-- A comparison is 1 exactly where it holds. -/
theorem flag_spec (b : Bool) : (flag b = 0 ∨ flag b = 1) ∧ (flag b = 1 ↔ b = true) := by
  cases b <;> decide

theorem fmin32_means {x y : BitVec 32} (hx : (fp32 x).isNan = false) (hy : (fp32 y).isNan = false) :
    (fmin32 x y = x ∨ fmin32 x y = y) ∧ (fp32 x).below (fp32 (fmin32 x y)) = false ∧
      (fp32 y).below (fp32 (fmin32 x y)) = false := by
  rw [fmin32, hx, hy, if_neg (by decide)]
  split
  case isTrue hle => exact ⟨.inl rfl, not_below_of_fpKey hx hx le_rfl, not_below_of_fpKey hy hx hle⟩
  case isFalse hgt => exact ⟨.inr rfl, not_below_of_fpKey hx hy (by omega), not_below_of_fpKey hy hy le_rfl⟩

theorem fmax32_means {x y : BitVec 32} (hx : (fp32 x).isNan = false) (hy : (fp32 y).isNan = false) :
    (fmax32 x y = x ∨ fmax32 x y = y) ∧ (fp32 (fmax32 x y)).below (fp32 x) = false ∧
      (fp32 (fmax32 x y)).below (fp32 y) = false := by
  rw [fmax32, hx, hy, if_neg (by decide)]
  split
  case isTrue hle => exact ⟨.inr rfl, not_below_of_fpKey hy hx hle, not_below_of_fpKey hy hy le_rfl⟩
  case isFalse hgt => exact ⟨.inl rfl, not_below_of_fpKey hx hx le_rfl, not_below_of_fpKey hx hy (by omega)⟩

/-- A NaN among two operands, as the operations ask for it. -/
theorem bad_eq_false {x y : BitVec 32} :
    ((fp32 x).isNan || (fp32 y).isNan) = false ↔ (fp32 x).isNan = false ∧ (fp32 y).isNan = false :=
  Bool.or_eq_false_iff

/-- A comparison of two values holds where neither is NaN and their keys stand so. -/
theorem cmp_means {x y : BitVec 32} {p : Bool} {P : Prop}
    (h : (fp32 x).isNan = false → (fp32 y).isNan = false → (p = true ↔ P)) :
    let r := flag (!((fp32 x).isNan || (fp32 y).isNan) && p)
    (r = 0 ∨ r = 1) ∧ (r = 1 ↔ ¬ ((fp32 x).isNan = true ∨ (fp32 y).isNan = true) ∧ P) := by
  refine ⟨(flag_spec _).1, (flag_spec _).2.trans ?_⟩
  rw [Bool.and_eq_true, Bool.not_eq_true', bad_eq_false, not_or, Bool.not_eq_true, Bool.not_eq_true]
  exact ⟨fun ⟨⟨hx, hy⟩, hp⟩ => ⟨⟨hx, hy⟩, (h hx hy).mp hp⟩, fun ⟨⟨hx, hy⟩, hp⟩ => ⟨⟨hx, hy⟩, (h hx hy).mpr hp⟩⟩

/-- Every OPF function with two sources computes what the table of R45 says. -/
theorem falu_means (f : FpOp) (a b : Word) : FpMeans f (lo32 a) (lo32 b) (falu f a b) := by
  generalize hx : lo32 a = x
  generalize hy : lo32 b = y
  unfold FpMeans falu
  rw [hx, hy]
  cases f with
  | fadd | fsub | fmul => rfl
  | fmin =>
    refine ⟨fun hnan => ?_, fun hnan => ?_⟩
    · rw [← Bool.or_eq_true] at hnan
      simp only [fmin32, hnan, if_true]
      rfl
    · rw [not_or, Bool.not_eq_true, Bool.not_eq_true] at hnan
      exact ⟨_, rfl, fmin32_means hnan.1 hnan.2⟩
  | fmax =>
    refine ⟨fun hnan => ?_, fun hnan => ?_⟩
    · rw [← Bool.or_eq_true] at hnan
      simp only [fmax32, hnan, if_true]
      rfl
    · rw [not_or, Bool.not_eq_true, Bool.not_eq_true] at hnan
      exact ⟨_, rfl, fmax32_means hnan.1 hnan.2⟩
  | feq =>
    refine cmp_means fun hx hy => ?_
    simp only [decide_eq_true_iff, fp32_lt_iff hx hy, fp32_lt_iff hy hx]
    omega
  | flt =>
    refine cmp_means fun hx hy => ?_
    simp only [decide_eq_true_iff, fp32_lt_iff hx hy]
  | fle =>
    refine cmp_means fun hx hy => ?_
    simp only [decide_eq_true_iff, fp32_lt_iff hy hx]
    omega

theorem toInt_ofNat_of_lt {n : Nat} (h : n < 2 ^ 63) : (BitVec.ofNat 64 n).toInt = n := by
  rw [BitVec.toInt_ofNat']
  exact Int.bmod_eq_of_le (by omega) (by omega)

/-- FCVT.L.S converts toward zero and holds at the bounds. -/
theorem cvtLS_means (a : Word) : TruncMeans (fp32 (lo32 a)) (cvtLS a) := by
  unfold cvtLS
  cases fp32 (lo32 a) with
  | nan => rfl
  | inf neg => cases neg <;> rfl
  | fin neg m e =>
    unfold TruncMeans
    simp only
    generalize (if 0 ≤ e then m * 2 ^ e.toNat else m / 2 ^ (-e).toNat) = n
    cases neg with
    | true =>
      simp only [if_true]
      split
      case isTrue hbig => rw [max_eq_right (by omega)]; decide
      case isFalse hfits =>
        rw [max_eq_left (by omega), BitVec.toInt_neg, toInt_ofNat_of_lt (by omega)]
        exact Int.bmod_eq_of_le (by omega) (by omega)
    | false =>
      simp only [if_false, Bool.false_eq_true]
      split
      case isTrue hbig => rw [min_eq_right (by omega)]; decide
      case isFalse hfits =>
        rw [min_eq_left (by omega), toInt_ofNat_of_lt (by omega)]

/-! ### The obligation -/

/-- Settles O4: every OPF instruction writes what its operation computes. -/
theorem floatResults : Obligations.FloatResults := by
  unfold Obligations.FloatResults
  refine ⟨fun s lc f rd rs1 rs2 h => ?_, fun s lc rd rs1 h => ?_, fun s lc rd rs1 h => ?_⟩
  · refine ⟨_, exec_opfCmd .., scalarX_issued _ _ h rfl rfl fun l => ?_⟩
    simp only [retarget_rx, issued_rx]
    exact falu_means f ((s.core lc).rx rs1) ((s.core lc).rx rs2)
  · refine ⟨_, rfl, scalarX_issued _ _ h rfl rfl fun l => ?_⟩
    simp only [retarget_rx, issued_rx]
    rfl
  · refine ⟨_, rfl, scalarX_issued _ _ h rfl rfl fun l => ?_⟩
    simp only [retarget_rx, issued_rx]
    exact cvtLS_means ((s.core lc).rx rs1)

end Sys2Proof.Machine
end

