-- ==== Sys2Proof/Proofs/BranchesAndJumps.lean ====
section
/-!
O5. Branches and jumps: which values the conditions compare, where targets lie, and what a jump writes.
-/

namespace Sys2Proof.Machine

theorem exec_brCmd (s : State) (lc : Nat) (k : Cond) (rs1 rs2 : BitVec 5) (off : BitVec 12) :
    exec (brCmd k lc rs1 rs2 off) s = .next (s.branch lc k rs1 rs2 off) := by
  cases k <;> rfl

/-- The conditions compare the values that they name. -/
theorem condHolds_iff (k : Cond) (a b : Word) : condHolds k a b = true ↔ CondMeans k a b := by
  cases k with
  | eq => simp [condHolds, CondMeans, BitVec.toNat_inj]
  | ne => simp [condHolds, CondMeans, BitVec.toNat_inj]
  | lt => exact BitVec.slt_iff_toInt_lt
  | ge => simp [condHolds, CondMeans, BitVec.slt_eq_decide]
  | ltu => exact BitVec.ult_iff_toNat_lt
  | geu => simp [condHolds, CondMeans, BitVec.ult_eq_decide]

/-- A target lies four times the offset from the instruction. -/
theorem target_eq {n : Nat} (pc : LAddr) (off : BitVec n) :
    target pc off = pc + BitVec.ofInt 44 (off.toInt * 4) := by
  rw [BitVec.ofInt_mul]
  rfl

/-- Every change of an issued core to its scalar registers and its PC alone is a jump's. -/
theorem jumpsTo_of_issued {c d : Core} {l m : List Late} {x : Vector Word 32} {pc : LAddr} {rd : Option (BitVec 5)}
    (h : d = { c.issued l with
      x := x, loads := passed c.loads rd none, late := m, pc := pc, icMiss := false, qFull := false }) :
    JumpsTo c d rd ∧ d.x = x ∧ d.pc = pc := by
  subst h
  refine ⟨?_, rfl, rfl⟩
  unfold JumpsTo
  rw [issued_touch]

/-- A core whose registers are those after a write of rd. -/
theorem writesX_of_wx {c d : Core} {rd : BitVec 5} {v : Word} (h : d.x = (c.wx rd v).x) :
    WritesX c d rd (fun r => r = v) := by
  have hrx : ∀ r, d.rx r = if r = 0 then 0 else if r = rd then v else c.rx r := fun r => by
    rw [← Core.rx_wx, Core.rx, h]
    rfl
  refine ⟨fun r hr => ?_, fun h0 => ?_, Core.rx_zero d⟩
  · rw [hrx, if_neg hr]
    split
    case isTrue h0 => rw [h0, Core.rx_zero]
    case isFalse => rfl
  · rw [hrx, if_neg h0, if_pos rfl]

/-- Everything a jump does that writes the address of the next instruction into rd and goes to a target. -/
theorem jump_spec {s : State} {lc : Nat} {i : Flik} {rd : BitVec 5} {dest : Core → LAddr} {pc : LAddr}
    (h : s.canIssue lc i = true) (hx : i.xdest = some rd) (hd : i.ddest = none)
    (hdest : ∀ l, dest (((s.core lc).issued l).retarget i) = pc) :
    let t := s.scalar lc i fun c => { c.wx rd (link c) with pc := dest c - 4 }
    CoreFrame lc s t ∧ JumpsTo (s.core lc) (t.core lc) (some rd)
      ∧ WritesX (s.core lc) (t.core lc) rd (fun r => r = ((s.core lc).pc + 4).setWidth 64) ∧ (t.core lc).pc = pc := by
  obtain ⟨hf, l, m, hc⟩ := scalar_issued (fun c => { c.wx rd (link c) with pc := dest c - 4 }) h
  have hcore : ((s.scalar lc i fun c => { c.wx rd (link c) with pc := dest c - 4 }).core lc) =
      { (s.core lc).issued l with
        x := ((s.core lc).wx rd (link (s.core lc))).x, loads := passed (s.core lc).loads (some rd) none
        late := m, pc := pc, icMiss := false, qFull := false } := by
    rw [hc, hdest, retarget_eq, hx, hd, issued_loads, link, link]
    unfold Core.wx Core.next
    split <;> simp
  obtain ⟨hj, hxs, hpc⟩ := jumpsTo_of_issued hcore
  exact ⟨hf, hj, writesX_of_wx hxs, hpc⟩

/-- Everything a branch does. -/
theorem branch_spec {s : State} {lc : Nat} (k : Cond) {rs1 rs2 : BitVec 5} {off : BitVec 12}
    (h : s.canIssue lc (.br k rs1 rs2 off) = true) :
    let c := s.core lc
    let d := (s.branch lc k rs1 rs2 off).core lc
    CoreFrame lc s (s.branch lc k rs1 rs2 off) ∧ JumpsTo c d none ∧ d.x = c.x
      ∧ d.pc = if condHolds k (c.rx rs1) (c.rx rs2) = true then target c.pc off else c.pc + 4 := by
  obtain ⟨hf, l, m, hc⟩ := scalar_issued
    (fun c => if condHolds k (c.rx rs1) (c.rx rs2) then { c with pc := target c.pc off - 4 } else c) h
  refine ⟨hf, jumpsTo_of_issued (l := l) (m := m) ?_⟩
  rw [State.branch, hc, retarget_eq_self rfl rfl, issued_rx, issued_rx, passed_none]
  split <;> simp [Core.next]

/-! ### The obligation -/

/-- Settles O5: branches and jumps go where their conditions and offsets say. -/
theorem branchesAndJumps : Obligations.BranchesAndJumps := by
  unfold Obligations.BranchesAndJumps
  refine ⟨fun s lc k rs1 rs2 off h => ?_, fun s lc rd off h => ?_, fun s lc rd rs1 imm h hal => ?_⟩
  · obtain ⟨hf, hj, hx, hpc⟩ := branch_spec k h
    refine ⟨_, exec_brCmd .., hf, hj, fun r => by rw [Core.rx, hx]; rfl, fun htaken => ?_, fun hnot => ?_⟩
    · rw [hpc, if_pos ((condHolds_iff ..).mpr htaken), target_eq]
    · rw [hpc, if_neg (mt (condHolds_iff ..).mp hnot)]
  · exact ⟨_, rfl, jump_spec h rfl rfl fun l => by rw [retarget_pc, issued_pc, target_eq]⟩
  · have hexec : exec (.jalr lc rd rs1 imm) s = .next (s.scalar lc (.jalr rd rs1 imm) fun c =>
        { c.wx rd (link c) with pc := (c.rx rs1 + sext imm).setWidth 44 - 4 }) :=
      if_neg fun ⟨_, hne⟩ => hne hal
    exact ⟨_, hexec, jump_spec h rfl rfl fun l => by rw [retarget_rx, issued_rx]; rfl⟩

end Sys2Proof.Machine
end

