-- ==== Sys2Proof/Proofs/TicketInstructions.lean ====
section
/-!
O6. The ticket instructions: what setting and taking a ticket does to a core, the overflow of TKS, and the wait of TKW.
-/

namespace Sys2Proof.Machine

/-! ### Tickets of a core -/

theorem Core.tick_le (c : Core) (n : BitVec 6) : c.tick n ≤ 65535 := by
  unfold Core.tick
  split
  case isTrue => exact Nat.zero_le _
  case isFalse => exact Nat.le_of_lt_succ (BitVec.isLt _)

/-- Setting a ticket changes the tickets alone. -/
theorem setTick_eq (c : Core) (n : BitVec 6) (v : Nat) : c.setTick n v = { c with tk := (c.setTick n v).tk } := by
  unfold Core.setTick
  split <;> rfl

/-- The tickets after one was set come from the tickets before. -/
theorem setTick_tk_congr {c d : Core} (h : c.tk = d.tk) (n : BitVec 6) (v : Nat) :
    (c.setTick n v).tk = (d.setTick n v).tk := by
  unfold Core.setTick
  split
  · exact h
  · exact congrArg (fun tk => Vector.set tk n.toNat (BitVec.ofNat 16 v)) h

/-- Taking counts changes the tickets, and the lost write that the counts cover. -/
theorem take_eq (c : Core) (tk : BitVec 6) (n : Nat) :
    c.take tk n = { c with
      tk := (c.setTick tk (c.tick tk - n)).tk
      lost := if c.takesLost tk n = true then setAdd c.lost 5 else c.lost } := by
  unfold Core.take Core.setTick
  split <;> split <;> rfl

/-- A core whose tickets are those after one was set. -/
theorem writesTk_of_setTick {c d : Core} {tk : BitVec 6} {v : Nat} (hv : v ≤ 65535) (h : d.tk = (c.setTick tk v).tk) :
    WritesTk c d tk v := by
  have htick : ∀ k, d.tick k = if k = 0 then 0 else if k = tk then v % 65536 else c.tick k := fun k => by
    rw [← Core.tick_setTick, Core.tick, h]
    rfl
  refine ⟨fun k hk => ?_, ?_⟩
  · rw [htick, if_neg hk]
    split
    case isTrue h0 => rw [h0, Core.tick_zero]
    case isFalse => rfl
  · rw [htick, if_pos rfl, Nat.mod_eq_of_lt (by omega)]

/-- A core after an instruction of the tickets alone. -/
theorem onlyTk_of_issued {c d : Core} {l m : List Late} {tk : BitVec 6} {n v : Nat} (hv : v ≤ 65535)
    (h : d = { c.issued l with
      tk := (c.setTick tk v).tk, lost := if c.takesLost tk n = true then setAdd c.lost 5 else c.lost
      late := m, pc := c.pc + 4, icMiss := false, qFull := false }) :
    OnlyTk c d tk n ∧ WritesTk c d tk v := by
  refine ⟨?_, writesTk_of_setTick hv (by rw [h])⟩
  subst h
  unfold OnlyTk
  rw [issued_touch]

/-- An instruction that sets a ticket, where it may issue. -/
theorem scalar_setTick {s : State} {lc : Nat} {i : Flik} {tk : BitVec 6} {f : Core → Nat} {v : Nat} (hv : v ≤ 65535)
    (h : s.canIssue lc i = true) (hx : i.xdest = none) (hd : i.ddest = none)
    (hf : ∀ l, f ((s.core lc).issued l) = v) :
    let t := s.scalar lc i fun c => c.setTick tk (f c)
    CoreFrame lc s t ∧ OnlyTk (s.core lc) (t.core lc) tk 0 ∧ WritesTk (s.core lc) (t.core lc) tk v := by
  obtain ⟨hframe, l, m, hc⟩ := scalar_issued (fun c => c.setTick tk (f c)) h
  refine ⟨hframe, onlyTk_of_issued (l := l) (m := m) hv ?_⟩
  have htakes : (s.core lc).takesLost tk 0 = false := by simp [Core.takesLost]
  rw [hc, retarget_eq_self hx hd, hf, setTick_eq, setTick_tk_congr (issued_tk _ l), htakes]
  simp [Core.next]

/-- An instruction that takes counts from a ticket, where it may issue. -/
theorem scalar_take {s : State} {lc : Nat} {i : Flik} {tk : BitVec 6} {n : Nat} (h : s.canIssue lc i = true)
    (hx : i.xdest = none) (hd : i.ddest = none) :
    let t := s.scalar lc i fun c => c.take tk n
    CoreFrame lc s t ∧ OnlyTk (s.core lc) (t.core lc) tk n ∧
      WritesTk (s.core lc) (t.core lc) tk ((s.core lc).tick tk - n) := by
  obtain ⟨hframe, l, m, hc⟩ := scalar_issued (fun c => c.take tk n) h
  have hle := (s.core lc).tick_le tk
  refine ⟨hframe, onlyTk_of_issued (l := l) (m := m) (by omega) ?_⟩
  have htakes : ((s.core lc).issued l).takesLost tk n = (s.core lc).takesLost tk n := by
    rw [Core.takesLost, Core.takesLost, issued_lost]
  rw [hc, retarget_eq_self hx hd, take_eq, setTick_tk_congr (issued_tk _ l), htakes]
  simp [Core.next]

/-! ### Overflow -/

/-- An exception taken at a core is that of its core, with some instruction word. -/
theorem takeAt_core (s : State) (lc : Nat) (cause addr : Word) :
    ∃ w, (s.takeAt lc cause addr).core lc = (s.core lc).takeExc cause addr w := by
  unfold State.takeAt
  dsimp only
  split <;> exact ⟨_, setCore_core _ lc _⟩

/-- A TKS that takes its ticket past 65,535. -/
theorem tks_overflow {s : State} {lc : Nat} {tk : BitVec 6} {imm : BitVec 11} (h : s.canIssue lc (.tks tk imm) = true)
    (htk : tk ≠ 0) (hover : 65535 < (s.core lc).tick tk + imm.toNat) :
    ∃ t, exec (.tks lc tk imm) s = .next t ∧ (t.core lc).tick tk = 65535 ∧ (t.core lc).st = .draining
      ∧ (fld (s.core lc).excCause 0 8 = 0 → fld (t.core lc).excCause 0 8 = 0x11
          ∧ (t.core lc).excPc = (s.core lc).pc) := by
  have hov : (s.core lc).overflows tk imm.toNat = true := by
    rw [Core.overflows, decide_eq_true htk, decide_eq_true hover]
    rfl
  refine ⟨_, if_pos ⟨h, hov⟩, ?_⟩
  obtain ⟨-, l, hissue⟩ := noteIssue_issued lc s
  have hadd : ((s.core lc).issued l).addTick tk imm.toNat = ((s.core lc).issued l).setTick tk 65535 := by
    rw [Core.addTick, issued_tick, min_eq_right (by omega)]
  rw [hissue, hadd]
  obtain ⟨-, m, hnote⟩ := noteScalar_spec lc
    ((s.noteIssue lc).setCore lc (((s.core lc).issued l).setTick tk 65535)) (.tks tk imm) (s.core lc)
  obtain ⟨w, hexc⟩ := takeAt_core (((s.noteIssue lc).setCore lc (((s.core lc).issued l).setTick tk 65535)).noteScalar lc
    (.tks tk imm) (s.core lc)) lc (excWord 0x11 0 0 0) 0
  rw [setCore_core] at hnote
  rw [State.raise, hexc, hnote]
  have hrun := canIssue_running h
  obtain ⟨hst, -, hfirst, -, hkept⟩ := Core.takeExc_spec
    { ((s.core lc).issued l).setTick tk 65535 with late := m } (cause := excWord 0x11 0 0 0) (addr := 0) (insn := w)
    (.inl (by rw [setTick_eq]; exact (issued_st ..).trans hrun))
  obtain ⟨-, -, -, htks, -⟩ := hkept
  refine ⟨?_, hst, fun h0 => ?_⟩
  · rw [Core.tick, htks]
    exact (Core.tick_setTick ..).trans (by rw [if_neg htk, if_pos rfl])
  · obtain ⟨hcause, -, hpc, -⟩ := hfirst (by rw [setTick_eq]; simpa using h0)
    exact ⟨hcause, hpc.trans (by rw [setTick_eq]; exact issued_pc ..)⟩

/-! ### The wait of TKW -/

theorem tkwMet_iff (c : Core) (tk : BitVec 6) (imm : BitVec 11) :
    c.tkwMet tk imm = true ↔ tk = 0 ∨ imm = 0 ∨ imm.toNat + c.asking tk ≤ c.tick tk := by
  simp [Core.tkwMet, or_assoc]

theorem not_tkwMet {c : Core} {tk : BitVec 6} {imm : BitVec 11} (htk : tk ≠ 0) (himm : imm ≠ 0)
    (hfew : c.tick tk < imm.toNat + c.asking tk) : c.tkwMet tk imm = false := by
  refine Bool.eq_false_iff.mpr fun hmet => ?_
  rcases (tkwMet_iff ..).mp hmet with h0 | h0 | hle
  · exact htk h0
  · exact himm h0
  · omega

/-- A TKW whose ticket does not hold its counts waits. -/
theorem tkw_waits {s : State} {lc : Nat} {tk : BitVec 6} {imm : BitVec 11} (h : s.canIssue lc (.tkw tk imm) = true)
    (hnot : (s.core lc).tkwMet tk imm = false) :
    ∃ t, exec (.tkw lc tk imm) s = .next t ∧ CoreFrame lc s t ∧ (t.core lc).stall = .tkw tk imm
      ∧ (t.core lc).pc = (s.core lc).pc ∧ (t.core lc).tk = (s.core lc).tk ∧ (t.core lc).x = (s.core lc).x := by
  obtain ⟨hissue, l, hc⟩ := noteIssue_issued lc s
  have hcount := countSample_frame (s.noteIssue lc) lc 1
  have hexec : exec (.tkw lc tk imm) s = .next (((s.noteIssue lc).countSample lc 1).1.setCore lc
      { ((s.noteIssue lc).countSample lc 1).1.core lc with
        stall := .tkw tk imm
        waitSamp := if ((s.noteIssue lc).countSample lc 1).2 then
          some (((s.noteIssue lc).countSample lc 1).1.reg (.pmuCycle lc)) else none }) :=
    if_pos ⟨h, by rw [hnot]; decide⟩
  refine ⟨_, hexec, (hissue.trans hcount).trans (CoreFrame.setCore lc _ _), ?_⟩
  simp only [setCore_core, countSample_core, hc, issued_pc, issued_tk, issued_x, and_self]

/-- A waiting TKW whose ticket holds its counts goes on. -/
theorem tkw_goesOn {s : State} {lc : Nat} {tk : BitVec 6} {imm : BitVec 11} (hst : (s.core lc).stall = .tkw tk imm)
    (hrun : (s.core lc).st = .running) (hclk : s.clocked lc = true) (hmet : (s.core lc).tkwMet tk imm = true) :
    ∃ t, exec (.tkwSatisfied lc) s = .next t ∧ CoreFrame lc s t
      ∧ t.core lc = { ((s.core lc).take tk imm.toNat).next with stall := .none, waitSamp := none } := by
  have hexec : exec (.tkwSatisfied lc) s = .next
      (let u := (s.stalled lc 0x06).setCore lc
        { (((s.stalled lc 0x06).core lc).take tk imm.toNat).next with stall := .none, waitSamp := none }
      match (s.core lc).waitSamp with
      | some t => u.sampleDone lc t (s.core lc).pc ((s.core lc).pcWordOr 0) 7 (s.core lc).missFlag
          (u.reg (.pmuCycle lc) - t).toNat 0
      | none => u) := by
    change execTkwSatisfied lc s = _
    unfold execTkwSatisfied
    simp only [hst, hrun, hmet, hclk, and_self, if_true] <;> rfl
  refine ⟨_, hexec, ?_⟩
  have hframe := (stalled_frame lc s 0x06).trans (CoreFrame.setCore lc (s.stalled lc 0x06)
    { (((s.stalled lc 0x06).core lc).take tk imm.toNat).next with stall := .none, waitSamp := none })
  rw [stalled_core] at hframe ⊢
  dsimp only
  split
  · exact ⟨hframe.trans (sampleDone_frame ..), by rw [sampleDone_core, setCore_core]⟩
  · exact ⟨hframe, setCore_core ..⟩

/-! ### The obligation -/

/-- Settles O6: the ticket instructions. -/
theorem ticketInstructions : Obligations.TicketInstructions := by
  unfold Obligations.TicketInstructions
  refine ⟨fun s lc tk imm h hroom => ?_, fun s lc tk imm h htk hover => tks_overflow h htk hover,
    fun s lc tk imm h hmet => ?_, fun s lc tk imm h htk himm hfew => ?_, fun s lc xd tk h => ?_,
    fun s lc tk xs h => ?_, fun s lc tk imm hstall hrun hclk hmet => ?_⟩
  · have hexec : exec (.tks lc tk imm) s
        = .next (s.scalar lc (.tks tk imm) fun c => c.setTick tk (min (c.tick tk + imm.toNat) 65535)) :=
      if_neg fun ⟨_, hover⟩ => by
        simp only [Core.overflows, Bool.and_eq_true, decide_eq_true_iff] at hover
        rcases hroom with h0 | hle
        · exact hover.1 h0
        · omega
    obtain ⟨hframe, honly, hothers, hset⟩ := scalar_setTick (tk := tk) (f := fun c => min (c.tick tk + imm.toNat) 65535)
      (min_le_right ((s.core lc).tick tk + imm.toNat) 65535) h rfl rfl fun l => by rw [issued_tick]
    refine ⟨_, hexec, hframe, honly, hothers, hset.trans ?_⟩
    split
    case isTrue => rfl
    case isFalse h0 => exact min_eq_left (hroom.resolve_left h0)
  · have hexec : exec (.tkw lc tk imm) s = .next (s.scalar lc (.tkw tk imm) fun c => c.take tk imm.toNat) :=
      if_neg fun ⟨_, hnot⟩ => hnot ((tkwMet_iff ..).mpr hmet)
    exact ⟨_, hexec, scalar_take h rfl rfl⟩
  · exact tkw_waits h (not_tkwMet htk himm hfew)
  · refine ⟨_, rfl, scalarX_issued _ _ h rfl rfl fun l => ?_⟩
    have := (s.core lc).tick_le tk
    rw [retarget_tick, issued_tick, BitVec.toNat_ofNat]
    omega
  · refine ⟨_, rfl, scalar_setTick (by omega) h rfl rfl fun l => by rw [issued_rx]⟩
  · obtain ⟨t, hexec, hframe, hcore⟩ := tkw_goesOn hstall hrun hclk ((tkwMet_iff ..).mpr hmet)
    refine ⟨t, hexec, hframe, ?_⟩
    have hle := (s.core lc).tick_le tk
    rw [take_eq] at hcore
    refine ⟨by rw [hcore], by rw [hcore]; rfl, by rw [hcore]; rfl, by rw [hcore]; rfl, fun u => ?_,
      writesTk_of_setTick (by omega) (by rw [hcore]; rfl)⟩
    rw [hcore]
    cases u <;> rfl

end Sys2Proof.Machine
end

