-- ==== Sys2Proof/Proofs/DescriptorInstructions.lean ====
section
/-!
O7. The instructions of the descriptor registers and the system: words of a descriptor register, and the core after each.
-/

namespace Sys2Proof.Machine

/-! ### Words of a descriptor register -/

/-- A descriptor register after it was written. -/
theorem rd_wd (c : Core) (n m : BitVec 4) (d : Desc) : (c.wd n d).rd m = if m = n then d else c.rd m := by
  unfold Core.wd Core.rd
  by_cases h : m = n
  · rw [if_pos h]
    subst h
    exact Vector.getElem_set_self ..
  · rw [if_neg h]
    exact Vector.getElem_set_ne n.isLt m.isLt fun e => h (BitVec.eq_of_toNat_eq e.symm)

/-- A word of a descriptor register is a field of it. -/
theorem dword_eq_fld (d : Desc) (k : Nat) : dword d k = BitVec.ofNat 64 (fld d (64 * k) 64) := by
  refine BitVec.eq_of_toNat_eq ?_
  rw [dword, fld, BitVec.toNat_ofNat, BitVec.toNat_ofNat, Nat.mod_mod]

/-- The words after one was replaced. -/
theorem dword_setDword (d : Desc) {w k : Nat} (hw : w < 8) (v : Word) :
    dword (setDword d w v) k = if k = w then v else dword d k := by
  rw [dword_eq_fld, setDword]
  split
  case isTrue h =>
    rw [h, fld_setFld_self _ _ _ _ (by omega), Nat.mod_eq_of_lt v.isLt, BitVec.ofNat_toNat, BitVec.setWidth_eq]
  case isFalse h => rw [fld_setFld_ne _ _ _ _ _ _ (by omega), ← dword_eq_fld]

/-! ### The core after an instruction of a descriptor register -/

/-- An instruction that writes a descriptor register, where it may issue. -/
theorem scalar_wd {s : State} {lc : Nat} {i : Flik} {dn : BitVec 4} {f : Core → Desc} {v : Desc}
    (h : s.canIssue lc i = true) (hx : i.xdest = none) (hd : i.ddest = some dn)
    (hf : ∀ l, f (((s.core lc).issued l).retarget i) = v) :
    let t := s.scalar lc i fun c => c.wd dn (f c)
    CoreFrame lc s t ∧ OnlyD (s.core lc) (t.core lc) dn ∧ (t.core lc).rd dn = v := by
  obtain ⟨hframe, l, m, hc⟩ := scalar_issued (fun c => c.wd dn (f c)) h
  have hcore : ((s.scalar lc i fun c => c.wd dn (f c)).core lc) = { (s.core lc).issued l with
      d := ((s.core lc).wd dn v).d, loads := passed (s.core lc).loads none (some dn)
      late := m, pc := (s.core lc).pc + 4, icMiss := false, qFull := false } := by
    rw [hc, hf, retarget_eq, hx, hd]
    simp [Core.wd, Core.next]
  have hrd : ∀ n, ((s.scalar lc i fun c => c.wd dn (f c)).core lc).rd n = if n = dn then v else (s.core lc).rd n :=
    fun n => by rw [← rd_wd, Core.rd, hcore]; rfl
  refine ⟨hframe, ⟨?_, fun n hn => (hrd n).trans (if_neg hn)⟩, (hrd dn).trans (if_pos rfl)⟩
  rw [hcore, issued_touch]

/-- An instruction that writes no register that a load would write, where it may issue. -/
theorem scalar_plain {s : State} {lc : Nat} {i : Flik} (f : Core → Core) (h : s.canIssue lc i = true)
    (hx : i.xdest = none) (hd : i.ddest = none) :
    CoreFrame lc s (s.scalar lc i f) ∧ ∃ l, (s.scalar lc i f).core lc =
      { (f ((s.core lc).issued l)).next with late := ((s.scalar lc i f).core lc).late } := by
  obtain ⟨hframe, l, m, hc⟩ := scalar_issued f h
  exact ⟨hframe, l, by rw [hc, retarget_eq_self hx hd]⟩

/-- A field of a summary slot by its number. -/
theorem summary_field (m : Summary) (f : BitVec 3) :
    [m.max, m.min, m.sum, m.nnz, m.argmax, m.flags, m.status, m.seq][f.toNat]? = some (m.field f) := by
  have hlt := f.isLt
  unfold Summary.field
  generalize f.toNat = n at hlt
  interval_cases n <;> rfl

/-! ### The obligation -/

/-- Settles O7: the instructions of the descriptor registers and the system. -/
theorem descriptorAndSystemInstructions : Obligations.DescriptorAndSystemInstructions := by
  unfold Obligations.DescriptorAndSystemInstructions
  refine ⟨fun s lc dn w xs h => ?_, fun s lc xd dn w h => ?_, fun s lc dn dm h => ?_, fun s lc dn h => ?_,
    fun s lc xd slot field h => ?_, fun s lc xs h => ?_, fun s lc h => ?_, fun s lc h hno => ?_, fun s lc h hany => ?_⟩
  · obtain ⟨hframe, honly, hrd⟩ := scalar_wd (f := fun c => setDword (c.rd dn) w.toNat (c.rx xs))
      (v := setDword ((s.core lc).rd dn) w.toNat ((s.core lc).rx xs)) h rfl rfl fun l => by simp
    exact ⟨_, rfl, hframe, honly, fun k _ => by rw [hrd, dword_setDword _ w.isLt]⟩
  · exact ⟨_, rfl, scalarX_issued _ _ h rfl rfl fun l => by rw [retarget_rd, issued_rd]⟩
  · exact ⟨_, rfl, scalar_wd h rfl rfl fun l => by rw [retarget_rd, issued_rd]⟩
  · exact ⟨_, rfl, scalar_wd h rfl rfl fun l => rfl⟩
  · refine ⟨_, rfl, scalarX_issued _ _ h rfl rfl fun l => ?_⟩
    simp only [retarget_sum, issued_sum]
    exact summary_field _ field
  · obtain ⟨hframe, l, hc⟩ := scalar_plain (fun c => { c with seed := c.rx xs, ord := 0 }) h rfl rfl
    refine ⟨_, rfl, hframe, hc.trans ?_⟩
    simp only [issued_rx]
    simp only [issued_touch, Core.next, touch_pc]
  · obtain ⟨hframe, l, hc⟩ := scalar_plain (fun c => { c with ic := [] }) h rfl rfl
    refine ⟨_, rfl, hframe, hc.trans ?_⟩
    simp only [Core.next, issued_pc]
    rw [issued_eq]
  · obtain ⟨hframe, l, hc⟩ := scalar_plain (fun c => c) h rfl rfl
    refine ⟨_, if_neg fun ⟨_, hne⟩ => hne hno, hframe, hc.trans ?_⟩
    simp only [issued_touch, Core.next, touch_pc]
  · exact if_pos ⟨h, hany⟩

end Sys2Proof.Machine
end

