-- ==== Sys2Proof/Proofs/PreciseExceptions.lean ====
section
/-!
O12. The word at the PC of a core that may issue, the exceptions that an instruction and an event of a core raise, and the
accesses whose address breaks a rule.
-/

namespace Sys2Proof.Machine

/-! ### The word at the PC -/

theorem decode_unused {w : BitVec 32} {i : Flik} (h : decode w = some i) (hu : i.unused = 0) : w = i.encode := by
  obtain ⟨-, hw, -⟩ := decodeEncode.2 w i h
  rw [hu] at hw
  exact BitVec.and_allOnes.symm.trans hw

/-- An instruction that may issue stands at the PC. -/
theorem icWord_of_canIssue {s : State} {lc : Nat} {i : Flik} (h : s.canIssue lc i = true) (hu : i.unused = 0) :
    (s.core lc).icWord (s.core lc).pc = some i.encode := by
  obtain ⟨-, -, -, -, -, hdec⟩ := canIssue_spec h
  obtain ⟨w, hw, hi⟩ := Option.bind_eq_some_iff.mp hdec
  rw [hw, decode_unused hi hu]

/-- Which line was used last does not change the word at the PC. -/
theorem touch_icWord (c : Core) : c.touch.icWord c.touch.pc = c.icWord c.pc := by
  rw [touch_pc]
  cases hl : c.ic.find? fun l => l.tag == c.pc.toNat / 256 with
  | none => rw [Core.touch, hl]
  | some l =>
    have htag := List.find?_some (p := fun l : ICLine => l.tag == c.pc.toNat / 256) hl
    have hfirst : c.touch.ic.find? (fun l => l.tag == c.pc.toNat / 256) = some l := by
      rw [Core.touch, hl]
      exact List.find?_cons_of_pos htag
    rw [Core.icWord, Core.icWord, hfirst, hl]

theorem issued_icWord (c : Core) (l : List Late) : (c.issued l).icWord (c.issued l).pc = c.icWord c.pc :=
  touch_icWord { c with late := l }

/-! ### An exception of a core -/

theorem fld_excWord_cause (cause sub : Nat) : fld (excWord cause sub 0 0) 0 8 = cause % 256 := by
  unfold fld excWord
  rw [BitVec.toNat_ofNat]
  omega

theorem fld_excWord_sub (cause sub : Nat) : fld (excWord cause sub 0 0) 8 8 = sub % 256 := by
  unfold fld excWord
  rw [BitVec.toNat_ofNat]
  omega

/-- An exception with its cause and subcause. -/
theorem takeExc_excWord (c : Core) {cause sub : Nat} {addr : Word} {insn : BitVec 32} (hcause : cause < 256)
    (hsub : sub < 256) (h : c.st = .running ∨ c.st = .sleeping ∨ c.st = .draining) :
    TakesExc c (c.takeExc (excWord cause sub 0 0) addr insn) cause sub c.pc addr insn := by
  have hspec := c.takeExc_spec (cause := excWord cause sub 0 0) (addr := addr) (insn := insn) h
  rwa [fld_excWord_cause, fld_excWord_sub, Nat.mod_eq_of_lt hcause, Nat.mod_eq_of_lt hsub] at hspec

/-- What the exception of a core whose issue was noted is to the core before. -/
theorem TakesExc.of_issued {c d : Core} {l : List Late} {cause sub : Nat} {pc : LAddr} {addr : Word} {insn : BitVec 32}
    (h : TakesExc (c.issued l) d cause sub pc addr insn) : TakesExc c d cause sub pc addr insn := by
  rw [issued_eq] at h
  obtain ⟨hst, hq, hfirst, hlater, hkept⟩ := h
  exact ⟨hst, fun u => (hq u).trans (by cases u <;> rfl), hfirst, hlater, hkept⟩

/-- A precise exception of an instruction that may issue. -/
theorem excAt_spec {s : State} {lc : Nat} {i : Flik} (h : s.canIssue lc i = true) (hu : i.unused = 0) {cause sub : Nat}
    (hcause : cause < 256) (hsub : sub < 256) (addr : Word) :
    CoreFrame lc s (s.excAt lc i cause sub addr) ∧
      TakesExc (s.core lc) ((s.excAt lc i cause sub addr).core lc) cause sub (s.core lc).pc addr i.encode := by
  obtain ⟨hissue, l, hc⟩ := noteIssue_issued lc s
  have hcount := countSample_frame (s.noteIssue lc) lc i.cls
  have hword : ((s.core lc).issued l).pcWordOr i.encode = i.encode := by
    rw [Core.pcWordOr, issued_icWord, icWord_of_canIssue h hu]
    rfl
  unfold State.excAt
  refine ⟨(hissue.trans hcount).trans (CoreFrame.setCore lc _ _), ?_⟩
  rw [setCore_core, countSample_core, hc, hword]
  have hspec := takeExc_excWord ((s.core lc).issued l) (addr := addr) (insn := i.encode) hcause hsub
    (.inl (by rw [issued_st]; exact canIssue_running h))
  rw [issued_pc] at hspec
  exact hspec.of_issued

/-- An exception that an event raises at a core whose cache holds the word at its PC. -/
theorem raise_core {s : State} {lc : Nat} {w : BitVec 32} (hw : (s.core lc).icWord (s.core lc).pc = some w)
    (cause sub : Nat) (addr : Word) :
    (s.raise lc cause sub addr).core lc = (s.core lc).takeExc (excWord cause sub 0 0) addr w := by
  have hpc : s.pcWord lc = some w := by rw [State.pcWord, hw]
  unfold State.raise State.takeAt
  rw [hpc]
  exact setCore_core _ lc _

theorem raise_spec {s : State} {lc : Nat} {w : BitVec 32} (hw : (s.core lc).icWord (s.core lc).pc = some w)
    (hst : (s.core lc).st = .running ∨ (s.core lc).st = .sleeping ∨ (s.core lc).st = .draining) {cause sub : Nat}
    (hcause : cause < 256) (hsub : sub < 256) (addr : Word) :
    TakesExc (s.core lc) ((s.raise lc cause sub addr).core lc) cause sub (s.core lc).pc addr w := by
  rw [raise_core hw]
  exact takeExc_excWord _ hcause hsub hst

/-- An exception acts on its core alone. -/
theorem raise_core_ne (s : State) {lc k : Nat} (h : k ≠ lc) (cause sub : Nat) (addr : Word) :
    (s.raise lc cause sub addr).core k = s.core k := State.takeAt_core_ne s h _ _

/-! ### Addresses that break a rule -/

/-- The rules of R51 give small numbers. -/
theorem addrCheck_lt {s : State} {lc : Nat} {a : Word} {size cause sub : Nat}
    (h : s.addrCheck lc a size = some (cause, sub)) : cause < 256 ∧ sub < 256 := by
  unfold State.addrCheck at h
  split at h
  case isTrue => cases h; decide
  case isFalse =>
    split at h
    case isTrue => cases h; decide
    case isFalse => split at h <;> cases h <;> decide

theorem sext_mul (imm : BitVec 16) : sext imm * 64 = BitVec.ofInt 64 (imm.toInt * 64) := by
  rw [BitVec.ofInt_mul]
  rfl

/-- A load whose address breaks a rule. -/
theorem issueLoad_breaks {s : State} {lc : Nat} {i : Flik} {dst : LoadDst} {a : Core → Word} {cause sub : Nat}
    (h : s.canIssue lc i = true) (hu : i.unused = 0)
    (hrule : AddrRule s lc (a (s.core lc)) dst.size (some (cause, sub))) :
    CoreFrame lc s (s.issueLoad lc i dst a) ∧
      TakesExc (s.core lc) ((s.issueLoad lc i dst a).core lc) cause sub (s.core lc).pc (a (s.core lc)) i.encode := by
  have hcheck := (addrRule_iff ..).mp hrule
  obtain ⟨hcause, hsub⟩ := addrCheck_lt hcheck
  unfold State.issueLoad
  rw [if_pos h]
  dsimp only
  rw [hcheck]
  exact excAt_spec h hu hcause hsub _

/-- A store whose address breaks a rule. -/
theorem issueStore_breaks {s : State} {lc : Nat} {i : Flik} {size : Nat} {a : Core → Word} {bs : Core → List Byte}
    {errs : List MemErr} {cause sub : Nat} (h : s.canIssue lc i = true) (hu : i.unused = 0)
    (hrule : AddrRule s lc (a (s.core lc)) size (some (cause, sub))) :
    CoreFrame lc s (s.issueStore lc i size a bs errs) ∧
      TakesExc (s.core lc) ((s.issueStore lc i size a bs errs).core lc) cause sub (s.core lc).pc (a (s.core lc))
        i.encode := by
  have hcheck := (addrRule_iff ..).mp hrule
  obtain ⟨hcause, hsub⟩ := addrCheck_lt hcheck
  unfold State.issueStore
  rw [if_pos h]
  dsimp only
  rw [hcheck]
  exact excAt_spec h hu hcause hsub _

theorem exec_loadCmd (s : State) (lc : Nat) (w : LoadW) (rd rs1 : BitVec 5) (imm : BitVec 12) :
    exec (loadCmd w lc rd rs1 imm) s = .next (s.issueLoad lc (.load w rd rs1 imm) (.x rd w) (memAddr rs1 imm)) := by
  cases w <;> rfl

/-- A store's command is its store, ST.REL's where it neither waits nor ends with what its core has lost. -/
theorem exec_storeCmd {s : State} {lc : Nat} {w : StoreW} {rs2 rs1 : BitVec 5} {imm : BitVec 12} (errs : List MemErr)
    (hrel : w = .stRel → s.addrCheck lc (memAddr rs1 imm (s.core lc)) 8 = none →
      (s.core lc).stores = [] ∧ s.orphaned lc = false ∧ setHas (s.core lc).lost 5 = false) :
    ∃ es, es ⊆ errs ∧ exec (storeCmd w lc rs2 rs1 imm errs) s = .next (s.issueStore lc (.store w rs2 rs1 imm)
      (StoreW.size w) (memAddr rs1 imm) (fun c => leBytes (StoreW.size w) (c.rx rs2).toNat) es) := by
  cases w with
  | sb | sh | sw => exact ⟨errs, List.Subset.refl _, rfl⟩
  | st => exact ⟨[], List.nil_subset _, rfl⟩
  | stRel =>
    refine ⟨[], List.nil_subset _, ?_⟩
    refine (if_neg fun ⟨_, h0, hwait⟩ => ?_).trans (if_neg fun ⟨h0, hlost⟩ => ?_)
    · obtain ⟨hs, ho, -⟩ := hrel rfl h0
      rw [ho] at hwait
      exact hwait.elim (fun hne => hne hs) (by decide)
    · obtain ⟨-, -, hl⟩ := hrel rfl h0
      rw [hl] at hlost
      cases hlost

/-! ### The obligation -/

/-- Settles O12: an access whose address breaks a rule takes the exception of the first. -/
theorem addressExceptionsInOrder : Obligations.AddressExceptionsInOrder := by
  unfold Obligations.AddressExceptionsInOrder
  refine ⟨fun s lc w rd rs1 imm cause sub h hrule => ?_, fun s lc w rs2 rs1 imm cause sub errs h hrule => ?_,
    fun s lc dn xs imm cause sub h hrule => ?_, fun s lc dn xs imm cause sub h hrule => ?_⟩
  · exact ⟨_, exec_loadCmd .., issueLoad_breaks h rfl (by cases w <;> exact hrule)⟩
  · obtain ⟨es, -, hexec⟩ := exec_storeCmd (w := w) (rs2 := rs2) errs fun hw hnone => by
      subst hw
      exact absurd (((addrRule_iff ..).mp hrule).symm.trans hnone) (by simp)
    exact ⟨_, hexec, issueStore_breaks h rfl hrule⟩
  · exact ⟨_, rfl, by
      have hspec := issueLoad_breaks (dst := .d dn) (a := descAddr xs imm) h rfl (cause := cause) (sub := sub)
      rw [descAddr, sext_mul] at hspec
      exact hspec hrule⟩
  · exact ⟨_, rfl, by
      have hspec := issueStore_breaks (size := 64) (a := descAddr xs imm) (bs := fun c => leBytes 64 (c.rd dn).toNat)
        (errs := []) h rfl (cause := cause) (sub := sub)
      rw [descAddr, sext_mul] at hspec
      exact hspec hrule⟩

end Sys2Proof.Machine
end

