-- ==== Sys2Proof/Proofs/LoadsIssue.lean ====
section
/-!
O8. The outstanding load that a load whose address may be read leaves.
-/

namespace Sys2Proof.Machine

/-- The core after a load or DLD issued that leaves the outstanding load l. -/
def LeavesLoad (c d : Core) (i : Flik) (l : Load) : Prop :=
  d = { c.touch with
    late := d.late, loads := passed c.loads i.xdest i.ddest ++ [l], pc := c.pc + 4, icMiss := false, qFull := false }

/-- A load whose address breaks no rule, with room for one more. -/
theorem issueLoad_leaves {s : State} {lc : Nat} {i : Flik} {dst : LoadDst} {a : Core → Word}
    (h : s.canIssue lc i = true) (hrule : AddrRule s lc (a (s.core lc)) dst.size none)
    (hroom : (s.core lc).loads.length < 4) :
    CoreFrame lc s (s.issueLoad lc i dst a) ∧ ∃ l, LeavesLoad (s.core lc) ((s.issueLoad lc i dst a).core lc) i l ∧
      l.dst = dst ∧ l.stale = false ∧ l.addr = (a (s.core lc)).toNat ∧ l.data = none ∧ l.pc = (s.core lc).pc := by
  obtain ⟨hissue, m, hc⟩ := noteIssue_issued lc s
  have hcount := (event_frame lc (s.noteIssue lc) 0x02 1).trans (countSample_frame _ lc 0)
  have hexec : s.issueLoad lc i dst a =
      let t := ((s.noteIssue lc).event lc 0x02 1).countSample lc 0
      let c := (t.1.core lc).retarget i
      t.1.setCore lc { c.next with
        loads := c.loads ++ [{
          dst := dst, stale := false, pc := c.pc, word := i.encode, addr := (a (s.core lc)).toNat, mark := c.storeSeq
          samp := if t.2 then some (t.1.reg (.pmuCycle lc)) else none, missed := c.icMiss, data := none }] } := by
    unfold State.issueLoad
    rw [if_pos h]
    dsimp only
    rw [(addrRule_iff ..).mp hrule]
    exact if_neg (by omega)
  rw [hexec]
  dsimp only
  refine ⟨(hissue.trans hcount).trans (CoreFrame.setCore lc _ _), ?_⟩
  rw [setCore_core, countSample_core, event_core, hc]
  have hleaves : ∀ l, LeavesLoad (s.core lc) { (((s.core lc).issued m).retarget i).next with
      loads := (((s.core lc).issued m).retarget i).loads ++ [l] } i l := fun l => by
    rw [LeavesLoad, retarget_loads, retarget_eq, issued_touch]
    simp [Core.next]
  exact ⟨_, hleaves _, rfl, rfl, rfl, rfl, issued_pc ..⟩

/-- Settles O8: a load or DLD whose address breaks no rule leaves an outstanding load. -/
theorem loadsIssue : Obligations.LoadsIssue := by
  unfold Obligations.LoadsIssue
  refine ⟨fun s lc w rd rs1 imm h hrule hroom => ?_, fun s lc dn xs imm h hrule hroom => ?_⟩
  · obtain ⟨hframe, l, hl⟩ := issueLoad_leaves (dst := .x rd w) (a := memAddr rs1 imm) h
      (by cases w <;> exact hrule) hroom
    exact ⟨_, l, exec_loadCmd .., hframe, hl⟩
  · obtain ⟨hframe, l, hl⟩ := issueLoad_leaves (dst := .d dn) (a := descAddr xs imm) h
      (by rw [descAddr, sext_mul]; exact hrule) hroom
    rw [descAddr, sext_mul] at hl
    exact ⟨_, l, rfl, hframe, hl⟩

end Sys2Proof.Machine
end

