-- ==== Sys2Proof/Proofs/ExceptionEntries.lean ====
section
/-!
O13. The entries of the exceptions that are not an access's.
-/

namespace Sys2Proof.Machine

/-! ### Waking and logging change no core -/

@[simp] theorem loadSettings_cores (s : State) (h : Half) (old new : Nat) :
    (s.loadSettings h old new).cores = s.cores := by
  unfold State.loadSettings
  split
  case isTrue => rfl
  case isFalse =>
    refine foldl_cores _ (fun s i => foldl_cores _ (fun s d => foldl_cores _ (fun s g => ?_) _ _) _ _) _ _
    dsimp only
    split <;> rfl

@[simp] theorem takePoint_cores (s : State) (h : Half) (p : Nat) : (s.takePoint h p).cores = s.cores := by
  simp [State.takePoint]

@[simp] theorem wakeHalf_cores (s : State) (h : Half) : (s.wakeHalf h).cores = s.cores := by
  unfold State.wakeHalf
  split
  · simp only [State.routersRun, State.setRf_cores, State.setHalf_cores]
    split <;> simp [State.wakeRender]
  · rfl

@[simp] theorem wakePlace_cores (s : State) (l : Loc) : (s.wakePlace l).cores = s.cores := by
  unfold State.wakePlace
  split
  · exact wakeHalf_cores s _
  · rfl

@[simp] theorem log_cores (s : State) (cls src : Nat) (loc addr : Word) : (s.log cls src loc addr).cores = s.cores := by
  obtain ⟨e, f, r, p, m, o, h⟩ := s.log_frame cls src loc addr
  rw [h]

/-! ### Entries of events -/

/-- STOP, once the write to CORE_CTRL has woken what it needs. -/
theorem stop_spec {s : State} {lc : Nat} {w : BitVec 32} {l : Loc}
    (hst : (s.core lc).st = .running ∨ (s.core lc).st = .sleeping) (hw : (s.core lc).icWord (s.core lc).pc = some w) :
    TakesExc (s.core lc) (((s.wakePlace l).stopCore lc).core lc) 0x14 0 (s.core lc).pc 0 w ∧
      ((s.wakePlace l).stopCore lc).mem = s.mem ∧ ∀ k, k ≠ lc → ((s.wakePlace l).stopCore lc).core k = s.core k := by
  have hcore : ∀ k, (s.wakePlace l).core k = s.core k := fun k => by rw [State.core, wakePlace_cores]; rfl
  have hstop : (s.wakePlace l).stopCore lc = (s.wakePlace l).raise lc 0x14 0 0 := by
    unfold State.stopCore
    rw [hcore]
    rcases hst with hst | hst <;> rw [hst]
  rw [hstop]
  refine ⟨?_, by rw [raise_mem, wakePlace_mem], fun k hk => by rw [raise_core_ne _ hk, hcore]⟩
  rw [← hcore] at hst hw ⊢
  exact raise_spec hw (hst.elim .inl fun h => .inr (.inl h)) (by decide) (by decide) 0

/-- The first control-path parity error of a site. -/
theorem parity_spec {s : State} {lc : Nat} {w : BitVec 32} (hval : s.valid lc = true) (hfail : s.failed lc = false)
    (hrun : (s.core lc).st = .running) (hw : (s.core lc).icWord (s.core lc).pc = some w)
    (hpar : (s.site (s.siteOf lc)).parity = 0) :
    ∃ t, exec (.controlPathParityError lc) s = .next t ∧
      TakesExc (s.core lc) (t.core lc) 0x13 0 (s.core lc).pc 0 w ∧ t.mem = s.mem := by
  have hexec : exec (.controlPathParityError lc) s = .next
      (((s.setSite (s.siteOf lc) { s.site (s.siteOf lc) with parity := (s.site (s.siteOf lc)).parity + 1 }).log 6 1
        (locSite (s.siteOf lc) 0) 0).raise lc 0x13 0 0) :=
    (if_pos ⟨hval, by rw [hfail]; decide⟩).trans (if_neg (by omega))
  refine ⟨_, hexec, ?_, by simp⟩
  generalize hu : (s.setSite _ _).log 6 1 _ 0 = u
  have hcore : u.core lc = s.core lc := by rw [← hu, State.core, log_cores, State.setSite_cores]; rfl
  rw [← hcore] at hrun hw ⊢
  exact raise_spec hw (.inl hrun) (by decide) (by decide) 0

/-- TICKET_DEADLOCK of a core at a TKW whose ticket does not hold its counts, every head waiting on an empty ticket. -/
theorem deadlock_spec {s : State} {lc : Nat} {w : BitVec 32} {tk : BitVec 6} {imm : BitVec 11}
    (hrun : (s.core lc).st = .running) (hstall : (s.core lc).stall = .tkw tk imm)
    (hwait : (s.core lc).tkwMet tk imm = false)
    (hheads : ∀ u e rest, (s.core lc).q u = e :: rest →
      e.started = false ∧ e.op.tickets.1 ≠ 0 ∧ (s.core lc).tick e.op.tickets.1 = 0)
    (hw : (s.core lc).icWord (s.core lc).pc = some w) :
    ∃ t, exec (.ticketDeadlock lc) s = .next t ∧ TakesExc (s.core lc) (t.core lc) 0x12 0 (s.core lc).pc 0 w
      ∧ t.mem = s.mem ∧ ∀ k, k ≠ lc → t.core k = s.core k := by
  have hwaits : (s.core lc).waitsTickets = true := by
    rw [Core.waitsTickets, hstall]
    simp only [hrun, hwait, decide_true, Bool.not_false, Bool.and_self]
  have hstuck : (s.core lc).headsStuck = true := by
    refine List.all_eq_true.mpr fun u _ => ?_
    cases hq : (s.core lc).q u with
    | nil => rfl
    | cons e rest =>
      obtain ⟨hns, hne, hzero⟩ := hheads u e rest hq
      simpa [hns, hzero] using hne
  exact ⟨_, if_pos ⟨hwaits, hstuck⟩, raise_spec hw (.inl hrun) (by decide) (by decide) 0, by rw [raise_mem],
    fun k hk => raise_core_ne _ hk _ _ _⟩

/-! ### The obligation -/

/-- Settles O13: each exception's entry. -/
theorem exceptionEntries : Obligations.ExceptionEntries := by
  unfold Obligations.ExceptionEntries
  refine ⟨fun s lc imm h => ?_, fun s lc rd rs1 imm h hmis => ?_,
    fun s lc w hval hfail hclk hrun hstall hw hdec => ?_, fun s lc w hval hst hw => ?_,
    fun s lc w hval hfail hrun hw hpar => ?_, fun s lc w tk imm hrun hstall htk himm hfew hheads hw => ?_⟩
  · exact ⟨_, if_pos h, excAt_spec h rfl (by decide) (Nat.mod_lt _ (by decide)) 0⟩
  · exact ⟨_, if_pos ⟨h, hmis⟩, excAt_spec h rfl (by decide) (by decide) _⟩
  · exact ⟨_, if_pos ⟨hval, by rw [hfail]; decide, hclk, hrun, hstall, hw, hdec⟩, CoreFrame.setCore lc _ _, by
      rw [setCore_core]
      exact takeExc_excWord _ (by decide) (by decide) (.inl hrun)⟩
  · exact ⟨_, if_pos hval, stop_spec hst hw⟩
  · exact parity_spec hval hfail hrun hw hpar
  · exact deadlock_spec hrun hstall (not_tkwMet htk himm hfew) hheads hw

end Sys2Proof.Machine
end

