-- ==== Sys2Proof/Proofs/HaltAndDrain.lean ====
section
/-!
O15. HALT, and the end of a drain: every result that comes later is ready then.
-/

namespace Sys2Proof.Machine

/-- A result that is ready leaves the list of those that come later. -/
theorem lateDone_core (s : State) (lc : Nat) (l : Late) :
    (s.lateDone lc l).core lc = { s.core lc with late := (s.core lc).late.erase l } := by
  unfold State.lateDone
  dsimp only
  split
  · rw [sampleDone_core, setCore_core]
  · exact setCore_core ..

/-- Once every result is ready, none comes later. -/
theorem foldl_lateDone_core (lc : Nat) (ls : List Late) (s : State) (h : (s.core lc).late = ls) :
    (ls.foldl (fun (s : State) (l : Late) => s.lateDone lc l) s).core lc = { s.core lc with late := [] } := by
  induction ls generalizing s with
  | nil => exact congrArg (fun m => { s.core lc with late := m }) h
  | cons l ls ih =>
    have hcore := lateDone_core s lc l
    rw [h, List.erase_cons_head] at hcore
    rw [List.foldl_cons, ih _ (by rw [hcore]), hcore]

/-- The state of a core that has drained, before its state changes. -/
theorem drain_spec (s : State) (lc : Nat) :
    let t := (s.core lc).late.foldl (fun (s : State) (l : Late) => s.lateDone lc l) (s.tickCycle lc)
    CoreFrame lc s t ∧ t.core lc = { s.core lc with late := [] } := by
  obtain ⟨hframe, -⟩ := OnlyLate.foldl (lc := lc) (fun (s : State) (l : Late) => s.lateDone lc l)
    (fun s l => onlyLate_done lc s l) (s.core lc).late (s.tickCycle lc)
  exact ⟨(tickCycle_frame lc s).trans hframe, foldl_lateDone_core lc _ (s.tickCycle lc) rfl⟩

/-- HALT, where it may issue. -/
theorem halt_spec {s : State} {lc : Nat} {xs : BitVec 5} (h : s.canIssue lc (.halt xs) = true) :
    ∃ t, exec (.halt lc xs) s = .next t ∧ CoreFrame lc s t
      ∧ t.core lc = { (s.core lc).touch with
          late := (t.core lc).late, st := .draining, exit := some ((s.core lc).rx xs) } := by
  obtain ⟨hissue, l, hc⟩ := noteIssue_issued lc s
  have hcount := countSample_frame (s.noteIssue lc) lc 0
  have hexec : exec (.halt lc xs) s = .next
      (let u := (s.noteIssue lc).countSample lc 0
      let c := u.1.core lc
      let t := u.1.setCore lc { c with st := .draining, exit := some (c.rx xs) }
      if u.2 then t.sampleDone lc (t.reg (.pmuCycle lc)) c.pc (Flik.halt xs).encode 7 c.missFlag 0 0 else t) := if_pos h
  refine ⟨_, hexec, ?_⟩
  have hset := (hissue.trans hcount).trans (CoreFrame.setCore lc _
    { (s.core lc).issued l with st := .draining, exit := some ((s.core lc).rx xs) })
  dsimp only
  rw [countSample_core, hc, issued_rx]
  split
  · refine ⟨hset.trans (sampleDone_frame ..), ?_⟩
    rw [sampleDone_core, setCore_core, issued_touch]
  · refine ⟨hset, ?_⟩
    rw [setCore_core, issued_touch]

theorem drained_of_empty {c : Core} (h : ∀ u, c.q u = []) : c.drained = true :=
  List.all_eq_true.mpr fun u _ => by rw [h u]; rfl

/-! ### The obligation -/

/-- Settles O15: HALT drains its core, and a drained core ends. -/
theorem haltAndDrain : Obligations.HaltAndDrain := by
  unfold Obligations.HaltAndDrain
  refine ⟨fun s lc xs h => halt_spec h, fun s lc x hst hq hl hs hexit => ?_, fun s lc hst hq hl hs hexit => ?_⟩
  · obtain ⟨hframe, hcore⟩ := drain_spec s lc
    have hexec : exec (.coreDrainComplete lc) s = .next
        (let u := (s.core lc).late.foldl (fun (s : State) (l : Late) => s.lateDone lc l) (s.tickCycle lc)
        u.setCore lc { s.core lc with
          late := [], st := .done, excCause := setFld (s.core lc).excCause 32 8 x.toNat, excAddr := x
          excPc := (s.core lc).pc, excInsn := (u.pcWord lc).getD (s.core lc).excInsn }) := by
      refine (if_pos ⟨hst, drained_of_empty hq, hl, hs⟩).trans ?_
      simp only [hcore, hexit]
    refine ⟨_, hexec, hframe.trans (CoreFrame.setCore lc _ _), ?_⟩
    simp only [setCore_core, true_and, and_true]
    exact fld_setFld_self _ _ _ _ (by decide)
  · obtain ⟨hframe, hcore⟩ := drain_spec s lc
    have hexec : exec (.coreDrainComplete lc) s = .next
        (((s.core lc).late.foldl (fun (s : State) (l : Late) => s.lateDone lc l) (s.tickCycle lc)).setCore lc
          { s.core lc with late := [], st := .faulted }) := by
      refine (if_pos ⟨hst, drained_of_empty hq, hl, hs⟩).trans ?_
      simp only [hcore, hexit]
    exact ⟨_, hexec, hframe.trans (CoreFrame.setCore lc _ _), setCore_core ..⟩

end Sys2Proof.Machine
end

