-- ==== Sys2Proof/Proofs/UnitDispatch.lean ====
section
/-!
O17. The dispatch of unit instructions: every row of a unit instruction is one dispatch, which captures an entry or stalls.
-/

namespace Sys2Proof.Machine

/-! ### Every unit instruction is a dispatch -/

theorem unitRows_dispatch (s : State) (lc : Nat) (f : UnitF) :
    ∀ p ∈ unitRows, ∃ b, exec (p.1 lc (.issue f)) s = .next (s.dispatch lc (p.2 f) b) := by
  unfold unitRows
  simp only [List.forall_mem_cons, List.not_mem_nil, false_imp_iff, implies_true, and_true]
  repeat' apply And.intro
  all_goals exact ⟨_, rfl⟩

theorem exec_dispatches {c : Instr} {lc : Nat} {u : UOp} (h : Dispatches c lc u) (s : State) :
    ∃ b, exec c s = .next (s.dispatch lc u b) := by
  cases h with
  | row p hp _ f => exact unitRows_dispatch s lc f p hp
  | trwMma | trwDrain | trwLdacc | trwClr | brsLdp | brsRun => exact ⟨_, rfl⟩

/-! ### What a dispatch does -/

/-- A dispatch to a queue with room. -/
theorem dispatch_spec {s : State} {lc : Nat} {u : UOp} (b : Bool) (h : s.canIssue lc (.unit u) = true)
    (hroom : ((s.core lc).q u.unit).length < 16) :
    CoreFrame lc s (s.dispatch lc u b) ∧ ∃ l n cyc smp, (s.dispatch lc u b).core lc =
      { (((s.core lc).issued l).setQ u.unit ((s.core lc).q u.unit ++ [((s.core lc).issued l).capture u cyc smp])).next with
        ord := n } := by
  obtain ⟨hissue, l, hc⟩ := noteIssue_issued lc s
  have hcount := countSample_frame (s.noteIssue lc) lc (Flik.unit u).cls
  have hexec : s.dispatch lc u b =
      let t := (s.noteIssue lc).countSample lc (Flik.unit u).cls
      let c := t.1.core lc
      t.1.setCore lc { (c.setQ u.unit (c.q u.unit ++ [c.capture u (t.1.reg (.pmuCycle lc)) t.2])).next with
        ord := c.ord + (if b then 1 else 0) } := (if_pos h).trans (if_neg (by omega))
  rw [hexec]
  dsimp only
  refine ⟨(hissue.trans hcount).trans (CoreFrame.setCore lc _ _), ?_⟩
  rw [setCore_core, countSample_core, hc, issued_q]
  exact ⟨l, _, _, _, rfl⟩

/-- A dispatch to a queue of 16 entries stalls its core. -/
theorem dispatch_full {s : State} {lc : Nat} {u : UOp} (b : Bool) (h : s.canIssue lc (.unit u) = true)
    (hfull : 16 ≤ ((s.core lc).q u.unit).length) :
    CoreFrame lc s (s.dispatch lc u b) ∧ (s.dispatch lc u b).core lc = { s.core lc with qFull := true } := by
  have hexec : s.dispatch lc u b =
      (s.stalled lc 0x05).setCore lc { (s.stalled lc 0x05).core lc with qFull := true } := (if_pos h).trans (if_pos hfull)
  rw [hexec, setCore_core, stalled_core]
  exact ⟨(stalled_frame lc s 0x05).trans (CoreFrame.setCore lc _ _), rfl⟩

/-- What a dispatch captures is what the core held before. -/
theorem captured_issued (c : Core) (l : List Late) (u : UOp) (cyc : Word) (smp : Bool) :
    Captured c u ((c.issued l).capture u cyc smp) := by
  refine ⟨rfl, ?_, issued_seed .., issued_pc .., rfl, rfl⟩
  exact List.map_congr_left fun n _ => issued_rd ..

/-- A queue is no part of a core's registers. -/
theorem setQ_kept (c : Core) (u : UnitId) (q : List UEntry) :
    (c.setQ u q).x = c.x ∧ (c.setQ u q).d = c.d ∧ (c.setQ u q).tk = c.tk ∧ (c.setQ u q).sum = c.sum ∧
      (c.setQ u q).bankA = c.bankA ∧ (c.setQ u q).bankB = c.bankB ∧ (c.setQ u q).pc = c.pc := by
  cases u <;> exact ⟨rfl, rfl, rfl, rfl, rfl, rfl, rfl⟩

/-- The next address and the count of ordinals are no part of the queues. -/
theorem q_next (c : Core) (n : Nat) (u : UnitId) : { c.next with ord := n }.q u = c.q u := by
  cases u <;> rfl

/-! ### The obligation -/

/-- Settles O17: a unit instruction is captured in its unit's queue, or stalls at a full one. -/
theorem unitInstructionsDispatch : Obligations.UnitInstructionsDispatch := by
  unfold Obligations.UnitInstructionsDispatch
  refine ⟨fun s c lc u hdisp h hroom => ?_, fun s c lc u hdisp h hfull => ?_⟩
  · obtain ⟨b, hexec⟩ := exec_dispatches hdisp s
    obtain ⟨hframe, l, n, cyc, smp, hcore⟩ := dispatch_spec b h hroom
    refine ⟨_, ((s.core lc).issued l).capture u cyc smp, hexec, hframe, captured_issued .., ?_⟩
    obtain ⟨hx, hd, htk, hsum, hA, hB, hpc⟩ := setQ_kept ((s.core lc).issued l) u.unit
      ((s.core lc).q u.unit ++ [((s.core lc).issued l).capture u cyc smp])
    rw [hcore]
    refine ⟨(q_next ..).trans (Core.setQ_q ..), fun v hv => ?_, hx.trans (issued_x ..), hd.trans (issued_d ..),
      htk.trans (issued_tk ..), hsum.trans (issued_sum ..), hA.trans (issued_bankA ..), hB.trans (issued_bankB ..), ?_⟩
    · rw [q_next, Core.setQ_q_ne _ hv, issued_q]
    · exact congrArg (· + 4) (hpc.trans (issued_pc ..))
  · obtain ⟨b, hexec⟩ := exec_dispatches hdisp s
    exact ⟨_, hexec, dispatch_full b h hfull⟩

end Sys2Proof.Machine
end

