-- ==== Sys2Proof/Proofs/UnitStarts.lean ====
section
/-!
O18. The start of a unit instruction, what its unit asks of it, and its completion.
-/

namespace Sys2Proof.Machine

/-! ### Starts -/

/-- The units that ask before a unit are those that stand before it. -/
theorem ahead_eq (c : Core) (u : UnitId) (tk : BitVec 6) :
    c.ahead u tk = ((unitsBefore u).filter fun v => c.asks v (c.unitGate v) tk).length := by
  cases u <;> rfl

theorem ticketMet_iff (c : Core) (tk : BitVec 6) (n : Nat) : c.ticketMet tk n = true ↔ tk = 0 ∨ 1 + n ≤ c.tick tk := by
  rw [Core.ticketMet, Bool.or_eq_true, decide_eq_true_iff, decide_eq_true_iff, Nat.add_comm]

/-- The queue after entry i was started: the next reaches the head. -/
def startedQueue (q : List UEntry) (i : Nat) (e : UEntry) (now : Word) : List UEntry :=
  match (q.set i e)[i + 1]? with
  | some n => (q.set i e).set (i + 1) { n with head := now }
  | none => q.set i e

/-- The entry that has started is at its place, and those before it are as they were. -/
theorem startedQueue_getElem? {q : List UEntry} {i k : Nat} (e : UEntry) (now : Word) (hk : k ≤ i) (hi : i < q.length) :
    (startedQueue q i e now)[k]? = if k = i then some e else q[k]? := by
  have hset : (q.set i e)[k]? = if k = i then some e else q[k]? := by
    rw [List.getElem?_set]
    by_cases hki : k = i
    · rw [if_pos hki.symm, if_pos hki, if_pos hi]
    · rw [if_neg (Ne.symm hki), if_neg hki]
  unfold startedQueue
  split
  · rw [List.getElem?_set_ne (by omega), hset]
  · exact hset

/-- The start of an entry changes its queue, its ticket and who owns the array alone. -/
theorem startAt_spec (c : Core) (u : UnitId) (i : Nat) (e : UEntry) (now : Word) :
    ∃ e' b, e'.started = true ∧ e'.op = e.op ∧ e'.ds = e.ds ∧ e'.fin = e.fin ∧
      c.startAt u i e now = { (c.setQ u (startedQueue (c.q u) i e' now)).setTick e.op.tickets.1
        (c.tick e.op.tickets.1 - 1) with stcOwns := b } := by
  refine ⟨{ e with started := true, wait := now - e.head, lost := e.lost || c.takesLost e.op.tickets.1 1 },
    if UOp.owns e.op then true else (c.startAt u i e now).stcOwns, rfl, rfl, rfl, rfl, ?_⟩
  unfold Core.startAt
  cases UOp.owns e.op <;> rfl

/-- A start that nothing holds back. -/
theorem start_spec {s : State} {lc i : Nat} {u : UnitId} {e : UEntry} (hhead : (s.core lc).headOf u = some (i, e))
    (hmet : (s.core lc).ticketMet e.op.tickets.1 ((s.core lc).ahead u e.op.tickets.1) = true)
    (hgate : (s.core lc).unitGate u e = true) (hclk : s.clocked lc = true) (hspill : u = .mover → s.spillWaits lc = false) :
    ∃ t now, exec (.unitInstructionStart lc u) s = .next t
      ∧ (u ≠ .scrim → CoreFrame lc s t) ∧ (u = .scrim → CoreFrame lc s { t with colls := s.colls })
      ∧ t.core lc = (s.core lc).startAt u i e now := by
  have hheld : (u == .mover && s.spillWaits lc) = false := by
    cases u with
    | mover => rw [hspill rfl]; rfl
    | trowel | brush | stencil | scrim => rfl
  have hexec : exec (.unitInstructionStart lc u) s = .next (((s.endMismatches u).tickCycle lc).setCore lc
      ((s.core lc).startAt u i e (((s.endMismatches u).tickCycle lc).reg (.pmuCycle lc)))) := by
    change execUnitInstructionStart lc u s = _
    unfold execUnitInstructionStart
    dsimp only
    rw [hhead]
    exact if_pos (by rw [hmet, hgate, hclk, hheld]; rfl)
  refine ⟨_, _, hexec, fun hu => ?_, fun hu => ?_, setCore_core ..⟩
  · rw [State.endMismatches, if_neg hu]
    exact (tickCycle_frame lc s).trans (CoreFrame.setCore lc _ _)
  · rw [State.endMismatches, if_pos hu]
    exact (tickCycle_frame lc s).trans (CoreFrame.setCore lc _ _)

/-! ### What a unit asks -/

/-- With no entry started, a unit that no Stencil instruction owns takes its head. -/
theorem unitGate_of_idle {c : Core} {u : UnitId} {e : UEntry} (howns : c.stcOwns = false)
    (hidle : ∀ v, ∀ x ∈ c.q v, x.started = false) (hempty : UOp.owns e.op = true → c.q .trowel = [] ∧ c.q .brush = []) :
    c.unitGate u e = true := by
  have hstarted : ∀ v, c.started v = [] := fun v => List.filter_eq_nil_iff.mpr fun x hx => by simp [hidle v x hx]
  have hsent : ∀ v, c.allSent v = true := fun v => by rw [Core.allSent, hstarted]; rfl
  cases u with
  | trowel => simp [Core.unitGate, Core.trowelGate, howns, hstarted]
  | brush => simp [Core.unitGate, Core.brushGate, howns, hstarted]
  | stencil =>
    cases hown : UOp.owns e.op with
    | false => simp [Core.unitGate, Core.stencilGate, hstarted, hown]
    | true =>
      obtain ⟨htrowel, hbrush⟩ := hempty hown
      simp [Core.unitGate, Core.stencilGate, hstarted, Core.headStarts, Core.headOf, htrowel, hbrush, findEntry]
  | mover => exact hsent .mover
  | scrim =>
    change (c.allSent .scrim && _) = true
    rw [hsent, Bool.true_and, hstarted]
    split <;> rfl

/-! ### Completion -/

/-- The core with the summary slot that an instruction names, if it names one. -/
def Core.summed (c : Core) (u : UnitId) (slot : Option (BitVec 3)) (r : Fin) : Core :=
  match slot with
  | some n => c.writeSummary n u r
  | none => c

theorem summed_q (c : Core) (u : UnitId) (slot : Option (BitVec 3)) (r : Fin) (v : UnitId) :
    (c.summed u slot r).q v = c.q v := by
  cases slot <;> cases v <;> rfl

theorem summed_kept (c : Core) (u : UnitId) (slot : Option (BitVec 3)) (r : Fin) :
    (c.summed u slot r).x = c.x ∧ (c.summed u slot r).d = c.d ∧ (c.summed u slot r).tk = c.tk ∧
      (c.summed u slot r).pc = c.pc ∧ (c.summed u slot r).st = c.st := by
  cases slot <;> exact ⟨rfl, rfl, rfl, rfl, rfl⟩

/-- Neither the queues nor the summary slots hold a ticket. -/
theorem tick_completed (c : Core) (u : UnitId) (rest : List UEntry) (slot : Option (BitVec 3)) (r : Fin) (n : BitVec 6) :
    ((c.setQ u rest).summed u slot r).tick n = c.tick n := by
  obtain ⟨-, -, hsum, -⟩ := summed_kept (c.setQ u rest) u slot r
  obtain ⟨-, -, hq, -⟩ := setQ_kept c u rest
  rw [Core.tick, Core.tick, hsum, hq]

/-- The completion of an instruction whose status is not of the fault class and whose ticket has room. -/
theorem complete_eq {s : State} {lc : Nat} {u : UnitId} {e : UEntry} {rest : List UEntry} {r : Fin}
    (howns : UOp.owns e.op = false) (hst : r.status.toNat < 0x40)
    (hroom : (s.core lc).overflows e.op.tickets.2 1 = false) :
    s.complete lc u e rest r = ((s.tickCycle lc).setCore lc
      ((((s.core lc).setQ u rest).summed u e.op.slot r).addTick e.op.tickets.2 1)).unitSample lc u e r.status := by
  have hrel : ((s.core lc).setQ u rest).release e.op = (s.core lc).setQ u rest := by
    rw [Core.release, howns]
    rfl
  have hover : (((s.core lc).setQ u rest).summed u e.op.slot r).overflows e.op.tickets.2 1 = false := by
    rw [← hroom, Core.overflows, Core.overflows, tick_completed]
  have hfault : faultClass r.status = false := by
    rw [faultClass, decide_eq_false (by omega)]
    rfl
  have hstatus : ∀ st : BitVec 8, 0x40 ≤ st.toNat → r.status ≠ st := fun st h0 h1 => by
    rw [h1] at hst
    omega
  have hlost : ∀ c : Core, c.noteLost u e.op.tickets.2 r.status = c := fun c => if_neg (hstatus stReset (by decide))
  have hdef : s.complete lc u e rest r =
      (let c := (((s.core lc).setQ u rest).release e.op).summed u e.op.slot r
      let t := (s.tickCycle lc).setCore lc ((c.addTick e.op.tickets.2 1).noteLost u e.op.tickets.2 r.status)
      let t := if faultClass r.status then t.event lc 0x40 1 else t
      let t := if r.status = stPoisoned then t.log 5 1 (locSite (t.siteOf lc) (unitBlock u)) 0 else t
      let t := t.unitSample lc u e r.status
      let t := if faultClass r.status && !(t.core lc).faultMask.getLsbD (unitNum u) then t.raiseUnit lc u r.status else t
      if c.overflows e.op.tickets.2 1 then t.raise lc 0x11 0 0 else t) := rfl
  rw [hdef, hrel]
  dsimp only
  rw [hlost, hfault, if_neg (hstatus stPoisoned (by decide)), hover]
  rfl

/-- What an instruction's completion does where it is complete_eq's. -/
theorem complete_spec {s : State} {lc : Nat} {u : UnitId} {e : UEntry} {rest : List UEntry} {r : Fin}
    (howns : UOp.owns e.op = false) (hst : r.status.toNat < 0x40)
    (hroom : e.op.tickets.2 = 0 ∨ (s.core lc).tick e.op.tickets.2 < 65535) :
    CoreFrame lc s (s.complete lc u e rest r) ∧ (s.complete lc u e rest r).core lc =
      (((s.core lc).setQ u rest).summed u e.op.slot r).setTick e.op.tickets.2 ((s.core lc).tick e.op.tickets.2 + 1) := by
  have hover : (s.core lc).overflows e.op.tickets.2 1 = false := by
    rcases hroom with h0 | hlt
    · simp [Core.overflows, h0]
    · simp [Core.overflows]; omega
  rw [complete_eq howns hst hover]
  have hframe := (tickCycle_frame lc s).trans (CoreFrame.setCore lc (s.tickCycle lc)
    ((((s.core lc).setQ u rest).summed u e.op.slot r).addTick e.op.tickets.2 1))
  have hadd : (((s.core lc).setQ u rest).summed u e.op.slot r).addTick e.op.tickets.2 1 =
      (((s.core lc).setQ u rest).summed u e.op.slot r).setTick e.op.tickets.2 ((s.core lc).tick e.op.tickets.2 + 1) := by
    rw [Core.addTick, tick_completed]
    rcases hroom with h0 | hlt
    · rw [h0]; rfl
    · rw [min_eq_left (by omega)]
  unfold State.unitSample
  split
  · exact ⟨hframe.trans (sampleDone_frame ..), by rw [sampleDone_core, setCore_core, hadd]⟩
  · exact ⟨hframe, by rw [setCore_core, hadd]⟩

/-- What a summary slot holds once an instruction's summary was written into it. -/
def Core.slotWritten (c : Core) (n : BitVec 3) (u : UnitId) (r : Fin) : Summary where
  max := r.sum.max
  min := r.sum.min
  sum := r.sum.sum
  nnz := r.sum.nnz
  argmax := r.sum.argmax
  flags := r.sum.flags
  status := BitVec.ofNat 64 (r.status.toNat + 256 * unitNum u)
  seq := BitVec.ofNat 64 ((c.sum[n.toNat].seq.toNat + 1) % 2 ^ 32)

/-- A summary slot after one was written. -/
theorem writeSummary_sum (c : Core) (n k : BitVec 3) (u : UnitId) (r : Fin) :
    (c.writeSummary n u r).sum[k.toNat] = if k = n then c.slotWritten n u r else c.sum[k.toNat] := by
  unfold Core.writeSummary
  by_cases h : k = n
  · subst h
    rw [if_pos rfl]
    exact Vector.getElem_set_self ..
  · rw [if_neg h]
    exact Vector.getElem_set_ne n.isLt k.isLt fun e => h (BitVec.eq_of_toNat_eq e.symm)

/-- A summary slot once an instruction that names one has completed. -/
theorem completed_sum (c : Core) (u : UnitId) (rest : List UEntry) (n k : BitVec 3) (r : Fin) (tk : BitVec 6) (v : Nat) :
    (((c.setQ u rest).summed u (some n) r).setTick tk v).sum[k.toNat] =
      if k = n then c.slotWritten n u r else c.sum[k.toNat] := by
  rw [setTick_eq]
  exact (writeSummary_sum ..).trans (by cases u <;> rfl)

/-- A status with its unit fits in a word. -/
theorem status_toNat (st : BitVec 8) (u : UnitId) :
    (BitVec.ofNat 64 (st.toNat + 256 * unitNum u)).toNat = st.toNat + 256 * unitNum u := by
  have hst := st.isLt
  have hu : unitNum u ≤ 4 := by cases u <;> decide
  rw [BitVec.toNat_ofNat, Nat.mod_eq_of_lt (by omega)]

theorem setQ_st (c : Core) (u : UnitId) (q : List UEntry) : (c.setQ u q).st = c.st := by
  cases u <;> rfl

/-- Setting a ticket leaves the queues. -/
theorem setTick_q (c : Core) (n : BitVec 6) (v : Nat) (u : UnitId) : (c.setTick n v).q u = c.q u := by
  rw [setTick_eq]
  cases u <;> rfl

/-- Who owns the array is no part of the queues. -/
theorem owner_q (c : Core) (b : Bool) (u : UnitId) : { c with stcOwns := b }.q u = c.q u := by
  cases u <;> rfl

/-! ### The obligation -/

/-- Settles O18: starts take their tickets in the order of R37, ends signal and fill their slots. -/
theorem unitInstructionsStartAndComplete : Obligations.UnitInstructionsStartAndComplete := by
  unfold Obligations.UnitInstructionsStartAndComplete
  refine ⟨fun s lc i u e hhead htk hgate hclk hspill => ?_, fun c u i e _ howns hidle hempty =>
    unitGate_of_idle howns hidle hempty, fun s lc u e i hhead hne hzero => ?_,
    fun s lc u e rest r hheld hclk hq hstarted hfin howns hst hroom => ?_⟩
  · obtain ⟨t, now, hexec, hframe, hscrim, hcore⟩ := start_spec hhead
      ((ticketMet_iff ..).mpr (by rw [ahead_eq]; exact htk)) hgate hclk hspill
    obtain ⟨e', b, hstarted, hop, hds, hfin, hstart⟩ := startAt_spec (s.core lc) u i e now
    obtain ⟨hi, -, -⟩ := findEntry_spec hhead
    have hlt : i < ((s.core lc).q u).length := (List.getElem?_eq_some_iff.mp hi).1
    obtain ⟨hx, hd, htkq, -, -, -, hpc⟩ := setQ_kept (s.core lc) u (startedQueue ((s.core lc).q u) i e' now)
    have hqs : ∀ v, (t.core lc).q v = ((s.core lc).setQ u (startedQueue ((s.core lc).q u) i e' now)).q v := fun v => by
      rw [hcore, hstart, owner_q, setTick_q]
    have hle := (s.core lc).tick_le e.op.tickets.1
    refine ⟨t, e', hexec, hframe, hscrim, ?_, hstarted, hop, hds, hfin, fun k hk => ?_, fun v hv => ?_,
      writesTk_of_setTick (by omega) ?_, ?_, ?_, ?_⟩
    · rw [hqs, Core.setQ_q, startedQueue_getElem? _ _ le_rfl hlt, if_pos rfl]
    · rw [hqs, Core.setQ_q, startedQueue_getElem? _ _ hk.le hlt, if_neg hk.ne]
    · rw [hqs, Core.setQ_q_ne _ hv]
    all_goals rw [hcore, hstart]
    · exact setTick_tk_congr htkq _ _
    all_goals rw [setTick_eq]
    · exact hx
    · exact hd
    · exact hpc
  · change execUnitInstructionStart lc u s = _
    unfold execUnitInstructionStart
    dsimp only
    rw [hhead]
    refine if_neg fun hmet => ?_
    simp only [Bool.and_eq_true] at hmet
    obtain ⟨⟨⟨hmet, -⟩, -⟩, -⟩ := hmet
    rcases (ticketMet_iff ..).mp hmet with h0 | hle
    · exact hne h0
    · omega
  · obtain ⟨hframe, hcore⟩ := complete_spec (u := u) (rest := rest) howns hst hroom
    have hexec : exec (.unitInstructionComplete lc u) s = .next (s.complete lc u e rest r) := by
      change execUnitInstructionComplete lc u s = _
      unfold execUnitInstructionComplete
      rw [hq]
      dsimp only
      rw [hstarted, hfin]
      exact if_neg fun h => h.elim (fun ⟨hu, hne⟩ => hne (hheld hu)) (by rw [hclk]; decide)
    refine ⟨_, hexec, hframe, ?_⟩
    obtain ⟨hx, hd, htks, hpc, hcst⟩ := summed_kept ((s.core lc).setQ u rest) u e.op.slot r
    obtain ⟨hxq, hdq, htkq, hsumq, -, -, hpcq⟩ := setQ_kept (s.core lc) u rest
    refine ⟨?_, fun v hv => ?_, writesTk_of_setTick ?_ ?_, ?_, ?_, ?_, ?_, fun hslot => ?_, fun n hslot => ?_⟩
    · rw [hcore, setTick_q, summed_q, Core.setQ_q]
    · rw [hcore, setTick_q, summed_q, Core.setQ_q_ne _ hv]
    · rcases hroom with h0 | hlt
      · rw [h0, Core.tick_zero]; decide
      · omega
    · rw [hcore]
      exact setTick_tk_congr (htks.trans htkq) _ _
    · rw [hcore, setTick_eq]
      exact hx.trans hxq
    · rw [hcore, setTick_eq]
      exact hd.trans hdq
    · rw [hcore, setTick_eq]
      exact hpc.trans hpcq
    · rw [hcore, setTick_eq]
      exact hcst.trans (setQ_st ..)
    · rw [hcore, setTick_eq, hslot]
      exact hsumq
    · have hslots := fun k => completed_sum (s.core lc) u rest n k r e.op.tickets.2 ((s.core lc).tick e.op.tickets.2 + 1)
      rw [← hslot, ← hcore] at hslots
      have hn := (hslots n).trans (if_pos rfl)
      rw [hn]
      refine ⟨fun k hk => (hslots k).trans (if_neg hk), status_toNat .., ?_, rfl, rfl, rfl, rfl, rfl, rfl⟩
      exact Nat.mod_eq_of_lt ((Nat.mod_lt _ (by decide)).trans (by decide))

end Sys2Proof.Machine
end

