-- ==== Sys2Proof/Proofs/Monitors.lean ====
section
/-!
SUPPORT for O9 to O11, O14, O16, O19. What reads and writes of memory do to cores: the monitor of a sleeping core's WAITF may note
that its flag was met, and nothing else of any core changes.
-/

namespace Sys2Proof.Machine

/-- Of every core only the monitor of its WAITF may have moved on, and of one that does not sleep nothing. -/
structure MonitorsOnly (s t : State) : Prop where
  rest : ∀ k, t.core k = { s.core k with waitf := (t.core k).waitf }
  awake : ∀ k, (s.core k).st ≠ .sleeping → t.core k = s.core k

theorem MonitorsOnly.of_cores {s t : State} (h : t.cores = s.cores) : MonitorsOnly s t := by
  have hcore : ∀ k, t.core k = s.core k := fun k => by rw [State.core, h]; rfl
  exact ⟨fun k => by rw [hcore], fun k _ => hcore k⟩

theorem MonitorsOnly.refl (s : State) : MonitorsOnly s s := .of_cores rfl

theorem MonitorsOnly.trans {s t u : State} (h : MonitorsOnly s t) (g : MonitorsOnly t u) : MonitorsOnly s u where
  rest k := by rw [g.rest k, h.rest k]
  awake k hk := (g.awake k (by rwa [h.awake k hk])).trans (h.awake k hk)

theorem MonitorsOnly.foldl {β : Type} (f : State → β → State) (h : ∀ s x, MonitorsOnly s (f s x)) (l : List β)
    (s : State) : MonitorsOnly s (l.foldl f s) := by
  induction l generalizing s with
  | nil => exact .refl s
  | cons x l ih => exact (h s x).trans (ih (f s x))

theorem evalWaitf_monitors (s : State) (lc key len : Nat) : MonitorsOnly s (s.evalWaitf lc key len) := by
  unfold State.evalWaitf
  dsimp only
  split
  case h_1 => exact .refl s
  case h_2 w hw =>
    split
    case isFalse => exact .refl s
    case isTrue hmet =>
      obtain ⟨hsleep, -⟩ := hmet
      have hset : ∀ k, k ≠ lc → (s.setCore lc { s.core lc with waitf := some { w with met := true } }).core k = s.core k :=
        fun k hk => mapGet_set_ne _ _ _ hk
      refine ⟨fun k => ?_, fun k hk => hset k fun e => hk (e ▸ hsleep)⟩
      by_cases hk : k = lc
      · rw [hk, setCore_core]
      · rw [hset k hk]

theorem writeRun_monitors (s : State) (key : Nat) (bs : List Byte) : MonitorsOnly s (s.writeRun key bs) := by
  unfold State.writeRun
  dsimp only
  split
  · split
    · refine MonitorsOnly.trans ?_ (evalWaitf_monitors _ _ _ _)
      exact .of_cores rfl
    · exact .of_cores rfl
  · exact .of_cores rfl

theorem rndAccess_cores (s : State) (p len code : Nat) : (s.rndAccess p len code).cores = s.cores := by
  rw [rndAccess_frame]

/-- The poisoned granules of a line that was written back. -/
def rcBackPoison (l : RcLine) (p : Nat) (s : State) : State :=
  (List.range 4).foldl (fun (s : State) i => if l.poison.getLsbD i then s.poisonGran (p + 64 * i) else s) s

theorem rcBackPoison_cores (l : RcLine) (p : Nat) (s : State) : (rcBackPoison l p s).cores = s.cores := by
  refine foldl_cores _ (fun s i => ?_) _ _
  split <;> rfl

/-- A write-back: its count, its access of render memory, its write and its poison. -/
theorem rcBack_eq (s : State) (l : RcLine) :
    s.rcBack l = rcBackPoison l (ilvToPlumb (l.tag * 256))
      (((s.lathEvent (s.slices.getD (l.tag % s.sliceCount) 0) 5 1).rndAccess (ilvToPlumb (l.tag * 256)) 256 2).writeRun
        (ilvToPlumb (l.tag * 256)) l.data) := by
  unfold State.rcBack rcBackPoison
  with_reducible rfl

theorem rcBack_monitors (s : State) (l : RcLine) : MonitorsOnly s (s.rcBack l) := by
  have hread : ∀ p, MonitorsOnly s
      ((s.lathEvent (s.slices.getD (l.tag % s.sliceCount) 0) 5 1).rndAccess p 256 2) := fun p =>
    .of_cores (by rw [rndAccess_cores, lathEvent_cores])
  rw [rcBack_eq]
  exact ((hread _).trans (writeRun_monitors ..)).trans (.of_cores (rcBackPoison_cores ..))

theorem rcEvict_monitors (s : State) (l : RcLine) : MonitorsOnly s (s.rcEvict l) := by
  unfold State.rcEvict
  split
  · exact .refl s
  · split
    · exact .of_cores rfl
    · exact rcBack_monitors s l

theorem rcLine_monitors (s : State) (g : Nat) : MonitorsOnly s (s.rcLine g).1 := by
  unfold State.rcLine
  dsimp only
  split
  · exact .of_cores (lathEvent_cores ..)
  · have hread : MonitorsOnly s
        ((s.rndAccess (ilvToPlumb (g * 256)) 256 1).lathEvent (s.slices.getD (g % s.sliceCount) 0) 4 1) :=
      .of_cores ((lathEvent_cores ..).trans (rndAccess_cores ..))
    refine hread.trans ?_
    split
    · split
      · exact (rcEvict_monitors _ _).trans (.of_cores rfl)
      · exact .of_cores rfl
    · exact .of_cores rfl

theorem hodAccess_cores (s : State) (k code : Nat) : (s.hodAccess k code).cores = s.cores := by
  unfold State.hodAccess
  rw [lathEvent_cores, rouse_frame]

/-- The fetch of a line reads it, and may move lines of the render cache. -/
theorem readLine_monitors (s : State) (lc tag : Nat) : MonitorsOnly s (s.readLine lc tag).1 := by
  unfold State.readLine
  dsimp only
  split
  · exact .refl s
  · split
    · split
      · exact .of_cores (rndAccess_cores ..)
      · exact rcLine_monitors s _
    · exact .of_cores (rndAccess_cores ..)
    · exact .of_cores (hodAccess_cores ..)
    · exact .refl s

end Sys2Proof.Machine
end

