-- ==== Sys2Proof/Proofs/LaunchEntry.lean ====
section
/-!
O19. The state of a core at launch entry: its registers, and that the preload of its instruction cache changes none of them.
-/

namespace Sys2Proof.Machine

/-! ### Rows that cross a free channel -/

/-- A row with no error crosses a channel that carries rows, and changes the channel's count of replays alone. -/
theorem cross_of_free {s : State} {site : Nat} {d : VcDir} (h : ChannelFree s site d) :
    ∃ t, s.cross site d [] = some t ∧ ∃ v, t = { s with vcs := v } := by
  obtain ⟨hret, hwin, hclk, hwidth⟩ := h
  unfold State.cross
  rw [hret, hwin, hclk, hwidth]
  by_cases hatt : (s.vc site d).attempt = 0
  · exact ⟨s, by simp [hatt, flipsOf, tooMany], _, rfl⟩
  · exact ⟨s.setVc site d { s.vc site d with attempt := 0 }, by simp [hatt, flipsOf, tooMany], _, rfl⟩

/-! ### The registers at entry -/

/-- Clearing the two lowest bits of an address. -/
theorem and_not_three_toNat (x : LAddr) : (x &&& ~~~(3 : LAddr)).toNat = x.toNat / 4 * 4 := by
  have hbit : ∀ i, (3 : LAddr).getLsbD i = decide (i < 2) := fun i => by
    rcases i with _ | _ | i
    · rfl
    · rfl
    · change (3#44).getLsbD (i + 1 + 1) = _
      rw [BitVec.getLsbD_ofNat, Nat.testBit_lt_two_pow (Nat.lt_of_lt_of_le (by decide : 3 < 2 ^ 2)
        (Nat.pow_le_pow_right (by decide) (by omega)))]
      simp
  have hshift : x &&& ~~~(3 : LAddr) = (x >>> 2) <<< 2 := by
    refine BitVec.eq_of_getLsbD_eq fun i hi => ?_
    rw [BitVec.getLsbD_and, BitVec.getLsbD_not, hbit, BitVec.getLsbD_shiftLeft, BitVec.getLsbD_ushiftRight,
      decide_eq_true hi]
    by_cases h2 : i < 2
    · simp [h2]
    · rw [show 2 + (i - 2) = i by omega]
      simp [h2]
  have hx := x.isLt
  rw [hshift, BitVec.toNat_shiftLeft, BitVec.toNat_ushiftRight, Nat.shiftRight_eq_div_pow, Nat.shiftLeft_eq]
  omega

/-- A register file in which the first registers above x0 are set, in their order, and the others are 0. -/
theorem setRegs_getElem (a1 a2 a3 a4 a5 a6 a7 a8 : Word) {k : Nat} (hk : k < 32) :
    (([(1, a1), (2, a2), (3, a3), (4, a4), (5, a5), (6, a6), (7, a7), (8, a8)] : List (Nat × Word)).foldl
      (fun v p => v.setIfInBounds p.1 p.2) (Vector.replicate 32 (0 : Word)))[k] =
      [0, a1, a2, a3, a4, a5, a6, a7, a8].getD k 0 := by
  simp only [List.foldl_cons, List.foldl_nil, Vector.getElem_setIfInBounds, Vector.getElem_replicate]
  interval_cases k <;> rfl

/-- The registers that an entry sets. -/
theorem entry_rx (c : Core) (pc : LAddr) (a1 a2 a3 a4 a5 a6 a7 a8 : Word) (slot : Nat) (r : BitVec 5) :
    (c.entry pc [(1, a1), (2, a2), (3, a3), (4, a4), (5, a5), (6, a6), (7, a7), (8, a8)] slot).rx r =
      [0, a1, a2, a3, a4, a5, a6, a7, a8].getD r.toNat 0 := by
  unfold Core.rx
  split
  case isTrue h0 => rw [h0]; rfl
  case isFalse => exact setRegs_getElem a1 a2 a3 a4 a5 a6 a7 a8 r.isLt

theorem ic_rx (c : Core) (ic : List ICLine) (r : BitVec 5) : { c with ic := ic }.rx r = c.rx r := rfl

theorem zero_d (n : BitVec 4) : Core.zero.d[n.toNat] = 0 := by
  unfold Core.zero
  exact Vector.getElem_replicate ..

theorem zero_tk (n : BitVec 6) : Core.zero.tk[n.toNat] = 0 := by
  unfold Core.zero
  exact Vector.getElem_replicate ..

theorem zero_sum (n : BitVec 3) : Core.zero.sum[n.toNat] = Summary.zero := by
  unfold Core.zero
  exact Vector.getElem_replicate ..

/-- An entered core's descriptor registers, tickets, summary slots and queues are empty. -/
theorem entry_empty (c : Core) (pc : LAddr) (xs : List (Nat × Word)) (slot : Nat) (ic : List ICLine) :
    let d := { c.entry pc xs slot with ic := ic }
    (∀ n, d.rd n = 0) ∧ (∀ n, d.tick n = 0) ∧ (∀ n : BitVec 3, d.sum[n.toNat] = Summary.zero) ∧ ∀ u, d.q u = [] := by
  refine ⟨fun n => ?_, fun n => ?_, fun n => ?_, fun u => ?_⟩
  all_goals simp only [Core.rd, Core.tick, Core.entry]
  · exact zero_d n
  · rw [zero_tk]
    exact ite_self _
  · exact zero_sum n
  · cases u <;> rfl

/-! ### The preload -/

/-- The preload brings lines into the instruction cache of a core that runs, and changes nothing else of it. -/
theorem preload_core {s : State} {lc : Nat} (h : (s.core lc).st = .running) (pc : LAddr) :
    ∃ ic, (s.preload lc pc).core lc = { s.core lc with ic := ic } := by
  unfold State.preload
  generalize List.range 256 = ks
  induction ks generalizing s with
  | nil => exact ⟨(s.core lc).ic, rfl⟩
  | cons k ks ih =>
    have hline : ((s.readLine lc (pc.toNat / 256 + k)).1).core lc = s.core lc :=
      (readLine_monitors s lc _).awake lc (by rw [h]; decide)
    rw [List.foldl_cons]
    dsimp only
    split
    case h_1 t l hread =>
      rw [hread] at hline
      obtain ⟨ic, hic⟩ := ih (s := t.setCore lc ((t.core lc).putLine l)) (by
        rw [setCore_core]
        exact (congrArg Core.st hline).trans h)
      refine ⟨ic, hic.trans ?_⟩
      rw [setCore_core, ← hline]
      rfl
    case h_2 t hread =>
      rw [hread] at hline
      obtain ⟨ic, hic⟩ := ih (s := t) (by rw [hline, h])
      exact ⟨ic, by rw [hic, hline]⟩

/-! ### The state before the preload -/

/-- Noting an entry changes launch slots alone. -/
theorem noteEntry_frame (s : State) (lc i : Nat) (d : List Byte) :
    ∃ sl orp, s.noteEntry lc i d = { s with slots := sl, orphans := orp } := by
  unfold State.noteEntry
  dsimp only
  split <;> exact ⟨_, _, rfl⟩

/-- The cores that a descriptor names are among the 144. -/
theorem lt_of_mem_coreSet {w0 w1 w2 w3 : Word} {n k : Nat} {ns : List Nat} (h : coreSet w0 w1 w2 w3 n = some ns)
    (hk : k ∈ ns) : k < 144 := by
  have hfilter : ∀ (p : Nat → Bool), k ∈ (List.range 144).filter p → k < 144 := fun p hp =>
    List.mem_range.mp (List.mem_of_mem_filter hp)
  unfold coreSet at h
  dsimp only at h
  split at h
  case isTrue => cases h
  case isFalse =>
    split at h
    case h_2 => cases h
    case h_1 l hl =>
      split at h
      case isTrue => cases h
      case isFalse =>
        cases h
        split at hl
        · split at hl
          · cases hl; exact hfilter _ hk
          · cases hl
        · split at hl
          · cases hl; exact hfilter _ hk
          · cases hl

/-- A core that a launch waits for is one of the 144. -/
theorem lt_of_launchOf {s : State} {lc i : Nat} {d : List Byte} {ns : List Nat} (h : s.launchOf lc = some (i, d, ns)) :
    lc < 144 := by
  obtain ⟨o, -, ho⟩ := List.exists_of_findSome?_eq_some h
  split at ho
  case h_2 => cases ho
  case h_1 d' hd =>
    split at ho
    case h_2 => cases ho
    case h_1 ms hms =>
      split at ho
      case isFalse => cases ho
      case isTrue hc =>
        cases ho
        exact lt_of_mem_coreSet hms (List.contains_iff_mem.mp hc.1)

/-- A cycle of a core leaves the map and the identity of the device. -/
theorem tickCycle_rf (s : State) {lc : Nat} (hlc : lc < 144) {r : Reg} (hr : lathBase ≤ r.addr) (lo len : Nat) :
    (s.tickCycle lc).rf r lo len = s.rf r lo len := by
  refine rf_congr ((tickCycle_frame lc s).regs _ fun hc => ?_) lo len
  unfold lathBase at hr
  rcases hc with h | h | h | ⟨i, hi, h⟩
  all_goals
    rw [h] at hr
    unfold Reg.addr coreBase at hr
    dsimp only at hr
    omega

/-! ### The entry -/

/-- The registers that a core of a launch starts with. -/
def entryRegs (s : State) (lc i : Nat) (d : List Byte) (ns : List Nat) : List (Nat × Word) :=
  [(1, BitVec.ofNat 64 lc), (2, BitVec.ofNat 64 ((ns.idxOf? lc).getD 0)), (3, BitVec.ofNat 64 ns.length),
   (4, launchWord d 1), (5, BitVec.ofNat 64 (s.rf .klkIdent 0 12)), (6, BitVec.ofNat 64 (s.rf .mcMap 32 32)),
   (7, BitVec.ofNat 64 i), (8, BitVec.ofNat 64 s.inForce)]

/-- The state in which a core's entry is noted, its rows having crossed. -/
def enteringState (s : State) (lc i : Nat) (d : List Byte) : State :=
  { s.tickCycle lc with power := { (s.tickCycle lc).power with
    pgated := setDel (s.tickCycle lc).power.pgated lc } }.noteEntry lc i d

theorem enteringState_core (s : State) (lc i : Nat) (d : List Byte) (k : Nat) :
    (enteringState s lc i d).core k = s.core k := by
  unfold enteringState
  generalize hu : ({ s.tickCycle lc with power := _ } : State) = u
  obtain ⟨sl, orp, h⟩ := noteEntry_frame u lc i d
  rw [h, ← hu]
  rfl

/-- The entry address of a launch. -/
def entryPc (d : List Byte) : LAddr := (launchWord d 0).setWidth 44 &&& ~~~3

/-- What a launch entry does. -/
theorem entry_spec {s : State} {lc i : Nat} {d : List Byte} {ns : List Nat} (h : s.launchOf lc = some (i, d, ns))
    (hon : s.halfOff (halfOf (s.siteOf lc)) = false) (hfail : s.failed lc = false)
    (hfree : ChannelFree s (s.siteOf lc) .up) (hst : (s.core lc).free = true) :
    ∃ t ic, exec (.coreLaunchEntry ⟨lc, []⟩) s = .next t ∧
      t.core lc = { (s.core lc).entry (entryPc d) (entryRegs s lc i d ns) i with ic := ic } := by
  obtain ⟨u, hcross, v, hu⟩ := cross_of_free hfree
  obtain ⟨-, -, hclk, -⟩ := hfree
  have hexec : exec (.coreLaunchEntry ⟨lc, []⟩) s = .next (((enteringState u lc i d).setCore lc
      (((enteringState u lc i d).core lc).entry (entryPc d) (entryRegs (u.tickCycle lc) lc i d ns) i)).preload lc
        (entryPc d)) := by
    change execCoreLaunchEntry ⟨lc, []⟩ s = _
    unfold execCoreLaunchEntry
    dsimp only
    rw [h]
    dsimp only
    rw [if_neg (by rw [hon, hst, hfail, State.clocked, hclk]; decide), hcross]
    rfl
  have hregs : entryRegs (u.tickCycle lc) lc i d ns = entryRegs s lc i d ns := by
    have hrf : ∀ r : Reg, lathBase ≤ r.addr → ∀ lo len, (u.tickCycle lc).rf r lo len = s.rf r lo len :=
      fun r hr lo len => (tickCycle_rf u (lt_of_launchOf h) hr lo len).trans (by rw [hu]; rfl)
    unfold entryRegs State.inForce
    rw [hrf .klkIdent (by decide), hrf .mcMap (by decide), hrf .mcMap (by decide)]
  have hcore : (enteringState u lc i d).core lc = s.core lc := by rw [enteringState_core, hu]; rfl
  rw [hregs, hcore] at hexec
  obtain ⟨ic, hic⟩ := preload_core (s := (enteringState u lc i d).setCore lc
    ((s.core lc).entry (entryPc d) (entryRegs s lc i d ns) i)) (lc := lc) (by rw [setCore_core]; rfl) (entryPc d)
  rw [setCore_core] at hic
  exact ⟨_, ic, hexec, hic⟩

/-! ### The obligation -/

/-- Settles O19: a launch's core is entered with the registers of R85. -/
theorem launchEntryState : Obligations.LaunchEntryState := by
  unfold Obligations.LaunchEntryState
  refine ⟨fun s lc i d ns h hon hfail hfree hst => ?_, fun s lc errs hst => ?_⟩
  · have hcore : (s.core lc).free = true := by rcases hst with e | e | e <;> simp [Core.free, e]
    obtain ⟨t, ic, hexec, ht⟩ := entry_spec h hon hfail hfree hcore
    refine ⟨t, hexec, ?_⟩
    rw [ht]
    have hpc : (entryPc d).toNat = (launchWord d 0).toNat % 2 ^ 44 / 4 * 4 := by
      rw [entryPc, and_not_three_toNat, BitVec.toNat_setWidth]
    have hrx : ∀ r, { (s.core lc).entry (entryPc d) (entryRegs s lc i d ns) i with ic := ic }.rx r = _ := fun r => by
      rw [ic_rx, entryRegs, entry_rx]
    generalize entryRegs s lc i d ns = xs at hrx ⊢
    obtain ⟨hrd, htick, hsum, hq⟩ := entry_empty (s.core lc) (entryPc d) xs i ic
    exact ⟨rfl, hpc, hrx, hrd, htick, hsum, rfl, hq, rfl, rfl, rfl, rfl, rfl⟩
  · have hcore : (s.core lc).free = false := by rcases hst with e | e | e <;> simp [Core.free, e]
    change execCoreLaunchEntry ⟨lc, errs⟩ s = _
    unfold execCoreLaunchEntry
    dsimp only
    split
    · rfl
    · exact if_pos (.inr (.inl (by rw [hcore]; rfl)))

end Sys2Proof.Machine
end

