-- ==== Sys2Proof/Proofs/ResetState.lean ====
section
/-!
O58. The state at reset.
-/

namespace Sys2Proof.Machine

/-- A field of a register at reset is that of its reset word. -/
theorem reset_rf {r : Reg} (h : r.resetWord = 0) (lo len : Nat) : State.reset.rf r lo len = 0 := by
  change fld r.resetWord lo len = 0
  rw [h]
  simp [fld]

/-- Before a start the device is not ready. -/
theorem ready_reset : State.reset.ready = false := by
  rw [State.ready, reset_rf rfl]
  rfl

/-- A device that is not ready counts no cycle. -/
theorem step_reset : step State.reset = .next State.reset := by
  change Host.Outcome.next State.reset.tick = _
  rw [State.tick, ready_reset]
  rfl

theorem zero_rx (r : BitVec 5) : Core.zero.rx r = 0 := by
  unfold Core.rx
  split
  case isTrue => rfl
  case isFalse =>
    unfold Core.zero
    exact Vector.getElem_replicate ..

/-- Settles O58: every map of the reset state is empty, so every part holds its value at reset. -/
theorem resetState : Obligations.ResetState := by
  unfold Obligations.ResetState
  exact ⟨rfl, rfl, step_reset, fun k => ⟨rfl, rfl⟩, fun lc => ⟨rfl, (by decide : coreStatusWord Core.zero = 0)⟩,
    fun lc r => zero_rx r, fun r => rfl, ready_reset, ⟨rfl, rfl, rfl, ready_reset, rfl, reset_rf rfl 32 32⟩,
    fun p => ⟨reset_rf rfl 0 4, rfl, rfl, rfl⟩, rfl, rfl, rfl, rfl, rfl, rfl, rfl⟩

end Sys2Proof.Machine
end

