-- ==== Sys2Proof/Proofs/Corrections.lean ====
section
/-!
SUPPORT for O10, O14. What errors that correction takes away change: counters, the error log and its signals, and neither memory
nor a core nor the logical map.
-/

namespace Sys2Proof.Machine

/-! ### The registers of the logical map -/

/-- An address of a Lath register below the counters, other than the error log's. -/
def MapAddr (a : Nat) : Prop :=
  lathBase ≤ a ∧ a < lathBase + 0x50000 ∧ a ≠ Reg.errLog.addr ∧ a ≠ Reg.errStatus.addr

theorem mapAddr_mcMap : MapAddr Reg.mcMap.addr := by
  unfold MapAddr
  decide

theorem mapAddr_mcLc {n : Nat} (h : n < 256) : MapAddr (Reg.mcLc n).addr := by
  refine ⟨?_, ?_, ?_, ?_⟩
  all_goals
    unfold Reg.addr
    dsimp only
    omega

theorem mapAddr_pciHwin {k : Nat} (h : k < 8) : MapAddr (Reg.pciHwin k).addr := by
  refine ⟨?_, ?_, ?_, ?_⟩
  all_goals
    unfold Reg.addr
    dsimp only
    omega

/-- The registers in which a core counts stand below those of Lath. -/
theorem MapAddr.not_countAddr {a n : Nat} (h : MapAddr a) (hn : n < 256) : ¬ CountAddr n a := by
  obtain ⟨hlo, -⟩ := h
  unfold lathBase at hlo
  rintro (e | e | e | ⟨i, hi, e⟩)
  all_goals
    unfold Reg.addr at e
    dsimp only at e
    unfold coreBase at e
    omega

theorem MapAddr.not_lathCountAddr {a : Nat} (h : MapAddr a) : ¬ LathCountAddr a := not_lathCountAddr_of_lt h.2.1

/-! ### States with one logical map -/

/-- Two states place every address alike: the hod's slices, the render cache's size and the registers of the map agree. -/
structure SameMap (s t : State) : Prop where
  slices : t.slices = s.slices
  rcMib : t.rcMib = s.rcMib
  regs : ∀ a, MapAddr a → mapGet? t.regs a = mapGet? s.regs a

section map
variable {s t u : State} (h : SameMap s t)

theorem SameMap.refl (s : State) : SameMap s s := ⟨rfl, rfl, fun _ _ => rfl⟩

theorem SameMap.trans (h : SameMap s t) (g : SameMap t u) : SameMap s u :=
  ⟨g.slices.trans h.slices, g.rcMib.trans h.rcMib, fun a ha => (g.regs a ha).trans (h.regs a ha)⟩

/-- What acts on one core alone leaves the map. -/
theorem CoreFrame.sameMap {lc : Nat} (hlc : lc < 256) (h : CoreFrame lc s t) : SameMap s t :=
  ⟨by rw [h.rest], by rw [h.rest], fun a ha => h.regs a (ha.not_countAddr hlc)⟩

include h

theorem SameMap.rf_mcLc {n : Nat} (hn : n < 256) (lo len : Nat) : t.rf (.mcLc n) lo len = s.rf (.mcLc n) lo len :=
  rf_congr (h.regs _ (mapAddr_mcLc hn)) lo len

theorem SameMap.inForce : t.inForce = s.inForce := rf_congr (h.regs _ mapAddr_mcMap) 0 8

theorem SameMap.siteOf {n : Nat} (hn : n < 256) : t.siteOf n = s.siteOf n := siteOf_congr (h.regs _ (mapAddr_mcLc hn))

theorem SameMap.failed {n : Nat} (hn : n < 256) : t.failed n = s.failed n := by
  unfold State.failed
  rw [h.rf_mcLc hn]

theorem SameMap.valid {n : Nat} (hn : n < 256) : t.valid n = s.valid n := by
  unfold State.valid
  rw [h.inForce, h.rf_mcLc hn]

theorem SameMap.lcAt (site : Nat) : t.lcAt site = s.lcAt site := by
  unfold State.lcAt
  refine List.find?_congr fun n hn => ?_
  have hn : n < 256 := (List.mem_range.mp hn).trans (by decide)
  rw [h.valid hn, h.siteOf hn]

end map

theorem inForce_lt (s : State) : s.inForce < 256 := fld_lt ..

theorem valid_lt {s : State} {lc : Nat} (h : s.valid lc = true) : lc < 256 := by
  unfold State.valid at h
  rw [Bool.and_eq_true, decide_eq_true_iff] at h
  exact h.1.trans (inForce_lt s)

/-! ### Errors that correction takes away -/

/-- An error that correction takes away: counters, the error log and its signals move on, and nothing else does. -/
structure Corrects (s t : State) : Prop where
  rest : t = { s with regs := t.regs, errlog := t.errlog, flash := t.flash, seen := t.seen, msix := t.msix, out := t.out
                      pins := t.pins }
  map : SameMap s t

section corrects
variable {s t u : State}

theorem Corrects.refl (s : State) : Corrects s s := ⟨rfl, .refl s⟩

theorem Corrects.trans (h : Corrects s t) (g : Corrects t u) : Corrects s u where
  rest := by
    rw [g.rest, h.rest]
  map := h.map.trans g.map

theorem Corrects.of_regs (hr : t = { s with regs := t.regs })
    (h : ∀ a, MapAddr a → mapGet? t.regs a = mapGet? s.regs a) : Corrects s t :=
  ⟨by rw [hr], by rw [hr], by rw [hr], h⟩

end corrects

theorem event_corrects (s : State) {lc : Nat} (hlc : lc < 256) (code n : Nat) : Corrects s (s.event lc code n) :=
  .of_regs (event_regs ..) fun a ha => (event_frame lc s code n).regs a (ha.not_countAddr hlc)

theorem lathEvent_corrects (s : State) {b : Nat} (hb : b < 313) (code n : Nat) : Corrects s (s.lathEvent b code n) :=
  .of_regs (lathEvent_regs ..) fun a ha => lathEvent_lathFrame s hb code n a ha.not_lathCountAddr

theorem setRf_corrects (s : State) {r : Reg} (hr : r = .errLog ∨ r = .errStatus) (lo len v : Nat) :
    Corrects s (s.setRf r lo len v) := by
  refine .of_regs rfl fun a ha => setRf_regs_ne s lo len v ?_
  obtain ⟨-, -, hlog, hstatus⟩ := ha
  rcases hr with rfl | rfl
  · exact hlog
  · exact hstatus

theorem msi_corrects (s : State) (v : Nat) : Corrects s (s.msi v) := by
  unfold State.msi
  dsimp only
  split
  · exact ⟨rfl, rfl, rfl, fun _ _ => rfl⟩
  · unfold State.sendMsi
    refine Corrects.trans ?_ (lathEvent_corrects _ (by decide) _ _)
    exact ⟨rfl, rfl, rfl, fun _ _ => rfl⟩

theorem alertNow_corrects (s : State) : Corrects s s.alertNow := by
  unfold State.alertNow
  exact ⟨rfl, rfl, rfl, fun _ _ => rfl⟩

/-- The registers of a record: the log's head and count, the class's status bit and the signal. -/
theorem logRegs_corrects (s : State) (cls h o : Nat) : Corrects s
    (((s.setRf .errLog 0 10 h).setRf .errLog 32 32 o).setRf .errStatus cls 1 1).alertNow :=
  (((setRf_corrects _ (.inl rfl) ..).trans (setRf_corrects _ (.inl rfl) ..)).trans
    (setRf_corrects _ (.inr rfl) ..)).trans (alertNow_corrects _)

theorem log_corrects (s : State) (cls src : Nat) (loc addr : Word) : Corrects s (s.log cls src loc addr) := by
  have hrec : ∀ (e : FMap ErrRec) (f : Flash), Corrects s { s with errlog := e, flash := f } := fun e f =>
    ⟨rfl, rfl, rfl, fun _ _ => rfl⟩
  unfold State.log
  extract_lets h o r f u v w
  have hw : Corrects s w := (hrec _ _).trans (logRegs_corrects u cls (h + 1) (o + 1))
  split
  · exact hw.trans (msi_corrects ..)
  · exact hw

theorem logFirst_corrects (s : State) (place src : Nat) (loc addr : Word) : Corrects s (s.logFirst place src loc addr) := by
  unfold State.logFirst
  split
  · exact .refl s
  · refine Corrects.trans ?_ (log_corrects _ _ _ _ _)
    exact ⟨rfl, rfl, rfl, fun _ _ => rfl⟩

theorem lcAt_lt {s : State} {site lc : Nat} (h : s.lcAt site = some lc) : lc < 144 :=
  List.mem_range.mp (List.mem_of_find?_eq_some h)

theorem meetHawk_soft_corrects (s : State) (key : Nat) : Corrects s (s.meetHawk .soft key) := by
  unfold State.meetHawk
  dsimp only
  split
  case h_1 lc hlc => exact (event_corrects s ((lcAt_lt hlc).trans (by decide)) _ _).trans (logFirst_corrects _ _ _ _ _)
  case h_2 => exact logFirst_corrects _ _ _ _ _

/-- A soft error of a hawk word is corrected (16 R539). -/
theorem meetErr_corrects (s : State) {e : MemErr} (hk : e.kind = .soft) (hlo : 2 ^ 45 ≤ e.key) (hhi : e.key < 2 ^ 46) :
    Corrects s (s.meetErr e) := by
  have hplace : s.errPlace e.key = e.key := if_neg fun h => by omega
  unfold State.meetErr
  dsimp only
  rw [hplace, hk, if_neg (show ¬ 2 ^ 50 ≤ e.key by omega), if_neg (show ¬ 2 ^ 47 ≤ e.key by omega),
    if_neg (show ¬ e.key < 2 ^ 45 by omega), if_pos hhi]
  split
  · exact .refl s
  · exact meetHawk_soft_corrects s _

theorem meet_corrects (s : State) {errs : List MemErr} (h : Corrected errs) : Corrects s (s.meet errs) := by
  unfold State.meet
  induction errs generalizing s with
  | nil => exact .refl s
  | cons e es ih =>
    obtain ⟨hk, hlo, hhi⟩ := h e List.mem_cons_self
    exact (meetErr_corrects s hk hlo hhi).trans (ih _ fun x hx => h x (List.mem_cons_of_mem e hx))

section kept
variable {s t : State} (h : Corrects s t)
include h

theorem Corrects.core (k : Nat) : t.core k = s.core k := by rw [h.rest]; rfl

theorem Corrects.clocked {lc : Nat} (hlc : lc < 256) : t.clocked lc = s.clocked lc := by
  unfold State.clocked
  rw [h.map.siteOf hlc, h.rest]
  cases halfOf (s.siteOf lc) <;> rfl

theorem Corrects.hawkWord {lc : Nat} (hlc : lc < 256) (off : Nat) : t.hawkWord lc off = s.hawkWord lc off := by
  unfold State.hawkWord
  rw [h.map.siteOf hlc, h.rest]
  rfl

/-- An instruction that may issue may issue once the errors of its read are corrected. -/
theorem Corrects.canIssue {lc : Nat} {i : Flik} (hi : s.canIssue lc i = true) : t.canIssue lc i = true := by
  obtain ⟨hval, -⟩ := canIssue_spec hi
  have hlc := valid_lt hval
  unfold State.canIssue at hi ⊢
  rwa [h.core, h.map.valid hlc, h.map.failed hlc, h.clocked hlc]

end kept

end Sys2Proof.Machine
end

