-- ==== Sys2Proof/Proofs/WaitfSleepsAndWakes.lean ====
section
/-!
O14. WAITF: the read of its flag, and the four ways in which it goes on.
-/

namespace Sys2Proof.Machine

/-- The conditions of WAITF, by their codes (02 R71). -/
theorem waitfCond_iff {cond : BitVec 3} (h : cond ≠ 7) (v c : Word) : waitfCond cond v c = true ↔
    (cond = 0 ∧ v = c) ∨ (cond = 1 ∧ v ≠ c) ∨ (cond = 2 ∧ c.toNat ≤ v.toNat) ∨ (cond = 3 ∧ v.toNat < c.toNat)
      ∨ (cond = 4 ∧ c.toInt ≤ v.toInt) ∨ (cond = 5 ∧ v.toInt < c.toInt) ∨ (cond = 6 ∧ v &&& c ≠ 0) := by
  have codes : ∀ cond : BitVec 3, cond = 0 ∨ cond = 1 ∨ cond = 2 ∨ cond = 3 ∨ cond = 4 ∨ cond = 5 ∨ cond = 6 ∨ cond = 7 :=
    by decide
  rcases codes cond with rfl | rfl | rfl | rfl | rfl | rfl | rfl | rfl
  case inr.inr.inr.inr.inr.inr.inr => exact absurd rfl h
  all_goals simp [waitfCond]

/-- The address of a flag in the own hawk (02 R72). -/
theorem waitfAddr_ok (s : State) {lc off : Nat} {a : Word} (ha : a.toNat = 0x10100000000 + lc * 0x400000 + off)
    (hal : off % 8 = 0) (hlt : off < 0x200000) : s.waitfAddr lc a = .ok off := by
  unfold State.waitfAddr
  dsimp only
  rw [if_neg (by omega), if_pos (by omega), ha, Nat.add_sub_cancel_left]

theorem CoreFrame.hawkWord {lc : Nat} {s t : State} (h : CoreFrame lc s t) (off : Nat) :
    t.hawkWord lc off = s.hawkWord lc off := by
  unfold State.hawkWord
  rw [h.siteOf, h.rest]
  rfl

/-- A WAITF that completes writes its result, and its core runs on. -/
theorem waitfEnd_spec (s : State) (lc : Nat) (rd : BitVec 5) (v : Word) (pc : LAddr) :
    (∀ k, k ≠ lc → (s.waitfEnd lc rd v pc).core k = s.core k) ∧
      (s.waitfEnd lc rd v pc).core lc =
        { ((s.core lc).wx rd v).next with st := .running, waitf := none, waitSamp := none } := by
  have hset : ∀ (c : Core) (p : Power) (k : Nat), k ≠ lc →
      ({ (s.tickCycle lc).setCore lc c with power := p } : State).core k = s.core k := fun c p k hk =>
    mapGet_set_ne _ _ _ hk
  have hself : ∀ (c : Core) (p : Power), ({ (s.tickCycle lc).setCore lc c with power := p } : State).core lc = c :=
    fun c p => setCore_core ..
  unfold State.waitfEnd
  dsimp only
  split
  · exact ⟨fun k hk => (sampleDone_core ..).trans (hset _ _ k hk), (sampleDone_core ..).trans (hself ..)⟩
  · exact ⟨hset _ _, hself ..⟩

theorem wx_pc (c : Core) (rd : BitVec 5) (v : Word) : (c.wx rd v).pc = c.pc := by
  unfold Core.wx
  split <;> rfl

theorem wx_x_congr {c d : Core} (h : c.x = d.x) (rd : BitVec 5) (v : Word) : (c.wx rd v).x = (d.wx rd v).x := by
  unfold Core.wx
  split
  · exact h
  · dsimp only
    rw [h]

/-- What the end of a WAITF shows of its core. -/
theorem waitfEnd_runs (s : State) (lc : Nat) (rd : BitVec 5) (v : Word) (pc : LAddr) :
    WritesX (s.core lc) ((s.waitfEnd lc rd v pc).core lc) rd (fun r => r = v) ∧
      ((s.waitfEnd lc rd v pc).core lc).st = .running ∧ ((s.waitfEnd lc rd v pc).core lc).waitf = none ∧
      ((s.waitfEnd lc rd v pc).core lc).pc = (s.core lc).pc + 4 := by
  obtain ⟨-, hc⟩ := waitfEnd_spec s lc rd v pc
  rw [hc]
  exact ⟨writesX_of_wx rfl, rfl, rfl, congrArg (· + 4) (wx_pc ..)⟩

/-- A core whose WAITF has armed its monitor, with the cycle of its issue where it is sampled. -/
def Core.armed (c : Core) (i : Flik) (smp : Option Word) : Core := { c.retarget i with waitSamp := smp }

/-- The state of a WAITF that reads its flag: its issue is noted and its monitor armed. -/
def State.waitfArmed (s : State) (lc : Nat) (i : Flik) : State :=
  let u := (s.noteIssue lc).countSample lc 1
  u.1.setCore lc ((u.1.core lc).armed i (if u.2 then some (u.1.reg (.pmuCycle lc)) else none))

theorem waitfArmed_spec (s : State) (lc : Nat) (i : Flik) : CoreFrame lc s (s.waitfArmed lc i) ∧
    ∃ l smp, (s.waitfArmed lc i).core lc = ((s.core lc).issued l).armed i smp := by
  obtain ⟨hissue, l, hc⟩ := noteIssue_issued lc s
  have hcount := countSample_frame (s.noteIssue lc) lc 1
  have hset : (s.waitfArmed lc i).core lc = _ := setCore_core ..
  rw [countSample_core, hc] at hset
  exact ⟨(hissue.trans hcount).trans (CoreFrame.setCore ..), l, _, hset⟩

/-- WAITF, where its errors are corrected and the instruction may still issue. -/
theorem exec_waitf {s u : State} {lc off : Nat} {rd rs1 rs2 : BitVec 5} {cond : BitVec 3} {acq : Bool} {tmo : BitVec 5}
    {errs : List MemErr} (h7 : cond ≠ 7) (h : s.canIssue lc (.waitf rd rs1 rs2 cond acq tmo) = true)
    (haddr : s.waitfAddr lc ((s.core lc).rx rs1) = .ok off) (hu : s.meet errs = u)
    (hu' : u.canIssue lc (.waitf rd rs1 rs2 cond acq tmo) = true) :
    let v := u.waitfArmed lc (.waitf rd rs1 rs2 cond acq tmo)
    let c := (s.core lc).rx rs2
    exec (.waitf ⟨lc, errs⟩ rd rs1 rs2 cond acq tmo) s = .next
      (if waitfCond cond (v.hawkWord lc off) c then v.waitfEnd lc rd 0 (v.core lc).pc
      else (v.event lc 0x07 1).setCore lc
        { v.core lc with st := .sleeping, waitf := some ⟨rd, off, c, cond, acq, tmo, false⟩ }) := by
  intro v c
  have hv : v.core lc = (((u.noteIssue lc).countSample lc 1).1.core lc).armed (.waitf rd rs1 rs2 cond acq tmo) _ :=
    setCore_core ..
  rw [hv]
  change execWaitf ⟨lc, errs⟩ rd rs1 rs2 cond acq tmo s = _
  unfold execWaitf
  rw [if_pos ⟨h7, h⟩]
  dsimp only
  rw [haddr]
  simp only [hu, hu', Bool.not_true, Bool.false_eq_true, if_false]
  rw [apply_ite (Host.Outcome.next (σ := State))]
  rfl

/-- A WAITF whose condition does not hold goes to sleep on its flag. -/
theorem waitf_sleeps_spec (v : State) (lc : Nat) (w : Waitf) :
    let t := (v.event lc 0x07 1).setCore lc { v.core lc with st := .sleeping, waitf := some w }
    t.mem = v.mem ∧ (∀ k, k ≠ lc → t.core k = v.core k)
      ∧ t.core lc = { v.core lc with st := .sleeping, waitf := some w } := by
  refine ⟨event_mem .., fun k hk => ?_, setCore_core ..⟩
  exact (mapGet_set_ne _ _ _ hk).trans (event_core ..)

/-- WAITF, where it may issue on an aligned flag of the own hawk, whose errors are corrected. -/
theorem waitf_spec {s : State} {lc off : Nat} {rd rs1 rs2 : BitVec 5} {cond : BitVec 3} {acq : Bool} {tmo : BitVec 5}
    {errs : List MemErr} (h7 : cond ≠ 7) (herrs : Corrected errs)
    (h : s.canIssue lc (.waitf rd rs1 rs2 cond acq tmo) = true)
    (haddr : s.waitfAddr lc ((s.core lc).rx rs1) = .ok off) :
    let c := (s.core lc).rx rs2
    let holds := waitfCond cond (s.hawkWord lc off) c = true
    ∃ t, exec (.waitf ⟨lc, errs⟩ rd rs1 rs2 cond acq tmo) s = .next t ∧ t.mem = s.mem
      ∧ (∀ k, k ≠ lc → t.core k = s.core k)
      ∧ (holds → WritesX (s.core lc) (t.core lc) rd (fun r => r = 0) ∧ (t.core lc).st = .running
          ∧ (t.core lc).pc = (s.core lc).pc + 4)
      ∧ (¬ holds → (t.core lc).x = (s.core lc).x ∧ (t.core lc).st = .sleeping
          ∧ (t.core lc).pc = (s.core lc).pc
          ∧ (t.core lc).waitf = some ⟨rd, off, c, cond, acq, tmo, false⟩) := by
  have hmeet := meet_corrects s herrs
  have hexec := exec_waitf h7 h haddr rfl (hmeet.canIssue h)
  obtain ⟨hval, -⟩ := canIssue_spec h
  obtain ⟨harm, l, smp, hcore⟩ := waitfArmed_spec (s.meet errs) lc (.waitf rd rs1 rs2 cond acq tmo)
  have hword := (harm.hawkWord off).trans (hmeet.hawkWord (valid_lt hval) off)
  have hmem : ((s.meet errs).waitfArmed lc (.waitf rd rs1 rs2 cond acq tmo)).mem = s.mem := by
    rw [harm.rest, hmeet.rest]
  have hothers : ∀ k, k ≠ lc →
      ((s.meet errs).waitfArmed lc (.waitf rd rs1 rs2 cond acq tmo)).core k = s.core k := fun k hk =>
    (harm.cores k hk).trans (hmeet.core k)
  rw [hmeet.core] at hcore
  generalize (s.meet errs).waitfArmed lc (.waitf rd rs1 rs2 cond acq tmo) = v at hexec hcore hword hmem hothers
  have hx : (v.core lc).x = (s.core lc).x := by rw [hcore]; exact issued_x ..
  have hpc : (v.core lc).pc = (s.core lc).pc := by rw [hcore]; exact issued_pc ..
  dsimp only at hexec ⊢
  rw [hword] at hexec
  by_cases hc : waitfCond cond (s.hawkWord lc off) ((s.core lc).rx rs2) = true
  · rw [if_pos hc] at hexec
    obtain ⟨hrest, hend⟩ := waitfEnd_spec v lc rd 0 (v.core lc).pc
    obtain ⟨-, hrun, -, hnext⟩ := waitfEnd_runs v lc rd 0 (v.core lc).pc
    refine ⟨_, hexec, (waitfEnd_mem ..).trans hmem, fun k hk => (hrest k hk).trans (hothers k hk),
      fun _ => ⟨?_, hrun, hnext.trans (by rw [hpc])⟩, fun hn => absurd hc hn⟩
    refine writesX_of_wx ?_
    rw [hend]
    exact wx_x_congr hx rd 0
  · rw [if_neg hc] at hexec
    obtain ⟨hm, ho, hl⟩ := waitf_sleeps_spec v lc ⟨rd, off, (s.core lc).rx rs2, cond, acq, tmo, false⟩
    refine ⟨_, hexec, hm.trans hmem, fun k hk => (ho k hk).trans (hothers k hk), fun h => absurd h hc, fun _ => ?_⟩
    rw [hl]
    exact ⟨hx, rfl, hpc, rfl⟩

/-- WAITF_WAKE and WAITF_TIMEOUT end a sleeping WAITF with their result. -/
theorem waitfEnd_wakes (s : State) (lc : Nat) (rd : BitVec 5) (v : Word) :
    let t := s.waitfEnd lc rd v (s.core lc).pc
    t.mem = s.mem ∧ (∀ k, k ≠ lc → t.core k = s.core k) ∧ WritesX (s.core lc) (t.core lc) rd (fun r => r = v)
      ∧ (t.core lc).st = .running ∧ (t.core lc).waitf = none ∧ (t.core lc).pc = (s.core lc).pc + 4 := by
  obtain ⟨hrest, -⟩ := waitfEnd_spec s lc rd v (s.core lc).pc
  exact ⟨waitfEnd_mem .., hrest, waitfEnd_runs ..⟩

theorem exec_waitfWake {s : State} {lc : Nat} {w : Waitf} (hw : (s.core lc).waitf = some w)
    (hst : (s.core lc).st = .sleeping) (hmet : w.met = true) (hwin : s.windowOpen lc = false)
    (hclk : s.clocked lc = true) : exec (.waitfWake lc) s = .next (s.waitfEnd lc w.rd 0 (s.core lc).pc) := by
  change execWaitfWake lc s = _
  unfold execWaitfWake
  simp only [hw]
  rw [if_pos ⟨hst, hmet, by rw [hwin]; decide, hclk⟩]

theorem exec_waitfTimeout {s : State} {lc : Nat} {w : Waitf} (hw : (s.core lc).waitf = some w)
    (hst : (s.core lc).st = .sleeping) (hmet : w.met = false) (htmo : w.tmo ≠ 0) (hclk : s.clocked lc = true) :
    exec (.waitfTimeout lc) s = .next (s.waitfEnd lc w.rd 1 (s.core lc).pc) := by
  change execWaitfTimeout lc s = _
  unfold execWaitfTimeout
  simp only [hw]
  rw [if_pos ⟨hst, htmo, fun hm => by rw [hmet] at hm; exact absurd hm.1 (by decide), hclk⟩, hmet]
  rfl

/-- Settles O14: an issuing WAITF reads its flag with the errors corrected, and ends or sleeps by its condition; a sleeping one
ends with 0 when it was met and with 1 when its time ran out. -/
theorem waitfSleepsAndWakes : Obligations.WaitfSleepsAndWakes := by
  refine ⟨?_, ?_, ?_⟩
  · intro s lc off rd rs1 rs2 cond acq tmo errs h7 herrs h ha hal hlt
    dsimp only
    rw [← waitfCond_iff h7]
    exact waitf_spec h7 herrs h (waitfAddr_ok s ha hal hlt)
  · intro s lc w hw hst hmet hwin hclk
    exact ⟨_, exec_waitfWake hw hst hmet hwin hclk, waitfEnd_wakes ..⟩
  · intro s lc w hw hst hmet htmo hclk
    exact ⟨_, exec_waitfTimeout hw hst hmet htmo hclk, waitfEnd_wakes ..⟩

end Sys2Proof.Machine
end

