-- ==== Sys2Proof/Proofs/StoresToOwnHawk.lean ====
section
/-!
O10. Stores to the own hawk: one run of cells that the store's address names, before and after the errors of its read.
-/

namespace Sys2Proof.Machine

/-! ### Places -/

/-- States with one logical map resolve every address of a core alike. -/
theorem SameMap.resolve {s t : State} (h : SameMap s t) {lc : Nat} (hlc : lc < 256) (a : Nat) :
    t.resolve (some lc) a = s.resolve (some lc) a := by
  have hhod : ∀ o, t.hodView o = s.hodView o := fun o => by
    unfold State.hodView State.sliceCount State.rowsUsed
    rw [h.slices, h.rcMib]
  have hown : ∀ o, t.ownView (some lc) o = s.ownView (some lc) o := fun o => by
    unfold State.ownView State.rowsUsed
    dsimp only
    rw [h.slices, h.rcMib, h.siteOf hlc]
  have hsite : a < 0x10124000000 → t.failed ((a - 0x10100000000) / 0x400000) = s.failed ((a - 0x10100000000) / 0x400000)
      ∧ t.siteOf ((a - 0x10100000000) / 0x400000) = s.siteOf ((a - 0x10100000000) / 0x400000) := fun ha =>
    have hn : (a - 0x10100000000) / 0x400000 < 256 := by omega
    ⟨h.failed hn, h.siteOf hn⟩
  have hblock : a < coreBase + 144 * 0x100000 →
      t.failed ((a - coreBase) / 0x100000) = s.failed ((a - coreBase) / 0x100000) := fun ha =>
    h.failed (by omega)
  have hwin : a < 0x20000000000 → ∀ lo len, t.rf (.pciHwin ((a - 0x1FF80000000) / 0x10000000)) lo len
      = s.rf (.pciHwin ((a - 0x1FF80000000) / 0x10000000)) lo len := fun ha =>
    rf_congr (h.regs _ (mapAddr_pciHwin (by omega)))
  unfold State.resolve
  rw [hhod, hown, h.inForce]
  refine ite_congr rfl (fun _ => rfl) fun _ => ?_
  refine ite_congr rfl (fun _ => rfl) fun _ => ?_
  refine ite_congr rfl (fun _ => rfl) fun _ => ?_
  refine ite_congr rfl (fun _ => rfl) fun _ => ?_
  refine ite_congr rfl (fun ha => ?_) fun _ => ?_
  · obtain ⟨hf, hs⟩ := hsite ha.2
    dsimp only
    rw [hf, hs]
  refine ite_congr rfl (fun ha => ?_) fun _ => ?_
  · dsimp only
    rw [hblock ha.2]
  refine ite_congr rfl (fun _ => rfl) fun _ => ?_
  refine ite_congr rfl (fun ha => ?_) fun _ => rfl
  dsimp only
  rw [hwin ha.2, hwin ha.2]

/-- A run within one block of 256 bytes is one part. -/
theorem blocks_single {a len : Nat} (h0 : len ≠ 0) (h : a % 256 + len ≤ 256) : blocks 256 (len + 1) a len = [(a, len)] := by
  obtain ⟨n, rfl⟩ := Nat.exists_eq_succ_of_ne_zero h0
  have hmin : min (n + 1) (256 - a % 256) = n + 1 := by omega
  simp only [blocks, Nat.succ_eq_add_one, Nat.add_one_ne_zero, if_false, hmin, Nat.sub_self, if_true]

/-- A write within one block of a hawk is a write of its cells. -/
theorem writeLocal_hawk {s : State} {lc n key a : Nat} {bs : List Byte} (req : Requester)
    (h : s.resolve (some lc) a = .hawk n key) (h0 : bs.length ≠ 0) (ha : a % 256 + bs.length ≤ 256) :
    s.writeLocal lc req a bs = s.writeRun key bs := by
  unfold State.writeLocal State.writeMem
  simp only [h, blocks_single h0 ha, List.foldl_cons, List.foldl_nil, Nat.sub_self, List.drop_zero, List.take_length]
  rfl

/-- A hawk lies below 2^44. -/
theorem resolve_hawk_lt {s : State} {own : Option Nat} {a n key : Nat} (h : s.resolve own a = .hawk n key) :
    a < 2 ^ 44 := by
  by_contra hge
  unfold State.resolve at h
  dsimp only at h
  have c : coreBase = 2130303778816 := by decide
  have l : lathBase = 2194728288256 := by decide
  rw [if_neg (by omega), if_neg (by omega), if_neg (by omega), if_neg (by omega), if_neg (by omega), if_neg (by omega),
    if_neg (by omega), if_neg (by omega)] at h
  cases h

theorem addrCheck_hawk {s : State} {lc key size : Nat} {a : Word} (h : s.resolve (some lc) a.toNat = .hawk lc key)
    (hal : a.toNat % size = 0) : s.addrCheck lc a size = none := by
  unfold State.addrCheck
  rw [if_neg (by omega), if_neg (by have := resolve_hawk_lt h; omega), h]

theorem atOnce_hawk {s : State} {lc a key : Nat} (h : s.resolve (some lc) a = .hawk lc key) : s.atOnce lc a = true := by
  unfold State.atOnce
  rw [h]
  exact beq_self_eq_true lc

/-! ### The store -/

/-- A store performed at once, after its write: the PC moves on, and it is recorded when it is sampled. -/
def State.storeEnds (w : State) (lc : Nat) (smp : Bool) (pc : LAddr) (word : BitVec 32) (missed : Nat) : State :=
  let x := w.setCore lc (w.core lc).next
  if smp then (x.tickCycle lc).sampleDone lc (x.reg (.pmuCycle lc)) pc word 7 missed 0 0 else x

theorem storeEnds_spec (w : State) (lc : Nat) (smp : Bool) (pc : LAddr) (word : BitVec 32) (missed : Nat) :
    CoreFrame lc w (w.storeEnds lc smp pc word missed) ∧
      (w.storeEnds lc smp pc word missed).core lc = (w.core lc).next := by
  have hset := CoreFrame.setCore lc w (w.core lc).next
  unfold State.storeEnds
  dsimp only
  split
  · exact ⟨(hset.trans (tickCycle_frame lc _)).trans (sampleDone_frame ..), (sampleDone_core ..).trans (setCore_core ..)⟩
  · exact ⟨hset, setCore_core ..⟩

section store
variable {s : State} {lc key size : Nat} {i : Flik} {a : Core → Word} {bs : Core → List Byte} {errs : List MemErr}

/-- The state in which a store to the own hawk writes: its issue is noted and counted. -/
def State.storeNoted (s : State) (lc : Nat) : State × Bool :=
  ((s.noteIssue lc).event lc 0x03 1).countSample lc 0

theorem storeNoted_spec (s : State) (lc : Nat) :
    CoreFrame lc s (s.storeNoted lc).1 ∧ ∃ l, (s.storeNoted lc).1.core lc = (s.core lc).issued l := by
  obtain ⟨hissue, l, hc⟩ := noteIssue_issued lc s
  refine ⟨(hissue.trans (event_frame lc _ 0x03 1)).trans (countSample_frame _ lc 0), l, ?_⟩
  rw [State.storeNoted, countSample_core, event_core, hc]

variable (h : s.canIssue lc i = true) (hal : (a (s.core lc)).toNat % size = 0)
  (hres : s.resolve (some lc) (a (s.core lc)).toNat = .hawk lc key)
  (hblk : s.storeBlocked lc (s.core lc).storeSeq (a (s.core lc)).toNat size = false)
include h hal hres hblk

/-- A store to the own hawk that nothing holds back is performed at once (R66). -/
theorem issueStore_hawk_eq : s.issueStore lc i size a bs errs =
    ((((s.storeNoted lc).1.meet errs).writeLocal lc (.core lc) (a (s.core lc)).toNat (bs (s.core lc))).storeEnds lc
      (s.storeNoted lc).2 (s.core lc).pc i.encode (s.core lc).missFlag) := by
  unfold State.issueStore
  rw [if_pos h]
  dsimp only
  rw [addrCheck_hawk hres hal]
  dsimp only
  rw [if_pos (atOnce_hawk hres), if_neg (by rw [hblk]; decide)]
  rfl

/-- What a store to the own hawk does, the errors of its read corrected. -/
theorem issueStore_hawk (herrs : Corrected errs) (hlen : (bs (s.core lc)).length = size) (h0 : size ≠ 0)
    (hfit : (a (s.core lc)).toNat % 256 + size ≤ 256) :
    let t := s.issueStore lc i size a bs errs
    Stores s t key (bs (s.core lc)) ∧ (errs = [] → StoreFrame lc s t)
      ∧ (∀ k, k ≠ lc → t.core k = { s.core k with waitf := (t.core k).waitf })
      ∧ t.core lc = { (s.core lc).touch with
          late := (t.core lc).late, pc := (s.core lc).pc + 4, icMiss := false, qFull := false } := by
  obtain ⟨hval, -, -, hrun, -⟩ := canIssue_spec h
  have hlc := valid_lt hval
  obtain ⟨hu, l, hc⟩ := storeNoted_spec s lc
  have hmeet := meet_corrects (s.storeNoted lc).1 herrs
  have hmap := (hu.sameMap hlc).trans hmeet.map
  have hwrite := writeLocal_hawk (bs := bs (s.core lc)) (.core lc) ((hmap.resolve hlc _).trans hres) (hlen ▸ h0)
    (hlen ▸ hfit)
  dsimp only
  rw [issueStore_hawk_eq h hal hres hblk, hwrite]
  have hempty : errs = [] → (s.storeNoted lc).1.meet errs = (s.storeNoted lc).1 := fun e => by rw [e]; rfl
  generalize (s.storeNoted lc).1 = u at hu hc hmeet hempty
  generalize hv : u.meet errs = v at hmeet hempty
  have hcells := writeRun_get v key (bs := bs (s.core lc))
  have hmons := writeRun_monitors v key (bs (s.core lc))
  have hframe := writeRun_frame v key (bs (s.core lc))
  generalize v.writeRun key (bs (s.core lc)) = w at hcells hmons hframe
  obtain ⟨hend, hlast⟩ := storeEnds_spec w lc (s.storeNoted lc).2 (s.core lc).pc i.encode (s.core lc).missFlag
  generalize w.storeEnds lc (s.storeNoted lc).2 (s.core lc).pc i.encode (s.core lc).missFlag = t at hend hlast
  have hothers : ∀ k, k ≠ lc → t.core k = { s.core k with waitf := (t.core k).waitf } := fun k hk => by
    rw [hend.cores k hk, hmons.rest k, hmeet.core k, hu.cores k hk]
  have hown : w.core lc = (s.core lc).issued l := by
    rw [← hc, ← hmeet.core lc]
    refine hmons.awake lc ?_
    rw [hmeet.core, hc, issued_st, hrun]
    decide
  refine ⟨fun k => ?_, fun e => ⟨?_, hothers, fun k hk => ?_, fun a ha => ?_⟩, hothers, ?_⟩
  · have hmem : t.mem = w.mem := by rw [hend.rest]
    have hbefore : v.mem = s.mem := by rw [hmeet.rest, hu.rest]
    rw [hmem, hcells, hbefore]
  · have hpart := hframe
    rw [hempty e, hu.rest] at hpart
    rw [hend.rest, hpart]
  · have hsite : w.siteOf lc = s.siteOf lc := by
      rw [← hu.siteOf, ← hempty e]
      exact siteOf_congr (by rw [hframe])
    rw [hend.samples k (by rwa [hsite]), hframe]
    exact (congrArg (fun x : State => mapGet? x.pmus k) (hempty e)).trans (hu.samples k hk)
  · rw [hend.regs a ha, hframe]
    exact (congrArg (fun x : State => mapGet? x.regs a) (hempty e)).trans (hu.regs a ha)
  · rw [hlast, hown, issued_touch]
    simp [Core.next]

end store

theorem storeSize_fits (w : StoreW) {a : Nat} (h : a % StoreW.size w = 0) :
    StoreW.size w ≠ 0 ∧ a % 256 + StoreW.size w ≤ 256 := by
  cases w
  all_goals
    simp only [StoreW.size] at h ⊢
    omega

theorem Corrected.subset {es errs : List MemErr} (h : Corrected errs) (hs : es ⊆ errs) : Corrected es :=
  fun e he => h e (hs he)

/-- Settles O10: a store or DST to an aligned address of the own hawk writes its cells at once and nothing else. -/
theorem storesToOwnHawk : Obligations.StoresToOwnHawk := by
  unfold Obligations.StoresToOwnHawk
  refine ⟨fun s lc key w rs2 rs1 imm errs _ h hal herrs hres hblk hrel => ?_,
    fun s lc key dn xs imm _ h hal hres hblk => ?_⟩
  · obtain ⟨es, hes, hexec⟩ := exec_storeCmd (rs2 := rs2) (imm := imm) errs fun hw _ => hrel hw
    obtain ⟨h0, hfit⟩ := storeSize_fits w hal
    obtain ⟨hstores, hframe, hrest⟩ := issueStore_hawk (a := memAddr rs1 imm)
      (bs := fun c => leBytes (StoreW.size w) (c.rx rs2).toNat) h hal hres hblk (herrs.subset hes) (leBytes_length ..)
      h0 hfit
    exact ⟨_, hexec, hstores, fun e => hframe (List.subset_nil.mp (e ▸ hes)), hrest⟩
  · have hspec := issueStore_hawk (key := key) (size := 64) (a := descAddr xs imm)
      (bs := fun c => leBytes 64 (c.rd dn).toNat) (errs := []) h
    rw [descAddr, sext_mul] at hspec
    obtain ⟨hstores, hframe, -, hown⟩ := hspec hal hres hblk (fun _ he => absurd he List.not_mem_nil)
      (leBytes_length ..) (by decide) (by omega)
    exact ⟨_, rfl, hstores, hframe rfl, hown⟩

end Sys2Proof.Machine
end

