-- ==== Sys2Proof/Proofs/EvictingAccesses.lean ====
section
/-!
O9, O11. The statements speak of every state, also of one whose render cache holds a dirty line that no address of render memory
names: an access that takes that line's place writes it back past the last channel and counts in a register that no Lath block
has, so the access's frame fails.
-/

namespace Sys2Proof.Machine

/-- A dirty line whose address, 2^53, lies in a channel 256 that no stack has. -/
def farLine : RcLine := ⟨2 ^ 45, List.replicate 256 0, true, 0⟩

/-- A full set of the render cache whose least recently used line is the far one. -/
def farSet : List RcLine :=
  ((List.range 15).map fun i => ⟨256 * (i + 1), List.replicate 256 0, false, 0⟩) ++ [farLine]

/-- A core with a load of address 0 outstanding and a store of address 8 posted. -/
def farCore : Core := { Core.zero with
  loads := [⟨.x 1 .ld, false, 0, 0, 0, 0, none, false, none⟩]
  stores := [⟨0, 8, List.replicate 8 0, 0, 0, none, false⟩] }

/-- A device with that core and that set, whose block of channel 256 has a counter that selects the granules written. -/
def evicting : State := { State.reset with
  slices := [0]
  rcMib := 1
  rc := mapSet [] 0 farSet
  cores := mapSet [] 0 farCore
  regs := mapSet (mapSet [] (Reg.lathCtrl 424).addr 1) (Reg.lathEvsel 424 0).addr 2 }

/-- The counter of channel 256 after a step that goes on. -/
def farCount : Host.Outcome State Fault Refusal → Option Word
  | .next t => mapGet? t.regs (Reg.lathCnt 424 0).addr
  | _ => none

theorem evicting_before : farCount (.next evicting) = none := by decide +kernel

/-- The load takes the far line's place, and the write-back of its four granules is counted. -/
theorem load_counts : farCount (exec (.loadDataReturn 0 []) evicting) = some 4 := by decide +kernel

theorem store_counts : farCount (exec (.storePerformed 0 ⟨0, []⟩) evicting) = some 4 := by decide +kernel

/-- The counter of channel 256 is none of those in which an access may count. -/
theorem not_accessAddr_far (lc : Nat) (hlc : lc < 144) : ¬ AccessAddr lc (Reg.lathCnt 424 0).addr := by
  have hcore : ∀ n, n < 144 → ¬ CountAddr n (Reg.lathCnt 424 0).addr := fun n hn => by
    rintro (h | h | h | ⟨i, hi, h⟩)
    all_goals
      unfold Reg.addr at h
      dsimp only at h
      unfold coreBase lathBase at h
      omega
  rintro (h | ⟨n, hn, h⟩ | ⟨b, hb, h | ⟨i, hi, h⟩⟩ | h)
  · exact hcore lc hlc h
  · exact hcore n hn h
  · unfold Reg.addr at h
    dsimp only at h
    omega
  · unfold Reg.addr at h
    dsimp only at h
    omega
  · unfold Reg.addr at h
    dsimp only at h
    omega

/-- No step of the core to a state within the frame of its access raises that counter. -/
theorem not_frame_far {c : Instr} {t : State} {n : Word} (h : exec c evicting = .next t)
    (hcount : farCount (exec c evicting) = some n) : ¬ AccessFrame 0 evicting t := by
  intro hframe
  have hkept : farCount (.next t) = farCount (.next evicting) := hframe.regs _ (not_accessAddr_far 0 (by decide))
  rw [← h, hcount, evicting_before] at hkept
  cases hkept

/-! ### The premises of the statements -/

theorem evicting_sound : evicting.Sound := Sound.of_mem (s := State.reset) rfl rfl

theorem evicting_core : evicting.core 0 = farCore := by decide +kernel

theorem evicting_slices : ∀ x ∈ evicting.slices, x < 168 := by decide

theorem evicting_resolve_load : evicting.resolve (some 0) 0 = .render 0 (some 0) := by decide +kernel

theorem evicting_resolve_store : evicting.resolve (some 0) 8 = .render 8 (some 8) := by decide +kernel

theorem evicting_channelFree (d : VcDir) : ChannelFree evicting (evicting.siteOf 0) d := by
  cases d
  all_goals
    unfold ChannelFree
    decide +kernel

theorem evicting_crosses_load : Crosses evicting 0 (.render 0 (some 0)) .up :=
  ⟨by decide +kernel, fun _ => evicting_channelFree .up⟩

theorem evicting_crosses_store : Crosses evicting 0 (.render 8 (some 8)) .down :=
  ⟨by decide +kernel, fun _ => evicting_channelFree .down⟩

theorem evicting_loadBlocked : evicting.loadBlocked 0 0 ⟨.x 1 .ld, false, 0, 0, 0, 0, none, false, none⟩ = false := by
  decide +kernel

theorem evicting_storeBlocked : evicting.storeBlocked 0 0 8 8 = false := by decide +kernel

theorem evicting_found : evicting.found (.render 0 (some 0)) 8 = some (List.replicate 8 0, false) := by decide +kernel

theorem evicting_chanReset : evicting.chanReset (.render 0 (some 0)) = false := by decide +kernel

theorem evicting_chanReset_store : evicting.chanReset (.render 8 (some 8)) = false := by decide +kernel

theorem evicting_lines : ∀ x ∈ evicting.rc, ∀ y ∈ x.2, y.data.length = 256 := by decide +kernel

/-- Refutes O9: of the state `evicting`, the load's return counts the write-back of a line of channel 256. -/
theorem not_loadDataReturns : ¬ Obligations.LoadDataReturns := by
  unfold Obligations.LoadDataReturns
  intro h
  obtain ⟨hmem, -, -⟩ := h evicting 0 _ [] (by rw [evicting_core]; rfl) rfl evicting_loadBlocked
    (by rw [evicting_core]; rfl) (by rw [evicting_resolve_load]; exact evicting_crosses_load) evicting_slices (by decide)
  rw [evicting_resolve_load] at hmem
  obtain ⟨t, ⟨hexec, hframe, -⟩, -⟩ := hmem evicting_chanReset _ evicting_found
  exact not_frame_far hexec load_counts hframe

/-- Refutes O11: of the state `evicting`, the store's performance counts the write-back of a line of channel 256. -/
theorem not_postedStores : ¬ Obligations.PostedStores := by
  unfold Obligations.PostedStores
  rintro ⟨-, -, h⟩
  obtain ⟨-, hcache, -⟩ := h evicting 0 0 ⟨0, 8, List.replicate 8 0, 0, 0, none, false⟩ [] evicting_sound
    (by rw [evicting_core]; rfl) evicting_storeBlocked (by rw [evicting_core]; rfl)
    (by rw [evicting_resolve_store]; exact evicting_crosses_store) evicting_slices (by decide)
    (fun _ he => absurd he List.not_mem_nil)
  rw [evicting_resolve_store] at hcache
  obtain ⟨t, -, ⟨hexec, hframe, -⟩, -⟩ := hcache evicting_chanReset_store evicting_lines 8 8 rfl (by decide)
  exact not_frame_far hexec store_counts (hframe rfl)

end Sys2Proof.Machine
end

