-- ==== Sys2Proof/Proofs/InstructionCacheFills.lean ====
section
/-!
O16. The statement speaks of every state, also of one whose render cache holds a dirty line that no address of render memory
names: a fetch that takes that line's place writes it back over cells of a hawk, where it ends the wait of another core.
-/

namespace Sys2Proof.Machine

/-- A dirty line whose address's render cells would be the first of the hawk of site 1. -/
def hawkLine : RcLine := ⟨2 ^ 50 + 2 ^ 26, List.replicate 256 0, true, 0⟩

/-- A full set of the render cache whose least recently used line is that one. -/
def hawkSet : List RcLine :=
  ((List.range 15).map fun i => ⟨256 * (i + 1), List.replicate 256 0, false, 0⟩) ++ [hawkLine]

/-- A core that sleeps until the first word of its hawk is 0. -/
def waiter : Core := { Core.zero with st := .sleeping, waitf := some ⟨0, 0, 0, 0, false, 0, false⟩ }

/-- A device of two cores: core 0, at site 0, runs at address 0 with an empty instruction cache, and core 1, at site 1,
sleeps. -/
def overflowing : State := { State.reset with
  slices := [0]
  rcMib := 1
  rc := mapSet [] 0 hawkSet
  cores := mapSet (mapSet [] 0 { Core.zero with st := .running }) 1 waiter
  regs := mapSet (mapSet (mapSet [] Reg.mcMap.addr 2) (Reg.mcLc 0).addr 0x1) (Reg.mcLc 1).addr 0x101 }

/-- Whether the wait of core 1 has ended after a step that goes on. -/
def waiterMet : Host.Outcome State Fault Refusal → Option Bool
  | .next t => (t.core 1).waitf.map Waitf.met
  | _ => none

theorem overflowing_before : waiterMet (.next overflowing) = some false := by decide +kernel

/-- The fetch of core 0 ends the wait of core 1. -/
theorem fill_meets : waiterMet (exec (.icacheMissFill 0 []) overflowing) = some true := by decide +kernel

/-! ### The premises of the statement -/

theorem overflowing_core : overflowing.core 0 = { Core.zero with st := .running } := by decide +kernel

theorem overflowing_valid : overflowing.valid 0 = true := by decide +kernel

theorem overflowing_failed : overflowing.failed 0 = false := by decide +kernel

theorem overflowing_clocked : overflowing.clocked 0 = true := by decide +kernel

theorem overflowing_channelFree : ChannelFree overflowing (overflowing.siteOf 0) .up := by
  unfold ChannelFree
  decide +kernel

/-- The line of address 0 may be fetched, from its cells. -/
theorem overflowing_fetched :
    overflowing.fetched 0 0 = some (memGets overflowing.mem 0 256, fun i => overflowing.poisoned (0 + 64 * i)) := by
  rfl

theorem overflowing_unpoisoned : overflowing.poisoned (0 + 64 * 0) = false := by decide +kernel

/-- Refutes O16: of the state `overflowing`, the fill of core 0's miss changes core 1. -/
theorem not_instructionCacheFills : ¬ Obligations.InstructionCacheFills := by
  unfold Obligations.InstructionCacheFills
  rintro ⟨h, -⟩
  have hpc : (overflowing.core 0).pc = 0 := by rw [overflowing_core]; rfl
  obtain ⟨hfill, -⟩ := h overflowing 0 overflowing_valid overflowing_failed overflowing_clocked
    (by rw [overflowing_core]) (by rw [overflowing_core]; rfl)
    (fun l hl => absurd hl (by rw [overflowing_core]; exact List.not_mem_nil)) overflowing_channelFree
  rw [hpc] at hfill
  obtain ⟨t, hexec, hothers, -⟩ := hfill _ _ overflowing_fetched overflowing_unpoisoned
  have hkept : waiterMet (.next t) = waiterMet (.next overflowing) :=
    congrArg (fun c : Core => c.waitf.map Waitf.met) (hothers 1 (by decide))
  rw [← hexec, fill_meets, overflowing_before] at hkept
  cases hkept

end Sys2Proof.Machine
end

