-- ==== Sys2Proof/Proofs/ResetLaws.lean ====
section
/-!
What a full Lath reset leaves (03 R133 R139): the laws of a map or set from which keys are dropped, the fields that the end of
every scope keeps, and from these the two frames of a reset, `ResetLeaves` and `KeepsImages`.
-/

namespace Sys2Proof.Machine

/-! ### Maps and sets without some keys -/

theorem mapGet?_filter {α : Type} (p : Nat → Bool) (m : FMap α) (n : Nat) :
    mapGet? (m.filter fun e => p e.1) n = if p n = true then mapGet? m n else none := by
  induction m with
  | nil => simp
  | cons e m ih =>
    obtain ⟨k, v⟩ := e
    by_cases hk : p k = true <;> by_cases hn : k = n <;> simp_all [mapGet?]

theorem memGet_filter (p : Nat → Bool) (m : Memory) (n : Nat) :
    memGet (m.filter fun e => p e.1) n = if p n = true then memGet m n else 0 := by
  unfold memGet mapGet
  rw [mapGet?_filter]
  split <;> rfl

theorem setHas_filter (p : Nat → Bool) (s : NSet) (n : Nat) : setHas (s.filter p) n = (p n && setHas s n) := by
  induction s with
  | nil => simp
  | cons k s ih =>
    rw [List.filter_cons]
    by_cases hn : k = n
    · subst hn
      split <;> simp_all [setHas]
    · have hb : (k == n) = false := beq_eq_false_iff_ne.mpr hn
      split <;> simp [setHas, ih, hb]

/-- Poison granules of 64 bytes of render memory and of 8 bytes beyond it have marks that the first mark of a hawk parts. -/
theorem markOf_lt_iff (k : Nat) : markOf k < 2 ^ 42 ↔ k < 2 ^ 45 := by
  unfold markOf
  split <;> omega

/-! ### The end of every scope -/

/-- The end of every scope changes the scopes, the grants, the nonce and the unlock log, and nothing else. -/
theorem endScopes_rest (s : State) : ∃ u c, s.endScopes = { s with
    flash := { s.flash with unlock := u, chain := c }
    sec := { s.sec with scopes := 0, grants := [], nonce := none } } := by
  have grants : ∀ (l : List Grant) (s : State), ∃ u c,
      l.foldl (fun (t : State) (g : Grant) => t.unlockRec g.scopes g.slot 0 g.nonce) s
        = { s with flash := { s.flash with unlock := u, chain := c } } := by
    intro l
    induction l with
    | nil => exact fun s => ⟨s.flash.unlock, s.flash.chain, rfl⟩
    | cons g l ih =>
      intro s
      obtain ⟨u, c, h⟩ := ih (s.unlockRec g.scopes g.slot 0 g.nonce)
      exact ⟨u, c, by rw [List.foldl_cons, h]; rfl⟩
  obtain ⟨u, c, h⟩ := grants s.sec.grants s
  exact ⟨u, c, by simp only [State.endScopes, State.endGrants, State.voidNonce, h]⟩

/-! ### The full Lath reset -/

theorem fullReset_memGet (s : State) (k : Nat) :
    memGet s.fullReset.mem k = if k < 2 ^ 45 then memGet s.mem k else 0 := by
  simp only [State.fullReset, endScopes_mem]
  rw [memGet_filter (fun a => decide (a < 2 ^ 45))]
  simp only [decide_eq_true_eq]

theorem fullReset_poisoned (s : State) (k : Nat) :
    s.fullReset.poisoned k = (decide (k < 2 ^ 45) && s.poisoned k) := by
  obtain ⟨u, c, h⟩ := endScopes_rest s
  simp only [State.fullReset, State.poisoned, h]
  rw [setHas_filter, decide_eq_decide.mpr (markOf_lt_iff k)]

theorem fullReset_regs (s : State) (a : Nat) :
    mapGet? s.fullReset.regs a = if a = Reg.errLog.addr then mapGet? s.regs a else none := by
  obtain ⟨u, c, h⟩ := endScopes_rest s
  simp only [State.fullReset, h]
  rw [mapGet?_filter]
  simp only [keptReg, beq_iff_eq]

theorem fullReset_leaves (s : State) : ResetLeaves s s.fullReset := by
  obtain ⟨u, c, h⟩ := endScopes_rest s
  refine ⟨fun n => rfl, fun k hk => ⟨?_, ?_⟩, fun a ha => ?_, ?_, ?_, ?_⟩
  · rw [fullReset_memGet, if_neg (by omega)]
  · rw [fullReset_poisoned, decide_eq_false (by omega), Bool.false_and]
  · rw [fullReset_regs, if_neg ha]
  all_goals simp [State.fullReset, h]

theorem fullReset_keepsImages (s : State) : KeepsImages s s.fullReset := by
  obtain ⟨u, c, h⟩ := endScopes_rest s
  constructor <;> simp [State.fullReset, h]

theorem fullReset_pins (s : State) : s.fullReset.pins = { s.pins with alert := false } := by
  obtain ⟨u, c, h⟩ := endScopes_rest s
  simp [State.fullReset, h]

theorem State.reg_of_unlisted {s : State} {r : Reg} (h : mapGet? s.regs r.addr = none) : s.reg r = r.resetWord := by
  simp [State.reg, mapGet, h]

end Sys2Proof.Machine
end

