-- ==== Sys2Proof/Proofs/FullLathReset.lean ====
section
/-!
O22. A full Lath reset, by what it leaves of memory, poison, cores and registers.
-/

namespace Sys2Proof.Machine

/-- Settles O22. -/
theorem fullLathResetState : Obligations.FullLathResetState := by
  unfold Obligations.FullLathResetState
  intro s hs
  have hl := fullReset_leaves s
  obtain ⟨hslots, -, -, hcolls, hdeferred, hseqs, -, hrc, -⟩ := hl.idle
  obtain ⟨hpending, hsnag, -⟩ := hl.kept
  refine ⟨s.fullReset, rfl, fullReset_wf hs, hl.cells, fun k hk => ⟨?_, ?_⟩, hl.cores,
    fun r hr => State.reg_of_unlisted (hl.regs r.addr hr), hpending, (fullReset_keepsImages s).otp, fullReset_pins s, hsnag,
    hslots, hcolls, hdeferred, hseqs, hrc⟩
  · rw [fullReset_memGet, if_pos hk]
  · rw [fullReset_poisoned, decide_eq_true hk, Bool.true_and]

end Sys2Proof.Machine
end

