-- ==== Sys2Proof/Proofs/PortAndControllerResets.lean ====
section
/-!
O23. Resets of a Kerit port and of a render controller: the copies that a reset bars keep the scalar state of their cores, and
without flows, Roller commands and waiting write-backs there is nothing else to end.
-/

namespace Sys2Proof.Machine

theorem mapGet?_map {α β : Type} (f : Nat × α → β) (m : FMap α) (n : Nat) :
    mapGet? (m.map fun e => (e.1, f e)) n = (mapGet? m n).map fun v => f (n, v) := by
  induction m with
  | nil => rfl
  | cons e m ih =>
    obtain ⟨k, v⟩ := e
    by_cases hk : k = n
    · subst hk; simp [mapGet?]
    · simp [mapGet?, hk, ih]

/-- The scalar registers, tickets and PC of every core are as before. -/
def SameScalars (s t : State) : Prop :=
  ∀ n, (t.core n).x = (s.core n).x ∧ (t.core n).tk = (s.core n).tk ∧ (t.core n).pc = (s.core n).pc

theorem SameScalars.of_cores {s t u : State} (h : SameScalars s t) (hu : u.cores = t.cores) : SameScalars s u := by
  intro n
  rw [State.core, hu]
  exact h n

/-! ### What a reset bars -/

theorem barCopies_rest (s : State) (code : Nat) (hit : Nat → BlkMove → Bool) :
    s.barCopies code hit = { s with cores := (s.barCopies code hit).cores } := rfl

theorem barCopies_scalars (s : State) (code : Nat) (hit : Nat → BlkMove → Bool) :
    SameScalars s (s.barCopies code hit) := by
  intro n
  simp only [State.core, State.barCopies, mapGet]
  rw [mapGet?_map]
  cases mapGet? s.cores n <;> exact ⟨rfl, rfl, rfl⟩

/-! ### Nothing under way -/

theorem resetPort_of_no_flow {s : State} {p : Nat} (h : ∀ x ∈ s.tx, x.2.port ≠ p) :
    s.resetPort p = (s.setPort p { Port.zero with
      peer := (s.port p).peer, coef := (s.port p).coef, coefPeer := (s.port p).coefPeer }).setReg (.klkStatus p) 4 := by
  have hnone : (s.tx.filter fun e => e.2.port == p) = [] :=
    List.filter_eq_nil_iff.mpr fun x hx => by simpa using h x hx
  unfold State.resetPort
  simp only [State.setReg_tx, State.setPort_tx, hnone, List.foldl_nil]

theorem seqOn_of_empty {s : State} {st : Nat} (h : s.queueAt st = []) (errs : List MemErr) : s.seqOn st errs = s := by
  have step : s.seqStep st errs = s := by simp [State.seqStep, h]
  unfold State.seqOn
  generalize List.range 16 = l
  induction l with
  | nil => rfl
  | cons _ l ih => rw [List.foldl_cons, step, ih]

theorem rcDrain_of_none {s : State} (h : s.rcWait = []) : s.rcDrain = s := by
  rw [State.rcDrain, h, List.foldl_nil, ← h]

theorem gapRefresh_rest (s : State) (ch : Nat) :
    ∃ d r, s.gapRefresh ch = { s with refreshDue := d, rows := r } := by
  unfold State.gapRefresh
  split
  · exact ⟨_, _, rfl⟩
  · exact ⟨s.refreshDue, s.rows, rfl⟩

theorem resetRollers_of_empty {s : State} {c : Nat} (hq : s.queueAt (c / 16) = []) (hw : s.rcWait = []) :
    s.resetRollers c = s.gapRefresh c := by
  obtain ⟨d, r, hg⟩ := gapRefresh_rest s c
  have hw' : (s.gapRefresh c).rcWait = [] := by rw [hg]; exact hw
  have hq' : (s.gapRefresh c).queueAt (c / 16) = [] := by rw [hg]; exact hq
  simp only [State.resetRollers, hq, List.length_nil, List.range_zero, List.foldl_nil]
  rw [rcDrain_of_none hw', seqOn_of_empty hq']

theorem rubLoses_of_idle {s : State} (h : s.rf .rubCtrl 40 8 ≠ 1) (chan lc : Option Nat) : s.rubLoses chan lc = s :=
  if_neg fun hit => h hit.2

theorem voidNonce_rf (s : State) (r : Reg) (lo len : Nat) : s.voidNonce.rf r lo len = s.rf r lo len := rfl

/-! ### The clauses -/

theorem keritPortReset_quiet (s : State) (p : Nat) (hp : p < 16) (h : ∀ x ∈ s.tx, x.2.port ≠ p) :
    ∃ t, exec (.keritPortReset p) s = .next t ∧ t.portState p = 4 ∧ t.mem = s.mem ∧ SameScalars s t := by
  refine ⟨_, if_pos hp, ?_⟩
  generalize hb : s.barCopies (129 + p) _ = b
  have hs : SameScalars s b := hb ▸ barCopies_scalars s _ _
  rw [barCopies_rest] at hb
  rw [resetPort_of_no_flow (by rw [← hb]; exact h)]
  refine ⟨?_, by rw [← hb]; rfl, hs.of_cores rfl⟩
  unfold State.portState State.rf
  exact congrArg (fld · 0 4) (State.reg_setReg_self ..)

theorem keritPortResetEnd_trains (s : State) (p : Nat) (hp : p < 16) (h : s.portState p = 4) :
    ∃ t, exec (.keritPortResetEnd p) s = .next t ∧ t = { s with regs := t.regs }
      ∧ t.portState p = (if s.rf .klkCfg (32 + p) 1 = 1 then 1 else 0)
      ∧ ∀ a, a ≠ (Reg.klkStatus p).addr → mapGet? t.regs a = mapGet? s.regs a := by
  have hexec : exec (.keritPortResetEnd p) s
      = .next (s.setReg (.klkStatus p) (BitVec.ofNat 64 (s.rf .klkCfg (32 + p) 1))) :=
    congrArg Host.Outcome.next (if_pos ⟨hp, h⟩)
  have hbit : s.rf .klkCfg (32 + p) 1 < 2 := fld_lt ..
  refine ⟨_, hexec, rfl, ?_, fun a ha => setReg_regs_ne _ _ ha⟩
  have hv : s.rf .klkCfg (32 + p) 1 = 0 ∨ s.rf .klkCfg (32 + p) 1 = 1 := by omega
  unfold State.portState
  rw [State.rf, State.reg_setReg_self]
  obtain hv | hv := hv <;> rw [hv] <;> decide

theorem renderControllerReset_sets (s : State) (c : Nat) (hc : c < 128) (hr : s.rf .rubCtrl 40 8 ≠ 1) :
    ∃ t, exec (.renderControllerReset c) s = .next t ∧ t.rf (.rndCh c) 0 1 = 1
      ∧ (s.queueAt (c / 16) = [] → s.rcWait = [] → t.mem = s.mem ∧ SameScalars s t) := by
  refine ⟨_, if_pos hc, ?_, fun hq hw => ?_⟩
  · rw [voidNonce_rf]
    exact State.rf_setRf_self _ _ _ _ _ (by decide)
  generalize hb : s.barCopies c _ = b
  have hs : SameScalars s b := hb ▸ barCopies_scalars s _ _
  rw [barCopies_rest] at hb
  obtain ⟨d, r, hg⟩ := gapRefresh_rest b c
  have hrub : (b.gapRefresh c).rf .rubCtrl 40 8 ≠ 1 := by
    rw [rf_congr (s := s) (by rw [hg, ← hb])]
    exact hr
  rw [resetRollers_of_empty (by rw [← hb]; exact hq) (by rw [← hb]; exact hw), rubLoses_of_idle hrub, hg]
  exact ⟨by rw [← hb]; rfl, hs.of_cores rfl⟩

theorem renderControllerResetEnd_clears (s : State) (c : Nat) (hc : c < 128) (hr : s.rf (.rndCh c) 0 1 = 1)
    (hw : s.rcWait = []) : exec (.renderControllerResetEnd c) s = .next (s.setRf (.rndCh c) 0 1 0) := by
  have hexec : exec (.renderControllerResetEnd c) s = .next (s.setRf (.rndCh c) 0 1 0).rcDrain := if_pos ⟨hc, hr⟩
  rw [hexec, rcDrain_of_none (by exact hw)]

/-- Settles O23. -/
theorem portAndControllerResets : Obligations.PortAndControllerResets := by
  unfold Obligations.PortAndControllerResets
  exact ⟨keritPortReset_quiet, keritPortResetEnd_trains, renderControllerReset_sets, renderControllerResetEnd_clears⟩

end Sys2Proof.Machine
end

