-- ==== Sys2Proof/Proofs/ChannelLaws.lean ====
section
/-!
The registers of a vertical channel (03 R128-R130): fields after writes, addresses that differ, and the records of the MC
(16 R555, 15 R517 R530), which touch none of them.
-/

namespace Sys2Proof.Machine

/-! ### Fields -/

/-- A field that lies within the field written. -/
theorem fld_setFld_within {n : Nat} (w : BitVec n) (lo len v lo' len' : Nat) (hn : lo + len ≤ n) (hlo : lo ≤ lo')
    (hhi : lo' + len' ≤ lo + len) : fld (setFld w lo len v) lo' len' = v / 2 ^ (lo' - lo) % 2 ^ len' := by
  apply Nat.eq_of_testBit_eq
  intro i
  rw [fld_testBit, setFld_getLsbD, Nat.testBit_mod_two_pow, Nat.testBit_div_two_pow]
  by_cases hi : i < len'
  · have hin : lo ≤ lo' + i ∧ lo' + i < lo + len := by omega
    have hbit : lo' + i - lo = lo' - lo + i := by omega
    rw [if_pos hin, decide_eq_true hi, decide_eq_true (by omega : lo' + i < n), Bool.true_and, hbit,
      Nat.add_comm (lo' - lo) i]
  · simp [hi]

/-- A saturating count in a field (00 R6). -/
theorem State.rf_incRf_self (s : State) (r : Reg) (lo len k : Nat) (h : lo + len ≤ 64) :
    (s.incRf r lo len k).rf r lo len = min (s.rf r lo len + k) (2 ^ len - 1) := by
  have hlt : min (s.rf r lo len + k) (2 ^ len - 1) < 2 ^ len :=
    Nat.lt_of_le_of_lt (Nat.min_le_right ..) (Nat.sub_lt (Nat.two_pow_pos len) Nat.one_pos)
  rw [State.rf, State.incRf, State.reg_setReg_self, satFld, fld_setFld_self _ _ _ _ h]
  exact Nat.mod_eq_of_lt hlt

theorem State.rf_incRf_field (s : State) (r : Reg) (lo len k lo' len' : Nat)
    (h : lo' + len' ≤ lo ∨ lo + len ≤ lo') : (s.incRf r lo len k).rf r lo' len' = s.rf r lo' len' := by
  rw [State.rf, State.incRf, State.reg_setReg_self, satFld, fld_setFld_ne _ _ _ _ _ _ h]
  rfl

theorem State.rf_incRf_ne (s : State) {r q : Reg} (lo len k lo' len' : Nat) (h : q.addr ≠ r.addr) :
    (s.incRf r lo len k).rf q lo' len' = s.rf q lo' len' := s.rf_setReg_ne _ _ _ h

/-! ### Addresses -/

theorem vcGroup_ne_vcStatus (site : Nat) (d : VcDir) {g : Nat} (hg : g < 8) :
    (Reg.vcGroup site d g).addr ≠ (Reg.vcStatus site d).addr := by
  unfold Reg.addr
  dsimp only
  omega

theorem vcGroup_ne_vcGroup (site : Nat) (d : VcDir) {g k : Nat} (h : k ≠ g) :
    (Reg.vcGroup site d k).addr ≠ (Reg.vcGroup site d g).addr := by
  unfold Reg.addr
  dsimp only
  omega

theorem vcGroup_ne_vcCounts (site : Nat) (d : VcDir) {g : Nat} (hg : g < 8) :
    (Reg.vcGroup site d g).addr ≠ (Reg.vcCounts site d).addr := by
  unfold Reg.addr
  dsimp only
  omega

theorem vcCounts_up_ne_down (site : Nat) : (Reg.vcCounts site .up).addr ≠ (Reg.vcCounts site .down).addr := by
  unfold Reg.addr
  dsimp only
  rw [if_pos rfl, if_neg nofun]
  omega

theorem vcStatus_high (site : Nat) (d : VcDir) : lathBase + 0x1000000 ≤ (Reg.vcStatus site d).addr := by
  unfold Reg.addr
  dsimp only
  omega

theorem vcGroup_high (site : Nat) (d : VcDir) (g : Nat) : lathBase + 0x1000000 ≤ (Reg.vcGroup site d g).addr := by
  unfold Reg.addr
  dsimp only
  omega

theorem vcCounts_high (site : Nat) (d : VcDir) : lathBase + 0x1000000 ≤ (Reg.vcCounts site d).addr := by
  unfold Reg.addr
  dsimp only
  omega

theorem not_lathCountAddr_of_high {a : Nat} (h : lathBase + 0x1000000 ≤ a) : ¬ LathCountAddr a := by
  rintro ⟨b, hb, rfl | ⟨i, hi, rfl⟩⟩
  all_goals
    unfold Reg.addr at h
    dsimp only at h
    omega

/-! ### The records of the MC -/

/-- What the MC's records change: the error log and its registers, the snag list, the health class, and what they send. -/
structure Records (s t : State) : Prop where
  rest : t = { s with
    seen := t.seen, errlog := t.errlog, flash := t.flash, snagHeld := t.snagHeld, regs := t.regs, pins := t.pins
    msix := t.msix, out := t.out }
  regs : ∀ a, lathBase + 0x1000000 ≤ a → mapGet? t.regs a = mapGet? s.regs a

theorem Records.refl (s : State) : Records s s := ⟨rfl, fun _ _ => rfl⟩

theorem Records.trans {s t u : State} (h : Records s t) (g : Records t u) : Records s u where
  rest := by have a := h.rest; have b := g.rest; rw [b, a]
  regs a ha := (g.regs a ha).trans (h.regs a ha)

theorem Records.ite {s t u : State} {p : Prop} [Decidable p] (h : Records s t) (g : Records s u) :
    Records s (if p then t else u) := by
  split
  · exact h
  · exact g

theorem Records.setRf (s : State) {r : Reg} (lo len v : Nat) (h : r.addr < lathBase + 0x1000000) :
    Records s (s.setRf r lo len v) :=
  ⟨rfl, fun a ha => setRf_regs_ne s lo len v (by omega)⟩

theorem Records.incRf (s : State) {r : Reg} (lo len k : Nat) (h : r.addr < lathBase + 0x1000000) :
    Records s (s.incRf r lo len k) :=
  ⟨rfl, fun a ha => setReg_regs_ne s _ (by omega)⟩

/-- The registers in which the MC keeps its records lie below those of the sites. -/
theorem mcRegs_low : ∀ r ∈ [Reg.errLog, .errStatus, .mcSnag, .mcHealth], r.addr < lathBase + 0x1000000 := by
  intro r hr
  simp only [List.mem_cons, List.not_mem_nil, or_false] at hr
  obtain rfl | rfl | rfl | rfl := hr
  all_goals
    unfold Reg.addr
    dsimp only
    omega

theorem msi_records (s : State) (v : Nat) : Records s (s.msi v) := by
  refine ⟨by rw [State.msi_frame], fun a ha => ?_⟩
  unfold State.msi State.sendMsi
  dsimp only
  split
  · rfl
  · exact lathEvent_lathFrame _ (by decide) 2 1 a (not_lathCountAddr_of_high ha)

theorem alertNow_records (s : State) : Records s s.alertNow := ⟨rfl, fun _ _ => rfl⟩

theorem Records.kept (s : State) (n : NSet) (e : FMap ErrRec) (f : Flash) (h : List Snag) :
    Records s { s with seen := n, errlog := e, flash := f, snagHeld := h } := ⟨rfl, fun _ _ => rfl⟩

theorem log_records (s : State) (cls src : Nat) (loc addr : Word) : Records s (s.log cls src loc addr) := by
  unfold State.log
  dsimp only
  generalize ite (4 ≤ cls) _ s.flash = f
  have set := fun (u : State) n o => (((Records.setRf u 0 10 n (mcRegs_low .errLog (by simp))).trans
    (.setRf _ 32 32 o (mcRegs_low .errLog (by simp)))).trans
    (.setRf _ cls 1 1 (mcRegs_low .errStatus (by simp)))).trans (alertNow_records _)
  have all := fun e n o => (Records.kept s s.seen e f s.snagHeld).trans (set _ n o)
  exact .ite ((all _ _ _).trans (msi_records _ _)) (all _ _ _)

theorem logFirst_records (s : State) (place src : Nat) (loc addr : Word) : Records s (s.logFirst place src loc addr) :=
  .ite (.refl s) ((Records.kept s _ s.errlog s.flash s.snagHeld).trans (log_records _ _ _ _ _))

theorem health_records (s : State) : Records s s.health := by
  unfold State.health
  have set := fun a b => (Records.setRf s (r := .mcHealth) 8 8 a (mcRegs_low _ (by simp))).trans
    (.setRf _ (r := .mcHealth) 0 2 b (mcRegs_low _ (by simp)))
  exact .ite (set _ _) ((set _ _).trans (log_records _ _ _ _ _))

theorem snag_records (s : State) (f : FoundFault) : Records s (s.snag f) := by
  unfold State.snag
  split
  · exact .refl s
  extract_lets e cut torn grown appended
  have htorn : Records s torn := .ite (.kept s s.seen s.errlog _ s.snagHeld) (.refl s)
  have happended : Records torn appended :=
    .ite (.kept _ _ _ _ _) ((Records.kept _ _ _ _ _).trans (.setRf _ _ _ _ (mcRegs_low .mcSnag (by simp))))
  exact ((htorn.trans happended).trans (.incRf _ _ _ _ (mcRegs_low .mcSnag (by simp)))).trans (log_records _ _ _ _ _)

theorem snagIn_records (s : State) (typ : Nat) (loc : Word) : Records s (s.snagIn typ loc) :=
  (snag_records s _).trans (health_records _)

/-! ### What follows for a channel -/

section
variable {s t : State} (h : Records s t)
include h

theorem Records.mem : t.mem = s.mem := by rw [h.rest]
theorem Records.cores : t.cores = s.cores := by rw [h.rest]
theorem Records.sites : t.sites = s.sites := by rw [h.rest]

theorem Records.vc (site : Nat) (d : VcDir) : t.vc site d = s.vc site d := by rw [h.rest]; rfl

theorem Records.rf {r : Reg} (hr : lathBase + 0x1000000 ≤ r.addr) (lo len : Nat) : t.rf r lo len = s.rf r lo len :=
  rf_congr (h.regs _ hr) lo len

end

end Sys2Proof.Machine
end

