-- ==== Sys2Proof/Proofs/RetuneWindows.lean ====
section
/-!
O21. Probes and retune windows, by what each shared operation does: a setting that a group takes, an eye that is noted, a
window that opens.
-/

namespace Sys2Proof.Machine

/-! ### Settings and eyes -/

/-- A data group holds the setting that it takes: 32 times its offset, and its trim (03 R113). -/
theorem setting_retune (s : State) (site : Nat) (d : VcDir) {g v : Nat} (hg : g < 8) (hv : v < 128) :
    (s.retune site d g v).setting site d g = v := by
  simp only [State.retune, State.setting, if_pos hg]
  rw [State.setRf, State.rf, State.rf, State.reg_setReg_self,
    fld_setFld_within _ 40 7 v 45 2 (by decide) (by decide) (by decide),
    fld_setFld_within _ 40 7 v 40 5 (by decide) (by decide) (by decide)]
  omega

theorem retune_mem_cores (s : State) (site : Nat) (d : VcDir) (g v : Nat) :
    (s.retune site d g v).mem = s.mem ∧ (s.retune site d g v).cores = s.cores := by
  unfold State.retune
  dsimp only
  split <;> exact ⟨rfl, rfl⟩

theorem noteEye_mem_cores (s : State) (site : Nat) (d : VcDir) (g eye : Nat) :
    (s.noteEye site d g eye).mem = s.mem ∧ (s.noteEye site d g eye).cores = s.cores := by
  unfold State.noteEye
  split <;> exact ⟨rfl, rfl⟩

/-- A noted eye of a data group stands in EYE, and MARGINAL follows it; the setting stays. -/
theorem noteEye_spec (s : State) (site : Nat) (d : VcDir) {g eye : Nat} (hg : g < 8) (he : eye ≤ 128) :
    (s.noteEye site d g eye).setting site d g = s.setting site d g
      ∧ (s.noteEye site d g eye).rf (.vcGroup site d g) 48 8 = eye
      ∧ (s.noteEye site d g eye).rf (.vcStatus site d) (24 + g) 1 = if eye < 6 then 1 else 0 := by
  have hne := vcGroup_ne_vcStatus site d hg
  simp only [State.noteEye, State.setting, if_pos hg]
  refine ⟨?_, ?_, ?_⟩
  · rw [State.rf_setRf_ne _ _ _ _ _ _ hne, State.rf_setRf_ne _ _ _ _ _ _ hne,
      State.rf_setRf_field _ _ _ _ _ _ _ (by decide), State.rf_setRf_field _ _ _ _ _ _ _ (by decide)]
  · rw [State.rf_setRf_ne _ _ _ _ _ _ hne, State.rf_setRf_self _ _ _ _ _ (by decide)]
    omega
  · rw [State.rf_setRf_self _ _ _ _ _ (by omega)]
    by_cases h : eye < 6 <;> simp [h, b2n]

/-- The setting one step nearer to a centre (03 R117). -/
def stepToward (v centre : Nat) : Nat := if v < centre then v + 1 else if centre < v then v - 1 else v

/-- A data group whose setting has moved one step toward a centre; nothing of memory or cores has changed. -/
theorem stepped (s : State) (site : Nat) (d : VcDir) {g centre : Nat} (hg : g < 8) (hc : centre < 128) :
    let v := s.setting site d g
    let t := if v < centre then s.retune site d g (v + 1) else if centre < v then s.retune site d g (v - 1) else s
    t.setting site d g = stepToward v centre ∧ t.mem = s.mem ∧ t.cores = s.cores := by
  have hv : s.setting site d g < 128 := by
    have h1 : s.rf (.vcGroup site d g) 45 2 < 2 ^ 2 := fld_lt ..
    have h2 : s.rf (.vcGroup site d g) 40 5 < 2 ^ 5 := fld_lt ..
    simp only [State.setting, if_pos hg]
    omega
  intro v t
  unfold stepToward
  by_cases hlt : v < centre
  · rw [show t = s.retune site d g (v + 1) from if_pos hlt, if_pos hlt]
    exact ⟨setting_retune s site d hg (by omega), retune_mem_cores ..⟩
  · by_cases hgt : centre < v
    · rw [show t = s.retune site d g (v - 1) from (if_neg hlt).trans (if_pos hgt), if_neg hlt, if_pos hgt]
      exact ⟨setting_retune s site d hg (by omega), retune_mem_cores ..⟩
    · rw [show t = s from (if_neg hlt).trans (if_neg hgt), if_neg hlt, if_neg hgt]
      exact ⟨rfl, rfl, rfl⟩

theorem probeMeasurement_steps (s : State) (site g eye centre : Nat) (d : VcDir) (hg : g < 8)
    (hdead : s.groupDead site d g = false) (hret : s.vcRetired site d = false) (hprobe : s.probeless site d g = false)
    (h3 : 3 ≤ eye) (he : eye ≤ 128) (hc : centre < 128) :
    ∃ t, exec (.probeMeasurement site d g eye centre) s = .next t ∧ t.mem = s.mem ∧ t.cores = s.cores
      ∧ t.setting site d g = stepToward (s.setting site d g) centre
      ∧ t.rf (.vcGroup site d g) 48 8 = eye ∧ t.rf (.vcStatus site d) (24 + g) 1 = if eye < 6 then 1 else 0 := by
  obtain ⟨hset, hmem, hcores⟩ := stepped s site d hg hc
  refine ⟨_, if_neg (by simp [hdead, hret, hprobe]), ?_⟩
  unfold State.measured
  rw [if_neg (by omega)]
  obtain ⟨hsame, heye, hmarginal⟩ := noteEye_spec _ site d hg he
  obtain ⟨hm, hco⟩ := noteEye_mem_cores _ site d g eye
  exact ⟨hm.trans hmem, hco.trans hcores, hsame.trans hset, heye, hmarginal⟩

/-! ### Windows -/

theorem State.site_setSite_ne (s : State) {i k : Nat} (x : Site) (h : k ≠ i) : (s.setSite i x).site k = s.site k := by
  simp [State.site, State.setSite, mapGet_set_ne _ _ _ h]

theorem retuneWindowDue_sets (s : State) (site : Nat) (c : RetuneCause) (hcorr : c = .corrected → (s.site site).corr = true)
    (hms : ∀ ms, c = .interval ms → s.rf .vcPolicy 0 16 ≤ ms) (hk : ∀ k, c = .temp k → s.rf .vcPolicy 16 8 ≤ k)
    (hneeds : s.needsWindow site = true) (hwin : (s.site site).win = .none) :
    ∃ t, exec (.retuneWindowDue site c) s = .next t ∧ t = { s with sites := t.sites }
      ∧ (t.site site).win = .due c ∧ ∀ k, k ≠ site → t.site k = s.site k := by
  have hok : ∀ ok : Bool, ok = true → (ok && s.needsWindow site && (s.site site).win == .none) = true := by
    intro ok hok
    simp [hok, hneeds, hwin]
  have hexec : exec (.retuneWindowDue site c) s = .next (s.setSite site { s.site site with win := .due c }) := by
    refine congrArg Host.Outcome.next (if_pos (hok _ ?_))
    cases c with
    | interval ms => exact decide_eq_true (hms ms rfl)
    | temp k => exact decide_eq_true (hk k rfl)
    | corrected => exact hcorr rfl
  exact ⟨_, hexec, rfl, by simp, fun k hk => s.site_setSite_ne _ hk⟩

theorem State.rf_setSite (s : State) (i : Nat) (x : Site) (r : Reg) (lo len : Nat) :
    (s.setSite i x).rf r lo len = s.rf r lo len := rfl

theorem State.site_incRf (s : State) (r : Reg) (lo len k i : Nat) : (s.incRf r lo len k).site i = s.site i := rfl

theorem openWindow_rest (s : State) (site : Nat) (w : Window) (n : Nat) :
    s.openWindow site w n = { s with sites := (s.openWindow site w n).sites, regs := (s.openWindow site w n).regs } := by
  have counted : ∀ (u : State) r lo len k, ∃ m, u.incRf r lo len k = { u with regs := m } := fun _ _ _ _ _ => ⟨_, rfl⟩
  obtain ⟨x, m, h⟩ : ∃ x m, s.openWindow site w n = { s with sites := x, regs := m } := by
    obtain ⟨m1, h1⟩ := counted (s.setSite site { s.site site with win := w, corr := false }) (.vcCounts site .up) 40 16 1
    obtain ⟨m2, h2⟩ := counted _ (.vcCounts site .up) 56 8 n
    obtain ⟨m3, h3⟩ := counted _ (.vcCounts site .down) 40 16 1
    obtain ⟨m4, h4⟩ := counted _ (.vcCounts site .down) 56 8 n
    simp only [State.openWindow, List.foldl_cons, List.foldl_nil]
    rw [h1, h2, h3, h4]
    exact ⟨_, _, rfl⟩
  rw [h]

/-- A window that opens: both directions count it, FORCED only when it is forced (03 R130). -/
theorem openWindow_spec (s : State) (site : Nat) (w : Window) (n : Nat) :
    ((s.openWindow site w n).site site).win = w
      ∧ (∀ d, (s.openWindow site w n).rf (.vcCounts site d) 40 16 = min (s.rf (.vcCounts site d) 40 16 + 1) (2 ^ 16 - 1))
      ∧ ∀ d, (s.openWindow site w n).rf (.vcCounts site d) 56 8 = min (s.rf (.vcCounts site d) 56 8 + n) (2 ^ 8 - 1) := by
  have hne := vcCounts_up_ne_down site
  simp only [State.openWindow, List.foldl_cons, List.foldl_nil]
  refine ⟨by simp only [State.site_incRf, State.site_setSite_self], fun d => ?_, fun d => ?_⟩
  · cases d with
    | up =>
      rw [State.rf_incRf_ne _ _ _ _ _ _ hne, State.rf_incRf_ne _ _ _ _ _ _ hne,
        State.rf_incRf_field _ _ _ _ _ _ _ (by decide), State.rf_incRf_self _ _ _ _ _ (by decide), State.rf_setSite]
    | down =>
      rw [State.rf_incRf_field _ _ _ _ _ _ _ (by decide), State.rf_incRf_self _ _ _ _ _ (by decide),
        State.rf_incRf_ne _ _ _ _ _ _ hne.symm, State.rf_incRf_ne _ _ _ _ _ _ hne.symm, State.rf_setSite]
  · cases d with
    | up =>
      rw [State.rf_incRf_ne _ _ _ _ _ _ hne, State.rf_incRf_ne _ _ _ _ _ _ hne, State.rf_incRf_self _ _ _ _ _ (by decide),
        State.rf_incRf_field _ _ _ _ _ _ _ (by decide), State.rf_setSite]
    | down =>
      rw [State.rf_incRf_self _ _ _ _ _ (by decide), State.rf_incRf_field _ _ _ _ _ _ _ (by decide),
        State.rf_incRf_ne _ _ _ _ _ _ hne.symm, State.rf_incRf_ne _ _ _ _ _ _ hne.symm, State.rf_setSite]

/-- A core that sleeps while no Mover instruction has started is at the first moment of R120. -/
theorem windowMayOpen_of_sleeping {s : State} {site lc : Nat} (hlc : s.lcAt site = some lc)
    (hst : (s.core lc).st = .sleeping) (hmov : ∀ p ∈ s.cores, ∀ e ∈ p.2.movQ, e.started = false) :
    s.windowMayOpen site = true := by
  have hnone : (s.cores.any fun k => k.2.movQ.any (s.onChannel site k.1)) = false := by
    simp only [List.any_eq_false]
    intro p hp
    rw [Bool.not_eq_true, List.any_eq_false]
    intro e he
    simp [State.onChannel, hmov p hp e he]
  simp [State.windowMayOpen, hlc, hst, hnone]

theorem retuneWindowOpen_opens (s : State) (site lc : Nat) (c : RetuneCause) (hwin : (s.site site).win = .due c)
    (hlc : s.lcAt site = some lc) (hst : (s.core lc).st = .sleeping)
    (hmov : ∀ p ∈ s.cores, ∀ e ∈ p.2.movQ, e.started = false) :
    exec (.retuneWindowOpen site) s = .next (s.openWindow site .open 0) := by
  change execRetuneWindowOpen site s = _
  simp only [execRetuneWindowOpen, hwin, if_pos (windowMayOpen_of_sleeping hlc hst hmov)]

theorem retuneWindowForced_opens (s : State) (site ms : Nat) (c : RetuneCause) (hwin : (s.site site).win = .due c)
    (hms : s.rf .vcPolicy 32 8 ≤ ms) :
    exec (.retuneWindowForced site ms) s = .next (s.openWindow site .forced 1) := by
  change execRetuneWindowForced site ms s = _
  simp only [execRetuneWindowForced, hwin, if_pos hms]

theorem siteWindow_of_open {s : State} {site : Nat} (h : (s.site site).win = .open ∨ (s.site site).win = .forced) :
    s.siteWindow site = true := by
  obtain h | h := h <;> simp [State.siteWindow, h]

/-- No row is committed where none crosses. -/
theorem vcRowCommit_of_cross_none {s : State} {site : Nat} {d : VcDir} {struck errs : List MemErr}
    (h : s.cross site d struck = none) : exec (.vcRowCommit site d struck errs) s = .next s := by
  change execVcRowCommit site d struck errs s = _
  unfold execVcRowCommit
  simp only [h, ite_self]
  split
  · rfl
  · split <;> rfl

/-- Settles O21. -/
theorem retuneWindowsAndProbes : Obligations.RetuneWindowsAndProbes := by
  unfold Obligations.RetuneWindowsAndProbes
  refine ⟨probeMeasurement_steps, retuneWindowDue_sets, ?_, ?_, ?_, ?_⟩
  · intro s site lc c hwin hlc hst hmov
    obtain ⟨hopen, hcount, hforced⟩ := openWindow_spec s site .open 0
    refine ⟨_, retuneWindowOpen_opens s site lc c hwin hlc hst hmov, openWindow_rest .., hopen, hcount, fun d => ?_⟩
    have hlt : s.rf (.vcCounts site d) 56 8 < 2 ^ 8 := fld_lt ..
    rw [hforced d]
    omega
  · intro s site ms c hwin hms
    exact ⟨_, retuneWindowForced_opens s site ms c hwin hms, openWindow_rest .., openWindow_spec s site .forced 1⟩
  · intro s site d struck errs hwin
    exact vcRowCommit_of_cross_none (State.cross_none.mpr (.inr (.inl (siteWindow_of_open hwin))))
  · intro s site hwin
    exact if_pos (siteWindow_of_open hwin)

end Sys2Proof.Machine
end

