-- ==== Sys2Proof/Proofs/ChannelFailures.lean ====
section
/-!
O20. Lanes that fail and are repaired, groups that die, rows that are replayed: a rule for each of the operations that the
commands share, over the snag list and the registers of one channel.
-/

namespace Sys2Proof.Machine

theorem State.rf_setVc (s : State) (i : Nat) (d : VcDir) (v : Vc) (r : Reg) (lo len : Nat) :
    (s.setVc i d v).rf r lo len = s.rf r lo len := rfl

theorem State.vc_setRf (s : State) (r : Reg) (lo len v i : Nat) (d : VcDir) : (s.setRf r lo len v).vc i d = s.vc i d := rfl

/-! ### The snag list -/

theorem msi_snags (s : State) (v : Nat) : (s.msi v).snags = s.snags := by rw [State.msi_frame]; rfl

theorem log_snags (s : State) (cls src : Nat) (loc addr : Word) : (s.log cls src loc addr).snags = s.snags := by
  unfold State.log
  dsimp only
  generalize hf : ite (4 ≤ cls) _ s.flash = f
  have hsnag : f.snag = s.flash.snag := by rw [← hf]; split <;> rfl
  split
  · rw [msi_snags]
    exact congrArg (· ++ s.snagHeld) hsnag
  · exact congrArg (· ++ s.snagHeld) hsnag

theorem health_snags (s : State) : s.health.snags = s.snags := by
  unfold State.health
  dsimp only
  generalize ite (s.healthNow.2 = true) 2 _ = cls
  split
  · rfl
  · rw [log_snags]; rfl

/-- A fault that was appended is in the list (15 R519). -/
theorem snag_hasSnag (s : State) (f : FoundFault) : (s.snag f).hasSnag f.typ f.loc = true := by
  unfold State.snag
  split
  next h => exact h
  next h =>
    extract_lets e cut torn grown appended
    have he : e ∈ appended.snags := by
      change e ∈ State.snags (ite _ _ _)
      split
      · exact List.mem_append_left _ (List.mem_append_right _ (.head _))
      · exact List.mem_append_right _ (List.mem_append_right _ (.head _))
    rw [State.hasSnag, log_snags]
    exact List.any_eq_true.mpr ⟨e, he, by simp [e, mkSnag]⟩

theorem snagIn_hasSnag (s : State) (typ : Nat) (loc : Word) : (s.snagIn typ loc).hasSnag (BitVec.ofNat 8 typ) loc = true := by
  rw [State.snagIn, State.hasSnag, health_snags]
  exact snag_hasSnag s (s.foundBy typ loc true)

/-! ### Groups -/

theorem groupDead_congr {s t : State} {site g : Nat} {d : VcDir} (hg : g < 8)
    (h : t.rf (.vcGroup site d g) 36 1 = s.rf (.vcGroup site d g) 36 1) : t.groupDead site d g = s.groupDead site d g := by
  simp only [State.groupDead, if_pos hg, h]

theorem sparesUsed_congr {s t : State} {site g : Nat} {d : VcDir} (hg : g < 8)
    (h9 : t.rf (.vcGroup site d g) 9 1 = s.rf (.vcGroup site d g) 9 1)
    (h21 : t.rf (.vcGroup site d g) 21 1 = s.rf (.vcGroup site d g) 21 1) :
    t.sparesUsed site d g = s.sparesUsed site d g := by
  simp only [State.sparesUsed, if_pos hg, h9, h21]

theorem healthyGroups_congr {s t : State} {site : Nat} {d : VcDir}
    (h : ∀ g, g < 8 → t.groupDead site d g = s.groupDead site d g) : t.healthyGroups site d = s.healthyGroups site d :=
  List.filter_congr fun g hg => by rw [h g (List.mem_range.mp hg)]

theorem carrier_congr {s t : State} {site : Nat} {d : VcDir} (h : t.healthyGroups site d = s.healthyGroups site d)
    (slot : Nat) : t.carrier site d slot = s.carrier site d slot := by
  simp only [State.carrier, State.inUse, State.healthy, h]

/-- A site keeps a healthy group when one of two or more dies. -/
theorem healthy_ne_zero {s t : State} {site g : Nat} {d : VcDir} (h2 : 2 ≤ s.healthy site d)
    (h : ∀ k, k < 8 → k ≠ g → t.groupDead site d k = s.groupDead site d k) : t.healthy site d ≠ 0 := by
  have hnd : (s.healthyGroups site d).Nodup := List.nodup_range.filter _
  obtain ⟨k, hk, hkg⟩ : ∃ k ∈ s.healthyGroups site d, k ≠ g := by
    by_contra hall
    push Not at hall
    have hsub : s.healthyGroups site d ⊆ [g] := fun k hk => List.mem_singleton.mpr (hall k hk)
    have hle := (List.subperm_of_subset hnd hsub).length_le
    exact absurd (h2.trans hle) (Nat.not_le_of_lt Nat.one_lt_two)
  obtain ⟨hr, hd⟩ := List.mem_filter.mp hk
  have hk' : k ∈ t.healthyGroups site d :=
    List.mem_filter.mpr ⟨hr, by rw [h k (List.mem_range.mp hr) hkg]; exact hd⟩
  exact fun h0 => absurd (List.length_eq_zero_iff.mp h0 ▸ hk') List.not_mem_nil

theorem vcCounts_ne_vcStatus (site : Nat) (d : VcDir) : (Reg.vcCounts site d).addr ≠ (Reg.vcStatus site d).addr := by
  unfold Reg.addr
  dsimp only
  omega

/-- HOD_VC_STATUS follows the groups, and nothing else changes (03 R128). -/
theorem vcNote_rest (s : State) (site : Nat) (d : VcDir) : ∃ r, s.vcNote site d = { s with regs := r }
    ∧ ∀ a, a ≠ (Reg.vcStatus site d).addr → mapGet? r a = mapGet? s.regs a :=
  ⟨_, rfl, fun _ ha => (((setRf_regs_ne _ _ _ _ ha).trans (setRf_regs_ne _ _ _ _ ha)).trans
    (setRf_regs_ne _ _ _ _ ha)).trans (setRf_regs_ne _ _ _ _ ha)⟩

/-! ### A group that dies -/

/-- The state of a channel's registers and record once its group g is dead: two or more were healthy, so the site stays. -/
structure GroupDies (s t : State) (site : Nat) (d : VcDir) (g : Nat) : Prop where
  mem : t.mem = s.mem
  dead : t.groupDead site d g = true
  fields : ∀ lo len, lo + len ≤ 36 → t.rf (.vcGroup site d g) lo len = s.rf (.vcGroup site d g) lo len
  due : (t.vc site d).widthDue = true
  snag : t.hasSnag 4 (locLane site d g 0) = true

theorem killGroup_dies {s : State} {site g : Nat} {d : VcDir} (hg : g < 8) (hd : s.groupDead site d g = false)
    (h2 : 2 ≤ s.healthy site d) : GroupDies s (s.killGroup site d g) site d g := by
  unfold State.killGroup
  rw [if_neg (by simp [hd]), if_neg (by omega)]
  extract_lets v s1 s2
  have hrec : Records s1 (s1.snagIn 4 (locLane site d g 0)) := snagIn_records ..
  obtain ⟨r, hs2, hr⟩ := vcNote_rest (s1.snagIn 4 (locLane site d g 0)) site d
  have hrf : ∀ k, k < 8 → ∀ lo len, s2.rf (.vcGroup site d k) lo len = s1.rf (.vcGroup site d k) lo len := by
    intro k hk lo len
    rw [← hrec.rf (vcGroup_high site d k)]
    refine rf_congr ?_ lo len
    rw [show s2 = _ from hs2]
    exact hr _ (vcGroup_ne_vcStatus site d hk)
  have hother : ∀ k, k < 8 → k ≠ g → s2.groupDead site d k = s.groupDead site d k := fun k hk hkg =>
    groupDead_congr hk ((hrf k hk 36 1).trans (s.rf_setRf_ne _ _ _ _ _ (vcGroup_ne_vcGroup site d hkg)))
  rw [if_neg (healthy_ne_zero h2 hother)]
  refine ⟨?_, ?_, fun lo len hl => ?_, ?_, ?_⟩
  · rw [show s2 = _ from hs2]
    exact hrec.mem
  · have h36 : s1.rf (.vcGroup site d g) 36 1 = 1 := s.rf_setRf_self _ _ _ _ (by decide)
    simp only [State.groupDead, if_pos hg, hrf g hg, h36, decide_true]
  · rw [hrf g hg]
    exact s.rf_setRf_field _ _ _ _ _ _ (.inl hl)
  · rw [show s2 = _ from hs2]
    exact (congrArg Vc.widthDue (hrec.vc site d)).trans (congrArg Vc.widthDue (State.vc_setVc_self ..))
  · rw [show s2 = _ from hs2]
    exact snagIn_hasSnag s1 4 _

/-! ### Lanes -/

theorem mem_setAdd (s : NSet) (n : Nat) : n ∈ setAdd s n := by
  induction s with
  | nil => exact .head _
  | cons k s ih =>
    unfold setAdd
    split
    · exact .head _
    · split
      next h => exact h ▸ .head _
      next => exact .tail _ ih

theorem contains_setAdd (s : NSet) (n : Nat) : (setAdd s n).contains n = true := List.contains_iff_mem.mpr (mem_setAdd s n)

theorem lanesOf_data {g : Nat} (hg : g < 8) : lanesOf g = 288 := if_pos hg

/-- A lane that is declared failed while a spare of its group is left waits for its repair (03 R123 R124). -/
structure LaneWaits (s t : State) (site : Nat) (d : VcDir) (g lane : Nat) : Prop where
  mem : t.mem = s.mem
  cores : t.cores = s.cores
  regs : ∀ a, lathBase + 0x1000000 ≤ a → mapGet? t.regs a = mapGet? s.regs a
  failed : (t.vc site d).failed = setAdd (s.vc site d).failed (laneKey g lane)
  snag : t.hasSnag 3 (locLane site d g lane) = true

theorem declareLane_waits {s : State} {site g lane : Nat} {d : VcDir} (hg : g < 8) (hd : s.groupDead site d g = false)
    (hnew : (s.vc site d).failed.contains (laneKey g lane) = false)
    (hspare : s.sparesUsed site d g + (s.vc site d).waiting g < 2) :
    LaneWaits s (s.declareLane site d g lane) site d g lane := by
  unfold State.declareLane
  rw [if_neg (by rw [hnew, hd]; exact Bool.false_ne_true)]
  extract_lets s1 v1 s2 used v2
  have hrec : Records s s1 := snagIn_records ..
  have hvc : s2.vc site d = { s.vc site d with errs := mapErase (s.vc site d).errs (laneKey g lane) } := by
    rw [show s2.vc site d = _ from State.vc_setVc_self .., show v1 = _ from hrec.vc site d]
  have hused : used = s.sparesUsed site d g + (s.vc site d).waiting g := by
    have hrf := hrec.rf (vcGroup_high site d g)
    rw [show used = s2.sparesUsed site d g + (s2.vc site d).waiting g from rfl, hvc]
    exact congrArg (· + _) (sparesUsed_congr hg (hrf 9 1) (hrf 21 1))
  rw [if_pos (hused ▸ hspare)]
  refine ⟨hrec.mem, hrec.cores, hrec.regs, ?_, snagIn_hasSnag s 3 _⟩
  rw [State.vc_setVc_self]
  simp only [v2, hvc]

/-- The lane that dies with its group, no spare being left (03 R124). -/
structure LaneKills (s t : State) (site : Nat) (d : VcDir) (g lane : Nat) : Prop where
  mem : t.mem = s.mem
  dead : t.groupDead site d g = true
  fail2 : t.rf (.vcGroup site d g) 24 9 = lane ∧ t.rf (.vcGroup site d g) 33 1 = 1
  due : (t.vc site d).widthDue = true

theorem declareLane_kills {s : State} {site g lane : Nat} {d : VcDir} (hg : g < 8) (hlane : lane < 288)
    (hd : s.groupDead site d g = false) (hnone : (s.vc site d).failed = []) (hspare : s.sparesUsed site d g = 2)
    (h2 : 2 ≤ s.healthy site d) : LaneKills s (s.declareLane site d g lane) site d g lane := by
  unfold State.declareLane
  rw [if_neg (by rw [hnone, hd]; exact Bool.false_ne_true)]
  extract_lets s1 v1 s2 used v2 s3
  have hrec : Records s s1 := snagIn_records ..
  have hrf2 : ∀ k, ∀ lo len, s2.rf (.vcGroup site d k) lo len = s.rf (.vcGroup site d k) lo len := fun k =>
    hrec.rf (vcGroup_high site d k)
  have hused : 2 ≤ used := by
    rw [show used = s2.sparesUsed site d g + _ from rfl, sparesUsed_congr hg (hrf2 g 9 1) (hrf2 g 21 1), hspare]
    exact Nat.le_add_right ..
  rw [if_neg (by omega)]
  have hs3 : s3 = ((s2.setRf (.vcGroup site d g) 24 9 lane).setRf (.vcGroup site d g) 33 1 1).setRf (.vcGroup site d g) 34 1 1 :=
    if_pos hg
  have hdead3 : ∀ k, k < 8 → s3.groupDead site d k = s.groupDead site d k := by
    intro k hk
    refine groupDead_congr hk ?_
    rw [hs3]
    by_cases hkg : k = g
    · subst hkg
      rw [State.rf_setRf_field _ _ _ _ _ _ _ (by decide), State.rf_setRf_field _ _ _ _ _ _ _ (by decide),
        State.rf_setRf_field _ _ _ _ _ _ _ (by decide), hrf2]
    · have hne := vcGroup_ne_vcGroup site d hkg
      rw [State.rf_setRf_ne _ _ _ _ _ _ hne, State.rf_setRf_ne _ _ _ _ _ _ hne, State.rf_setRf_ne _ _ _ _ _ _ hne, hrf2]
  have hk := killGroup_dies hg ((hdead3 g hg).trans hd)
    (by rw [State.healthy, healthyGroups_congr hdead3]; exact h2)
  refine ⟨hk.mem.trans ?_, hk.dead, ⟨?_, ?_⟩, hk.due⟩
  · rw [hs3]
    exact hrec.mem
  · rw [hk.fields 24 9 (by decide), hs3, State.rf_setRf_field _ _ _ _ _ _ _ (by decide),
      State.rf_setRf_field _ _ _ _ _ _ _ (by decide), State.rf_setRf_self _ _ _ _ _ (by decide)]
    exact Nat.mod_eq_of_lt (by omega)
  · rw [hk.fields 33 1 (by decide), hs3, State.rf_setRf_field _ _ _ _ _ _ _ (by decide),
      State.rf_setRf_self _ _ _ _ _ (by decide)]
    rfl

/-- A lane takes the lowest unused spare of its group (03 R124). -/
structure LaneRepaired (s t : State) (site : Nat) (d : VcDir) (g lane : Nat) : Prop where
  mem : t.mem = s.mem
  cores : t.cores = s.cores
  held : t.rf (.vcGroup site d g) (12 * s.sparesUsed site d g) 9 = lane
  valid : t.rf (.vcGroup site d g) (12 * s.sparesUsed site d g + 9) 1 = 1
  service : t.rf (.vcGroup site d g) (12 * s.sparesUsed site d g + 10) 1 = 1
  fields : ∀ lo len, 12 * s.sparesUsed site d g + 11 ≤ lo →
    t.rf (.vcGroup site d g) lo len = s.rf (.vcGroup site d g) lo len
  regs : ∀ a, a ≠ (Reg.vcGroup site d g).addr → a ≠ (Reg.vcStatus site d).addr → mapGet? t.regs a = mapGet? s.regs a
  errs : (t.vc site d).errs = (s.vc site d).errs
  failed : (t.vc site d).failed = setDel (s.vc site d).failed (laneKey g lane)

theorem LaneRepaired.setSite {s t : State} {site g lane : Nat} {d : VcDir} (h : LaneRepaired s t site d g lane) (i : Nat)
    (x : Site) : LaneRepaired s (t.setSite i x) site d g lane :=
  ⟨h.mem, h.cores, h.held, h.valid, h.service, h.fields, h.regs, h.errs, h.failed⟩

theorem repairLane_repairs {s : State} {site g lane : Nat} {d : VcDir} (hg : g < 8) (hlane : lane < 288)
    (hwaits : (s.vc site d).failed.contains (laneKey g lane) = true) (hspare : s.sparesUsed site d g < 2) :
    LaneRepaired s (s.repairLane site d g lane) site d g lane := by
  unfold State.repairLane
  rw [if_neg (by rw [hwaits]; simp [hspare])]
  extract_lets lo s1 s2 s3 x
  have hs2 : s2 = ((s1.setRf (.vcGroup site d g) lo 9 lane).setRf (.vcGroup site d g) (lo + 9) 1 1).setRf
      (.vcGroup site d g) (lo + 10) 1 1 := if_pos hg
  obtain ⟨r, hs3, hr⟩ := vcNote_rest s2 site d
  have hfld : ∀ a len, s3.rf (.vcGroup site d g) a len = s2.rf (.vcGroup site d g) a len := fun a len =>
    rf_congr (by rw [show s3 = _ from hs3]; exact hr _ (vcGroup_ne_vcStatus site d hg)) a len
  have hvc : s3.vc site d = s1.vc site d := by
    rw [show s3.vc site d = s2.vc site d by rw [show s3 = _ from hs3]; rfl, hs2, State.vc_setRf, State.vc_setRf,
      State.vc_setRf]
  have hlo : lo + 11 ≤ 64 := by
    rw [show lo = 12 * s.sparesUsed site d g from rfl]
    omega
  have hs3' : LaneRepaired s s3 site d g lane := by
    refine ⟨?_, ?_, ?_, ?_, ?_, fun a len ha => ?_, fun a hg' hs' => ?_, ?_, ?_⟩
    · rw [show s3.mem = s2.mem from vcNote_mem .., hs2]
      simp only [State.setRf_mem, s1, State.setVc_mem]
    · rw [show s3 = _ from hs3, hs2]
      simp only [State.setRf_cores, s1, State.setVc_cores]
    · rw [hfld, hs2, State.rf_setRf_field _ _ _ _ _ _ _ (.inl (by omega)),
        State.rf_setRf_field _ _ _ _ _ _ _ (.inl (by omega)), State.rf_setRf_self _ _ _ _ _ (by omega)]
      exact Nat.mod_eq_of_lt (by omega)
    · rw [hfld, hs2, State.rf_setRf_field _ _ _ _ _ _ _ (.inl (by omega)), State.rf_setRf_self _ _ _ _ _ (by omega),
        Nat.pow_one]
    · rw [hfld, hs2, State.rf_setRf_self _ _ _ _ _ (by omega), Nat.pow_one]
    · have ha' : lo + 11 ≤ a := ha
      rw [hfld, hs2, State.rf_setRf_field _ _ _ _ _ _ _ (.inr (by omega)),
        State.rf_setRf_field _ _ _ _ _ _ _ (.inr (by omega)), State.rf_setRf_field _ _ _ _ _ _ _ (.inr (by omega))]
      exact State.rf_setVc ..
    · have h3 : mapGet? s3.regs a = mapGet? s2.regs a := by
        rw [show s3 = _ from hs3]
        exact hr a hs'
      rw [h3, hs2, setRf_regs_ne _ _ _ _ hg', setRf_regs_ne _ _ _ _ hg', setRf_regs_ne _ _ _ _ hg']
      exact congrArg (mapGet? · a) (State.setVc_regs ..)
    · rw [hvc, show s1 = s.setVc site d _ from rfl, State.vc_setVc_self]
    · rw [hvc, show s1 = s.setVc site d _ from rfl, State.vc_setVc_self]
  split
  · exact hs3'.setSite _ _
  · exact hs3'

/-- The map of lanes after a first repair (03 R124). -/
theorem LaneRepaired.physLane {s t : State} {site g lane : Nat} {d : VcDir} (h : LaneRepaired s t site d g lane) (hg : g < 8)
    (hfirst : s.sparesUsed site d g = 0) (l : Nat) : t.physLane site d g l = if lane ≤ l then l + 1 else l := by
  have hspares : s.rf (.vcGroup site d g) 9 1 + s.rf (.vcGroup site d g) 21 1 = 0 := by
    have hs := hfirst
    simp only [State.sparesUsed, if_pos hg] at hs
    exact hs
  have hfield := h.fields 21 1
  obtain ⟨-, -, hheld, hvalid, -, -, -, -, -⟩ := h
  rw [hfirst] at hheld hvalid hfield
  have h9 : bitAt (t.reg (.vcGroup site d g)) 9 = true := fld_one_eq_one.mp hvalid
  have h21 : bitAt (t.reg (.vcGroup site d g)) 21 = false := by
    rw [← Bool.not_eq_true, ← fld_one_eq_one, show fld (t.reg _) 21 1 = _ from hfield (by omega)]
    omega
  have hrep : t.repaired site d g = [lane] := by
    simp only [State.repaired, if_pos hg, h9, h21]
    exact congrArg (fun l : Nat => [l]) hheld
  rw [State.physLane, hrep]
  by_cases hl : lane ≤ l <;> simp [physOf, hl]

theorem laneFailed_struck {s : State} {site g lane : Nat} {d : VcDir} (h : EightErrors s site d g lane) :
    (s.vc site d).struck (laneKey g lane) = true := by
  obtain ⟨hlen, hspan⟩ := h
  simp only [Vc.struck, Bool.and_eq_true, decide_eq_true_eq]
  omega

theorem exec_vcLaneFailed {s : State} {site g lane : Nat} {d : VcDir} (hg : g < 8) (hlane : lane < 288)
    (hret : s.vcRetired site d = false) (h : EightErrors s site d g lane) :
    exec (.vcLaneFailed site d g lane) s = .next (s.declareLane site d g lane) := by
  refine congrArg Host.Outcome.next ((if_neg ?_).trans (if_pos (.inr (laneFailed_struck h))))
  rw [hret, lanesOf_data hg]
  simpa using hlane

theorem exec_vcLaneRepair {s : State} {site g lane : Nat} {d : VcDir} (hg : g < 8) (hlane : lane < 288)
    (hret : s.vcRetired site d = false) :
    exec (.vcLaneRepair site d g lane) s = .next (s.repairLane site d g lane) := by
  refine congrArg Host.Outcome.next (if_neg ?_)
  rw [hret, lanesOf_data hg]
  simpa using hlane

/-! ### Rows that are replayed -/

section
variable {s : State} {site g row us n : Nat} {d : VcDir} {words : List Nat} (h : FailsOn s site d g words row)
include h

/-- What a replay does of a row that fails on a group which is not dead. -/
theorem exec_vcRowReplay (hn : (s.vc site d).attempt + 1 = n) : exec (.vcRowReplay site d g n ⟨words, us⟩) s =
    if n = 1 then
      .next ((s.setVc site d { (s.vc site d).sent row with attempt := 1 }).incRf (.vcCounts site d) 32 8 1)
    else if (s.vc site d).replay.getLast? ≠ some row then .next s
    else if n = 2 then
      let t := (s.setVc site d { s.vc site d with attempt := 2 }).incRf (.vcCounts site d) 32 8 1
      .next ((t.suspects site d g words us).foldl (fun s l => (s.declareLane site d g l).repairLane site d g l) t)
    else .next ((s.setVc site d { s.vc site d with attempt := 0 }).killGroup site d g) := by
  obtain ⟨hrow, hdead, hword⟩ := h
  change execVcRowReplay site d g n ⟨words, us⟩ s = _
  simp only [execVcRowReplay, hrow]
  refine if_neg ?_
  have hany : (words.any fun w => s.carrier site d (w / 4) == g) = true := by
    obtain ⟨w, hw, hc⟩ := hword
    exact List.any_eq_true.mpr ⟨w, hw, by simpa using hc⟩
  simp [hdead, hn, hany]

end

theorem vcRowReplay_first (s : State) (site g row us : Nat) (d : VcDir) (words : List Nat)
    (h : FailsOn s site d g words row) (hatt : (s.vc site d).attempt = 0) :
    ∃ t, exec (.vcRowReplay site d g 1 ⟨words, us⟩) s = .next t ∧ t.mem = s.mem ∧ t.cores = s.cores
      ∧ t.rf (.vcCounts site d) 32 8 = min (s.rf (.vcCounts site d) 32 8 + 1) 255
      ∧ ∀ a, a ≠ (Reg.vcCounts site d).addr → mapGet? t.regs a = mapGet? s.regs a := by
  refine ⟨_, (exec_vcRowReplay h (by rw [hatt])).trans (if_pos rfl), rfl, rfl, ?_, fun a ha => setReg_regs_ne _ _ ha⟩
  exact State.rf_incRf_self _ _ _ _ _ (by decide)

/-- The one lane of the failing words that has shown a corrected error. -/
theorem suspects_eq_singleton {s : State} {site g us lane : Nat} {d : VcDir} {words : List Nat} (hg : g < 8)
    (hone : ∀ l, l < 288 → ((∃ w ∈ words, s.carrier site d (w / 4) = g ∧ w % 4 = l % 4)
      ∧ (∃ m ∈ mapGet (s.vc site d).errs (laneKey g l) [], m ≤ us ∧ us ≤ m + 1000) ↔ l = lane)) (hlane : lane < 288) :
    s.suspects site d g words us = [lane] := by
  have hpred : ∀ l ∈ List.range 288, ((words.any fun w => s.carrier site d (w / 4) == g && (bitOfLane l).1 == w % 4)
      && (s.vc site d).recent (laneKey g l) us) = (l == lane) := by
    intro l hl
    rw [Bool.eq_iff_iff, beq_iff_eq, ← hone l (List.mem_range.mp hl), Bool.and_eq_true]
    simp only [Vc.recent, bitOfLane, List.any_eq_true, Bool.and_eq_true, beq_iff_eq, decide_eq_true_eq]
    refine and_congr (exists_congr fun w => and_congr_right fun _ => and_congr_right fun _ => eq_comm) ?_
    exact exists_congr fun m => and_congr_right fun _ => and_congr_right fun _ => by omega
  rw [State.suspects, lanesOf_data hg, List.filter_congr hpred, List.filter_beq, List.count_eq_one_of_mem List.nodup_range
    (List.mem_range.mpr hlane)]
  rfl

/-- A suspect lane is declared failed and repaired at once, from a group with both spares left (03 R125). -/
theorem declared_then_repaired {s : State} {site g lane : Nat} {d : VcDir} (hg : g < 8) (hlane : lane < 288)
    (hd : s.groupDead site d g = false) (hnone : (s.vc site d).failed = []) (hspare : s.sparesUsed site d g = 0) :
    let t := (s.declareLane site d g lane).repairLane site d g lane
    t.mem = s.mem ∧ t.cores = s.cores ∧ t.rf (.vcCounts site d) 32 8 = s.rf (.vcCounts site d) 32 8
      ∧ t.rf (.vcGroup site d g) 0 9 = lane ∧ t.rf (.vcGroup site d g) 9 1 = 1 ∧ t.groupDead site d g = false := by
  have hw := declareLane_waits hg hd (by rw [hnone]; rfl) (by rw [hspare, Vc.waiting, hnone]; exact Nat.zero_lt_two) (lane := lane)
  have hrf : ∀ lo len, (s.declareLane site d g lane).rf (.vcGroup site d g) lo len = s.rf (.vcGroup site d g) lo len :=
    fun lo len => rf_congr (hw.regs _ (vcGroup_high site d g)) lo len
  have hused : (s.declareLane site d g lane).sparesUsed site d g = 0 :=
    (sparesUsed_congr hg (hrf 9 1) (hrf 21 1)).trans hspare
  have hr := repairLane_repairs hg hlane (by rw [hw.failed]; exact contains_setAdd _ _) (by omega)
  have hheld := hr.held
  have hvalid := hr.valid
  have hdead := hr.fields 36 1
  rw [hused] at hheld hvalid hdead
  refine ⟨hr.mem.trans hw.mem, hr.cores.trans hw.cores, rf_congr ?_ 32 8, hheld, hvalid, ?_⟩
  · exact (hr.regs _ (vcGroup_ne_vcCounts site d hg).symm (vcCounts_ne_vcStatus site d)).trans
      (hw.regs _ (vcCounts_high site d))
  · exact (groupDead_congr hg ((hdead (by omega)).trans (hrf 36 1))).trans hd

theorem vcRowReplay_second (s : State) (site g row us lane : Nat) (d : VcDir) (words : List Nat) (hg : g < 8)
    (h : FailsOn s site d g words row) (hatt : (s.vc site d).attempt = 1) (hlast : (s.vc site d).replay.getLast? = some row)
    (hnone : (s.vc site d).failed = []) (hspare : s.sparesUsed site d g = 0)
    (hone : ∀ l, l < 288 → ((∃ w ∈ words, s.carrier site d (w / 4) = g ∧ w % 4 = l % 4)
      ∧ (∃ m ∈ mapGet (s.vc site d).errs (laneKey g l) [], m ≤ us ∧ us ≤ m + 1000) ↔ l = lane)) (hlane : lane < 288) :
    ∃ t, exec (.vcRowReplay site d g 2 ⟨words, us⟩) s = .next t ∧ t.mem = s.mem ∧ t.cores = s.cores
      ∧ t.rf (.vcCounts site d) 32 8 = min (s.rf (.vcCounts site d) 32 8 + 1) 255
      ∧ t.rf (.vcGroup site d g) 0 9 = lane ∧ t.rf (.vcGroup site d g) 9 1 = 1 ∧ t.groupDead site d g = false := by
  have hexec := (exec_vcRowReplay (us := us) h (by rw [hatt])).trans
    ((if_neg (by decide)).trans ((if_neg (not_not_intro hlast)).trans (if_pos rfl)))
  extract_lets v t at hexec
  have hvc : t.vc site d = { s.vc site d with attempt := 2 } := State.vc_setVc_self ..
  have hrf : ∀ k, k < 8 → ∀ lo len, t.rf (.vcGroup site d k) lo len = s.rf (.vcGroup site d k) lo len :=
    fun k hk lo len => State.rf_incRf_ne _ _ _ _ _ _ (vcGroup_ne_vcCounts site d hk)
  have hcounts : t.rf (.vcCounts site d) 32 8 = min (s.rf (.vcCounts site d) 32 8 + 1) 255 :=
    State.rf_incRf_self _ _ _ _ _ (by decide)
  have hcarrier : ∀ i, t.carrier site d i = s.carrier site d i :=
    carrier_congr (healthyGroups_congr fun k hk => groupDead_congr hk (hrf k hk 36 1))
  have hsus : t.suspects site d g words us = [lane] :=
    suspects_eq_singleton hg (by simpa only [hcarrier, hvc] using hone) hlane
  rw [hsus, List.foldl_cons, List.foldl_nil] at hexec
  obtain ⟨hmem, hcores, hcount, hheld, hvalid, hdead⟩ := declared_then_repaired (s := t) hg hlane
    ((groupDead_congr hg (hrf g hg 36 1)).trans h.2.1) (by rw [hvc]; exact hnone)
    ((sparesUsed_congr hg (hrf g hg 9 1) (hrf g hg 21 1)).trans hspare)
  exact ⟨_, hexec, hmem, hcores, hcount.trans hcounts, hheld, hvalid, hdead⟩

theorem vcRowReplay_third (s : State) (site g row us : Nat) (d : VcDir) (words : List Nat) (hg : g < 8)
    (h : FailsOn s site d g words row) (hatt : (s.vc site d).attempt = 2) (hlast : (s.vc site d).replay.getLast? = some row)
    (h2 : 2 ≤ s.healthy site d) :
    ∃ t, exec (.vcRowReplay site d g 3 ⟨words, us⟩) s = .next t ∧ t.mem = s.mem ∧ t.groupDead site d g = true
      ∧ t.hasSnag 4 (locLane site d g 0) = true := by
  have hk := killGroup_dies (s := s.setVc site d { s.vc site d with attempt := 0 }) hg h.2.1 h2
  exact ⟨_, (exec_vcRowReplay h (by rw [hatt])).trans
    ((if_neg (by decide)).trans ((if_neg (not_not_intro hlast)).trans (if_neg (by decide)))), hk.mem, hk.dead, hk.snag⟩

/-! ### Widths -/

theorem vcWidthChange_sets (s : State) (site : Nat) (d : VcDir) (hdue : (s.vc site d).widthDue = true)
    (hret : s.vcRetired site d = false) :
    ∃ t, exec (.vcWidthChange site d) s = .next t ∧ t.mem = s.mem ∧ t.cores = s.cores ∧ (t.vc site d).widthDue = false
      ∧ t.rf (.vcStatus site d) 16 2 = widthCode (s.healthy site d) := by
  have hexec : exec (.vcWidthChange site d) s = .next ((s.setVc site d { s.vc site d with widthDue := false }).setRf
      (.vcStatus site d) 16 2 (widthCode (s.healthy site d))).health :=
    if_pos (by rw [hdue, hret]; rfl)
  have hr := health_records ((s.setVc site d { s.vc site d with widthDue := false }).setRf
    (.vcStatus site d) 16 2 (widthCode (s.healthy site d)))
  have hcode : widthCode (s.healthy site d) < 4 := by
    unfold widthCode
    split <;> (try split) <;> (try split) <;> omega
  refine ⟨_, hexec, hr.mem, hr.cores, ?_, ?_⟩
  · rw [hr.vc, State.vc_setRf, State.vc_setVc_self]
  · rw [hr.rf (vcStatus_high site d), State.rf_setRf_self _ _ _ _ _ (by decide)]
    exact Nat.mod_eq_of_lt hcode

/-- Settles O20. -/
theorem verticalChannelFailures : Obligations.VerticalChannelFailures := by
  unfold Obligations.VerticalChannelFailures
  refine ⟨?_, ?_, ?_, vcRowReplay_first, ?_, ?_, ?_⟩
  · intro s site g lane d hg hlane hret h8 hd hnew hspare
    have hw := declareLane_waits hg hd hnew hspare
    refine ⟨_, exec_vcLaneFailed hg hlane hret h8, hw.mem, by rw [hw.failed]; exact contains_setAdd _ _, hw.snag, ?_⟩
    exact (groupDead_congr hg (rf_congr (hw.regs _ (vcGroup_high site d g)) 36 1)).trans hd
  · intro s site g lane d hg hlane hret h8 hd hnone hspare h2
    have hk := declareLane_kills hg hlane hd hnone hspare h2
    exact ⟨_, exec_vcLaneFailed hg hlane hret h8, hk.mem, hk.dead, hk.fail2.1, hk.fail2.2, hk.due⟩
  · intro s site g lane d hg hlane hret hwaits hspare
    have hr := repairLane_repairs hg hlane hwaits hspare
    exact ⟨_, exec_vcLaneRepair hg hlane hret, hr.mem, hr.cores, hr.held, hr.valid, hr.service, hr.errs, hr.failed,
      fun hfirst l _ => hr.physLane hg hfirst l⟩
  · intro s site g row us lane d words hg h hatt hlast _ hnone hspare hone hlane
    exact vcRowReplay_second s site g row us lane d words hg h hatt hlast hnone hspare hone hlane
  · intro s site g row us d words hg h hatt hlast h2
    exact vcRowReplay_third s site g row us d words hg h hatt hlast h2
  · intro s site d hdue hret
    obtain ⟨t, hexec, hmem, hcores, hdone, hw⟩ := vcWidthChange_sets s site d hdue hret
    refine ⟨t, hexec, hmem, hcores, hdone, ?_⟩
    rw [hw]
    unfold widthCode
    refine ⟨fun h => ?_, fun h => ?_, fun h => ?_, fun h => ?_⟩
    · rw [if_pos h]
    · rw [if_neg (by omega), if_pos h.1]
    · rw [if_neg (by omega), if_neg (by omega), if_pos h.1]
    · rw [if_neg (by omega), if_neg (by omega), if_neg (by omega)]

end Sys2Proof.Machine
end

