-- ==== Sys2Proof/Proofs/MetErrors.lean ====
section
/-!
What the errors that a command's reads meet (16 R539-R551) and the rows that it commits leave alone: the count of corrected bits
in transit of every channel (03 R130). An error may poison, patch, drop a line, fail a core, and records itself; none of that
names the register.
-/

namespace Sys2Proof.Machine

/-- The counts of every vertical channel are as before. -/
structure KeepsCounts (s t : State) : Prop where
  counts : ∀ site d, mapGet? t.regs (Reg.vcCounts site d).addr = mapGet? s.regs (Reg.vcCounts site d).addr

theorem KeepsCounts.refl (s : State) : KeepsCounts s s := ⟨fun _ _ => rfl⟩

theorem KeepsCounts.trans {s t u : State} (h : KeepsCounts s t) (g : KeepsCounts t u) : KeepsCounts s u :=
  ⟨fun site d => (g.counts site d).trans (h.counts site d)⟩

theorem KeepsCounts.of_regs {s t : State} (h : t.regs = s.regs) : KeepsCounts s t := ⟨fun _ _ => by rw [h]⟩

theorem KeepsCounts.after {s t u : State} (g : KeepsCounts t u) (h : t.regs = s.regs) : KeepsCounts s u :=
  ⟨fun site d => (g.counts site d).trans (by rw [h])⟩

theorem KeepsCounts.ite {s t u : State} {p : Prop} [Decidable p] (h : KeepsCounts s t) (g : KeepsCounts s u) :
    KeepsCounts s (if p then t else u) := by
  split
  · exact h
  · exact g

theorem Records.keepsCounts {s t : State} (h : Records s t) : KeepsCounts s t :=
  ⟨fun site d => h.regs _ (vcCounts_high site d)⟩

theorem KeepsCounts.setReg (s : State) {r : Reg} (w : Word) (h : ∀ site d, (Reg.vcCounts site d).addr ≠ r.addr) :
    KeepsCounts s (s.setReg r w) :=
  ⟨fun site d => setReg_regs_ne s w (h site d)⟩

theorem KeepsCounts.setRf (s : State) {r : Reg} (lo len v : Nat) (h : ∀ site d, (Reg.vcCounts site d).addr ≠ r.addr) :
    KeepsCounts s (s.setRf r lo len v) := .setReg s _ h

theorem KeepsCounts.incRf (s : State) {r : Reg} (lo len k : Nat) (h : ∀ site d, (Reg.vcCounts site d).addr ≠ r.addr) :
    KeepsCounts s (s.incRf r lo len k) := .setReg s _ h

theorem vcCounts_ne_of_lt {r : Reg} (h : r.addr < lathBase + 0x1000000) (site : Nat) (d : VcDir) :
    (Reg.vcCounts site d).addr ≠ r.addr := (Nat.lt_of_lt_of_le h (vcCounts_high site d)).ne'

/-! ### Counters -/

/-- The counts of a channel stand at addresses whose low bytes no counter of a Lath block and no slice's register has. -/
theorem vcCounts_low_byte (site : Nat) (d : VcDir) :
    (Reg.vcCounts site d).addr % 0x100 = 0x48 ∨ (Reg.vcCounts site d).addr % 0x100 = 0xC8 := by
  cases d
  · left
    unfold Reg.addr lathBase
    dsimp only
    rw [if_pos rfl]
    omega
  · right
    unfold Reg.addr lathBase
    dsimp only
    rw [if_neg nofun]
    omega

theorem lathEvent_keepsCounts (s : State) (b code n : Nat) : KeepsCounts s (s.lathEvent b code n) := by
  refine ⟨fun site d => foldl_regs_eq _ _ _ fun i hi u => ?_⟩
  have hi : i < 8 := List.mem_range.mp hi
  have hlow := vcCounts_low_byte site d
  split
  · refine bump_regs_ne _ _ _ ?_ ?_ <;> intro e <;> rw [e] at hlow
    · unfold Reg.addr lathBase at hlow
      dsimp only at hlow
      omega
    · unfold Reg.addr lathBase at hlow
      dsimp only at hlow
      omega
  · rfl

theorem sliceStatus_keepsCounts (s : State) (slice lo len k : Nat) : KeepsCounts s (s.incRf (.sliceStatus slice) lo len k) := by
  refine .incRf _ _ _ _ fun site d e => ?_
  have hlow := vcCounts_low_byte site d
  rw [e] at hlow
  unfold Reg.addr lathBase at hlow
  dsimp only at hlow
  omega

/-- A command that acts on one core alone counts in that core's block. -/
theorem CoreFrame.keepsCounts {lc : Nat} {s t : State} (h : CoreFrame lc s t) (hlc : lc < 144) : KeepsCounts s t := by
  refine ⟨fun site d => h.regs _ fun hc => ?_⟩
  have hhigh := vcCounts_high site d
  obtain e | e | e | ⟨i, hi, e⟩ := hc
  all_goals
    rw [e] at hhigh
    unfold Reg.addr coreBase lathBase at hhigh
    dsimp only at hhigh
    omega

/-! ### Failing parts -/

theorem mcMap_low : Reg.mcMap.addr < lathBase + 0x1000000 := by
  unfold Reg.addr
  dsimp only
  omega

theorem mcLc_low {lc : Nat} (h : lc < 144) : (Reg.mcLc lc).addr < lathBase + 0x1000000 := by
  unfold Reg.addr
  dsimp only
  omega

theorem rndCh_low {c : Nat} (h : c < 8192) : (Reg.rndCh c).addr < lathBase + 0x1000000 := by
  unfold Reg.addr
  dsimp only
  omega

theorem stopCore_regs (s : State) (lc : Nat) : (s.stopCore lc).regs = s.regs := by
  unfold State.stopCore
  split
  · rw [State.raise, State.takeAt_frame]
  · rw [State.raise, State.takeAt_frame]
  · rfl

theorem failCore_keepsCounts (s : State) {lc : Nat} (h : lc < 144) : KeepsCounts s (s.failCore lc) := by
  unfold State.failCore
  split
  · exact .refl s
  · have h1 : KeepsCounts s ((s.setRf (.mcLc lc) 16 1 1).incRf .mcMap 8 8 1) :=
      .trans (.setRf s _ _ _ (vcCounts_ne_of_lt (mcLc_low h))) (.incRf _ _ _ _ (vcCounts_ne_of_lt mcMap_low))
    exact (h1.trans (.of_regs (stopCore_regs ..))).trans (health_records _).keepsCounts

theorem failBlock_keepsCounts (s : State) (site blk : Nat) : KeepsCounts s (s.failBlock site blk) := by
  unfold State.failBlock
  have h := (snagIn_records s 1 (locSite site blk)).keepsCounts
  dsimp only
  split
  next lc hlc => exact h.trans (failCore_keepsCounts _ (lcAt_lt hlc))
  next => exact h

/-! ### One error, by the memory that it is in -/

theorem loseRow_regs (s : State) (site row : Nat) : (s.loseRow site row).regs = s.regs := by
  unfold State.loseRow
  dsimp only

theorem patchRow_keepsCounts (s : State) (site row : Nat) (fails : Bool) : KeepsCounts s (s.patchRow site row fails) := by
  unfold State.patchRow
  extract_lets ps ps' loc s1
  have h1 : KeepsCounts s s1 := (snagIn_records s 5 loc).keepsCounts
  clear_value s1
  have hlog := fun (u : State) cls => (log_records u cls 5 loc 0).keepsCounts
  have hlose : KeepsCounts s1 (if fails = true then s1.loseRow site row else s1) :=
    .ite (.of_regs (loseRow_regs ..)) (.refl s1)
  exact .ite (h1.trans ((hlog _ 2).after rfl)) ((h1.trans hlose).trans (hlog _ 3))

theorem patchGran_keepsCounts (s : State) (p : Nat) : KeepsCounts s (s.patchGran p) := by
  unfold State.patchGran
  extract_lets ch g ps again ps' s1
  have h1 : KeepsCounts s s1 := .ite (.refl s) (snagIn_records ..).keepsCounts
  clear_value s1
  have hlog := fun (u : State) cls => (log_records u cls 7 (locGran p) 0).keepsCounts
  exact .ite (h1.trans ((hlog _ 2).after rfl)) (h1.trans (hlog _ 3))

/-- Poison is noted and recorded. -/
theorem poison_keepsCounts (s : State) (m : NSet) (cls src : Nat) (loc addr : Word) :
    KeepsCounts s ({ s with poison := m }.log cls src loc addr) :=
  (log_records ..).keepsCounts.after rfl

theorem meetHawk_keepsCounts (s : State) (k : ErrKind) (key : Nat) : KeepsCounts s (s.meetHawk k key) := by
  unfold State.meetHawk
  extract_lets site count poison hard
  have hcount : ∀ u, KeepsCounts u (count u) := by
    intro u
    simp only [count]
    split
    next lc hlc => exact (event_frame lc u 0x31 1).keepsCounts (lcAt_lt hlc)
    next => exact .refl u
  have hfirst := fun u => (hcount u).trans (logFirst_records (count u) (markOf key) 1 (locSite site 1) 0).keepsCounts
  have hhard : ∀ u, KeepsCounts u (hard u) := by
    intro u
    have h1 : KeepsCounts u ((u.setSite site { u.site site with hardHawk := (u.site site).hardHawk + 1 }).log 3 1 (locSite site 1) 0) :=
      (log_records ..).keepsCounts.after rfl
    exact .ite (h1.trans (failBlock_keepsCounts ..)) (h1.trans (.of_regs rfl))
  cases k with
  | soft => exact hfirst s
  | hard => exact (hfirst s).trans (hhard _)
  | uncorr => exact poison_keepsCounts ..
  | hardUncorr =>
    exact ((poison_keepsCounts ..).trans (log_records ..).keepsCounts).trans (failBlock_keepsCounts ..)
  | transit _ _ => exact .refl s

/-- A corrected error of a slice is counted and recorded (04 R174). -/
theorem sliceCount_keepsCounts (s : State) (site b place : Nat) (loc : Word) :
    KeepsCounts s (((s.incRf (.sliceStatus site) 32 32 1).lathEvent b 6 1).logFirst place 5 loc 0) :=
  ((sliceStatus_keepsCounts ..).trans (lathEvent_keepsCounts ..)).trans (logFirst_records ..).keepsCounts

theorem meetHod_keepsCounts (s : State) (k : ErrKind) (key : Nat) : KeepsCounts s (s.meetHod k key) := by
  unfold State.meetHod
  cases k with
  | soft => exact sliceCount_keepsCounts ..
  | hard => exact (sliceCount_keepsCounts ..).trans (patchRow_keepsCounts ..)
  | uncorr => exact poison_keepsCounts ..
  | hardUncorr => exact (poison_keepsCounts ..).trans (patchRow_keepsCounts ..)
  | transit _ _ => exact .refl s

theorem meetRender_keepsCounts (s : State) (k : ErrKind) {key : Nat} (hkey : key < 2 ^ 45) :
    KeepsCounts s (s.meetRender k key) := by
  have hch : chanOf key < 8192 := by unfold chanOf; omega
  have hne := vcCounts_ne_of_lt (rndCh_low hch)
  unfold State.meetRender
  extract_lets ch addr place count poison
  have hcount : KeepsCounts s (count s) := .trans (.incRf _ _ _ _ hne) (logFirst_records ..).keepsCounts
  have hpoison : KeepsCounts s (poison s) :=
    have h1 := KeepsCounts.incRf { s with poison := setAdd s.poison (markOf key) } 16 16 1 hne
    (h1.trans (log_records ..).keepsCounts).after rfl
  cases k with
  | soft => exact hcount
  | hard => exact hcount.trans (patchGran_keepsCounts ..)
  | uncorr => exact hpoison
  | hardUncorr => exact hpoison.trans (patchGran_keepsCounts ..)
  | transit _ _ => exact .refl s

theorem cacheLost_keepsCounts (s : State) (a : Nat) : KeepsCounts s (s.cacheLost a) := by
  unfold State.cacheLost
  exact .ite ((log_records ..).keepsCounts.after rfl) (.of_regs rfl)

theorem meetCache_keepsCounts (s : State) (k : ErrKind) (a : Nat) : KeepsCounts s (s.meetCache k a) := by
  unfold State.meetCache
  cases k with
  | transit _ _ => exact .refl s
  | soft => exact sliceCount_keepsCounts ..
  | hard => exact (sliceCount_keepsCounts ..).trans (patchRow_keepsCounts ..)
  | uncorr => exact cacheLost_keepsCounts ..
  | hardUncorr => exact (cacheLost_keepsCounts ..).trans (patchRow_keepsCounts ..)

theorem meetBuffer_keepsCounts (s : State) (k : Nat) : KeepsCounts s (s.meetBuffer k) :=
  (log_records ..).keepsCounts.after rfl

theorem meetErr_keepsCounts (s : State) (e : MemErr) : KeepsCounts s (s.meetErr e) := by
  unfold State.meetErr
  dsimp only
  split
  · exact .refl s
  split
  · exact meetBuffer_keepsCounts ..
  split
  · exact meetCache_keepsCounts ..
  split
  next h => exact meetRender_keepsCounts _ _ h
  next => exact .ite (meetHawk_keepsCounts ..) (meetHod_keepsCounts ..)

theorem meet_keepsCounts (s : State) (errs : List MemErr) : KeepsCounts s (s.meet errs) :=
  ⟨fun _ _ => foldl_regs_eq _ _ _ fun e _ u => (meetErr_keepsCounts u e).counts _ _⟩

end Sys2Proof.Machine
end

