-- ==== Sys2Proof/Proofs/DescriptorForms.lean ====
section
/-!
When a word of a descriptor keeps its form: no bit outside its fields is set exactly when the fields between them are 0. Reads
of runs of bytes, and the steps of an arithmetic progression.
-/

namespace Sys2Proof.Machine

theorem fld_eq_zero_iff {n : Nat} (w : BitVec n) (lo len : Nat) :
    fld w lo len = 0 ↔ ∀ i, lo ≤ i → i < lo + len → w.getLsbD i = false := by
  constructor
  · intro h i hlo hhi
    have hbit := fld_testBit w lo len (i - lo)
    rw [h, Nat.zero_testBit, decide_eq_true (by omega : i - lo < len), Bool.true_and, Nat.add_sub_cancel' hlo] at hbit
    exact hbit.symm
  · intro h
    refine Nat.eq_of_testBit_eq fun i => ?_
    rw [fld_testBit, Nat.zero_testBit]
    by_cases hi : i < len
    · rw [h _ (Nat.le_add_right ..) (by omega), Bool.and_false]
    · rw [decide_eq_false hi, Bool.false_and]

/-- The mask of a list of fields. -/
theorem fieldMask_getLsbD (n : Nat) (fs : List (Nat × Nat)) (m : BitVec n) (i : Nat) :
    (fs.foldl (fun m f => m ||| fldMask n f.1 f.2) m).getLsbD i
      = (m.getLsbD i || decide (i < n) && fs.any fun f => decide (f.1 ≤ i) && decide (i < f.1 + f.2)) := by
  induction fs generalizing m with
  | nil => simp
  | cons f fs ih =>
    rw [List.foldl_cons, ih, BitVec.getLsbD_or, fldMask_getLsbD, List.any_cons, Bool.or_assoc, Bool.and_or_distrib_left]

theorem onlyBits_iff {n : Nat} (w : BitVec n) (fs : List (Nat × Nat)) :
    onlyBits w fs = true ↔ ∀ i, i < n → (∀ f ∈ fs, ¬ (f.1 ≤ i ∧ i < f.1 + f.2)) → w.getLsbD i = false := by
  unfold onlyBits
  rw [beq_iff_eq]
  have hbit : ∀ i, i < n → (w &&& ~~~(fs.foldl (fun m f => m ||| fldMask n f.1 f.2) 0)).getLsbD i
      = (w.getLsbD i && !fs.any fun f => decide (f.1 ≤ i) && decide (i < f.1 + f.2)) := by
    intro i hi
    rw [BitVec.getLsbD_and, BitVec.getLsbD_not, fieldMask_getLsbD, decide_eq_true hi, BitVec.ofNat_eq_ofNat,
      BitVec.getLsbD_zero, Bool.false_or, Bool.true_and, Bool.true_and]
  have hany : ∀ i, (fs.any fun f => decide (f.1 ≤ i) && decide (i < f.1 + f.2)) = false ↔
      ∀ f ∈ fs, ¬ (f.1 ≤ i ∧ i < f.1 + f.2) := fun i => by simp
  constructor
  · intro h i hi hout
    have := hbit i hi
    rw [h, (hany i).mpr hout] at this
    simpa using this.symm
  · intro h
    refine BitVec.eq_of_getLsbD_eq fun i hi => ?_
    rw [hbit i hi, BitVec.ofNat_eq_ofNat, BitVec.getLsbD_zero]
    by_cases hout : (fs.any fun f => decide (f.1 ≤ i) && decide (i < f.1 + f.2)) = false
    · rw [h i hi ((hany i).mp hout), Bool.false_and]
    · rw [Bool.not_eq_false] at hout
      rw [hout, Bool.not_true, Bool.and_false]

theorem restZero_iff (d : Desc) (k : Nat) : restZero d k = true ↔ ∀ i, k ≤ i → i < 8 → dword d i = 0 := by
  simp only [restZero, List.all_eq_true, List.mem_range, Bool.or_eq_true, decide_eq_true_eq, beq_iff_eq]
  exact ⟨fun h i hk hi => (h i hi).resolve_left (by omega), fun h i hi =>
    (Nat.lt_or_ge i k).imp id fun hk => h i hk hi⟩

/-- The steps of a linear progression lie between its ends. -/
theorem linear_between {a b lo hi : Int} {n : Nat} (h0 : lo ≤ a ∧ a < hi)
    (hn : lo ≤ a + ((n : Nat) : Int) * b ∧ a + (n : Int) * b < hi) {i : Nat} (hi' : i ≤ n) :
    lo ≤ a + (i : Int) * b ∧ a + (i : Int) * b < hi := by
  have hi0 : (0 : Int) ≤ i := Int.natCast_nonneg i
  have hin : (i : Int) ≤ n := Int.ofNat_le.mpr hi'
  by_cases hb : 0 ≤ b
  · have h1 : 0 ≤ (i : Int) * b := mul_nonneg hi0 hb
    have h2 : (i : Int) * b ≤ n * b := mul_le_mul_of_nonneg_right hin hb
    omega
  · have h1 : (i : Int) * b ≤ 0 := mul_nonpos_of_nonneg_of_nonpos hi0 (by omega)
    have h2 : (n : Int) * b ≤ i * b := mul_le_mul_of_nonpos_right hin (by omega)
    omega

/-! ### Runs of bytes, values set twice -/

theorem mapSet_mapSet {α : Type} (m : FMap α) (n : Nat) (x y : α) : mapSet (mapSet m n x) n y = mapSet m n y := by
  induction m with
  | nil => simp [mapSet]
  | cons e m ih =>
    obtain ⟨k, v⟩ := e
    by_cases hlt : n < k
    · simp [mapSet, hlt]
    · by_cases heq : n = k
      · simp [mapSet, heq]
      · simp [mapSet, hlt, heq, ih]

theorem State.setCore_setCore (s : State) (lc : Nat) (c d : Core) : (s.setCore lc c).setCore lc d = s.setCore lc d := by
  unfold State.setCore
  dsimp only
  rw [mapSet_mapSet]

theorem memGets_getD (m : Memory) (a n i : Nat) (hi : i < n) : (memGets m a n).getD i 0 = memGet m (a + i) := by
  induction n generalizing a i with
  | zero => omega
  | succ n ih =>
    cases i with
    | zero => rfl
    | succ i =>
      rw [memGets, List.getD_cons_succ, ih (a + 1) i (by omega)]
      congr 1
      omega

theorem runPoisoned_iff (s : State) (key n : Nat) :
    s.runPoisoned key n = true ↔ ∃ i, i < n ∧ s.poisoned (key + i) = true := by
  induction n generalizing key with
  | zero => simp [State.runPoisoned]
  | succ n ih =>
    rw [State.runPoisoned, Bool.or_eq_true, ih]
    constructor
    · rintro (h | ⟨i, hi, h⟩)
      · exact ⟨0, Nat.succ_pos n, h⟩
      · exact ⟨i + 1, by omega, by rwa [Nat.add_assoc, Nat.add_comm 1] at h⟩
    · rintro ⟨i, hi, h⟩
      cases i with
      | zero => exact .inl h
      | succ i => exact .inr ⟨i, by omega, by rwa [Nat.add_assoc, Nat.add_comm 1]⟩

theorem runPoisoned_congr {s t : State} (h : t.poison = s.poison) (key n : Nat) :
    t.runPoisoned key n = s.runPoisoned key n := by
  rw [Bool.eq_iff_iff, runPoisoned_iff, runPoisoned_iff]
  simp only [State.poisoned, h]

/-- A part of a run that reads unpoisoned reads so. -/
theorem runPoisoned_part {s : State} {key n : Nat} (h : s.runPoisoned key n = false) {o m : Nat} (hm : o + m ≤ n) :
    s.runPoisoned (key + o) m = false := by
  rw [← Bool.not_eq_true, runPoisoned_iff] at h ⊢
  rintro ⟨i, hi, hp⟩
  exact h ⟨o + i, by omega, by rwa [← Nat.add_assoc]⟩

end Sys2Proof.Machine
end

