-- ==== Sys2Proof/Proofs/RowMoves.lean ====
section
/-!
O24. MOV.ROW: its checks by the two ends of its rows, one row by the copy of its 256 bytes, and the bits struck in transit by
the count of each that was corrected.
-/

namespace Sys2Proof.Machine

/-! ### The checks -/

/-- Every bit of a MOV.ROW descriptor outside its fields is 0 (04 R163). -/
def RowClean (d : Desc) : Prop :=
  (∀ k, 2 ≤ k → k < 8 → dword d k = 0) ∧ fld (dword d 0) 13 3 = 0 ∧ fld (dword d 0) 32 32 = 0
    ∧ fld (dword d 1) 14 2 = 0 ∧ fld (dword d 1) 48 16 = 0

/-- A MOV.ROW descriptor keeps its form, and its rows lie in a slice and in the hawk (04 R163 R164). -/
def RowValid (d : Desc) : Prop :=
  RowClean d ∧ 1 ≤ (rowMove d).count ∧ (rowMove d).count ≤ 8192
    ∧ ∀ i, i < (rowMove d).count → 0 ≤ (rowMove d).row i ∧ (rowMove d).row i ≤ 49151
      ∧ 0 ≤ (rowMove d).pos i ∧ (rowMove d).pos i ≤ 8191

/-- Its rows lie among those in use of a slice in the list (04 R164). -/
def RowMapped (s : State) (lc : Nat) (d : Desc) : Prop :=
  s.slices.contains (s.siteOf lc) = true ∧ ∀ i, i < (rowMove d).count → (rowMove d).row i < s.rowsUsed

theorem rowClean_iff (d : Desc) : RowClean d ↔ restZero d 2 = true
    ∧ onlyBits (dword d 0) [(0, 13), (16, 16)] = true ∧ onlyBits (dword d 1) [(0, 14), (16, 32)] = true := by
  rw [RowClean, restZero_iff]
  refine and_congr Iff.rfl ?_
  simp only [fld_eq_zero_iff, onlyBits_iff, List.forall_mem_cons, List.not_mem_nil, false_implies, forall_const, and_true]
  constructor
  · rintro ⟨h1, h2, h3, h4⟩
    refine ⟨fun i hi ⟨ha, hb⟩ => ?_, fun i hi ⟨ha, hb⟩ => ?_⟩
    · by_cases h : i < 16
      · exact h1 i (by omega) (by omega)
      · exact h2 i (by omega) (by omega)
    · by_cases h : i < 16
      · exact h3 i (by omega) (by omega)
      · exact h4 i (by omega) (by omega)
  · rintro ⟨h0, h1⟩
    exact ⟨fun i ha hb => h0 i (by omega) (by omega), fun i ha hb => h0 i (by omega) (by omega),
      fun i ha hb => h1 i (by omega) (by omega), fun i ha hb => h1 i (by omega) (by omega)⟩

section
variable (m : RowMove)

theorem RowMove.row_between {hi : Int} (h0 : 0 ≤ m.row 0 ∧ m.row 0 < hi)
    (hn : 0 ≤ m.row (m.count - 1) ∧ m.row (m.count - 1) < hi) {i : Nat} (hlt : i < m.count) : 0 ≤ m.row i ∧ m.row i < hi :=
  linear_between (n := m.count - 1) (by simpa [RowMove.row] using h0) hn (by omega)

theorem RowMove.pos_between {hi : Int} (h0 : 0 ≤ m.pos 0 ∧ m.pos 0 < hi)
    (hn : 0 ≤ m.pos (m.count - 1) ∧ m.pos (m.count - 1) < hi) {i : Nat} (hlt : i < m.count) : 0 ≤ m.pos i ∧ m.pos i < hi :=
  linear_between (n := m.count - 1) (by simpa [RowMove.pos] using h0) hn (by omega)

end

theorem rowCheck_of_invalid {s : State} {lc : Nat} {d : Desc} (h : ¬ RowValid d) : s.rowCheck lc d = some stInvalid := by
  unfold State.rowCheck
  refine if_pos fun hform => h ?_
  simp only [Bool.and_eq_true, decide_eq_true_eq] at hform
  obtain ⟨hrest, hw0, hw1, -, h1, hmax, hr0, hrn, hp0, hpn⟩ := hform
  refine ⟨(rowClean_iff d).mpr ⟨hrest, hw0, hw1⟩, h1, hmax, fun i hi => ?_⟩
  have hr := (rowMove d).row_between hr0 hrn hi
  have hp := (rowMove d).pos_between hp0 hpn hi
  omega

theorem rowCheck_of_valid {s : State} {lc : Nat} {d : Desc} (h : RowValid d) : (RowMapped s lc d → s.rowCheck lc d = none)
    ∧ (¬ RowMapped s lc d → s.rowCheck lc d = some stUnmapped) := by
  obtain ⟨hclean, h1, hmax, hall⟩ := h
  obtain ⟨hrest, hw0, hw1⟩ := (rowClean_iff d).mp hclean
  have h0 := hall 0 (by omega)
  have hn := hall ((rowMove d).count - 1) (by omega)
  have hslice : (rowMove d).slice ≤ 49151 := by
    have hrow : (rowMove d).row 0 = (rowMove d).slice := by simp [RowMove.row]
    omega
  unfold State.rowCheck
  rw [if_neg (by
    simp only [Bool.and_eq_true, decide_eq_true_eq, not_not]
    exact ⟨hrest, hw0, hw1, hslice, h1, hmax, by omega, by omega, by omega, by omega⟩)]
  simp only [Bool.and_eq_true, decide_eq_true_eq]
  constructor
  · rintro ⟨hlist, hrows⟩
    exact if_neg (not_not_intro ⟨hlist, ⟨h0.1, hrows 0 (by omega)⟩, hn.1, hrows _ (by omega)⟩)
  · intro hnot
    refine if_pos fun ⟨hlist, hr0, hrn⟩ => hnot ⟨hlist, fun i hi => ?_⟩
    exact ((rowMove d).row_between hr0 hrn hi).2

/-- The front of a queue that ends leaves all else as it is. -/
theorem finish_workFrame {s : State} {lc : Nat} {u : UnitId} {e : UEntry} {rest : List UEntry}
    (h : (s.core lc).q u = e :: rest) (st : BitVec 8) (v : SumV) : WorkFrame lc u s (s.finish lc u 0 st v) := by
  have hfront := State.finish_front h st v
  refine ⟨?_, ?_, fun k hk => ?_, fun a _ _ => ?_⟩
  · rw [hfront]; rfl
  · rw [hfront, setCore_core, Core.setQ_q]
  · rw [State.finish_core_ne s hk]
  · rw [hfront]; rfl

theorem beginRow_front {s : State} {lc : Nat} {e : UEntry} (hb : e.begun = false)
    (hret : s.siteRetired (s.siteOf lc) = false) : s.beginRow lc 0 e = match s.rowCheck lc (e.ds.headD 0) with
      | some st => s.finish lc .mover 0 st (movSum 0 false)
      | none => s.setEntry lc .mover 0 { e with begun := true } := by
  unfold State.beginRow
  rw [if_neg (by simp [hb, Core.aheadDone]), hret]
  rfl

theorem exec_movRow {s : State} {lc : Nat} {dn : Bool} {f : UnitF} {e : UEntry} (h : AtFront s lc .mover e)
    (hop : e.op = .movRow dn f) :
    exec (if dn then .movRowDn lc (.perform []) else .movRowUp lc (.perform [])) s = .next (s.beginRow lc 0 e) := by
  have hwork : s.movRow lc dn (.perform []) = s.beginRow lc 0 e := by
    unfold State.movRow
    dsimp only
    rw [State.work_front h rfl (by simp only [hop, beq_self_eq_true])]
    rfl
  cases dn <;> exact congrArg Host.Outcome.next hwork

theorem movRow_begins {s : State} {lc : Nat} {dn : Bool} {f : UnitF} {e : UEntry} (h : AtFront s lc .mover e)
    (hop : e.op = .movRow dn f) (hret : s.siteRetired (s.siteOf lc) = false) :
    ∃ t, exec (if dn then .movRowDn lc (.perform []) else .movRowUp lc (.perform [])) s = .next t
      ∧ (RowValid (e.ds.headD 0) ∧ RowMapped s lc (e.ds.headD 0) → t = s.setEntry lc .mover 0 { e with begun := true })
      ∧ (¬ RowValid (e.ds.headD 0) →
          EndsWith s t lc .mover 0x44 {} ∧ WorkFrame lc .mover s t ∧ t.mem = s.mem ∧ t.poison = s.poison)
      ∧ (RowValid (e.ds.headD 0) ∧ ¬ RowMapped s lc (e.ds.headD 0) →
          EndsWith s t lc .mover 0x40 {} ∧ WorkFrame lc .mover s t ∧ t.mem = s.mem ∧ t.poison = s.poison) := by
  obtain ⟨-, -, rest, hq, -, hbegun, -⟩ := id h
  have ends : ∀ st, EndsWith s (s.finish lc .mover 0 st (movSum 0 false)) lc .mover st {}
      ∧ WorkFrame lc .mover s (s.finish lc .mover 0 st (movSum 0 false))
      ∧ (s.finish lc .mover 0 st (movSum 0 false)).mem = s.mem
      ∧ (s.finish lc .mover 0 st (movSum 0 false)).poison = s.poison := fun st =>
    ⟨State.finish_ends hq st _, finish_workFrame hq st _, by rw [State.finish_frame], by rw [State.finish_frame]⟩
  refine ⟨_, exec_movRow h hop, ?_, ?_, ?_⟩ <;> rw [beginRow_front hbegun hret]
  · rintro ⟨hv, hm⟩
    rw [(rowCheck_of_valid hv).1 hm]
  · intro hv
    rw [rowCheck_of_invalid hv]
    exact ends stInvalid
  · rintro ⟨hv, hm⟩
    rw [(rowCheck_of_valid hv).2 hm]
    exact ends stUnmapped

/-! ### A row that is committed -/

/-- The direction of a channel that a MOV.ROW uses. -/
def rowDir (dn : Bool) : VcDir := if dn then .down else .up

/-- A channel notes the row that it sends. -/
def State.sentRow (s : State) (site : Nat) (d : VcDir) (row : Nat) : State :=
  if (s.vc site d).replay.getLast? = some row then s else s.setVc site d ((s.vc site d).sent row)

theorem sentRow_rest (s : State) (site : Nat) (d : VcDir) (row : Nat) : ∃ v, s.sentRow site d row = { s with vcs := v } := by
  unfold State.sentRow
  split
  · exact ⟨s.vcs, rfl⟩
  · exact ⟨_, rfl⟩

section
variable {s : State} {lc site : Nat} {dn : Bool} {f : UnitF} {e : UEntry} {rest : List UEntry}
  (hlc : s.lcAt site = some lc) (hq : (s.core lc).movQ = e :: rest) (hs : e.started = true) (hb : e.begun = true)
  (hf : e.fin = none) (hop : e.op = .movRow dn f)
include hlc hq hs hb hf hop

/-- The row of the oldest MOV.ROW of a site's core is committed once it has crossed. -/
theorem exec_vcRowCommit {t : State} {struck : List MemErr} (errs : List MemErr)
    (hcross : s.cross site (rowDir dn) struck = some t) :
    exec (.vcRowCommit site (rowDir dn) struck errs) s
      = .next (((t.sentRow site (rowDir dn) e.prog).meet errs).commitRow lc 0 e dn) := by
  have hdir : ∀ b : Bool, (rowDir b == .down) = b := fun b => by cases b <;> rfl
  have hfind : findEntry (fun e => e.started && e.fin.isNone) (e :: rest) = some (0, e) :=
    findEntry_head (by simp [hs, hf])
  change execVcRowCommit site (rowDir dn) struck errs s = _
  unfold execVcRowCommit
  simp only [hlc, hq, hfind, hop, hdir, hb, hcross, beq_self_eq_true, Bool.and_self, if_true]
  rfl

end

theorem siteOf_lcAt {s : State} {site lc : Nat} (h : s.lcAt site = some lc) : s.siteOf lc = site := by
  have hp := List.find?_some h
  simp only [Bool.and_eq_true, decide_eq_true_eq] at hp
  exact hp.2

/-- A row without poison arrives without poison. -/
theorem copyRow_clean {s : State} {src : Nat} (dst : Nat) (h : s.runPoisoned src 256 = false) :
    s.copyRow src dst = (s.writeRun dst (memGets s.mem src 256), false) := by
  have hp : ((List.range 4).map fun g => s.runPoisoned (src + 64 * g) 64) = [false, false, false, false] := by
    have part : ∀ g, g < 4 → s.runPoisoned (src + 64 * g) 64 = false := fun g hg => runPoisoned_part h (by omega)
    simp only [show List.range 4 = [0, 1, 2, 3] from rfl, List.map_cons, List.map_nil, part 0 (by decide),
      part 1 (by decide), part 2 (by decide), part 3 (by decide)]
  unfold State.copyRow
  rw [hp]
  rfl

/-- What has moved once the next row of a MOV.ROW is committed, apart from its entry: 256 bytes, and counters. -/
def State.rowMoved (s : State) (lc : Nat) (e : UEntry) (dn : Bool) : State :=
  let m := rowMove (e.ds.headD 0)
  let r := hodKey (s.siteOf lc) (m.row e.prog).toNat 0
  let h := hawkKey (s.siteOf lc) ((m.pos e.prog).toNat * 256)
  let t := s.lathEvent (s.siteOf lc) (if dn then 2 else 1) 1
  (t.writeRun (if dn then r else h) (memGets t.mem (if dn then h else r) 256)).event lc 0x28 4

section
variable {s : State} {lc : Nat} {e : UEntry} {dn : Bool}

theorem rowMoved_monitors : MonitorsOnly s (s.rowMoved lc e dn) :=
  ((MonitorsOnly.of_cores (lathEvent_cores ..)).trans (writeRun_monitors ..)).trans (.of_cores (event_cores ..))

theorem rowMoved_mem (k : Nat) :
    let r := hodKey (s.siteOf lc) ((rowMove (e.ds.headD 0)).row e.prog).toNat 0
    let h := hawkKey (s.siteOf lc) (((rowMove (e.ds.headD 0)).pos e.prog).toNat * 256)
    let src := if dn then h else r
    let dst := if dn then r else h
    memGet (s.rowMoved lc e dn).mem k = if dst ≤ k ∧ k < dst + 256 then memGet s.mem (src + (k - dst)) else memGet s.mem k := by
  intro r h src dst
  simp only [State.rowMoved, event_mem]
  rw [writeRun_get, memGets_length, lathEvent_mem]
  change (if dst ≤ k ∧ k < dst + 256 then _ else _) = _
  split
  next hk => exact memGets_getD _ _ _ _ (show k - dst < 256 by omega)
  next => rfl

theorem rowMoved_regs {a : Nat} (hc : ¬ CountAddr lc a) (hl : ¬ LathCountAddr a) :
    mapGet? (s.rowMoved lc e dn).regs a = mapGet? s.regs a := by
  refine ((event_frame lc _ 0x28 4).regs a hc).trans ?_
  rw [writeRun_regs]
  exact lathEvent_lathFrame _ ((siteOf_lt s lc).trans (by decide)) _ _ a hl

/-- The commit of a row without poison: the bytes move, and the entry counts its row or ends. -/
theorem commitRow_clean {rest : List UEntry} (hq : (s.core lc).movQ = e :: rest) (hpoi : e.poi = false)
    (h : s.runPoisoned (if dn then hawkKey (s.siteOf lc) (((rowMove (e.ds.headD 0)).pos e.prog).toNat * 256)
      else hodKey (s.siteOf lc) ((rowMove (e.ds.headD 0)).row e.prog).toNat 0) 256 = false) :
    let t := s.rowMoved lc e dn
    let e' := { e with prog := e.prog + 1 }
    s.commitRow lc 0 e dn = t.setCore lc ((t.core lc).setQ .mover ((if (rowMove (e.ds.headD 0)).count ≤ e.prog + 1
      then e'.ended stOk (movSum (256 * (rowMove (e.ds.headD 0)).count) false) else e') :: rest)) := by
  intro t e'
  have hq' : (t.core lc).q .mover = e :: rest := by
    rw [show (t.core lc).q .mover = (s.core lc).movQ by rw [rowMoved_monitors.rest lc]; rfl, hq]
  have hp : (s.lathEvent (s.siteOf lc) (if dn then 2 else 1) 1).runPoisoned
      (if dn then hawkKey (s.siteOf lc) (((rowMove (e.ds.headD 0)).pos e.prog).toNat * 256)
        else hodKey (s.siteOf lc) ((rowMove (e.ds.headD 0)).row e.prog).toNat 0) 256 = false := by
    rw [runPoisoned_congr (s := s) (by rw [lathEvent_regs])]
    exact h
  have hcopy := copyRow_clean (if dn then hodKey (s.siteOf lc) ((rowMove (e.ds.headD 0)).row e.prog).toNat 0
    else hawkKey (s.siteOf lc) (((rowMove (e.ds.headD 0)).pos e.prog).toNat * 256)) hp
  have hentry : t.setEntry lc .mover 0 e' = t.setCore lc ((t.core lc).setQ .mover (e' :: rest)) := by
    rw [State.setEntry, hq']
    rfl
  have hcommit : s.commitRow lc 0 e dn = if (rowMove (e.ds.headD 0)).count ≤ e.prog + 1
      then (t.setEntry lc .mover 0 e').finish lc .mover 0 stOk (movSum (256 * (rowMove (e.ds.headD 0)).count) false)
      else t.setEntry lc .mover 0 e' := by
    have hpoi' : (e.poi || false) = false := by rw [hpoi]; rfl
    have he' : e' = { e with prog := e.prog + 1, poi := false } := by simp only [e', hpoi]
    rw [he']
    unfold State.commitRow
    cases dn
    · simp only [Bool.false_eq_true, if_false] at hcopy ⊢
      rw [hcopy]
      simp only [hpoi', Bool.false_eq_true, if_false]
      rfl
    · simp only [if_true] at hcopy ⊢
      rw [hcopy]
      simp only [hpoi', Bool.false_eq_true, if_false]
      rfl
  rw [hcommit, hentry]
  split
  · rw [State.finish_front (rest := rest) (e := e') (by rw [setCore_core, Core.setQ_q]), State.setCore_setCore, setCore_core,
      Core.setQ_setQ]
  · rfl

end

/-- A row crosses a free channel, and its bytes are committed (04 R164 R165). -/
theorem vcRowCommit_moves {s : State} {lc site : Nat} {dn : Bool} {f : UnitF} {e : UEntry} {rest : List UEntry}
    (hlc : s.lcAt site = some lc) (hq : (s.core lc).movQ = e :: rest) (hs : e.started = true) (hb : e.begun = true)
    (hf : e.fin = none) (hpoi : e.poi = false) (hop : e.op = .movRow dn f) (hfree : ChannelFree s site (rowDir dn))
    (hclean : s.runPoisoned (if dn then hawkKey site (((rowMove (e.ds.headD 0)).pos e.prog).toNat * 256)
      else hodKey site ((rowMove (e.ds.headD 0)).row e.prog).toNat 0) 256 = false) :
    ∃ v, let u := { s with vcs := v }.rowMoved lc e dn
      let e' := { e with prog := e.prog + 1 }
      exec (.vcRowCommit site (rowDir dn) [] []) s = .next (u.setCore lc ((u.core lc).setQ .mover
        ((if (rowMove (e.ds.headD 0)).count ≤ e.prog + 1
          then e'.ended stOk (movSum (256 * (rowMove (e.ds.headD 0)).count) false) else e') :: rest))) := by
  obtain ⟨t, hcross, v, rfl⟩ := cross_of_free hfree
  obtain ⟨w, hw⟩ := sentRow_rest { s with vcs := v } site (rowDir dn) e.prog
  have hsite : s.siteOf lc = site := siteOf_lcAt hlc
  refine ⟨w, ?_⟩
  rw [exec_vcRowCommit hlc hq hs hb hf hop [] hcross, hw]
  refine congrArg Host.Outcome.next (commitRow_clean (s := { s with vcs := w }) hq hpoi ?_)
  rw [show ({ s with vcs := w } : State).siteOf lc = site from hsite,
    runPoisoned_congr (s := s) (t := { s with vcs := w }) rfl]
  exact hclean

/-! ### Bits struck in transit -/

/-- A corrected bit is counted once (03 R130). -/
theorem correctFlip_count (s : State) (site : Nat) (d : VcDir) (f : Flip) :
    (s.correctFlip site d f).rf (.vcCounts site d) 0 32 = min (s.rf (.vcCounts site d) 0 32 + 1) (2 ^ 32 - 1) := by
  unfold State.correctFlip
  extract_lets k v s1 s2
  have h2 : s2.rf (.vcCounts site d) 0 32 = min (s.rf (.vcCounts site d) 0 32 + 1) (2 ^ 32 - 1) :=
    ((logFirst_records _ _ _ _ _).rf (vcCounts_high site d) 0 32).trans (s1.rf_incRf_self (.vcCounts site d) 0 32 1 (by decide))
  split
  · exact (State.rf_setSite ..).trans h2
  · exact h2

theorem correctFlips_count (site : Nat) (d : VcDir) (fs : List (Nat × Flip)) (s : State) :
    (fs.foldl (fun s f => s.correctFlip site d f.2) s).rf (.vcCounts site d) 0 32
      = min (s.rf (.vcCounts site d) 0 32 + fs.length) (2 ^ 32 - 1) := by
  induction fs generalizing s with
  | nil =>
    have hlt : s.rf (.vcCounts site d) 0 32 < 2 ^ 32 := fld_lt ..
    exact (Nat.min_eq_left (Nat.le_sub_one_of_lt hlt)).symm
  | cons f fs ih =>
    rw [List.foldl_cons, ih, correctFlip_count, List.length_cons]
    omega

/-- A row whose bits are struck at most one in a word crosses, each corrected bit being counted. -/
theorem cross_counts {s : State} {site : Nat} {d : VcDir} {struck : List MemErr} (hfree : ChannelFree s site d)
    (hfew : tooMany (flipsOf site struck) = false) : ∃ t, s.cross site d struck = some t
      ∧ t.rf (.vcCounts site d) 0 32 = min (s.rf (.vcCounts site d) 0 32 + (flipsOf site struck).length) (2 ^ 32 - 1) := by
  obtain ⟨hret, hwin, hclk, hwidth⟩ := hfree
  unfold State.cross
  dsimp only
  rw [hret, hwin, hclk, hwidth, hfew]
  refine ⟨_, if_neg (by decide), ?_⟩
  rw [correctFlips_count]
  split
  · rfl
  · rw [State.rf_setVc]

theorem commitRow_keepsCounts (s : State) {lc : Nat} (hlc : lc < 144) (i : Nat) (e : UEntry) (dn : Bool) :
    KeepsCounts s (s.commitRow lc i e dn) := by
  have hcopy : ∀ (u : State) src dst, KeepsCounts u (u.copyRow src dst).1 := by
    intro u src dst
    refine ⟨fun site d => ?_⟩
    refine (foldl_regs_eq _ _ _ fun g _ w => ?_).trans (congrArg (mapGet? · _) (writeRun_regs ..))
    split <;> rfl
  have hentry : ∀ (u : State) i e, KeepsCounts u (u.setEntry lc .mover i e) := fun _ _ _ => .of_regs rfl
  have hfinish : ∀ (u : State) i st v, KeepsCounts u (u.finish lc .mover i st v) := fun u i st v =>
    .of_regs (by rw [State.finish_frame])
  have hbegin : KeepsCounts s (s.lathEvent (s.siteOf lc) (if dn then 2 else 1) 1) := lathEvent_keepsCounts ..
  have hevent : ∀ u : State, KeepsCounts u (u.event lc 0x28 4) := fun u => (event_frame lc u 0x28 4).keepsCounts hlc
  unfold State.commitRow
  cases dn
  · exact .ite ((((hbegin.trans (hcopy ..)).trans (hevent _)).trans (hentry ..)).trans (hfinish ..))
      (((hbegin.trans (hcopy ..)).trans (hevent _)).trans (hentry ..))
  · exact .ite ((((hbegin.trans (hcopy ..)).trans (hevent _)).trans (hentry ..)).trans (hfinish ..))
      (((hbegin.trans (hcopy ..)).trans (hevent _)).trans (hentry ..))

/-- Settles O24. -/
theorem rowMoves : Obligations.RowMoves := by
  unfold Obligations.RowMoves
  refine ⟨?_, ?_, ?_⟩
  · intro s lc dn f e h hop hret
    exact movRow_begins h hop hret
  · intro s lc site dn f e rest _ hlc hq hs hb hf hpoi hop hfree d count row pos _ _ src dst hclean
    obtain ⟨v, hexec⟩ := vcRowCommit_moves hlc hq hs hb hf hpoi hop hfree hclean
    have hsite : ({ s with vcs := v } : State).siteOf lc = site := siteOf_lcAt hlc
    extract_lets u e' at hexec
    have hmon : MonitorsOnly s u := 
      (MonitorsOnly.of_cores (s := s) (t := { s with vcs := v }) rfl).trans (rowMoved_monitors (lc := lc) (e := e) (dn := dn))
    refine ⟨_, hexec, fun k => ?_, fun k hk => ?_, ?_, fun a hc hl _ => ?_, fun hlt => ?_, fun hle => ?_⟩
    · have hmem := rowMoved_mem (s := { s with vcs := v }) (lc := lc) (e := e) (dn := dn) k
      rw [hsite] at hmem
      exact hmem
    · rw [State.core_setCore_ne _ _ hk]
      exact hmon.rest k
    · rw [setCore_core, hmon.rest lc]
      rfl
    · exact rowMoved_regs (s := { s with vcs := v }) hc hl
    · rw [setCore_core, if_neg (show ¬ (rowMove d).count ≤ e.prog + 1 from Nat.not_le_of_lt hlt)]
      rfl
    · refine ⟨e, rest, e'.ended stOk (movSum (256 * count) false), hq, ?_, rfl, rfl, rfl, rfl⟩
      rw [setCore_core, if_pos (show (rowMove d).count ≤ e.prog + 1 from hle)]
      rfl
  · intro s lc site dn f e rest struck errs hlc hq hs hb hf hop hfree dir fs
    refine ⟨fun hmany => ?_, fun hfew => ?_⟩
    · exact vcRowCommit_of_cross_none (State.cross_none.mpr (.inr (.inr (.inr (.inr hmany)))))
    · obtain ⟨t, hcross, hcount⟩ := cross_counts hfree hfew
      obtain ⟨w, hw⟩ := sentRow_rest t site (rowDir dn) e.prog
      refine ⟨_, exec_vcRowCommit hlc hq hs hb hf hop errs hcross, ?_⟩
      have hkeeps := (meet_keepsCounts (t.sentRow site (rowDir dn) e.prog) errs).trans
        (commitRow_keepsCounts _ (lcAt_lt hlc) 0 e dn)
      refine (rf_congr (hkeeps.counts site dir) 0 32).trans ?_
      rw [hw]
      exact hcount

end Sys2Proof.Machine
end

