-- ==== Sys2Proof/Proofs/RollerCommands.lean ====
section
/-!
O37. RLR instructions at the front of the Scrim port: the checks of R400 in their order, the ranges of RLR.MV by the extremes of
its walk (11 R382), and the payload that an RLR.VLD carries.
-/

namespace Sys2Proof.Machine

/-! ### The extremes of a walk (11 R382) -/

/-- A range holds every value of a kind, and its two ends are such values. -/
structure Spans (P : Int → Prop) (r : Int × Int) : Prop where
  low : P r.1
  high : P r.2
  within : ∀ x, P x → r.1 ≤ x ∧ x ≤ r.2

theorem Spans.single (n : Int) : Spans (· = n) (n, n) := ⟨rfl, rfl, fun _ h => by subst h; exact ⟨le_refl _, le_refl _⟩⟩

theorem Spans.congr {P Q : Int → Prop} {r : Int × Int} (h : Spans P r) (e : ∀ x, P x ↔ Q x) : Spans Q r :=
  ⟨(e _).mp h.low, (e _).mp h.high, fun x hx => h.within x ((e x).mpr hx)⟩

theorem Spans.below_iff {P : Int → Prop} {r : Int × Int} (h : Spans P r) (n : Int) :
    (∀ x, P x → 0 ≤ x ∧ x < n) ↔ 0 ≤ r.1 ∧ r.2 < n := by
  constructor
  · intro hall
    exact ⟨(hall _ h.low).1, (hall _ h.high).2⟩
  · rintro ⟨h0, hn⟩ x hx
    have := h.within x hx
    omega

/-- A multiple of a step whose factor lies between two others lies between their multiples. -/
theorem mul_between {lo i hi : Nat} (hlo : lo ≤ i) (hhi : i ≤ hi) (t : Int) :
    min ((lo : Int) * t) (hi * t) ≤ i * t ∧ (i : Int) * t ≤ max ((lo : Int) * t) (hi * t) := by
  have hlo' : (lo : Int) ≤ i := Int.ofNat_le.mpr hlo
  have hhi' : (i : Int) ≤ hi := Int.ofNat_le.mpr hhi
  by_cases ht : 0 ≤ t
  · exact ⟨min_le_of_left_le (mul_le_mul_of_nonneg_right hlo' ht), le_max_of_le_right (mul_le_mul_of_nonneg_right hhi' ht)⟩
  · have ht' : t ≤ 0 := by omega
    exact ⟨min_le_of_right_le (mul_le_mul_of_nonpos_right hhi' ht'), le_max_of_le_left (mul_le_mul_of_nonpos_right hlo' ht')⟩

theorem Spans.widen {P : Int → Prop} {I : Nat → Prop} {r : Int × Int} (h : Spans P r) {lo hi : Nat} (hlo : I lo) (hhi : I hi)
    (hI : ∀ i, I i → lo ≤ i ∧ i ≤ hi) (t : Int) :
    Spans (fun y => ∃ x i, P x ∧ I i ∧ y = x + (i : Int) * t) (widen r lo hi t) := by
  have hmin : ∃ i, I i ∧ (i : Int) * t = min ((lo : Int) * t) (hi * t) := by
    rcases min_choice ((lo : Int) * t) (hi * t) with e | e
    · exact ⟨lo, hlo, e.symm⟩
    · exact ⟨hi, hhi, e.symm⟩
  have hmax : ∃ i, I i ∧ (i : Int) * t = max ((lo : Int) * t) (hi * t) := by
    rcases max_choice ((lo : Int) * t) (hi * t) with e | e
    · exact ⟨lo, hlo, e.symm⟩
    · exact ⟨hi, hhi, e.symm⟩
  obtain ⟨i, hi1, hi2⟩ := hmin
  obtain ⟨j, hj1, hj2⟩ := hmax
  refine ⟨⟨r.1, i, h.low, hi1, by rw [hi2]; rfl⟩, ⟨r.2, j, h.high, hj1, by rw [hj2]; rfl⟩, ?_⟩
  rintro _ ⟨x, n, hx, hn, rfl⟩
  have h1 := h.within x hx
  have h2 := mul_between (hI n hn).1 (hI n hn).2 t
  exact ⟨add_le_add h1.1 h2.1, add_le_add h1.2 h2.2⟩

/-- The steps of a count of 1 or more. -/
theorem Spans.count {P : Int → Prop} {r : Int × Int} (h : Spans P r) {n : Nat} (hn : 0 < n) (t : Int) :
    Spans (fun y => ∃ x i, P x ∧ i < n ∧ y = x + (i : Int) * t) (Machine.widen r 0 (n - 1) t) :=
  h.widen (I := fun i => i < n) hn (by omega) (fun i hi => ⟨Nat.zero_le i, by omega⟩) t

/-- The first and the last of a rising list bound it. -/
theorem rising_ends {l : List Nat} (hne : l ≠ []) (h : l.Pairwise (· < ·)) :
    l.headD 0 ∈ l ∧ l.getLastD 0 ∈ l ∧ ∀ q ∈ l, l.headD 0 ≤ q ∧ q ≤ l.getLastD 0 := by
  obtain ⟨a, l, rfl⟩ := List.exists_cons_of_ne_nil hne
  have hlast : (a :: l).getLastD 0 = (a :: l).getLast hne := by simp [List.getLastD_eq_getLast?, List.getLast?_eq_some_getLast hne]
  refine ⟨List.mem_cons_self, hlast ▸ List.getLast_mem hne, fun q hq => ⟨?_, ?_⟩⟩
  · rcases List.mem_cons.mp hq with rfl | hq
    · exact le_refl _
    · exact (List.rel_of_pairwise_cons h hq).le
  · rw [hlast]
    exact (h.imp le_of_lt).rel_getLast hq

theorem bitsOf_rising (n v : Nat) : (bitsOf n v).Pairwise (· < ·) := List.pairwise_lt_range.filter _

theorem bitsOf_ne_nil {n v : Nat} (hlt : v < 2 ^ n) (h : v ≠ 0) : bitsOf n v ≠ [] := by
  intro hnil
  refine h (Nat.eq_of_testBit_eq fun i => ?_)
  rw [Nat.zero_testBit]
  by_cases hi : i < n
  · have hout : i ∉ bitsOf n v := by rw [hnil]; exact List.not_mem_nil
    rw [Nat.testBit_eq_decide_div_mod_eq]
    simpa [bitsOf, hi] using hout
  · exact Nat.testBit_lt_two_pow (Nat.lt_of_lt_of_le hlt (Nat.pow_le_pow_right Nat.two_pos (by omega)))

section
variable {m : RMv} {qs : List Nat}

theorem rowAt_spans (hb : 0 < m.nblk) (hr : 0 < m.rows) : ∃ r : Int × Int, (m.extremes qs).1 = (r.1, r.2 + m.rowBytes - 1)
    ∧ Spans (fun y => ∃ j i, j < m.nblk ∧ i < m.rows ∧ y = m.rowAt j i) r := by
  refine ⟨_, rfl, (((Spans.single (m.off : Int)).count hb m.bstr).count hr m.rstr).congr fun y => ?_⟩
  constructor
  · rintro ⟨_, i, ⟨_, j, rfl, hj, rfl⟩, hi, rfl⟩
    exact ⟨j, i, hj, hi, rfl⟩
  · rintro ⟨j, i, hj, hi, rfl⟩
    exact ⟨_, i, ⟨_, j, rfl, hj, rfl⟩, hi, rfl⟩

/-- Values of a walk, by position, block, row and element. -/
def RMv.Walks (m : RMv) (qs : List Nat) (f : Nat → Nat → Nat → Nat → Int) (y : Int) : Prop :=
  ∃ q j i k, q ∈ qs ∧ j < m.nblk ∧ i < m.rows ∧ k < m.len ∧ y = f q j i k

/-- The extremes of a value that steps with the position, the block, and either the row or the element. -/
theorem walk_spans (hq : qs ≠ []) (hrise : qs.Pairwise (· < ·)) (hb : 0 < m.nblk) (hr : 0 < m.rows) (hl : 0 < m.len)
    (base : Nat) (tq tj ti tk : Int) (byRow : Bool) :
    let x := widen (widen ((base : Int), (base : Int)) (qs.headD 0) (qs.getLastD 0) tq) 0 (m.nblk - 1) tj
    Spans (m.Walks qs fun q j i k => (base : Int) + q * tq + j * tj + if byRow then (i : Int) * ti else k * tk)
      (if byRow then widen x 0 (m.rows - 1) ti else widen x 0 (m.len - 1) tk) := by
  intro x
  obtain ⟨hhead, hlast, hends⟩ := rising_ends hq hrise
  have hx := ((Spans.single (base : Int)).widen (I := (· ∈ qs)) hhead hlast hends tq).count hb tj
  cases byRow with
  | true =>
    refine (hx.count hr ti).congr fun y => ⟨?_, ?_⟩
    · rintro ⟨_, i, ⟨_, j, ⟨_, q, rfl, hq, rfl⟩, hj, rfl⟩, hi, rfl⟩
      exact ⟨q, j, i, 0, hq, hj, hi, hl, rfl⟩
    · rintro ⟨q, j, i, k, hq, hj, hi, hk, rfl⟩
      exact ⟨_, i, ⟨_, j, ⟨_, q, rfl, hq, rfl⟩, hj, rfl⟩, hi, rfl⟩
  | false =>
    refine (hx.count hl tk).congr fun y => ⟨?_, ?_⟩
    · rintro ⟨_, k, ⟨_, j, ⟨_, q, rfl, hq, rfl⟩, hj, rfl⟩, hk, rfl⟩
      exact ⟨q, j, 0, k, hq, hj, hr, hk, rfl⟩
    · rintro ⟨q, j, i, k, hq, hj, hi, hk, rfl⟩
      exact ⟨_, k, ⟨_, j, ⟨_, q, rfl, hq, rfl⟩, hj, rfl⟩, hk, rfl⟩

theorem vecAt_spans (hq : qs ≠ []) (hrise : qs.Pairwise (· < ·)) (hb : 0 < m.nblk) (hr : 0 < m.rows) (hl : 0 < m.len) :
    Spans (m.Walks qs m.vecAt) (m.extremes qs).2.1 := by
  refine (walk_spans hq hrise hb hr hl m.voff m.vbank m.vj m.vi 1 m.axpy).congr fun y => ?_
  simp only [RMv.Walks, RMv.vecAt, mul_one]

theorem accAt_spans (hq : qs ≠ []) (hrise : qs.Pairwise (· < ·)) (hb : 0 < m.nblk) (hr : 0 < m.rows) (hl : 0 < m.len) :
    Spans (m.Walks qs m.accAt) (m.extremes qs).2.2 := by
  have h := walk_spans hq hrise hb hr hl m.acc m.abank m.aj m.ai 1 (!m.axpy)
  unfold RMv.extremes RMv.accAt
  cases hax : m.axpy <;> rw [hax] at h <;> simpa [hax] using h

end

/-! ### The checks (11 R400) -/

theorem RMv.rowBytes_pos {m : RMv} (hl : 0 < m.len) : 0 < m.rowBytes := by
  have hbits : 4 ≤ m.wfmt.bits := by cases m.wfmt <;> decide
  have hmul : 1 * 4 ≤ m.len * m.wfmt.bits := Nat.mul_le_mul hl hbits
  unfold RMv.rowBytes
  omega

/-- The bytes of every row of a walk lie in its bank. -/
def RMv.RowsIn (m : RMv) : Prop :=
  ∀ j i b, j < m.nblk → i < m.rows → b < m.rowBytes → 0 ≤ m.rowAt j i + b ∧ m.rowAt j i + b < 2 ^ 26

/-- Every vector element and accumulator of a walk lies in its buffer. -/
def RMv.BufIn (m : RMv) (qs : List Nat) : Prop :=
  ∀ q j i k, q ∈ qs → j < m.nblk → i < m.rows → k < m.len →
    (0 ≤ m.vecAt q j i k ∧ m.vecAt q j i k * (m.vfmt.bits / 8) < 65536)
      ∧ 0 ≤ m.accAt q j i k ∧ m.accAt q j i k < 4096

theorem rowsIn_iff {m : RMv} {qs : List Nat} (hb : 0 < m.nblk) (hr : 0 < m.rows) (hl : 0 < m.len) :
    m.RowsIn ↔ 0 ≤ (m.extremes qs).1.1 ∧ (m.extremes qs).1.2 < 2 ^ 26 := by
  obtain ⟨r, hext, hspan⟩ := rowAt_spans (qs := qs) hb hr
  have hpos := RMv.rowBytes_pos hl
  have hall := hspan.below_iff (2 ^ 26 - m.rowBytes + 1)
  rw [hext]
  constructor
  · intro hin
    have := hall.mp (by
      rintro _ ⟨j, i, hj, hi, rfl⟩
      have h0 := hin j i 0 hj hi hpos
      have h1 := hin j i (m.rowBytes - 1) hj hi (by omega)
      omega)
    exact ⟨this.1, by dsimp only; omega⟩
  · rintro ⟨h0, h1⟩ j i b hj hi hbt
    have := hall.mpr ⟨h0, by dsimp only at h1; omega⟩ _ ⟨j, i, hj, hi, rfl⟩
    omega

theorem mul_lt_of_dvd {n : Nat} (h : n ∣ 65536) (hpos : 0 < n) (x : Int) : x * (n : Int) < 65536 ↔ x < (65536 / n : Nat) := by
  obtain ⟨c, hc⟩ := h
  rw [hc, Nat.mul_div_cancel_left c hpos]
  have h65536 : (65536 : Int) = c * n := by
    rw [Nat.mul_comm] at hc
    exact_mod_cast hc
  rw [h65536]
  exact Int.mul_lt_mul_right (by omega)

theorem bufIn_iff {m : RMv} {qs : List Nat} (hq : qs ≠ []) (hrise : qs.Pairwise (· < ·)) (hb : 0 < m.nblk) (hr : 0 < m.rows)
    (hl : 0 < m.len) (hdvd : m.vfmt.bits / 8 ∣ 65536) (hpos : 0 < m.vfmt.bits / 8) :
    m.BufIn qs ↔ (0 ≤ (m.extremes qs).2.1.1 ∧ (m.extremes qs).2.1.2 < (65536 / (m.vfmt.bits / 8) : Nat))
      ∧ 0 ≤ (m.extremes qs).2.2.1 ∧ (m.extremes qs).2.2.2 < 4096 := by
  have hbytes : (m.vfmt.bits : Int) / 8 = (m.vfmt.bits / 8 : Nat) := (Int.natCast_div ..).symm
  rw [← (vecAt_spans hq hrise hb hr hl).below_iff, ← (accAt_spans hq hrise hb hr hl).below_iff, RMv.BufIn, hbytes]
  constructor
  · intro h
    refine ⟨?_, ?_⟩
    · rintro _ ⟨q, j, i, k, hq, hj, hi, hk, rfl⟩
      exact ⟨(h q j i k hq hj hi hk).1.1, (mul_lt_of_dvd hdvd hpos _).mp (h q j i k hq hj hi hk).1.2⟩
    · rintro _ ⟨q, j, i, k, hq, hj, hi, hk, rfl⟩
      exact (h q j i k hq hj hi hk).2
  · rintro ⟨hv, ha⟩ q j i k hq hj hi hk
    have h1 := hv _ ⟨q, j, i, k, hq, hj, hi, hk, rfl⟩
    exact ⟨⟨h1.1, (mul_lt_of_dvd hdvd hpos _).mpr h1.2⟩, ha _ ⟨q, j, i, k, hq, hj, hi, hk, rfl⟩⟩

/-- A vector format that RLR_FORMAT lets pass is of whole bytes, which divide the buffer. -/
theorem vfmt_bytes {m : RMv} (h : ([0, 1, 2, 3, 4, 8] : List Nat).contains m.vf = true) :
    m.vfmt.bits / 8 ∣ 65536 ∧ 0 < m.vfmt.bits / 8 := by
  simp only [List.contains_eq_mem, decide_eq_true_eq, List.mem_cons, List.not_mem_nil, or_false] at h
  unfold RMv.vfmt
  rcases h with h | h | h | h | h | h <;> rw [h] <;> decide

/-- What DESC_INVALID leaves of an RLR.MV: banks, rows, blocks and elements. -/
theorem rlrMv_counts {f : UnitF} {d : Desc} (h : rlrInvalid (.rlrMv f) d = false) :
    (rselOf d).banks ≠ 0 ∧ 0 < (rmvOf d).nblk ∧ 0 < (rmvOf d).rows ∧ 0 < (rmvOf d).len := by
  simp only [rlrInvalid, Bool.or_eq_false_iff, beq_eq_false_iff_ne] at h
  omega

theorem rlrInvalid_of_no_roller (op : UOp) {d : Desc} (h : (rselOf d).rollers = []) : rlrInvalid op d = true := by
  unfold rlrInvalid
  dsimp only
  rw [h, List.isEmpty_nil, Bool.or_true, Bool.true_or]

theorem rlrCheck_eq (s : State) (op : UOp) (d : Desc) : s.rlrCheck op d =
    if rlrInvalid op d then some 0x44
    else if rlrMisaligned op d then some 0x45
    else if ¬ s.rf .rlrState 0 1 = 1 then some 0x70
    else if ∃ x ∈ (rselOf d).rollers, s.rf (.rlrRetired (x / 64)) (x % 64) 1 = 1 then some 0x74
    else if rlrFormat op d then some 0x71
    else if rlrBank op d then some 0x72
    else if rlrBuf op d then some 0x73
    else none := by
  have harmed : s.rf .rlrState 0 1 = 0 ↔ ¬ s.rf .rlrState 0 1 = 1 := by
    have : s.rf .rlrState 0 1 < 2 := fld_lt ..
    omega
  unfold State.rlrCheck
  simp only [harmed, List.any_eq_true, decide_eq_true_eq]
  rfl

theorem rlrBuf_of_check {s : State} {op : UOp} {d : Desc} (h : s.rlrCheck op d = none) : rlrBuf op d = false := by
  rw [rlrCheck_eq] at h
  split_ifs at h with _ _ _ _ _ _ hb
  exact Bool.eq_false_iff.mpr hb

theorem rlrBank_mv {f : UnitF} {d : Desc} (h : rlrInvalid (.rlrMv f) d = false) :
    rlrBank (.rlrMv f) d = false ↔ (rmvOf d).RowsIn := by
  obtain ⟨-, hb, hr, hl⟩ := rlrMv_counts h
  rw [rowsIn_iff (qs := bitsOf 16 (rselOf d).banks) hb hr hl, rlrBank]
  simp only [Bool.or_eq_false_iff, decide_eq_false_iff_not, not_lt, not_le]

theorem rlrBuf_mv {f : UnitF} {d : Desc} (h : rlrInvalid (.rlrMv f) d = false) (hfmt : rlrFormat (.rlrMv f) d = false) :
    rlrBuf (.rlrMv f) d = false ↔ (rmvOf d).BufIn (bitsOf 16 (rselOf d).banks) := by
  obtain ⟨hbanks, hb, hr, hl⟩ := rlrMv_counts h
  have hvf : ([0, 1, 2, 3, 4, 8] : List Nat).contains (rmvOf d).vf = true := by
    simp only [rlrFormat, Bool.or_eq_false_iff, Bool.not_eq_false'] at hfmt
    exact hfmt.2
  obtain ⟨hdvd, hpos⟩ := vfmt_bytes hvf
  have hlt : (rselOf d).banks < 2 ^ 16 := fld_lt ..
  rw [bufIn_iff (bitsOf_ne_nil hlt hbanks) (bitsOf_rising ..) hb hr hl hdvd hpos, rlrBuf]
  simp only [Bool.or_eq_false_iff, decide_eq_false_iff_not, not_lt, not_le, and_assoc]

/-! ### What an RLR.VLD carries -/

theorem mapGet?_pairs {l : List Nat} (f : Nat → Byte) (p : Nat → Bool) {m : Nat} (hm : m ∈ l) :
    mapGet? (l.flatMap fun n => (2 * n, f n) :: if p n then [(2 * n + 1, (1 : Byte))] else []) (2 * m) = some (f m) := by
  induction l with
  | nil => cases hm
  | cons n l ih =>
    by_cases hnm : n = m
    · subst hnm
      simp [mapGet?]
    · have hrest := ih ((List.mem_cons.mp hm).resolve_left (Ne.symm hnm))
      have hne : 2 * n ≠ 2 * m := by omega
      have hodd : 2 * n + 1 ≠ 2 * m := by omega
      rw [List.flatMap_cons]
      split <;> simpa [mapGet?, hne, hodd] using hrest

theorem any_odd_pairs (l : List Nat) (f : Nat → Byte) (p : Nat → Bool) :
    (l.flatMap fun n => (2 * n, f n) :: if p n then [(2 * n + 1, (1 : Byte))] else []).any (fun b => b.1 % 2 == 1)
      = l.any p := by
  induction l with
  | nil => rfl
  | cons n l ih =>
    rw [List.flatMap_cons, List.any_append, ih, List.any_cons]
    congr 1
    cases hp : p n <;> simp

section
variable {s : State} {lc : Nat} {e : UEntry} {d : Desc}

/-- The place of byte n of the payload in its hawk: source n / LEN, byte n % LEN (11 R380). -/
def vldKey (s : State) (lc : Nat) (d : Desc) (n : Nat) : Nat :=
  let len := fld (dword d 1) 32 14 * 8
  hawkKey (s.siteOf lc) (fld (dword d 1) 0 21 + n / len * fld (dword d 2) 32 21 + n % len)

/-- A read of one byte asks for the poison of its granule. -/
theorem hawkGran_one (s : State) (lc o : Nat) : s.hawkGran lc o 1
    = ([memGet s.mem (hawkKey (s.siteOf lc) o)], s.runPoisoned (hawkKey (s.siteOf lc) o / 64 * 64) 64) := by
  unfold State.hawkGran
  generalize hawkKey (s.siteOf lc) o = k
  have h64 : (k + 1 + 63) / 64 * 64 - k / 64 * 64 = 64 := by omega
  dsimp only
  rw [h64]
  rfl

theorem vldPayload_eq (s : State) (lc : Nat) (d : Desc) : s.vldPayload lc d
    = (List.range (fld (dword d 2) 16 10 * (fld (dword d 1) 32 14 * 8))).flatMap fun n =>
      (2 * n, memGet s.mem (vldKey s lc d n))
        :: if s.runPoisoned (vldKey s lc d n / 64 * 64) 64 then [(2 * n + 1, (1 : Byte))] else [] := by
  unfold State.vldPayload
  simp only [hawkGran_one]
  rfl

theorem vldKey_part {k j : Nat} (hj : j < fld (dword d 1) 32 14 * 8) :
    vldKey s lc d (k * (fld (dword d 1) 32 14 * 8) + j)
      = hawkKey (s.siteOf lc) (fld (dword d 1) 0 21 + k * fld (dword d 2) 32 21 + j) := by
  unfold vldKey
  dsimp only
  generalize fld (dword d 1) 32 14 * 8 = len at hj ⊢
  rw [Nat.mul_comm k len, Nat.mul_add_div (by omega), Nat.div_eq_of_lt hj, Nat.add_zero, Nat.mul_add_mod,
    Nat.mod_eq_of_lt hj]

theorem part_lt {a b k j : Nat} (hk : k < a) (hj : j < b) : k * b + j < a * b :=
  calc k * b + j < k * b + b := by omega
    _ = (k + 1) * b := (Nat.succ_mul ..).symm
    _ ≤ a * b := Nat.mul_le_mul_right _ hk

/-- Every byte of every source is in the payload. -/
theorem vldPayload_byte {k j : Nat} (hk : k < fld (dword d 2) 16 10) (hj : j < fld (dword d 1) 32 14 * 8) :
    mapGet (s.vldPayload lc d) (2 * (k * (fld (dword d 1) 32 14 * 8) + j)) 0
      = memGet s.mem (hawkKey (s.siteOf lc) (fld (dword d 1) 0 21 + k * fld (dword d 2) 32 21 + j)) := by
  rw [mapGet, vldPayload_eq, mapGet?_pairs _ (fun n => s.runPoisoned (vldKey s lc d n / 64 * 64) 64)
    (List.mem_range.mpr (part_lt hk hj)), Option.getD_some, vldKey_part hj]

/-- The payload is marked exactly when a granule of one of its bytes is poisoned. -/
theorem vldPayload_poison (s : State) (lc : Nat) (d : Desc) :
    (s.vldPayload lc d).any (fun b => b.1 % 2 == 1) = true ↔ ∃ k j, k < fld (dword d 2) 16 10 ∧ j < fld (dword d 1) 32 14 * 8
      ∧ s.runPoisoned (hawkKey (s.siteOf lc) (fld (dword d 1) 0 21 + k * fld (dword d 2) 32 21 + j) / 64 * 64) 64 = true := by
  rw [vldPayload_eq, any_odd_pairs _ _ (fun n => s.runPoisoned (vldKey s lc d n / 64 * 64) 64), List.any_eq_true]
  simp only [List.mem_range]
  constructor
  · rintro ⟨n, hn, hp⟩
    have hlen : 0 < fld (dword d 1) 32 14 * 8 := Nat.pos_of_ne_zero fun h0 => by rw [h0] at hn; omega
    have hmod := Nat.mod_lt n hlen
    rw [← Nat.div_add_mod' n (fld (dword d 1) 32 14 * 8), vldKey_part hmod] at hp
    exact ⟨_, _, Nat.div_lt_of_lt_mul (by rwa [Nat.mul_comm]), hmod, hp⟩
  · rintro ⟨k, j, hk, hj, hp⟩
    exact ⟨_, part_lt hk hj, by rwa [vldKey_part hj]⟩

/-- A payload that BUF_RANGE lets pass lies in the hawk (11 R380). -/
theorem vld_within {f : UnitF} (h : rlrBuf (.rlrVld f) d = false) {k j : Nat} (hk : k < fld (dword d 2) 16 10)
    (hj : j < fld (dword d 1) 32 14 * 8) : fld (dword d 1) 0 21 + k * fld (dword d 2) 32 21 + j < 2 ^ 21 := by
  simp only [rlrBuf, Bool.or_eq_false_iff, decide_eq_false_iff_not, not_lt] at h
  have hmul : k * fld (dword d 2) 32 21 ≤ (fld (dword d 2) 16 10 - 1) * fld (dword d 2) 32 21 :=
    Nat.mul_le_mul_right _ (by omega)
  omega

theorem granule_clean (h : s.hawkClean lc) {o : Nat} (ho : o < 2 ^ 21) :
    s.runPoisoned (hawkKey (s.siteOf lc) o / 64 * 64) 64 = false := by
  rw [← Bool.not_eq_true, runPoisoned_iff]
  rintro ⟨i, hi, hp⟩
  have hkey : hawkKey (s.siteOf lc) o / 64 * 64 + i = hawkKey (s.siteOf lc) (o / 64 * 64 + i) := by
    unfold hawkKey
    omega
  rw [hkey, h _ (by omega)] at hp
  cases hp

/-! ### Sending (11 R385 R386) -/

theorem exec_rlr {c : Instr} (h : AtFront s lc .scrim e) (hc : rlrCmd lc e.op = some c) :
    exec c s = .next (s.sendRlr lc 0 e []) := by
  obtain ⟨-, hclk, rest, hq, hst, hb, -⟩ := h
  have hfind : findEntry (fun e => e.started && !e.begun) (s.core lc).scrQ = some (0, e) := by
    rw [show (s.core lc).scrQ = e :: rest from hq]
    exact findEntry_head (by rw [hst, hb]; rfl)
  have hperf : ∀ mine : UOp → Bool, mine e.op = true → s.rlrPerform lc mine [] = s.sendRlr lc 0 e [] := by
    intro mine hm
    unfold State.rlrPerform
    rw [hfind]
    dsimp only
    rw [hm, hclk]
    rfl
  cases hop : e.op <;> rw [hop] at hc <;> cases hc <;>
    exact congrArg Host.Outcome.next (hperf _ (by rw [hop]))

/-- An RLR instruction that fails a check ends, and only its entry changes. -/
theorem rlr_fails {c : Instr} (h : AtFront s lc .scrim e) (hc : rlrCmd lc e.op = some c) {st : BitVec 8}
    (hst : s.rlrCheck e.op (e.ds.headD 0) = some st) :
    ∃ t, exec c s = .next t ∧ EndsWith s t lc .scrim st {} ∧ t = { s with cores := t.cores }
      ∧ t.core lc = (s.core lc).setQ .scrim ((t.core lc).scrQ) ∧ ∀ k, k ≠ lc → t.core k = s.core k := by
  have hsend : s.sendRlr lc 0 e [] = s.finish lc .scrim 0 st {} := by
    unfold State.sendRlr
    dsimp only
    rw [hst]
  obtain ⟨-, -, rest, hq, -, -, -⟩ := id h
  refine ⟨_, exec_rlr h hc, ?_⟩
  rw [hsend]
  refine ⟨State.finish_ends hq st {}, State.finish_frame .., ?_, fun k hk => State.finish_core_ne s hk ..⟩
  rw [State.finish_front hq, setCore_core]
  rfl

/-- An RLR.VLD. -/
def isVld : UOp → Bool
  | .rlrVld _ => true
  | _ => false

theorem isVld_iff {op : UOp} : isVld op = true ↔ ∃ f, op = .rlrVld f := by
  cases op <;> simp [isVld]

/-- The entry of an RLR instruction whose command is on its way. -/
def sentEntry (s : State) (lc : Nat) (e : UEntry) : UEntry :=
  let buf := if isVld e.op then s.vldPayload lc (e.ds.headD 0) else []
  { e with
    begun := true, await := (rselOf (e.ds.headD 0)).stackList.map toArrive, buf := buf
    poi := buf.any fun b => b.1 % 2 == 1 }

theorem sendRlr_of_check (hc : s.rlrCheck e.op (e.ds.headD 0) = none) : s.sendRlr lc 0 e [] =
    if (rselOf (e.ds.headD 0)).stackList.any fun st => decide (16 ≤ s.seqLen st + s.onWay st) then s
    else match s.crossAll (if isVld e.op then [(s.siteOf lc, .down)] else []) [] with
      | none => s
      | some t => t.setEntry lc .scrim 0 (sentEntry t lc e) := by
  have hahead : (s.core lc).writesAhead lc 0 lc = false := rfl
  unfold State.sendRlr
  dsimp only
  rw [hc]
  dsimp only
  rw [hahead, Bool.and_false, Bool.false_or]
  rfl

theorem crossAll_one (s : State) (site : Nat) (d : VcDir) : s.crossAll [(site, d)] [] = s.cross site d [] := rfl

theorem sentEntry_vcs (s : State) (lc : Nat) (e : UEntry) (v : FMap Vc) :
    sentEntry { s with vcs := v } lc e = sentEntry s lc e := by
  have hpay : ({ s with vcs := v } : State).vldPayload lc (e.ds.headD 0) = s.vldPayload lc (e.ds.headD 0) := by
    rw [vldPayload_eq, vldPayload_eq]
    simp only [runPoisoned_congr (s := s) (t := { s with vcs := v }) rfl]
    rfl
  rw [sentEntry, hpay]
  rfl

/-- A command leaves for every selected stack; an RLR.VLD's rows cross the core's channel. -/
theorem sendRlr_sent (hc : s.rlrCheck e.op (e.ds.headD 0) = none)
    (hroom : ∀ st ∈ (rselOf (e.ds.headD 0)).stackList, s.seqLen st + s.onWay st < 16)
    (hfree : isVld e.op = true → ChannelFree s (s.siteOf lc) .down) :
    ∃ v, s.sendRlr lc 0 e [] = { s with vcs := v }.setEntry lc .scrim 0 (sentEntry s lc e)
      ∧ (isVld e.op = false → v = s.vcs) := by
  have hnone : ((rselOf (e.ds.headD 0)).stackList.any fun st => decide (16 ≤ s.seqLen st + s.onWay st)) = false := by
    rw [List.any_eq_false]
    intro st hst
    simpa using hroom st hst
  rw [sendRlr_of_check hc, hnone, if_neg Bool.false_ne_true]
  cases hv : isVld e.op with
  | false => exact ⟨s.vcs, rfl, fun _ => rfl⟩
  | true =>
    obtain ⟨t, ht, v, rfl⟩ := cross_of_free (hfree hv)
    refine ⟨v, ?_, nofun⟩
    rw [if_pos rfl, crossAll_one, ht]
    dsimp only
    rw [sentEntry_vcs]

theorem sendRlr_waits (hc : s.rlrCheck e.op (e.ds.headD 0) = none)
    (h : (∃ st ∈ (rselOf (e.ds.headD 0)).stackList, 16 ≤ s.seqLen st + s.onWay st)
      ∨ isVld e.op = true ∧ (s.siteWindow (s.siteOf lc) = true ∨ s.siteRetired (s.siteOf lc) = true)) :
    s.sendRlr lc 0 e [] = s := by
  rw [sendRlr_of_check hc]
  split
  · rfl
  next hfull =>
    rcases h with ⟨st, hst, h16⟩ | ⟨hv, hoff⟩
    · exact absurd (List.any_eq_true.mpr ⟨st, hst, decide_eq_true h16⟩) hfull
    · have hnone : s.cross (s.siteOf lc) .down [] = none :=
        State.cross_none.mpr (hoff.symm.imp_right .inl)
      rw [hv, if_pos rfl, crossAll_one, hnone]

theorem sentEntry_clean (h : s.hawkClean lc) (hc : s.rlrCheck e.op (e.ds.headD 0) = none) :
    (sentEntry s lc e).poi = false := by
  unfold sentEntry
  cases hv : isVld e.op with
  | false => rfl
  | true =>
    obtain ⟨f, hop⟩ := isVld_iff.mp hv
    have hbuf := rlrBuf_of_check hc
    rw [hop] at hbuf
    refine Bool.eq_false_iff.mpr fun hp => ?_
    obtain ⟨k, j, hk, hj, hrun⟩ := (vldPayload_poison s lc (e.ds.headD 0)).mp hp
    rw [granule_clean h (vld_within hbuf hk hj)] at hrun
    cases hrun

end

/-- Settles O37: R400 by the checks in their order, R382 by the extremes of the walk, R380 by the payload. -/
theorem rollerCommandsSent : Obligations.RollerCommandsSent := by
  intro s lc c e h hcmd op d sel m only ends armed retired
  have hexec := exec_rlr h hcmd
  have hfail : ∀ st, s.rlrCheck op d = some st → ends st := fun st hst => rlr_fails h hcmd hst
  have hcheck := rlrCheck_eq s op d
  refine ⟨fun hi => ?_, fun hi hm => ?_, fun hi hm ha => ?_, fun hi hm ha hr => ?_, fun hi hm ha hr hf => ?_,
    fun hi hm ha hr hf f hop => ?_, fun hc hroom hfree => ?_, fun hc hfull => ?_, fun hc hv hoff => ?_⟩
  · have hinv : rlrInvalid op d = true := hi.elim (rlrInvalid_of_no_roller op) id
    exact hfail _ (by rw [hcheck, if_pos hinv])
  · exact hfail _ (by rw [hcheck, hi, hm]; rfl)
  · exact hfail _ (by rw [hcheck, hi, hm]; exact if_pos ha)
  · exact hfail _ (by rw [hcheck, hi, hm]; exact (if_neg (not_not_intro ha)).trans (if_pos hr))
  · exact hfail _ (by rw [hcheck, hi, hm]; exact (if_neg (not_not_intro ha)).trans ((if_neg hr).trans (if_pos hf)))
  · intro rowsIn bufIn
    have hrest : s.rlrCheck op d = if rlrBank op d then some 0x72 else if rlrBuf op d then some 0x73 else none := by
      rw [hcheck, hi, hm]
      exact (if_neg (not_not_intro ha)).trans ((if_neg hr).trans (if_neg (by rw [hf]; exact Bool.false_ne_true)))
    have hbank : rlrBank op d = false ↔ rowsIn := by rw [hop] at hi ⊢; exact rlrBank_mv hi
    have hbuf : rlrBuf op d = false ↔ bufIn := by rw [hop] at hi hf ⊢; exact rlrBuf_mv hi hf
    refine ⟨fun hrows => hfail _ ?_, fun hrows hb => hfail _ ?_, fun hrows hb => ?_⟩
    · rw [hrest, if_pos (by rwa [← hbank, Bool.not_eq_false] at hrows)]
    · rw [hrest, hbank.mpr hrows, if_neg Bool.false_ne_true, if_pos (by rwa [← hbuf, Bool.not_eq_false] at hb)]
    · rw [hrest, hbank.mpr hrows, hbuf.mpr hb]
      rfl
  · obtain ⟨v, hsent, hvcs⟩ := sendRlr_sent hc hroom fun hv => hfree (isVld_iff.mp hv)
    obtain ⟨-, -, rest, hq, -, -, hfin⟩ := h
    have hcore : ({ s with vcs := v }.setEntry lc .scrim 0 (sentEntry s lc e)).core lc
        = (s.core lc).setQ .scrim (sentEntry s lc e :: rest) := by
      unfold State.setEntry
      rw [setCore_core]
      exact congrArg (fun q => (s.core lc).setQ .scrim (q.set 0 (sentEntry s lc e))) hq
    refine ⟨_, rest, sentEntry s lc e, hexec.trans (congrArg _ hsent), rfl, fun hn => ?_, ?_, fun k hk => ?_, hq, ?_,
      rfl, rfl, rfl, hfin, rfl, fun hclean => sentEntry_clean hclean hc, fun f hop => ?_⟩
    · exact hvcs (Bool.eq_false_iff.mpr fun hv => (isVld_iff.mp hv).elim hn)
    · rw [hcore]
      rfl
    · exact mapGet_set_ne _ _ _ hk
    · rw [hcore]
      rfl
    · have hbuf : (sentEntry s lc e).buf = s.vldPayload lc d := if_pos (isVld_iff.mpr ⟨f, hop⟩)
      have hpoi : (sentEntry s lc e).poi = (sentEntry s lc e).buf.any fun b => b.1 % 2 == 1 := rfl
      rw [hpoi, hbuf]
      exact ⟨fun k j hk hj => vldPayload_byte hk hj, vldPayload_poison s lc d⟩
  · rw [hexec, sendRlr_waits hc (.inl hfull)]
  · rw [hexec, sendRlr_waits hc (.inr ⟨isVld_iff.mpr hv, hoff⟩)]

end Sys2Proof.Machine
end

