-- ==== Sys2Proof/Proofs/FinishChanges.lean ====
section
/-!
O54, the change of finish (17 R562): its request, its acceptance, the locks of the PLLs, the ramps of the rails and the change
of a half's point (03 R112), in the order in which they follow.
-/

namespace Sys2Proof.Machine

theorem rf_of_regs {s t : State} (h : t.regs = s.regs) (r : Reg) (lo len : Nat) : t.rf r lo len = s.rf r lo len := by
  unfold State.rf State.reg
  rw [h]

theorem State.half_regs {s t : State} (hw : t.west = s.west) (he : t.east = s.east) (h : Half) : t.half h = s.half h := by
  cases h
  · exact hw
  · exact he

/-! ### A half takes a point -/

/-- The settings of channels are loaded: nothing but those and what their groups' registers show of them changes. -/
structure LoadsSettings (s t : State) : Prop where
  rest : t = { s with regs := t.regs, vcs := t.vcs }
  low : ∀ a, a < lathBase + 0x1000000 → mapGet? t.regs a = mapGet? s.regs a

theorem LoadsSettings.refl (s : State) : LoadsSettings s s := ⟨rfl, fun _ _ => rfl⟩

theorem LoadsSettings.trans {s t u : State} (h : LoadsSettings s t) (g : LoadsSettings t u) : LoadsSettings s u :=
  ⟨by rw [g.rest, h.rest], fun a ha => (g.low a ha).trans (h.low a ha)⟩

theorem LoadsSettings.foldl {α : Type} {f : State → α → State} (h : ∀ s a, LoadsSettings s (f s a)) (l : List α) (s : State) :
    LoadsSettings s (l.foldl f s) := by
  induction l generalizing s with
  | nil => exact .refl s
  | cons a l ih => exact (h s a).trans (ih _)

theorem LoadsSettings.rf {s t : State} (h : LoadsSettings s t) {r : Reg} (hr : r.addr < lathBase + 0x1000000) (lo len : Nat) :
    t.rf r lo len = s.rf r lo len := rf_congr (h.low _ hr) lo len

theorem loadSettings_loads (s : State) (h : Half) (old new : Nat) : LoadsSettings s (s.loadSettings h old new) := by
  unfold State.loadSettings
  split
  · exact .refl s
  refine LoadsSettings.foldl (fun s i => LoadsSettings.foldl (fun s d => LoadsSettings.foldl (fun s g => ?_) _ s) _ s) _ s
  dsimp only
  have hvc : ∀ v, LoadsSettings s (s.setVc i d v) := fun v => ⟨rfl, fun _ _ => rfl⟩
  split
  · refine (hvc _).trans ⟨rfl, fun a ha => ?_⟩
    exact setRf_regs_ne _ _ _ _ (Nat.lt_of_lt_of_le ha (vcGroup_high i d g)).ne
  · exact hvc _

/-- A half that takes a point runs at it, and all else but its channels' settings stays. -/
theorem takePoint_loads (s : State) (h : Half) (p : Nat) :
    ∃ t, LoadsSettings s t ∧ s.takePoint h p = t.setHalf h { s.half h with point := p } := by
  have hload := loadSettings_loads s h (s.half h).point p
  refine ⟨_, hload, ?_⟩
  unfold State.takePoint
  dsimp only
  have hhalf : (s.loadSettings h (s.half h).point p).half h = s.half h := by
    rw [hload.rest]
    cases h <;> rfl
  rw [hhalf]

/-! ### Registers of a finish change -/

theorem finish_low : Reg.finish.addr < lathBase + 0x1000000 := by decide
theorem rlrState_low : Reg.rlrState.addr < lathBase + 0x1000000 := by decide
theorem pwrState_low : Reg.pwrState.addr < lathBase + 0x1000000 := by decide
theorem clkReg_low (h : Half) : (clkReg h).addr < lathBase + 0x1000000 := by cases h <;> decide
theorem clkReg_ne_finish (h : Half) : Reg.finish.addr ≠ (clkReg h).addr := by cases h <;> decide
theorem clkReg_ne_pwrState (h : Half) : Reg.pwrState.addr ≠ (clkReg h).addr := by cases h <;> decide
theorem clkReg_ne_scrSeam (h : Half) : (clkReg h).addr ≠ Reg.scrSeam.addr := by cases h <;> decide

theorem halfOff_iff (s : State) (h : Half) : s.halfOff h = true ↔ s.rf .pwrState (offBit h) 1 = 1 := by
  cases h <;> exact decide_eq_true_iff

theorem halfOff_congr {s t : State} (h : ∀ lo len, t.rf .pwrState lo len = s.rf .pwrState lo len) (x : Half) :
    t.halfOff x = s.halfOff x := by
  rw [Bool.eq_iff_iff, halfOff_iff, halfOff_iff, h]

/-! ### Requests and their acceptance -/

theorem mayWrite_finish {s : State} {req : Requester} (hreq : req = .host ∨ req = .bmc ∧ s.pins.aux = true ∧ s.pins.i3c ≠ none)
    (hrec : s.sec.recovery = false) (hload : s.loaded = true) : s.mayWrite req .finish = true := by
  rcases hreq with rfl | ⟨rfl, haux, hi3c⟩
  · exact mayWrite_host hrec hload _
  · unfold State.mayWrite
    rw [haux, Option.isSome_iff_ne_none.mpr hi3c, hload, hrec]
    rfl

theorem finishRequest_sets {s : State} {req : Requester} (w : Word)
    (hreq : req = .host ∨ req = .bmc ∧ s.pins.aux = true ∧ s.pins.i3c ≠ none) (hrec : s.sec.recovery = false)
    (hload : s.loaded = true) : ∃ t, exec (.finishRequest req w) s = .next t
      ∧ t = { s with regs := t.regs, power := { s.power with reqWaits := true } } ∧ OnlyReg s t .finish
      ∧ t.rf .finish 0 2 = (if fld w 0 2 ≤ 2 then fld w 0 2 else s.rf .finish 0 2)
      ∧ t.rf .finish 4 5 = s.rf .finish 4 5 := by
  have hwritten : exec (.finishRequest req w) s
      = .next { s.written .finish w fullMask with power := { s.power with reqWaits := true } } := by
    have hk : lockBits req .finish = 0 := by unfold lockBits; split <;> rfl
    refine congrArg _ ((writeReg8_full w rfl (resolve_lath s (by decide) (by decide) none) (mayWrite_finish hreq hrec hload)
      hk).trans ?_)
    have hor : (s.power.reqWaits || decide (fullMask / 2 ^ 0 % 2 = 1)) = true := Bool.or_true _
    unfold State.applyReg
    dsimp only
    rw [hor]
    rfl
  have hnew : (s.written .finish w fullMask).reg .finish
      = setFld (s.reg .finish) 0 2 (wfldNew (s.reg .finish) w fullMask (s.locked .finish) ⟨0, 2, .rw, between 0 2⟩) :=
    written_reg ..
  have hval := wfldNew_rw (old := s.reg .finish) (data := w) (locked := s.locked .finish) (f := ⟨0, 2, .rw, between 0 2⟩)
    (by decide) rfl
  refine ⟨_, hwritten, rfl, written_onlyReg s .finish w fullMask, ?_, ?_⟩
  · refine (congrArg (fun x => fld x 0 2) hnew).trans ?_
    rw [fld_setFld_self _ _ _ _ (by decide), hval]
    simp only [between, Nat.zero_le, decide_true, Bool.true_and, decide_eq_true_eq]
    split
    · exact Nat.mod_eq_of_lt (fld_lt ..)
    · exact Nat.mod_eq_of_lt (fld_lt ..)
  · refine (congrArg (fun x => fld x 4 5) hnew).trans ?_
    rw [fld_setFld_ne _ _ _ _ _ _ (by decide)]
    rfl

theorem finishChange_accepted {s : State} (hw : s.power.reqWaits = true) (hb : s.rf .finish 8 1 = 0) (hr : s.ready = true) :
    let cur := s.rf .finish 4 2
    let new := s.rf .finish 0 2
    (new = cur → exec .finishChangeAccept s = .next { s with power := { s.power with reqWaits := false } })
    ∧ (new ≠ cur → ∃ t, exec .finishChangeAccept s = .next t
      ∧ t = { s with
          regs := t.regs, west := { s.west with pll := some new, locked := false }
          east := { s.east with pll := some new, locked := false }
          disarming := (if cur = 2 then List.range 8 else s.disarming)
          power := { s.power with reqWaits := false, target := new, step := (if cur < new then .ramp else .lock) } }
      ∧ t.rf .finish 8 1 = 1 ∧ t.rf .finish 4 2 = cur ∧ (cur = 2 → t.rf .rlrState 0 1 = 0)) := by
  intro cur new
  have hgo : (s.power.reqWaits && decide (s.rf .finish 8 1 = 0) && s.ready) = true := by rw [hw, hb, hr]; rfl
  have hexec : exec .finishChangeAccept s = execFinishChangeAccept s := rfl
  unfold execFinishChangeAccept at hexec
  rw [if_pos hgo] at hexec
  have hself : (s.setRf .finish 8 1 1).rf .finish 8 1 = 1 := State.rf_setRf_self _ _ _ _ _ (by decide)
  have hcur : (s.setRf .finish 8 1 1).rf .finish 4 2 = cur := State.rf_setRf_field _ _ _ _ _ _ _ (by decide)
  refine ⟨fun heq => hexec.trans (if_pos heq), fun hne => ?_⟩
  have hrest := hexec.trans (if_neg hne)
  by_cases h2 : cur = 2
  · refine ⟨_, hrest.trans (if_pos h2), ?_, ?_, ?_, fun _ => ?_⟩
    · rw [if_pos h2]
      rfl
    · exact (State.rf_setRf_ne (s.setRf .finish 8 1 1) (r := .rlrState) 0 1 0 8 1 (by decide)).trans hself
    · exact (State.rf_setRf_ne (s.setRf .finish 8 1 1) (r := .rlrState) 0 1 0 4 2 (by decide)).trans hcur
    · exact State.rf_setRf_self (s.setRf .finish 8 1 1) .rlrState 0 1 0 (by decide)
  · refine ⟨_, hrest.trans (if_neg h2), ?_, hself, hcur, fun h => absurd h h2⟩
    rw [if_neg h2]
    rfl

theorem finishChange_refused {s : State} (h : s.power.reqWaits = false ∨ s.rf .finish 8 1 = 1 ∨ s.ready = false) :
    exec .finishChangeAccept s = .next s := by
  refine if_neg fun hgo => ?_
  simp only [Bool.and_eq_true, decide_eq_true_eq] at hgo
  obtain ⟨⟨hw, hb⟩, hr⟩ := hgo
  rcases h with h | h | h
  · rw [hw] at h; cases h
  · omega
  · rw [hr] at h; cases h

/-! ### Locks and ramps -/

/-- The west half stops for its change of point. -/
theorem startWest_starts {s : State} (hs : s.power.step = .lock) (hw : s.west.locked = true) (he : s.east.locked = true) :
    s.startWest.mem = s.mem ∧ s.startWest.cores = s.cores ∧ s.startWest.west = { s.west with stopped := true }
      ∧ s.startWest.east = s.east ∧ s.startWest.power = { s.power with step := .west } ∧ s.startWest.rf .clkWest 2 1 = 1
      ∧ s.startWest.rf .clkWest 0 2 = 3 ∧ OnlyReg s s.startWest .clkWest := by
  have hgo : s.startWest = { s.stopHalf .west with power := { s.power with step := .west } } :=
    if_pos (by rw [hs, hw, he]; rfl)
  rw [hgo]
  let u : State := { s with west := { s.west with stopped := true } }
  refine ⟨rfl, rfl, rfl, rfl, rfl, ?_, ?_, fun a ha => ?_⟩
  · exact (State.rf_setRf_field (u.setRf .clkWest 2 1 1) .clkWest 0 2 3 2 1 (by decide)).trans
      (State.rf_setRf_self u .clkWest 2 1 1 (by decide))
  · exact State.rf_setRf_self (u.setRf .clkWest 2 1 1) .clkWest 0 2 3 (by decide)
  · exact (setRf_regs_ne (u.setRf .clkWest 2 1 1) 0 2 3 ha).trans (setRf_regs_ne u 2 1 1 ha)

theorem startWest_waits {s : State} (h : s.power.step ≠ .lock ∨ s.west.locked = false ∨ s.east.locked = false) :
    s.startWest = s := by
  refine if_neg fun hgo => ?_
  simp only [Bool.and_eq_true, decide_eq_true_eq] at hgo
  obtain ⟨⟨hs, hw⟩, he⟩ := hgo
  rcases h with h | h | h
  · exact h hs
  · rw [hw] at h; cases h
  · rw [he] at h; cases h

/-- The half that is not a given one. -/
def otherHalf : Half → Half
  | .west => .east
  | .east => .west

theorem pllLock_locks {s : State} {h : Half} {p : Nat} (hp : (s.half h).pll = some p) (hl : (s.half h).locked = false) :
    (s.upward = true ∨ s.disarming = [] → ∃ t, exec (.pllLockComplete h) s = .next t ∧ t.mem = s.mem ∧ t.cores = s.cores
      ∧ (t.half h).locked = true ∧ (t.half h).pll = some p
      ∧ (s.power.step = .lock → (s.half (otherHalf h)).locked = true → t.power.step = .west ∧ t.west.stopped = true
        ∧ t.rf .clkWest 2 1 = 1 ∧ t.rf .clkWest 0 2 = 3 ∧ OnlyReg s t .clkWest)
      ∧ (s.power.step ≠ .lock ∨ (s.half (otherHalf h)).locked = false →
        t = s.setHalf h { s.half h with locked := true }))
    ∧ (s.upward = false → s.disarming ≠ [] → exec (.pllLockComplete h) s = .next s) := by
  have hexec : exec (.pllLockComplete h) s = execPllLockComplete h s := rfl
  unfold execPllLockComplete at hexec
  dsimp only at hexec
  have hidle : ((s.half h).pll.isSome && !(s.half h).locked && (s.upward || s.disarming.isEmpty))
      = (s.upward || s.disarming.isEmpty) := by
    rw [hp, hl]
    rfl
  rw [hidle] at hexec
  constructor
  · intro hgo
    rw [if_pos (by simpa using hgo)] at hexec
    let u := s.setHalf h { s.half h with locked := true }
    have hu : u.mem = s.mem ∧ u.cores = s.cores ∧ u.power = s.power ∧ u.regs = s.regs := by cases h <;> exact ⟨rfl, rfl, rfl, rfl⟩
    have hself : u.half h = { s.half h with locked := true } := State.half_setHalf_self ..
    have hboth : u.west.locked = true ∧ u.east.locked = true ↔ (s.half (otherHalf h)).locked = true := by
      cases h
      · exact and_iff_right rfl
      · exact and_iff_left rfl
    by_cases hall : s.power.step = .lock ∧ (s.half (otherHalf h)).locked = true
    · obtain ⟨hs, hother⟩ := hall
      obtain ⟨hw, he⟩ := hboth.mpr hother
      obtain ⟨hmem, hcores, hwest, heast, hpow, hstop, hpoint, honly⟩ := startWest_starts (hu.2.2.1 ▸ hs) hw he
      have hhalf : (u.startWest.half h).locked = true ∧ (u.startWest.half h).pll = some p := by
        cases h
        · exact ⟨(congrArg HalfS.locked hwest).trans hw, (congrArg HalfS.pll hwest).trans hp⟩
        · exact ⟨(congrArg HalfS.locked heast).trans he, (congrArg HalfS.pll heast).trans hp⟩
      refine ⟨_, hexec, hmem.trans hu.1, hcores.trans hu.2.1, hhalf.1, hhalf.2, fun _ _ => ?_, fun hno => ?_⟩
      · exact ⟨congrArg Power.step hpow, congrArg HalfS.stopped hwest, hstop, hpoint,
          fun a ha => (honly a ha).trans (by rw [hu.2.2.2])⟩
      · rcases hno with hno | hno
        · exact absurd hs hno
        · rw [hother] at hno; cases hno
    · have hwait : u.startWest = u := startWest_waits (by
        rw [hu.2.2.1, ← Bool.not_eq_true, ← Bool.not_eq_true u.east.locked]
        rw [← hboth] at hall
        tauto)
      rw [hwait] at hexec
      refine ⟨u, hexec, hu.1, hu.2.1, by rw [hself], by rw [hself]; exact hp, fun hs ho => absurd ⟨hs, ho⟩ hall, fun _ => rfl⟩
  · intro hup hdis
    rw [if_neg (by simp [hup, hdis])] at hexec
    exact hexec

/-- A change that is complete: CUR shows the new finish, and Gloss arms the Rollers. -/
structure Completes (s t : State) : Prop where
  rest : t = { s with regs := t.regs, power := { s.power with step := .none } }
  cur : t.rf .finish 4 2 = s.power.target
  idle : t.rf .finish 8 1 = 0
  arms : s.power.target = 2 → t.rf .rlrState 0 1 = 1
  others : ∀ a, a ≠ Reg.finish.addr → a ≠ Reg.rlrState.addr → mapGet? t.regs a = mapGet? s.regs a

theorem finishDone_completes {s : State} (h : s.power.target ≤ 2) : Completes s s.finishDone := by
  let u := (s.setRf .finish 4 2 s.power.target).setRf .finish 8 1 0
  have hcur : u.rf .finish 4 2 = s.power.target := by
    rw [State.rf_setRf_field _ _ _ _ _ _ _ (by decide), State.rf_setRf_self _ _ _ _ _ (by decide)]
    exact Nat.mod_eq_of_lt (by omega)
  have hidle : u.rf .finish 8 1 = 0 := State.rf_setRf_self _ _ _ _ _ (by decide)
  have hregs : ∀ a, a ≠ Reg.finish.addr → mapGet? u.regs a = mapGet? s.regs a := fun a ha =>
    (setRf_regs_ne _ _ _ _ ha).trans (setRf_regs_ne _ _ _ _ ha)
  by_cases h2 : s.power.target = 2
  · have hdone : s.finishDone = State.setRf { u with power := { s.power with step := .none } } .rlrState 0 1 1 := if_pos h2
    rw [hdone]
    refine ⟨rfl, (u.rf_setRf_ne (r := .rlrState) 0 1 1 4 2 (by decide)).trans hcur,
      (u.rf_setRf_ne (r := .rlrState) 0 1 1 8 1 (by decide)).trans hidle,
      fun _ => u.rf_setRf_self .rlrState 0 1 1 (by decide), fun a ha hb => ?_⟩
    exact (setRf_regs_ne u 0 1 1 hb).trans (hregs a ha)
  · have hdone : s.finishDone = { u with power := { s.power with step := .none } } := if_neg h2
    rw [hdone]
    exact ⟨rfl, hcur, hidle, fun h => absurd h h2, fun a ha _ => hregs a ha⟩

theorem railRamp_up {s : State} (hs : s.power.step = .ramp) : ∃ t, exec .railRampComplete s = .next t ∧ t.mem = s.mem
    ∧ t.cores = s.cores ∧ t.power.rail = railOf s.power.target ∧ t.power.target = s.power.target
    ∧ (s.west.locked = true → s.east.locked = true → t.power.step = .west ∧ t.west.stopped = true)
    ∧ (s.west.locked = false ∨ s.east.locked = false → t.power.step = .lock ∧ t.regs = s.regs) := by
  have hexec : exec .railRampComplete s = execRailRampComplete s := rfl
  unfold execRailRampComplete at hexec
  rw [hs] at hexec
  dsimp only at hexec
  generalize hu : ({ s with power := { s.power with step := .lock, rail := railOf s.power.target } } : State) = u at hexec
  have hstep : u.power.step = .lock := by rw [← hu]
  have hwest : u.west = s.west := by rw [← hu]
  have heast : u.east = s.east := by rw [← hu]
  by_cases hall : s.west.locked = true ∧ s.east.locked = true
  · obtain ⟨hmem, hcores, hw, -, hpow, -⟩ := startWest_starts hstep (hwest ▸ hall.1) (heast ▸ hall.2)
    refine ⟨_, hexec, hmem.trans (by rw [← hu]), hcores.trans (by rw [← hu]), ?_, ?_, fun _ _ => ⟨?_, ?_⟩, fun hno => ?_⟩
    · rw [hpow, ← hu]
    · rw [hpow, ← hu]
    · rw [hpow]
    · rw [hw]
    · rw [hall.1, hall.2] at hno
      simp at hno
  · have hwait : u.startWest = u := startWest_waits (.inr (by
      rw [hwest, heast, ← Bool.not_eq_true, ← Bool.not_eq_true s.east.locked]
      tauto))
    rw [hwait] at hexec
    subst hu
    exact ⟨_, hexec, rfl, rfl, rfl, rfl, fun hw he => absurd ⟨hw, he⟩ hall, fun _ => ⟨rfl, rfl⟩⟩

theorem railRamp_down {s : State} (hs : s.power.step = .rampDown) (h2 : s.power.target ≤ 2) :
    ∃ t, exec .railRampComplete s = .next t ∧ t.mem = s.mem ∧ t.cores = s.cores ∧ t.power.rail = railOf s.power.target
      ∧ t.power.step = .none ∧ t.rf .finish 4 2 = s.power.target ∧ t.rf .finish 8 1 = 0
      ∧ (s.power.target = 2 → t.rf .rlrState 0 1 = 1) := by
  have hexec : exec .railRampComplete s = execRailRampComplete s := rfl
  unfold execRailRampComplete at hexec
  rw [hs] at hexec
  dsimp only at hexec
  generalize hu : ({ s with power := { s.power with rail := railOf s.power.target } } : State) = u at hexec
  have htarget : u.power.target = s.power.target := by rw [← hu]
  obtain ⟨hrest, hcur, hidle, harms, -⟩ := finishDone_completes (s := u) (htarget ▸ h2)
  refine ⟨_, hexec, ?_, ?_, ?_, ?_, hcur.trans htarget, hidle, fun h => harms (htarget.trans h)⟩ <;> rw [hrest, ← hu]

/-! ### A half resumes at its new point (03 R112) -/

/-- What the resumption of a half at a point leaves, before the change goes on. -/
structure Resumes (s t : State) (h : Half) (p : Nat) : Prop where
  rest : t = { s with regs := t.regs, vcs := t.vcs, west := t.west, east := t.east }
  half : ∃ r w, t.half h = { s.half h with point := p, pll := none, locked := false, stopped := false, routers := r, waiting := w }
  other : t.half (otherHalf h) = s.half (otherHalf h)
  point : t.rf (clkReg h) 0 2 = p
  runs : t.rf (clkReg h) 2 1 = 0
  count : t.rf (clkReg h) 32 32 = min (s.rf (clkReg h) 32 32 + 1) (2 ^ 32 - 1)
  cur : t.rf .finish 4 2 = s.rf .finish 4 2

/-- The state in which a half runs at its new point. -/
def resumed (s : State) (h : Half) (p : Nat) : State :=
  let r := clkReg h
  let t := s.takePoint h p
  let t := t.setHalf h { t.half h with pll := none, locked := false, stopped := false }
  let t := ((if t.halfOff h then t else t.setRf r 0 2 p).setRf r 2 1 0).incRf r 32 32 1
  if (s.half h).routers then t.routersRun h else t

theorem setHalf_setHalf (s : State) (h : Half) (x y : HalfS) : (s.setHalf h x).setHalf h y = s.setHalf h y := by
  cases h <;> rfl

theorem rf_setHalf (s : State) (h : Half) (x : HalfS) (r : Reg) (lo len : Nat) : (s.setHalf h x).rf r lo len = s.rf r lo len :=
  rf_of_regs (State.setHalf_regs ..) ..

/-- All but the settings and their registers stays when a half takes new values. -/
structure HalfTakes (s v : State) (h : Half) (x : HalfS) : Prop where
  rest : v = { s with regs := v.regs, vcs := v.vcs, west := v.west, east := v.east }
  half : v.half h = x
  other : v.half (otherHalf h) = s.half (otherHalf h)

theorem LoadsSettings.setHalf {s t : State} (hl : LoadsSettings s t) (h : Half) (x : HalfS) :
    HalfTakes s (t.setHalf h x) h x := by
  have hrest := hl.rest
  generalize t.regs = r, t.vcs = v at hrest
  subst hrest
  cases h <;> exact ⟨rfl, rfl, rfl⟩

theorem HalfTakes.regs {s v : State} {h : Half} {x : HalfS} (hv : HalfTakes s v h x) (r : FMap Word) :
    HalfTakes s { v with regs := r } h x := by
  obtain ⟨hrest, hhalf, hother⟩ := hv
  refine ⟨?_, (State.half_regs rfl rfl h).trans hhalf, (State.half_regs rfl rfl _).trans hother⟩
  generalize v.regs = r', v.vcs = c, v.west = w, v.east = e at hrest
  subst hrest
  rfl

theorem HalfTakes.routersRun {s v : State} {h : Half} {x : HalfS} (hv : HalfTakes s v h x) :
    HalfTakes s (v.routersRun h) h { x with routers := true, waiting := false } := by
  obtain ⟨hrest, rfl, hother⟩ := hv
  have hset : HalfTakes s (v.setHalf h { v.half h with routers := true, waiting := false }) h
      { v.half h with routers := true, waiting := false } := by
    generalize v.half h = y at *
    refine ⟨?_, State.half_setHalf_self .., ?_⟩
    · generalize v.regs = r', v.vcs = c, v.west = w, v.east = e at hrest
      subst hrest
      cases h <;> rfl
    · rw [← hother]
      cases h <;> rfl
  exact hset.regs _

theorem rf_routersRun (v : State) (h : Half) {r : Reg} (hr : r.addr ≠ Reg.scrSeam.addr) (lo len : Nat) :
    (v.routersRun h).rf r lo len = v.rf r lo len :=
  ((v.setHalf h _).rf_setRf_ne _ _ _ _ _ hr).trans (rf_setHalf ..)

/-- LATH_CLK of a half that runs at a point again. -/
def clockRuns (v : State) (h : Half) (p : Nat) : State :=
  ((v.setRf (clkReg h) 0 2 p).setRf (clkReg h) 2 1 0).incRf (clkReg h) 32 32 1

theorem resumed_eq {s v : State} {h : Half} {p : Nat}
    (hv : v = (s.takePoint h p).setHalf h { (s.takePoint h p).half h with pll := none, locked := false, stopped := false })
    (hon : v.halfOff h = false) :
    resumed s h p = if (s.half h).routers = true then (clockRuns v h p).routersRun h else clockRuns v h p := by
  unfold resumed
  dsimp only
  rw [← hv, hon, if_neg Bool.false_ne_true]
  rfl

theorem clockRuns_shows (v : State) (h : Half) {p : Nat} (hp : p < 3) :
    (clockRuns v h p).rf (clkReg h) 0 2 = p ∧ (clockRuns v h p).rf (clkReg h) 2 1 = 0
      ∧ (clockRuns v h p).rf (clkReg h) 32 32 = min (v.rf (clkReg h) 32 32 + 1) (2 ^ 32 - 1)
      ∧ (clockRuns v h p).rf .finish 4 2 = v.rf .finish 4 2 := by
  unfold clockRuns
  refine ⟨?_, ?_, ?_, ?_⟩
  · rw [State.rf_incRf_field _ _ _ _ _ _ _ (by decide), State.rf_setRf_field _ _ _ _ _ _ _ (by decide),
      State.rf_setRf_self _ _ _ _ _ (by decide), Nat.mod_eq_of_lt (by omega)]
  · rw [State.rf_incRf_field _ _ _ _ _ _ _ (by decide), State.rf_setRf_self _ _ _ _ _ (by decide)]
    rfl
  · rw [State.rf_incRf_self _ _ _ _ _ (by decide), State.rf_setRf_field _ _ _ _ _ _ _ (by decide),
      State.rf_setRf_field _ _ _ _ _ _ _ (by decide)]
  · rw [State.rf_incRf_ne _ _ _ _ _ _ (clkReg_ne_finish h), State.rf_setRf_ne _ _ _ _ _ _ (clkReg_ne_finish h),
      State.rf_setRf_ne _ _ _ _ _ _ (clkReg_ne_finish h)]

theorem resumed_resumes {s : State} {h : Half} {p : Nat} (hp : p < 3) (hoff : s.halfOff h = false) :
    Resumes s (resumed s h p) h p := by
  obtain ⟨t, hload, htake⟩ := takePoint_loads s h p
  generalize hv : (s.takePoint h p).setHalf h
    { (s.takePoint h p).half h with pll := none, locked := false, stopped := false } = v
  have hvt := hv.symm
  rw [htake, State.half_setHalf_self, setHalf_setHalf] at hvt
  have hrf : ∀ {r : Reg}, r.addr < lathBase + 0x1000000 → ∀ lo len, v.rf r lo len = s.rf r lo len :=
    fun hr lo len => by rw [hvt, rf_setHalf, hload.rf hr lo len]
  have hon : v.halfOff h = false := (halfOff_congr (hrf pwrState_low) h).trans hoff
  have htakes : HalfTakes s v h { s.half h with point := p, pll := none, locked := false, stopped := false } := by
    rw [hvt]
    exact hload.setHalf h _
  obtain ⟨hpoint, hruns, hcount, hcur⟩ := clockRuns_shows v h hp
  rw [hrf (clkReg_low h)] at hcount
  rw [hrf finish_low] at hcur
  have hu : HalfTakes s (clockRuns v h p) h { s.half h with point := p, pll := none, locked := false, stopped := false } :=
    htakes.regs _
  rw [resumed_eq hv.symm hon]
  generalize clockRuns v h p = u at *
  split
  · obtain ⟨hrest, hhalf, hother⟩ := hu.routersRun
    exact ⟨hrest, ⟨_, _, hhalf⟩, hother, (rf_routersRun u h (clkReg_ne_scrSeam h) ..).trans hpoint,
      (rf_routersRun u h (clkReg_ne_scrSeam h) ..).trans hruns, (rf_routersRun u h (clkReg_ne_scrSeam h) ..).trans hcount,
      (rf_routersRun u h (by decide) ..).trans hcur⟩
  · exact ⟨hu.rest, ⟨_, _, hu.half⟩, hu.other, hpoint, hruns, hcount, hcur⟩

theorem halfClock_resumes {s : State} {h : Half} {p : Nat} (hp : (s.half h).pll = some p) (hs : (s.half h).stopped = true) :
    exec (.halfClockResume h) s = .next (match h with
      | .west => { (resumed s h p).stopHalf .east with power := { (resumed s h p).power with step := .east } }
      | .east => if (resumed s h p).upward then (resumed s h p).finishDone
        else { resumed s h p with power := { (resumed s h p).power with step := .rampDown } }) := by
  have hexec : exec (.halfClockResume h) s = execHalfClockResume h s := rfl
  unfold execHalfClockResume at hexec
  dsimp only at hexec
  rw [hp] at hexec
  dsimp only at hexec
  rw [hs, Bool.not_true, if_neg Bool.false_ne_true] at hexec
  cases h
  · exact hexec
  · refine hexec.trans ?_
    exact (apply_ite Host.Outcome.next _ _ _).symm

/-- A half that stops for its change of point shows POINT 3. -/
theorem stopHalf_stops (s : State) (h : Half) : s.stopHalf h = { s with
      regs := (s.stopHalf h).regs, west := (s.stopHalf h).west, east := (s.stopHalf h).east }
    ∧ (s.stopHalf h).half h = { s.half h with stopped := true } ∧ (s.stopHalf h).half (otherHalf h) = s.half (otherHalf h)
    ∧ (s.stopHalf h).rf (clkReg h) 2 1 = 1 ∧ (s.stopHalf h).rf (clkReg h) 0 2 = 3
    ∧ ∀ a, a ≠ (clkReg h).addr → mapGet? (s.stopHalf h).regs a = mapGet? s.regs a := by
  unfold State.stopHalf
  generalize hu : s.setHalf h { s.half h with stopped := true } = u
  have hrest : u = { s with west := u.west, east := u.east } ∧ u.half h = { s.half h with stopped := true }
      ∧ u.half (otherHalf h) = s.half (otherHalf h) := by
    rw [← hu]
    cases h <;> exact ⟨rfl, rfl, rfl⟩
  have hregs : u.regs = s.regs := by rw [← hu, State.setHalf_regs]
  obtain ⟨hrest, hself, hother⟩ := hrest
  refine ⟨?_, (State.half_regs rfl rfl _).trans hself, (State.half_regs rfl rfl _).trans hother, ?_,
    State.rf_setRf_self _ _ _ _ _ (by decide), fun a ha => ?_⟩
  · simp only [State.setRf, State.setReg]
    rw [hrest]
  · rw [State.rf_setRf_field _ _ _ _ _ _ _ (by decide), State.rf_setRf_self _ _ _ _ _ (by decide)]
    rfl
  · rw [setRf_regs_ne _ _ _ _ ha, setRf_regs_ne _ _ _ _ ha, hregs]

theorem west_resumes {s : State} {p : Nat} (hp : p < 3) (hpll : s.west.pll = some p) (hs : s.west.stopped = true)
    (hoff : s.halfOff .west = false) : ∃ t, exec (.halfClockResume .west) s = .next t ∧ t.mem = s.mem ∧ t.cores = s.cores
      ∧ t.rf .clkWest 0 2 = p ∧ t.rf .clkWest 2 1 = 0 ∧ t.west.stopped = false ∧ t.west.pll = none ∧ t.power.step = .east
      ∧ t.west.point = p ∧ t.east.stopped = true ∧ t.rf .clkEast 2 1 = 1 ∧ t.rf .clkEast 0 2 = 3
      ∧ t.rf .clkWest 32 32 = min (s.rf .clkWest 32 32 + 1) (2 ^ 32 - 1) := by
  have hexec := halfClock_resumes (h := .west) hpll hs
  dsimp only at hexec
  obtain ⟨hrest, ⟨r, w, hhalf⟩, -, hpoint, hruns, hcount, -⟩ := resumed_resumes hp hoff
  generalize resumed s .west p = u at *
  have hmem : u.mem = s.mem := by rw [hrest]
  have hcores : u.cores = s.cores := by rw [hrest]
  obtain ⟨hrest', heast, hwest, hstop, hthree, hregs⟩ := stopHalf_stops u .east
  generalize u.stopHalf .east = v at *
  have hclk : ∀ lo len, v.rf .clkWest lo len = u.rf .clkWest lo len := fun lo len => rf_congr (hregs _ (by decide)) lo len
  have hwest' : v.west = u.west := hwest
  have heast' : v.east = { u.east with stopped := true } := heast
  have hhalf' : u.west = _ := hhalf
  refine ⟨_, hexec, ?_, ?_, (hclk ..).trans hpoint, (hclk ..).trans hruns, ?_, ?_, rfl, ?_, ?_, hstop, hthree,
    (hclk ..).trans hcount⟩
  · exact (congrArg State.mem hrest').trans hmem
  · exact (congrArg State.cores hrest').trans hcores
  · rw [hwest', hhalf']
  · rw [hwest', hhalf']
  · rw [hwest', hhalf']
  · rw [heast']

theorem east_resumes {s : State} {p : Nat} (hp : p < 3) (hpll : s.east.pll = some p) (hs : s.east.stopped = true)
    (hoff : s.halfOff .east = false) (h2 : s.power.target ≤ 2) :
    ∃ t, exec (.halfClockResume .east) s = .next t ∧ t.mem = s.mem ∧ t.cores = s.cores ∧ t.rf .clkEast 0 2 = p
      ∧ t.rf .clkEast 2 1 = 0 ∧ t.east.stopped = false ∧ t.east.pll = none ∧ t.east.point = p
      ∧ (s.rf .finish 4 2 < s.power.target → t.power.step = .none ∧ t.rf .finish 4 2 = s.power.target
        ∧ t.rf .finish 8 1 = 0 ∧ (s.power.target = 2 → t.rf .rlrState 0 1 = 1))
      ∧ (s.power.target ≤ s.rf .finish 4 2 → t.power.step = .rampDown ∧ t.rf .finish 4 2 = s.rf .finish 4 2) := by
  have hexec := halfClock_resumes (h := .east) hpll hs
  dsimp only at hexec
  obtain ⟨hrest, ⟨r, w, hhalf⟩, -, hpoint, hruns, -, hcur⟩ := resumed_resumes hp hoff
  generalize resumed s .east p = u at *
  have hpow : u.power = s.power := by rw [hrest]
  have hmem : u.mem = s.mem := by rw [hrest]
  have hcores : u.cores = s.cores := by rw [hrest]
  have heast : u.east = _ := hhalf
  have hup : u.upward = decide (s.rf .finish 4 2 < s.power.target) := by
    unfold State.upward
    rw [hcur, hpow]
  rw [hup] at hexec
  by_cases hlt : s.rf .finish 4 2 < s.power.target
  · rw [if_pos (decide_eq_true hlt)] at hexec
    obtain ⟨hdone, hcur', hidle, harms, hothers⟩ := finishDone_completes (s := u) (hpow ▸ h2)
    generalize u.finishDone = t at *
    have hclk : ∀ lo len, t.rf .clkEast lo len = u.rf .clkEast lo len := fun lo len =>
      rf_congr (hothers _ (by decide) (by decide)) lo len
    have heast' : t.east = u.east := by rw [hdone]
    refine ⟨t, hexec, ?_, ?_, (hclk ..).trans hpoint, (hclk ..).trans hruns, ?_, ?_, ?_, fun _ => ⟨?_, ?_, hidle, ?_⟩,
      fun hle => absurd hlt (Nat.not_lt.mpr hle)⟩
    · rw [hdone]
      exact hmem
    · rw [hdone]
      exact hcores
    · rw [heast', heast]
    · rw [heast', heast]
    · rw [heast', heast]
    · rw [hdone]
    · rw [hcur', hpow]
    · rw [← hpow]
      exact harms
  · rw [if_neg (by rw [decide_eq_false hlt]; exact Bool.false_ne_true)] at hexec
    refine ⟨_, hexec, hmem, hcores, hpoint, hruns, ?_, ?_, ?_, fun h => absurd h hlt, fun _ => ⟨rfl, hcur⟩⟩
    · exact congrArg HalfS.stopped heast
    · exact congrArg HalfS.pll heast
    · exact congrArg HalfS.point heast

end Sys2Proof.Machine
end

