-- ==== Sys2Proof/Proofs/RegisterRuns.lean ====
section
/-!
Runs over registers: each register of a list takes a value, and every other keeps its word.
-/

namespace Sys2Proof.Machine

/-- Each register of a list holds its value, and only registers of the list have changed. -/
structure WritesRegs (s : State) (f : Nat → Reg) (v : Nat → Word) (l : List Nat) (t : State) : Prop where
  rest : t = { s with regs := t.regs }
  value : ∀ i ∈ l, mapGet? t.regs (f i).addr = some (v i)
  others : ∀ a, (∀ i ∈ l, a ≠ (f i).addr) → mapGet? t.regs a = mapGet? s.regs a

/-- A run of writes whose values the registers of the run do not decide. -/
theorem foldl_writesRegs {s : State} {f : Nat → Reg} {v : Nat → Word} {l : List Nat} (g : State → Nat → Word)
    (hsame : ∀ i ∈ l, ∀ j ∈ l, (f i).addr = (f j).addr → v i = v j)
    (hg : ∀ t i, i ∈ l → t = { s with regs := t.regs } →
      (∀ a, (∀ j ∈ l, a ≠ (f j).addr) → mapGet? t.regs a = mapGet? s.regs a) → g t i = v i) :
    WritesRegs s f v l (l.foldl (fun t i => t.setReg (f i) (g t i)) s) := by
  induction l using List.reverseRecOn with
  | nil => exact ⟨rfl, nofun, fun _ _ => rfl⟩
  | append_singleton l q ih =>
    have hsub : ∀ i ∈ l, i ∈ l ++ [q] := fun i hi => List.mem_append_left _ hi
    have hq : q ∈ l ++ [q] := List.mem_append_right _ (List.mem_singleton_self q)
    obtain ⟨hrest, hvalue, hothers⟩ := ih (fun i hi j hj => hsame i (hsub i hi) j (hsub j hj)) fun t i hi ht hframe =>
      hg t i (hsub i hi) ht fun a ha => hframe a fun j hj => ha j (hsub j hj)
    rw [List.foldl_append]
    generalize l.foldl (fun t i => t.setReg (f i) (g t i)) s = u at *
    have hval : g u q = v q := hg u q hq hrest fun a ha => hothers a fun j hj => ha j (hsub j hj)
    refine ⟨?_, fun i hi => ?_, fun a ha => ?_⟩
    · generalize u.regs = r at hrest
      subst hrest
      rfl
    · refine (congrArg (fun w => mapGet? (mapSet u.regs (f q).addr w) (f i).addr) hval).trans ?_
      by_cases h : (f i).addr = (f q).addr
      · rw [h, mapGet?_set_self, hsame i hi q hq h]
      · rw [mapGet?_set_ne _ _ h]
        rcases List.mem_append.mp hi with hi | hi
        · exact hvalue i hi
        · exact absurd (congrArg (fun n => (f n).addr) (List.mem_singleton.mp hi)) h
    · exact (mapGet?_set_ne _ _ (ha q hq)).trans (hothers a fun j hj => ha j (hsub j hj))

/-- A run of writes of given values. -/
theorem foldl_setReg {s : State} (f : Nat → Reg) (v : Nat → Word) (l : List Nat)
    (hsame : ∀ i ∈ l, ∀ j ∈ l, (f i).addr = (f j).addr → v i = v j) :
    WritesRegs s f v l (l.foldl (fun t i => t.setReg (f i) (v i)) s) :=
  foldl_writesRegs (fun _ i => v i) hsame fun _ _ _ _ _ => rfl

theorem WritesRegs.reg {s t : State} {f : Nat → Reg} {v : Nat → Word} {l : List Nat} (h : WritesRegs s f v l t) {i : Nat}
    (hi : i ∈ l) : t.reg (f i) = v i := by
  unfold State.reg mapGet
  rw [h.value i hi]
  rfl

theorem WritesRegs.reg_ne {s t : State} {f : Nat → Reg} {v : Nat → Word} {l : List Nat} (h : WritesRegs s f v l t) {r : Reg}
    (hr : ∀ i ∈ l, r.addr ≠ (f i).addr) : t.reg r = s.reg r := reg_congr (h.others _ hr)

end Sys2Proof.Machine
end

