-- ==== Sys2Proof/Proofs/PowerStates.lean ====
section
/-!
O54, the power states (17 R566-R573): the entry and the wake of a core, a half, the hod, the render memory and the module; with
the change of finish, the obligation.
-/

namespace Sys2Proof.Machine

theorem rf_bit_zero {s : State} {r : Reg} {i : Nat} : ¬ s.rf r i 1 = 1 ↔ s.rf r i 1 = 0 := by
  have : s.rf r i 1 < 2 := fld_lt ..
  omega

theorem flooring_false {s : State} : s.flooring = false ↔ s.rf .power 32 1 = 0 := by
  unfold State.flooring
  rw [decide_eq_false_iff_not]
  exact rf_bit_zero

theorem drained_iff {c : Core} : c.drained = true ↔ ∀ u, c.q u = [] := by
  refine ⟨fun h u => ?_, drained_of_empty⟩
  have hall := List.all_eq_true.mp h u (by cases u <;> decide)
  exact List.isEmpty_iff.mp hall

/-! ### Cores -/

theorem coreEntry (s : State) (lc : Nat) :
    let c := s.core lc
    let may : Prop := s.valid lc = true ∧ (c.st = .sleeping ∨ c.st = .idle ∨ c.st = .done)
      ∧ (∀ u, c.q u = []) ∧ 3 ≤ s.coreTol lc ∧ s.rf .power 32 1 = 0 ∧ s.halfOff (halfOf (s.siteOf lc)) = false
    (may → ∃ t, exec (.powerStateEntry (.core lc)) s = .next t ∧ t = { s with power := t.power }
      ∧ t.power = { s.power with pgated := t.power.pgated }
      ∧ ∀ k, setHas t.power.pgated k = (decide (k = lc) || setHas s.power.pgated k))
    ∧ (¬ may → exec (.powerStateEntry (.core lc)) s = .next s) := by
  intro c may
  have hmay : may ↔ s.valid lc ∧ (c.st = .sleeping ∨ c.st = .idle ∨ c.st = .done) ∧ c.drained ∧ 3 ≤ s.coreTol lc
      ∧ !s.flooring ∧ !s.halfOff (halfOf (s.siteOf lc)) := by
    rw [drained_iff, Bool.not_eq_true', Bool.not_eq_true', flooring_false]
  have hexec : exec (.powerStateEntry (.core lc)) s = execPowerStateEntry (.core lc) s := rfl
  unfold execPowerStateEntry at hexec
  dsimp only at hexec
  refine ⟨fun h => ?_, fun h => hexec.trans (congrArg Host.Outcome.next (if_neg fun hc => h (hmay.mpr hc)))⟩
  refine ⟨_, hexec.trans (congrArg Host.Outcome.next (if_pos (hmay.mp h))), rfl, rfl, fun k => ?_⟩
  exact (setHas_add ..).trans (by rw [beq_eq_decide])

theorem coreWake (s : State) (lc : Nat) : ∃ t, exec (.powerStateWake (.core lc)) s = .next t ∧ t = { s with power := t.power }
    ∧ ∀ k, setHas t.power.pgated k = (decide (k ≠ lc) && setHas s.power.pgated k) := by
  refine ⟨_, rfl, rfl, fun k => (setHas_del ..).trans ?_⟩
  by_cases hk : k = lc <;> simp [hk]

/-! ### Halves -/

/-- A core of a half. -/
def InHalf (s : State) (h : Half) (n : Nat) : Prop := n < 144 ∧ s.valid n = true ∧ halfOf (s.siteOf n) = h

/-- A half may go off (17 R566). -/
def HalfMayGo (s : State) (h : Half) : Prop :=
  s.halfOff h = false ∧ 60 ≤ s.tolerance ∧ s.rf .power 32 1 = 0 ∧ (s.half h).stopped = false
    ∧ ∀ n, InHalf s h n → ((s.core n).st = .idle ∨ (s.core n).st = .done) ∧ (∀ u, (s.core n).q u = [])
      ∧ s.launchNames n = false

theorem halfMayGo_iff (s : State) (h : Half) : HalfMayGo s h ↔ !s.halfOff h ∧ 60 ≤ s.tolerance ∧ !s.flooring
    ∧ !(s.half h).stopped ∧ (s.coresOf h).all (fun n =>
      ((s.core n).st == .idle || (s.core n).st == .done) && (s.core n).drained && !s.launchNames n) := by
  rw [HalfMayGo, Bool.not_eq_true', Bool.not_eq_true', Bool.not_eq_true', flooring_false]
  simp only [State.coresOf, List.all_eq_true, List.mem_filter, List.mem_range, Bool.and_eq_true, Bool.or_eq_true, beq_iff_eq,
    decide_eq_true_eq, Bool.not_eq_true', drained_iff, InHalf, and_assoc]

theorem core_filter (cores : FMap Core) (p : Nat → Bool) (n : Nat) :
    mapGet (cores.filter fun e => p e.1) n Core.zero = if p n = true then mapGet cores n Core.zero else Core.zero := by
  unfold mapGet
  rw [mapGet?_filter]
  split <;> rfl

theorem loseHalf_core (s : State) (h : Half) (n : Nat) :
    (s.loseHalf h).core n = if s.valid n = true ∧ halfOf (s.siteOf n) = h then Core.zero else s.core n := by
  refine (core_filter s.cores (fun n => !(s.valid n && decide (halfOf (s.siteOf n) = h))) n).trans ?_
  have hkeep : (!(s.valid n && decide (halfOf (s.siteOf n) = h))) = true ↔ ¬ (s.valid n = true ∧ halfOf (s.siteOf n) = h) := by
    simp only [Bool.not_eq_true', ← Bool.not_eq_true, Bool.and_eq_true, decide_eq_true_eq]
  by_cases hn : s.valid n = true ∧ halfOf (s.siteOf n) = h
  · rw [if_pos hn, if_neg fun hk => hkeep.mp hk hn]
  · rw [if_neg hn, if_pos (hkeep.mpr hn)]
    rfl

theorem loseHalf_mem (s : State) (h : Half) (k : Nat) : memGet (s.loseHalf h).mem k
    = if 2 ^ 45 ≤ k ∧ k < 2 ^ 46 ∧ halfOf ((k - 2 ^ 45) / 2 ^ 21) = h then 0 else memGet s.mem k := by
  refine (memGet_filter (fun k => !(decide (2 ^ 45 ≤ k) && decide (k < 2 ^ 46)
    && decide (halfOf ((k - 2 ^ 45) / 2 ^ 21) = h))) s.mem k).trans ?_
  have hkeep : (!(decide (2 ^ 45 ≤ k) && decide (k < 2 ^ 46) && decide (halfOf ((k - 2 ^ 45) / 2 ^ 21) = h))) = true
      ↔ ¬ (2 ^ 45 ≤ k ∧ k < 2 ^ 46 ∧ halfOf ((k - 2 ^ 45) / 2 ^ 21) = h) := by
    simp only [Bool.not_eq_true', ← Bool.not_eq_true, Bool.and_eq_true, decide_eq_true_eq, and_assoc]
  by_cases hk : 2 ^ 45 ≤ k ∧ k < 2 ^ 46 ∧ halfOf ((k - 2 ^ 45) / 2 ^ 21) = h
  · rw [if_pos hk, if_neg fun h => hkeep.mp h hk]
  · rw [if_neg hk, if_pos (hkeep.mpr hk)]

/-- The registers of a half that goes off or comes back: its bit of MC_PWR_STATE, and POINT. -/
theorem halfGoes_regs (s : State) (h : Half) (x : HalfS) :
    let t := ((s.setRf .pwrState (offBit h) 1 1).setRf (clkReg h) 0 2 3).setHalf h x
    t.halfOff h = true ∧ t.half h = x ∧ t.cores = s.cores ∧ t.mem = s.mem := by
  intro t
  refine ⟨(halfOff_iff t h).mpr ?_, State.half_setHalf_self .., State.setHalf_cores .., State.setHalf_mem ..⟩
  rw [rf_setHalf, State.rf_setRf_ne _ _ _ _ _ _ (clkReg_ne_pwrState h), State.rf_setRf_self _ _ _ _ _ (by cases h <;> decide)]
  rfl

theorem halfEntry (s : State) (h : Half) :
    (HalfMayGo s h → ∃ t, exec (.powerStateEntry (.half h)) s = .next t ∧ t.halfOff h = true ∧ (t.half h).routers = false
      ∧ (∀ n, InHalf s h n → t.core n = Core.zero)
      ∧ (∀ n, n < 144 → ¬ InHalf s h n → s.valid n = true → t.core n = s.core n)
      ∧ ∀ k, memGet t.mem k = if 2 ^ 45 ≤ k ∧ k < 2 ^ 46 ∧ halfOf ((k - 2 ^ 45) / 2 ^ 21) = h then 0 else memGet s.mem k)
    ∧ (¬ HalfMayGo s h → exec (.powerStateEntry (.half h)) s = .next s) := by
  have hexec : exec (.powerStateEntry (.half h)) s = execPowerStateEntry (.half h) s := rfl
  unfold execPowerStateEntry at hexec
  dsimp only at hexec
  refine ⟨fun hgo => ?_, fun hno => hexec.trans (congrArg Host.Outcome.next (if_neg fun hc => hno ((halfMayGo_iff s h).mpr hc)))⟩
  refine ⟨_, hexec.trans (congrArg Host.Outcome.next (if_pos ((halfMayGo_iff s h).mp hgo))), ?_⟩
  obtain ⟨hoff, hhalf, hcores, hmem⟩ := halfGoes_regs (s.loseHalf h) h { (s.loseHalf h).half h with routers := false }
  dsimp only at hoff hhalf hcores hmem ⊢
  generalize State.setHalf _ h _ = t at *
  have hcore : ∀ n, t.core n = (s.loseHalf h).core n := fun n => by unfold State.core; rw [hcores]
  refine ⟨hoff, by rw [hhalf], fun n hn => ?_, fun n hlt hn hv => ?_, fun k => by rw [hmem, loseHalf_mem]⟩
  · rw [hcore, loseHalf_core, if_pos hn.2]
  · rw [hcore, loseHalf_core, if_neg fun hg => hn ⟨hlt, hg⟩]

/-! ### The wake of a half, hod and render -/

/-- A part leaves its state: of registers MC_PWR_STATE and MC_RLR_STATE alone. -/
theorem wakeRender_wakes (s : State) : s.wakeRender = { s with regs := s.wakeRender.regs }
    ∧ s.wakeRender.rf .pwrState 11 1 = 0 ∧ (∀ lo len, lo + len ≤ 11 ∨ 12 ≤ lo →
      s.wakeRender.rf .pwrState lo len = s.rf .pwrState lo len)
    ∧ ∀ a, a ≠ Reg.pwrState.addr → a ≠ Reg.rlrState.addr → mapGet? s.wakeRender.regs a = mapGet? s.regs a := by
  unfold State.wakeRender
  refine ⟨rfl, ?_, fun lo len h => ?_, fun a ha hb => ?_⟩
  · rw [State.rf_setRf_ne _ _ _ _ _ _ (by decide), State.rf_setRf_self _ _ _ _ _ (by decide)]
    rfl
  · rw [State.rf_setRf_ne _ _ _ _ _ _ (by decide), State.rf_setRf_field _ _ _ _ _ _ _ (by omega)]
  · rw [setRf_regs_ne _ _ _ _ hb, setRf_regs_ne _ _ _ _ ha]

theorem fld_two {n : Nat} (w : BitVec n) (lo : Nat) : fld w lo 2 = fld w lo 1 + 2 * fld w (lo + 1) 1 := by
  unfold fld
  have hdiv : w.toNat / 2 ^ (lo + 1) = w.toNat / 2 ^ lo / 2 := by rw [Nat.pow_succ, Nat.div_div_eq_div_mul]
  rw [hdiv]
  omega

/-- The hod leaves retention, and with it the render memory its self-refresh. -/
theorem hodWakes (s : State) : ((s.setRf .pwrState 10 1 0).wakeRender).rf .pwrState 10 2 = 0 := by
  obtain ⟨-, h11, hkeep, -⟩ := wakeRender_wakes (s.setRf .pwrState 10 1 0)
  have h10 := (hkeep 10 1 (by decide)).trans (s.rf_setRf_self .pwrState 10 1 0 (by decide))
  unfold State.rf at *
  rw [fld_two, h10, h11]
  rfl

theorem hodWake {s : State} (h : s.rf .pwrState 10 1 = 1) (hm : s.rf .pwrState 12 1 = 0) :
    ∃ t, exec (.powerStateWake .hod) s = .next t ∧ t = { s with regs := t.regs } ∧ t.rf .pwrState 10 2 = 0 :=
  ⟨_, congrArg Host.Outcome.next (if_pos ⟨h, hm⟩), rfl, hodWakes s⟩

theorem renderWake {s : State} (h : s.rf .pwrState 11 1 = 1) (hm : s.rf .pwrState 12 1 = 0) :
    ∃ t, exec (.powerStateWake .render) s = .next t ∧ t = { s with regs := t.regs } ∧ t.rf .pwrState 11 1 = 0 :=
  ⟨_, congrArg Host.Outcome.next (if_pos ⟨h, hm⟩), rfl, (wakeRender_wakes s).2.1⟩

theorem wakePoint_idle {s : State} (h : Half) (hs : s.power.step = .none) : s.wakePoint h = s.rf .finish 4 2 := by
  unfold State.wakePoint
  rw [hs]
  cases h <;> rfl

/-- A half that wakes at a point. -/
def wokenHalf (s : State) (h : Half) (p : Nat) : State :=
  ((s.takePoint h p).setRf (clkReg h) 0 2 p).routersRun h

theorem wokenHalf_wakes (s : State) (h : Half) {p : Nat} (hp : p < 4) :
    (wokenHalf s h p).mem = s.mem ∧ (wokenHalf s h p).cores = s.cores ∧ ((wokenHalf s h p).half h).routers = true
      ∧ ((wokenHalf s h p).half h).point = p ∧ (wokenHalf s h p).rf (clkReg h) 0 2 = p
      ∧ ∀ lo len, (wokenHalf s h p).rf .pwrState lo len = s.rf .pwrState lo len := by
  obtain ⟨t, hload, htake⟩ := takePoint_loads s h p
  have hset := (hload.setHalf h { s.half h with point := p }).regs
    ((t.setHalf h { s.half h with point := p }).setRf (clkReg h) 0 2 p).regs
  obtain ⟨hrest, hhalf, -⟩ := hset.routersRun
  have hrest' : wokenHalf s h p = _ := (congrArg (fun u : State => (u.setRf (clkReg h) 0 2 p).routersRun h) htake).trans hrest
  have hhalf' := (congrArg (fun u : State => ((u.setRf (clkReg h) 0 2 p).routersRun h).half h) htake).trans hhalf
  refine ⟨?_, ?_, ?_, ?_, ?_, fun lo len => ?_⟩
  · rw [hrest']
  · rw [hrest']
  · exact congrArg HalfS.routers hhalf'
  · exact congrArg HalfS.point hhalf'
  · exact (rf_routersRun _ h (clkReg_ne_scrSeam h) ..).trans
      ((State.rf_setRf_self _ _ _ _ _ (by decide)).trans (Nat.mod_eq_of_lt hp))
  · refine (rf_routersRun _ h (by decide) ..).trans ((State.rf_setRf_ne _ _ _ _ _ _ (clkReg_ne_pwrState h)).trans ?_)
    rw [htake, rf_setHalf, hload.rf pwrState_low]

theorem halfWake {s : State} {h : Half} (hoff : s.halfOff h = true) (hm : s.rf .pwrState 12 1 = 0)
    (hs : s.power.step = .none) (hc : (s.half h).stopped = false) :
    ∃ t, exec (.powerStateWake (.half h)) s = .next t ∧ t.mem = s.mem ∧ t.cores = s.cores ∧ t.halfOff h = false
      ∧ (t.half h).routers = true ∧ t.rf .pwrState 10 2 = 0 ∧ t.rf (clkReg h) 0 2 = s.rf .finish 4 2
      ∧ (t.half h).point = s.rf .finish 4 2 := by
  have hexec : exec (.powerStateWake (.half h)) s = .next (s.wakeHalf h) := rfl
  unfold State.wakeHalf at hexec
  rw [if_pos (by rw [hoff, hm]; rfl)] at hexec
  generalize hv : State.setRf s .pwrState (offBit h) 1 0 = v at hexec
  obtain ⟨hrest, -, hkeep, hothers⟩ := wakeRender_wakes (v.setRf .pwrState 10 1 0)
  have hten := hodWakes v
  generalize State.wakeRender _ = u at *
  have hfields : u.mem = s.mem ∧ u.cores = s.cores ∧ u.half h = s.half h ∧ u.power = s.power := by
    rw [hrest, ← hv]
    cases h <;> exact ⟨rfl, rfl, rfl, rfl⟩
  obtain ⟨hmem, hcores, hhalf, hpow⟩ := hfields
  have hoff' : u.rf .pwrState (offBit h) 1 = 0 := by
    rw [hkeep _ _ (.inl (by cases h <;> decide)), State.rf_setRf_field _ _ _ _ _ _ _ (.inl (by cases h <;> decide)), ← hv,
      State.rf_setRf_self _ _ _ _ _ (by cases h <;> decide)]
    rfl
  have hcur : u.rf .finish 4 2 = s.rf .finish 4 2 := by
    have hne : Reg.finish.addr ≠ Reg.pwrState.addr := by decide
    refine rf_congr ((hothers _ hne (by decide)).trans ?_) ..
    rw [setRf_regs_ne _ _ _ _ hne, ← hv, setRf_regs_ne _ _ _ _ hne]
  dsimp only at hexec
  rw [hhalf, hc, if_neg Bool.false_ne_true, wakePoint_idle h (hpow ▸ hs), hcur] at hexec
  obtain ⟨hmem', hcores', hrouters, hpoint, hclk, hpwr⟩ := wokenHalf_wakes u h (p := s.rf .finish 4 2) (fld_lt ..)
  refine ⟨wokenHalf u h (s.rf .finish 4 2), hexec, hmem'.trans hmem, hcores'.trans hcores, ?_, hrouters, ?_, hclk, hpoint⟩
  · rw [halfOff_congr hpwr, ← Bool.not_eq_true, halfOff_iff, hoff']
    decide
  · rw [hpwr, hten]

theorem halfWake_running {s : State} {h : Half} (hoff : s.halfOff h = false) : exec (.powerStateWake (.half h)) s = .next s :=
  congrArg Host.Outcome.next (if_neg (by rw [hoff]; exact Bool.false_ne_true))

/-! ### The entries of hod, render and module -/

theorem hodEntry {s : State} (hw : s.halfOff .west = true) (he : s.halfOff .east = true) (ht : 2000 ≤ s.tolerance) :
    ∃ t, exec (.powerStateEntry .hod) s = .next t
      ∧ t = { s.setRf .pwrState 10 1 1 with power := { s.power with awake := t.power.awake } }
      ∧ (∀ i, i < 168 → setHas t.power.awake i = false)
      ∧ ∀ i, 168 ≤ i → setHas t.power.awake i = setHas s.power.awake i := by
  refine ⟨_, congrArg Host.Outcome.next (if_pos ⟨hw, he, ht⟩), rfl, fun i hi => ?_, fun i hi => ?_⟩
  · exact (setHas_filter (fun n => decide (168 ≤ n)) ..).trans (by rw [decide_eq_false (by omega), Bool.false_and])
  · exact (setHas_filter (fun n => decide (168 ≤ n)) ..).trans (by rw [decide_eq_true hi, Bool.true_and])

theorem renderEntry {s : State} (h : s.rf .pwrState 10 1 = 1) (ht : 8000 ≤ s.tolerance) :
    ∃ t, exec (.powerStateEntry .render) s = .next t
      ∧ t = { s with regs := t.regs, rows := [], power := { s.power with awake := t.power.awake } }
      ∧ t.rf .pwrState 11 1 = 1 ∧ t.rf .rlrState 16 8 = 0xFF ∧ ∀ i, 168 ≤ i → setHas t.power.awake i = false := by
  let u := (s.setRf .pwrState 11 1 1).setRf .rlrState 16 8 0xFF
  have hpwr : u.rf .pwrState 11 1 = 1 := by
    rw [State.rf_setRf_ne _ _ _ _ _ _ (by decide), State.rf_setRf_self _ _ _ _ _ (by decide)]
    rfl
  have hrlr : u.rf .rlrState 16 8 = 0xFF := State.rf_setRf_self _ _ _ _ _ (by decide)
  refine ⟨_, congrArg Host.Outcome.next (if_pos ⟨h, ht⟩), rfl, hpwr, hrlr, fun i hi => ?_⟩
  exact (setHas_filter (fun n => decide (n < 168)) ..).trans (by rw [decide_eq_false (by omega), Bool.false_and])

theorem flushCache_clean {s : State} (h : ∀ x ∈ s.rc, ∀ l ∈ x.2, l.dirty = false) : s.flushCache = s := by
  have hlines : (s.rc.flatMap fun (x : Nat × List RcLine) => x.2.filter (·.dirty)) = [] := by
    rw [List.flatMap_eq_nil_iff]
    intro x hx
    rw [List.filter_eq_nil_iff]
    intro l hl
    rw [h x hx l hl]
    exact Bool.false_ne_true
  have hsame : (s.rc.map fun (x : Nat × List RcLine) => (x.1, x.2.map fun (l : RcLine) => { l with dirty := false })) = s.rc := by
    refine (List.map_congr_left fun x hx => ?_).trans (List.map_id _)
    refine Prod.ext rfl ((List.map_congr_left fun l hl => ?_).trans (List.map_id _))
    have := h x hx l hl
    obtain ⟨⟩ := l
    subst this
    rfl
  unfold State.flushCache
  dsimp only
  rw [hlines, hsame]
  rfl

theorem rcDirty_clean {s : State} (h : ∀ x ∈ s.rc, ∀ l ∈ x.2, l.dirty = false) (hw : s.rcWait = []) : s.rcDirty = false := by
  have hany : (s.rc.any fun e => e.2.any (·.dirty)) = false := by
    rw [List.any_eq_false]
    intro x hx
    rw [Bool.not_eq_true, List.any_eq_false]
    intro l hl
    rw [h x hx l hl]
    exact Bool.false_ne_true
  unfold State.rcDirty
  rw [hw, hany]
  rfl

/-- The module sleeps: what it loses, and the peers and packet numbers that it keeps (17 R566). -/
structure Sleeps (s t : State) : Prop where
  asleep : t.rf .pwrState 12 1 = 1
  cores : ∀ n, t.core n = Core.zero
  ports : ∀ p, p < 16 → t.portState p = 0 ∧ (t.port p).peer = (s.port p).peer
  scopes : t.sec.scopes = 0
  nonce : t.sec.nonce = none
  flows : ∀ d v i, (t.flow d v i).next = (s.flow d v i).next
  mem : ∀ k, memGet t.mem k = if k < 2 ^ 45 then memGet s.mem k else 0

theorem klkStatus_ne_pwrState {p : Nat} (hp : p < 16) : (Reg.klkStatus p).addr ≠ Reg.pwrState.addr := by
  intro h
  unfold Reg.addr lathBase at h
  dsimp only at h
  omega

/-- A flow that is not listed has sent nothing. -/
theorem flow_next (s : State) (d v i : Nat) :
    (s.flow d v i).next = ((mapGet? s.tx (flowKey d v i)).map TxFlow.next).getD 0 := by
  unfold State.flow mapGet
  cases mapGet? s.tx (flowKey d v i) <;> rfl

theorem asleep_sleeps (s : State) : Sleeps s s.asleep := by
  obtain ⟨u, c, hend⟩ := endScopes_rest s
  have hports0 := foldl_setReg (s := s.endScopes) Reg.klkStatus (fun _ => 0) (List.range 16) fun _ _ _ _ _ => rfl
  obtain ⟨r, hoff⟩ : ∃ r, (List.range 16).foldl (fun (s : State) p => s.setReg (.klkStatus p) 0) s.endScopes
      = { s.endScopes with regs := r } := ⟨_, hports0.rest⟩
  rw [hoff] at hports0
  have hstate : s.asleep.regs = (({ s.endScopes with regs := r } : State).setRf .pwrState 12 1 1).regs := by
    unfold State.asleep
    dsimp only
    rw [hoff]
  have hfields : s.asleep.cores = [] ∧ s.asleep.sec = s.endScopes.sec
      ∧ s.asleep.ports = s.endScopes.ports.map (fun (e : Nat × Port) =>
        (e.1, { Port.zero with peer := e.2.peer, coef := e.2.coef, coefPeer := e.2.coefPeer }))
      ∧ s.asleep.mem = s.endScopes.mem.filter (fun e => decide (e.1 < 2 ^ 45)) := by
    unfold State.asleep
    dsimp only
    rw [hoff]
    exact ⟨rfl, rfl, rfl, rfl⟩
  have hflows : ∃ port : TxFlow → Nat, s.asleep.tx = s.endScopes.tx.map fun (e : Nat × TxFlow) =>
      (e.1, { e.2 with port := port e.2, relay := none, unacked := [], held := [], failed := [] }) := by
    unfold State.asleep
    dsimp only
    rw [hoff]
    exact ⟨fun f => ({ s.endScopes with regs := r } : State).homePort f.dst.toNat f.stripe, rfl⟩
  obtain ⟨hcores, hsec, hports, hmem⟩ := hfields
  obtain ⟨port, htx⟩ := hflows
  rw [hend] at hsec hports hmem htx
  refine ⟨?_, fun n => ?_, fun p hp => ⟨?_, ?_⟩, ?_, ?_, fun d v i => ?_, fun k => ?_⟩
  · rw [rf_of_regs hstate, State.rf_setRf_self _ _ _ _ _ (by decide)]
    rfl
  · unfold State.core
    rw [hcores]
    rfl
  · unfold State.portState
    rw [rf_of_regs hstate, State.rf_setRf_ne _ _ _ _ _ _ (klkStatus_ne_pwrState hp)]
    unfold State.rf
    rw [hports0.reg (List.mem_range.mpr hp)]
    rfl
  · unfold State.port mapGet
    rw [hports, mapGet?_map]
    cases mapGet? s.ports p <;> rfl
  · rw [hsec]
  · rw [hsec]
  · rw [flow_next, flow_next, htx, mapGet?_map, Option.map_map]
    rfl
  · rw [hmem, memGet_filter (fun k => decide (k < 2 ^ 45))]
    simp only [decide_eq_true_eq]

theorem moduleEntry {s : State} (hr : s.rf .pwrState 11 1 = 1) (hm : s.rf .pwrState 12 1 = 0) (hd : s.power.d3 = true)
    (ht : 250000 ≤ s.tolerance) (hw : s.rcWait = []) (hrc : ∀ x ∈ s.rc, ∀ l ∈ x.2, l.dirty = false) :
    exec (.powerStateEntry .module) s
      = .next (if bitAt (BitVec.ofNat 3 s.sec.scopes) 2 then s.relock else s.asleep) := by
  have hexec : exec (.powerStateEntry .module) s = execPowerStateEntry .module s := rfl
  unfold execPowerStateEntry at hexec
  dsimp only at hexec
  rw [if_pos ⟨hr, hm, hd, ht⟩, flushCache_clean hrc, rcDirty_clean hrc hw, if_neg Bool.false_ne_true] at hexec
  exact hexec

/-- The SCAN scope. -/
theorem scan_iff {n : Nat} (h : n < 8) : bitAt (BitVec.ofNat 3 n) 2 = true ↔ 4 ≤ n := by
  unfold bitAt
  interval_cases n <;> decide

theorem moduleEntry_scan {s : State} (h4 : 4 ≤ s.sec.scopes) (h8 : s.sec.scopes < 8) :
    (if bitAt (BitVec.ofNat 3 s.sec.scopes) 2 then s.relock else s.asleep) = s.fullReset := by
  have hscan := (scan_iff h8).mpr h4
  rw [if_pos hscan, State.relock, if_pos hscan]

theorem moduleEntry_plain {s : State} (h4 : s.sec.scopes < 4) :
    (if bitAt (BitVec.ofNat 3 s.sec.scopes) 2 then s.relock else s.asleep) = s.asleep :=
  if_neg fun h => absurd ((scan_iff (by omega)).mp h) (by omega)

/-- Settles O54: a change of finish by its steps, a power state by the conditions of R566 and what each part loses. -/
theorem finishChangesAndPowerStates : Obligations.FinishChangesAndPowerStates := by
  refine ⟨fun s req w hreq hrec hload => finishRequest_sets w hreq hrec hload,
    fun s hw hb hr => finishChange_accepted hw hb hr, fun s h => finishChange_refused h, fun s h p hp hl => ?_, fun s => ?_,
    fun s p hp => ⟨fun hpll hs hoff => west_resumes hp hpll hs hoff, fun hpll hs hoff h2 => east_resumes hp hpll hs hoff h2⟩,
    fun s lc => ⟨rfl, rfl, coreEntry s lc, coreWake s lc⟩, fun s h => ?_, fun s => ?_⟩
  · intro up other
    obtain ⟨hgo, hwait⟩ := pllLock_locks hp hl
    have hup : s.upward = true ↔ up := decide_eq_true_iff
    have hother : other = s.half (otherHalf h) := by cases h <;> rfl
    rw [hother, ← hup]
    exact ⟨hgo, fun hno => hwait (Bool.eq_false_iff.mpr hno)⟩
  · exact ⟨railRamp_up, railRamp_down⟩
  · intro mine may
    obtain ⟨hgo, hstay⟩ := halfEntry s h
    exact ⟨hgo, hstay, halfWake, halfWake_running⟩
  · refine ⟨hodEntry, renderEntry, fun hr hm hd ht hw hrc => ?_, fun hm => ⟨fun h => hodWake h hm, fun h => renderWake h hm⟩, rfl⟩
    have hexec := moduleEntry hr hm hd ht hw hrc
    refine ⟨fun h4 h8 => ?_, fun h4 => ?_⟩
    · rw [moduleEntry_scan h4 h8] at hexec
      exact ⟨_, hexec, fullReset_leaves s, fullReset_keepsImages s⟩
    · rw [moduleEntry_plain h4] at hexec
      obtain ⟨hasleep, hcores, hports, hscopes, hnonce, hflows, hmem⟩ := asleep_sleeps s
      exact ⟨_, hexec, hasleep, hcores, hports, hscopes, hnonce, hflows, hmem⟩

end Sys2Proof.Machine
end

