-- ==== Sys2Proof/Proofs/FunctionResets.lean ====
section
/-!
O51, the PCI Express function (14): its reset with no block copy under way, configuration requests, and a completion that
brings host bytes.
-/

namespace Sys2Proof.Machine

/-! ### A reset of the function (14 R486) -/

theorem mapGet?_mem {α : Type} {m : FMap α} {n : Nat} {v : α} (h : mapGet? m n = some v) : (n, v) ∈ m := by
  induction m with
  | nil => cases h
  | cons e m ih =>
    obtain ⟨k, w⟩ := e
    unfold mapGet? at h
    split at h
    next hk =>
      cases h
      exact hk ▸ List.mem_cons_self
    next => exact List.mem_cons_of_mem _ (ih h)

section
variable {s : State} (h : ∀ x ∈ s.cores, x.2.movQ = [])
include h

theorem core_movQ_idle (n : Nat) : (s.core n).movQ = [] := by
  unfold State.core mapGet
  cases hc : mapGet? s.cores n with
  | none => rfl
  | some c => exact h _ (mapGet?_mem hc)

theorem barCopies_idle (code : Nat) (hit : Nat → BlkMove → Bool) : s.barCopies code hit = s := by
  have hcores : (s.barCopies code hit).cores = s.cores := by
    refine (List.map_congr_left fun x hx => ?_).trans (List.map_id _)
    refine Prod.ext rfl ?_
    have hq := h x hx
    exact congrArg (fun q => ({ x.2 with movQ := q } : Core)) (by rw [hq]; exact hq.symm)
  rw [barCopies_rest, hcores]

theorem endHost_idle : s.endHost = s := by
  unfold State.endHost
  rw [barCopies_idle h]
  refine List.foldlRecOn (motive := fun t => t = s) s.cores _ rfl fun t ht c _ => ?_
  subst ht
  dsimp only
  rw [core_movQ_idle h]
  rfl

end

theorem pciSlot_addr (i : Nat) : (Reg.pciSlot i).addr = lathBase + 0xA40 + 8 * i := rfl
theorem pciHwin_addr (k : Nat) : (Reg.pciHwin k).addr = lathBase + 0xB40 + 8 * k := rfl

/-- Every launch slot waits for SEQ 1. -/
theorem clearSlots_clears (s : State) : s.clearSlots = { s with regs := s.clearSlots.regs, slots := [] }
    ∧ (∀ i, i < 32 → s.clearSlots.reg (.pciSlot i) = 1)
    ∧ ∀ a, (∀ i, i < 32 → a ≠ (Reg.pciSlot i).addr) → mapGet? s.clearSlots.regs a = mapGet? s.regs a := by
  have hrun := foldl_setReg (s := s) Reg.pciSlot (fun i => (Reg.pciSlot i).resetWord) (List.range 32) fun _ _ _ _ _ => rfl
  unfold State.clearSlots
  generalize (List.range 32).foldl _ s = t at *
  refine ⟨?_, fun i hi => (hrun.reg (List.mem_range.mpr hi)).trans rfl, fun a ha =>
    hrun.others a fun i hi => ha i (List.mem_range.mp hi)⟩
  dsimp only
  rw [hrun.rest]

/-- What a reset of the function leaves (14 R486): launch slots, BARs, windows, vectors and configuration at reset. -/
structure FunctionReset (s t : State) : Prop where
  rest : t = { s with
    regs := t.regs, slots := [], msix := [], cfg := [], aer := false, power := { s.power with d3 := false }
    sec := { s.sec with nonce := none }
    orphans := s.orphans ++ ((List.range 32).filter fun i => s.rf (.pciSlot i) 32 2 == 2).map fun i => (i, s.slotOf i) }
  slots : ∀ i, i < 32 → t.reg (.pciSlot i) = 1
  windows : ∀ k, k < 8 → t.reg (.pciHwin k) = 0
  bar2 : t.reg .pciBar2 = 0
  bme : t.rf .pciLink 10 1 = 0
  others : ∀ a, (∀ i, i < 32 → a ≠ (Reg.pciSlot i).addr) → (∀ k, k < 8 → a ≠ (Reg.pciHwin k).addr) →
    a ≠ Reg.pciBar2.addr → a ≠ Reg.pciLink.addr → mapGet? t.regs a = mapGet? s.regs a

/-- The BARs and windows of the function are closed. -/
def closeBars (s : State) : State :=
  (List.range 8).foldl (fun (s : State) (k : Nat) => s.setReg (.pciHwin k) 0) (s.setReg .pciBar2 0)

theorem closeBars_closes (s : State) : closeBars s = { s with regs := (closeBars s).regs }
    ∧ (∀ k, k < 8 → (closeBars s).reg (.pciHwin k) = 0) ∧ (closeBars s).reg .pciBar2 = 0
    ∧ ∀ a, (∀ k, k < 8 → a ≠ (Reg.pciHwin k).addr) → a ≠ Reg.pciBar2.addr →
      mapGet? (closeBars s).regs a = mapGet? s.regs a := by
  have hrun : WritesRegs _ _ _ _ (closeBars s) :=
    foldl_setReg (s := s.setReg .pciBar2 0) Reg.pciHwin (fun _ => 0) (List.range 8) fun _ _ _ _ _ => rfl
  generalize closeBars s = t at *
  refine ⟨hrun.rest, fun k hk => hrun.reg (List.mem_range.mpr hk), ?_, fun a ha hb => ?_⟩
  · refine (hrun.reg_ne fun k _ => ?_).trans (State.reg_setReg_self ..)
    rw [pciHwin_addr]
    unfold Reg.addr
    dsimp only
    omega
  · exact (hrun.others a fun k hk => ha k (List.mem_range.mp hk)).trans (setReg_regs_ne s 0 hb)

theorem filterMap_some_if {α : Type} (l : List Nat) (p : Nat → Prop) [DecidablePred p] (f : Nat → α) :
    l.filterMap (fun i => if p i then some (f i) else none) = (l.filter fun i => decide (p i)).map f := by
  induction l with
  | nil => rfl
  | cons i l ih =>
    rw [List.filterMap_cons, List.filter_cons]
    by_cases hp : p i <;> simp [hp, ih]

/-- Started launches run on without their slots. -/
def orphaned (s : State) : State :=
  { s with orphans := s.orphans ++ ((List.range 32).filter fun i => s.rf (.pciSlot i) 32 2 == 2).map fun i => (i, s.slotOf i) }

/-- Slots, vectors and configuration are cleared, and the function is in D0. -/
def functionCleared (s : State) : State :=
  { s.clearSlots with msix := [], cfg := [], aer := false, power := { s.power with d3 := false } }

theorem followBme_cleared {s : State} (h : s.cfg = []) : s.followBme = s.setRf .pciLink 10 1 0 := by
  unfold State.followBme
  rw [h]
  rfl

theorem resetFunction_eq {s : State} (h : ∀ x ∈ s.cores, x.2.movQ = []) :
    s.resetFunction = ((functionCleared (closeBars (orphaned s))).setRf .pciLink 10 1 0).voidNonce := by
  have horphans := filterMap_some_if (List.range 32) (fun i => s.rf (.pciSlot i) 32 2 = 2) fun i => (i, s.slotOf i)
  rw [← followBme_cleared rfl]
  unfold State.resetFunction
  rw [endHost_idle h, horphans]
  rfl

theorem pciLink_ne_pciSlot (i : Nat) : (Reg.pciSlot i).addr ≠ Reg.pciLink.addr := by
  rw [pciSlot_addr]
  unfold Reg.addr
  dsimp only
  omega

theorem pciHwin_ne_pciLink (k : Nat) : (Reg.pciHwin k).addr ≠ Reg.pciLink.addr := by
  rw [pciHwin_addr]
  unfold Reg.addr
  dsimp only
  omega

theorem functionCleared_rest {s u : State} (h : u = { orphaned s with regs := u.regs }) : functionCleared u = { s with
    regs := u.clearSlots.regs, slots := [], msix := [], cfg := [], aer := false, power := { s.power with d3 := false }
    orphans := (orphaned s).orphans } := by
  have hslots := (clearSlots_clears u).1
  unfold functionCleared
  generalize u.clearSlots = c at *
  generalize c.regs = r at *
  subst hslots
  generalize u.regs = q at *
  subst h
  rfl

theorem resetFunction_resets {s : State} (h : ∀ x ∈ s.cores, x.2.movQ = []) : FunctionReset s s.resetFunction := by
  rw [resetFunction_eq h]
  obtain ⟨hbars, hwin, hbar2, hbregs⟩ := closeBars_closes (orphaned s)
  generalize closeBars (orphaned s) = u at *
  obtain ⟨hslots, hslot, hsregs⟩ := clearSlots_clears u
  have hrest := functionCleared_rest hbars
  have hwregs : (functionCleared u).regs = u.clearSlots.regs := by
    unfold functionCleared
    dsimp only
  generalize functionCleared u = w at *
  have hreg : ∀ {r : Reg}, r.addr ≠ Reg.pciLink.addr →
      ((w.setRf .pciLink 10 1 0).voidNonce).reg r = u.clearSlots.reg r := fun hr =>
    reg_congr ((setRf_regs_ne w 10 1 0 hr).trans (by rw [hwregs]))
  refine ⟨?_, fun i hi => ?_, fun k hk => ?_, ?_, w.rf_setRf_self .pciLink 10 1 0 (by decide), fun a ha hb hc hd => ?_⟩
  · have hvoid : (w.setRf .pciLink 10 1 0).voidNonce = { w with
        regs := (w.setRf .pciLink 10 1 0).voidNonce.regs, sec := { w.sec with nonce := none } } := rfl
    generalize (w.setRf .pciLink 10 1 0).voidNonce = t at hvoid ⊢
    rw [hvoid, hrest]
    rfl
  · rw [hreg (pciLink_ne_pciSlot i), hslot i hi]
  · rw [hreg (pciHwin_ne_pciLink k), reg_congr (hsregs _ fun i hi => by rw [pciHwin_addr, pciSlot_addr]; omega), hwin k hk]
  · rw [hreg (by decide), reg_congr (hsregs _ fun i _ => by rw [pciSlot_addr]; unfold Reg.addr; dsimp only; omega), hbar2]
  · refine (setRf_regs_ne w 10 1 0 hd).trans ?_
    rw [hwregs, hsregs a ha, hbregs a hb hc]
    rfl

theorem exec_resetFunction {c : Instr} (s : State) (h : c = .functionLevelReset ∨ c = .hotReset) :
    exec c s = .next s.resetFunction := by
  rcases h with rfl | rfl <;> rfl

end Sys2Proof.Machine
end

