-- ==== Sys2Proof/Proofs/ConfigRequests.lean ====
section
/-!
O51, configuration requests (14 R485 R490) and a completion that brings host bytes (14 R491): the bytes that the spec fixes,
those that take a write, and the pieces of a copy that a completion fills.
-/

namespace Sys2Proof.Machine

theorem tlp_frame (s : State) (code : Nat) : ∃ r, s.tlp code = { s with regs := r }
    ∧ ∀ a, ¬ LathCountAddr a → mapGet? r a = mapGet? s.regs a :=
  ⟨_, lathEvent_regs .., lathEvent_lathFrame s (by decide) code 1⟩

/-! ### Bytes of the configuration space -/

theorem replace_all (b v : Byte) : (b &&& ~~~0xFF) ||| v = v := by
  rw [show ~~~(0xFF : Byte) = 0#8 by decide, BitVec.and_zero, BitVec.zero_or]

/-- A byte whose bits the spec fixes reads so while nothing is written to it. -/
theorem cfgAt_fixed {s : State} {o : Nat} {v : Byte} (hn : mapGet? s.cfg o = none) (ho : o < 64)
    (hg : cfgGiven o = [⟨o, 0xFF, v⟩]) : s.cfgAt o = v := by
  unfold State.cfgAt mapGet
  rw [hn, Option.getD_none, cfgDefault, hg]
  dsimp only [List.foldl]
  rw [if_neg (by omega), replace_all]

/-- The Completer Abort bit of AER (14 R490). -/
theorem cfgAt_aer (s : State) (h : 64 ≤ Config.aerOff + 5) : (s.cfgAt (Config.aerOff + 5)).getLsbD 7 = s.aer := by
  unfold State.cfgAt
  dsimp only
  rw [if_pos ⟨h, rfl⟩, BitVec.getLsbD_or, BitVec.getLsbD_and]
  cases s.aer <;> simp

/-- What a configuration read answers. -/
def cfgBytes (s : State) (r : CfgReq) : List Byte := (List.range (min r.len 4096)).map fun j => s.cfgAt (r.off + j)

theorem configRead_answers {s : State} {r : CfgReq} (hr : r.write = false) :
    ∃ t, exec (.pcieConfigRequest r) s = .next t ∧ t = { s with regs := t.regs, out := Out.cfg r.off (cfgBytes s r) :: s.out }
      ∧ LathFrame s t := by
  have hexec : exec (.pcieConfigRequest r) s = .next (((s.tlp 1).send (.cfg r.off (cfgBytes (s.tlp 1) r))).tlp 2) :=
    if_neg (by rw [hr]; exact Bool.false_ne_true)
  obtain ⟨r1, h1, f1⟩ := tlp_frame s 1
  rw [h1] at hexec
  obtain ⟨r2, h2, f2⟩ := tlp_frame (State.send { s with regs := r1 } (.cfg r.off (cfgBytes { s with regs := r1 } r))) 2
  rw [h2] at hexec
  exact ⟨_, hexec, rfl, fun a ha => (f2 a ha).trans (f1 a ha)⟩

theorem cfgBytes_vendor {s : State} {r : CfgReq} (hn : ∀ o, o < 12 → mapGet? s.cfg o = none) (ho : r.off = 0) (hl : r.len = 4) :
    cfgBytes s r = [Config.vendorId.setWidth 8, (Config.vendorId >>> 8).setWidth 8, 0x60, 0x91] := by
  have hlist : cfgBytes s r = [s.cfgAt 0, s.cfgAt 1, s.cfgAt 2, s.cfgAt 3] := by
    unfold cfgBytes
    rw [ho, hl]
    rfl
  rw [hlist, cfgAt_fixed (hn 0 (by decide)) (by decide) rfl, cfgAt_fixed (hn 1 (by decide)) (by decide) rfl,
    cfgAt_fixed (hn 2 (by decide)) (by decide) rfl, cfgAt_fixed (hn 3 (by decide)) (by decide) rfl]

theorem cfgBytes_class {s : State} {r : CfgReq} (hn : ∀ o, o < 12 → mapGet? s.cfg o = none) (ho : r.off = 8) (hl : r.len = 4) :
    cfgBytes s r = [0xB0, 0x00, 0x00, 0x12] := by
  have hlist : cfgBytes s r = [s.cfgAt 8, s.cfgAt 9, s.cfgAt 10, s.cfgAt 11] := by
    unfold cfgBytes
    rw [ho, hl]
    rfl
  rw [hlist, cfgAt_fixed (hn 8 (by decide)) (by decide) rfl, cfgAt_fixed (hn 9 (by decide)) (by decide) rfl,
    cfgAt_fixed (hn 10 (by decide)) (by decide) rfl, cfgAt_fixed (hn 11 (by decide)) (by decide) rfl]

theorem cfgBytes_aer {s : State} {r : CfgReq} (ho : r.off = Config.aerOff + 5) (h64 : 64 ≤ r.off) (hl : r.len = 1) :
    ∃ b, cfgBytes s r = [b] ∧ b.getLsbD 7 = s.aer := by
  refine ⟨s.cfgAt (Config.aerOff + 5), ?_, cfgAt_aer s (ho ▸ h64)⟩
  unfold cfgBytes
  rw [hl, ho]
  rfl

/-! ### A configuration write -/

/-- The configuration space after byte j of a write: the bits that take a write are replaced. -/
def cfgPut (s : State) (r : CfgReq) (m : FMap Byte) (j : Nat) : FMap Byte :=
  match r.bytes.getD j none with
  | some b =>
    let o := r.off + j
    let k := s.cfgTakes o
    if k = 0 ∨ 4096 ≤ o then m else mapSet m o ((mapGet m o (cfgDefault o) &&& ~~~k) ||| (b &&& k))
  | none => m

/-- The configuration space after the first n bytes of a write. -/
def cfgAfter (s : State) (r : CfgReq) (n : Nat) : FMap Byte := (List.range n).foldl (cfgPut s r) s.cfg

section
variable (s : State) (r : CfgReq)

theorem cfgAfter_succ (n : Nat) : cfgAfter s r (n + 1) = cfgPut s r (cfgAfter s r n) n := by
  unfold cfgAfter
  rw [List.range_succ, List.foldl_append]
  rfl

theorem cfgPut_ne (m : FMap Byte) {j o : Nat} (h : o ≠ r.off + j) : mapGet? (cfgPut s r m j) o = mapGet? m o := by
  unfold cfgPut
  split
  · dsimp only
    split
    · rfl
    · exact mapGet?_set_ne _ _ h
  · rfl

theorem cfgPut_fixed (m : FMap Byte) {j : Nat} (h : s.cfgTakes (r.off + j) = 0) : cfgPut s r m j = m := by
  unfold cfgPut
  split
  · exact if_pos (.inl h)
  · rfl

/-- A byte that no bit of a write reaches keeps its value. -/
theorem cfgAfter_ne {n o : Nat} (h : ∀ j, j < n → o = r.off + j → s.cfgTakes o = 0) :
    mapGet? (cfgAfter s r n) o = mapGet? s.cfg o := by
  induction n with
  | zero => rfl
  | succ n ih =>
    rw [cfgAfter_succ]
    by_cases ho : o = r.off + n
    · rw [cfgPut_fixed s r _ (ho ▸ h n (Nat.lt_succ_self n) ho)]
      exact ih fun j hj => h j (by omega)
    · rw [cfgPut_ne s r _ ho]
      exact ih fun j hj => h j (by omega)

/-- A byte that a write names takes it in the bits that take a write. -/
theorem cfgAfter_at {n j : Nat} {b : Byte} (hj : j < n) (hb : r.bytes.getD j none = some b) (h4096 : r.off + j < 4096)
    (hk : s.cfgTakes (r.off + j) ≠ 0) : mapGet? (cfgAfter s r n) (r.off + j)
      = some ((mapGet s.cfg (r.off + j) (cfgDefault (r.off + j)) &&& ~~~s.cfgTakes (r.off + j))
        ||| (b &&& s.cfgTakes (r.off + j))) := by
  induction n with
  | zero => omega
  | succ n ih =>
    rw [cfgAfter_succ]
    by_cases hjn : j = n
    · subst hjn
      have hold : mapGet (cfgAfter s r j) (r.off + j) (cfgDefault (r.off + j))
          = mapGet s.cfg (r.off + j) (cfgDefault (r.off + j)) := by
        unfold mapGet
        rw [cfgAfter_ne s r fun i hi ho => absurd ho (by omega)]
      unfold cfgPut
      rw [hb]
      dsimp only
      rw [if_neg (not_or.mpr ⟨hk, by omega⟩), hold, mapGet?_set_self]
    · rw [cfgPut_ne s r _ (by omega), ih (by omega)]

end

theorem getD_none_lt {l : List (Option Byte)} {j : Nat} {b : Byte} (h : l.getD j none = some b) : j < l.length := by
  by_contra hj
  rw [List.getD_eq_default _ _ (by omega)] at h
  cases h

/-- A byte whose bits all take a write holds what is written. -/
theorem replaced_all (v b : Byte) : (v &&& ~~~0xFF) ||| (b &&& 0xFF) = b := by
  rw [show ~~~(0xFF : Byte) = 0#8 by decide, BitVec.and_zero, BitVec.zero_or]
  exact BitVec.and_allOnes

theorem cfgAfter_takes (s : State) (r : CfgReq) (o : Nat) (b : Byte) (hlo : r.off ≤ o) (hhi : o < 4096)
    (hb : r.bytes.getD (o - r.off) none = some b) (hk : s.cfgTakes o ≠ 0) : mapGet? (cfgAfter s r r.bytes.length) o
      = some ((mapGet s.cfg o (cfgDefault o) &&& ~~~s.cfgTakes o) ||| (b &&& s.cfgTakes o)) := by
  obtain ⟨j, rfl⟩ := Nat.exists_eq_add_of_le hlo
  rw [Nat.add_sub_cancel_left] at hb
  exact cfgAfter_at s r (getD_none_lt hb) hb hhi hk

/-- The bytes of the command register take every bit, those of the identity none. -/
theorem cfgTakes_command (s : State) : s.cfgTakes 4 = 0xFF := rfl

theorem cfgTakes_fixed (s : State) {o : Nat} {v : Byte} (hg : cfgGiven o = [⟨o, 0xFF, v⟩]) : s.cfgTakes o = 0 := by
  unfold State.cfgTakes
  rw [hg]
  dsimp only [List.foldl]
  rw [show ~~~(0xFF : Byte) = 0#8 by decide, BitVec.and_zero]
  rfl

theorem cfgTakes_identity (s : State) {o : Nat} (h : o < 4 ∨ 8 ≤ o ∧ o < 12) : s.cfgTakes o = 0 := by
  have hcases : o = 0 ∨ o = 1 ∨ o = 2 ∨ o = 3 ∨ o = 8 ∨ o = 9 ∨ o = 10 ∨ o = 11 := by omega
  rcases hcases with rfl | rfl | rfl | rfl | rfl | rfl | rfl | rfl <;> exact cfgTakes_fixed s rfl

/-- A 1 written to AER's Completer Abort bit. -/
def clearsAer (r : CfgReq) : Bool :=
  (List.range r.bytes.length).any fun j => r.off + j == Config.aerOff + 5 && ((r.bytes.getD j none).getD 0).getLsbD 7

theorem clearsAer_iff (r : CfgReq) : clearsAer r = true
    ↔ ∃ j b, r.off + j = Config.aerOff + 5 ∧ r.bytes.getD j none = some b ∧ b.getLsbD 7 = true := by
  simp only [clearsAer, List.any_eq_true, List.mem_range, Bool.and_eq_true, beq_iff_eq]
  constructor
  · rintro ⟨j, -, ho, hb⟩
    cases hj : r.bytes.getD j none with
    | none =>
      rw [hj] at hb
      simp at hb
    | some b => exact ⟨j, b, ho, hj, by rwa [hj] at hb⟩
  · rintro ⟨j, b, ho, hj, hb⟩
    exact ⟨j, getD_none_lt hj, ho, by rwa [hj]⟩

theorem bit_two (b : Byte) : b.toNat / 4 % 2 = b2n (bitAt b 2) := by
  unfold bitAt b2n
  rw [BitVec.getLsbD, Nat.testBit_eq_decide_div_mod_eq]
  have h2 : b.toNat / 2 ^ 2 % 2 < 2 := Nat.mod_lt _ (by decide)
  simp only [decide_eq_true_eq]
  split <;> omega

theorem configWrite_takes {s : State} {r : CfgReq} (hr : r.write = true) :
    ∃ t, exec (.pcieConfigRequest r) s = .next t ∧ t = { s with regs := t.regs, out := t.out, cfg := t.cfg, aer := t.aer }
      ∧ t.cfg = cfgAfter s r r.bytes.length ∧ t.aer = (s.aer && !clearsAer r)
      ∧ (∀ a, a ≠ Reg.pciLink.addr → ¬ LathCountAddr a → mapGet? t.regs a = mapGet? s.regs a)
      ∧ t.rf .pciLink 10 1 = b2n (bitAt (mapGet t.cfg 4 (cfgDefault 4)) 2) := by
  have hexec : exec (.pcieConfigRequest r) s = .next ((State.send (State.followBme { s.tlp 1 with
      cfg := cfgAfter (s.tlp 1) r r.bytes.length, aer := (s.tlp 1).aer && !clearsAer r }) (.cfg r.off [])).tlp 2) :=
    if_pos hr
  obtain ⟨r1, h1, f1⟩ := tlp_frame s 1
  rw [h1] at hexec
  let u : State := { s with regs := r1, cfg := cfgAfter s r r.bytes.length, aer := s.aer && !clearsAer r }
  have hu : exec (.pcieConfigRequest r) s = .next ((u.followBme.send (.cfg r.off [])).tlp 2) := hexec
  obtain ⟨r2, h2, f2⟩ := tlp_frame (u.followBme.send (.cfg r.off [])) 2
  rw [h2] at hu
  refine ⟨_, hu, rfl, rfl, rfl, fun a ha hc => ?_, ?_⟩
  · exact (f2 a hc).trans ((setRf_regs_ne u 10 1 _ ha).trans (f1 a hc))
  · have hbme : u.followBme.rf .pciLink 10 1 = (mapGet u.cfg 4 (cfgDefault 4)).toNat / 4 % 2 % 2 ^ 1 :=
      State.rf_setRf_self _ _ _ _ _ (by decide)
    refine (rf_congr (s := u.followBme) (f2 _ (not_lathCountAddr_of_lt (by decide))) 10 1).trans (hbme.trans ?_)
    exact (Nat.mod_mod _ 2).trans (bit_two _)

/-! ### A completion of a read of host memory (14 R491) -/

theorem isHostKey_hostKey (h pos n : Nat) : isHostKey (hostKey h pos n) = true :=
  decide_eq_true (by unfold hostKey; omega)

theorem hostKey_parts {h pos n : Nat} (h1 : 1 ≤ n) (h64 : n ≤ 64) (hp : pos < 2 ^ 64) :
    keyHost (hostKey h pos n) = h ∧ keyPos (hostKey h pos n) = pos ∧ keyLen (hostKey h pos n) = n := by
  have hsub : hostKey h pos n - 2 ^ 200 = (h * 2 ^ 64 + pos) * 64 + (n - 1) := by
    unfold hostKey
    omega
  unfold keyHost keyPos keyLen
  rw [hsub]
  refine ⟨?_, ?_, ?_⟩ <;> omega

/-- Bytes of the stream stand under the keys of their places. -/
theorem putBuf_at (buf : FMap Byte) (pos : Nat) (poi missing : Bool) (bs : List Byte) {j : Nat} (hj : j < bs.length) :
    mapGet (putBuf buf pos poi missing bs) (bufKey (pos + j) poi missing) 0 = bs.getD j 0 := by
  have hrun : ∀ n, j < n → mapGet ((List.range n).foldl (fun b j => mapSet b (bufKey (pos + j) poi missing) (bs.getD j 0)) buf)
      (bufKey (pos + j) poi missing) 0 = bs.getD j 0 := by
    intro n hn
    induction n with
    | zero => omega
    | succ n ih =>
      rw [List.range_succ, List.foldl_append]
      by_cases hjn : j = n
      · subst hjn
        exact mapGet_set_self ..
      · refine (mapGet_set_ne _ _ _ ?_).trans (ih (by omega))
        unfold bufKey
        omega
  exact hrun _ hj

theorem moverOn_awaits {s : State} {lc : Nat} {e : UEntry} {rest : List UEntry} (hq : (s.core lc).movQ = e :: rest)
    (hst : e.started = true) (hfin : e.fin = none) (ha : e.await ≠ []) : s.moverOn lc = s := by
  have hfind : findEntry (fun e => e.started && e.fin.isNone) ((s.core lc).q .mover) = some (0, e) := by
    rw [show (s.core lc).q .mover = e :: rest from hq]
    exact findEntry_head (by rw [hst, hfin]; rfl)
  have hne : e.await.isEmpty = false := by rwa [← Bool.not_eq_true, List.isEmpty_iff]
  unfold State.moverOn
  rw [hfind]
  dsimp only
  exact if_neg fun hc => by rw [hne] at hc; exact Bool.false_ne_true hc.2.2.1

/-- The oldest copy of a core with a piece of host memory filled. -/
def filled (e : UEntry) (addr h pos n : Nat) (bytes : List Byte) (ep : Bool) (more : List Nat) : UEntry :=
  { e with buf := putBuf e.buf pos ep false ((bytes.drop (h - addr)).take n), await := more }

theorem hostRead_fills {s : State} {lc h n pos addr : Nat} {e : UEntry} {rest : List UEntry} {more : List Nat}
    {bytes : List Byte} {ep : Bool} (hq : (s.core lc).movQ = e :: rest) (hst : e.started = true) (hb : e.begun = true)
    (hfin : e.fin = none) (ha : e.await = hostKey h pos n :: more) (hmore : more ≠ []) (h1 : 1 ≤ n) (h64 : n ≤ 64)
    (hp : pos < 2 ^ 64) (hlo : addr ≤ h) (hhi : h + n ≤ addr + bytes.length) (hnot : ∀ k ∈ more, ¬ (2 ^ 200 ≤ k)) :
    exec (.hostReadCompletion lc addr bytes ep) s
      = .next ((s.tlp 1).setEntry lc .mover 0 (filled e addr h pos n bytes ep more)) := by
  obtain ⟨hhost, hpos, hlen⟩ := hostKey_parts (h := h) h1 h64 hp
  have hfind : findEntry (fun e => e.begun && e.fin.isNone && e.await.any isHostKey) (s.core lc).movQ = some (0, e) := by
    rw [hq]
    refine findEntry_head ?_
    rw [hb, hfin, ha, List.any_cons, isHostKey_hostKey]
    rfl
  have hexec : exec (.hostReadCompletion lc addr bytes ep) s = execHostReadCompletion lc addr bytes ep s := rfl
  unfold execHostReadCompletion at hexec
  rw [hfind] at hexec
  dsimp -zeta only at hexec
  extract_lets got ks buf at hexec
  have hgot : got (hostKey h pos n) = true := by
    simp only [got, isHostKey_hostKey, hhost, hlen, hlo, hhi, decide_true, Bool.and_self]
  have hothers : ∀ k ∈ more, got k = false := by
    intro k hk
    have : isHostKey k = false := decide_eq_false (hnot k hk)
    simp only [got, this, Bool.false_and]
  have hks : ks = [hostKey h pos n] := by
    refine (congrArg (List.filter got) ha).trans ?_
    rw [List.filter_cons_of_pos hgot, List.filter_eq_nil_iff.mpr fun k hk => by rw [hothers k hk]; exact Bool.false_ne_true]
  have hrest : e.await.filter (fun k => !got k) = more := by
    rw [ha, List.filter_cons_of_neg (by rw [hgot]; exact Bool.false_ne_true)]
    exact List.filter_eq_self.mpr fun k hk => by rw [hothers k hk]; rfl
  have hbuf : buf = putBuf e.buf pos ep false ((bytes.drop (h - addr)).take n) := by
    simp only [buf, hks, List.foldl_cons, List.foldl_nil, hhost, hpos, hlen]
  rw [hks, hrest, hbuf, List.isEmpty_cons, if_neg Bool.false_ne_true] at hexec
  refine hexec.trans (congrArg Host.Outcome.next ?_)
  refine moverOn_awaits (e := filled e addr h pos n bytes ep more) (rest := rest) ?_ hst hfin hmore
  obtain ⟨r, ht, -⟩ := tlp_frame s 1
  rw [ht]
  unfold State.setEntry
  rw [setCore_core]
  exact congrArg (fun q : List UEntry => q.set 0 (filled e addr h pos n bytes ep more)) hq

theorem hostRead_completes {s : State} {lc h n pos addr : Nat} {e : UEntry} {rest : List UEntry} {more : List Nat}
    {bytes : List Byte} {ep : Bool} (hq : (s.core lc).movQ = e :: rest) (hst : e.started = true) (hb : e.begun = true)
    (hfin : e.fin = none) (ha : e.await = hostKey h pos n :: more) (hmore : more ≠ []) (h1 : 1 ≤ n) (h64 : n ≤ 64)
    (hp : pos < 2 ^ 64) (hlo : addr ≤ h) (hhi : h + n ≤ addr + bytes.length) (hnot : ∀ k ∈ more, ¬ (2 ^ 200 ≤ k)) :
    ∃ t e', exec (.hostReadCompletion lc addr bytes ep) s = .next t
      ∧ t = { s with cores := t.cores, regs := t.regs } ∧ LathFrame s t
      ∧ t.core lc = (s.core lc).setQ .mover (e' :: rest) ∧ (∀ k, k ≠ lc → t.core k = s.core k)
      ∧ e' = { e with buf := e'.buf, await := more }
      ∧ ∀ j, j < n → mapGet e'.buf (bufKey (pos + j) ep false) 0 = bytes.getD (h - addr + j) 0 := by
  have hexec := hostRead_fills (ep := ep) hq hst hb hfin ha hmore h1 h64 hp hlo hhi hnot
  obtain ⟨r, ht, hframe⟩ := tlp_frame s 1
  rw [ht] at hexec
  have hcore : (State.setEntry { s with regs := r } lc .mover 0 (filled e addr h pos n bytes ep more)).core lc
      = (s.core lc).setQ .mover (filled e addr h pos n bytes ep more :: rest) := by
    unfold State.setEntry
    rw [setCore_core]
    exact congrArg (fun q : List UEntry => (s.core lc).setQ .mover (q.set 0 (filled e addr h pos n bytes ep more))) hq
  refine ⟨_, filled e addr h pos n bytes ep more, hexec, rfl, hframe, hcore, fun k hk => mapGet_set_ne _ _ _ hk, rfl,
    fun j hj => ?_⟩
  have hlen : ((bytes.drop (h - addr)).take n).length = n := by
    rw [List.length_take, List.length_drop]
    omega
  refine (putBuf_at e.buf pos ep false _ (by omega)).trans ?_
  simp [List.getD_eq_getElem?_getD, hj]

end Sys2Proof.Machine
end

