-- ==== Sys2Proof/Proofs/ModuleResets.lean ====
section
/-!
O51, the module (17 R571, 20 R634-R642): D3hot and the return from it, supplies and their losses with what a loss leaves of a
firmware command, PERST#, the watchdog and the thermal trip; with the function, the obligation.
-/

namespace Sys2Proof.Machine

/-! ### The return to D0 (17 R571) -/

/-- Counters and sampling state read as at reset, every other register as before (19 R617). -/
theorem clearPmu_regs (s : State) (a : Nat) :
    mapGet? s.clearPmu.regs a = if isPmuReg a = true then none else mapGet? s.regs a := by
  refine (mapGet?_filter (fun a => !isPmuReg a) s.regs a).trans ?_
  cases isPmuReg a <;> rfl

theorem clearPmu_reg (s : State) {r : Reg} (h : isPmuReg r.addr = false) : s.clearPmu.reg r = s.reg r :=
  reg_congr (by rw [clearPmu_regs, h]; rfl)

theorem clearPmu_zero (s : State) {r : Reg} (h : isPmuReg r.addr = true) : s.clearPmu.reg r = r.resetWord :=
  State.reg_of_unlisted (by rw [clearPmu_regs, h]; rfl)

theorem isPmuReg_low {a : Nat} (hlo : lathBase ≤ a) (hhi : a < lathBase + 0x50000) : isPmuReg a = false := by
  unfold isPmuReg
  rw [decide_eq_false (by omega : ¬ a < lathBase), decide_eq_false (by omega : ¬ lathBase + 0x50000 ≤ a)]
  simp

/-- The offset of a register in a core's block. -/
theorem isPmuReg_core {n o : Nat} (hn : n < 144) (hlo : 0x1100 ≤ o) (hhi : o < 0x11C0) :
    isPmuReg (coreBase + n * 0x100000 + o) = decide (o ≠ 0x1118) := by
  have hoff : (coreBase + n * 0x100000 + o - coreBase) % 0x100000 = o := by omega
  unfold isPmuReg
  rw [hoff, decide_eq_true (by omega : coreBase ≤ coreBase + n * 0x100000 + o),
    decide_eq_true (by unfold coreBase lathBase; omega : coreBase + n * 0x100000 + o < lathBase), decide_eq_true hlo,
    decide_eq_true hhi, decide_eq_false (by unfold coreBase lathBase; omega : ¬ lathBase + 0x50000 ≤ coreBase + n * 0x100000 + o)]
  simp

theorem pmuCnt_addr (n i : Nat) : (Reg.pmuCnt n i).addr = coreBase + n * 0x100000 + (0x1160 + 8 * i) := Nat.add_assoc ..

theorem portGone_congr {s t : State} (hf : t.flash = s.flash) (hh : t.snagHeld = s.snagHeld) (p : Nat) :
    t.portGone p = s.portGone p := by
  unfold State.portGone State.portSnags State.snags
  rw [hf, hh]

/-- What the status of a port shows when it trains at a start or a wake. -/
def trainWord (s : State) (p : Nat) : Word := if s.rf .klkCfg (32 + p) 1 = 1 ∧ !s.portGone p then 1 else 0

theorem trainPorts_trains (s : State) :
    WritesRegs s Reg.klkStatus (trainWord s) (List.range 16) s.trainPorts := by
  refine foldl_writesRegs trainWord (fun i hi j hj h => ?_) fun t p _ ht hframe => ?_
  · have hij : i = j := by
      unfold Reg.addr at h
      dsimp only at h
      omega
    rw [hij]
  · have hcfg : t.rf .klkCfg (32 + p) 1 = s.rf .klkCfg (32 + p) 1 := by
      refine rf_congr (hframe _ fun q _ h => ?_) ..
      unfold Reg.addr lathBase at h
      dsimp only at h
      omega
    have hgone : t.portGone p = s.portGone p := portGone_congr (by rw [ht]) (by rw [ht]) p
    unfold trainWord
    rw [hcfg, hgone]

theorem trainWord_state (s : State) (p : Nat) :
    fld (trainWord s p) 0 4 = if s.rf .klkCfg (32 + p) 1 = 1 ∧ s.portGone p = false then 1 else 0 := by
  unfold trainWord
  simp only [Bool.not_eq_true']
  split <;> rfl

/-- The registers of the Lath that a wake of the module brings back. -/
structure WakesModule (s t : State) : Prop where
  rest : t = { s with regs := t.regs, slots := [], pmus := [] }
  slots : ∀ i, i < 32 → t.reg (.pciSlot i) = 1
  counters : ∀ n i, n < 144 → i < 8 → t.reg (.pmuCnt n i) = 0 ∧ t.reg (.pmuCycle n) = 0
  perms : ∀ n, n < 144 → t.reg (.pmuPerm n) = s.reg (.pmuPerm n)
  ports : ∀ p, p < 16 → t.portState p = if s.rf .klkCfg (32 + p) 1 = 1 ∧ s.portGone p = false then 1 else 0
  pwrState : t.reg .pwrState = s.reg .pwrState

theorem d0Return_wakes (s : State) : WakesModule s s.clearSlots.clearPmu.trainPorts := by
  obtain ⟨hrest, hslots, hregs⟩ := clearSlots_clears s
  generalize s.clearSlots = u at *
  have hclear : u.clearPmu = { u with pmus := [], regs := u.clearPmu.regs } := rfl
  have hreg : ∀ {r : Reg}, isPmuReg r.addr = false → u.clearPmu.reg r = u.reg r := fun h => clearPmu_reg u h
  have hzero : ∀ {r : Reg}, isPmuReg r.addr = true → u.clearPmu.reg r = r.resetWord := fun h => clearPmu_zero u h
  generalize u.clearPmu = v at *
  have htrain := trainPorts_trains v
  have hword : ∀ p, trainWord v p = trainWord s p := by
    intro p
    have hcfg : v.rf .klkCfg (32 + p) 1 = s.rf .klkCfg (32 + p) 1 := by
      unfold State.rf
      rw [hreg (isPmuReg_low (by decide) (by decide)),
        reg_congr (hregs _ fun i hi => by rw [pciSlot_addr]; unfold Reg.addr; dsimp only; omega)]
    unfold trainWord
    rw [hcfg, portGone_congr (s := s) (by rw [hclear, hrest]) (by rw [hclear, hrest])]
  have hstate : ∀ {r : Reg}, (∀ p, p < 16 → r.addr ≠ (Reg.klkStatus p).addr) → v.trainPorts.reg r = v.reg r :=
    fun h => htrain.reg_ne fun p hp => h p (List.mem_range.mp hp)
  have hcore : ∀ n o p, n < 144 → o < 0x100000 → coreBase + n * 0x100000 + o ≠ (Reg.klkStatus p).addr := by
    intro n o p hn ho
    unfold Reg.addr coreBase lathBase
    dsimp only
    omega
  refine ⟨?_, fun i hi => ?_, fun n i hn hi => ⟨?_, ?_⟩, fun n hn => ?_, fun p hp => ?_, ?_⟩
  · rw [htrain.rest, hclear, hrest]
  · have haddr : ∀ p, p < 16 → (Reg.pciSlot i).addr ≠ (Reg.klkStatus p).addr := by
      intro p hp
      rw [pciSlot_addr]
      unfold Reg.addr
      dsimp only
      omega
    rw [hstate haddr, hreg (isPmuReg_low (by rw [pciSlot_addr]; omega) (by rw [pciSlot_addr]; omega)), hslots i hi]
  · rw [hstate fun p _ => by rw [pmuCnt_addr]; exact hcore n _ p hn (by omega), hzero (by
      rw [pmuCnt_addr, isPmuReg_core hn (by omega) (by omega), decide_eq_true (by omega)])]
    rfl
  · rw [hstate fun p _ => by exact hcore n 0x1100 p hn (by omega), hzero (by
      exact (isPmuReg_core hn (by omega) (by omega)).trans (decide_eq_true (by omega)))]
    rfl
  · rw [hstate fun p _ => by exact hcore n 0x1118 p hn (by omega), hreg (by
      exact (isPmuReg_core hn (by omega) (by omega)).trans (decide_eq_false (by omega))),
      reg_congr (hregs _ fun i hi => by rw [pciSlot_addr]; unfold Reg.addr coreBase lathBase; dsimp only; omega)]
  · unfold State.portState State.rf
    rw [htrain.reg (List.mem_range.mpr hp), hword]
    exact trainWord_state s p
  · have haddr : ∀ p, p < 16 → Reg.pwrState.addr ≠ (Reg.klkStatus p).addr := by
      intro p hp
      unfold Reg.addr
      dsimp only
      omega
    rw [hstate haddr, hreg (isPmuReg_low (by decide) (by decide)),
      reg_congr (hregs _ fun i hi => by rw [pciSlot_addr]; unfold Reg.addr; dsimp only; omega)]

theorem d0Return_from_sleep {s : State} (ha : s.rf .pwrState 12 1 = 1) (hw : s.power.waking = false) :
    ∃ t, exec .d0Return s = .next t
      ∧ t = { s with regs := t.regs, slots := [], pmus := [], power := { s.power with d3 := false, waking := true } }
      ∧ (∀ i, i < 32 → t.reg (.pciSlot i) = 1) ∧ t.rf .pwrState 12 1 = 1
      ∧ (∀ n i, n < 144 → i < 8 → t.reg (.pmuCnt n i) = 0 ∧ t.reg (.pmuCycle n) = 0)
      ∧ (∀ n, n < 144 → t.reg (.pmuPerm n) = s.reg (.pmuPerm n))
      ∧ ∀ p, p < 16 → t.portState p = if s.rf .klkCfg (32 + p) 1 = 1 ∧ s.portGone p = false then 1 else 0 := by
  have hgo : s.rf .pwrState 12 1 = 1 ∧ !s.power.waking := ⟨ha, by rw [hw]; rfl⟩
  have hexec : exec .d0Return s = .next { (State.clearSlots { s with power := { s.power with d3 := false } }).clearPmu.trainPorts with
      power := { s.power with d3 := false, waking := true } } := if_pos hgo
  obtain ⟨hrest, hslots, hcounters, hperms, hports, hpwr⟩ := d0Return_wakes { s with power := { s.power with d3 := false } }
  generalize State.trainPorts _ = u at *
  refine ⟨_, hexec, ?_, hslots, (congrArg (fun w => fld w 12 1) hpwr).trans ha, hcounters, hperms, hports⟩
  generalize u.regs = r at *
  subst hrest
  rfl

theorem d0Return_awake {s : State} (h : s.rf .pwrState 12 1 = 0 ∨ s.power.waking = true) :
    exec .d0Return s = .next { s with power := { s.power with d3 := false } } := by
  have hno : ¬ (s.rf .pwrState 12 1 = 1 ∧ !s.power.waking) := by
    rintro ⟨ha, hw⟩
    rcases h with h | h
    · omega
    · rw [h] at hw
      cases hw
  exact if_neg hno

theorem takePoint_frame (s : State) (h : Half) (p : Nat) : ∃ r c, s.takePoint h p
      = State.setHalf { s with regs := r, vcs := c } h { s.half h with point := p }
    ∧ ∀ a, a < lathBase + 0x1000000 → mapGet? r a = mapGet? s.regs a := by
  obtain ⟨t, hload, htake⟩ := takePoint_loads s h p
  refine ⟨t.regs, t.vcs, htake.trans ?_, hload.low⟩
  exact congrArg (fun u : State => u.setHalf h { s.half h with point := p }) hload.rest

/-- The registers that a wake of the module sets. -/
def wokenRegs (s : State) : State :=
  (((s.setRf .pwrState 8 5 0).setRf .rlrState 16 8 0).setRf .clkWest 0 2 (s.rf .finish 4 2)).setRf .clkEast 0 2 (s.rf .finish 4 2)

theorem wokenRegs_shows (s : State) : (wokenRegs s).rf .pwrState 8 5 = 0 ∧ (wokenRegs s).rf .rlrState 16 8 = 0
    ∧ (wokenRegs s).rf .clkWest 0 2 = s.rf .finish 4 2 ∧ (wokenRegs s).rf .clkEast 0 2 = s.rf .finish 4 2 := by
  have hf : s.rf .finish 4 2 % 2 ^ 2 = s.rf .finish 4 2 := Nat.mod_eq_of_lt (fld_lt ..)
  unfold wokenRegs
  refine ⟨?_, ?_, ?_, ?_⟩
  · rw [State.rf_setRf_ne _ _ _ _ _ _ (by decide), State.rf_setRf_ne _ _ _ _ _ _ (by decide),
      State.rf_setRf_ne _ _ _ _ _ _ (by decide), State.rf_setRf_self _ _ _ _ _ (by decide)]
    rfl
  · rw [State.rf_setRf_ne _ _ _ _ _ _ (by decide), State.rf_setRf_ne _ _ _ _ _ _ (by decide),
      State.rf_setRf_self _ _ _ _ _ (by decide)]
    rfl
  · rw [State.rf_setRf_ne _ _ _ _ _ _ (by decide), State.rf_setRf_self _ _ _ _ _ (by decide), hf]
  · rw [State.rf_setRf_self _ _ _ _ _ (by decide), hf]

theorem bothPoints_frame (s : State) (f : Nat) : ∃ r c, (s.takePoint .west f).takePoint .east f
      = { s with regs := r, vcs := c, west := { s.west with point := f }, east := { s.east with point := f } }
    ∧ ∀ a, a < lathBase + 0x1000000 → mapGet? r a = mapGet? s.regs a := by
  obtain ⟨r1, c1, h1, hlow1⟩ := takePoint_frame s .west f
  obtain ⟨r2, c2, h2, hlow2⟩ := takePoint_frame (s.takePoint .west f) .east f
  refine ⟨r2, c2, h2.trans (by rw [h1]; rfl), fun a ha => (hlow2 a ha).trans ?_⟩
  rw [h1]
  exact hlow1 a ha

/-- Both halves forward. -/
def bothRun (s : State) : State := (s.routersRun .west).routersRun .east

theorem bothRun_rest (s : State) : bothRun s = { s with
    regs := (bothRun s).regs, west := { s.west with routers := true, waiting := false }
    east := { s.east with routers := true, waiting := false } } := rfl

theorem bothRun_seam (s : State) : (bothRun s).rf .scrSeam (waitBit .west) 1 = 0 ∧ (bothRun s).rf .scrSeam (waitBit .east) 1 = 0 := by
  refine ⟨?_, State.rf_setRf_self _ _ _ _ _ (by decide)⟩
  rw [bothRun, State.routersRun, State.rf_setRf_field _ _ _ _ _ _ _ (by decide), rf_setHalf, State.routersRun,
    State.rf_setRf_self _ _ _ _ _ (by decide)]
  rfl

theorem rf_bothRun (s : State) {q : Reg} (h : q.addr ≠ Reg.scrSeam.addr) (lo len : Nat) :
    (bothRun s).rf q lo len = s.rf q lo len := by
  rw [bothRun, rf_routersRun _ _ h, rf_routersRun _ _ h]

/-- The Lath at its finish's point, with both halves forwarding. -/
def wokenLath (s : State) : State :=
  let f := s.rf .finish 4 2
  let u := ((wokenRegs s).takePoint .west f).takePoint .east f
  bothRun { u with power := { u.power with waking := false } }

theorem wokenLath_frame (s : State) : wokenLath s = { s with
      regs := (wokenLath s).regs, vcs := (wokenLath s).vcs, power := { s.power with waking := false }
      west := { s.west with routers := true, waiting := false, point := s.rf .finish 4 2 }
      east := { s.east with routers := true, waiting := false, point := s.rf .finish 4 2 } }
    ∧ (wokenLath s).rf .scrSeam (waitBit .west) 1 = 0 ∧ (wokenLath s).rf .scrSeam (waitBit .east) 1 = 0
    ∧ ∀ q : Reg, q.addr < lathBase + 0x1000000 → q.addr ≠ Reg.scrSeam.addr → ∀ lo len,
      (wokenLath s).rf q lo len = (wokenRegs s).rf q lo len := by
  obtain ⟨r, c, h, hlow⟩ := bothPoints_frame (wokenRegs s) (s.rf .finish 4 2)
  have hregs : wokenRegs s = { s with regs := (wokenRegs s).regs } := rfl
  unfold wokenLath
  dsimp only
  rw [h]
  generalize wokenRegs s = v at *
  generalize hx : ({ v with
    regs := r, vcs := c, power := { v.power with waking := false }
    west := { v.west with point := s.rf .finish 4 2 }, east := { v.east with point := s.rf .finish 4 2 } } : State) = x
  refine ⟨(bothRun_rest x).trans ?_, (bothRun_seam x).1, (bothRun_seam x).2, fun q hq hne lo len => ?_⟩
  · have hvcs : (bothRun x).vcs = x.vcs := rfl
    rw [hvcs]
    generalize (bothRun x).regs = r'
    subst hx
    generalize v.regs = r'' at hregs
    subst hregs
    rfl
  · refine (rf_bothRun x hne lo len).trans (rf_congr ?_ lo len)
    rw [← hx]
    exact hlow _ hq

theorem evalSlot_incomplete {s : State} {i : Nat} (h : (s.slotOf i).written.length < 256) : s.evalSlot i = s := if_pos h

theorem asleepWake_completes {s : State} (hw : s.power.waking = true) (h : ∀ i, i < 32 → (s.slotOf i).written.length < 256) :
    exec .asleepWakeComplete s = .next (wokenLath s) := by
  have hexec : exec .asleepWakeComplete s = .next ((List.range 32).foldl State.evalSlot (wokenLath s)) := if_pos hw
  refine hexec.trans (congrArg Host.Outcome.next ?_)
  obtain ⟨hlath, -⟩ := wokenLath_frame s
  refine List.foldlRecOn (motive := fun t => t = wokenLath s) (List.range 32) State.evalSlot rfl fun t ht i hi => ?_
  subst ht
  refine evalSlot_incomplete ?_
  rw [hlath]
  exact h i (List.mem_range.mp hi)

/-! ### Losses of 48 V (18 R600 R601, 20 R641) -/

theorem Sec.bank_setBank_self (x : Sec) (b : Bool) (k : FwBank) : (x.setBank b k).bank b = k := by cases b <;> rfl

theorem Sec.bank_setBank_other (x : Sec) (b : Bool) (k : FwBank) : (x.setBank (!b) k).bank b = x.bank b := by cases b <;> rfl

theorem Sec.activeB_setBank (x : Sec) (b : Bool) (k : FwBank) : (x.setBank b k).activeB = x.activeB := by cases b <;> rfl

theorem FwCut.unchanged {s t : State} (hotp : t.otp = s.otp) (hsec : t.sec = s.sec) {cmd : Nat} (h1 : cmd ≠ 1) :
    FwCut s t cmd :=
  ⟨fun _ => by rw [hsec], fun h => absurd h h1, ⟨by rw [hsec], fun _ => by rw [hsec]⟩, ⟨s.otp.rollback, hotp, le_refl _, .inl rfl⟩⟩

/-- A count that a cut COMMIT leaves lies between the one burnt and the running SVN. -/
theorem cutCommit_bounds (o run n : Nat) : o ≤ o + n % (max o run - o + 1)
    ∧ (o + n % (max o run - o + 1) = o ∨ o + n % (max o run - o + 1) ≤ run) := by
  have hlt : n % (max o run - o + 1) < max o run - o + 1 := Nat.mod_lt _ (by omega)
  omega

theorem cutFw_cuts {s : State} {c : SecCmd} (h : s.sec.fwCmd = some c) : FwCut s s.cutFw c.cmd := by
  unfold State.cutFw
  dsimp only
  rw [h]
  dsimp only
  split_ifs with h1 h4 hok h5
  · refine ⟨fun _ => Sec.activeB_setBank .., fun _ => Sec.bank_setBank_self .., ⟨Sec.bank_setBank_other .., fun hn => absurd h1 hn⟩,
      ⟨s.otp.rollback, rfl, le_refl _, .inl rfl⟩⟩
  · refine ⟨fun hno => ?_, fun h => absurd h h1, ⟨rfl, fun _ => rfl⟩, ⟨s.otp.rollback, rfl, le_refl _, .inl rfl⟩⟩
    rcases hno with hno | hno
    · exact absurd h4 hno
    · rw [hok.1] at hno
      cases hno
  · exact ⟨fun _ => rfl, fun h => absurd h h1, ⟨rfl, fun _ => rfl⟩, ⟨s.otp.rollback, rfl, le_refl _, .inl rfl⟩⟩
  · obtain ⟨hle, hor⟩ := cutCommit_bounds s.otp.rollback s.sec.runSvn (Config.cutAt s.free)
    exact ⟨fun _ => rfl, fun h => absurd h h1, ⟨rfl, fun _ => rfl⟩, ⟨_, rfl, hle, hor.imp_right fun hr => ⟨h5.1, hr⟩⟩⟩
  · exact FwCut.unchanged rfl rfl h1

theorem cutFw_none {s : State} (h : s.sec.fwCmd = none) : s.cutFw = s := by
  unfold State.cutFw
  dsimp only
  rw [h]

/-- A cut changes firmware banks and fuses alone. -/
theorem cutFw_rest (s : State) : s.cutFw = { s with sec := s.cutFw.sec, otp := s.cutFw.otp, free := s.cutFw.free } := by
  unfold State.cutFw
  dsimp only
  split
  · rfl
  · split_ifs <;> rfl

theorem KeepsImages.bank {s t : State} (h : KeepsImages s t) (b : Bool) : t.sec.bank b = s.sec.bank b := by
  cases b
  · exact h.banks.1
  · exact h.banks.2

/-- What a cut leaves stays through a reset. -/
theorem FwCut.keeps {s t u : State} {cmd : Nat} (h : FwCut s t cmd) (k : KeepsImages t u) : FwCut s u cmd := by
  obtain ⟨hactive, hbegun, ⟨hother, hbank⟩, hfuses⟩ := h
  refine ⟨fun hc => k.active.trans (hactive hc), fun hc => (k.bank _).trans (hbegun hc),
    ⟨(k.bank _).trans hother, fun hc => (k.bank _).trans (hbank hc)⟩, ?_⟩
  rw [k.otp]
  exact hfuses

theorem fullReset_flash (s : State) : s.fullReset.flash.losses = s.flash.losses ∧ s.fullReset.trip = s.trip := by
  obtain ⟨u, c, h⟩ := endScopes_rest s
  simp [State.fullReset, h]

/-- A loss of 48 V: a full Lath reset that loses render contents too, counted, the next start COLD. -/
structure Loses48 (s t : State) : Prop where
  leaves : ResetLeaves s t
  mem : t.mem = []
  poison : t.poison = []
  trip : t.trip = true
  losses : t.flash.losses = min (s.flash.losses + 1) 255
  pins : t.pins = { s.pins with alert := false }
  images : s.sec.fwCmd = none → KeepsImages s t
  cut : ∀ k, s.sec.fwCmd = some k → FwCut s t k.cmd

theorem lose48_loses (s : State) : Loses48 s s.lose48 := by
  have hcut := cutFw_rest s
  have hnone : s.sec.fwCmd = none → s.cutFw = s := cutFw_none
  have hsome : ∀ k, s.sec.fwCmd = some k → FwCut s s.cutFw k.cmd := fun k => cutFw_cuts
  unfold State.lose48 State.coldReset
  generalize s.cutFw = u at *
  have hpending : u.pending = s.pending := by rw [hcut]
  have hflash : u.flash = s.flash := by rw [hcut]
  have hpins : u.pins = s.pins := by rw [hcut]
  obtain ⟨hcores, -, hregs, hidle, hscopes, hpend, hsnag, hstarts⟩ := fullReset_leaves u
  have himages := fullReset_keepsImages u
  have hlosses := (fullReset_flash u).1
  have hpins' := fullReset_pins u
  generalize u.fullReset = v at *
  have himages' : KeepsImages u { v with
      mem := [], poison := [], trip := true, flash := { v.flash with losses := min (v.flash.losses + 1) 255 } } :=
    ⟨himages.otp, himages.banks, himages.active⟩
  refine ⟨⟨hcores, fun k _ => ⟨rfl, rfl⟩, hregs, hidle, hscopes, ?_⟩, rfl, rfl, rfl, ?_, hpins'.trans (by rw [hpins]),
    fun h => hnone h ▸ himages', fun k hk => (hsome k hk).keeps himages'⟩
  · exact ⟨hpend.trans hpending, hsnag.trans (by rw [hflash]), hstarts.trans (by rw [hflash])⟩
  · exact congrArg (fun n => min (n + 1) 255) (hlosses.trans (by rw [hflash]))

/-- The pins do not matter to what a reset leaves. -/
theorem ResetLeaves.pins {s t : State} (h : ResetLeaves s t) (p : Pins) : ResetLeaves s { t with pins := p } :=
  ⟨h.cores, h.cells, h.regs, h.idle, h.scopes, h.kept⟩

theorem FwCut.pins {s t : State} {cmd : Nat} (h : FwCut s t cmd) (p : Pins) : FwCut s { t with pins := p } cmd :=
  ⟨h.active, h.begun, h.other, h.fuses⟩

theorem KeepsImages.pins {s t : State} (h : KeepsImages s t) (p : Pins) : KeepsImages s { t with pins := p } :=
  ⟨h.otp, h.banks, h.active⟩

theorem supplyLoss {c : Instr} {s : State} {mv : Nat} (hstage : s.pins.stage = true)
    (hc : c = .auxLoss ∧ s.pins.aux = true ∨ c = .stageStop mv ∧ (mv < 38000 ∨ 62000 < mv)) :
    ∃ t, exec c s = .next t ∧ ResetLeaves s t ∧ t.mem = [] ∧ t.poison = [] ∧ t.trip = true ∧ t.pins.stage = false
      ∧ t.flash.losses = min (s.flash.losses + 1) 255 ∧ t.pins.perst = s.pins.perst
      ∧ (s.sec.fwCmd = none → KeepsImages s t) ∧ (∀ k, s.sec.fwCmd = some k → FwCut s t k.cmd)
      ∧ (c = .auxLoss → t.pins.aux = false ∧ t.pins.i3c = none ∧ t.pins.alert = false) := by
  obtain ⟨hleaves, hmem, hpoison, htrip, hlosses, hpins, himages, hcut⟩ := lose48_loses s
  have hperst : s.lose48.pins.perst = s.pins.perst := by rw [hpins]
  rcases hc with ⟨rfl, haux⟩ | ⟨rfl, hmv⟩
  · have hexec : exec .auxLoss s = .next { s.lose48 with
        pins := { s.lose48.pins with aux := false, stage := false, alert := false, i3c := none } } := by
      have hboth : (s.pins.aux && s.pins.stage) = true := by rw [haux, hstage]; rfl
      exact congrArg (fun t : State => Host.Outcome.next { t with
        pins := { t.pins with aux := false, stage := false, alert := false, i3c := none } }) (if_pos hboth)
    exact ⟨_, hexec, hleaves.pins _, hmem, hpoison, htrip, rfl, hlosses, hperst, fun h => (himages h).pins _,
      fun k hk => (hcut k hk).pins _, fun _ => ⟨rfl, rfl, rfl⟩⟩
  · have hstop : (s.pins.stage && (decide (mv < 38000) || decide (62000 < mv))) = true := by
      rw [hstage]
      simpa using hmv
    have hexec : exec (.stageStop mv) s = .next { s.lose48 with pins := { s.lose48.pins with stage := false } } := if_pos hstop
    exact ⟨_, hexec, hleaves.pins _, hmem, hpoison, htrip, rfl, hlosses, hperst, fun h => (himages h).pins _,
      fun k hk => (hcut k hk).pins _, nofun⟩

theorem auxLoss_stopped {s : State} (h : s.pins.stage = false) :
    exec .auxLoss s = .next { s with pins := { s.pins with aux := false, alert := false, i3c := none } } := by
  have hno : ¬ (s.pins.aux && s.pins.stage) = true := by simp [h]
  refine (congrArg (fun t : State => Host.Outcome.next { t with
    pins := { t.pins with aux := false, stage := false, alert := false, i3c := none } }) (if_neg hno)).trans ?_
  rw [← h]

theorem stageStop_in_range {s : State} {mv : Nat} (hlo : 38000 ≤ mv) (hhi : mv ≤ 62000) : exec (.stageStop mv) s = .next s :=
  if_neg (by simp; omega)

theorem stageStart_starts {s : State} {v : Supply} (haux : s.pins.aux = true) (hstage : s.pins.stage = false) :
    (40000 < v.clip → v.clip ≤ 60000 → 3135 ≤ v.aux → v.aux ≤ 3465 →
      exec (.stageStart v) s = .next { s with pins := { s.pins with stage := true } })
    ∧ (v.clip ≤ 40000 ∨ 60000 < v.clip ∨ v.aux < 3135 ∨ 3465 < v.aux → exec (.stageStart v) s = .next s) := by
  have hiff : (s.pins.aux && !s.pins.stage && decide (3135 ≤ v.aux) && decide (v.aux ≤ 3465) && decide (40000 < v.clip)
      && decide (v.clip ≤ 60000)) = true ↔ 3135 ≤ v.aux ∧ v.aux ≤ 3465 ∧ 40000 < v.clip ∧ v.clip ≤ 60000 := by
    simp [haux, hstage, and_assoc]
  exact ⟨fun h1 h2 h3 h4 => congrArg Host.Outcome.next (if_pos (hiff.mpr ⟨h3, h4, h1, h2⟩)),
    fun h => congrArg Host.Outcome.next (if_neg fun hc => by have := hiff.mp hc; omega)⟩

/-! ### PERST#, the watchdog and the thermal trip (03 R133, 17 R579) -/

theorem fullReset_render (s : State) {k : Nat} (hk : k < 2 ^ 45) :
    memGet s.fullReset.mem k = memGet s.mem k ∧ s.fullReset.poisoned k = s.poisoned k := by
  rw [fullReset_memGet, fullReset_poisoned, if_pos hk, decide_eq_true hk, Bool.true_and]
  exact ⟨rfl, rfl⟩

theorem pinReset {c : Instr} {s : State} (hc : c = .perstAssert ∧ s.pins.stage = true ∧ s.pins.perst = false
      ∨ c = .mcWatchdogExpiry ∧ s.pins.aux = true) :
    ∃ t, exec c s = .next t ∧ ResetLeaves s t ∧ KeepsImages s t ∧ t.trip = s.trip
      ∧ t.pins = { s.pins with alert := false, perst := s.pins.perst || decide (c = .perstAssert) }
      ∧ (s.Sound → ∀ k, k < 2 ^ 45 → memGet t.mem k = memGet s.mem k ∧ t.poisoned k = s.poisoned k) := by
  have hleaves := fullReset_leaves s
  have himages := fullReset_keepsImages s
  have htrip := (fullReset_flash s).2
  have hpins := fullReset_pins s
  have hrender := fun k (hk : k < 2 ^ 45) => fullReset_render s hk
  rcases hc with ⟨rfl, hstage, hperst⟩ | ⟨rfl, haux⟩
  · have hboth : (s.pins.stage && !s.pins.perst) = true := by rw [hstage, hperst]; rfl
    have hexec : exec .perstAssert s = execPerstAssert s := rfl
    unfold execPerstAssert at hexec
    rw [hboth, if_pos rfl] at hexec
    refine ⟨_, hexec, hleaves.pins _, himages.pins _, htrip, ?_, fun _ => hrender⟩
    rw [hpins, decide_eq_true rfl, Bool.or_true]
  · have hexec : exec .mcWatchdogExpiry s = .next s.fullReset := congrArg Host.Outcome.next (if_pos haux)
    refine ⟨_, hexec, hleaves, himages, htrip, ?_, fun _ => hrender⟩
    rw [hpins, decide_eq_false nofun, Bool.or_false]

theorem thermalTrip_trips {s : State} {temp : Int} (h : 110 ≤ temp) : ∃ t, exec (.thermalTrip temp) s = .next t
    ∧ ResetLeaves s t ∧ KeepsImages s t ∧ t.trip = true ∧ t.pins = { s.pins with alert := false } := by
  have hexec : exec (.thermalTrip temp) s = .next s.coldReset := congrArg Host.Outcome.next (if_pos h)
  have hleaves := fullReset_leaves s
  have himages := fullReset_keepsImages s
  refine ⟨_, hexec, ?_, ⟨himages.otp, himages.banks, himages.active⟩, rfl, fullReset_pins s⟩
  exact ⟨hleaves.cores, hleaves.cells, hleaves.regs, hleaves.idle, hleaves.scopes, hleaves.kept⟩

/-- Settles O51: the function and the module by what each reset leaves, a running firmware command by what a cut leaves of it. -/
theorem functionAndModuleResets : Obligations.FunctionAndModuleResets := by
  refine ⟨fun c s hc hq => ?_, fun s r => ⟨fun hr hn => ?_, fun hr hn => ?_⟩, ?_, fun s => rfl,
    fun s => ⟨d0Return_awake, d0Return_from_sleep, fun hw hslots => ?_⟩, fun s => ?_, fun c s mv hstage hc => supplyLoss hstage hc,
    fun s => auxLoss_stopped, fun s mv v => ⟨stageStop_in_range, stageStart_starts⟩, fun c s hc => pinReset hc,
    fun s => ⟨fun h => ?_, rfl, fun a => ⟨fun h => congrArg Host.Outcome.next (if_pos h), fun h => ?_⟩⟩,
    fun s temp => ⟨thermalTrip_trips, fun h => congrArg Host.Outcome.next (if_neg (by omega))⟩⟩
  · obtain ⟨hrest, hslots, hwin, hbar2, hbme, hothers⟩ := resetFunction_resets hq
    exact ⟨_, exec_resetFunction s hc, hrest, hslots, hwin, hbar2, hbme, hothers⟩
  · obtain ⟨t, hexec, hrest, hframe⟩ := configRead_answers (s := s) hr
    exact ⟨t, cfgBytes s r, hexec, hrest, hframe, cfgBytes_vendor hn, cfgBytes_class hn, fun ho h64 _ hl => cfgBytes_aer ho h64 hl⟩
  · obtain ⟨t, hexec, hrest, hcfg, haer, hregs, hbme⟩ := configWrite_takes (s := s) hr
    have hput := cfgAfter_takes s r
    rw [← hcfg] at hput
    refine ⟨t, hexec, hrest, ?_, hregs, hput, fun b hlo hb => ?_, fun o ho => ?_, hbme⟩
    · rw [haer, ← clearsAer_iff, Bool.and_eq_true, Bool.not_eq_true', Bool.not_eq_true]
    · rw [hput 4 b hlo (by decide) hb (by rw [cfgTakes_command]; decide), cfgTakes_command]
      exact congrArg some (replaced_all _ _)
    · rw [hcfg, cfgAfter_ne s r fun _ _ _ => cfgTakes_identity s ho, hn o (by omega)]
  · intro s lc h n pos addr g e rest more bytes ep hq _ hst hb hfin ha hmore h1 h64 hp hlo hhi hnot
    exact hostRead_completes hq hst hb hfin ha hmore h1 h64 hp hlo hhi hnot
  · obtain ⟨hrest, hwest, heast, hkeep⟩ := wokenLath_frame s
    obtain ⟨hpwr, hrlr, hclkw, hclke⟩ := wokenRegs_shows s
    refine ⟨_, asleepWake_completes hw hslots, hrest, hwest, heast, ?_, ?_, ?_, ?_⟩
    · rw [hkeep _ pwrState_low (by decide), hpwr]
    · rw [hkeep _ rlrState_low (by decide), hrlr]
    · rw [hkeep .clkWest (clkReg_low .west) (by decide), hclkw]
    · rw [hkeep .clkEast (clkReg_low .east) (by decide), hclke]
  · refine ⟨_, rfl, rfl, rfl, rfl, ?_⟩
    exact decide_eq_true_iff
  · have hno : ¬ (s.pins.stage && !s.pins.perst) = true := by simp [h]
    exact congrArg (fun t : State => Host.Outcome.next { t with pins := { t.pins with perst := true } }) (if_neg hno)
  · exact congrArg Host.Outcome.next (if_neg (by rw [h]; exact Bool.false_ne_true))

end Sys2Proof.Machine
end
